-- ==== Sys2Proof/Word.lean ====
section
/-! DEFINITION. The words of the machine and the one table shape its sparse state is held in. -/

namespace Sys2Proof

/-- A scalar register, an address, a tick: 64 bits (R30, R17). -/
abbrev Word := BitVec 64

/-- The smallest addressable unit. Multi-byte values are little-endian (R9). -/
abbrev Byte := BitVec 8

/-- A cell of a vector register, a flag, a lane: 32 bits (R30, R41, R106). -/
abbrev Word32 := BitVec 32

/-- A sparse table: keys strictly rise, and no entry equals the default the table is read with. -/
abbrev Tab (α : Type) := List (Nat × α)

/-- Scalar registers s0 to s63 (R30). -/
abbrev SReg := Fin 64
/-- Vector registers v0 to v31 (R30). -/
abbrev VReg := Fin 32
/-- Mask registers k0 to k15 (R30). -/
abbrev KReg := Fin 16
/-- Stream registers a0 to a15 (R30). -/
abbrev AReg := Fin 16
/-- Handle registers h0 to h15 (R30). -/
abbrev HReg := Fin 16
/-- Guard slots q0 to q7 (R30). -/
abbrev QSlot := Fin 8

end Sys2Proof
end

