-- ==== Sys2Proof/Syntax.lean ====
section
/-! DEFINITION. The syntax of one step of the part: every row of the opcode table is a constructor of
`Instr`, with its operand fields as the encoding tables of chapter 04 name them. A row of the table
that is an event, not an instruction word, carries the data its event brings with it. -/

namespace Sys2Proof

/-- What the first lane and the extension word of every C, V, X, M and L instruction hold besides
their format's fields (R112, R114). -/
structure Hd where
  /-- idle count, R19 -/
  idle : BitVec 4
  /-- the long form, R113 -/
  long : Bool
  /-- the instruction carries a guard qualifier -/
  gq : Bool
  /-- `unless` rather than `when` -/
  gn : Bool
  /-- guard slot of the qualifier -/
  qs : QSlot
  /-- field A is the head of the load data queue -/
  qp : Bool
  deriving DecidableEq, Repr

/-- Second operand of format CR (R117, R129): a register or the 33-bit immediate. -/
inductive Src2
  | reg (b : SReg)
  | imm (v : BitVec 33)
  deriving DecidableEq, Repr

/-- Trip count of format CL (R117): a register or the 32-bit immediate. -/
inductive Trip
  | reg (t : SReg)
  | imm (v : BitVec 32)
  deriving DecidableEq, Repr

/-- A flag named by format CF (R117): FK 0 own, 1 device, 2 peer. -/
structure FlagRef where
  fk : BitVec 2
  fn : BitVec 12
  prow : BitVec 4
  pcol : BitVec 4
  deriving DecidableEq, Repr

/-- Value field of a flag instruction (R238): `reg 0` stands for the value 1. -/
inductive FlagVal
  | reg (a : SReg)
  | imm (v : BitVec 15)
  deriving DecidableEq, Repr

/-- Extension fields of format VR that every V and X instruction has (R120). -/
structure VExt where
  /-- mask register -/
  msk : KReg
  /-- format code, or type code -/
  f : BitVec 4
  /-- rounding code -/
  rnd : BitVec 3
  sat : Bool
  deriving DecidableEq, Repr

/-- Extension fields of the conversions (R121, R180). -/
structure Cvt where
  /-- target format code -/
  tf : BitVec 4
  /-- source type code -/
  sty : BitVec 3
  /-- target type code -/
  tty : BitVec 3
  /-- 0 float to float, 1 float to int, 2 int to float, 3 int to int -/
  kind : BitVec 2
  deriving DecidableEq, Repr

/-- Rotation amount (R121, R184). -/
inductive Rot
  | imm (n : Fin 64)
  | reg (s : SReg)
  deriving DecidableEq, Repr

/-- Destination of `vrred` (R121): a v register, or with SD an s register. -/
inductive VDst
  | v (d : VReg)
  | s (d : SReg)
  deriving DecidableEq, Repr

/-- Address fields of format LM (R123, R224). -/
structure LMem where
  /-- mask register -/
  msk : KReg
  /-- address space: 0 handle, 1 WB, 2 AB, 3 CB -/
  as : BitVec 2
  /-- handle register, or address bits [23:20] -/
  hn : HReg
  /-- offset register -/
  o : SReg
  imm : BitVec 20
  deriving DecidableEq, Repr

/-- A flag named by a token of an engine command (R124). -/
structure FlagTok where
  /-- a device flag -/
  dev : Bool
  n : BitVec 12
  deriving DecidableEq, Repr

/-- What every engine command holds besides its payload (R124, R249). -/
structure ECmd where
  idle : BitVec 4
  /-- the 128-bit form -/
  long : Bool
  /-- 0 loader, 1 storer, 2 collective, 3 Harvest -/
  eng : Fin 4
  /-- start-stamp register, 0 for none -/
  st : SReg
  produce : Option FlagTok
  c0 : Option FlagTok
  c1 : Option FlagTok
  c2 : Option FlagTok
  /-- UI bit, P[51] -/
  ui : Bool
  deriving DecidableEq, Repr

/-- Payload shared by the copy family (R254). -/
structure Copy where
  do_ : SReg
  dh : HReg
  so : SReg
  sh : HReg
  pair : BitVec 3
  fe : Bool
  ln : Fin 32
  deriving DecidableEq, Repr

/-- Payload of `coll` but for its kind (R258). -/
structure Coll where
  red : BitVec 2
  fmt : BitVec 2
  dg : Bool
  dh : HReg
  gr : SReg
  so : SReg
  ln : Fin 32
  do_ : SReg
  nf : SReg
  col : BitVec 4
  row : BitVec 4
  deriving DecidableEq, Repr

/-- An agent that fetches lines and has fixed-latency writes in flight: a member, its user-level
interrupt handler, or a lookup core (R14, R24, R379). -/
inductive Agent
  | site (n : Nat)
  | handler (n : Nat)
  | lookup (n : Nat)
  deriving DecidableEq, Repr

/-- Who waits on a tile slot outside the lockstep group (R44). -/
inductive Waiter
  | eng (site : Nat) (e : Fin 4)
  | lookup (n : Nat)
  deriving DecidableEq, Repr

/-- The halted agent a refill serves (R326). -/
inductive FaultSrc
  | l
  | stream (e : Fin 4)
  | deferred (tok : Nat)
  | lookup (n : Nat)
  deriving DecidableEq, Repr

/-- Where the firmware places a launch (R338 to R342): its choices, which the spec leaves to policy. -/
structure Placement where
  /-- physical sites of the members, in member order -/
  sites : List Nat
  /-- physical address of the relocated copy -/
  imgPA : Nat
  /-- physical address of the parameter block -/
  argPA : Nat
  /-- start tick -/
  t0 : Nat
  /-- a smaller SLEEP chosen to stay under the power cap (R436) -/
  sleep : Option Nat
  /-- the firmware's estimate of the launch's draw, in watts (R436) -/
  watts : Nat
  /-- the saved launch that is bound again; none for the next record of the queue (R351, R414) -/
  resume : Option Word32
  deriving DecidableEq, Repr

/-- What the firmware does in one move of a page (R331, R332). -/
inductive Migration
  | begin_ (ctx : Nat) (va : BitVec 54) (dst : Nat)
  | copy
  | copyFails
  | finish
  deriving DecidableEq, Repr

/-- A firmware stage as the measurement log holds it (R429, R430). -/
structure FwStage where
  digest : BitVec 512
  step : BitVec 32
  version : BitVec 32
  deriving DecidableEq, Repr

/-- What a bring-up meets on its way (R429). -/
structure Boot where
  /-- the first step that fails, 0 for none -/
  failStep : Nat
  /-- the firmware stages, in order -/
  stages : List FwStage
  /-- MODULE_ID set up by step 4 -/
  moduleId : BitVec 16
  /-- BOOT_STATUS where step 4 fails: step 5 has not run, and nothing else is stated -/
  status : Fin 255
  deriving DecidableEq, Repr, Inhabited

/-- A flit arriving on a Thirel port (R391). -/
structure Flit where
  opc : BitVec 8
  /-- LEN: payload chunks, or for a read the chunks asked for -/
  len : BitVec 8
  smod : BitVec 16
  dmod : BitVec 16
  tag : BitVec 16
  addr : BitVec 40
  sts : BitVec 8
  /-- header bytes 14 and 15 -/
  zero : BitVec 16
  data : List Byte
  deriving DecidableEq, Repr

/-- What a collective chunk carries (R397 to R399): the sender's rank, the number n of the `coll` on the sender, the
chunk of the block, whether it is the finished value of a reduction, and KIND, RED, FMT and LN of the sender's `coll`. -/
structure CollData where
  rank : Nat
  nth : Nat
  chunk : Nat
  final : Bool
  kind : Nat
  red : Nat
  fmt : Nat
  ln : Nat
  deriving DecidableEq, Repr

/-- What a host access names (R297, R402). -/
inductive HostTarget
  | mem (addr : Nat)
  | bar (off : Nat)
  | deviceFlag (n : Nat)
  /-- configuration space of the function (R429, R434) -/
  | config (off : Nat)
  deriving DecidableEq, Repr

/-- What the code of a stored sector tells when it is read (R312). -/
inductive EccOutcome
  | clean
  | corrected
  | uncorrectable
  deriving DecidableEq, Repr

/-- A unit of storage that an error-correcting code covers (R312). -/
inductive Stored
  /-- a 32-byte sector of a device -/
  | device (sector : Nat)
  /-- a 32-byte sector held in L2 -/
  | l2Data (sector : Nat)
  /-- the tag of a line held in L2 -/
  | l2Tag (line : Nat)
  /-- a 32-byte chunk of a typed buffer of a site: 1 WB, 2 AB, 3 CB -/
  | buf (site b chunk : Nat)
  deriving DecidableEq, Repr

/-- Registers that only the management core writes and that hold what is written (R45, R309, R316,
R329, R330, R333, R342, R392 to R394, R406, R417, R427). -/
inductive MgmtReg
  | context (n : Nat)
  | quota (n : Nat)
  | quotaIndex (ctx : Nat)
  | ring (n part : Nat)
  | ringWeight (cls : Nat)
  | queue (n : Nat)
  | bind (site : Nat)
  | saveArea (site : Nat)
  | waitLog (site : Nat)
  | trace (site : Nat)
  | moduleId
  | aperture (n : Nat)
  | grant (n : Nat)
  | route (n : Nat)
  | vigilCtl
  | ringHead (n : Nat)
  | fairness (q : Nat)
  /-- where a function's profile session keeps its table: context, and whether the state was moved here (R426) -/
  | profile (func ctx : Nat) (moved : Bool)
  /-- INV_VA and INV_CTL (R322) -/
  | invVa
  | invCtl
  /-- PREEMPT_CTL (R406) -/
  | preemptCtl
  deriving DecidableEq, Repr

/-- One step of the part: an instruction of a queue, an engine command, or an event of the opcode
table. The constructors stand in the order of the table's rows. -/
inductive Instr
  /-- NOP: R264 -/
  | nop (h : Hd)
  /-- ADD: R130 -/
  | add (h : Hd) (d a : SReg) (b : Src2)
  /-- SUB: R130 -/
  | sub (h : Hd) (d a : SReg) (b : Src2)
  /-- MUL: R130 -/
  | mul (h : Hd) (d a : SReg) (b : Src2)
  /-- MULH: R130 -/
  | mulh (h : Hd) (d a : SReg) (b : Src2)
  /-- MULHN: R130 -/
  | mulhn (h : Hd) (d a : SReg) (b : Src2)
  /-- DIV: R130 -/
  | div (h : Hd) (d a : SReg) (b : Src2)
  /-- DIVN: R130 -/
  | divn (h : Hd) (d a : SReg) (b : Src2)
  /-- REM: R130 -/
  | rem (h : Hd) (d a : SReg) (b : Src2)
  /-- REMN: R130 -/
  | remn (h : Hd) (d a : SReg) (b : Src2)
  /-- AND: R130 -/
  | and_ (h : Hd) (d a : SReg) (b : Src2)
  /-- OR: R130 -/
  | or_ (h : Hd) (d a : SReg) (b : Src2)
  /-- XOR: R130 -/
  | xor (h : Hd) (d a : SReg) (b : Src2)
  /-- ANDN: R130 -/
  | andn (h : Hd) (d a : SReg) (b : Src2)
  /-- SHL: R130 -/
  | shl (h : Hd) (d a : SReg) (b : Src2)
  /-- SHR: R130 -/
  | shr (h : Hd) (d a : SReg) (b : Src2)
  /-- SRA: R130 -/
  | sra (h : Hd) (d a : SReg) (b : Src2)
  /-- ROL: R130 -/
  | rol (h : Hd) (d a : SReg) (b : Src2)
  /-- MIN: R130 -/
  | min (h : Hd) (d a : SReg) (b : Src2)
  /-- MAX: R130 -/
  | max (h : Hd) (d a : SReg) (b : Src2)
  /-- MINN: R130 -/
  | minn (h : Hd) (d a : SReg) (b : Src2)
  /-- MAXN: R130 -/
  | maxn (h : Hd) (d a : SReg) (b : Src2)
  /-- CLZ: R130 -/
  | clz (h : Hd) (d a : SReg)
  /-- CTZ: R130 -/
  | ctz (h : Hd) (d a : SReg)
  /-- POPC: R130 -/
  | popc (h : Hd) (d a : SReg)
  /-- SEXT: R130, the width -/
  | sext (h : Hd) (d a : SReg) (w : BitVec 33)
  /-- ZEXT: R130, the width -/
  | zext (h : Hd) (d a : SReg) (w : BitVec 33)
  /-- BFX: R132 -/
  | bfx (h : Hd) (d a : SReg) (p : BitVec 6) (n : BitVec 7)
  /-- BFI: R132 -/
  | bfi (h : Hd) (d a : SReg) (p : BitVec 6) (n : BitVec 7)
  /-- CMP: R133 -/
  | cmp (h : Hd) (d a b : SReg) (cc : BitVec 4)
  /-- SEL: R133 -/
  | sel (h : Hd) (d a b y : SReg)
  /-- LI: R134 -/
  | li (h : Hd) (d : SReg) (imm : BitVec 39)
  /-- LIH: R134 -/
  | lih (h : Hd) (d : SReg) (imm : BitVec 32)
  /-- MOV: R134 -/
  | mov (h : Hd) (d a : SReg)
  /-- LEA: R134 -/
  | lea (h : Hd) (d a b : SReg) (p : BitVec 6)
  /-- CRD: R135 -/
  | crd (h : Hd) (d : SReg) (row col : BitVec 4)
  /-- BR: R137 -/
  | br (h : Hd) (z : Bool) (a : SReg) (off : BitVec 39)
  /-- JMP: R137 -/
  | jmp (h : Hd) (off : BitVec 46)
  /-- JMPI: R137 -/
  | jmpi (h : Hd) (a : SReg)
  /-- CALL: R137 -/
  | call (h : Hd) (d : SReg) (off : BitVec 39)
  /-- RET: R137 -/
  | ret (h : Hd) (a : SReg)
  /-- LOOP: R140 -/
  | loop (h : Hd) (lc : Fin 8) (trip : Trip) (len : BitVec 10)
  /-- LOOPN: R140, R142 -/
  | loopn (h : Hd) (lc : Fin 8) (as : AReg) (len : BitVec 10)
  /-- LOOPC: R140 -/
  | loopc (h : Hd) (lc : Fin 8) (trip : Trip) (len : BitVec 10)
  /-- LOOPD: R140 -/
  | loopd (h : Hd) (lc : Fin 8) (trip : Trip) (len : BitVec 10)
  /-- LBRK: R145 -/
  | lbrk (h : Hd) (lc : Fin 8) (a : SReg)
  /-- LREC: R146 -/
  | lrec (h : Hd) (id : BitVec 16)
  /-- STG: R148 -/
  | stg (h : Hd) (d : SReg) (stage : Fin 8)
  /-- FPOST: R238 -/
  | fpost (h : Hd) (f : FlagRef) (sc : BitVec 2) (v : FlagVal)
  /-- FWAIT: R238 -/
  | fwait (h : Hd) (f : FlagRef) (sc : BitVec 2) (v : FlagVal)
  /-- FSET: R238 -/
  | fset (h : Hd) (f : FlagRef) (sc : BitVec 2) (v : FlagVal)
  /-- FDEC: R238 -/
  | fdec (h : Hd) (f : FlagRef) (sc : BitVec 2) (v : FlagVal)
  /-- FREAD: R238 -/
  | fread (h : Hd) (f : FlagRef) (d : SReg)
  /-- FARM: R237 -/
  | farm (h : Hd) (f : FlagRef) (sc : BitVec 2) (v : FlagVal)
  /-- BARJ: R242 -/
  | barj (h : Hd) (n : BitVec 12) (a : SReg)
  /-- BARW: R242 -/
  | barw (h : Hd) (n : BitVec 12) (a : SReg)
  /-- ALIGN: R243 -/
  | align (h : Hd) (n : BitVec 6)
  /-- IDLE: R244 -/
  | idle (h : Hd) (n1 : BitVec 20)
  /-- IDLE_COLUMN: R244 -/
  | idleColumn (h : Hd) (n1 : BitVec 20) (col : BitVec 2)
  /-- QOPEN: R167 -/
  | qopen (h : Hd) (q : QSlot) (a : SReg)
  /-- QOPENF: R167 -/
  | qopenf (h : Hd) (q : QSlot) (a : SReg) (fk : BitVec 2) (fn : BitVec 12)
  /-- QRES: R168 -/
  | qres (h : Hd) (q : QSlot) (a : SReg)
  /-- QWAIT: R169 -/
  | qwait (h : Hd) (q : QSlot)
  /-- QPICK: R170; vr: d and a name v registers -/
  | qpick (h : Hd) (vr : Bool) (d a : SReg) (gm : BitVec 16)
  /-- QSTAT: R171; vr: d and a name v registers -/
  | qstat (h : Hd) (vr : Bool) (d a : SReg)
  /-- TRAP: R264 -/
  | trap (h : Hd) (code : BitVec 16)
  /-- SVC: R265 -/
  | svc (h : Hd) (code : BitVec 16)
  /-- HALT: R266 -/
  | halt (h : Hd)
  /-- YIELD: R267 -/
  | yield (h : Hd)
  /-- RDSR: R264 -/
  | rdsr (h : Hd) (d : SReg) (sn : BitVec 8)
  /-- WRSR: R268 -/
  | wrsr (h : Hd) (a : SReg) (sn : BitVec 8)
  /-- BRK: R269 -/
  | brk (h : Hd) (code : BitVec 16)
  /-- UIRET: R272 -/
  | uiret (h : Hd)
  /-- PCSEL: R264 -/
  | pcsel (h : Hd) (code : BitVec 16)
  /-- PCREAD: R270 -/
  | pcread (h : Hd) (d a : SReg) (op : BitVec 2)
  /-- TRMARK: R271 -/
  | trmark (h : Hd) (code : BitVec 16)
  /-- LIDX: R384 -/
  | lidx (h : Hd) (d : SReg) (hn : HReg) (a : SReg) (op : BitVec 4)
  /-- LDUP: R384 -/
  | ldup (h : Hd) (d : SReg)
  /-- LGAT: R384 -/
  | lgat (h : Hd) (hn : HReg) (a : SReg) (op : BitVec 4)
  /-- LPOOL: R384 -/
  | lpool (h : Hd) (op : BitVec 4)
  /-- LSEND: R387 -/
  | lsend (h : Hd) (a : SReg) (prow pcol : BitVec 4) (slot : BitVec 11)
  /-- LSCAT: R388 -/
  | lscat (h : Hd) (hn : HReg) (a : SReg) (op : BitVec 4)
  /-- VADD: R177 -/
  | vadd (h : Hd) (x : VExt) (d a b : VReg)
  /-- VSUB: R177 -/
  | vsub (h : Hd) (x : VExt) (d a b : VReg)
  /-- VMUL: R177 -/
  | vmul (h : Hd) (x : VExt) (d a b : VReg)
  /-- VFMA: R177 -/
  | vfma (h : Hd) (x : VExt) (d a b y : VReg)
  /-- VFMS: R177 -/
  | vfms (h : Hd) (x : VExt) (d a b y : VReg)
  /-- VFNMA: R177 -/
  | vfnma (h : Hd) (x : VExt) (d a b y : VReg)
  /-- VMIN: R177 -/
  | vmin (h : Hd) (x : VExt) (d a b : VReg)
  /-- VMAX: R177 -/
  | vmax (h : Hd) (x : VExt) (d a b : VReg)
  /-- VMINN: R177 -/
  | vminn (h : Hd) (x : VExt) (d a b : VReg)
  /-- VMAXN: R177 -/
  | vmaxn (h : Hd) (x : VExt) (d a b : VReg)
  /-- VABS: R177 -/
  | vabs (h : Hd) (x : VExt) (d a : VReg)
  /-- VNEG: R177 -/
  | vneg (h : Hd) (x : VExt) (d a : VReg)
  /-- VCMP: R178 -/
  | vcmp (h : Hd) (x : VExt) (d : KReg) (a b : VReg) (cc : BitVec 4)
  /-- VSEL: R177 -/
  | vsel (h : Hd) (x : VExt) (d a b : VReg) (y : KReg)
  /-- VCLAMP: R177 -/
  | vclamp (h : Hd) (x : VExt) (d a b y : VReg)
  /-- VLDX2: R177 -/
  | vldx2 (h : Hd) (x : VExt) (d a b : VReg)
  /-- VRND: R177 -/
  | vrnd (h : Hd) (x : VExt) (d a : VReg)
  /-- VIADD: R179 -/
  | viadd (h : Hd) (x : VExt) (d a b : VReg)
  /-- VISUB: R179 -/
  | visub (h : Hd) (x : VExt) (d a b : VReg)
  /-- VIMUL: R179 -/
  | vimul (h : Hd) (x : VExt) (d a b : VReg)
  /-- VIMULH: R179 -/
  | vimulh (h : Hd) (x : VExt) (d a b : VReg)
  /-- VIAND: R179 -/
  | viand (h : Hd) (x : VExt) (d a b : VReg)
  /-- VIOR: R179 -/
  | vior (h : Hd) (x : VExt) (d a b : VReg)
  /-- VIXOR: R179 -/
  | vixor (h : Hd) (x : VExt) (d a b : VReg)
  /-- VISHL: R179 -/
  | vishl (h : Hd) (x : VExt) (d a b : VReg)
  /-- VISHR: R179 -/
  | vishr (h : Hd) (x : VExt) (d a b : VReg)
  /-- VISRA: R179 -/
  | visra (h : Hd) (x : VExt) (d a b : VReg)
  /-- VIMIN: R179 -/
  | vimin (h : Hd) (x : VExt) (d a b : VReg)
  /-- VIMAX: R179 -/
  | vimax (h : Hd) (x : VExt) (d a b : VReg)
  /-- VIABS: R179 -/
  | viabs (h : Hd) (x : VExt) (d a : VReg)
  /-- VICMP: R179 -/
  | vicmp (h : Hd) (x : VExt) (d : KReg) (a b : VReg) (cc : BitVec 4)
  /-- VICLAMP: R179 -/
  | viclamp (h : Hd) (x : VExt) (d a b y : VReg)
  /-- VCVT: R180 -/
  | vcvt (h : Hd) (x : VExt) (d a : VReg) (k : Cvt)
  /-- VCVTS: R180 -/
  | vcvts (h : Hd) (x : VExt) (d a b : VReg) (k : Cvt)
  /-- VPACK: R181 -/
  | vpack (h : Hd) (x : VExt) (d a b : VReg) (k : Cvt)
  /-- VUNPK: R182 -/
  | vunpk (h : Hd) (x : VExt) (d a : VReg) (p : Fin 32) (k : Cvt)
  /-- VMOV: R184 -/
  | vmov (h : Hd) (x : VExt) (d a : VReg)
  /-- VBC: R184 -/
  | vbc (h : Hd) (x : VExt) (d : VReg) (s : SReg)
  /-- VRBC: R184 -/
  | vrbc (h : Hd) (x : VExt) (d a : VReg) (col : Fin 64)
  /-- VCBC: R184 -/
  | vcbc (h : Hd) (x : VExt) (d a : VReg) (row : Fin 16)
  /-- VRROT: R184 -/
  | vrrot (h : Hd) (x : VExt) (d a : VReg) (n : Rot)
  /-- VCROT: R184 -/
  | vcrot (h : Hd) (x : VExt) (d a : VReg) (n : Rot)
  /-- VRRED: R185 -/
  | vrred (h : Hd) (x : VExt) (d : VDst) (a : VReg) (op : BitVec 3)
  /-- VCRED: R185 -/
  | vcred (h : Hd) (x : VExt) (d a : VReg) (op : BitVec 3)
  /-- VRSCAN: R185 -/
  | vrscan (h : Hd) (x : VExt) (d a : VReg) (op : BitVec 3)
  /-- VPERM: R184 -/
  | vperm (h : Hd) (x : VExt) (d a b : VReg)
  /-- VTRN: R184 -/
  | vtrn (h : Hd) (x : VExt) (d a : VReg)
  /-- VIOTA: R184 -/
  | viota (h : Hd) (x : VExt) (d : VReg)
  /-- VEXT: R184 -/
  | vext (h : Hd) (x : VExt) (d : SReg) (a : VReg) (row : Fin 16) (col : Fin 64)
  /-- VINS: R184 -/
  | vins (h : Hd) (x : VExt) (d : VReg) (s : SReg) (row : Fin 16) (col : Fin 64)
  /-- KAND: R186 -/
  | kand (h : Hd) (x : VExt) (d a b : KReg)
  /-- KOR: R186 -/
  | kor (h : Hd) (x : VExt) (d a b : KReg)
  /-- KXOR: R186 -/
  | kxor (h : Hd) (x : VExt) (d a b : KReg)
  /-- KNOT: R186 -/
  | knot (h : Hd) (x : VExt) (d a : KReg)
  /-- KMOV: R186 -/
  | kmov (h : Hd) (x : VExt) (d a : KReg)
  /-- KPOP: R186 -/
  | kpop (h : Hd) (x : VExt) (d : SReg) (a : KReg)
  /-- KFST: R186 -/
  | kfst (h : Hd) (x : VExt) (d : SReg) (a : KReg)
  /-- RTCNT: R187 -/
  | rtcnt (h : Hd) (x : VExt) (a : VReg)
  /-- VROPE: R188 -/
  | vrope (h : Hd) (x : VExt) (d a b y : VReg)
  /-- XEXP2: R189 -/
  | xexp2 (h : Hd) (x : VExt) (d a : VReg)
  /-- XLOG2: R189 -/
  | xlog2 (h : Hd) (x : VExt) (d a : VReg)
  /-- XRCP: R189 -/
  | xrcp (h : Hd) (x : VExt) (d a : VReg)
  /-- XRSQRT: R189 -/
  | xrsqrt (h : Hd) (x : VExt) (d a : VReg)
  /-- XSQRT: R189 -/
  | xsqrt (h : Hd) (x : VExt) (d a : VReg)
  /-- XDIV: R189 -/
  | xdiv (h : Hd) (x : VExt) (d a b : VReg)
  /-- XRNG: R190 -/
  | xrng (h : Hd) (x : VExt) (d : VReg)
  /-- MMAC: R206 -/
  | mmac (h : Hd) (st : SReg) (fa fb : AReg) (tl : Fin 16) (nt : Fin 4)
  /-- MMACB: R207 -/
  | mmacb (h : Hd) (st : SReg) (fa fb : AReg) (tl : Fin 16) (sub : Fin 16)
  /-- MRET: R208 -/
  | mret (h : Hd) (st : SReg) (tl : Fin 16) (nt : Fin 4)
  /-- MLOAD: R208 -/
  | mload (h : Hd) (st : SReg) (tl : Fin 16) (nt : Fin 4)
  /-- MZERO: R208 -/
  | mzero (h : Hd) (st : SReg) (tl : Fin 16) (nt : Fin 4)
  /-- MWAKE: R203 -/
  | mwake (h : Hd) (st : SReg) (mask : BitVec 16)
  /-- MMODE: R209 -/
  | mmode (h : Hd) (st : SReg) (f64 : Bool) (rm : BitVec 3)
  /-- SSET: R210 -/
  | sset (h : Hd) (st : SReg) (fa : AReg) (idx : BitVec 16)
  /-- SADV: R210 -/
  | sadv (h : Hd) (st : SReg) (fa : AReg)
  /-- SGET: R211 -/
  | sget (h : Hd) (st : SReg) (fa : AReg) (code : BitVec 4) (d : SReg)
  /-- AQK: R214 -/
  | aqk (h : Hd) (st : SReg) (fa : AReg) (fb : HReg) (tl : Fin 16) (s : SReg)
  /-- APV: R215 -/
  | apv (h : Hd) (st : SReg) (fa : AReg) (fb : HReg) (tl : Fin 16) (s : SReg)
  /-- AMASS: R216 -/
  | amass (h : Hd) (st : SReg) (fb : HReg) (tl : Fin 16) (k : KReg)
  /-- APOS: R217 -/
  | apos (h : Hd) (st : SReg) (fb : HReg) (d : VReg)
  /-- VLD: R226 -/
  | vld (h : Hd) (m : LMem) (w : BitVec 2) (sx : Bool)
  /-- VST: R226 -/
  | vst (h : Hd) (m : LMem) (r : VReg) (w : BitVec 2)
  /-- SLD: R226 -/
  | sld (h : Hd) (m : LMem) (w : BitVec 2) (sx : Bool)
  /-- SST: R226 -/
  | sst (h : Hd) (m : LMem) (r : SReg) (w : BitVec 2)
  /-- VLDX: R226; m.o names a v register -/
  | vldx (h : Hd) (m : LMem) (w : BitVec 2) (sx : Bool)
  /-- VSTX: R226; m.o names a v register -/
  | vstx (h : Hd) (m : LMem) (r : VReg) (w : BitVec 2)
  /-- ATOM: R229 -/
  | atom (h : Hd) (d : SReg) (hn : HReg) (o : SReg) (op : BitVec 4) (v : SReg) (sz : BitVec 2) (imm : BitVec 12)
  /-- CAS: R229 -/
  | cas (h : Hd) (d : SReg) (hn : HReg) (o : SReg) (v nv : SReg) (sz : BitVec 2) (imm : BitVec 12)
  /-- PF: R231 -/
  | pf (h : Hd) (m : LMem)
  /-- MARK: R230 -/
  | mark (h : Hd)
  /-- FENCE: R230 -/
  | fence (h : Hd) (sc : BitVec 2)
  /-- ZFILL: R232 -/
  | zfill (h : Hd) (m : LMem) (r : SReg)
  /-- PIN: R232 -/
  | pin (h : Hd) (m : LMem) (r : SReg)
  /-- UNPIN: R232 -/
  | unpin (h : Hd) (m : LMem) (r : SReg)
  /-- XLAT: R233 -/
  | xlat (h : Hd) (hn : HReg) (o : SReg)
  /-- HREL: R234 -/
  | hrel (h : Hd) (hn : HReg)
  /-- TFILL: R235 -/
  | tfill (h : Hd) (m : LMem) (r : VReg) (w : BitVec 2)
  /-- TDRAIN: R235 -/
  | tdrain (h : Hd) (m : LMem) (w : BitVec 2)
  /-- RST: R236 -/
  | rst (h : Hd) (r : VReg) (o : SReg) (prow pcol : BitVec 4) (fv : Bool) (fn : BitVec 10)
  /-- CPY: R255 -/
  | cpy (e : ECmd) (k : Copy)
  /-- CPYC: R255 -/
  | cpyc (e : ECmd) (k : Copy) (rn dst sst : SReg)
  /-- CFILL: R255; k.so is the value register -/
  | cfill (e : ECmd) (k : Copy)
  /-- TFETCH: R257 -/
  | tfetch (e : ECmd) (k : Copy) (rn sst : SReg)
  /-- KICK: R252 -/
  | kick (e : ECmd) (c t : SReg)
  /-- LINK: R253 -/
  | link (e : ECmd) (c : SReg)
  /-- LINK_WORD: R126; NEXT[53:4] -/
  | linkWord (next : BitVec 50)
  /-- COLL_ALL_REDUCE: R258 -/
  | collAllReduce (e : ECmd) (k : Coll)
  /-- COLL_REDUCE_SCATTER: R258 -/
  | collReduceScatter (e : ECmd) (k : Coll)
  /-- COLL_ALL_GATHER: R258 -/
  | collAllGather (e : ECmd) (k : Coll)
  /-- COLL_ALL_TO_ALL: R258 -/
  | collAllToAll (e : ECmd) (k : Coll)
  /-- COLL_BROADCAST: R258 -/
  | collBroadcast (e : ECmd) (k : Coll)
  /-- RMERGE: R259 -/
  | rmerge (e : ECmd) (dh : HReg) (do_ : SReg) (ty : Bool) (ct nc : SReg) (ln : Fin 32)
  /-- RTSNAP: R260 -/
  | rtsnap (e : ECmd) (dh : HReg) (do_ : SReg)
  /-- HVST_KEEP: R261, R374 -/
  | hvstKeep (e : ECmd) (p : HReg) (k : SReg) (dk : Bool) (w d : SReg)
  /-- HVST_MASS: R261, R374 -/
  | hvstMass (e : ECmd) (p : HReg) (k : SReg) (dk : Bool) (w d : SReg)
  /-- HCOMP: R261, R375 -/
  | hcomp (e : ECmd) (p : HReg)
  /-- HTRUNC: R261, R376 -/
  | htrunc (e : ECmd) (p : HReg) (l : SReg)
  /-- LKICK: R262 -/
  | lkick (e : ECmd) (lc pc ar : SReg)
  /-- ESYNC: R263 -/
  | esync (e : ECmd)
  /-- FETCH_LINE_PRESENT: R20 -/
  | fetchLinePresent (a : Agent)
  /-- FIXED_LATENCY_WRITE: R25 -/
  | fixedLatencyWrite (a : Agent)
  /-- PENDING_VALUE_LANDS: R26 -/
  | pendingValueLands (site tok : Nat)
  /-- FREEZE_RELEASE: R22 -/
  | freezeRelease (site : Nat)
  /-- RECORD_BOUNDARY: R146 -/
  | recordBoundary (site : Nat)
  /-- RECORD_LONGEST_EXCEEDED: R149 -/
  | recordLongestExceeded (site : Nat)
  /-- GUARD_RESOLUTION: R158 -/
  | guardResolution (site : Nat) (q : QSlot)
  /-- DEFERRED_ACCESS_REISSUE: R164 -/
  | deferredAccessReissue (site tok : Nat)
  /-- HELD_ENTRY_LEAVES: R162 -/
  | heldEntryLeaves (site : Nat)
  /-- L_LOAD_PERFORM: R227 -/
  | lLoadPerform (site piece : Nat)
  /-- L_STORE_PERFORM: R275 -/
  | lStorePerform (site piece : Nat)
  /-- ATOMIC_PERFORM: R229 -/
  | atomicPerform (site : Nat)
  /-- MARK_PERFORM: R230 -/
  | markPerform (site : Nat)
  /-- FENCE_PERFORM: R290 -/
  | fencePerform (site : Nat)
  /-- FLAG_UPDATE_PERFORM: R239 -/
  | flagUpdatePerform (site : Nat)
  /-- AMASS_UPDATE_PERFORM: R216 -/
  | amassUpdatePerform (site : Nat)
  /-- TFILL_PERFORM: R235 -/
  | tfillPerform (site : Nat)
  /-- TDRAIN_PERFORM: R235 -/
  | tdrainPerform (site : Nat)
  /-- PIN_PERFORM: R232 -/
  | pinPerform (site : Nat)
  /-- PIN_DEFERRED_GRANT: R307 -/
  | pinDeferredGrant (site : Nat) (loader : Bool)
  /-- RST_PERFORM: R236 -/
  | rstPerform (site : Nat)
  /-- XLAT_RESULT: R233 -/
  | xlatResult (site : Nat) (hn : HReg)
  /-- REFILL: R326 -/
  | refill (site : Nat) (src : FaultSrc)
  /-- SLOT_WAITER_PROCEEDS: R44 -/
  | slotWaiterProceeds (w : Waiter)
  /-- SUBARRAY_SLEEP: R202 -/
  | subarraySleep (site : Nat) (k : Fin 16)
  /-- SUBARRAY_WAKE_COMPLETE: R202 -/
  | subarrayWakeComplete (site : Nat) (k : Fin 16)
  /-- M_CB_WRITE: R200 -/
  | mCbWrite (site : Nat)
  /-- RTCNT_BANK_UPDATE: R187 -/
  | rtcntBankUpdate (site : Nat)
  /-- PCREAD_SAMPLE: R270 -/
  | pcreadSample (site tok : Nat)
  /-- UI_ENTRY: R272 -/
  | uiEntry (site : Nat)
  /-- ENGINE_COMMAND_START: R247 -/
  | engineCommandStart (site : Nat) (eng : Fin 4)
  /-- ENGINE_COMMAND_COMPLETE: R249 -/
  | engineCommandComplete (site : Nat) (eng : Fin 4) (idx : Nat)
  /-- ENGINE_COMMAND_FAIL: R250 -/
  | engineCommandFail (site : Nat) (eng : Fin 4) (idx : Nat)
  /-- STREAM_RESTART: R250 -/
  | streamRestart (site : Nat) (eng : Fin 4)
  /-- COLL_CHUNK_ARRIVES: R400 -/
  | collChunkArrives (site idx chunk : Nat)
  /-- HARVEST_LOCK: R373 -/
  | harvestLock (site : Nat)
  /-- HARVEST_DRAIN: R373 -/
  | harvestDrain (site : Nat)
  /-- MEMBER_RETIRE: R266 -/
  | memberRetire (site : Nat)
  /-- WATCHDOG_EXPIRY: R347 -/
  | watchdogExpiry (launch : Word32)
  /-- KILL: R348 -/
  | kill (launch : Word32)
  /-- COMPLETION_WORD: R337 -/
  | completionWord (launch : Word32)
  /-- DOORBELL: R334 -/
  | doorbell (func idx : Nat) (tail : Word32)
  /-- LAUNCH_SELECT: R338 -/
  | launchSelect (queue : Nat) (p : Placement)
  /-- BIND_GO: R343 -/
  | bindGo (launch : Word32)
  /-- T0_START: R344 -/
  | t0Start (launch : Word32)
  /-- TENANT_SWITCH: R351 -/
  | tenantSwitch (func : Nat)
  /-- GRAPH_REBIND: R367 -/
  | graphRebind (launch : Word32) (img : Nat)
  /-- GRAPH_REBIND_SWITCH: R367 -/
  | graphRebindSwitch (launch : Word32)
  /-- INVALIDATION_REQUEST: R322 -/
  | invalidationRequest (ctx : Nat) (va : BitVec 38) (count : BitVec 24)
  /-- INVALIDATION_DONE: R324 -/
  | invalidationDone
  /-- PAGE_MIGRATION: R331 -/
  | pageMigration (m : Migration)
  /-- FAULT_RECORD_POST: R330 -/
  | faultRecordPost
  /-- PREEMPT_REQUEST: R406 -/
  | preemptRequest (launch : Word32)
  /-- MEMBER_PARK: R408 -/
  | memberPark (site : Nat)
  /-- SAVE_START: R409 -/
  | saveStart (launch : Word32)
  /-- SAVE_DONE: R409 -/
  | saveDone (launch : Word32)
  /-- RESTORE_START: R414 -/
  | restoreStart (launch : Word32)
  /-- TRACE_SAMPLE: R423 -/
  | traceSample (site : Nat)
  /-- DBG_STOP: R425 -/
  | dbgStop (site : Nat)
  /-- DBG_STEP: R425 -/
  | dbgStep (site : Nat)
  /-- DBG_RESUME: R425 -/
  | dbgResume (site : Nat)
  /-- VIGIL_TRIGGER: R427 -/
  | vigilTrigger (cause : BitVec 8)
  /-- VIGIL_TRIG: R427 -/
  | vigilTrig
  /-- VIGIL_RESET: R428 -/
  | vigilReset
  /-- VIGIL_IMAGE_READ: R427 -/
  | vigilImageRead (off : Nat)
  /-- COLD_RESET: R429 -/
  | coldReset (b : Boot)
  /-- ATTESTATION_REPORT: R430 -/
  | attestationReport (func : Nat) (nonce : BitVec 256)
  /-- KEY_SLOT_WRITE: R432 -/
  | keySlotWrite (slot : Nat) (key : BitVec 512)
  /-- ALARM_LEVEL_1: R433 -/
  | alarmLevel1
  /-- ALARM_LEVEL_2: R433 -/
  | alarmLevel2
  /-- POWER_CAP: R436 -/
  | powerCap (watts : Nat)
  /-- POWER_OVERDRAW: R437 -/
  | powerOverdraw (milliwatts : Nat)
  /-- LINK_DOWN: R390 -/
  | linkDown (port : Nat)
  /-- LINK_RETRAIN: R390 -/
  | linkRetrain (port : Nat)
  /-- FLIT_READ: R391 -/
  | flitRead (f : Flit)
  /-- FLIT_WRITE: R391 -/
  | flitWrite (f : Flit)
  /-- FLIT_ATOMIC: R395 -/
  | flitAtomic (f : Flit) (op : BitVec 4) (sz : BitVec 2)
  /-- FLIT_BUFFER_STORE: R395 -/
  | flitBufferStore (f : Flit) (tag : Word32)
  /-- FLIT_FLAG_ADD: R395 -/
  | flitFlagAdd (f : Flit) (tag : Word32)
  /-- FLIT_COLLECTIVE_CHUNK: R391 -/
  | flitCollectiveChunk (f : Flit) (tag : Word32) (c : CollData)
  /-- FLIT_COMPLETION: R393 -/
  | flitCompletion (f : Flit)
  /-- HOST_WRITE: R297 -/
  | hostWrite (func : Nat) (t : HostTarget) (data : List Byte)
  /-- HOST_READ: R297 -/
  | hostRead (func : Nat) (t : HostTarget) (n : Nat)
  /-- FUNCTION_LEVEL_RESET: R404 -/
  | functionLevelReset (func : Nat)
  /-- SCRUB: R312 -/
  | scrub (u : Stored) (e : EccOutcome)
  /-- METERED_REQUEST_PROCEEDS: R310 -/
  | meteredRequestProceeds (slice ctx : Nat)
  /-- SVC_NOP: R265 -/
  | svcNop (req : Nat)
  /-- SVC_MAP: R265 -/
  | svcMap (req : Nat) (frames tables : List Nat)
  /-- SVC_UNMAP: R265 -/
  | svcUnmap (req : Nat)
  /-- SVC_PROTECT: R265 -/
  | svcProtect (req : Nat)
  /-- SVC_TIME: R265 -/
  | svcTime (req : Nat)
  /-- SVC_LOG: R265 -/
  | svcLog (req : Nat)
  /-- MGMT_REGISTER_WRITE: R333 -/
  | mgmtRegisterWrite (r : MgmtReg) (v : Nat)
  /-- M_OPERAND_SLOTS_SET_EMPTY: R199 -/
  | mOperandSlotsSetEmpty (site : Nat)
  /-- PCIE_COMPLETION: R401 -/
  | pcieCompletion (tag : Nat) (ok : Bool) (poisoned : Bool) (data : List Byte)
  /-- HOST_ATOMIC: R401 -/
  | hostAtomic (func : Nat) (addr : Nat) (op : BitVec 2) (wide : Bool) (v cmp : Word)
  /-- SVC_UNKNOWN_CODE: R265 -/
  | svcUnknownCode (req : Nat)
  /-- CORE_CLOCK_CHANGE: R8 -/
  | coreClockChange (mhz : Nat) (stopped : Bool)
  /-- LAUNCH_CLASS_RAISE: R338 -/
  | launchClassRaise (queue : Nat)
  /-- MEMBER_LOAD_COMPLETE: R344 -/
  | memberLoadComplete (site : Nat) (ok : Bool)
  deriving DecidableEq, Repr

end Sys2Proof
end

