-- ==== Sys2Proof/Config.lean ====
section
/-! DEFINITION. What the spec leaves to the part, and the free values: constants without a body, so that
no proof can know what they are. -/

namespace Sys2Proof

/-- The eight disabled sites, as 16 * row + col (R4): fixed at manufacture, any two of each die. The
model keeps two numbers below 40 for each die and counts along the die's rows.
DESIGN CHOICE (log 125), safe. -/
opaque Config.disabledPick : Fin 8 → Fin 40

/-- The 100 MHz reference time at a Calendar tick (R265, R422).
DESIGN CHOICE (log 126), safe. -/
opaque Config.refTime : Nat → Nat

/-- A free word: the n-th value the spec leaves open. -/
opaque Config.freeWord : Nat → BitVec 64

/-- A free choice between two outcomes the spec allows. -/
opaque Config.freeBit : Nat → Bool

/-- A free byte at an address, for the n-th read whose bytes the spec leaves open (R279, R286). -/
opaque Config.freeByte : Nat → Nat → BitVec 8

/-- The device identity key, of 57 bytes (R430): derived at manufacture, it never leaves the security block.
DESIGN CHOICE (log 127), safe. -/
opaque Config.identityKey : BitVec 456

/-- What a bring-up of a Vigil reset meets (R428, R429): the flash and the training of the devices are outside State.
DESIGN CHOICE (log 122), safe. -/
opaque Config.boot : Nat → Boot

/-- Bytes of a Vigil image whose layout the spec leaves open (R427): the tick of the image, and the place. -/
opaque Config.imageByte : Nat → Nat → BitVec 8

/-- Bytes of PCIe configuration space that the spec leaves to the PCIe standard (R434): the function, the offset. -/
opaque Config.pcieConfig : Nat → Nat → BitVec 8

/-- One Thirel switch joins these modules (R399): the fabric's maker decides. -/
opaque Config.oneSwitch : List Nat → Bool

/-- The turn of each field of the attestation report (R430), which the spec does not order.
DESIGN CHOICE (log 123), safe. -/
opaque Config.reportTurn : Nat → Nat

/-- What stands in the attestation report before each field (R430), which the spec leaves open.
DESIGN CHOICE (log 123), safe. -/
opaque Config.reportFill : Nat → List (BitVec 8)

end Sys2Proof
end

