-- ==== Sys2Proof/Machine/Fields.lean ====
section
/-! DEFINITION. Bit fields of instruction words, the queues, the names under which an encoding is
rejected, and the fields of every instruction as chapter 04 lays them out. -/

namespace Sys2Proof

/-- Queues of R107, and chain entries of R126. -/
inductive Queue
  | c | v | x | m | l | e | chain
  deriving DecidableEq, Repr

/-- Queue code of R107; a chain entry has none. -/
def Queue.code : Queue → Nat
  | .c => 1 | .v => 2 | .x => 3 | .m => 4 | .l => 5 | .e => 6 | .chain => 0

/-- The queue of a code of R107. -/
def Queue.ofCode : Nat → Option Queue
  | 1 => some .c | 2 => some .v | 3 => some .x | 4 => some .m | 5 => some .l | 6 => some .e
  | _ => none

/-- Why a pattern of bits is not an instruction (R128). -/
inductive Reject
  /-- line control, queue code, pad or continuation rule of R107, R108 -/
  | lineFormat
  /-- continuation count contrary to OP[7] (R113) -/
  | continuation
  /-- unassigned opcode, or a form that does not exist (R127) -/
  | unassigned
  /-- extension word rules of R114 -/
  | extension
  /-- a zero field nonzero, or a register beyond its count (R116) -/
  | zeroField
  /-- a code or field outside its limits (R116, R118, R121, R123) -/
  | limits
  /-- token or ENG rules of R125 -/
  | token
  /-- chain entry rules of R126 -/
  | chainEntry
  /-- the row is an event, not an instruction word -/
  | event
  deriving DecidableEq, Repr

/-- Bits [hi:lo] of a number. -/
def bits (n hi lo : Nat) : Nat := n / 2 ^ lo % 2 ^ (hi - lo + 1)

/-- Total width of a list of fields. -/
def width : List (Nat × Nat) → Nat
  | [] => 0
  | (w, _) :: r => w + width r

/-- Fields (width, value), most significant first, as one number. -/
def pack : List (Nat × Nat) → Nat
  | [] => 0
  | (w, v) :: r => v % 2 ^ w * 2 ^ width r + pack r

/-- A bit as a number. -/
def bit (b : Bool) : Nat := if b then 1 else 0

/-- The opcode and fields of an instruction of C, V, X, M or L: short opcode, operand bits [19:0]
and extension bits [25:0], most significant first (R112, R114). -/
structure Form where
  q : Queue
  op : Nat
  hd : Hd
  o : List (Nat × Nat)
  x : List (Nat × Nat)
  deriving DecidableEq, Repr

/-- Format CR, IM = 0 (R117). -/
def crReg (op : Nat) (h : Hd) (d a b : SReg) (y p n cc : Nat) : Form :=
  { q := .c, op := op, hd := h, o := [(1, 0), (6, d.val), (6, a.val), (6, b.val), (1, 0)],
    x := [(6, y), (6, p), (7, n), (4, cc), (3, 0)] }

/-- Format CR, IM = 1 (R117). -/
def crImm (op : Nat) (h : Hd) (d a : SReg) (v : BitVec 33) : Form :=
  { q := .c, op := op, hd := h, o := [(1, 1), (6, d.val), (6, a.val), (7, v.toNat)],
    x := [(26, v.toNat / 2 ^ 7)] }

/-- Format CR with either kind of second operand. -/
def crBin (op : Nat) (h : Hd) (d a : SReg) : Src2 → Form
  | .reg b => crReg op h d a b 0 0 0 0
  | .imm v => crImm op h d a v

/-- Format CL (R117). -/
def clForm (op : Nat) (h : Hd) (lc : Fin 8) (t : Trip) (len : BitVec 10) : Form :=
  match t with
  | .reg t => { q := .c, op := op, hd := h, o := [(3, lc.val), (1, 0), (6, t.val), (10, len.toNat)],
                x := [(26, 0)] }
  | .imm v => { q := .c, op := op, hd := h, o := [(3, lc.val), (1, 1), (6, v.toNat), (10, len.toNat)],
                x := [(26, v.toNat / 2 ^ 6)] }

/-- Format CF (R117). -/
def cfForm (op : Nat) (h : Hd) (f : FlagRef) (a sc iv imm : Nat) : Form :=
  { q := .c, op := op, hd := h, o := [(2, f.fk.toNat), (12, f.fn.toNat), (6, a)],
    x := [(4, f.prow.toNat), (4, f.pcol.toNat), (2, sc), (1, iv), (15, imm)] }

/-- Format CF with a value field (R238). -/
def cfVal (op : Nat) (h : Hd) (f : FlagRef) (sc : BitVec 2) : FlagVal → Form
  | .reg a => cfForm op h f a.val sc.toNat 0 0
  | .imm v => cfForm op h f 0 sc.toNat 1 v.toNat

/-- Format CQ (R117). -/
def cqForm (op : Nat) (h : Hd) (q a a2 vr : Nat) (x : List (Nat × Nat)) : Form :=
  { q := .c, op := op, hd := h, o := [(3, q), (6, a), (6, a2), (1, vr), (4, 0)], x := x }

/-- A C form whose extension bits are zero. -/
def c0Form (op : Nat) (h : Hd) (o : List (Nat × Nat)) : Form :=
  { q := .c, op := op, hd := h, o := o, x := [(26, 0)] }

/-- Format LK (R117). -/
def lkForm (op : Nat) (h : Hd) (d hn a opf prow pcol slot : Nat) : Form :=
  { q := .c, op := op, hd := h, o := [(6, d), (4, hn), (6, a), (4, opf)],
    x := [(4, prow), (4, pcol), (11, slot), (7, 0)] }

/-- Format VR (R120), for V or X. -/
def vrForm (q : Queue) (op : Nat) (h : Hd) (e : VExt) (o : List (Nat × Nat)) (is : Nat) : Form :=
  { q := q, op := op, hd := h, o := o,
    x := [(4, e.msk.val), (4, e.f.toNat), (3, e.rnd.toNat), (1, bit e.sat), (14, is)] }

/-- Register fields D, A, B, Y of format VR. -/
def vrO (d a b y : Nat) : List (Nat × Nat) := [(5, d), (5, a), (5, b), (5, y)]

/-- Register fields D, A, S6 of format VR. -/
def vrS (d a s : Nat) : List (Nat × Nat) := [(5, d), (5, a), (6, s), (4, 0)]

/-- IS of the conversions (R121). -/
def Cvt.is (k : Cvt) : Nat :=
  pack [(4, k.tf.toNat), (3, k.sty.toNat), (3, k.tty.toNat), (2, k.kind.toNat), (2, 0)]

/-- Format MF (R122). -/
def mfForm (op : Nat) (h : Hd) (st : SReg) (o : List (Nat × Nat)) : Form :=
  { q := .m, op := op, hd := h, o := o, x := [(6, st.val), (20, 0)] }

/-- Format LM (R123). -/
def lmForm (op : Nat) (h : Hd) (m : LMem) (r w : Nat) : Form :=
  { q := .l, op := op, hd := h, o := [(6, r), (4, m.hn.val), (6, m.o.val), (4, w)],
    x := [(4, m.msk.val), (2, m.as.toNat), (20, m.imm.toNat)] }

/-- An L form whose extension bits are zero (LX of R123). -/
def lxForm (op : Nat) (h : Hd) (o : List (Nat × Nat)) : Form :=
  { q := .l, op := op, hd := h, o := o, x := [(26, 0)] }

/-- The fields of an instruction of C, V, X, M or L; none for a command or an event. -/
def form : Instr → Option Form
  | .nop h => some (c0Form 0x00 h [(20, 0)])
  | .add h d a b => some (crBin 0x01 h d a b)
  | .sub h d a b => some (crBin 0x02 h d a b)
  | .mul h d a b => some (crBin 0x03 h d a b)
  | .mulh h d a b => some (crBin 0x04 h d a b)
  | .mulhn h d a b => some (crBin 0x05 h d a b)
  | .div h d a b => some (crBin 0x06 h d a b)
  | .divn h d a b => some (crBin 0x07 h d a b)
  | .rem h d a b => some (crBin 0x08 h d a b)
  | .remn h d a b => some (crBin 0x09 h d a b)
  | .and_ h d a b => some (crBin 0x0a h d a b)
  | .or_ h d a b => some (crBin 0x0b h d a b)
  | .xor h d a b => some (crBin 0x0c h d a b)
  | .andn h d a b => some (crBin 0x0d h d a b)
  | .shl h d a b => some (crBin 0x0e h d a b)
  | .shr h d a b => some (crBin 0x0f h d a b)
  | .sra h d a b => some (crBin 0x10 h d a b)
  | .rol h d a b => some (crBin 0x11 h d a b)
  | .min h d a b => some (crBin 0x12 h d a b)
  | .max h d a b => some (crBin 0x13 h d a b)
  | .minn h d a b => some (crBin 0x14 h d a b)
  | .maxn h d a b => some (crBin 0x15 h d a b)
  | .clz h d a => some (crReg 0x16 h d a 0 0 0 0 0)
  | .ctz h d a => some (crReg 0x17 h d a 0 0 0 0 0)
  | .popc h d a => some (crReg 0x18 h d a 0 0 0 0 0)
  | .sext h d a w => some (crImm 0x19 h d a w)
  | .zext h d a w => some (crImm 0x1a h d a w)
  | .bfx h d a p n => some (crReg 0x1b h d a 0 0 p.toNat n.toNat 0)
  | .bfi h d a p n => some (crReg 0x1c h d a 0 0 p.toNat n.toNat 0)
  | .cmp h d a b cc => some (crReg 0x1d h d a b 0 0 0 cc.toNat)
  | .sel h d a b y => some (crReg 0x1e h d a b y.val 0 0 0)
  | .li h d imm => some ({ q := .c, op := 0x1f, hd := h, o := [(1, 0), (6, d.val), (13, imm.toNat)], x := [(26, imm.toNat / 2 ^ 13)] })
  | .lih h d imm => some ({ q := .c, op := 0x20, hd := h, o := [(1, 0), (6, d.val), (13, imm.toNat)], x := [(7, 0), (19, imm.toNat / 2 ^ 13)] })
  | .mov h d a => some (crReg 0x21 h d a 0 0 0 0 0)
  | .lea h d a b p => some (crReg 0x22 h d a b 0 p.toNat 0 0)
  | .crd h d r cc => some (c0Form 0x23 h [(1, 0), (6, d.val), (4, r.toNat), (4, cc.toNat), (5, 0)])
  | .br h z a off => some ({ q := .c, op := 0x28, hd := h, o := [(1, bit z), (6, a.val), (13, off.toNat)], x := [(26, off.toNat / 2 ^ 13)] })
  | .jmp h off => some ({ q := .c, op := 0x29, hd := h, o := [(20, off.toNat)], x := [(26, off.toNat / 2 ^ 20)] })
  | .jmpi h a => some (c0Form 0x2a h [(7, 0), (6, a.val), (7, 0)])
  | .call h d off => some ({ q := .c, op := 0x2b, hd := h, o := [(1, 0), (6, d.val), (13, off.toNat)], x := [(26, off.toNat / 2 ^ 13)] })
  | .ret h a => some (c0Form 0x2c h [(7, 0), (6, a.val), (7, 0)])
  | .loop h lc t len => some (clForm 0x30 h lc t len)
  | .loopc h lc t len => some (clForm 0x32 h lc t len)
  | .loopd h lc t len => some (clForm 0x33 h lc t len)
  | .loopn h lc as len => some (c0Form 0x31 h [(3, lc.val), (3, 0), (4, as.val), (10, len.toNat)])
  | .lbrk h lc a => some (c0Form 0x34 h [(3, lc.val), (4, 0), (6, a.val), (7, 0)])
  | .lrec h id => some (c0Form 0x35 h [(4, 0), (16, id.toNat)])
  | .stg h d st => some (c0Form 0x36 h [(1, 0), (6, d.val), (10, 0), (3, st.val)])
  | .fpost h fr sc v => some (cfVal 0x38 h fr sc v)
  | .fwait h fr sc v => some (cfVal 0x39 h fr sc v)
  | .fset h fr sc v => some (cfVal 0x3a h fr sc v)
  | .fdec h fr sc v => some (cfVal 0x3b h fr sc v)
  | .fread h fr d => some (cfForm 0x3c h fr d.val 0 0 0)
  | .farm h fr sc v => some (cfVal 0x3d h fr sc v)
  | .barj h n a => some (cfForm 0x3e h ⟨1, n, 0, 0⟩ a.val 0 0 0)
  | .barw h n a => some (cfForm 0x3f h ⟨1, n, 0, 0⟩ a.val 0 0 0)
  | .align h n => some (c0Form 0x40 h [(7, 0), (6, n.toNat), (7, 0)])
  | .idle h n1 => some ({ q := .c, op := 0x41, hd := h, o := [(20, n1.toNat)], x := [(24, 0), (2, 0)] })
  | .idleColumn h n1 col => some ({ q := .c, op := 0x41, hd := h, o := [(20, n1.toNat)], x := [(24, 0), (2, col.toNat)] })
  | .qopen h q a => some (cqForm 0x48 h q.val a.val 0 0 [(26, 0)])
  | .qopenf h q a fk fn => some (cqForm 0x49 h q.val a.val 0 0 [(2, fk.toNat), (12, fn.toNat), (12, 0)])
  | .qres h q a => some (cqForm 0x4a h q.val a.val 0 0 [(26, 0)])
  | .qwait h q => some (cqForm 0x4b h q.val 0 0 0 [(26, 0)])
  | .qpick h vr d a gm => some (cqForm 0x4c h 0 d.val a.val (bit vr) [(10, 0), (16, gm.toNat)])
  | .qstat h vr d a => some (cqForm 0x4d h 0 d.val a.val (bit vr) [(26, 0)])
  | .trap h code => some (c0Form 0x50 h [(4, 0), (16, code.toNat)])
  | .svc h code => some (c0Form 0x51 h [(4, 0), (16, code.toNat)])
  | .brk h code => some (c0Form 0x56 h [(4, 0), (16, code.toNat)])
  | .pcsel h code => some (c0Form 0x58 h [(4, 0), (16, code.toNat)])
  | .trmark h code => some (c0Form 0x5a h [(4, 0), (16, code.toNat)])
  | .halt h => some (c0Form 0x52 h [(20, 0)])
  | .yield h => some (c0Form 0x53 h [(20, 0)])
  | .uiret h => some (c0Form 0x57 h [(20, 0)])
  | .rdsr h r sn => some (c0Form 0x54 h [(1, 0), (6, r.val), (5, 0), (8, sn.toNat)])
  | .wrsr h r sn => some (c0Form 0x55 h [(1, 0), (6, r.val), (5, 0), (8, sn.toNat)])
  | .pcread h d a op => some (c0Form 0x59 h [(1, 0), (6, d.val), (6, a.val), (5, 0), (2, op.toNat)])
  | .lidx h d hn a op => some (lkForm 0x70 h d.val hn.val a.val op.toNat 0 0 0)
  | .ldup h d => some (lkForm 0x71 h d.val 0 0 0 0 0 0)
  | .lgat h hn a op => some (lkForm 0x72 h 0 hn.val a.val op.toNat 0 0 0)
  | .lpool h op => some (lkForm 0x73 h 0 0 0 op.toNat 0 0 0)
  | .lsend h a pr pc sl => some (lkForm 0x74 h 0 0 a.val 0 pr.toNat pc.toNat sl.toNat)
  | .lscat h hn a op => some (lkForm 0x75 h 0 hn.val a.val op.toNat 0 0 0)
  | .vadd h x d a b => some (vrForm .v 0x01 h x (vrO d.val a.val b.val 0) (0))
  | .vsub h x d a b => some (vrForm .v 0x02 h x (vrO d.val a.val b.val 0) (0))
  | .vmul h x d a b => some (vrForm .v 0x03 h x (vrO d.val a.val b.val 0) (0))
  | .vfma h x d a b y => some (vrForm .v 0x04 h x (vrO d.val a.val b.val y.val) (0))
  | .vfms h x d a b y => some (vrForm .v 0x05 h x (vrO d.val a.val b.val y.val) (0))
  | .vfnma h x d a b y => some (vrForm .v 0x06 h x (vrO d.val a.val b.val y.val) (0))
  | .vmin h x d a b => some (vrForm .v 0x07 h x (vrO d.val a.val b.val 0) (0))
  | .vmax h x d a b => some (vrForm .v 0x08 h x (vrO d.val a.val b.val 0) (0))
  | .vminn h x d a b => some (vrForm .v 0x09 h x (vrO d.val a.val b.val 0) (0))
  | .vmaxn h x d a b => some (vrForm .v 0x0a h x (vrO d.val a.val b.val 0) (0))
  | .vabs h x d a => some (vrForm .v 0x0b h x (vrO d.val a.val 0 0) (0))
  | .vneg h x d a => some (vrForm .v 0x0c h x (vrO d.val a.val 0 0) (0))
  | .vcmp h x d a b cc => some (vrForm .v 0x0d h x (vrO d.val a.val b.val 0) (cc.toNat))
  | .vsel h x d a b y => some (vrForm .v 0x0e h x (vrO d.val a.val b.val y.val) (0))
  | .vclamp h x d a b y => some (vrForm .v 0x0f h x (vrO d.val a.val b.val y.val) (0))
  | .vldx2 h x d a b => some (vrForm .v 0x10 h x (vrO d.val a.val b.val 0) (0))
  | .vrnd h x d a => some (vrForm .v 0x11 h x (vrO d.val a.val 0 0) (0))
  | .viadd h x d a b => some (vrForm .v 0x18 h x (vrO d.val a.val b.val 0) (0))
  | .visub h x d a b => some (vrForm .v 0x19 h x (vrO d.val a.val b.val 0) (0))
  | .vimul h x d a b => some (vrForm .v 0x1a h x (vrO d.val a.val b.val 0) (0))
  | .vimulh h x d a b => some (vrForm .v 0x1b h x (vrO d.val a.val b.val 0) (0))
  | .viand h x d a b => some (vrForm .v 0x1c h x (vrO d.val a.val b.val 0) (0))
  | .vior h x d a b => some (vrForm .v 0x1d h x (vrO d.val a.val b.val 0) (0))
  | .vixor h x d a b => some (vrForm .v 0x1e h x (vrO d.val a.val b.val 0) (0))
  | .vishl h x d a b => some (vrForm .v 0x1f h x (vrO d.val a.val b.val 0) (0))
  | .vishr h x d a b => some (vrForm .v 0x20 h x (vrO d.val a.val b.val 0) (0))
  | .visra h x d a b => some (vrForm .v 0x21 h x (vrO d.val a.val b.val 0) (0))
  | .vimin h x d a b => some (vrForm .v 0x22 h x (vrO d.val a.val b.val 0) (0))
  | .vimax h x d a b => some (vrForm .v 0x23 h x (vrO d.val a.val b.val 0) (0))
  | .viabs h x d a => some (vrForm .v 0x24 h x (vrO d.val a.val 0 0) (0))
  | .vicmp h x d a b cc => some (vrForm .v 0x25 h x (vrO d.val a.val b.val 0) (cc.toNat))
  | .viclamp h x d a b y => some (vrForm .v 0x26 h x (vrO d.val a.val b.val y.val) (0))
  | .vcvt h x d a k => some (vrForm .v 0x28 h x (vrO d.val a.val 0 0) (k.is))
  | .vcvts h x d a b k => some (vrForm .v 0x29 h x (vrO d.val a.val b.val 0) (k.is))
  | .vpack h x d a b k => some (vrForm .v 0x2a h x (vrO d.val a.val b.val 0) (k.is))
  | .vunpk h x d a p k => some (vrForm .v 0x2b h x (vrO d.val a.val p.val 0) (k.is))
  | .vmov h x d a => some (vrForm .v 0x30 h x (vrO d.val a.val 0 0) (0))
  | .vbc h x d s => some (vrForm .v 0x31 h x (vrS d.val 0 s.val) (0))
  | .vrbc h x d a n => some (vrForm .v 0x32 h x (vrO d.val a.val 0 0) (n.val))
  | .vcbc h x d a n => some (vrForm .v 0x33 h x (vrO d.val a.val 0 0) (n.val))
  | .vrrot h x d a n => match n with
    | .imm n => some (vrForm .v 0x34 h x (vrO d.val a.val 0 0) (n.val))
    | .reg s => some (vrForm .v 0x34 h x (vrS d.val a.val s.val) (64))
  | .vcrot h x d a n => match n with
    | .imm n => some (vrForm .v 0x35 h x (vrO d.val a.val 0 0) (n.val))
    | .reg s => some (vrForm .v 0x35 h x (vrS d.val a.val s.val) (64))
  | .vrred h x d a op => match d with
    | .v d => some (vrForm .v 0x36 h x (vrO d.val a.val 0 0) (op.toNat * 128))
    | .s s => some (vrForm .v 0x36 h x (vrS 0 a.val s.val) (op.toNat * 128 + 64))
  | .vcred h x d a op => some (vrForm .v 0x37 h x (vrO d.val a.val 0 0) (op.toNat * 128))
  | .vrscan h x d a op => some (vrForm .v 0x38 h x (vrO d.val a.val 0 0) (op.toNat * 128))
  | .vperm h x d a b => some (vrForm .v 0x39 h x (vrO d.val a.val b.val 0) (0))
  | .vtrn h x d a => some (vrForm .v 0x3a h x (vrO d.val a.val 0 0) (0))
  | .viota h x d => some (vrForm .v 0x3b h x (vrO d.val 0 0 0) (0))
  | .vext h x d a row col => some (vrForm .v 0x3c h x (vrS 0 a.val d.val) (row.val * 1024 + col.val * 16))
  | .vins h x d s row col => some (vrForm .v 0x3d h x (vrS d.val 0 s.val) (row.val * 1024 + col.val * 16))
  | .kand h x d a b => some (vrForm .v 0x40 h x (vrO d.val a.val b.val 0) (0))
  | .kor h x d a b => some (vrForm .v 0x41 h x (vrO d.val a.val b.val 0) (0))
  | .kxor h x d a b => some (vrForm .v 0x42 h x (vrO d.val a.val b.val 0) (0))
  | .knot h x d a => some (vrForm .v 0x43 h x (vrO d.val a.val 0 0) (0))
  | .kmov h x d a => some (vrForm .v 0x44 h x (vrO d.val a.val 0 0) (0))
  | .kpop h x d a => some (vrForm .v 0x45 h x (vrS 0 a.val d.val) (0))
  | .kfst h x d a => some (vrForm .v 0x46 h x (vrS 0 a.val d.val) (0))
  | .rtcnt h x a => some (vrForm .v 0x48 h x (vrO 0 a.val 0 0) (0))
  | .vrope h x d a b y => some (vrForm .v 0x49 h x (vrO d.val a.val b.val y.val) (0))
  | .xexp2 h x d a => some (vrForm .x 0x01 h x (vrO d.val a.val 0 0) (0))
  | .xlog2 h x d a => some (vrForm .x 0x02 h x (vrO d.val a.val 0 0) (0))
  | .xrcp h x d a => some (vrForm .x 0x03 h x (vrO d.val a.val 0 0) (0))
  | .xrsqrt h x d a => some (vrForm .x 0x04 h x (vrO d.val a.val 0 0) (0))
  | .xsqrt h x d a => some (vrForm .x 0x05 h x (vrO d.val a.val 0 0) (0))
  | .xdiv h x d a b => some (vrForm .x 0x06 h x (vrO d.val a.val b.val 0) (0))
  | .xrng h x d => some (vrForm .x 0x07 h x (vrO d.val 0 0 0) (0))
  | .mmac h st fa fb tl nt => some (mfForm 0x01 h st [(4, fa.val), (4, fb.val), (4, tl.val), (2, nt.val), (6, 0)])
  | .mmacb h st fa fb tl sub => some (mfForm 0x02 h st [(4, fa.val), (4, fb.val), (4, tl.val), (4, sub.val), (4, 0)])
  | .mret h st tl nt => some (mfForm 0x03 h st [(4, 0), (4, 0), (4, tl.val), (2, nt.val), (6, 0)])
  | .mload h st tl nt => some (mfForm 0x04 h st [(4, 0), (4, 0), (4, tl.val), (2, nt.val), (6, 0)])
  | .mzero h st tl nt => some (mfForm 0x05 h st [(4, 0), (4, 0), (4, tl.val), (2, nt.val), (6, 0)])
  | .mwake h st mask => some (mfForm 0x06 h st [(4, 0), (16, mask.toNat)])
  | .mmode h st f64 rm => some (mfForm 0x07 h st [(4, 0), (4, 0), (4, 0), (4, 0), (1, bit f64), (3, rm.toNat)])
  | .sset h st fa idx => some (mfForm 0x08 h st [(4, fa.val), (16, idx.toNat)])
  | .sadv h st fa => some (mfForm 0x09 h st [(4, fa.val), (16, 0)])
  | .sget h st fa code d => some (mfForm 0x0a h st [(4, fa.val), (4, code.toNat), (6, d.val), (6, 0)])
  | .aqk h st fa fb tl s => some (mfForm 0x10 h st [(4, fa.val), (4, fb.val), (4, tl.val), (6, s.val), (2, 0)])
  | .apv h st fa fb tl s => some (mfForm 0x11 h st [(4, fa.val), (4, fb.val), (4, tl.val), (6, s.val), (2, 0)])
  | .amass h st fb tl k => some (mfForm 0x12 h st [(4, 0), (4, fb.val), (4, tl.val), (4, k.val), (4, 0)])
  | .apos h st fb d => some (mfForm 0x13 h st [(4, 0), (4, fb.val), (4, 0), (5, d.val), (3, 0)])
  | .vld h m w sx => some (lmForm 0x01 h m 0 (bit sx * 4 + w.toNat))
  | .vst h m r w => some (lmForm 0x02 h m r.val w.toNat)
  | .sld h m w sx => some (lmForm 0x03 h m 0 (bit sx * 4 + w.toNat))
  | .sst h m r w => some (lmForm 0x04 h m r.val w.toNat)
  | .vldx h m w sx => some (lmForm 0x05 h m 0 (bit sx * 4 + w.toNat))
  | .vstx h m r w => some (lmForm 0x06 h m r.val w.toNat)
  | .atom h d hn o op v sz imm => some ({ q := .l, op := 0x07, hd := h, o := [(6, d.val), (4, hn.val), (6, o.val), (4, op.toNat)], x := [(6, v.val), (6, 0), (2, sz.toNat), (12, imm.toNat)] })
  | .cas h d hn o v nv sz imm => some ({ q := .l, op := 0x08, hd := h, o := [(6, d.val), (4, hn.val), (6, o.val), (4, 0)], x := [(6, v.val), (6, nv.val), (2, sz.toNat), (12, imm.toNat)] })
  | .pf h m => some (lmForm 0x09 h m 0 0)
  | .mark h => some (lxForm 0x0a h [(20, 0)])
  | .fence h sc => some (lxForm 0x0b h [(18, 0), (2, sc.toNat)])
  | .zfill h m r => some (lmForm 0x0c h m r.val 0)
  | .pin h m r => some (lmForm 0x0d h m r.val 0)
  | .unpin h m r => some (lmForm 0x0e h m r.val 0)
  | .xlat h hn o => some (lxForm 0x0f h [(6, 0), (4, hn.val), (6, o.val), (4, 0)])
  | .hrel h hn => some (lxForm 0x10 h [(6, 0), (4, hn.val), (6, 0), (4, 0)])
  | .tfill h m r w => some (lmForm 0x11 h m r.val w.toNat)
  | .tdrain h m w => some (lmForm 0x12 h m 0 w.toNat)
  | .rst h r o pr pc fv fn => some ({ q := .l, op := 0x13, hd := h, o := [(6, r.val), (4, 0), (6, o.val), (4, 0)], x := [(4, pr.toNat), (4, pc.toNat), (1, bit fv), (10, fn.toNat), (7, 0)] })
  | _ => none

/-- Opcode and payload bits [50:0], most significant first, of an engine command (R251 to R263). -/
structure EForm where
  op : Nat
  e : ECmd
  p : List (Nat × Nat)
  deriving DecidableEq, Repr

/-- Payload of the copy family (R254). -/
def copyP (k : Copy) (rn dst sst : Nat) : List (Nat × Nat) :=
  [(3, 0), (6, sst), (6, dst), (6, rn), (1, 0), (5, k.ln.val), (1, bit k.fe), (3, k.pair.toNat),
   (4, k.sh.val), (6, k.so.val), (4, k.dh.val), (6, k.do_.val)]

/-- Payload of `coll` (R258). -/
def collP (kind : Nat) (k : Coll) : List (Nat × Nat) :=
  [(1, 0), (4, k.row.toNat), (4, k.col.toNat), (6, k.nf.val), (6, k.do_.val), (1, 0), (5, k.ln.val),
   (6, k.so.val), (6, k.gr.val), (4, k.dh.val), (1, bit k.dg), (2, k.fmt.toNat), (2, k.red.toNat),
   (3, kind)]

/-- Payload of `hvst` (R261). -/
def hvstP (mode : Nat) (p : HReg) (k : SReg) (dk : Bool) (w d : SReg) : List (Nat × Nat) :=
  [(27, 0), (6, d.val), (6, w.val), (1, bit dk), (1, mode), (6, k.val), (4, p.val)]

/-- The fields of an engine command; none for the other rows. -/
def eform : Instr → Option EForm
  | .cpy e k => some ⟨0x01, e, copyP k 0 0 0⟩
  | .cpyc e k rn dst sst => some ⟨0x02, e, copyP k rn.val dst.val sst.val⟩
  | .cfill e k => some ⟨0x03, e, copyP k 0 0 0⟩
  | .tfetch e k rn sst => some ⟨0x04, e, copyP k rn.val 0 sst.val⟩
  | .kick e c t => some ⟨0x05, e, [(39, 0), (6, t.val), (6, c.val)]⟩
  | .link e c => some ⟨0x06, e, [(45, 0), (6, c.val)]⟩
  | .collAllReduce e k => some ⟨0x07, e, collP 0 k⟩
  | .collReduceScatter e k => some ⟨0x07, e, collP 1 k⟩
  | .collAllGather e k => some ⟨0x07, e, collP 2 k⟩
  | .collAllToAll e k => some ⟨0x07, e, collP 3 k⟩
  | .collBroadcast e k => some ⟨0x07, e, collP 4 k⟩
  | .rmerge e dh do_ ty ct nc ln =>
    some ⟨0x08, e, [(22, 0), (5, ln.val), (6, nc.val), (6, ct.val), (1, 0), (1, bit ty), (6, do_.val), (4, dh.val)]⟩
  | .hvstKeep e p k dk w d => some ⟨0x09, e, hvstP 0 p k dk w d⟩
  | .hvstMass e p k dk w d => some ⟨0x09, e, hvstP 1 p k dk w d⟩
  | .hcomp e p => some ⟨0x0a, e, [(47, 0), (4, p.val)]⟩
  | .htrunc e p l => some ⟨0x0b, e, [(41, 0), (6, l.val), (4, p.val)]⟩
  | .lkick e lc pc ar => some ⟨0x0c, e, [(33, 0), (6, ar.val), (6, pc.val), (6, lc.val)]⟩
  | .rtsnap e dh do_ => some ⟨0x0d, e, [(41, 0), (6, do_.val), (4, dh.val)]⟩
  | .esync e => some ⟨0x0e, e, [(51, 0)]⟩
  | _ => none

end Sys2Proof
end

