-- ==== Sys2Proof/Machine/Checks.lean ====
section
/-! DEFINITION. The rules an encoding must meet besides its opcode and its zero fields: R113, R114,
R116, R118, R121, R123, R125 and the limits each instruction's own rule states. -/

namespace Sys2Proof

/-- Which forms of an instruction exist: short, long (R127). -/
def forms : Instr → Bool × Bool
  | .bfx .. | .bfi .. | .sel .. | .lih .. | .qopenf .. | .qpick .. | .idleColumn ..
  | .vcvt .. | .vcvts .. | .vpack .. | .vunpk .. | .vext .. | .vins ..
  | .atom .. | .cas .. | .rst .. => (false, true)
  | .qopen .. | .qres .. | .qwait .. | .qstat .. => (true, false)
  | _ => (true, true)

/-- Default format code of a V instruction's short form (R120, R127). -/
def defaultF : Instr → Nat
  | .viadd .. | .visub .. | .vimul .. | .vimulh .. | .viand .. | .vior .. | .vixor .. | .vishl ..
  | .vishr .. | .visra .. | .vimin .. | .vimax .. | .viabs .. | .vicmp .. | .viclamp ..
  | .rtcnt .. => 2
  | _ => 0

/-- Extension bits [25:0] that a short form stands for (R115, R117, R120, R134, R137). -/
def shortX (i : Instr) (o : Nat) : Nat :=
  match i with
  | .li .. | .br .. | .call .. => if bits o 12 12 = 1 then 2 ^ 26 - 1 else 0
  | .jmp .. => if bits o 19 19 = 1 then 2 ^ 26 - 1 else 0
  | i =>
    match form i with
    | some f => if f.q = .v ∨ f.q = .x then defaultF i * 2 ^ 18 + 5 * 2 ^ 15 else 0
    | none => 0

/-- Value of field A of an instruction that may pop its load data queue (R114, R228). -/
def popField : Instr → Option Nat
  | .add _ _ a _ | .sub _ _ a _ | .mul _ _ a _ | .mulh _ _ a _ | .mulhn _ _ a _ | .div _ _ a _
  | .divn _ _ a _ | .rem _ _ a _ | .remn _ _ a _ | .and_ _ _ a _ | .or_ _ _ a _ | .xor _ _ a _
  | .andn _ _ a _ | .shl _ _ a _ | .shr _ _ a _ | .sra _ _ a _ | .rol _ _ a _ | .min _ _ a _
  | .max _ _ a _ | .minn _ _ a _ | .maxn _ _ a _ | .clz _ _ a | .ctz _ _ a | .popc _ _ a
  | .sext _ _ a _ | .zext _ _ a _ | .bfx _ _ a _ _ | .bfi _ _ a _ _ | .cmp _ _ a _ _
  | .sel _ _ a _ _ | .mov _ _ a | .lea _ _ a _ _ => some a.val
  | .vadd _ _ _ a _ | .vsub _ _ _ a _ | .vmul _ _ _ a _ | .vfma _ _ _ a _ _ | .vfms _ _ _ a _ _
  | .vfnma _ _ _ a _ _ | .vmin _ _ _ a _ | .vmax _ _ _ a _ | .vminn _ _ _ a _ | .vmaxn _ _ _ a _
  | .vabs _ _ _ a | .vneg _ _ _ a | .vcmp _ _ _ a _ _ | .vsel _ _ _ a _ _ | .vclamp _ _ _ a _ _
  | .vldx2 _ _ _ a _ | .vrnd _ _ _ a | .viadd _ _ _ a _ | .visub _ _ _ a _ | .vimul _ _ _ a _
  | .vimulh _ _ _ a _ | .viand _ _ _ a _ | .vior _ _ _ a _ | .vixor _ _ _ a _ | .vishl _ _ _ a _
  | .vishr _ _ _ a _ | .visra _ _ _ a _ | .vimin _ _ _ a _ | .vimax _ _ _ a _ | .viabs _ _ _ a
  | .vicmp _ _ _ a _ _ | .viclamp _ _ _ a _ _ | .vcvt _ _ _ a _ | .vcvts _ _ _ a _ _
  | .vpack _ _ _ a _ _ | .vunpk _ _ _ a _ _ | .vmov _ _ _ a | .vrbc _ _ _ a _ | .vcbc _ _ _ a _
  | .vrrot _ _ _ a _ | .vcrot _ _ _ a _ | .vrred _ _ _ a _ | .vcred _ _ _ a _ | .vrscan _ _ _ a _
  | .vperm _ _ _ a _ | .vtrn _ _ _ a | .vext _ _ _ a _ _ | .rtcnt _ _ a | .vrope _ _ _ a _ _ =>
    some a.val
  | _ => none

/-- Instructions that never carry a qualifier (R114, R159). -/
def noQualifier : Instr → Bool
  | .qopen .. | .qopenf .. | .qres .. | .qwait .. | .qpick .. | .qstat .. | .uiret .. => true
  | _ => false

/-- The header rules: existing form, short defaults, extension word (R113 to R115). -/
def checkHd (i : Instr) (f : Form) : Option Reject :=
  let h := f.hd
  let fm := forms i
  if (if h.long then fm.2 else fm.1) = false then some .unassigned
  else if h.long = false ∧ (h.gq ∨ h.gn ∨ h.qp ∨ h.qs ≠ 0 ∨ pack f.x ≠ shortX i (pack f.o)) then
    some .extension
  else if h.gq = false ∧ (h.gn ∨ h.qs ≠ 0) then some .extension
  else if h.gq ∧ noQualifier i then some .extension
  else if h.qp ∧ popField i ≠ some 0 then some .extension
  else none

/-- Reject with `limits` unless the condition holds. -/
def lim (b : Bool) : Option Reject := if b then none else some .limits

/-- Rounding codes of an instruction that rounds (R174). -/
def rndOk (x : VExt) : Bool := x.rnd.toNat ≤ 3 || x.rnd == 5

/-- Floating-point formats of V (R174). -/
def fpF (x : VExt) : Bool := x.f.toNat ≤ 2

/-- Integer types of V (R174). -/
def intF (x : VExt) : Bool := x.f == 1 || x.f == 2 || x.f == 5 || x.f == 6

/-- A float instruction that rounds and takes SAT (R177). -/
def ckRound (x : VExt) : Option Reject := lim (fpF x && rndOk x)

/-- A float instruction that does not round (R174, R177). -/
def ckExact (x : VExt) : Option Reject := lim (fpF x && x.rnd == 5 && !x.sat)

/-- An integer instruction (R174, R179). -/
def ckInt (x : VExt) (sat : Bool) : Option Reject := lim (intF x && x.rnd == 5 && (sat || !x.sat))

/-- A pure move (R174). -/
def ckMove (x : VExt) : Option Reject := lim (x.f == 0 && x.rnd == 5 && !x.sat)

/-- A reduction or scan (R174, R185): only the sum rounds. -/
def ckFold (x : VExt) (op : BitVec 3) : Option Reject :=
  lim (fpF x && !x.sat && op.toNat ≤ 4 && (if op == 0 then rndOk x else x.rnd == 5))

/-- A mask instruction (R175, R186). -/
def ckMask (x : VExt) (d : KReg) : Option Reject :=
  lim (x.f == 0 && x.rnd == 5 && !x.sat && d != 0)

/-- An X instruction (R121, R189). -/
def ckX (x : VExt) : Option Reject := lim (x.f == 0 && rndOk x && !x.sat)

/-- Types of R59 that a cell can hold. -/
def wideType (t : BitVec 3) : Bool := t == 1 || t == 2 || t == 5 || t == 6

/-- Types of R59 that are packed. -/
def narrowType (t : BitVec 3) : Bool := t == 0 || t == 1 || t == 4 || t == 5

/-- Packed formats of `vpack` and `vunpk` (R180): BF16, FP16, E4M3, E5M2 and the MX formats. -/
def packF (t : BitVec 4) : Bool := 1 ≤ t.toNat && t.toNat ≤ 12

/-- MX formats, codes 0x5 to 0xC (R58). -/
def mxF (t : BitVec 4) : Bool := 5 ≤ t.toNat && t.toNat ≤ 12

/-- Rounding codes of a conversion, with SR where it is permitted (R180). -/
def cvtRnd (x : VExt) (sr : Bool) : Bool := rndOk x || (sr && x.rnd == 4)

/-- `vcvt` (R180). -/
def ckCvt (x : VExt) (k : Cvt) : Bool :=
  match k.kind.toNat with
  | 0 => x.f.toNat ≤ 2 && k.tf.toNat ≤ 2 && k.sty == 0 && k.tty == 0 && x.f != k.tf &&
         cvtRnd x (x.f == 0)
  | 1 => x.f.toNat ≤ 2 && k.tf == 0 && k.sty == 0 && wideType k.tty && cvtRnd x false
  | 2 => x.f == 0 && k.tf.toNat ≤ 2 && wideType k.sty && k.tty == 0 && cvtRnd x false
  | _ => x.f == 0 && k.tf == 0 && wideType k.sty && wideType k.tty && k.sty != k.tty &&
         cvtRnd x false

/-- `vcvts` (R180). -/
def ckCvts (x : VExt) (k : Cvt) : Bool :=
  match k.kind.toNat with
  | 0 => x.f == 0 && k.tf.toNat ≤ 2 && k.sty == 0 && k.tty == 0 && cvtRnd x (k.tf != 0)
  | 1 => x.f == 0 && k.tf == 0 && k.sty == 0 && wideType k.tty && cvtRnd x false
  | 2 => x.f == 0 && k.tf.toNat ≤ 2 && k.sty == 2 && k.tty == 0 && cvtRnd x false
  | _ => false

/-- `vpack` (R180, R181): B is not read with an MX target. -/
def ckPack (x : VExt) (b : VReg) (k : Cvt) : Bool :=
  x.msk == 0 &&
  match k.kind.toNat with
  | 0 => x.f == 0 && packF k.tf && k.sty == 0 && k.tty == 0 && cvtRnd x true && (!mxF k.tf || b == 0)
  | 1 => x.f == 0 && k.tf == 0 && k.sty == 0 && narrowType k.tty && cvtRnd x false
  | 3 => x.f == 0 && k.tf == 0 && (k.sty == 2 || k.sty == 6) && narrowType k.tty && cvtRnd x false
  | _ => false

/-- `vunpk` (R180, R182): the part is 0 or 1, and 0 for an MX source. -/
def ckUnpk (x : VExt) (p : Fin 32) (k : Cvt) : Bool :=
  x.msk == 0 && p.val ≤ 1 && cvtRnd x false &&
  match k.kind.toNat with
  | 0 => packF x.f && k.tf == 0 && k.sty == 0 && k.tty == 0 && (!mxF x.f || p == 0)
  | 2 => x.f == 0 && k.tf == 0 && narrowType k.sty && k.tty == 0
  | 3 => x.f == 0 && k.tf == 0 && narrowType k.sty && k.tty == (if k.sty.toNat < 4 then 2 else 6)
  | _ => false

/-- Flag operand of format CF: kinds accepted, number, coordinates, scope (R117, R238). Fields that the form does not
use must be zero, which is the model's choice.
DESIGN CHOICE (log 148), unsafe. -/
def ckFlag (h : Hd) (f : FlagRef) (kinds : List Nat) : Bool :=
  kinds.contains f.fk.toNat && (f.fk == 1 || f.fn.toNat < 1024) &&
  (f.fk == 2 || (f.prow == 0 && f.pcol == 0)) && (f.fk != 2 || h.long)

/-- A scoped flag instruction: no `.core` scope on a device or peer flag (R238). -/
def ckScoped (h : Hd) (f : FlagRef) (sc : BitVec 2) (kinds : List Nat) : Bool :=
  ckFlag h f kinds && (f.fk == 0 || sc != 0)

/-- Spaces and sizes of the typed-buffer accesses (R225, R226), `w` the log2 of the size. -/
def ckSpace (m : LMem) (w : Nat) : Bool :=
  m.as == 0 || m.as == 2 || (m.as == 3 && (w == 2 || w == 3))

/-- Log2 of the element size of a vector access. -/
def velem (w : BitVec 2) : Nat := if w == 0 then 2 else 1

/-- No literal of a guard assignment is 0b11 (R166). -/
def gmOk (gm : BitVec 16) : Bool :=
  (List.range 8).all fun n => gm.toNat / 4 ^ n % 4 != 3

/-- Token rules of R125. -/
def tokOk (t : Option FlagTok) : Bool :=
  match t with
  | none => true
  | some t => t.dev || t.n.toNat < 1024

/-- Token and ENG rules of a command (R125, R127). -/
def ckTok (e : ECmd) (engs : List Nat) : Option Reject :=
  if tokOk e.produce && tokOk e.c0 && tokOk e.c1 && tokOk e.c2 &&
     (e.c1 == none || e.c0 != none) && (e.c2 == none || e.c1 != none) &&
     engs.contains e.eng.val then none else some .token

/-- Engine that runs a route of the copy family (R254). -/
def cpyEng (pair : BitVec 3) : List Nat := if pair.toNat ≤ 1 then [0] else [1]

/-- The limits of each instruction's own rule. The mask field of `pf`, `zfill`, `pin` and `unpin`, which use none, must be
zero, which is the model's choice (R123, R231, R232).
DESIGN CHOICE (log 153), unsafe. -/
def checkOwn : Instr → Option Reject
  | .sext _ _ _ w | .zext _ _ _ w => lim (1 ≤ w.toNat && w.toNat ≤ 64)
  | .bfx _ _ _ p n | .bfi _ _ _ p n => lim (1 ≤ n.toNat && p.toNat + n.toNat ≤ 64)
  | .cmp _ _ _ _ cc => lim (cc.toNat ≤ 5)
  | .fpost h f sc _ | .fwait h f sc _ => lim (ckScoped h f sc [0, 1, 2])
  | .fset h f sc _ | .fdec h f sc _ => lim (ckScoped h f sc [0, 1])
  | .fread h f _ => lim (ckFlag h f [0, 1, 2])
  | .farm h f sc _ => lim (ckFlag h f [0] && sc == 0)
  | .barj _ n _ | .barw _ n _ => lim (n.toNat % 2 == 0)
  | .align _ n => lim (n.toNat ≤ 40)
  | .idleColumn _ _ col => lim (col != 0)
  | .qopenf _ _ _ fk fn => lim (fk == 1 || (fk == 0 && fn.toNat < 1024))
  | .qpick _ vr d a gm => lim (gmOk gm && (!vr || (d.val < 32 && a.val < 32)))
  | .qstat _ vr d a => lim (!vr || (d.val < 32 && a.val < 32))
  | .pcsel _ code => lim (code.toNat < 512)
  | .lidx _ _ _ a op => lim (op.toNat ≤ 1 && a.val % 2 == 0)
  | .lgat _ _ a op => lim (op.toNat ≤ 1 && a.val % 2 == 0)
  | .lpool _ op => lim (op.toNat % 4 != 3 && op.toNat / 4 != 3 && op != 9)
  | .lscat _ _ a op => lim (op.toNat ≤ 1 && a.val % 2 == 0)
  | .vadd _ x .. | .vsub _ x .. | .vmul _ x .. | .vfma _ x .. | .vfms _ x .. | .vfnma _ x ..
  | .vldx2 _ x .. => ckRound x
  | .vrnd _ x .. => (ckRound x).or (lim (!x.sat))
  | .vmin _ x .. | .vmax _ x .. | .vminn _ x .. | .vmaxn _ x .. | .vabs _ x .. | .vneg _ x ..
  | .vclamp _ x .. => ckExact x
  | .vcmp _ x d _ _ cc => (ckExact x).or (lim (d != 0 && cc.toNat ≤ 7))
  | .viadd _ x .. | .visub _ x .. | .vimul _ x .. | .viabs _ x .. => ckInt x true
  | .vimulh _ x .. | .viand _ x .. | .vior _ x .. | .vixor _ x .. | .vishl _ x .. | .vishr _ x ..
  | .visra _ x .. | .vimin _ x .. | .vimax _ x .. | .viclamp _ x .. => ckInt x false
  | .vicmp _ x d _ _ cc => (ckInt x false).or (lim (d != 0 && cc.toNat ≤ 5))
  | .vcvt _ x _ _ k => lim (ckCvt x k)
  | .vcvts _ x _ _ _ k => lim (ckCvts x k)
  | .vpack _ x _ _ b k => lim (ckPack x b k)
  | .vunpk _ x _ _ p k => lim (ckUnpk x p k)
  | .vsel _ x .. | .vmov _ x .. | .vbc _ x .. | .vrbc _ x .. | .vcbc _ x .. | .vrrot _ x ..
  | .vperm _ x .. | .vtrn _ x .. | .viota _ x .. | .vins _ x .. => ckMove x
  | .vcrot _ x _ _ n => (ckMove x).or (lim (match n with | .imm n => n.val < 16 | .reg _ => true))
  | .vext _ x .. => (ckMove x).or (lim (x.msk == 0))
  | .vrred _ x d _ op => (ckFold x op).or (lim (match d with | .v _ => true | .s _ => x.f == 0))
  | .vcred _ x _ _ op | .vrscan _ x _ _ op => ckFold x op
  | .kand _ x d .. | .kor _ x d .. | .kxor _ x d .. | .knot _ x d .. | .kmov _ x d .. => ckMask x d
  | .kpop _ x .. | .kfst _ x .. => lim (x.f == 0 && x.rnd == 5 && !x.sat && x.msk == 0)
  | .rtcnt _ x .. => lim (x.f == 2 && x.rnd == 5 && !x.sat)
  | .vrope _ x .. => lim (x.f == 0 && rndOk x)
  | .xexp2 _ x .. | .xlog2 _ x .. | .xrcp _ x .. | .xrsqrt _ x .. | .xsqrt _ x .. | .xdiv _ x .. =>
    ckX x
  | .xrng _ x .. => (ckX x).or (lim (x.rnd == 5))
  | .mmac _ _ _ _ tl nt | .mret _ _ tl nt | .mload _ _ tl nt | .mzero _ _ tl nt =>
    lim (tl.val + nt.val ≤ 15)
  | .mmode _ _ _ rm => lim (rm.toNat ≤ 3)
  | .sget _ _ _ code _ => lim (code.toNat ≤ 13)
  | .sld _ m w sx =>
    lim (m.msk == 0 && ckSpace m w.toNat && !(sx && w == 3))
  | .sst _ m _ w => lim (m.msk == 0 && ckSpace m w.toNat)
  | .vld _ m w sx | .vldx _ m w sx =>
    lim (w.toNat ≤ 1 && ckSpace m (velem w) && !(sx && w == 0))
  | .vst _ m _ w | .vstx _ m _ w => lim (w.toNat ≤ 1 && ckSpace m (velem w))
  | .pf _ m => lim (m.as == 0 && m.msk == 0)
  | .zfill _ m _ | .pin _ m _ | .unpin _ m _ => lim (m.as == 0 && m.msk == 0)
  | .tfill _ m _ w | .tdrain _ m w =>
    lim ((m.as == 1 || m.as == 2) && m.msk == 0 && w.toNat ≤ 1)
  | .atom _ _ _ _ op _ sz _ => lim (op.toNat ≤ 8 && sz.toNat ≤ 1 && !(op == 8 && sz == 1))
  | .cas _ _ _ _ _ _ sz _ => lim (sz.toNat ≤ 1)
  | .rst _ _ _ _ _ fv fn => lim (fv || fn == 0)
  | .cpy e k =>
    (ckTok e (cpyEng k.pair)).or (lim (k.pair.toNat ≤ 4 && (!k.fe || k.pair.toNat ≤ 2) &&
      (k.pair == 2 || k.pair == 3 || k.pair == 4 || k.dh == 0) &&
      (k.pair == 0 || k.pair == 1 || k.pair == 4 || k.sh == 0)))
  | .cpyc e k _ _ _ =>
    (ckTok e (cpyEng k.pair)).or (lim (k.pair.toNat ≤ 4 && !k.fe &&
      (k.pair == 2 || k.pair == 3 || k.pair == 4 || k.dh == 0) &&
      (k.pair == 0 || k.pair == 1 || k.pair == 4 || k.sh == 0)))
  | .cfill e k =>
    (ckTok e (cpyEng k.pair)).or (lim (k.pair.toNat ≤ 3 && (!k.fe || k.pair.toNat ≤ 1) &&
      k.sh == 0 && (k.pair == 3 || k.dh == 0)))
  | .tfetch e k _ _ => (ckTok e [0]).or (lim (k.pair.toNat ≤ 1 && k.fe && k.dh == 0))
  | .kick e .. | .link e .. | .esync e => ckTok e [0, 1, 2, 3]
  | .collAllReduce e k | .collReduceScatter e k =>
    (ckTok e [2]).or (lim (k.red.toNat ≤ 2 && k.fmt.toNat ≤ 2 && (k.dg || (k.dh == 0 && k.nf == 0))))
  | .collAllGather e k | .collAllToAll e k | .collBroadcast e k =>
    (ckTok e [2]).or (lim (k.red == 0 && k.fmt.toNat ≤ 2 && (k.dg || (k.dh == 0 && k.nf == 0))))
  | .rmerge e .. | .rtsnap e .. => ckTok e [2]
  | .hvstKeep e _ _ dk _ d | .hvstMass e _ _ dk _ d => (ckTok e [3]).or (lim (dk || d == 0))
  | .hcomp e .. | .htrunc e .. => ckTok e [3]
  | .lkick e .. => ckTok e [0]
  | _ => none

/-- v registers named by 6-bit fields (R116, R123): O of `vldx` and `vstx`. -/
def checkVReg : Instr → Option Reject
  | .vldx _ m .. | .vstx _ m .. => if m.o.val < 32 then none else some .zeroField
  | _ => none

/-- Payload of a command as one number, UI bit included (R124, R249). -/
def payload (f : EForm) : Nat := pack ((1, bit f.e.ui) :: f.p)

/-- A 64-bit command is the 128-bit command with words 2 and 3 zero (R124). -/
def checkShortE (f : EForm) : Option Reject :=
  if f.e.long ∨ (f.e.c0 = none ∧ f.e.c1 = none ∧ f.e.c2 = none ∧ payload f < 2 ^ 30) then none
  else some .continuation

/-- The first rule of the encoding that an instruction breaks; none for a well-formed one.
DESIGN CHOICE (log 15), safe. DEDUCED (log 16), safe. DEDUCED (log 17), safe. DEDUCED (log 20), safe. -/
def check (i : Instr) : Option Reject :=
  match form i with
  | some f => (checkHd i f).or ((checkVReg i).or (checkOwn i))
  | none =>
    match eform i with
    | some f => (checkShortE f).or (checkOwn i)
    | none => none

end Sys2Proof
end

