-- ==== Sys2Proof/WellFormed.lean ====
section
/-! DEFINITION. Well-formed instructions: those an encoding of chapter 04 exists for, and the events,
whose rows carry no encoding. -/

namespace Sys2Proof

/-- No rule of the encoding is broken. -/
abbrev Instr.WellFormed (i : Instr) : Prop := check i = none

end Sys2Proof
end

