-- ==== Sys2Proof/Decode.lean ====
section
/-! DEFINITION. The decoder, total on any words, and the encoder. An instruction is read from its
opcode and fields, and is accepted only when its encoding is the very words read, so that no bit of
a zero field is dropped (R116, R128). -/

namespace Sys2Proof

/-! ## Encoder -/

/-- Bits [31:0] of a number as a lane. -/
def lane (n : Nat) : Word32 := BitVec.ofNat 32 n

/-- First lane of an instruction of C, V, X, M or L (R112). -/
def firstLane (f : Form) : Nat :=
  pack ([(4, f.hd.idle.toNat), (1, bit f.hd.long), (7, f.op)] ++ f.o)

/-- Extension word (R114). -/
def extLane (f : Form) : Nat :=
  pack ([(1, bit f.hd.gq), (1, bit f.hd.gn), (3, f.hd.qs.val), (1, bit f.hd.qp)] ++ f.x)

/-- A token's presence, kind and number (R124). -/
def tokFields (t : Option FlagTok) : List (Nat × Nat) :=
  match t with
  | none => [(1, 0), (1, 0), (12, 0)]
  | some t => [(1, 1), (1, bit t.dev), (12, t.n.toNat)]

/-- The four words of an engine command (R124). -/
def eWords (f : EForm) : List Nat :=
  let p := payload f
  [pack [(4, f.e.idle.toNat), (1, bit f.e.long), (7, f.op), (2, f.e.eng.val), (6, f.e.st.val), (12, p)],
   pack (tokFields f.e.produce ++ [(18, p / 2 ^ 12)]),
   pack (tokFields f.e.c0 ++ tokFields f.e.c1 ++ [(4, p / 2 ^ 30)]),
   pack (tokFields f.e.c2 ++ [(18, p / 2 ^ 34)])]

/-- The four words of a link word (R126). -/
def linkWords (next : BitVec 50) : List Nat :=
  [0xff * 2 ^ 20, next.toNat % 2 ^ 32, next.toNat / 2 ^ 32, 0]

/-- The queue and the words of an instruction; none for an event. -/
def encode (i : Instr) : Option (Queue × List Word32) :=
  match form i with
  | some f => some (f.q, if f.hd.long then [lane (firstLane f), lane (extLane f)] else [lane (firstLane f)])
  | none =>
    match eform i with
    | some f => some (.e, (if f.e.long then eWords f else (eWords f).take 2).map lane)
    | none =>
      match i with
      | .linkWord next => some (.chain, (linkWords next).map lane)
      | _ => none

/-! ## Reading fields -/

/-- A bit field as a register number or other bounded index. -/
def fin (k : Nat) [NeZero k] (n hi lo : Nat) : Fin k := Fin.ofNat k (bits n hi lo)

/-- A bit as a Boolean. -/
def flag (n i : Nat) : Bool := bits n i i == 1

/-- Header of an instruction from its first lane and its extension word (R112, R114). -/
def readHd (w : Nat) (e : Option Nat) : Hd :=
  let x := e.getD 0
  { idle := BitVec.ofNat 4 (bits w 31 28), long := e.isSome, gq := flag x 31, gn := flag x 30,
    qs := fin 8 x 29 27, qp := flag x 26 }

/-- Second operand of format CR. -/
def readSrc2 (o x : Nat) : Src2 :=
  if flag o 19 then .imm (BitVec.ofNat 33 (bits o 6 0 + bits x 25 0 * 2 ^ 7)) else .reg (fin 64 o 6 1)

/-- Immediate of format CR. -/
def readImm (o x : Nat) : BitVec 33 := BitVec.ofNat 33 (bits o 6 0 + bits x 25 0 * 2 ^ 7)

/-- Trip of format CL. -/
def readTrip (o x : Nat) : Trip :=
  if flag o 16 then .imm (BitVec.ofNat 32 (bits o 15 10 + bits x 25 0 * 2 ^ 6)) else .reg (fin 64 o 15 10)

/-- Flag of format CF. -/
def readFlag (o x : Nat) : FlagRef :=
  { fk := BitVec.ofNat 2 (bits o 19 18), fn := BitVec.ofNat 12 (bits o 17 6),
    prow := BitVec.ofNat 4 (bits x 25 22), pcol := BitVec.ofNat 4 (bits x 21 18) }

/-- Value of format CF. -/
def readVal (o x : Nat) : FlagVal :=
  if flag x 15 then .imm (BitVec.ofNat 15 (bits x 14 0)) else .reg (fin 64 o 5 0)

/-- Extension fields of format VR. -/
def readV (x : Nat) : VExt :=
  { msk := fin 16 x 25 22, f := BitVec.ofNat 4 (bits x 21 18), rnd := BitVec.ofNat 3 (bits x 17 15),
    sat := flag x 14 }

/-- IS fields of the conversions. -/
def readCvt (x : Nat) : Cvt :=
  { tf := BitVec.ofNat 4 (bits x 13 10), sty := BitVec.ofNat 3 (bits x 9 7),
    tty := BitVec.ofNat 3 (bits x 6 4), kind := BitVec.ofNat 2 (bits x 3 2) }

/-- Address fields of format LM. -/
def readLM (o x : Nat) : LMem :=
  { msk := fin 16 x 25 22, as := BitVec.ofNat 2 (bits x 21 20), hn := fin 16 o 13 10,
    o := fin 64 o 9 4, imm := BitVec.ofNat 20 (bits x 19 0) }

/-- Rotation amount of `vrrot` and `vcrot`. -/
def readRot (o x : Nat) : Rot := if flag x 6 then .reg (fin 64 o 9 4) else .imm (fin 64 x 5 0)

/-- The C instruction of an opcode and its fields, zero fields not yet checked (R117, R127). -/
def readC (h : Hd) (op o x : Nat) : Option Instr :=
  match op with
  | 0x00 => some (.nop h)
  | 0x01 => some (.add h (fin 64 o 18 13) (fin 64 o 12 7) (readSrc2 o x))
  | 0x02 => some (.sub h (fin 64 o 18 13) (fin 64 o 12 7) (readSrc2 o x))
  | 0x03 => some (.mul h (fin 64 o 18 13) (fin 64 o 12 7) (readSrc2 o x))
  | 0x04 => some (.mulh h (fin 64 o 18 13) (fin 64 o 12 7) (readSrc2 o x))
  | 0x05 => some (.mulhn h (fin 64 o 18 13) (fin 64 o 12 7) (readSrc2 o x))
  | 0x06 => some (.div h (fin 64 o 18 13) (fin 64 o 12 7) (readSrc2 o x))
  | 0x07 => some (.divn h (fin 64 o 18 13) (fin 64 o 12 7) (readSrc2 o x))
  | 0x08 => some (.rem h (fin 64 o 18 13) (fin 64 o 12 7) (readSrc2 o x))
  | 0x09 => some (.remn h (fin 64 o 18 13) (fin 64 o 12 7) (readSrc2 o x))
  | 0x0a => some (.and_ h (fin 64 o 18 13) (fin 64 o 12 7) (readSrc2 o x))
  | 0x0b => some (.or_ h (fin 64 o 18 13) (fin 64 o 12 7) (readSrc2 o x))
  | 0x0c => some (.xor h (fin 64 o 18 13) (fin 64 o 12 7) (readSrc2 o x))
  | 0x0d => some (.andn h (fin 64 o 18 13) (fin 64 o 12 7) (readSrc2 o x))
  | 0x0e => some (.shl h (fin 64 o 18 13) (fin 64 o 12 7) (readSrc2 o x))
  | 0x0f => some (.shr h (fin 64 o 18 13) (fin 64 o 12 7) (readSrc2 o x))
  | 0x10 => some (.sra h (fin 64 o 18 13) (fin 64 o 12 7) (readSrc2 o x))
  | 0x11 => some (.rol h (fin 64 o 18 13) (fin 64 o 12 7) (readSrc2 o x))
  | 0x12 => some (.min h (fin 64 o 18 13) (fin 64 o 12 7) (readSrc2 o x))
  | 0x13 => some (.max h (fin 64 o 18 13) (fin 64 o 12 7) (readSrc2 o x))
  | 0x14 => some (.minn h (fin 64 o 18 13) (fin 64 o 12 7) (readSrc2 o x))
  | 0x15 => some (.maxn h (fin 64 o 18 13) (fin 64 o 12 7) (readSrc2 o x))
  | 0x16 => some (.clz h (fin 64 o 18 13) (fin 64 o 12 7))
  | 0x17 => some (.ctz h (fin 64 o 18 13) (fin 64 o 12 7))
  | 0x18 => some (.popc h (fin 64 o 18 13) (fin 64 o 12 7))
  | 0x19 => some (.sext h (fin 64 o 18 13) (fin 64 o 12 7) (readImm o x))
  | 0x1a => some (.zext h (fin 64 o 18 13) (fin 64 o 12 7) (readImm o x))
  | 0x1b => some (.bfx h (fin 64 o 18 13) (fin 64 o 12 7) (BitVec.ofNat 6 (bits x 19 14)) (BitVec.ofNat 7 (bits x 13 7)))
  | 0x1c => some (.bfi h (fin 64 o 18 13) (fin 64 o 12 7) (BitVec.ofNat 6 (bits x 19 14)) (BitVec.ofNat 7 (bits x 13 7)))
  | 0x1d => some (.cmp h (fin 64 o 18 13) (fin 64 o 12 7) (fin 64 o 6 1) (BitVec.ofNat 4 (bits x 6 3)))
  | 0x1e => some (.sel h (fin 64 o 18 13) (fin 64 o 12 7) (fin 64 o 6 1) (fin 64 x 25 20))
  | 0x1f => some (.li h (fin 64 o 18 13) (BitVec.ofNat 39 (bits o 12 0 + bits x 25 0 * 2 ^ 13)))
  | 0x20 => some (.lih h (fin 64 o 18 13) (BitVec.ofNat 32 (bits o 12 0 + bits x 18 0 * 2 ^ 13)))
  | 0x21 => some (.mov h (fin 64 o 18 13) (fin 64 o 12 7))
  | 0x22 => some (.lea h (fin 64 o 18 13) (fin 64 o 12 7) (fin 64 o 6 1) (BitVec.ofNat 6 (bits x 19 14)))
  | 0x23 => some (.crd h (fin 64 o 18 13) (BitVec.ofNat 4 (bits o 12 9)) (BitVec.ofNat 4 (bits o 8 5)))
  | 0x28 => some (.br h (flag o 19) (fin 64 o 18 13) (BitVec.ofNat 39 (bits o 12 0 + bits x 25 0 * 2 ^ 13)))
  | 0x29 => some (.jmp h (BitVec.ofNat 46 (bits o 19 0 + bits x 25 0 * 2 ^ 20)))
  | 0x2a => some (.jmpi h (fin 64 o 12 7))
  | 0x2b => some (.call h (fin 64 o 18 13) (BitVec.ofNat 39 (bits o 12 0 + bits x 25 0 * 2 ^ 13)))
  | 0x2c => some (.ret h (fin 64 o 12 7))
  | 0x30 => some (.loop h (fin 8 o 19 17) (readTrip o x) (BitVec.ofNat 10 (bits o 9 0)))
  | 0x31 => some (.loopn h (fin 8 o 19 17) (fin 16 o 13 10) (BitVec.ofNat 10 (bits o 9 0)))
  | 0x32 => some (.loopc h (fin 8 o 19 17) (readTrip o x) (BitVec.ofNat 10 (bits o 9 0)))
  | 0x33 => some (.loopd h (fin 8 o 19 17) (readTrip o x) (BitVec.ofNat 10 (bits o 9 0)))
  | 0x34 => some (.lbrk h (fin 8 o 19 17) (fin 64 o 12 7))
  | 0x35 => some (.lrec h (BitVec.ofNat 16 (bits o 15 0)))
  | 0x36 => some (.stg h (fin 64 o 18 13) (fin 8 o 2 0))
  | 0x38 => some (.fpost h (readFlag o x) (BitVec.ofNat 2 (bits x 17 16)) (readVal o x))
  | 0x39 => some (.fwait h (readFlag o x) (BitVec.ofNat 2 (bits x 17 16)) (readVal o x))
  | 0x3a => some (.fset h (readFlag o x) (BitVec.ofNat 2 (bits x 17 16)) (readVal o x))
  | 0x3b => some (.fdec h (readFlag o x) (BitVec.ofNat 2 (bits x 17 16)) (readVal o x))
  | 0x3c => some (.fread h (readFlag o x) (fin 64 o 5 0))
  | 0x3d => some (.farm h (readFlag o x) (BitVec.ofNat 2 (bits x 17 16)) (readVal o x))
  | 0x3e => some (.barj h (BitVec.ofNat 12 (bits o 17 6)) (fin 64 o 5 0))
  | 0x3f => some (.barw h (BitVec.ofNat 12 (bits o 17 6)) (fin 64 o 5 0))
  | 0x40 => some (.align h (BitVec.ofNat 6 (bits o 12 7)))
  | 0x41 => some (if bits x 1 0 = 0 then .idle h (BitVec.ofNat 20 (bits o 19 0)) else .idleColumn h (BitVec.ofNat 20 (bits o 19 0)) (BitVec.ofNat 2 (bits x 1 0)))
  | 0x48 => some (.qopen h (fin 8 o 19 17) (fin 64 o 16 11))
  | 0x49 => some (.qopenf h (fin 8 o 19 17) (fin 64 o 16 11) (BitVec.ofNat 2 (bits x 25 24)) (BitVec.ofNat 12 (bits x 23 12)))
  | 0x4a => some (.qres h (fin 8 o 19 17) (fin 64 o 16 11))
  | 0x4b => some (.qwait h (fin 8 o 19 17))
  | 0x4c => some (.qpick h (flag o 4) (fin 64 o 16 11) (fin 64 o 10 5) (BitVec.ofNat 16 (bits x 15 0)))
  | 0x4d => some (.qstat h (flag o 4) (fin 64 o 16 11) (fin 64 o 10 5))
  | 0x50 => some (.trap h (BitVec.ofNat 16 (bits o 15 0)))
  | 0x51 => some (.svc h (BitVec.ofNat 16 (bits o 15 0)))
  | 0x52 => some (.halt h)
  | 0x53 => some (.yield h)
  | 0x54 => some (.rdsr h (fin 64 o 18 13) (BitVec.ofNat 8 (bits o 7 0)))
  | 0x55 => some (.wrsr h (fin 64 o 18 13) (BitVec.ofNat 8 (bits o 7 0)))
  | 0x56 => some (.brk h (BitVec.ofNat 16 (bits o 15 0)))
  | 0x57 => some (.uiret h)
  | 0x58 => some (.pcsel h (BitVec.ofNat 16 (bits o 15 0)))
  | 0x59 => some (.pcread h (fin 64 o 18 13) (fin 64 o 12 7) (BitVec.ofNat 2 (bits o 1 0)))
  | 0x5a => some (.trmark h (BitVec.ofNat 16 (bits o 15 0)))
  | 0x70 => some (.lidx h (fin 64 o 19 14) (fin 16 o 13 10) (fin 64 o 9 4) (BitVec.ofNat 4 (bits o 3 0)))
  | 0x71 => some (.ldup h (fin 64 o 19 14))
  | 0x72 => some (.lgat h (fin 16 o 13 10) (fin 64 o 9 4) (BitVec.ofNat 4 (bits o 3 0)))
  | 0x73 => some (.lpool h (BitVec.ofNat 4 (bits o 3 0)))
  | 0x74 => some (.lsend h (fin 64 o 9 4) (BitVec.ofNat 4 (bits x 25 22)) (BitVec.ofNat 4 (bits x 21 18)) (BitVec.ofNat 11 (bits x 17 7)))
  | 0x75 => some (.lscat h (fin 16 o 13 10) (fin 64 o 9 4) (BitVec.ofNat 4 (bits o 3 0)))
  | _ => none

/-- The V instruction of an opcode and its fields (R120, R121, R127). -/
def readVIns (h : Hd) (op o x : Nat) : Option Instr :=
  let e := readV x
  match op with
  | 0x01 => some (.vadd h e (fin 32 o 19 15) (fin 32 o 14 10) (fin 32 o 9 5))
  | 0x02 => some (.vsub h e (fin 32 o 19 15) (fin 32 o 14 10) (fin 32 o 9 5))
  | 0x03 => some (.vmul h e (fin 32 o 19 15) (fin 32 o 14 10) (fin 32 o 9 5))
  | 0x04 => some (.vfma h e (fin 32 o 19 15) (fin 32 o 14 10) (fin 32 o 9 5) (fin 32 o 4 0))
  | 0x05 => some (.vfms h e (fin 32 o 19 15) (fin 32 o 14 10) (fin 32 o 9 5) (fin 32 o 4 0))
  | 0x06 => some (.vfnma h e (fin 32 o 19 15) (fin 32 o 14 10) (fin 32 o 9 5) (fin 32 o 4 0))
  | 0x07 => some (.vmin h e (fin 32 o 19 15) (fin 32 o 14 10) (fin 32 o 9 5))
  | 0x08 => some (.vmax h e (fin 32 o 19 15) (fin 32 o 14 10) (fin 32 o 9 5))
  | 0x09 => some (.vminn h e (fin 32 o 19 15) (fin 32 o 14 10) (fin 32 o 9 5))
  | 0x0a => some (.vmaxn h e (fin 32 o 19 15) (fin 32 o 14 10) (fin 32 o 9 5))
  | 0x0b => some (.vabs h e (fin 32 o 19 15) (fin 32 o 14 10))
  | 0x0c => some (.vneg h e (fin 32 o 19 15) (fin 32 o 14 10))
  | 0x0d => some (.vcmp h e (fin 16 o 19 15) (fin 32 o 14 10) (fin 32 o 9 5) (BitVec.ofNat 4 (bits x 3 0)))
  | 0x0e => some (.vsel h e (fin 32 o 19 15) (fin 32 o 14 10) (fin 32 o 9 5) (fin 16 o 4 0))
  | 0x0f => some (.vclamp h e (fin 32 o 19 15) (fin 32 o 14 10) (fin 32 o 9 5) (fin 32 o 4 0))
  | 0x10 => some (.vldx2 h e (fin 32 o 19 15) (fin 32 o 14 10) (fin 32 o 9 5))
  | 0x11 => some (.vrnd h e (fin 32 o 19 15) (fin 32 o 14 10))
  | 0x18 => some (.viadd h e (fin 32 o 19 15) (fin 32 o 14 10) (fin 32 o 9 5))
  | 0x19 => some (.visub h e (fin 32 o 19 15) (fin 32 o 14 10) (fin 32 o 9 5))
  | 0x1a => some (.vimul h e (fin 32 o 19 15) (fin 32 o 14 10) (fin 32 o 9 5))
  | 0x1b => some (.vimulh h e (fin 32 o 19 15) (fin 32 o 14 10) (fin 32 o 9 5))
  | 0x1c => some (.viand h e (fin 32 o 19 15) (fin 32 o 14 10) (fin 32 o 9 5))
  | 0x1d => some (.vior h e (fin 32 o 19 15) (fin 32 o 14 10) (fin 32 o 9 5))
  | 0x1e => some (.vixor h e (fin 32 o 19 15) (fin 32 o 14 10) (fin 32 o 9 5))
  | 0x1f => some (.vishl h e (fin 32 o 19 15) (fin 32 o 14 10) (fin 32 o 9 5))
  | 0x20 => some (.vishr h e (fin 32 o 19 15) (fin 32 o 14 10) (fin 32 o 9 5))
  | 0x21 => some (.visra h e (fin 32 o 19 15) (fin 32 o 14 10) (fin 32 o 9 5))
  | 0x22 => some (.vimin h e (fin 32 o 19 15) (fin 32 o 14 10) (fin 32 o 9 5))
  | 0x23 => some (.vimax h e (fin 32 o 19 15) (fin 32 o 14 10) (fin 32 o 9 5))
  | 0x24 => some (.viabs h e (fin 32 o 19 15) (fin 32 o 14 10))
  | 0x25 => some (.vicmp h e (fin 16 o 19 15) (fin 32 o 14 10) (fin 32 o 9 5) (BitVec.ofNat 4 (bits x 3 0)))
  | 0x26 => some (.viclamp h e (fin 32 o 19 15) (fin 32 o 14 10) (fin 32 o 9 5) (fin 32 o 4 0))
  | 0x28 => some (.vcvt h e (fin 32 o 19 15) (fin 32 o 14 10) (readCvt x))
  | 0x29 => some (.vcvts h e (fin 32 o 19 15) (fin 32 o 14 10) (fin 32 o 9 5) (readCvt x))
  | 0x2a => some (.vpack h e (fin 32 o 19 15) (fin 32 o 14 10) (fin 32 o 9 5) (readCvt x))
  | 0x2b => some (.vunpk h e (fin 32 o 19 15) (fin 32 o 14 10) (fin 32 o 9 5) (readCvt x))
  | 0x30 => some (.vmov h e (fin 32 o 19 15) (fin 32 o 14 10))
  | 0x31 => some (.vbc h e (fin 32 o 19 15) (fin 64 o 9 4))
  | 0x32 => some (.vrbc h e (fin 32 o 19 15) (fin 32 o 14 10) (fin 64 x 5 0))
  | 0x33 => some (.vcbc h e (fin 32 o 19 15) (fin 32 o 14 10) (fin 16 x 3 0))
  | 0x34 => some (.vrrot h e (fin 32 o 19 15) (fin 32 o 14 10) (readRot o x))
  | 0x35 => some (.vcrot h e (fin 32 o 19 15) (fin 32 o 14 10) (readRot o x))
  | 0x36 => some (.vrred h e (if flag x 6 then .s (fin 64 o 9 4) else .v (fin 32 o 19 15)) (fin 32 o 14 10) (BitVec.ofNat 3 (bits x 9 7)))
  | 0x37 => some (.vcred h e (fin 32 o 19 15) (fin 32 o 14 10) (BitVec.ofNat 3 (bits x 9 7)))
  | 0x38 => some (.vrscan h e (fin 32 o 19 15) (fin 32 o 14 10) (BitVec.ofNat 3 (bits x 9 7)))
  | 0x39 => some (.vperm h e (fin 32 o 19 15) (fin 32 o 14 10) (fin 32 o 9 5))
  | 0x3a => some (.vtrn h e (fin 32 o 19 15) (fin 32 o 14 10))
  | 0x3b => some (.viota h e (fin 32 o 19 15))
  | 0x3c => some (.vext h e (fin 64 o 9 4) (fin 32 o 14 10) (fin 16 x 13 10) (fin 64 x 9 4))
  | 0x3d => some (.vins h e (fin 32 o 19 15) (fin 64 o 9 4) (fin 16 x 13 10) (fin 64 x 9 4))
  | 0x40 => some (.kand h e (fin 16 o 19 15) (fin 16 o 14 10) (fin 16 o 9 5))
  | 0x41 => some (.kor h e (fin 16 o 19 15) (fin 16 o 14 10) (fin 16 o 9 5))
  | 0x42 => some (.kxor h e (fin 16 o 19 15) (fin 16 o 14 10) (fin 16 o 9 5))
  | 0x43 => some (.knot h e (fin 16 o 19 15) (fin 16 o 14 10))
  | 0x44 => some (.kmov h e (fin 16 o 19 15) (fin 16 o 14 10))
  | 0x45 => some (.kpop h e (fin 64 o 9 4) (fin 16 o 14 10))
  | 0x46 => some (.kfst h e (fin 64 o 9 4) (fin 16 o 14 10))
  | 0x48 => some (.rtcnt h e (fin 32 o 14 10))
  | 0x49 => some (.vrope h e (fin 32 o 19 15) (fin 32 o 14 10) (fin 32 o 9 5) (fin 32 o 4 0))
  | _ => none

/-- The X instruction of an opcode and its fields (R120, R121, R127). -/
def readX (h : Hd) (op o x : Nat) : Option Instr :=
  let e := readV x
  match op with
  | 0x01 => some (.xexp2 h e (fin 32 o 19 15) (fin 32 o 14 10))
  | 0x02 => some (.xlog2 h e (fin 32 o 19 15) (fin 32 o 14 10))
  | 0x03 => some (.xrcp h e (fin 32 o 19 15) (fin 32 o 14 10))
  | 0x04 => some (.xrsqrt h e (fin 32 o 19 15) (fin 32 o 14 10))
  | 0x05 => some (.xsqrt h e (fin 32 o 19 15) (fin 32 o 14 10))
  | 0x06 => some (.xdiv h e (fin 32 o 19 15) (fin 32 o 14 10) (fin 32 o 9 5))
  | 0x07 => some (.xrng h e (fin 32 o 19 15))
  | _ => none

/-- The M instruction of an opcode and its fields (R122, R127). -/
def readM (h : Hd) (op o x : Nat) : Option Instr :=
  let st := fin 64 x 25 20
  match op with
  | 0x01 => some (.mmac h st (fin 16 o 19 16) (fin 16 o 15 12) (fin 16 o 11 8) (fin 4 o 7 6))
  | 0x02 => some (.mmacb h st (fin 16 o 19 16) (fin 16 o 15 12) (fin 16 o 11 8) (fin 16 o 7 4))
  | 0x03 => some (.mret h st (fin 16 o 11 8) (fin 4 o 7 6))
  | 0x04 => some (.mload h st (fin 16 o 11 8) (fin 4 o 7 6))
  | 0x05 => some (.mzero h st (fin 16 o 11 8) (fin 4 o 7 6))
  | 0x06 => some (.mwake h st (BitVec.ofNat 16 (bits o 15 0)))
  | 0x07 => some (.mmode h st (flag o 3) (BitVec.ofNat 3 (bits o 2 0)))
  | 0x08 => some (.sset h st (fin 16 o 19 16) (BitVec.ofNat 16 (bits o 15 0)))
  | 0x09 => some (.sadv h st (fin 16 o 19 16))
  | 0x0a => some (.sget h st (fin 16 o 19 16) (BitVec.ofNat 4 (bits o 15 12)) (fin 64 o 11 6))
  | 0x10 => some (.aqk h st (fin 16 o 19 16) (fin 16 o 15 12) (fin 16 o 11 8) (fin 64 o 7 2))
  | 0x11 => some (.apv h st (fin 16 o 19 16) (fin 16 o 15 12) (fin 16 o 11 8) (fin 64 o 7 2))
  | 0x12 => some (.amass h st (fin 16 o 15 12) (fin 16 o 11 8) (fin 16 o 7 4))
  | 0x13 => some (.apos h st (fin 16 o 15 12) (fin 32 o 7 3))
  | _ => none

/-- The L instruction of an opcode and its fields (R123, R127). -/
def readL (h : Hd) (op o x : Nat) : Option Instr :=
  let m := readLM o x
  match op with
  | 0x01 => some (.vld h m (BitVec.ofNat 2 (bits o 1 0)) (flag o 2))
  | 0x02 => some (.vst h m (fin 32 o 19 14) (BitVec.ofNat 2 (bits o 1 0)))
  | 0x03 => some (.sld h m (BitVec.ofNat 2 (bits o 1 0)) (flag o 2))
  | 0x04 => some (.sst h m (fin 64 o 19 14) (BitVec.ofNat 2 (bits o 1 0)))
  | 0x05 => some (.vldx h m (BitVec.ofNat 2 (bits o 1 0)) (flag o 2))
  | 0x06 => some (.vstx h m (fin 32 o 19 14) (BitVec.ofNat 2 (bits o 1 0)))
  | 0x07 => some (.atom h (fin 64 o 19 14) (fin 16 o 13 10) (fin 64 o 9 4) (BitVec.ofNat 4 (bits o 3 0)) (fin 64 x 25 20) (BitVec.ofNat 2 (bits x 13 12)) (BitVec.ofNat 12 (bits x 11 0)))
  | 0x08 => some (.cas h (fin 64 o 19 14) (fin 16 o 13 10) (fin 64 o 9 4) (fin 64 x 25 20) (fin 64 x 19 14) (BitVec.ofNat 2 (bits x 13 12)) (BitVec.ofNat 12 (bits x 11 0)))
  | 0x09 => some (.pf h m)
  | 0x0a => some (.mark h)
  | 0x0b => some (.fence h (BitVec.ofNat 2 (bits o 1 0)))
  | 0x0c => some (.zfill h m (fin 64 o 19 14))
  | 0x0d => some (.pin h m (fin 64 o 19 14))
  | 0x0e => some (.unpin h m (fin 64 o 19 14))
  | 0x0f => some (.xlat h (fin 16 o 13 10) (fin 64 o 9 4))
  | 0x10 => some (.hrel h (fin 16 o 13 10))
  | 0x11 => some (.tfill h m (fin 32 o 19 14) (BitVec.ofNat 2 (bits o 1 0)))
  | 0x12 => some (.tdrain h m (BitVec.ofNat 2 (bits o 1 0)))
  | 0x13 => some (.rst h (fin 32 o 19 14) (fin 64 o 9 4) (BitVec.ofNat 4 (bits x 25 22)) (BitVec.ofNat 4 (bits x 21 18)) (flag x 17) (BitVec.ofNat 10 (bits x 16 7)))
  | _ => none

/-- A token of a command (R124). -/
def readTok (w v : Nat) : Option FlagTok :=
  if flag w v then some { dev := flag w (v - 1), n := BitVec.ofNat 12 (bits w (v - 2) (v - 13)) } else none

/-- Payload of the copy family (R254). -/
def readCopy (p : Nat) : Copy :=
  { do_ := fin 64 p 5 0, dh := fin 16 p 9 6, so := fin 64 p 15 10, sh := fin 16 p 19 16,
    pair := BitVec.ofNat 3 (bits p 22 20), fe := flag p 23, ln := fin 32 p 28 24 }

/-- Payload of `coll` (R258). -/
def readColl (p : Nat) : Coll :=
  { red := BitVec.ofNat 2 (bits p 4 3), fmt := BitVec.ofNat 2 (bits p 6 5), dg := flag p 7,
    dh := fin 16 p 11 8, gr := fin 64 p 17 12, so := fin 64 p 23 18, ln := fin 32 p 28 24,
    do_ := fin 64 p 35 30, nf := fin 64 p 41 36, col := BitVec.ofNat 4 (bits p 45 42),
    row := BitVec.ofNat 4 (bits p 49 46) }

/-- The command of an opcode and its payload (R127, R251 to R263). -/
def readCmd (e : ECmd) (op p : Nat) : Option Instr :=
  match op with
  | 0x01 => some (.cpy e (readCopy p))
  | 0x02 => some (.cpyc e (readCopy p) (fin 64 p 35 30) (fin 64 p 41 36) (fin 64 p 47 42))
  | 0x03 => some (.cfill e (readCopy p))
  | 0x04 => some (.tfetch e (readCopy p) (fin 64 p 35 30) (fin 64 p 47 42))
  | 0x05 => some (.kick e (fin 64 p 5 0) (fin 64 p 11 6))
  | 0x06 => some (.link e (fin 64 p 5 0))
  | 0x07 =>
    match bits p 2 0 with
    | 0 => some (.collAllReduce e (readColl p))
    | 1 => some (.collReduceScatter e (readColl p))
    | 2 => some (.collAllGather e (readColl p))
    | 3 => some (.collAllToAll e (readColl p))
    | 4 => some (.collBroadcast e (readColl p))
    | _ => none
  | 0x08 => some (.rmerge e (fin 16 p 3 0) (fin 64 p 9 4) (flag p 10) (fin 64 p 17 12) (fin 64 p 23 18)
      (fin 32 p 28 24))
  | 0x09 =>
    if flag p 10 then some (.hvstMass e (fin 16 p 3 0) (fin 64 p 9 4) (flag p 11) (fin 64 p 17 12) (fin 64 p 23 18))
    else some (.hvstKeep e (fin 16 p 3 0) (fin 64 p 9 4) (flag p 11) (fin 64 p 17 12) (fin 64 p 23 18))
  | 0x0a => some (.hcomp e (fin 16 p 3 0))
  | 0x0b => some (.htrunc e (fin 16 p 3 0) (fin 64 p 9 4))
  | 0x0c => some (.lkick e (fin 64 p 5 0) (fin 64 p 11 6) (fin 64 p 17 12))
  | 0x0d => some (.rtsnap e (fin 16 p 3 0) (fin 64 p 9 4))
  | 0x0e => some (.esync e)
  | _ => none

/-- What a command holds besides its payload, from its four words (R124). -/
def readE (long : Bool) (w0 w1 w2 w3 : Nat) : ECmd :=
  { idle := BitVec.ofNat 4 (bits w0 31 28), long := long, eng := fin 4 w0 19 18, st := fin 64 w0 17 12,
    produce := readTok w1 31, c0 := readTok w2 31, c1 := readTok w2 17, c2 := readTok w3 31,
    ui := flag w3 17 }

/-- Payload bits [50:0] from the four words (R124). -/
def readPayload (w0 w1 w2 w3 : Nat) : Nat :=
  bits w0 11 0 + bits w1 17 0 * 2 ^ 12 + bits w2 3 0 * 2 ^ 30 + bits w3 16 0 * 2 ^ 34

/-! ## Decoder -/

/-- The instruction of a queue of lanes, by opcode. -/
def readIns (q : Queue) (h : Hd) (op o x : Nat) : Option Instr :=
  match q with
  | .c => readC h op o x
  | .v => readVIns h op o x
  | .x => readX h op o x
  | .m => readM h op o x
  | .l => readL h op o x
  | _ => none

/-- Default of the extension bits of a short lane: sign bits for `li`, `br`, `call`, `jmp`, the V and
X defaults, zero otherwise (R115).
DEDUCED (log 18), unsafe. -/
def readShortX (q : Queue) (op o : Nat) : Nat :=
  match q with
  | .c =>
    if op = 0x1f ∨ op = 0x28 ∨ op = 0x2b then (if bits o 12 12 = 1 then 2 ^ 26 - 1 else 0)
    else if op = 0x29 then (if bits o 19 19 = 1 then 2 ^ 26 - 1 else 0) else 0
  | .v => (if (0x18 ≤ op ∧ op ≤ 0x26) ∨ op = 0x48 then 2 else 0) * 2 ^ 18 + 5 * 2 ^ 15
  | .x => 5 * 2 ^ 15
  | _ => 0

/-- Accept a candidate whose encoding is the words read and which breaks no rule. -/
def accept (i : Option Instr) (q : Queue) (ws : List Word32) : Except Reject Instr :=
  match i with
  | none => .error .unassigned
  | some i =>
    match check i with
    | some r => .error r
    | none => if encode i = some (q, ws) then .ok i else .error .zeroField

/-- Reads an instruction of a fetch line: its first lane and its continuation lanes (R108, R113). -/
def decodeLane (q : Queue) (ws : List Word32) : Except Reject Instr :=
  match q, ws with
  | .e, w0 :: rest =>
    let w := w0.toNat
    if bits w 27 20 = 0xff then .error .unassigned
    else
      match flag w 27, rest with
      | false, [w1] =>
        accept (readCmd (readE false w w1.toNat 0 0) (bits w 26 20) (readPayload w w1.toNat 0 0)) .e ws
      | true, [w1, w2, w3] =>
        accept (readCmd (readE true w w1.toNat w2.toNat w3.toNat) (bits w 26 20)
          (readPayload w w1.toNat w2.toNat w3.toNat)) .e ws
      | _, _ => .error .continuation
  | .chain, [w0, w1, w2, w3] =>
    if bits w0.toNat 27 20 = 0xff then
      accept (some (.linkWord (BitVec.ofNat 50 (w1.toNat + bits w2.toNat 17 0 * 2 ^ 32)))) .chain ws
    else if flag w0.toNat 27 = false then .error .chainEntry
    else
      match accept (readCmd (readE true w0.toNat w1.toNat w2.toNat w3.toNat) (bits w0.toNat 26 20)
          (readPayload w0.toNat w1.toNat w2.toNat w3.toNat)) .e ws with
      | .error r => .error r
      | .ok i =>
        match eform i with
        | some f =>
          if f.e.idle ≠ 0 ∨ f.e.st ≠ 0 ∨ f.op = 0x05 ∨ f.op = 0x06 then .error .chainEntry else .ok i
        | none => .error .chainEntry
  | .chain, _ => .error .continuation
  | q, w0 :: rest =>
    let w := w0.toNat
    match flag w 27, rest with
    | false, [] =>
      accept (readIns q (readHd w none) (bits w 26 20) (bits w 19 0) (readShortX q (bits w 26 20) (bits w 19 0)))
        q ws
    | true, [e] =>
      accept (readIns q (readHd w (some e.toNat)) (bits w 26 20) (bits w 19 0) (bits e.toNat 25 0)) q ws
    | _, _ => .error .continuation
  | _, [] => .error .continuation

/-! ## Fetch lines -/

/-- One lane of a fetch line that starts an instruction: its lane number, its queue and what it
decodes to. -/
structure LaneIns where
  lane : Nat
  q : Queue
  ins : Except Reject Instr
  deriving Repr

/-- Words of a line, little-endian (R106). -/
def wordAt (bytes : List Byte) (n : Nat) : Word32 :=
  let b := fun k => (bytes.getD (4 * n + k) 0).toNat
  BitVec.ofNat 32 (b 0 + b 1 * 2 ^ 8 + b 2 * 2 ^ 16 + b 3 * 2 ^ 24)

/-- Continuation lanes that directly follow lane `n` (R108). -/
def contLanes (codes : List Nat) : Nat → Nat → List Nat
  | _, 0 => []
  | n, k + 1 => if codes.getD n 0 = 0xe then n :: contLanes codes (n + 1) k else []

/-- The BLK bit of a header (R106). -/
def lineBlk (h : Word32) : Bool := flag h.toNat 0

/-- A line that breaks a rule of R107 or R108: bad line control, a code that is no queue, a nonzero
pad, a continuation in lane 1 or after a pad. -/
def lineBad (ws : List Word32) : Bool :=
  let h := (ws.getD 0 0).toNat
  let code := fun n => bits h (4 * n + 3) (4 * n)
  bits h 3 1 != 0 ||
  [1, 2, 3, 4, 5, 6, 7].any fun n =>
    (7 ≤ code n && code n ≤ 0xd) || code n == 0xf ||
    (code n == 0 && ws.getD n 0 != 0) ||
    (code n == 0xe && (n == 1 || code (n - 1) == 0))

/-- Instructions that may transfer control, and loop instructions: no C lane may follow one in its
line (R138). -/
def endsC : Instr → Bool
  | .br .. | .jmp .. | .jmpi .. | .call .. | .ret .. | .loop .. | .loopn .. | .loopc .. | .loopd ..
  | .lbrk .. | .lrec .. => true
  | _ => false

/-- Rejects the C lanes that follow a transfer or a loop instruction in their line (R138). -/
def afterTransfer : Bool → List LaneIns → List LaneIns
  | _, [] => []
  | seen, l :: r =>
    let l' := if seen && l.q == .c then { l with ins := .error .limits } else l
    let s := seen || (l.q == .c && match l.ins with | .ok i => endsC i | .error _ => false)
    l' :: afterTransfer s r

/-- The instructions of a well-formed line, in lane order (R106 to R109). -/
def lineIns (ws : List Word32) : List LaneIns :=
  let h := (ws.getD 0 0).toNat
  let codes := (List.range 8).map fun n => bits h (4 * n + 3) (4 * n)
  afterTransfer false <| [1, 2, 3, 4, 5, 6, 7].filterMap fun n =>
    match Queue.ofCode (codes.getD n 0) with
    | none => none
    | some q =>
      some { lane := n, q := q,
             ins := decodeLane q ((n :: contLanes codes (n + 1) 7).map fun k => ws.getD k 0) }

/-! ## The table's numbering -/

/-- First queue, in the order C, V, X, M, L, E, whose decoder accepts the words.
DESIGN CHOICE (log 21), safe. -/
def decodeAny (ws : List Word32) : Option (Queue × Instr) :=
  [Queue.c, .v, .x, .m, .l, .e].findSome? fun q =>
    match decodeLane q ws with
    | .ok i => some (q, i)
    | .error _ => none

/-- The words of an instruction whose table bits are `w`, by its length in bits: one lane, or the
lane and its continuation lanes, bits above `nbits` zero. -/
def tableWords (nbits w : Nat) : List Word32 :=
  let v := w % 2 ^ nbits
  if flag v 27 then
    if nbits ≤ 64 then [lane v, lane (v / 2 ^ 32)]
    else [lane v, lane (v / 2 ^ 32), lane (v / 2 ^ 64), lane (v / 2 ^ 96)]
  else if nbits ≤ 32 then [lane v] else [lane v, lane (v / 2 ^ 32)]

/-- The queue and instruction of a table word. The same word is an instruction of several queues,
which the header of its line tells apart (R107): the first queue that accepts it is taken. -/
def decodeTable (nbits w : Nat) : Option (Queue × Instr) := decodeAny (tableWords nbits w)

/-- The instruction of a table word. -/
def decodeTableWord (nbits w : Nat) : Option Instr := (decodeTable nbits w).map Prod.snd

end Sys2Proof
end

