-- ==== Sys2Proof/Machine/Types.lean ====
section
/-! DEFINITION. The shapes of the state: alternatives, captured instructions, queues, streams, the
fetch state and the module's tables. All of it is plain data. -/

namespace Sys2Proof.Machine

open Sys2Proof

/-- Cells of a vector register or of one slice of it, zero where not listed: key 64 * row + col for a
whole register, key row for a slice (R32, R172). -/
abbrev Cells := Tab Word32

/-- Bytes of a memory (R305, R298): addresses rise, an unlisted byte reads zero. -/
abbrev Mem := List Host.Cell

/-- A memory access recorded by a poison, and what L performs (R163, R164). -/
structure Access where
  ins : Instr
  /-- address of the instruction -/
  addr : Nat
  hn : HReg
  h : BitVec 128
  ss : List Word
  vs : List Cells
  msk : BitVec 1024
  deriving DecidableEq, Repr

/-- What an alternative holds (R36, R38): a value, or a poison with its class, whether it is the
alternative the access itself wrote, and the recorded access. -/
inductive AV (α : Type)
  | val (a : α)
  | poison (cls : BitVec 4) (own : Bool) (acc : Access)
  deriving DecidableEq, Repr

/-- Alternatives in frame order, each with its guard mask (R36). -/
abbrev Alts (α : Type) := List (BitVec 16 × AV α)

/-- Alternatives of a vector register or of one slice of it. -/
structure VAlts where
  alts : Alts Cells
  deriving DecidableEq, Repr

/-- A captured operand: the value as it stood, or a binding to a value still to land (R219). -/
inductive Src (α : Type)
  | now (a : Alts α)
  | tok (t : Nat)
  deriving DecidableEq, Repr

/-- A captured handle (R219, R245). -/
inductive HSrc
  | now (h : BitVec 128)
  | tok (t : Nat)
  deriving DecidableEq, Repr

/-- Fault kinds of R47. -/
inductive Kind
  | illegal | lineFormat | hazard | collision | breadth | guardReopen | flagUnderflow | flagOverflow
  | scheduleMiss | waitTimeout | arithFormat | page | staleHandle | permission | deferredAccess
  | poisonRead | trap
  deriving DecidableEq, Repr

/-- A flag by its home (R41, R274): own flag n of a site, or a device flag. -/
inductive FlagKey
  | own (site n : Nat)
  | dev (n : Nat)
  deriving DecidableEq, Repr

/-- What a frozen group waits for, with the freeze causes of R22. `idle` of `align` (R243) holds the
group without a cause of its own. -/
inductive Hold
  | slotEmpty (buf slot : Nat)
  | slotFull (buf slot : Nat)
  | sPend (r : SReg)
  | vPend (r : VReg)
  | ldqV
  | ldqC
  | bindV
  | bindC
  | heldFull
  | flagWait (f : FlagKey) (v : Nat)
  | barWait (n phase : Nat)
  | slotOpen (q : QSlot)
  | fetch (q : Nat)
  | wake (t : Nat)
  | handle (h : HReg)
  | ui
  | stamp (t : Nat)
  | sAlts (r : SReg)
  | vAlts (r : VReg)
  | litOpen (q : QSlot)
  /-- the head of LDQ-V or LDQ-C holds more than one alternative -/
  | popAlts (vec : Bool)
  | queueFull (q : Nat)
  deriving DecidableEq, Repr

/-- A literal of a qualifier: the slot, and true for requires-true (R155). -/
abbrev Lit := Fin 8 × Bool

/-- An s register (R30): its alternatives, and the token it waits for while pending (R26). -/
structure SCell where
  alts : Alts Word
  pend : Option Nat
  deriving DecidableEq, Repr

/-- A fixed-latency write to an s register in flight (R25, R156). -/
structure SWrite where
  reg : SReg
  res : Alts Word
  lit : Option Lit
  /-- outcomes of the slots that resolved since its issue -/
  out : List Lit
  /-- the group cycle at whose end it lands -/
  due : Nat
  q : Queue
  seq : Nat
  addr : Nat
  deriving DecidableEq, Repr

/-- Register that a slice write goes to (R172). -/
inductive VTgt
  | v (r : VReg)
  | k (r : KReg)
  deriving DecidableEq, Repr

/-- A write to one slice of a v or k register in flight (R172). A k bit is bit [row] of cell 0. -/
structure SliceWrite where
  tgt : VTgt
  slice : Nat
  res : Alts Cells
  lit : Option Lit
  out : List Lit
  due : Nat
  q : Queue
  seq : Nat
  addr : Nat
  /-- bits of a k slice that its mask keeps (R175) -/
  keep : BitVec 16
  deriving DecidableEq, Repr

/-- A V or X instruction whose wavefront is on its way (R172). -/
structure Wave where
  ins : Instr
  q : Queue
  addr : Nat
  seq : Nat
  /-- issue group cycle -/
  t : Nat
  lit : Option Lit
  out : List Lit
  /-- rounding mode where the instruction names none (R45) -/
  rmode : BitVec 3
  /-- s source read at issue, its bits [31:0] in cell 0 -/
  ss : Alts Cells
  /-- popped entry of LDQ-V -/
  pop : Option (Alts Cells)
  /-- Philox key and counter read at issue (R78, R190) -/
  key : BitVec 64
  ctr : BitVec 128
  /-- operands read slice by slice where cells move between slices: key 64 * operand + slice -/
  gath : Tab VAlts
  /-- the sources of every slice have been gathered -/
  full : Bool
  deriving DecidableEq, Repr

/-- A value that lands at the end of a given tick (R173, R233, R270). -/
inductive LandVal
  | s (a : Alts Word)
  | v (a : Alts Cells)
  /-- `xlat` of a virtual address into h[hn]; `bad` once an invalidation crossed it (R323) -/
  | xlat (hn : HReg) (va : Src Word) (start : Nat) (bad : Bool) (gen : BitVec 16)
  /-- `pcread` before its sample (R270): event, operation, members for each alternative of s[A], tick
  of the sample -/
  | pcread (ev : BitVec 9) (op : BitVec 2) (sites : Alts (List Nat)) (sample : Nat)
  /-- the value of a flag, read at its home (R240) -/
  | flag (k : FlagKey)
  /-- the answer of an `atom`, `cas` or `barj` that has performed at its home (R222, R463) -/
  | answer (a : Alts Word)
  /-- the fold or cell that a wavefront of this number gathers for an s register (R173) -/
  | wave (seq : Nat)
  deriving DecidableEq, Repr

/-- A timed landing: token, the tick at whose end it lands, the value. -/
structure Land where
  tok : Nat
  due : Nat
  val : LandVal
  /-- literal of its instruction's qualifier, and the outcomes since its issue (R155, R156) -/
  lit : Option Lit
  out : List Lit
  q : Queue
  addr : Nat
  deriving DecidableEq, Repr

/-- Source of an open guard slot (R151). -/
inductive QSrc
  | prog
  | reg (v : Src Word)
  | flag (dev : Bool) (n : Nat) (target : BitVec 32)
  deriving DecidableEq, Repr

/-- A guard slot: its source while open, its kept outcome (R40, R153), and an outcome already decided
that takes effect at the end of the tick (R152). -/
structure Slot where
  src : Option QSrc
  kept : Bool
  due : Option Bool
  deriving DecidableEq, Repr

/-- Where in loops and records an instruction stands: loop id, iteration, stage predicates (R328). -/
structure LoopTag where
  loop : BitVec 16
  iter : BitVec 32
  stagep : BitVec 8
  deriving DecidableEq, Repr

/-- Happens-before clocks: the model's own record of R293, used only to decide R279. -/
abbrev Clock := Tab Nat

/-- A wait being timed for the wait log (R418): waiter, flag, owner, first tick. -/
structure WaitTimer where
  waiter : BitVec 16
  flag : BitVec 16
  owner : BitVec 16
  first : Nat
  deriving DecidableEq, Repr

/-- A captured instruction: an entry of L's queues, of the held-store buffer or of a stream (R160,
R219, R245). -/
structure Cap where
  ins : Instr
  q : Queue
  addr : Nat
  /-- order of capture within the member -/
  seq : Nat
  ss : List (Src Word)
  vs : List (Src Cells)
  msk : BitVec 1024
  hs : List (HReg × HSrc)
  lit : Option Lit
  /-- outcomes of the slots that resolved since its capture -/
  out : List Lit
  /-- token its destination register waits for -/
  tok : Option Nat
  tag : LoopTag
  /-- tick of its capture -/
  tick : Nat
  /-- start stamp slipped or decided (R248) -/
  slipped : Bool
  /-- the start stamp's value was known in an earlier tick (R248) -/
  known : Bool
  /-- consume tokens already taken (R247) -/
  taken : Nat
  /-- the wait on the token that holds it, for the wait log (R418) -/
  since : Option WaitTimer
  /-- what happens before its capture (R284, R293) -/
  clk : Clock
  deriving DecidableEq, Repr

/-- An operand pairing of an entry with its number (R219). -/
structure Pairing where
  no : Nat
  ss : List Word
  vs : List Cells
  deriving DecidableEq, Repr

/-- An entry of L's queues (R219): what was captured; once it has begun, its operand pairings with their
numbers, the pieces still to perform (pairStride * pairing + piece), the bytes a load has read so far (key
pairStride * pairing + place), the pieces whose requests are outside the module, and the class of each
pairing that became poison. -/
structure LEnt where
  cap : Cap
  begun : Bool
  pairs : Alts Pairing
  left : List Nat
  buf : Mem
  req : List Nat
  bad : List (Nat × BitVec 4)
  deriving DecidableEq, Repr

/-- An entry group of a load data queue: one per load or pin, with an alternative per pairing (R165). -/
abbrev Group (α : Type) := Alts α

/-- A small access of an engine at a physical address; `va` is what a fault of it records: a read of
what the command works by, a write, or the copy of one chunk. -/
inductive MicroOp
  | read (pa va n : Nat)
  | write (pa va : Nat) (b : List Byte)
  | move (src dst va : Nat)
  deriving DecidableEq, Repr

/-- A command in flight (R246): index, entry within its chain segment, captured operands once they
are plain, chunks read and still to write, phase and working values; the small accesses still to make
and what those that read have found, by physical address. -/
structure Fly where
  cap : Cap
  idx : BitVec 32
  entry : Nat
  fromChain : Bool
  regs : List Word
  hs : List (HReg × BitVec 128)
  wr : List (Nat × List Byte)
  ops : List MicroOp
  got : Mem
  ph : Nat
  aux : List Nat
  /-- kind, detail, faulting virtual address -/
  fail : Option (Kind × Nat × Nat)
  /-- pieces whose requests are outside the module -/
  req : List Nat
  /-- pages translated at its start: virtual page number and physical address (R259) -/
  pages : List (Nat × Nat)
  /-- the command's own agent number (R287, R293) -/
  agent : Nat
  /-- small accesses it had still to make when it failed -/
  undone : Nat
  deriving DecidableEq, Repr

/-- A running chain of a stream (R252, R413). -/
structure Chain where
  next : Nat
  argt : Nat
  kidx : BitVec 32
  entry : Nat
  hs : List (HReg × BitVec 128)
  /-- the entry fetched and not yet started -/
  cur : Option Cap
  deriving DecidableEq, Repr

/-- One engine stream of a member (R246). -/
structure Stream where
  queue : List Cap
  idx : BitVec 32
  fly : List Fly
  chain : Option Chain
  /-- the newest kick's chain is open (R253) -/
  open_ : Bool
  /-- pending continuations, oldest first, each with the number of kicks that stand in the queue up to the one whose
  chain it goes on: 0 for the running chain (R253) -/
  conts : List (Nat × Word)
  /-- the failed command at which the stream stopped (R250) -/
  stopped : Option Fly
  /-- an interrupt request held because the list is full (R272) -/
  heldUi : List (BitVec 64)
  deriving DecidableEq, Repr

/-- An active hardware-loop level (R140, R144): body lines, iteration index, iterations left (none
until the loop instruction has issued), and the step of the index (R143). -/
structure Level where
  lc : Fin 8
  kind : Nat
  first : Nat
  last : Nat
  iter : Nat
  left : Option Nat
  stride : Nat
  /-- started inside a kernel iteration of the running record (R149) -/
  inner : Bool
  deriving DecidableEq, Repr

/-- Phase of a running record (R146); `save` and `restore` are its SAVE and RESTORE blocks (R412,
R414). -/
inductive RecPhase
  | pro | ker | epi | save | restore
  deriving DecidableEq, Repr

/-- A running loop record (R146, R147, R149). -/
structure RecRun where
  id : BitVec 16
  phase : RecPhase
  j : Nat
  n : Nat
  stages : Nat
  longest : Nat
  yieldint : Nat
  pro : Nat × Nat
  ker : Nat × Nat
  epi : Nat × Nat
  save : Nat × Nat
  restore : Nat × Nat
  /-- cycle 0 of the phase or kernel iteration -/
  zero : Nat
  /-- line after the `lrec` -/
  ret : Nat
  level : Fin 8
  kind : Nat
  /-- a `yield` issued in this iteration (R267) -/
  yieldAsked : Bool
  /-- greatest issue plus occupancy among the lockstep lanes of the phase so far (R146) -/
  fin : Nat
  /-- fetch fell through the last line of the iteration with a loop of its own still active (R149) -/
  loopBad : Bool
  deriving DecidableEq, Repr

/-- A lane fetched and not yet issued (R20): what it decodes to, its address, the first cycle in which
its line is present, and the loops and record of its line. -/
structure QLane where
  q : Queue
  ins : Option Instr
  /-- the rule its encoding breaks, when it is no instruction -/
  bad : Option Reject
  addr : Nat
  pres : Nat
  stack : List Level
  rcd : Option RecRun
  /-- number of its line in the order of fetch -/
  inst : Nat
  /-- the line a line-format fault of this lane names (R111) -/
  faddr : Nat
  /-- its idle count, lane bits [31:28] (R19) -/
  idle : Nat
  /-- it stands for the fetch of a line outside TEXT (R137) -/
  out : Bool
  deriving DecidableEq, Repr

/-- What fetch holds (R20, R106, R136): the next line, when it is present, the lanes in order, the
loop stack and record at the fetch point, and why it waits. -/
structure Fetch where
  pc : Nat
  pres : Nat
  lanes : List QLane
  stack : List Level
  rcd : Option RecRun
  /-- the line fetched last, whose fall-through is still to be decided -/
  line : Option Nat
  /-- no line follows: a `halt`, `lrec` or the end of TEXT was fetched -/
  stop : Bool
  /-- a transfer that must land on a block (R110) -/
  needBlk : Bool
  /-- lines fetched so far -/
  count : Nat
  /-- a faulty line without instructions that a later lane raises (R111) -/
  fmt : Option Nat
  /-- phases of the running record from the one in progress to the one being fetched, each before its
  boundary; only the first has its cycle 0 (R146) -/
  steps : List RecRun
  /-- of the latest line a lockstep lane has issued from: its number, and the greatest issue plus occupancy of
  its lanes (R137) -/
  tail : Nat × Nat
  deriving DecidableEq, Repr

/-- Why a member is stopped by a breakpoint or the debugger (R269, R425). -/
inductive DbgState
  | run
  | asked (reason : BitVec 4) (code : BitVec 16)
  | stopped (reason : BitVec 4)
  | stepping
  deriving DecidableEq, Repr

/-- Where a member is in its life (R266, R344, R407 to R414). -/
inductive Life
  | free | loading | loaded | running | parking | parked | saving | saved | restoring | halted | retired
  deriving DecidableEq, Repr

/-- A flag's last update in the home's order, for SETTER (R419): flag key, tick, setter, source
module. -/
structure LastSet where
  setter : BitVec 16
  smod : BitVec 16
  deriving DecidableEq, Repr

/-- A wait that has ended and whose wait-log record is still to be written (R418): its site, the record's fields, and
the loop and record of the waiter. -/
structure WaitEnd where
  site : Nat
  timer : WaitTimer
  set : LastSet
  tag : LoopTag
  last : Nat
  deriving DecidableEq, Repr

/-- The update that satisfied a flag wait: the value and the last setter of its tick, the tick, and what the releases up
to that tick make known (R241, R242, R292, R419). -/
structure Met where
  val : Word32
  set : LastSet
  tick : Nat
  clk : Clock
  deriving DecidableEq, Repr

/-- Two writes of mixed size that no order joins, each by its agent and its number, and the bytes that they leave undefined
until a write that happens after both (R279). -/
structure Race where
  one : Nat × Nat
  two : Nat × Nat
  start : Nat
  size : Nat
  deriving DecidableEq, Repr

/-- An access kept for the mixed-size rules (R279, R280). -/
structure AccRec where
  agent : Nat
  /-- the agent in the layout of SRC (R328) -/
  src : BitVec 16
  launch : Word32
  start : Nat
  size : Nat
  write : Bool
  stamp : Nat
  tick : Nat
  /-- start and size of the access it is part of: a row piece whose cells are masked in part writes runs of bytes (R278) -/
  unit : Nat × Nat
  /-- the writes that it races -/
  races : List Race
  deriving DecidableEq, Repr

/-- Context descriptor (R316). -/
structure Ctx where
  func : BitVec 7
  key : BitVec 11
  gen : BitVec 16
  root : BitVec 30
  v : Bool
  deriving DecidableEq, Repr

/-- Quota table entry (R309). -/
structure Quota where
  pinq : BitVec 16
  bsize : BitVec 16
  rate : BitVec 16
  prio : BitVec 3
  deriving DecidableEq, Repr

/-- Metering state of one slice port (R310): buckets in sixteenths by context, spare pool, contexts
waiting with the cost they wait for and the member that asks, the borrower served last. -/
structure Port where
  bucket : Tab (Option Nat)
  pool : Nat
  waiting : List (Nat × Nat × Option Nat)
  last : Nat
  deriving DecidableEq, Repr

/-- Pins of one context and launch on a line (R306, R232). -/
structure Pin where
  ctx : Nat
  launch : Word32
  count : Nat
  deriving DecidableEq, Repr

/-- A tag of an L2 set (R303), oldest first in its set. -/
structure Tag where
  tag : BitVec 15
  zero : Bool
  valid : BitVec 4
  dirty : BitVec 4
  /-- it holds a data way -/
  way : Bool
  pins : List Pin
  deriving DecidableEq, Repr

/-- A ring of fault records (R329). -/
structure Ring where
  logn : BitVec 6
  head : BitVec 32
  tail : BitVec 32
  base : BitVec 34
  vec : BitVec 9
  ovf : Bool
  ien : Bool
  en : Bool
  deriving DecidableEq, Repr

/-- A fault record (R328). -/
structure FaultRec where
  ctx : BitVec 12
  func : BitVec 16
  launch : Word32
  src : BitVec 16
  cause : BitVec 8
  deferred : Bool
  replay : Bool
  status : Word32
  index : Word32
  loop : BitVec 16
  stagep : BitVec 8
  addr : BitVec 64
  deriving DecidableEq, Repr

/-- Work-queue descriptor (R333), with the tail last accepted (R334, R402) and the raises of its head
launch (R338). -/
structure WorkQueue where
  tailf : BitVec 12
  head : BitVec 32
  func : BitVec 7
  prio : BitVec 3
  base : BitVec 34
  logn : BitVec 5
  en : Bool
  tail : BitVec 32
  raised : Nat
  /-- tick since which its head record waits, in the class it has been raised to -/
  since : Option Nat
  /-- tails of the records that the firmware has not taken, oldest first, with the ticks they were accepted in -/
  came : List (BitVec 32 × Nat)
  deriving DecidableEq, Repr

/-- Bind record (R342). -/
structure Bind where
  launch : Word32
  ctx : BitVec 12
  qidx : BitVec 8
  mode : BitVec 8
  t0 : BitVec 64
  deadline : BitVec 64
  image : BitVec 64
  ltab : BitVec 64
  args : BitVec 64
  origin : BitVec 16
  shape : BitVec 16
  lpos : BitVec 16
  nargs : BitVec 16
  sleep : BitVec 32
  nflag : BitVec 16
  state : BitVec 8
  deriving DecidableEq, Repr

/-- A member's place in a bound graph: firings done since BASE (R364), and firings of an interrupted period
still to run unstamped (R368). -/
structure Place where
  stage : Nat
  core : Nat
  fired : Nat
  behind : Nat
  deriving DecidableEq, Repr

/-- What a save area has no field for, kept with a saved launch for one of its members: the line after the
`lrec` of its record; the lanes still to issue of a member held before a stage `lrec`; the steps of its
hardware loops, outermost first; its place in a graph; the commands its streams
hold running (a `kick`) or stopped at, their chains, and their held interrupt requests; and a stop of the
debugger that is still to be taken (R407).
DESIGN CHOICE (log 73), unsafe. -/
structure Kept where
  member : Nat
  ret : Nat
  before : List Nat
  strides : List Nat
  place : Option Place
  flies : List (Fin 4 × Fly)
  chains : List (Fin 4 × Chain)
  /-- whose chain each pending continuation goes on (R253) -/
  depths : List (Fin 4 × List Nat)
  heldUi : List (Fin 4 × List (BitVec 64))
  retired : Bool
  dbg : DbgState
  /-- what its member had done and knew (R293) -/
  clk : Clock
  deriving DecidableEq, Repr

/-- State of a launch the firmware has taken (R335 to R348). -/
inductive LaunchState
  | armed | bound | running | saving | saved | ended
  deriving DecidableEq, Repr

/-- A launch the firmware has taken. -/
structure Launch where
  id : Word32
  /-- the firmware's estimate of its draw (R436) -/
  watts : Nat
  queue : Nat
  ctx : BitVec 12
  func : BitVec 7
  graph : Bool
  mode : BitVec 8
  imgVA : BitVec 64
  doneVA : BitVec 64
  watchdog : Nat
  /-- sub-array idle time of the record (R335, R342) -/
  sleep : Nat
  barrierVA : BitVec 64
  bars : List Nat
  sites : List Nat
  /-- logical coordinates of the members, row * 16 + col -/
  coords : List Nat
  rows : Nat
  cols : Nat
  state : LaunchState
  t0 : Nat
  deadline : Nat
  status : BitVec 8
  cause : BitVec 8
  endTick : Nat
  /-- the completion word is still to be written -/
  owed : Bool
  /-- order in which launches were bound -/
  order : Nat
  /-- a pre-emption request reached it in this tick (R407) -/
  preempt : Option Nat
  /-- TS, and the tick DONE was set (R409, R415) -/
  ts : Option Nat
  te : Option Nat
  kept : List Kept
  /-- save areas of its members while it is saved -/
  areas : List Nat
  /-- what its members had done and knew at its end (R293, R337) -/
  clk : Clock
  /-- events its members counted in the binds that are over, for the profile session (R426) -/
  counts : Tab Nat
  deriving DecidableEq, Repr

/-- A relocated copy of an image that is kept (R340): context and virtual address of the image, the sites of the
placement, where the copy stands, and its bytes. -/
structure ImageCopy where
  ctx : Nat
  va : Nat
  sites : List Nat
  pa : Nat
  size : Nat
  deriving DecidableEq, Repr

/-- A barrier object (R242, R349, R350). -/
structure Barrier where
  expected : Nat
  exp0 : Nat
  nreg : Nat
  regs : Nat
  /-- participants by site -/
  parts : List Nat
  /-- participants that have arrived in the current phase -/
  arrived : List Nat
  /-- falls of the expected count that wait for the phase to complete -/
  falls : Nat
  deriving DecidableEq, Repr

/-- One firing of an Almanac (R356, R357, R362). -/
structure Firing where
  stage : Nat
  core : Nat
  rep : Nat
  offset : Nat
  in0 : Nat
  in1 : Nat
  out0 : Nat
  out1 : Nat
  deriving DecidableEq, Repr

/-- An edge of a bound graph (R354, R358, R359). -/
structure Edge where
  from_ : Nat
  dest : Nat
  prod : Nat
  cons : Nat
  bytes : Nat
  init : Nat
  slots : Nat
  l2 : Bool
  base : Nat
  die : Nat
  deriving DecidableEq, Repr

/-- A stage of a bound graph (R354). -/
structure Stage where
  rcd : BitVec 16
  fl : Nat
  /-- logical sites, row * 16 + col -/
  cores : List Nat
  q : Nat
  deriving DecidableEq, Repr

/-- One Almanac buffer of Equinox (R362). -/
structure Almanac where
  stages : List Stage
  edges : List Edge
  firings : List Firing
  period : Nat
  deriving DecidableEq, Repr

/-- The graph bound to Equinox (R355 to R368). -/
structure Graph where
  launch : Word32
  alm : Almanac
  /-- a rebind solved into the inactive buffer, with the tick before which it may not switch (R367) -/
  next : Option (Almanac × Nat)
  base : Nat
  /-- number of the period that begins at BASE, for record positions (R360, R368) -/
  n0 : Nat
  gen : Nat
  /-- argument word 0: the ring area and its size (R361) -/
  areaWord : BitVec 64
  deriving DecidableEq, Repr

/-- A lookup-profile instruction on its way (R382): rows or bytes read so far, the part of the row being
read, the bytes of it written, and its request outside the module with the answer. -/
structure LkWork where
  /-- the handle as it was at the instruction's issue -/
  h : BitVec 128
  rows : List (List Byte)
  part : List Byte
  put : Nat
  tag : Option Nat
  ans : Option (List Byte)
  deriving DecidableEq, Repr

/-- A flag update of a lookup core on its way to its home (R382): its flag and value, and what it releases. -/
structure LkPost where
  ins : Instr
  key : FlagKey
  val : Word32
  clk : Clock
  deriving DecidableEq, Repr

/-- A lookup core (R379, R380, R382). -/
structure Lookup where
  run : Bool
  site : Nat
  launch : Word32
  idx : BitVec 32
  s : Tab Word
  /-- registers pending on a device flag: token + 1, 0 for none -/
  sp : Tab Nat
  fly : List SWrite
  /-- values of device flags still to land (R382) -/
  lands : List Land
  h : Tab (BitVec 128)
  fetch : Fetch
  ref : Nat
  cyc : Nat
  il : List Word32
  ga : List (List Byte)
  grl : Nat
  ot : List Byte
  /-- row cache, least recently used first: handle, page offset, bytes -/
  cache : List (Nat × Nat × List Byte)
  /-- it halted at a replayable fault (R389) -/
  halted : Bool
  /-- what it stalls for -/
  hold : Option Hold
  /-- what satisfied the flag wait it stalls for -/
  met : Option Met
  /-- tick until which `align` holds it (R243) -/
  alignTo : Option Nat
  /-- an `fwait` being timed for the wait log -/
  wait : Option WaitTimer
  /-- writes that are not yet performed -/
  ended : Option (BitVec 8)
  seq : Nat
  work : Option LkWork
  /-- an `lsend` that has issued: site and slot its tile still waits for (R387) -/
  send : Option (Nat × Nat)
  /-- flag updates that have issued and not yet reached their homes, oldest first (R382, R463) -/
  posts : List LkPost
  deriving DecidableEq, Repr

/-- What sent a request outside the module. -/
inductive Requester
  | l (site : Nat)
  | eng (site : Nat) (e : Fin 4)
  | lookup (n : Nat)
  | device (func : Nat)
  deriving DecidableEq, Repr

/-- A request outstanding toward the host or a peer (R275, R289, R392, R401). -/
structure OutReq where
  tag : Nat
  who : Requester
  seq : Nat
  piece : Nat
  host : Bool
  write : Bool
  atomic : Bool
  /-- a flushing read of the PCIe interface (R289) -/
  flush : Bool
  pa : BitVec 46
  /-- bytes asked for or written -/
  n : Nat
  /-- bytes of a write; operand and new value of an atomic -/
  data : List Byte
  /-- operation of an atomic (R229), 9 for a `cas` -/
  op : Nat
  port : Nat
  /-- virtual address, and loop and record of the instruction, for a fault of a write that was let go (R393) -/
  va : Nat
  lt : LoopTag
  /-- launch of the requester; an answer that comes after its end is dropped -/
  launch : Word32
  /-- who made it, and the number of its access (R291, R293) -/
  agent : Nat
  stamp : Nat
  /-- destination module of a collective chunk (R391, R394) -/
  dmod : Nat
  /-- function whose requester ID a request to the host carries (R401) -/
  func : Nat
  deriving DecidableEq, Repr

/-- An invalidation request in progress (R322 to R324). -/
structure Inval where
  ctx : Nat
  va : BitVec 38
  count : BitVec 24
  tick : Nat
  /-- an `xlat` whose token is below this one was issued before it (R324) -/
  mark : Nat
  deriving DecidableEq, Repr

/-- A service request posted by `svc` (R265). -/
structure SvcReq where
  id : Nat
  site : Nat
  /-- posted by the lookup program the site kicked -/
  lookup : Option Nat
  code : BitVec 16
  args : List Word
  ctx : BitVec 12
  launch : Word32
  /-- address of the `svc`, and its loop and record -/
  addr : Nat
  lt : LoopTag
  /-- its pages are changed and their invalidation has begun -/
  begun : Bool
  deriving DecidableEq, Repr

/-- A page migration in progress (R331). -/
structure Mig where
  ctx : Nat
  va : BitVec 54
  leafPA : Nat
  leaf : BitVec 64
  dst : Nat
  /-- bytes of the page -/
  size : Nat
  copied : Bool
  failed : Bool
  /-- the new leaf stands, and the second invalidation is not over -/
  ending : Bool
  deriving DecidableEq, Repr

/-- A replayable fault posted and not yet serviced (R325, R164, R389). -/
structure Replay where
  site : Nat
  src : FaultSrc
  /-- capture number of the entry of L, index of the command -/
  seq : Nat
  va : BitVec 64
  deriving DecidableEq, Repr

/-- A site's trace stream (R421 to R424): tick of the record before, whether one was written since the
bind, and whether records were lost. -/
structure TraceSt where
  last : Nat
  begun : Bool
  lost : Bool
  /-- a sample was written in this tick (R423) -/
  sampled : Bool
  deriving DecidableEq, Repr

/-- An entry of the wait-log or trace table (R417, R421). -/
structure LogRing where
  base : BitVec 34
  en : Bool
  logn : BitVec 6
  deriving DecidableEq, Repr

/-- A function's profile session (R426): the context and the virtual address of its table. -/
structure ProfTable where
  ctx : Nat
  va : Nat
  deriving DecidableEq, Repr

/-- A tenant's state saved by a switch (R351): heads of its queues, its device flags and its barrier objects. -/
structure TenantSave where
  heads : Tab Nat
  flags : Tab Word32
  bars : Tab (Option Barrier)
  deriving DecidableEq, Repr

/-- A 32-byte piece of a collective at this module: the launch, its tag and occurrence (R397), the rank it
comes from (for a partial value, the last rank it holds), its place in the block, whether it is a finished
value, and the bytes. -/
structure CollIn where
  launch : Word32
  tag : Word32
  nth : Nat
  rank : Nat
  piece : Nat
  final : Bool
  data : List Byte
  /-- KIND, RED, FMT and LN of its sender's `coll` (R397); a sender with no piece to give says so by an entry without
  bytes -/
  form : List Nat
  deriving DecidableEq, Repr

/-- What the device answers to the host: the function, the bytes, and whether the request was supported and
its data sound (R314, R401, R402). -/
structure HostReply where
  func : Nat
  data : List Byte
  ok : Bool
  poisoned : Bool
  deriving DecidableEq, Repr

/-- The agent that issues an instruction: a member's group, its handler, or a lookup core. -/
inductive Who
  | mem (site : Nat)
  | hnd (site : Nat)
  | lk (n : Nat)
  deriving DecidableEq, Repr

/-- A lane at its issue. -/
structure Lane where
  who : Who
  q : Queue
  ln : QLane
  deriving DecidableEq, Repr

/-- A terminal fault an instruction raises (R47): its kind, the status word its rule names, the
faulting address of an access, whether it was deferred, and the alternative. -/
structure Trap where
  kind : Kind
  status : Nat
  va : Option Nat
  deferred : Bool
  alt : Nat
  deriving DecidableEq, Repr

/-- A fault raised by a lane of a group cycle, to be taken once the lanes of the other columns have issued and what
issued earlier has completed (R111, R116): SRC (R328), queue code, address, index, loop and record. -/
structure Raised where
  src : BitVec 16
  q : Nat
  addr : Nat
  index : Nat
  tag : LoopTag
  trap : Trap
  /-- the tick in which it was raised -/
  tick : Nat
  deriving DecidableEq, Repr

/-- Why an instruction does not act in this tick. -/
inductive Stop
  | wait (h : Hold)
  /-- L stalls its own queue, and the group goes on (R160, R233) -/
  | stall
  | trap (t : Trap)
  deriving DecidableEq, Repr

end Sys2Proof.Machine
end

