-- ==== Sys2Proof/Machine/State.lean ====
section
/-! DEFINITION. The state of the module, all of it plain data, and its value after reset. Every table
reads as its reset value where nothing is listed. -/

namespace Sys2Proof.Machine

open Sys2Proof

/-- Registers of a member (R30, R31). -/
structure Regs where
  s : Tab SCell
  /-- shadows of s56 to s63, key 0 to 7 -/
  shadow : Tab Word
  /-- token + 1 a shadow waits for, 0 for none -/
  shp : Tab Nat
  /-- v registers slice by slice, key 64 * register + slice -/
  v : Tab VAlts
  /-- token + 1 a v register waits for, 0 for none -/
  vp : Tab Nat
  /-- k registers slice by slice, bit row of key 64 * register + slice -/
  k : Tab (BitVec 16)
  a : Tab (BitVec 256)
  h : Tab (BitVec 128)
  /-- token + 1 a handle register waits for -/
  hp : Tab Nat
  deriving DecidableEq, Repr

/-- Results in flight of a member (R21, R25, R26). -/
structure InFlight where
  sw : List SWrite
  slw : List SliceWrite
  waves : List Wave
  lands : List Land
  /-- routing-counter additions of `rtcnt`: the group cycle at whose end they are performed, the
  values counted (R187) -/
  rtc : List (Nat × List Nat)
  /-- special registers written in this group cycle: number and value, taking effect at its end (R268) -/
  spr : List (Nat × Word)
  /-- s registers that a value landed in during this tick, each with the queue code and the address of its
  instruction (R16, R222) -/
  landed : List (SReg × Nat × Nat)
  /-- slices of pending v registers written in this tick: register, slice, queue code, address (R16) -/
  landedV : List (VReg × Nat × Nat × Nat)
  /-- a value that landed for a token met a write of another column: the addresses of the write that stands and of the
  one that is lost (R16, R222) -/
  clash : Option (Nat × Nat)
  deriving DecidableEq, Repr

/-- Guard slots and the held-store buffer (R40, R160). -/
structure Guards where
  slots : Tab Slot
  held : List Cap
  /-- greatest breadth reached since T0 -/
  breadth : Nat
  deriving DecidableEq, Repr

/-- The access column (R219 to R222, R325). -/
structure LCol where
  lq : List LEnt
  sq : List LEnt
  ldqV : List (Group Cells)
  ldqC : List (Group Word)
  /-- bindings to entries still to come, oldest first, each with its token and the address of its move (R50) -/
  bindV : List (Nat × Nat)
  bindC : List (Nat × Nat)
  /-- capture order of what delivers to LDQ-C and has not yet delivered (R232) -/
  ordC : List Nat
  /-- capture numbers of the entries at which a queue halted on a replayable fault (R325) -/
  halts : List Nat
  /-- recorded accesses of poisons that survived, true once serviced (R164) -/
  defer : List (LEnt × Bool)
  /-- handles an `hrel` clears once their `xlat` has landed (R234) -/
  hrel : List HReg
  deriving DecidableEq, Repr

/-- A sub-array of the matrix array (R202, R207). -/
structure SubArray where
  asleep : Bool
  /-- tick at which its wake completes -/
  waking : Option Nat
  /-- first group cycle in which it is no longer busy with an `mmacb` -/
  busy : Nat
  /-- group cycle from which its idle count runs -/
  idle : Nat
  deriving DecidableEq, Repr

/-- An M instruction within its occupancy (R199, R286): what it needs to be evaluated again when a
write reaches its operands meanwhile. -/
structure MatOp where
  ins : Instr
  addr : Nat
  start : Nat
  /-- last group cycle of its occupancy -/
  stop : Nat
  fa : BitVec 256
  fb : BitVec 256
  /-- WB and AB as its reads find them -/
  wb : Mem
  ab : Mem
  /-- rows of the page it reads, as numbers, and the valid bits of its slots (R213) -/
  page : List Nat
  valid : BitVec 64
  scale : Word32
  /-- tile slots to set empty at its end: buffer, slot -/
  rels : List (Nat × Nat)
  deriving DecidableEq, Repr

/-- The matrix column (R191, R192, R200, R209). -/
structure Mat where
  /-- accumulator tiles 0 to 3, key 128 * i + j (32 * i + j in FP64 mode), zero where not listed -/
  acc : List (Tab Word)
  /-- tags: CB tile + 1, 0 for invalid -/
  tags : Tab Nat
  rm : BitVec 3
  f64 : Bool
  sub : Tab SubArray
  ops : List MatOp
  /-- CB writes in flight: the group cycle at whose end they are performed, the bytes -/
  cbw : List (Nat × List Host.Cell)
  deriving DecidableEq, Repr

/-- Typed buffers, tile slots and own flags (R41, R43, R298). -/
structure Bufs where
  wb : Mem
  ab : Mem
  cb : Mem
  wbFull : Tab Bool
  abFull : Tab Bool
  /-- poisoned chunks: 2^17 * buffer + chunk, buffers 0 WB, 1 AB, 2 CB -/
  bad : Tab Bool
  flags : Tab Word32
  armed : Tab Bool
  /-- lines `tfetch` pinned, by destination slot: 2^12 * buffer + slot; physical address + 2^38 * number of the
  command (R257) -/
  tfPins : List (Nat × Nat)
  /-- place in the order of R300 of the last agent that reached a chunk in this tick: 1 L's writes, 2 M,
  3 the loader, 4 the storer, 5 collectives, 6 lookup cores, 7 remote stores; keys as for `bad` -/
  order : Tab Nat
  /-- tile slots set full or empty in this tick: 4096 * buffer + slot -/
  turned : List Nat
  /-- bytes of CB as they stood at the end of the last group cycle, where L has stored since (R201) -/
  cbWas : Tab (Option Byte)
  /-- whether the chunks of CB written in this group cycle were poisoned before it (R201, R313) -/
  cbBadWas : Tab (Option Bool)
  deriving DecidableEq, Repr

/-- User-level interrupts (R272, R273). -/
structure Ui where
  reqs : List (BitVec 64)
  active : Bool
  /-- what its next instruction waits for -/
  hold : Option Hold
  /-- tick until which `align` holds it -/
  alignTo : Option Nat
  fetch : Fetch
  ref : Nat
  cyc : Nat
  count : Nat
  fly : List SWrite
  /-- `uiret` has issued in this tick -/
  leaving : Bool
  deriving DecidableEq, Repr

/-- Special registers that hold state of their own (R45). -/
structure Sprs where
  rmode : BitVec 3
  uien : Bool
  oflow : Bool
  slip : Bool
  uflow : Bool
  coll : Bool
  chkRaw : Bool
  chkColl : Bool
  cause : Word
  faultVa : Word
  faultInfo : Word
  rngKey : BitVec 64
  rngCtr : BitVec 128
  uiVector : Word
  uiCause : Word
  perfSel : BitVec 9
  traceCtl : BitVec 16
  deriving DecidableEq, Repr

/-- Sequencing of a member (R18 to R22, R269, R344, R407). -/
structure Ctl where
  life : Life
  /-- GROUP_CYCLE -/
  gc : Nat
  /-- the group cycle as the program counts it runs from here: GROUP_CYCLE less this is added to the
  saved value after a restore (R414) -/
  gcBias : Nat
  /-- reference points by queue code (R19) -/
  refs : Tab Nat
  /-- reference points raised by `idle` forms in this group cycle: queue code, point, place of the form in the order
  of fetch; they hold for lanes after it at once and for every lane from the end of the tick (R90, R244) -/
  raised : List (Nat × Nat × Nat)
  fetch : Fetch
  /-- what the asserted freeze line waits for (R22) -/
  frz : Option Hold
  /-- what satisfied the flag wait it is frozen by (R241, R419) -/
  met : Option Met
  /-- tick until which `align` holds the group (R243) -/
  alignTo : Option Nat
  /-- the M instruction at its issue met its stamp and slipped (R204) -/
  slipped : Bool
  /-- the landing of this group cycle is done in this tick -/
  fin : Bool
  /-- the lowest-numbered cause active in this tick, once it has been looked for (R22) -/
  low : Option Nat
  /-- the fault a lane raised in this group cycle (R116) -/
  trap : Option Raised
  dbg : DbgState
  /-- a `halt` has issued in this group cycle (R266) -/
  halting : Bool
  /-- waits being timed for the wait log -/
  waits : List WaitTimer
  /-- yield point at which it parks or stopped: YIELDS position (R407, R412) -/
  yidx : Nat
  /-- addresses of the lanes still to issue of a member held before a stage `lrec` that parks (R368) -/
  ybefore : List Nat
  /-- record at the yield point, for the save -/
  yrec : Option RecRun
  /-- capture counter -/
  seq : Nat
  perf : Tab Nat
  /-- sub-array idle time before gating (R202) -/
  sleep : Nat
  /-- group cycle in which the hardware stream of a save began, its pieces of 512 bytes, and the next (R412) -/
  saveAt : Option Nat
  saveN : Nat
  savePos : Nat
  deriving DecidableEq, Repr

/-- A member: one core site and what the launch bound to it holds. -/
structure Member where
  regs : Regs
  fly : InFlight
  grd : Guards
  l : LCol
  mat : Mat
  buf : Bufs
  eng : Tab Stream
  ui : Ui
  spr : Sprs
  ctl : Ctl
  place : Option Place
  deriving DecidableEq, Repr

/-- s register at T0 (R30). -/
def SCell.zero : SCell := { alts := [(0, .val 0)], pend := none }

/-- A vector register's slice at T0 (R30). -/
def VAlts.zero : VAlts := { alts := [(0, .val [])] }

/-- A guard slot at T0: free, outcome false (R40, R153). -/
def Slot.free : Slot := { src := none, kept := false, due := none }

/-- Fetch state with nothing fetched. -/
def Fetch.none : Fetch :=
  { pc := 0, pres := 0, lanes := [], stack := [], rcd := Option.none, line := Option.none, stop := true,
    needBlk := false, count := 0, fmt := Option.none, steps := [], tail := (0, 0) }

/-- A stream at T0 (R246). -/
def Stream.t0 : Stream :=
  { queue := [], idx := 0, fly := [], chain := none, open_ := false, conts := [], stopped := none,
    heldUi := [] }

/-- A sub-array at T0 of a launch with gating (R202). -/
def SubArray.t0 : SubArray := { asleep := true, waking := none, busy := 0, idle := 0 }

/-- A site with nothing bound: every item at its T0 value (R30, R51). -/
def Member.free : Member :=
  { regs := { s := [], shadow := [], shp := [], v := [], vp := [], k := [], a := [], h := [], hp := [] }
    fly := { sw := [], slw := [], waves := [], lands := [], rtc := [], spr := [], landed := [], landedV := [], clash := none }
    grd := { slots := [], held := [], breadth := 0 }
    l := { lq := [], sq := [], ldqV := [], ldqC := [], bindV := [], bindC := [], ordC := [],
           halts := [], defer := [], hrel := [] }
    mat := { acc := [[], [], [], []], tags := [], rm := 0, f64 := false, sub := [], ops := [],
             cbw := [] }
    buf := { wb := [], ab := [], cb := [], wbFull := [], abFull := [], bad := [], flags := [],
             armed := [], tfPins := [], order := [], turned := [], cbWas := [], cbBadWas := [] }
    eng := []
    ui := { reqs := [], active := false, hold := none, alignTo := none, fetch := Fetch.none, ref := 0, cyc := 0, count := 0, fly := [], leaving := false }
    spr := { rmode := 0, uien := false, oflow := false, slip := false, uflow := false, coll := false,
             chkRaw := false, chkColl := false, cause := 0, faultVa := 0, faultInfo := 0, rngKey := 0,
             rngCtr := 0, uiVector := 0, uiCause := 0, perfSel := 0, traceCtl := 0 }
    ctl := { life := .free, gc := 0, gcBias := 0, refs := [], raised := [], fetch := Fetch.none, frz := none, met := none,
             alignTo := none, slipped := false, fin := false, low := none, trap := none, dbg := .run, halting := false, waits := [], yidx := 0, ybefore := [],
             yrec := none, seq := 0, perf := [], sleep := 4096, saveAt := none, saveN := 0, savePos := 0 }
    place := none }

/-- Parts of one tick: work due at its start, the issue of the group cycle, the agents that run beside
the group, and what lands at its end. The model's own. -/
inductive Phase
  | start | issue | mid | fin
  deriving DecidableEq, Repr

/-- Who executes the instruction being run. The model's own. -/
inductive Cur
  | none
  | lane (site : Nat) (q : Queue) (addr : Nat)
  | handler (site : Nat) (addr : Nat)
  | lookup (n : Nat) (addr : Nat)
  | chain (site : Nat) (e : Fin 4)
  deriving DecidableEq, Repr

/-- One choice among what no rule orders, or an event from outside (R275, R463). The model's own. -/
inductive Pick
  /-- run an event, if it is enabled -/
  | ev (i : Instr)
  /-- issue the next lane of a queue of a member, if it is due -/
  | lane (site : Nat) (q : Queue)
  /-- issue the next lane of a handler or a lookup core -/
  | agent (a : Agent)
  /-- go on to the next part of the tick, leaving undone what may wait -/
  | pass
  /-- one step of the model's own order -/
  | auto
  deriving DecidableEq, Repr

/-- State of the module.
DESIGN CHOICE (log 3), safe. DESIGN CHOICE (log 130), safe. -/
structure State where
  /-- Calendar (R17) -/
  cal : Nat
  members : Tab Member
  lookups : Tab Lookup
  /-- device flags (R41) -/
  dflags : Tab Word32
  /-- device memory (R305) -/
  dmem : Mem
  /-- poisoned 32-byte sectors of device memory (R313) -/
  dbad : Tab Bool
  /-- key under which a sector was last written (R431, R432) -/
  dkey : Tab (Option (BitVec 512))
  /-- tags of each set, key 1024 * slice + set (R303) -/
  l2 : Tab (List Tag)
  ctxs : Tab Ctx
  quotas : Tab Quota
  /-- quota index of each context (R309) -/
  qidx : Tab Nat
  ports : Tab Port
  invCtl : BitVec 64
  invVa : BitVec 38
  inval : Option Inval
  /-- GOs made while a request runs, oldest first: context, first page, count (R322) -/
  invNext : List (Nat × BitVec 38 × BitVec 24)
  /-- rings: 0 replayable, 1 terminal, 1 + n that of VF n (R329) -/
  rings : Tab Ring
  /-- records waiting at the reporting port, by class (R330) -/
  recs : List FaultRec
  recsTerm : List FaultRec
  recsVf : List (Nat × FaultRec)
  /-- weights WREP, WTERM, WVF; records taken in this round; VF served last -/
  weights : Tab (BitVec 4)
  /-- the reporting port has written a record in this tick (R330) -/
  posted : Bool
  round : List Nat
  lastVf : Nat
  queues : Tab WorkQueue
  launches : List Launch
  /-- relocated copies that are kept (R340) -/
  copies : List ImageCopy
  /-- launches taken of each priority class in this round of the fairness policy (R338) -/
  wrr : Tab Nat
  slotTable : Tab Bind
  saveArea : Tab (BitVec 34)
  waitLog : Tab LogRing
  waitSeq : Tab Nat
  traceTab : Tab LogRing
  traceSt : Tab TraceSt
  /-- last setter of each flag: own 4096 * site + n, device 2^20 + n (R419) -/
  lastSet : Tab LastSet
  /-- of the tick in which each flag last rose from zero, its last setter and its number (R419) -/
  rose : Tab (LastSet × Nat)
  /-- waits that ended in this tick, whose wait-log records are written at its end (R418) -/
  waitPend : List WaitEnd
  dbgReason : Tab (BitVec 4)
  preemptCtl : BitVec 64
  bindGo : Word32
  killReg : Word32
  barriers : Tab (Option Barrier)
  graph : Option Graph
  tenant : Nat
  /-- tick at which the tenant's slice began (R351) -/
  sliceAt : Nat
  tenantSaves : Tab (Option TenantSave)
  /-- routing-counter banks, key 256 * die + e (R187) -/
  rtbank : Tab Word32
  moduleId : BitVec 16
  /-- aperture table: module and EN (R392) -/
  aperture : Tab (BitVec 17)
  grants : Tab Bool
  routes : Tab (BitVec 12)
  /-- links that are down (R390) -/
  linkDown : Tab Bool
  malformed : Nat
  outs : List OutReq
  /-- device writes dropped and requests stopped for a function under reset (R404) -/
  flr : List Nat
  /-- interrupt messages sent: function, vector (R329, R401) -/
  msix : List (Nat × Nat)
  /-- collective data received and not yet used (R397) -/
  collIn : List CollIn
  /-- coll commands started per site and tag (R397): key 2^32 * site + tag -/
  collCount : Tab Nat
  keys : Tab (BitVec 512)
  /-- key slots are as reset leaves them until written -/
  meas : BitVec 512
  measLog : List FwStage
  bootStatus : BitVec 8
  halted : Bool
  alarms : Nat
  powerCap : Nat
  /-- the draw has passed the cap by more than 5 % and has not been measured under it since (R437) -/
  overCap : Bool
  clockMhz : Nat
  vigil : BitVec 16
  vigilTv : Nat
  vigilRec : Option FaultRec
  vigilOut : List Byte
  /-- profile sessions by function (R426) -/
  profiles : Tab (Option ProfTable)
  funcLog : List (Nat × Word32 × List Byte)
  mgmtLog : List (Nat × Nat)
  mailbox : List (Nat × List Byte)
  /-- functions whose profile session was moved here and whose next launch is still to be told (R426) -/
  moved : List Nat
  /-- completions returned to the host and flits returned to peers -/
  hostOut : List HostReply
  /-- each with its port, none where no port of the route was up (R394) -/
  flitOut : List (Option Nat × Flit)
  svcs : List SvcReq
  mig : Option Mig
  replays : List Replay
  /-- corrected errors counted at each slice, by die (R312, R420) -/
  corrected : Tab Nat
  nLaunch : Nat
  -- the model's own fields
  phase : Phase
  agenda : List Pick
  cur : Cur
  /-- counter of free values -/
  free : Nat
  /-- next token, request tag and service number -/
  fresh : Nat
  /-- how often each agent number has been taken over by another program: a new one is another agent (R293) -/
  incarn : Tab Nat
  /-- what was done before the last write of 0 to a word of a KV table that a holder of its LOCK made, and what a site
  had done before its last fence of scope `.dev` or wider (R371) -/
  lockClk : Tab Clock
  fenced : Tab Clock
  clocks : Tab Clock
  flagClk : Tab Clock
  accs : Tab (List AccRec)
  deriving DecidableEq, Repr

/-- Why a run cannot go on. No instruction of the table stops the model on every path: exceptions of
the machine are next states.
DESIGN CHOICE (log 13), safe. -/
inductive Fault
  /-- raised by a step of a module held in reset, in Vigil or halted by an alarm: its clocks stand
  still and no rule gives it a next state but an event from outside (R427, R429, R433). Safe: the
  hardware stands still too -/
  | clocksStopped
  deriving DecidableEq, Repr

/-- Why the model gives no meaning. -/
inductive Refusal
  /-- an instruction that has no meaning yet. Safe: nothing is claimed of it -/
  | notModelled (mnemonic : String)
  /-- an instruction run with no agent to run it: a word of a queue outside a lane. Safe: step never
  does so -/
  | noActor
  deriving DecidableEq, Repr

/-- Context table entry at reset (R316). -/
def Ctx.reset : Ctx := { func := 0, key := 0, gen := 0, root := 0, v := false }

/-- Quota table entry at reset (R309). -/
def Quota.reset : Quota := { pinq := 4096, bsize := 256, rate := 16, prio := 3 }

/-- A slice port at reset. -/
def Port.reset : Port := { bucket := [], pool := 0, waiting := [], last := 0 }

/-- Ring descriptor at reset (R329). -/
def Ring.reset : Ring :=
  { logn := 6, head := 0, tail := 0, base := 0, vec := 0, ovf := false, ien := false, en := false }

/-- Work-queue descriptor at reset (R333). -/
def WorkQueue.reset : WorkQueue :=
  { tailf := 0, head := 0, func := 0, prio := 0, base := 0, logn := 6, en := false, tail := 0,
    raised := 0, since := none, came := [] }

/-- A bind record with nothing written. -/
def Bind.reset : Bind :=
  { launch := 0, ctx := 0, qidx := 0, mode := 0, t0 := 0, deadline := 0, image := 0, ltab := 0, args := 0,
    origin := 0, shape := 0, lpos := 0, nargs := 0, sleep := 0, nflag := 0, state := 0 }

/-- Wait-log and trace table entry at reset (R417). -/
def LogRing.reset : LogRing := { base := 0, en := false, logn := 6 }

/-- A trace stream with nothing written. -/
def TraceSt.reset : TraceSt := { last := 0, begun := false, lost := false, sampled := false }

/-- An idle lookup core (R379, R380). -/
def Lookup.idle : Lookup :=
  { run := false, site := 0, launch := 0, idx := 0, s := [], sp := [], fly := [], lands := [], h := [],
    fetch := Fetch.none, ref := 0, cyc := 0, il := [], ga := [], grl := 0, ot := [], cache := [],
    halted := false, hold := none, met := none, alignTo := none, wait := none, ended := none, seq := 0, work := none, send := none, posts := [] }

/-- No update yet. -/
def LastSet.none : LastSet := { setter := 0, smod := 0 }

/-- The module right after bring-up (R429): the Calendar zero, device memory zero, no launch, every
table at its reset value.
DESIGN CHOICE (log 1), unsafe. -/
def State.reset : State :=
  { cal := 0, members := [], lookups := [], dflags := [], dmem := [], dbad := [], dkey := [], l2 := [],
    ctxs := [], quotas := [], qidx := [], ports := [], invCtl := 2, invVa := 0, inval := none, invNext := [],
    rings := [], recs := [], recsTerm := [], recsVf := [], weights := [], posted := false, round := [0, 0, 0],
    lastVf := 0, queues := [], launches := [], copies := [], wrr := [], slotTable := [], saveArea := [], waitLog := [],
    waitSeq := [], traceTab := [], traceSt := [], lastSet := [], rose := [], waitPend := [], dbgReason := [],
    preemptCtl := 0x200000000#64, bindGo := 0, killReg := 0, barriers := [], graph := none, tenant := 0, sliceAt := 0,
    tenantSaves := [], rtbank := [], moduleId := 0, aperture := [], grants := [], routes := [],
    linkDown := [], malformed := 0, outs := [], flr := [], msix := [], collIn := [], collCount := [],
    keys := [], meas := 0, measLog := [], bootStatus := 0xff, halted := false, alarms := 0,
    powerCap := 3800, overCap := false, clockMhz := 3300, vigil := 0, vigilTv := 0, vigilRec := none, vigilOut := [],
    profiles := [], funcLog := [], mgmtLog := [], mailbox := [], moved := [], hostOut := [], flitOut := [], svcs := [], mig := none, replays := [],
    corrected := [], nLaunch := 0, phase := .start, agenda := [], cur := .none, free := 0, fresh := 1,
    incarn := [], lockClk := [], fenced := [], clocks := [], flagClk := [], accs := [] }

end Sys2Proof.Machine
end

