-- ==== Sys2Proof/Machine/Tab.lean ====
section
/-! DEFINITION. Reading and writing sparse tables. -/

namespace Sys2Proof.Machine

open Sys2Proof

/-- The entry at a key; the default where nothing is listed. -/
def tget {α : Type} (d : α) : Tab α → Nat → α
  | [], _ => d
  | (k', a) :: r, k => if k' = k then a else tget d r k

/-- A table with an entry written in, keys kept in order. -/
def tins {α : Type} : Tab α → Nat → α → Tab α
  | [], k, a => [(k, a)]
  | (k', b) :: r, k, a =>
    if k < k' then (k, a) :: (k', b) :: r
    else if k = k' then (k, a) :: r
    else (k', b) :: tins r k a

/-- A table without the entry at a key. -/
def tdel {α : Type} : Tab α → Nat → Tab α
  | [], _ => []
  | (k', b) :: r, k => if k' = k then tdel r k else (k', b) :: tdel r k

/-- A table with a value at a key: writing the default removes the entry. -/
def tput {α : Type} [DecidableEq α] (d : α) (t : Tab α) (k : Nat) (a : α) : Tab α :=
  if a = d then tdel t k else tins t k a

/-- Keys strictly rise and no entry is the default. -/
def twf {α : Type} [DecidableEq α] (d : α) : Tab α → Bool
  | [] => true
  | [(_, a)] => a ≠ d
  | (k, a) :: (k', b) :: r => a ≠ d && decide (k < k') && twf d ((k', b) :: r)

/-- A table of the values of a function at the keys of a rising list. -/
def tofn {α : Type} [DecidableEq α] (d : α) (ks : List Nat) (f : Nat → α) : Tab α :=
  ks.filterMap fun k => let a := f k; if a = d then none else some (k, a)

/-- A run of entries written one after the other. -/
def tputs {α : Type} [DecidableEq α] (d : α) (t : Tab α) (l : List (Nat × α)) : Tab α :=
  l.foldl (fun t p => tput d t p.1 p.2) t

/-- The entries with keys in [lo, lo + n), renumbered from zero. -/
def tslice {α : Type} (t : Tab α) (lo n : Nat) : Tab α :=
  t.filterMap fun p => if lo ≤ p.1 ∧ p.1 < lo + n then some (p.1 - lo, p.2) else none

/-- A table without the entries with keys in [lo, lo + n). -/
def tclear {α : Type} (t : Tab α) (lo n : Nat) : Tab α :=
  t.filter fun p => p.1 < lo || lo + n ≤ p.1

/-- A table with every listed entry changed. -/
def tmap {α : Type} [DecidableEq α] (d : α) (f : α → α) (t : Tab α) : Tab α :=
  t.filterMap fun p => let a := f p.2; if a = d then none else some (p.1, a)

end Sys2Proof.Machine
end

