-- ==== Sys2Proof/Machine/Alts.lean ====
section
/-! DEFINITION. Alternatives: the helpers of R48, the splitting rule R155 and resolution R158. -/

namespace Sys2Proof.Machine

open Sys2Proof

/-- `Compatible` of R48, on masks that never hold the code 0b11 (R36). -/
def compatible (g h : BitVec 16) : Bool := ((g ||| h) &&& ((g ||| h) >>> 1) &&& 0x5555) == 0

/-- `Conj` of R48, on compatible masks. -/
def conj (g h : BitVec 16) : BitVec 16 := g ||| h

/-- The mask of one literal (R36). -/
def litMask (l : Lit) : BitVec 16 := BitVec.ofNat 16 ((if l.2 then 1 else 2) * 4 ^ l.1.val)

/-- The opposite literal, `Not` of R155. -/
def litNot (l : Lit) : Lit := (l.1, !l.2)

/-- Code of slot q in a mask (R36). -/
def litAt (g : BitVec 16) (q : QSlot) : Nat := g.toNat / 4 ^ q.val % 4

/-- A plain value (R37). -/
def plain {α : Type} (a : α) : Alts α := [(0, .val a)]

/-- The value of a register that holds one alternative and no poison. -/
def single {α : Type} : Alts α → Option α
  | [(_, .val a)] => some a
  | _ => none

/-- A poison that an instruction copied or derived: no longer the alternative its access wrote
(R164). -/
def derived {α β : Type} (f : α → β) : AV α → AV β
  | .val a => .val (f a)
  | .poison c _ acc => .poison c false acc

/-- Value of a pairing: the first poison operand in operand order wins (R38). -/
def pairAV {α β γ : Type} (f : α → β → γ) : AV α → AV β → AV γ
  | .val a, y => derived (f a) y
  | .poison c _ acc, _ => .poison c false acc

/-- `Pair` of R48, with a function of the two values. -/
def pairWith {α β γ : Type} (f : α → β → γ) (a : Alts α) (b : Alts β) : Alts γ :=
  a.flatMap fun x => b.filterMap fun y =>
    if compatible x.1 y.1 then some (conj x.1 y.1, pairAV f x.2 y.2) else none

/-- `Pair(Pair(A, B), Y)` and so on over a list of sources (R154). -/
def pairAll {α : Type} (l : List (Alts α)) : Alts (List α) :=
  l.foldl (fun acc x => pairWith (fun vs v => vs ++ [v]) acc x) (plain [])

/-- One result for each alternative of a source. -/
def mapAlts {α β : Type} (f : α → β) (a : Alts α) : Alts β := a.map fun x => (x.1, derived f x.2)

/-- The same alternatives in another form, a poison as it stands. -/
def reform {α β : Type} (f : α → β) (a : Alts α) : Alts β :=
  a.map fun x => (x.1, match x.2 with | .val v => .val (f v) | .poison c o acc => .poison c o acc)

/-- An alternative is a poison that its access wrote (R164). -/
def holdsOwn {α : Type} (a : Alts α) : Bool := a.any fun x => match x.2 with | .poison _ o _ => o | .val _ => false

/-- Inserts by an order, after what is equal. -/
def insertBy {α : Type} (lt : α → α → Bool) (x : α) : List α → List α
  | [] => [x]
  | y :: r => if lt x y then x :: y :: r else y :: insertBy lt x r

/-- Sorted by an order, stably. -/
def sortBy {α : Type} (lt : α → α → Bool) (l : List α) : List α := l.foldl (fun a x => insertBy lt x a) []

/-- The order of a number that belongs to each. -/
def byKey {α : Type} (key : α → Nat) (x y : α) : Bool := decide (key x < key y)

/-- `QualWrite` of R155, without its count. -/
def qualWrite {α : Type} (d r : Alts α) (l : Lit) : Alts α :=
  d.flatMap fun x =>
    (if compatible x.1 (litMask (litNot l)) then [(conj x.1 (litMask (litNot l)), x.2)] else []) ++
    (if compatible x.1 (litMask l) then
      r.filterMap fun y =>
        if compatible (conj x.1 (litMask l)) y.1 then some (conj (conj x.1 (litMask l)) y.1, y.2) else none
     else [])

/-- Step 1 to 3 of R158 on one register. -/
def resolveAlts {α : Type} (q : QSlot) (o : Bool) (a : Alts α) : Alts α :=
  a.filterMap fun x =>
    if litAt x.1 q = (if o then 2 else 1) then none
    else some (x.1 &&& ~~~(litMask (q, true) ||| litMask (q, false)), x.2)

/-- Pruning by the outcomes of several slots. -/
def resolveAll {α : Type} (out : List Lit) (a : Alts α) : Alts α :=
  out.foldl (fun a l => resolveAlts l.1 l.2 a) a

/-- What a write leaves in its destination: the results where it has no literal, the split of R155
while its slot is open, and, once the slot has resolved, the compatible pairs of the old
alternatives with the results, or the old alternatives (R156). -/
def landAlts {α : Type} (d r : Alts α) (lit : Option Lit) (out : List Lit) : Alts α :=
  match lit with
  | none => resolveAll out r
  | some l =>
    match out.find? (fun o => o.1 == l.1) with
    | none => qualWrite d (resolveAll out r) l
    | some o =>
      if o.2 = l.2 then pairWith (fun _ v => v) (d.map fun x => (x.1, .val ())) (resolveAll out r)
      else d

/-- The most alternatives that writes leave in a register as they land one after the other (R157): each with its results,
its literal and the outcomes known to it. -/
def breadthOf {α : Type} (d : Alts α) : List (Alts α × Option Lit × List Lit) → Nat
  | [] => 0
  | (r, l, o) :: t => let a := landAlts d r l o; max a.length (breadthOf a t)

end Sys2Proof.Machine
end

