-- ==== Sys2Proof/Machine/Ops.lean ====
section
/-! DEFINITION. Named operations over the tables, memories, flags and launches, and the taking of an
exception: a terminal fault, its record, and the ending of the launch. -/

namespace Sys2Proof.Machine

open Sys2Proof

/-! ## Members and sites -/

/-- The member at a site. -/
def mem (s : State) (n : Nat) : Member := tget Member.free s.members n

/-- The state with a member replaced. -/
def setMem (s : State) (n : Nat) (m : Member) : State :=
  { s with members := tput Member.free s.members n m }

/-- The state with a member changed by a function. -/
def updMem (s : State) (n : Nat) (f : Member → Member) : State := setMem s n (f (mem s n))

/-- The lookup core of a number. -/
def lookupCore (s : State) (n : Nat) : Lookup := tget Lookup.idle s.lookups n

/-- The state with a lookup core replaced. -/
def setLookup (s : State) (n : Nat) (l : Lookup) : State :=
  { s with lookups := tput Lookup.idle s.lookups n l }

/-- Physical row of a site, 16 * row + col (R3).
DESIGN CHOICE (log 133), safe. -/
def siteRow (n : Nat) : Nat := n / 16

/-- Physical column of a site (R3). -/
def siteCol (n : Nat) : Nat := n % 16

/-- Die of a site (R3). -/
def dieOf (n : Nat) : Nat := (if siteRow n < 5 then 0 else 2) + (if siteCol n < 8 then 0 else 1)

/-- Site of position k of a die's 40, counted along its rows (R3). -/
def dieSite (die k : Nat) : Nat := 16 * (5 * (die / 2) + k / 8) + 8 * (die % 2) + k % 8

/-- The eight disabled sites, two of each die (R4). -/
def disabledSites : List Nat :=
  [0, 1, 2, 3].flatMap fun die =>
    let a := (Config.disabledPick (Fin.ofNat 8 (2 * die))).val
    let b := (Config.disabledPick (Fin.ofNat 8 (2 * die + 1))).val
    [dieSite die a, dieSite die (if b = a then (b + 1) % 40 else b)]

/-- A site that exists and is enabled (R3, R4). -/
def siteEnabled (n : Nat) : Bool := n < 160 && !disabledSites.contains n

/-- The bind record of a site (R342). -/
def bindOf (s : State) (n : Nat) : Bind := tget Bind.reset s.slotTable n

/-- The context descriptor of a number (R316). -/
def ctxOf (s : State) (n : Nat) : Ctx := tget Ctx.reset s.ctxs n

/-- The context a site's member runs in. -/
def siteCtx (s : State) (n : Nat) : Nat := (bindOf s n).ctx.toNat % 4096

/-- The launch of an identity. -/
def findLaunch (s : State) (id : Word32) : Option Launch := s.launches.find? (fun l => l.id == id)

/-- The state with the launch of an identity changed. -/
def updLaunch (s : State) (id : Word32) (f : Launch → Launch) : State :=
  { s with launches := s.launches.map fun l => if l.id = id then f l else l }

/-- The sites of a launch; those of its bind records where the firmware took no record for it. -/
def launchSites (s : State) (id : Word32) : List Nat :=
  match findLaunch s id with
  | some l => l.sites
  | none => s.slotTable.filterMap fun p => if p.2.launch = id ∧ p.2.state = 2 then some p.1 else none

/-- A fresh token, tag or service number. -/
def takeFresh (s : State) : Nat × State := (s.fresh, { s with fresh := s.fresh + 1 })

/-- A free value and the state that has drawn it. -/
def drawFree (s : State) : Word × State := (Config.freeWord s.free, { s with free := s.free + 1 })

/-- Numbers of a site's agents for the happens-before clocks (R284): 0 the lockstep group, 1 L's load
queue, 2 its store queue. -/
def agentNo (site k : Nat) : Nat := 8 * site + k

/-- Pointwise greatest of two clocks. -/
def joinClock (a b : Clock) : Clock := b.foldl (fun c p => tput 0 c p.1 (max (tget 0 c p.1) p.2)) a

/-- The clock of an agent. -/
def clockOf (s : State) (a : Nat) : Clock := tget [] s.clocks a

/-- What the agents of a site have done and know; the last of the eight stands for its completed commands (R293). -/
def siteClock (s : State) (n : Nat) : Clock := (List.range 8).foldl (fun c k => joinClock c (clockOf s (agentNo n k))) []

/-! ## Bytes -/

/-- A byte of a memory; zero where nothing is listed.
DESIGN CHOICE (log 2), unsafe. -/
def byteAt (m : Mem) (a : Nat) : Byte := tget 0 m a

/-- A memory with a byte written. -/
def setByte (m : Mem) (a : Nat) (b : Byte) : Mem := tput 0 m a b

/-- The bytes at [a, a + n). -/
def bytesAt (m : Mem) (a n : Nat) : List Byte := (List.range n).map fun i => byteAt m (a + i)

/-- A memory with bytes written from an address on. -/
def setBytes (m : Mem) (a : Nat) : List Byte → Mem
  | [] => m
  | b :: r => setBytes (setByte m a b) (a + 1) r

/-- A little-endian number (R9). -/
def leNat : List Byte → Nat
  | [] => 0
  | b :: r => b.toNat + 256 * leNat r

/-- The n bytes of a number, little-endian (R9). -/
def leBytes : Nat → Nat → List Byte
  | 0, _ => []
  | n + 1, v => BitVec.ofNat 8 v :: leBytes n (v / 256)

/-- The n-byte number at an address. -/
def numAt (m : Mem) (a n : Nat) : Nat := leNat (bytesAt m a n)

/-- A memory with an n-byte number written. -/
def setNum (m : Mem) (a n v : Nat) : Mem := setBytes m a (leBytes n v)

/-- Addresses strictly rise and no listed byte is what an unlisted address reads as. -/
abbrev Memory.wf (m : Mem) : Prop := twf (0 : Byte) m = true

/-- Key of a chunk in the table of poisoned chunks of the typed buffers. -/
def badKey (b off : Nat) : Nat := 2 ^ 17 * (b - 1) + off / 32

/-! ## Flags (R41, R42) -/

/-- Key of a flag in the table of last setters. -/
def flagNum : FlagKey → Nat
  | .own site n => 4096 * site + n
  | .dev n => 2 ^ 20 + n

/-- The value of a flag at its home. -/
def flagVal (s : State) : FlagKey → Word32
  | .own site n => tget 0 (mem s site).buf.flags n
  | .dev n => tget 0 s.dflags n

/-- Accepts a new tail of a work queue unless it would exceed the ring (R334). -/
def acceptTail (w : WorkQueue) (t : Word32) : WorkQueue :=
  if w.en ∧ (t - w.head).toNat ≤ 2 ^ w.logn.toNat then { w with tail := t } else w

/-- A device flag that serves as the tail of device-internal queues of the tenant it belongs to moves their tails (R334,
R351). -/
def tailFlag (s : State) (n : Nat) (v : Word32) : State :=
  { s with queues := s.queues.map fun p =>
      if 2048 ≤ p.1 ∧ p.2.tailf.toNat = n ∧ p.2.func.toNat = s.tenant then (p.1, acceptTail p.2 v) else p }

/-- A flag value satisfies a wait: at least the target (R241), or a phase or status other than the one
waited on (R242). -/
def meets (k : FlagKey) (v : Word32) : Hold → Bool
  | .flagWait f t => f == k && t ≤ v.toNat
  | .barWait n ph => k == .dev (n + 1) && (v.toNat % 2 ^ 30 != ph || v.toNat / 2 ^ 30 != 0)
  | _ => false

/-- The flag a wait names. -/
def waitKey : Hold → Option FlagKey
  | .flagWait k _ => some k
  | .barWait o _ => some (.dev (o + 1))
  | _ => none

/-- Key of a flag's release clocks. -/
def flagClkKey (k : FlagKey) (sc : Nat) : Nat := 256 * flagNum k + sc

/-- Scopes whose observers include the agents of a member: all, its die, the member (R288). -/
def siteScopes (site : Nat) : List Nat := [0, 1 + dieOf site, 8 + site]

/-- Scopes whose observers include a lookup core: all, the die that holds it (R288, R379). -/
def coreScopes (k : Nat) : List Nat := [0, 1 + k / 16]

/-- What an acquire of a flag learns from the releases whose scopes reach it (R291, R292, R294). -/
def acquired (s : State) (k : FlagKey) (scopes : List Nat) : Clock :=
  scopes.foldl (fun c sc => joinClock c (tget [] s.flagClk (flagClkKey k sc))) []

/-- The update that first satisfies a wait is noted (R241). -/
def metBy (tick : Nat) (k : FlagKey) (v : Word32) (u : LastSet) (h : Option Hold) (x : Option Met) : Option Met :=
  match h, x with
  | some h, none => if meets k v h then some { val := v, set := u, tick := tick, clk := [] } else none
  | _, x => x

/-- At the end of the tick that satisfied a wait its last update is known, and every release up to then (R292, R419). -/
def sealMet (s : State) (scopes : List Nat) (h : Option Hold) (x : Option Met) : Option Met :=
  match x, h with
  | some x, some h =>
    match (if x.tick = s.cal then waitKey h else none) with
    | some k => some { x with
        val := if meets k (flagVal s k) h then flagVal s k else x.val
        set := tget LastSet.none s.lastSet (flagNum k)
        clk := acquired s k scopes }
    | none => some x
  | x, _ => x

/-- The waits satisfied in this tick are sealed. -/
def sealMets (s : State) : State :=
  { s with
    members := s.members.map fun p => (p.1, { p.2 with ctl := { p.2.ctl with met := sealMet s (siteScopes p.1) p.2.ctl.frz p.2.ctl.met } })
    lookups := s.lookups.map fun p => (p.1, { p.2 with met := sealMet s (coreScopes p.1) p.2.hold p.2.met }) }

/-- Writes a flag at its home, on behalf of a setter named in the layout of R328 (R419). -/
def setFlag (s : State) (k : FlagKey) (v : Word32) (setter smod : BitVec 16) : State :=
  let u : LastSet := { setter := setter, smod := smod }
  let up : Bool := (flagVal s k == 0 && v != 0) || (tget (LastSet.none, 0) s.rose (flagNum k)).2 == s.cal
  let s := { s with lastSet := tput LastSet.none s.lastSet (flagNum k) u
                    rose := if up then tput (LastSet.none, 0) s.rose (flagNum k) (u, s.cal) else s.rose }
  let s := match k with
    | .own site n =>
      updMem s site fun m => { m with buf := { m.buf with flags := tput 0 m.buf.flags n v } }
    | .dev n => tailFlag { s with dflags := tput 0 s.dflags n v } n v
  { s with members := s.members.map fun p => (p.1, { p.2 with ctl := { p.2.ctl with met := metBy s.cal k v u p.2.ctl.frz p.2.ctl.met } }),
           lookups := s.lookups.map fun p => (p.1, { p.2 with met := metBy s.cal k v u p.2.hold p.2.met }) }

/-- `Post` of R48: adds to a flag; false when it would pass the bound, and then the flag keeps the
greatest value (R42). -/
def postFlag (s : State) (k : FlagKey) (v : Nat) (setter smod : BitVec 16) : State × Bool :=
  let n := (flagVal s k).toNat + v
  if n < 2 ^ 32 then
    (if v = 0 then s else setFlag s k (BitVec.ofNat 32 n) setter smod, true)
  else (setFlag s k 0xffffffff setter smod, false)

/-- Subtracts from a flag; false when it would pass zero, and then the flag is zero (R42, R240). -/
def decFlag (s : State) (k : FlagKey) (v : Nat) (setter smod : BitVec 16) : State × Bool :=
  let n := (flagVal s k).toNat
  if v ≤ n then (if v = 0 then s else setFlag s k (BitVec.ofNat 32 (n - v)) setter smod, true)
  else (setFlag s k 0 setter smod, false)

/-- Identity in the SRC layout of R328.
DEDUCED (log 12), unsafe. -/
def srcId (kind sub site : Nat) : BitVec 16 := BitVec.ofNat 16 (kind * 4096 + sub * 256 + site)

/-! ## Counters (R420) -/

/-- Adds to an event counter of a member; the counters wrap. -/
def countN (m : Member) (ev n : Nat) : Member :=
  { m with ctl := { m.ctl with perf := tput 0 m.ctl.perf ev ((tget 0 m.ctl.perf ev + n) % 2 ^ 64) } }

/-- Counts an event of a member. -/
def count (m : Member) (ev : Nat) : Member := countN m ev 1

/-! ## Fault records (R328 to R330) -/

/-- Code of a fault kind (R47). -/
def kindCode : Kind → Nat
  | .illegal => 0x01 | .lineFormat => 0x02 | .hazard => 0x03 | .collision => 0x04 | .breadth => 0x05
  | .guardReopen => 0x06 | .flagUnderflow => 0x07 | .flagOverflow => 0x08 | .scheduleMiss => 0x09
  | .waitTimeout => 0x0a | .arithFormat => 0x0b | .page => 0x10 | .staleHandle => 0x11
  | .permission => 0x12 | .deferredAccess => 0x13 | .poisonRead => 0x14 | .trap => 0x18

/-- Stage predicates of a running record as a byte (R147). -/
def stageByte (r : RecRun) : BitVec 8 :=
  if r.phase = .ker then
    BitVec.ofNat 8 (((List.range r.stages).map fun st => if st ≤ r.j ∧ r.j < r.n + st then 2 ^ st else 0).sum)
  else 0

/-- Loop, iteration and predicates of a running record, for records (R328). -/
def tagOf : Option RecRun → LoopTag
  | some r => { loop := r.id, iter := BitVec.ofNat 32 (if r.phase = .ker then r.j else 0), stagep := stageByte r }
  | none => { loop := 0xffff, iter := 0, stagep := 0 }

/-- FUNC of a record: the owner of its context; none of a context that does not exist (R316, R328).
DEDUCED (log 141), unsafe. -/
def recFunc (s : State) (ctx : Nat) : BitVec 16 := if (ctxOf s ctx).v then (ctxOf s ctx).func.setWidth 16 else 0

/-- A fault record of a member (R328). -/
def siteRec (s : State) (site : Nat) (kind sub : Nat) (cause : Kind) (deferred replay : Bool)
    (status index : Nat) (tag : LoopTag) (addr : Nat) : FaultRec :=
  let c := (bindOf s site).ctx
  { ctx := c, func := recFunc s c.toNat, launch := (bindOf s site).launch,
    src := srcId kind sub site, cause := BitVec.ofNat 8 (kindCode cause), deferred := deferred,
    replay := replay, status := BitVec.ofNat 32 status, index := BitVec.ofNat 32 index,
    loop := tag.loop, stagep := tag.stagep, addr := BitVec.ofNat 64 addr }

/-- Hands a record to the reporting port (R329): replayable records to one class, every other to the
terminal class with a copy for the owning VF. -/
def postRec (s : State) (r : FaultRec) : State :=
  if r.replay then { s with recs := s.recs ++ [r] }
  else
    { s with recsTerm := s.recsTerm ++ [r],
             recsVf := if 1 ≤ r.func.toNat ∧ r.func.toNat ≤ 126 then s.recsVf ++ [(r.func.toNat, r)] else s.recsVf }

/-! ## Ways of an L2 set (R303, R304, R308) -/

/-- A tag holds pins. -/
def Tag.pinned (t : Tag) : Bool := t.pins.any fun p => p.count != 0

/-- Data ways in use. -/
def waysUsed (l : List Tag) : Nat := l.countP fun t => t.way

/-- The set without its oldest tag of a kind. -/
def dropOldest (p : Tag → Bool) : List Tag → Option (List Tag)
  | [] => none
  | t :: r => if p t then some r else (dropOldest p r).map fun r => t :: r

/-- A set with a tag moved to the newest place and changed. -/
def touchTag (tag : BitVec 15) (f : Tag → Tag) (l : List Tag) : List Tag :=
  match l.find? (fun t => t.tag == tag) with
  | some t => (l.filter fun x => x.tag != tag) ++ [f t]
  | none => l

/-- A tagged line takes a data way: a free one, or one that displaces an unpinned line; none where the
set has neither (R304, R308). -/
def takeWay (tag : BitVec 15) (l : List Tag) : Option (List Tag) := do
  let l ← if waysUsed l ≥ 16 then dropOldest (fun t => t.way && !t.pinned && t.tag != tag) l else some l
  some (touchTag tag (fun t => { t with way := true }) l)

/-- At most k pinned lines without a way are filled into ways of their set that are free. -/
def fillWays : Nat → List Tag → List Tag
  | 0, l => l
  | k + 1, l =>
    match l.find? (fun t => t.pinned && !t.zero && !t.way) with
    | some t =>
      match takeWay t.tag l with
      | some l => fillWays k (touchTag t.tag (fun t => { t with valid := 0xf }) l)
      | none => l
    | none => l

/-- Pinned lines without a way are filled into the ways of their set that have become free (R308). -/
def fillPinned (l : List Tag) : List Tag := fillWays l.length l

/-! ## Waits for the wait log (R418, R419) -/

/-- The loop id, iteration or index, and predicates of LOOPSTATE at a lane (R150). -/
def loopTag (stack : List Level) (r : Option RecRun) : LoopTag :=
  { tagOf r with iter := match stack with
      | x :: _ => BitVec.ofNat 32 x.iter
      | [] => (tagOf r).iter }

/-- The loops of the control column's next instruction and the record a member is in (R150). -/
def headLoops (m : Member) : List Level × Option RecRun :=
  ((((m.ctl.fetch.lanes.find? fun l => l.q == .c).map QLane.stack).getD m.ctl.fetch.stack), m.ctl.fetch.steps.head?)

/-- Loop, iteration and predicates where a member stands. -/
def headTag (m : Member) : LoopTag := loopTag (headLoops m).1 (headLoops m).2

/-- A wait has ended; its record is written at the end of the tick, where the site's log is enabled (R418). -/
def waitRec (s : State) (site : Nat) (t : WaitTimer) (u : LastSet) (tag : LoopTag) : State :=
  if (tget LogRing.reset s.waitLog site).en then
    { s with waitPend := s.waitPend ++ [{ site := site, timer := t, set := u, tag := tag, last := s.cal }] }
  else s

/-- SETTER of a wait that ends because its launch ends (R419). -/
def LastSet.ended : LastSet := { setter := 0xffff, smod := 0 }

/-- The commands of a stream that wait on a token. -/
def tokenWaits (x : Stream) : List (WaitTimer × LoopTag) :=
  (x.queue ++ ((x.chain.bind Chain.cur).toList)).filterMap fun c => c.since.map fun t => (t, { c.tag with iter := x.idx })

/-- The waits that the end of a launch cuts short: of control columns, of commands on tokens, and of lookup programs. -/
def cutWaits (s : State) (id : Word32) (sites : List Nat) : State :=
  let s := sites.foldl (fun s n =>
    let m := mem s n
    let s := m.ctl.waits.foldl (fun s t => waitRec s n t LastSet.ended (headTag m)) s
    (m.eng.flatMap fun p => tokenWaits p.2).foldl (fun s w => waitRec s n w.1 LastSet.ended w.2) s) s
  s.lookups.foldl (fun s p => match (if p.2.launch = id then p.2.wait else none) with
    | some t => waitRec s p.2.site t LastSet.ended { loop := 0xffff, iter := 0, stagep := 0 }
    | none => s) s

/-! ## Ending a launch (R348, R350) -/

/-- Releases the pins of a launch; a pinned line without a way takes one that this frees (R306, R308, R348). -/
def releasePins (s : State) (id : Word32) : State :=
  { s with l2 := s.l2.map fun p =>
      (p.1, fillPinned (p.2.map fun t => { t with pins := t.pins.filter fun q => q.launch != id })) }

/-- Status and phase word of a barrier with its status set (R242). -/
def breakWord (w : Word32) (st : Nat) : Word32 := BitVec.ofNat 32 (w.toNat % 2 ^ 30 + st * 2 ^ 30)

/-- Ends the barrier participations of members whose launch was killed or faulted (R350). -/
def breakBarriers (s : State) (sites : List Nat) : State :=
  s.barriers.foldl (fun s p =>
    match p.2 with
    | none => s
    | some b =>
      if b.parts.any (fun n => sites.contains n) then
        let parts := b.parts.filter fun n => !sites.contains n
        let s := setFlag s (.dev (p.1 + 1)) (breakWord (flagVal s (.dev (p.1 + 1))) 1) (srcId 5 0 0) 0
        let b' : Option Barrier := if parts = [] then none
          else some { b with parts := parts, arrived := b.arrived.filter fun n => !sites.contains n }
        { s with barriers := tput none s.barriers p.1 b' }
      else s) s

/-- A member whose launch ends: what it holds or queued is discarded and it issues nothing more. -/
def endMember (m : Member) : Member :=
  { m with
    grd := { m.grd with held := [] }
    l := { m.l with lq := [], sq := [], halts := [], defer := [], hrel := [] }
    eng := m.eng.map fun p =>
      (p.1, { p.2 with queue := [], fly := [], chain := none, open_ := false, conts := [], stopped := none,
                       heldUi := [] })
    ctl := { m.ctl with life := .retired, frz := none, low := none, trap := none, alignTo := none, waits := [] } }

/-- Stops the lookup programs of a launch, those among them that have ended and whose `lkick` has not; their cores
become idle (R379). -/
def endLookups (s : State) (id : Word32) : State :=
  { s with lookups := s.lookups.filter fun p => !(p.2.launch == id && (p.2.run || p.2.ended.isSome)) }

/-- The status by which a pre-emption request in progress ends (R406). -/
def preemptDone (s : State) (id : Word32) : State :=
  if s.preemptCtl.toNat % 2 ^ 32 = id.toNat then { s with preemptCtl := BitVec.ofNat 64 (2 ^ 33 + id.toNat) } else s

/-- What the members of a launch have counted in a bind joins the launch's counts (R420, R426).
DESIGN CHOICE (log 91), unsafe. -/
def tallyEvents (s : State) (id : Word32) (sites : List Nat) : State :=
  let sum := sites.foldl (fun (t : Tab Nat) n => (mem s n).ctl.perf.foldl (fun t p => tput 0 t p.1 (tget 0 t p.1 + p.2)) t)
  updLaunch s id fun l => { l with counts := sum l.counts }

/-- The save areas of members whose save a terminal fault or a kill cuts short hold nothing definite (R416). -/
def spoilSaves (s : State) (sites : List Nat) : State :=
  sites.foldl (fun s n =>
    let m := mem s n
    if m.ctl.life = .saving then
      let k := 512 * m.ctl.saveN
      { s with dmem := setBytes s.dmem ((tget 0 s.saveArea n).toNat * 4096)
                 ((List.range k).map fun i => (Config.freeWord (s.free + i)).setWidth 8)
               free := s.free + k }
    else s) s

/-- Ends a launch by retirement (status 0), terminal fault (2) or kill (3) (R348). -/
def endLaunch (s : State) (id : Word32) (sites : List Nat) (status cause : Nat) : State :=
  let s := cutWaits (spoilSaves (tallyEvents s id sites) sites) id sites
  let s := sites.foldl (fun s n => updMem s n endMember) s
  let s := endLookups s id
  let s := releasePins s id
  let s := if status = 0 then s else breakBarriers s sites
  let s := { s with slotTable := s.slotTable.map fun (p : Nat × Bind) =>
      if sites.contains p.1 ∧ p.2.launch = id then (p.1, { p.2 with state := 0 }) else p }
  let s := { s with replays := s.replays.filter fun r => !sites.contains r.site,
                    svcs := s.svcs.filter fun r => r.launch != id,
                    collIn := s.collIn.filter fun r => r.launch != id,
                    graph := match s.graph with
                      | some g => if g.launch = id then none else some g
                      | none => none }
  preemptDone (updLaunch s id fun l =>
    { l with state := .ended, status := BitVec.ofNat 8 status, cause := BitVec.ofNat 8 cause,
             endTick := s.cal, owed := true, preempt := none, clk := sites.foldl (fun c n => joinClock c (siteClock s n)) l.clk }) id

/-! ## Taking a fault -/

/-- VIGIL_CTL is armed for a trigger bit (R427). -/
def vigilArmed (s : State) (bit : Nat) : Bool :=
  bits s.vigil.toNat 0 0 = 1 && bits s.vigil.toNat bit bit = 1 && bits s.vigil.toNat 4 4 = 0

/-- Puts Vigil in force at the end of this tick (R427). -/
def vigilFire (s : State) (cause : Nat) (r : Option FaultRec) : State :=
  { s with vigil := BitVec.ofNat 16 (s.vigil.toNat % 256 ||| 16 ||| cause * 256), vigilTv := s.cal, vigilRec := r }

/-- Writes CAUSE, FAULT_VA and FAULT_INFO (R45). -/
def faultRegs (m : Member) (t : Trap) (q addr : Nat) : Member :=
  { m with spr := { m.spr with
      cause := BitVec.ofNat 64 (kindCode t.kind + if t.deferred then 256 else 0)
      faultVa := (match t.va with | some v => BitVec.ofNat 64 v | none => m.spr.faultVa)
      faultInfo := BitVec.ofNat 64 (addr % 2 ^ 48 + q % 16 * 2 ^ 48 + t.alt % 4 * 2 ^ 52) } }

/-- TAKING AN EXCEPTION: a terminal fault of a member (R47, R348). The special registers keep what
faulted, the first fault posts its record to the terminal ring, and the launch ends with its cause;
where Vigil is armed for it the module stops first, and a fault of the tick in which it stops is not taken (R427). -/
def takeRaised (s : State) (site : Nat) (x : Raised) : State :=
  if bits s.vigil.toNat 4 4 = 1 then s
  else
    let t := x.trap
    let s := updMem s site fun m => faultRegs { m with ctl := { m.ctl with trap := none } } t x.q x.addr
    let r := { siteRec s site 0 0 t.kind t.deferred false t.status x.index x.tag
      (match t.va with | some v => v % 2 ^ 54 | none => x.addr % 2 ^ 48) with src := x.src }
    let s := postRec s r
    if vigilArmed s 2 then vigilFire s 3 (some r)
    else
      let id := (bindOf s site).launch
      let sites := launchSites s id
      endLaunch s id (if sites.contains site then sites else site :: sites) 2 (kindCode t.kind)

/-- The same, for a fault given field by field, `kind` and `sub` those of SRC; one that a lane of the member has raised
before it in this tick is taken in its place (R116). -/
def takeFault (s : State) (site kind sub q addr index : Nat) (tag : LoopTag) (t : Trap) : State :=
  takeRaised s site ((mem s site).ctl.trap.getD
    { src := srcId kind sub site, q := q, addr := addr, index := index, tag := tag, trap := t, tick := s.cal })

/-- A plain terminal fault of a kind. -/
def trapOf (k : Kind) : Trap := { kind := k, status := 0, va := none, deferred := false, alt := 0 }

/-- RETURNING: leaving a user-level interrupt handler, the one handler the spec gives a program
(R272): UIACT clears and the freeze of UI_HANDLER is released; what held the group before still
holds, because its condition is tested again. -/
def uiReturn (m : Member) : Member :=
  { m with ui := { m.ui with active := false, hold := none, fetch := Fetch.none }
           ctl := { m.ctl with frz := if m.ctl.frz = some .ui then none else m.ctl.frz } }

end Sys2Proof.Machine
end

