-- ==== Sys2Proof/Machine/Operands.lean ====
section
/-! DEFINITION. The lane being issued, the qualifier, and the scalar operand forms: registers, literals
and the head of LDQ-C, read and written under R25 to R31, R50 and R153 to R157. -/

namespace Sys2Proof.Machine

open Sys2Proof

/-! ## Lanes -/

/-- The first lane of a queue at an address. -/
def laneAt (lanes : List QLane) (q : Queue) (addr : Nat) : Option QLane :=
  lanes.find? fun l => l.q == q && l.addr == addr

/-- The group cycles of a member advance in this tick (R21, R269, R272); after a `halt` they go on until it
retires, for what is still in flight (R266). -/
def cycleRuns (m : Member) : Bool :=
  (match m.ctl.life with | .running => true | .saving => true | .restoring => true | .halted => true | _ => false) &&
  m.ctl.frz.isNone && !m.ui.active &&
  match m.ctl.dbg with | .stopped _ => false | _ => true

/-- The lane named by the actor of the instruction being run. -/
def curLane (s : State) : Option Lane :=
  match s.cur with
  | .lane n q addr => (laneAt (mem s n).ctl.fetch.lanes q addr).map fun l => { who := .mem n, q := q, ln := l }
  | .handler n addr => (laneAt (mem s n).ui.fetch.lanes .c addr).map fun l => { who := .hnd n, q := .c, ln := l }
  | .lookup n addr => (laneAt (lookupCore s n).fetch.lanes .c addr).map fun l => { who := .lk n, q := .c, ln := l }
  | _ => none

/-- The site whose state an agent uses: its own, or the kicker's (R379). -/
def whoSite (s : State) : Who → Nat
  | .mem n => n
  | .hnd n => n
  | .lk n => (lookupCore s n).site

/-- The cycle an agent's instructions are timed by: GROUP_CYCLE, handler cycles (R24), or the lookup
core's counter (R382). -/
def cycleOf (s : State) : Who → Nat
  | .mem n => (mem s n).ctl.gc
  | .hnd n => (mem s n).ui.cyc
  | .lk n => (lookupCore s n).cyc

/-- The queue of a lockstep column: C, V, X or M. -/
def lockQueue : Queue → Bool
  | .c | .v | .x | .m => true
  | .l | .e | .chain => false

/-- The lanes without the first one of a queue at an address. -/
def dropLane (q : Queue) (addr : Nat) : List QLane → List QLane
  | [] => []
  | l :: r => if l.q = q ∧ l.addr = addr then r else l :: dropLane q addr r

/-- A reference point that a lane sets counts for the boundary of the phase it stands in; that of a lane before the
record, for the phase that is running (R146). -/
def notePhase (l : QLane) (e : Nat) (steps : List RecRun) : List RecRun :=
  match l.rcd, steps with
  | none, y :: t => { y with fin := max y.fin e } :: t
  | some r, _ => steps.map fun y => if y.phase == r.phase && y.j == r.j then { y with fin := max y.fin e } else y
  | none, [] => []

/-- Fetch knows the issue plus occupancy of a lockstep lane: for the phase the lane stands in (R146) and for the
latest line issued from (R137). -/
def noteEnd (f : Fetch) (l : QLane) (e : Nat) : Fetch :=
  if !lockQueue l.q then f
  else
    { f with
      steps := notePhase l e f.steps
      tail := if f.tail.1 < l.inst then (l.inst, e) else if f.tail.1 = l.inst then (l.inst, max f.tail.2 e) else f.tail }

/-- A lane of a member leaves its queue, whose reference point becomes its issue plus its occupancy (R19). -/
def leaveQueue (l : Lane) (occ : Nat) (m : Member) : Member :=
  { m with ctl := { m.ctl with
      fetch := noteEnd { m.ctl.fetch with lanes := dropLane l.q l.ln.addr m.ctl.fetch.lanes } l.ln (m.ctl.gc + occ)
      refs := tput 0 m.ctl.refs l.q.code (m.ctl.gc + occ) } }

/-- The lane has issued: it leaves its queue, and the reference point of its queue is its issue plus
its occupancy (R19). -/
def retire (s : State) (l : Lane) (occ : Nat) : State :=
  match l.who with
  | .mem n => updMem s n fun m => count (leaveQueue l occ m) (0x20 + l.q.code)
  | .hnd n => updMem s n fun m =>
      { m with ui := { m.ui with
        fetch := { m.ui.fetch with lanes := dropLane l.q l.ln.addr m.ui.fetch.lanes }
        ref := m.ui.cyc + occ, count := m.ui.count + 1 } }
  | .lk n =>
    let c := lookupCore s n
    setLookup s n { c with
      fetch := { c.fetch with lanes := dropLane l.q l.ln.addr c.fetch.lanes }
      ref := c.cyc + occ }

/-- Freeze cause of a condition (R22); a load data queue of a member whose L is halted gives L_DRAIN. -/
def holdCause (m : Member) : Hold → Nat
  | .slotEmpty _ _ => 1 | .slotFull _ _ => 2 | .sPend _ => 3 | .vPend _ => 3
  | .ldqV => if m.l.halts != [] then 12 else 4
  | .ldqC => if m.l.halts != [] then 12 else 4
  | .bindV => 4 | .bindC => 4
  | .heldFull => 5 | .flagWait _ _ => 6 | .barWait _ _ => 6 | .slotOpen _ => 7 | .fetch _ => 8 | .wake _ => 9
  | .handle _ => 10 | .ui => 11 | .stamp _ => 13 | .sAlts _ => 14 | .vAlts _ => 14 | .litOpen _ => 14 | .popAlts _ => 14
  | .queueFull _ => 8

/-- FLAG and OWNER of the wait-log record of a flag wait (R418). -/
def waitFlag (site : Nat) : Hold → Option (BitVec 16 × BitVec 16)
  | .flagWait (.own o n) _ =>
    if o = site then some (BitVec.ofNat 16 n, 0)
    else some (BitVec.ofNat 16 (n + 2 * 4096), BitVec.ofNat 16 (o % 256))
  | .flagWait (.dev n) _ => some (BitVec.ofNat 16 (n + 4096), 0)
  | .barWait n _ => some (BitVec.ofNat 16 (n + 1 + 4096), 0)
  | _ => none

/-- Starts timing a flag wait of the control column, once (R418). -/
def startTimer (s : State) (site : Nat) (waiter : BitVec 16) (h : Hold) (l : List WaitTimer) : List WaitTimer :=
  match waitFlag site h with
  | none => l
  | some (f, o) =>
    if l = [] then [{ waiter := waiter, flag := f, owner := o, first := s.cal }] else l

/-- The agent waits: a member's freeze line is asserted, a handler or lookup core stalls (R21, R24,
R382). The lowest-numbered cause is kept (R22). -/
def waitOn (s : State) (w : Who) (h : Hold) : State :=
  match w with
  | .mem n => updMem s n fun m =>
      let m := { m with ctl := { m.ctl with waits := startTimer s n (srcId 1 1 n) h m.ctl.waits } }
      match m.ctl.frz with
      | some g => if holdCause m h < holdCause m g then { m with ctl := { m.ctl with frz := some h } } else m
      | none => { m with ctl := { m.ctl with frz := some h } }
  | .hnd n => updMem s n fun m => { m with ui := { m.ui with hold := some h } }
  | .lk n =>
    let c := lookupCore s n
    let w := match c.wait with
      | some w => some w
      | none => (startTimer s c.site (BitVec.ofNat 16 (3 * 4096 + n)) h []).head?
    setLookup s n { c with hold := some h, wait := w }

/-- A terminal fault of a lookup program: the core stops and its `lkick` fails with the kind (R389). -/
def lookupFault (s : State) (n : Nat) (k : Kind) : State :=
  setLookup s n { lookupCore s n with run := false, ended := some (BitVec.ofNat 8 (kindCode k)), hold := none }

/-- What a lane's fault reports (R328): SRC kind 0 for L, 1 for the other queues; a line-format fault names its
line (R111). -/
def raisedBy (tick n : Nat) (l : Lane) (t : Trap) : Raised :=
  let tag := tagOf l.ln.rcd
  { src := srcId (if l.q = .l then 0 else 1) l.q.code n, q := l.q.code,
    addr := if t.kind = .lineFormat then l.ln.faddr else l.ln.addr, index := tag.iter.toNat, tag := tag, trap := t, tick := tick }

/-- A fault raised by a lane (R47, R389). A member issues nothing more from the end of its tick, when the lanes of the
other columns that issue in the same group cycle have issued, and the fault is taken once they and what issued earlier
have completed; the first of several counts (R111, R116).
DEDUCED (log 29), unsafe. -/
def laneFault (s : State) (l : Lane) (t : Trap) : State :=
  let raise (n : Nat) (m : Member) : Member :=
    { m with ctl := { m.ctl with trap := m.ctl.trap.or (some (raisedBy s.cal n l t)) } }
  match l.who with
  | .lk n => lookupFault s n t.kind
  | .mem n => updMem s n fun m => raise n (leaveQueue l 1 m)
  | .hnd n => updMem s n fun m =>
      raise n { m with ui := { m.ui with fetch := { m.ui.fetch with lanes := dropLane l.q l.ln.addr m.ui.fetch.lanes } } }

/-- Runs the meaning of a lane: it waits, faults, or issues with an occupancy. -/
def lockstep (s : State) (f : Lane → Except Stop (State × Nat)) : Host.Outcome State Fault Refusal :=
  match curLane s with
  | none => .refused .noActor
  | some l =>
    match f l with
    | .error (.wait h) => .next (waitOn s l.who h)
    | .error .stall => .next s
    | .error (.trap t) => .next (laneFault s l t)
    | .ok (s', occ) => .next (retire s' l occ)

/-- The illegal-instruction fault. -/
def illegal {α : Type} : Except Stop α := .error (.trap (trapOf .illegal))

/-- The member of a lane, for instructions that a handler or lookup core has not (R127, R273). -/
def memOnly (l : Lane) : Except Stop Nat :=
  match l.who with
  | .mem n => .ok n
  | _ => illegal

/-- Faults unless a condition holds. -/
def require (b : Bool) (k : Kind) : Except Stop Unit := if b then .ok () else .error (.trap (trapOf k))

/-- Waits unless a condition holds. -/
def waitUnless (b : Bool) (h : Hold) : Except Stop Unit := if b then .ok () else .error (.wait h)

/-! ## The qualifier -/

/-- How a qualifier lets its instruction act (R153, R155). -/
inductive Act
  | always
  | lit (l : Lit)
  | never
  deriving DecidableEq, Repr

/-- A guard slot. -/
def slotOf (m : Member) (q : QSlot) : Slot := tget Slot.free m.grd.slots q.val

/-- A slot is open (R40). -/
def slotOpen (m : Member) (q : QSlot) : Bool := (slotOf m q).src.isSome

/-- Bit mask of the open slots (R45). -/
def openMask (m : Member) : Nat :=
  ((List.range 8).map fun n => if (tget Slot.free m.grd.slots n).src.isSome then 2 ^ n else 0).sum

/-- The qualifier of an instruction of a member, its slot open or free with its kept outcome (R153). -/
def memAct (m : Member) (h : Hd) : Act :=
  if h.gq then
    if slotOpen m h.qs then .lit (h.qs, !h.gn)
    else if (slotOf m h.qs).kept != h.gn then .always else .never
  else .always

/-- The qualifier as each agent takes it: an open slot is ILLEGAL in a handler (R159), any qualifier or
pop in a lookup core (R382). -/
def qualAct (s : State) (w : Who) (h : Hd) : Except Stop Act :=
  match w with
  | .mem n => .ok (memAct (mem s n) h)
  | .hnd n =>
    match memAct (mem s n) h with
    | .lit _ => illegal
    | a => .ok a
  | .lk _ => if h.gq || h.qp then illegal else .ok .always

/-- The literal of a split. -/
def actLit : Act → Option Lit
  | .lit l => some l
  | _ => none

/-! ## Scalar registers -/

/-- An s register of a member; s0 is zero (R31). -/
def sCell (m : Member) (r : SReg) : SCell :=
  if r.val = 0 then SCell.zero else tget SCell.zero m.regs.s r.val

/-- The member with an s register replaced; s0 is not written (R31). -/
def setCell (m : Member) (r : SReg) (c : SCell) : Member :=
  if r.val = 0 then m else { m with regs := { m.regs with s := tput SCell.zero m.regs.s r.val c } }

/-- A shadow register of the handler, s56 to s63 (R31). -/
def shadowOf (m : Member) (r : SReg) : Word := tget 0 m.regs.shadow (r.val - 56)

/-- The register of a lookup core; s0 is zero. -/
def lookupS (c : Lookup) (r : SReg) : Word := if r.val = 0 then 0 else tget 0 c.s r.val

/-- A register is pending for an agent (R26). -/
def sPending (s : State) (w : Who) (r : SReg) : Bool :=
  match w with
  | .mem n => (sCell (mem s n) r).pend.isSome
  | .hnd n => if r.val < 56 then (sCell (mem s n) r).pend.isSome else tget 0 (mem s n).regs.shp (r.val - 56) != 0
  | .lk n => r.val != 0 && tget 0 (lookupCore s n).sp r.val != 0

/-- Waits until none of the registers is pending (R26). -/
def needLanded (s : State) (w : Who) : List SReg → Except Stop Unit
  | [] => .ok ()
  | r :: rs => if sPending s w r then .error (.wait (.sPend r)) else needLanded s w rs

/-- A fixed-latency write to an s register is in flight (R27). -/
def sInFlight (fly : List SWrite) (r : SReg) : Option SWrite :=
  if r.val = 0 then none else fly.find? fun x => x.reg == r

/-- The fault HAZARD of R27; its status word names the writing instruction.
DEDUCED (log 25), unsafe. -/
def hazardTrap (writer : Nat) : Trap := { trapOf .hazard with status := writer % 2 ^ 32 }

/-- HAZARD of a read while a fixed-latency write of the register is in flight, where CHK_RAW asks for it (R27). A write of
the same group cycle is in flight for the columns whose queue code is higher.
DEDUCED (log 166), unsafe. -/
def rawCheck (m : Member) (fly : List SWrite) (r : SReg) : Except Stop Unit :=
  match (if m.spr.chkRaw then sInFlight fly r else none) with
  | some x => .error (.trap (hazardTrap x.addr))
  | none => .ok ()

/-- Reads an s register at issue, no pending value among those read (R25, R27, R31, R273). A handler meets the
writes of its group in flight as well as its own; the shadows are its own. -/
def readS (s : State) (w : Who) (r : SReg) : Except Stop (Alts Word) :=
  match w with
  | .mem n => do
    let m := mem s n
    rawCheck m (m.fly.sw ++ m.ui.fly.filter fun x => decide (x.reg.val < 56)) r
    .ok (sCell m r).alts
  | .hnd n => do
    let m := mem s n
    rawCheck m (if 56 ≤ r.val then m.ui.fly else m.ui.fly ++ m.fly.sw) r
    if 56 ≤ r.val then .ok (plain (shadowOf m r))
    else if (sCell m r).alts.length > 1 then illegal
    else .ok (sCell m r).alts
  | .lk n => .ok (plain (lookupS (lookupCore s n) r))

/-- A single value of an s register, waiting with REG_PEND or ALT_WAIT (R139, R168). -/
def readOne (s : State) (w : Who) (r : SReg) : Except Stop Word := do
  needLanded s w [r]
  let a ← readS s w r
  match single a with
  | some v => .ok v
  | none => .error (.wait (.sAlts r))

/-- The status word of BREADTH (R157). -/
def breadthTrap (m : Member) (n : Nat) : Trap := { trapOf .breadth with status := openMask m + n % 256 * 256 }

/-- Notes the breadth a register reaches (R157).
DEDUCED (log 28), unsafe. -/
def noteBreadth (m : Member) (n : Nat) : Member :=
  { m with grd := { m.grd with breadth := max m.grd.breadth n } }

/-- Of writes to one register that land together, the one that stands (R16). -/
def beatsS (x y : SWrite) : Bool := x.q.code < y.q.code || (x.q == y.q && y.seq < x.seq)

/-- The most alternatives that an s register comes to hold as the writes in flight to it and a new one land (R157). -/
def sBreadth (m : Member) (x : SWrite) : Nat :=
  let ws := m.fly.sw.filter (fun y => y.reg == x.reg) ++ [x]
  let ws := ws.filter fun y => !(ws.any fun z => z.due == y.due && beatsS z y)
  breadthOf (sCell m x.reg).alts ((sortBy (byKey SWrite.due) ws).map fun y => (y.res, y.lit, y.out))

/-- The same for a value of variable latency, which lands after them (R26). -/
def lateBreadth (m : Member) (d : SReg) (res : Alts Word) (lit : Option Lit) : Nat :=
  breadthOf (sCell m d).alts
    ((sortBy (byKey SWrite.due) (m.fly.sw.filter fun y => y.reg == d)).map (fun y => (y.res, y.lit, y.out)) ++ [(res, lit, [])])

/-- Schedules the fixed-latency write of an s register: it lands at the end of cycle issue + n - 1
(R25), split by the qualifier (R155); more than four alternatives are BREADTH (R157). -/
def writeS (s : State) (l : Lane) (d : SReg) (res : Alts Word) (lat : Nat) (lit : Option Lit) :
    Except Stop State :=
  let wr : SWrite := { reg := d, res := res, lit := lit, out := [], due := cycleOf s l.who + lat - 1,
                       q := l.q, seq := s.fresh, addr := l.ln.addr }
  let s' := { s with fresh := s.fresh + 1 }
  match l.who with
  | .mem n =>
    let m := mem s n
    let cnt := sBreadth m wr
    if cnt > 4 then .error (.trap (breadthTrap m cnt))
    else if d.val = 0 then .ok s'
    else .ok (setMem s' n (noteBreadth { m with fly := { m.fly with sw := m.fly.sw ++ [wr] } } cnt))
  | .hnd n =>
    let m := mem s n
    if d.val < 56 && (sCell m d).alts.length > 1 then illegal
    else if d.val = 0 then .ok s'
    else .ok (setMem s' n { m with ui := { m.ui with fly := m.ui.fly ++ [wr] } })
  | .lk n =>
    let c := lookupCore s n
    if d.val = 0 then .ok s' else .ok (setLookup s' n { c with fly := c.fly ++ [wr] })

/-! ## Source operands -/

/-- A scalar source: a register, the head of LDQ-C in field A (R228), or a literal. -/
inductive Opd
  | r (a : SReg)
  | pop
  | k (w : Word)
  deriving DecidableEq, Repr

/-- Field A of an instruction that may pop (R114). -/
def opA (h : Hd) (a : SReg) : Opd := if h.qp then .pop else .r a

/-- Second operand of format CR (R129). -/
def opB : Src2 → Opd
  | .reg b => .r b
  | .imm v => .k (v.signExtend 64)

/-- The registers among a list of sources. -/
def opdRegs : List Opd → List SReg
  | [] => []
  | .r a :: l => a :: opdRegs l
  | _ :: l => opdRegs l

/-- `Pop` of LDQ-C (R48, R50): the head, or a wait with LDQ_EMPTY or L_DRAIN. -/
def popC (s : State) (w : Who) : Except Stop (Alts Word × State) :=
  let n := whoSite s w
  let m := mem s n
  match m.l.ldqC with
  | [] => .error (.wait .ldqC)
  | g :: r => .ok (g, setMem s n { m with l := { m.l with ldqC := r } })

/-- Takes the pop that a source names. -/
def takePop (s : State) (w : Who) (ops : List Opd) : Except Stop (Alts Word × State) :=
  if ops.contains .pop then popC s w else .ok (plain 0, s)

/-- The alternatives of a source, the popped entry given. -/
def readOpd (s : State) (w : Who) (p : Alts Word) : Opd → Except Stop (Alts Word)
  | .r a => readS s w a
  | .pop => .ok p
  | .k v => .ok (plain v)

/-- The alternatives of every source, in operand order. -/
def readOpds (s : State) (w : Who) (p : Alts Word) : List Opd → Except Stop (List (Alts Word))
  | [] => .ok []
  | o :: os => do
    let a ← readOpd s w p o
    let r ← readOpds s w p os
    .ok (a :: r)

/-- Every scalar instruction that computes its destination from its sources (R129, R154, R155): pending
registers first, then the pop, then one result for each pairing. One whose qualifier is against it makes the pop and
does nothing else (R153). -/
def scalarOp (s : State) (l : Lane) (h : Hd) (d : SReg) (ops : List Opd) (lat : Nat)
    (f : List Word → Word) : Except Stop (State × Nat) := do
  let act ← qualAct s l.who h
  if act = .never then do
    let (_, s) ← takePop s l.who ops
    .ok (s, 1)
  else do
    needLanded s l.who (d :: opdRegs ops)
    let (p, s) ← takePop s l.who ops
    let srcs ← readOpds s l.who p ops
    let s ← writeS s l d (mapAlts f (pairAll srcs)) lat (actLit act)
    .ok (s, 1)

/-- A function of two sources. -/
def fn2 (f : Word → Word → Word) : List Word → Word
  | [a, b] => f a b
  | _ => 0

/-- A function of one source. -/
def fn1 (f : Word → Word) : List Word → Word
  | [a] => f a
  | _ => 0

/-- A function of three sources. -/
def fn3 (f : Word → Word → Word → Word) : List Word → Word
  | [a, b, c] => f a b c
  | _ => 0

/-- An instruction that reads single values and waits on open conditions (R139, R159, R39): `ALT_WAIT`
until its qualifier's slot has resolved and the registers named hold one alternative. -/
def waitClass (s : State) (w : Who) (h : Hd) (regs : List SReg) : Except Stop Bool := do
  let act ← qualAct s w h
  needLanded s w regs
  match act with
  | .lit l => .error (.wait (.litOpen l.1))
  | a => do
    match regs.find? (fun r => match readS s w r with | .ok x => (single x).isNone | .error _ => false) with
    | some r => .error (.wait (.sAlts r))
    | none => .ok (a != .never)

/-! ## Variable latency (R26) -/

/-- Marks an s register pending on a token, for the agent that issued its producer. -/
def markS (s : State) (w : Who) (d : SReg) (tok : Nat) : State :=
  match w with
  | .mem n => updMem s n fun m => setCell m d { sCell m d with pend := some tok }
  | .hnd n => updMem s n fun m =>
      if d.val < 56 then setCell m d { sCell m d with pend := some tok }
      else { m with regs := { m.regs with shp := tput 0 m.regs.shp (d.val - 56) (tok + 1) } }
  | .lk n =>
    let c := lookupCore s n
    if d.val = 0 then s else setLookup s n { c with sp := tput 0 c.sp d.val (tok + 1) }

/-- A value lands in every s register that waits for the token; one that lost its claim keeps its own. -/
def landTok (m : Member) (tok : Nat) (a : Alts Word) (lit : Option Lit) (out : List Lit) : Member :=
  { m with regs := { m.regs with
      s := tmap SCell.zero (fun c => if c.pend = some tok then { alts := landAlts c.alts a lit out, pend := none } else c) m.regs.s
      shadow := (m.regs.shp.filter fun p => p.2 == tok + 1).foldl (fun t p => tput 0 t p.1 ((single a).getD 0)) m.regs.shadow
      shp := m.regs.shp.filter fun p => p.2 != tok + 1 } }

/-- A handler may not write an s register, shared with its group, that holds several alternatives (R273). -/
def plainDest (s : State) (w : Who) (d : SReg) : Except Stop Unit :=
  match w with
  | .hnd n => require (decide (56 ≤ d.val) || decide ((sCell (mem s n) d).alts.length ≤ 1)) .illegal
  | _ => .ok ()

/-- The alternatives an s register comes to hold once a value of variable latency has landed; a handler's holds one
(R157, R159). -/
def lateCount (s : State) (w : Who) (d : SReg) (res : Alts Word) (lit : Option Lit) : Nat :=
  match w with
  | .mem n => lateBreadth (mem s n) d res lit
  | _ => 1

/-- A producer of variable latency issues: its destination is pending and the value is scheduled (R26).
DEDUCED (log 32), unsafe. -/
def schedule (s : State) (l : Lane) (d : SReg) (due : Nat) (v : LandVal) (lit : Option Lit) : State :=
  let tok := s.fresh
  let x : Land := { tok := tok, due := due, val := v, lit := lit, out := [], q := l.q, addr := l.ln.addr }
  let s := markS { s with fresh := tok + 1 } l.who d tok
  match l.who with
  | .mem n | .hnd n => updMem s n fun m => { m with fly := { m.fly with lands := m.fly.lands ++ [x] } }
  | .lk n => let c := lookupCore s n; setLookup s n { c with lands := c.lands ++ [x] }

/-! ## Held instructions (R159 to R162) -/

/-- An instruction whose update of a flag follows every L access of its own group cycle (R239). -/
def lastOfCycle : Instr → Bool
  | .fpost .. | .fset .. | .fdec .. | .barj .. => true
  | _ => false

/-- The place of an instruction in the order of capture: by group cycle, a flag update after the accesses of its
own cycle, and each place once (R239, R283). -/
def orderOf (m : Member) (i : Instr) : Nat := (2 * m.ctl.gc + bit (lastOfCycle i)) * 2 ^ 64 + m.ctl.seq

/-- What is captured of an instruction at its lane, operands still to be filled in. -/
def capAt (s : State) (l : Lane) (i : Instr) : Cap :=
  { ins := i, q := l.q, addr := l.ln.addr, seq := orderOf (mem s (whoSite s l.who)) i, ss := [], vs := [], msk := 0, hs := [],
    lit := none, out := [], tok := none,
    tag := { tagOf l.ln.rcd with iter := match l.ln.stack with
      | x :: _ => BitVec.ofNat 32 x.iter
      | [] => (tagOf l.ln.rcd).iter },
    tick := s.cal, slipped := false, known := false, taken := 0, since := none,
    clk := tget [] s.clocks (agentNo (whoSite s l.who) 0) }

/-- An instruction enters the held-store buffer; its destination is pending from its hold (R160, R162). While the
buffer is full an instruction of L stalls L's queue, and any other freezes the group. -/
def holdCap (s : State) (n : Nat) (w : Who) (c : Cap) (d : Option SReg) : Except Stop State := do
  if 16 ≤ (mem s n).grd.held.length then .error (if c.q = .l then .stall else .wait .heldFull) else .ok ()
  let c := match d with | some _ => { c with tok := some s.fresh } | none => c
  let s := match d with
    | some r => markS { s with fresh := s.fresh + 1 } w r s.fresh
    | none => s
  .ok (updMem s n fun m => count { m with grd := { m.grd with held := m.grd.held ++ [c] },
                                          ctl := { m.ctl with seq := m.ctl.seq + 1 } } 0x092)

/-- The alternatives of several registers. -/
def readRegs (s : State) (w : Who) : List SReg → Except Stop (List (Alts Word))
  | [] => .ok []
  | r :: rs => do
    let a ← readS s w r
    let l ← readRegs s w rs
    .ok (a :: l)

/-- The value of an operand that holds one alternative. -/
def valOf (a : Alts Word) : Word := (single a).getD 0

/-- An operand depends on an open slot (R159). -/
def splits {α : Type} (a : Alts α) : Bool := a.length > 1

/-- An instruction of the control column of the held class (R159, R161): its effect now, or its entry in
the held-store buffer. -/
def heldC (s : State) (l : Lane) (h : Hd) (i : Instr) (d : Option SReg) (regs : List SReg)
    (eff : State → Cap → List Word → Except Stop State) : Except Stop (State × Nat) := do
  let act ← qualAct s l.who h
  if act = .never then .ok (s, 1)
  else do
    needLanded s l.who (d.toList ++ regs)
    let a ← readRegs s l.who regs
    let c := { capAt s l i with ss := a.map .now, lit := actLit act }
    match l.who with
    | .lk _ => do
      let s ← eff s c (a.map valOf)
      .ok (s, 1)
    | .mem n | .hnd n =>
      if (actLit act).isSome ∨ a.any splits ∨ (mem s n).grd.held ≠ [] then do
        let s ← holdCap s n l.who c d
        .ok (s, 1)
      else do
        let s ← eff s c (a.map valOf)
        .ok (s, 1)

end Sys2Proof.Machine
end

