-- ==== Sys2Proof/Machine/Fetch.lean ====
section
/-! DEFINITION. The image of a launch (R103, R104), fetch of lines ahead of issue (R20, R106 to R111,
R136, R144) and control transfers. Addresses of a program are byte offsets in its image. -/

namespace Sys2Proof.Machine

open Sys2Proof

/-! ## The image -/

/-- A section of the image at a physical address: its offset, size and entry count (R103). -/
def sectOf (s : State) (pa type : Nat) : Option (Nat × Nat × Nat) :=
  ((List.range (numAt s.dmem (pa + 10) 2)).find? fun i => numAt s.dmem (pa + 64 + 16 * i) 4 == type).map fun i =>
    let d := pa + 64 + 16 * i
    (numAt s.dmem (d + 4) 4, numAt s.dmem (d + 8) 4, numAt s.dmem (d + 12) 4)

/-- Offsets at which TEXT begins and ends. -/
def textOf (s : State) (pa : Nat) : Nat × Nat :=
  match sectOf s pa 1 with
  | some (o, n, _) => (o, o + n)
  | none => (0, 0)

/-- Physical address of the image copy of the agent's launch. -/
def imgOf (s : State) (w : Who) : Nat := (bindOf s (whoSite s w)).image.toNat

/-- Kind of a level of the loop table: 0 temporal, 1 cores, 2 dies (R104). The table has as many entries as its
size holds, and of several entries of one level the first counts. -/
def levelKind (s : State) (pa : Nat) (lc : Nat) : Option Nat :=
  match sectOf s pa 3 with
  | none => none
  | some (o, n, _) =>
    ((List.range (n / 8)).find? fun i => numAt s.dmem (pa + o + 8 * i) 1 == lc).map fun i =>
      numAt s.dmem (pa + o + 8 * i + 1) 1 % 4

/-- Address of the RECORDS entry with an ID (R104, R146): the first of several, among as many as the section's
size holds, which is the model's choice.
DESIGN CHOICE (log 146), unsafe. -/
def recordAt (s : State) (pa id : Nat) : Option Nat :=
  match sectOf s pa 4 with
  | none => none
  | some (o, n, _) =>
    ((List.range (n / 64)).find? fun i => numAt s.dmem (pa + o + 64 * i) 2 == id).map fun i => pa + o + 64 * i

/-- Words of the line at an offset. -/
def lineAt (s : State) (pa off : Nat) : List Word32 :=
  (List.range 8).map fun i => BitVec.ofNat 32 (numAt s.dmem (pa + off + 4 * i) 4)

/-! ## Classes of lanes that fetch must know -/

/-- Hardware-loop instructions: level and body length in lines (R140). -/
def loopBody : Instr → Option (Fin 8 × Nat)
  | .loop _ lc _ len | .loopn _ lc _ len | .loopc _ lc _ len | .loopd _ lc _ len => some (lc, len.toNat + 1)
  | _ => none

/-- A `halt`. -/
def isHalt : Instr → Bool
  | .halt .. => true
  | _ => false

/-- Fetch holds after the line of a `halt` or an `lrec` (R146, R266). -/
def stopsFetch : Instr → Bool
  | .halt .. | .lrec .. => true
  | _ => false

/-- L's queues that an instruction enters (R219, R239, R283): load queue, store queue. -/
def lQueues : Instr → Bool × Bool
  | .sld .. | .vld .. | .vldx .. | .pf .. => (true, false)
  | .sst .. | .vst .. | .vstx .. | .zfill .. | .pin .. | .unpin .. | .tfill .. | .rst .. => (false, true)
  | .mark .. | .fence .. | .atom .. | .cas .. | .tdrain .. => (true, true)
  | .fpost .. | .fset .. | .fdec .. | .barj .. => (true, true)
  | .amass .. => (true, true)
  | _ => (false, false)

/-- Stream that a command pushed from a lane enters; a `link` is not queued (R245, R253). -/
def pushTo (i : Instr) : Option (Fin 4) :=
  match i with
  | .link .. => none
  | i => (eform i).map fun f => f.e.eng

/-- A lane moves the reference point of a column when it issues (R244). -/
def idleTarget : Instr → Option Queue
  | .idleColumn _ _ col => match col.toNat with | 1 => some .v | 2 => some .x | _ => some .m
  | _ => none

/-! ## Lines -/

/-- Queues that a fetching agent has (R128, R273). -/
def queueOk (w : Who) (q : Queue) : Option Reject :=
  match w with
  | .hnd _ => if q = .c then none else some .unassigned
  | .mem _ | .lk _ => none

/-- A line raises LINE_FORMAT: its encoding, a transfer that does not land on a block, or a queue that a lookup
core has not (R110, R128). -/
def lineFaulty (w : Who) (f : Fetch) (ws : List Word32) : Bool :=
  lineBad ws || (f.needBlk && !lineBlk (ws.getD 0 0)) ||
  (match w with | .lk _ => (lineIns ws).any fun li => li.q != .c | _ => false)

/-- What fetch makes of a line: its lanes with the loops and record at that point, first in its agent's
form, a line-format fault marked on every lane of a faulty line (R110, R111).
DEDUCED (log 23), unsafe. -/
def lineLanes (w : Who) (f : Fetch) (cyc off : Nat) (ws : List Word32) : List QLane :=
  let bad := lineFaulty w f ws
  (lineIns ws).map fun li =>
    let r : Option Reject := match f.fmt, bad with
      | some _, _ => some .lineFormat
      | none, true => some .lineFormat
      | none, false => match queueOk w li.q with
        | some r => some r
        | none => match li.ins with | .ok _ => none | .error r => some r
    { q := li.q, ins := (match r, li.ins with | none, .ok i => some i | _, _ => none), bad := r,
      addr := off + 4 * li.lane, pres := max f.pres cyc, stack := f.stack, rcd := f.rcd,
      inst := f.count, faddr := f.fmt.getD off, idle := bits (ws.getD li.lane 0).toNat 31 28, out := false }

/-- Fetch after a line is fetched: the loop level its loop instruction will activate stands with no
count yet, and fetch holds after a `halt` or `lrec`. The fault of a line without instructions waits for the first later
line that has lanes.
DEDUCED (log 168), unsafe. -/
def pushLine (w : Who) (f : Fetch) (cyc off : Nat) (ws : List Word32) : Fetch :=
  let ls := lineLanes w f cyc off ws
  let bad := lineFaulty w f ws
  let ins := ls.filterMap fun l => if l.q = .c then l.ins else none
  let stack := match ins.findSome? loopBody with
    | some (lc, n) =>
      { lc := lc, kind := 0, first := off + 32, last := off + 32 * n, iter := 0, left := none, stride := 1,
        inner := (match f.rcd with | some r => r.phase == .ker | none => false) } :: f.stack
    | none => f.stack
  { f with lanes := f.lanes ++ ls, stack := stack, line := some off, pc := off + 32,
           stop := ins.any stopsFetch, needBlk := false, count := f.count + 1,
           fmt := if ls = [] ∧ bad then some (f.fmt.getD off) else if ls = [] then f.fmt else none }

/-- The fall-through after a line: active levels that end on it take their back edge, innermost first,
or become inactive (R144). None while the count of a level is not known yet. -/
def fallThrough (off : Nat) : Nat → List Level → Option (Nat × List Level × Bool)
  | 0, st => some (off + 32, st, false)
  | k + 1, st =>
    match st.find? (fun l => l.last == off) with
    | none => some (off + 32, st, false)
    | some l =>
      match l.left with
      | none => none
      | some 0 => fallThrough off k (st.filter fun x => x.lc != l.lc)
      | some (j + 1) =>
        some (l.first, st.map fun x => if x.lc = l.lc then { x with left := some j, iter := x.iter + x.stride } else x, true)

/-- Last line of the extent a running record is in (R146). -/
def extentOf (r : RecRun) : Nat × Nat :=
  match r.phase with
  | .pro => r.pro | .ker => r.ker | .epi => r.epi | .save => r.save | .restore => r.restore

/-- Two records stand in one phase, and in one iteration of the kernel. -/
def samePhase (a b : RecRun) : Bool := a.phase == b.phase && a.j == b.j

/-- The phase or kernel iteration after one: the kernel runs n + STAGES - 1 times (R146). -/
def nextStep (r : RecRun) : RecRun :=
  let r := { r with yieldAsked := false, fin := 0, zero := 0, loopBad := false }
  match r.phase with
  | .pro => { r with phase := .ker, j := 0 }
  | _ => if r.j + 1 < r.n + r.stages - 1 then { r with j := r.j + 1 } else { r with phase := .epi }

/-- The phase of a record that a member is in. -/
def runRcd (m : Member) : Option RecRun := m.ctl.fetch.steps.head?

/-- Fetch steps from a prologue or a kernel iteration to what follows it, which costs no group cycle (R146); a loop
of the iteration that is still active is noted for its boundary (R149). -/
def stepRecord (f : Fetch) (r : RecRun) (st : List Level) : Fetch :=
  let bad := r.phase == .ker && st.any Level.inner
  let x := nextStep r
  { f with rcd := some x, steps := f.steps.map (fun y => if samePhase y r then { y with loopBad := bad } else y) ++ [x],
           pc := (extentOf x).1, stack := st, line := none, needBlk := true }

/-- Fetch with the fall-through of its last line decided; none while a loop count is open, or where the
line ends the extent of an epilogue or of a SAVE or RESTORE block, whose boundary decides (R146, R412, R414).
DEDUCED (log 134), unsafe. -/
def settle (f : Fetch) : Option Fetch :=
  match f.line with
  | none => some f
  | some a =>
    match fallThrough a 8 f.stack with
    | none => none
    | some (pc, st, back) =>
      match (if back then none else f.rcd.filter fun r => (extentOf r).2 == a) with
      | none => some { f with pc := pc, stack := st, needBlk := back, line := none }
      | some r => match r.phase with
        | .pro | .ker => some (stepRecord f r st)
        | _ => none

/-- How many fetched lanes fetch runs ahead with, whether or not a later lane is due.
DESIGN CHOICE (log 22), unsafe. -/
def fetchAhead : Nat := 56

/-! ## Room in the queues (R220, R245) -/

/-- Entries of L's queues that fetched lanes will take. -/
def reserved (lanes : List QLane) (pick : Bool × Bool → Bool) : Nat :=
  lanes.countP fun l => match l.ins with | some i => pick (lQueues i) | none => false

/-- Commands that fetched lanes will push to a stream. -/
def reservedE (lanes : List QLane) (e : Fin 4) : Nat :=
  lanes.countP fun l => match l.ins with | some i => pushTo i == some e | none => false

/-- A stream of a member. -/
def streamOf (m : Member) (e : Fin 4) : Stream := tget Stream.t0 m.eng e.val

/-- Every L entry and command of the lanes finds room beside those given to the lines present, of the group and of the
handler (R220, R245). -/
def roomFor (m : Member) (lanes : List QLane) : Bool :=
  let all := m.ctl.fetch.lanes ++ m.ui.fetch.lanes ++ lanes
  (reserved lanes Prod.fst == 0 || m.l.lq.length + reserved all Prod.fst ≤ 32) &&
  (reserved lanes Prod.snd == 0 || m.l.sq.length + reserved all Prod.snd ≤ 32) &&
  [0, 1, 2, 3].all fun e =>
    reservedE lanes e == 0 || (streamOf m e).queue.length + reservedE all e ≤ 16

/-! ## Issue cycles -/


/-- The place of a lane in the order of fetch: its line, and its number in the line. -/
def lanePos (l : QLane) : Nat := 8 * l.inst + l.addr / 4 % 8

/-- An unissued `idle` form of a lane's column stands before it, in an earlier line or further ahead in its own.
DEDUCED (log 7), unsafe. -/
def idleBefore (lanes : List QLane) (l : QLane) : Bool :=
  lanes.any fun x => x.q == .c && decide (lanePos x < lanePos l) &&
    (match x.ins with | some i => idleTarget i == some l.q | none => false)

/-- The reference point of a queue for a lane, with the `idle` forms before it that issued in this group cycle
(R19, R244). -/
def refFor (m : Member) (l : QLane) : Nat :=
  m.ctl.raised.foldl (fun a r => if r.1 = l.q.code ∧ r.2.2 < lanePos l then max a r.2.1 else a) (tget 0 m.ctl.refs l.q.code)

/-- The cycle in which the head lane of a queue issues, unless something holds it (R19, R20). -/
def dueCycle (ref : Nat) (l : QLane) : Nat := max (ref + l.idle) l.pres

/-- The group cycle in which the lane that stands for the address after TEXT raises its fault: the one after the
greatest issue plus occupancy among the lockstep lanes of TEXT's last line; none while one of them is still to issue
(R137), or while a `halt` in the held-store buffer may still end the program (R161, R266). Where that line has no
lockstep lane, its column's reference point counts.
DEDUCED (log 24), unsafe. -/
def tailCycle (m : Member) (l : QLane) : Option Nat :=
  let f := m.ctl.fetch
  if (f.lanes.any fun x => lockQueue x.q && x.inst + 1 == l.inst && !x.out) || m.grd.held.any fun c => isHalt c.ins then none
  else if f.tail.1 + 1 = l.inst then some (f.tail.2 + 1)
  else some (dueCycle (refFor m l) l)

/-- A lane that heads its queue is due in the group cycle of its member. -/
def laneDue (m : Member) (lanes : List QLane) (l : QLane) : Bool :=
  if l.out then (match tailCycle m l with | some t => decide (t ≤ m.ctl.gc) | none => false)
  else decide (dueCycle (refFor m l) l ≤ m.ctl.gc) && !idleBefore lanes l

/-- The head lane of a queue of a member, due in its group cycle. -/
def dueLane (m : Member) (q : Queue) : Option QLane :=
  (m.ctl.fetch.lanes.find? fun l => l.q == q).filter (laneDue m m.ctl.fetch.lanes)

/-- Among lanes still to be fetched one is due in this cycle, its queue empty (R22 cause FETCH). -/
def nextLineDue (m : Member) (lanes : List QLane) : Bool :=
  [Queue.c, .v, .x, .m, .l, .e].any fun q =>
    !(m.ctl.fetch.lanes.any fun l => l.q == q) &&
    ((lanes.find? fun l => l.q == q).map (laneDue m (m.ctl.fetch.lanes ++ lanes))).getD false

/-! ## Transfers -/

/-- The steps of a record that stay when a transfer discards those after its own; a new record begins with its
first (R146). -/
def stepsTo (rcd : Option RecRun) (steps : List RecRun) : List RecRun :=
  match rcd with
  | none => []
  | some r => match steps.find? (samePhase r) with
    | some x => steps.takeWhile (fun y => !samePhase r y) ++ [{ x with loopBad := false }]
    | none => [r]

/-- A control transfer (R136): lanes of later lines are discarded, the target's lines are present six
cycles after the issue (R20), and it must begin a block (R110). -/
def transferTo (f : Fetch) (l : QLane) (cyc target : Nat) (stack : List Level) (rcd : Option RecRun) : Fetch :=
  { f with lanes := f.lanes.filter (fun x => x.inst ≤ l.inst), pc := target, pres := cyc + 6, stack := stack,
           rcd := rcd, line := none, stop := false, needBlk := true, fmt := none, steps := stepsTo rcd f.steps }

/-- The fetch state of an agent. -/
def fetchOf (s : State) : Who → Fetch
  | .mem n => (mem s n).ctl.fetch
  | .hnd n => (mem s n).ui.fetch
  | .lk n => (lookupCore s n).fetch

/-- The state with an agent's fetch state replaced. -/
def setFetch (s : State) (w : Who) (f : Fetch) : State :=
  match w with
  | .mem n => updMem s n fun m => { m with ctl := { m.ctl with fetch := f } }
  | .hnd n => updMem s n fun m => { m with ui := { m.ui with fetch := f } }
  | .lk n => setLookup s n { lookupCore s n with fetch := f }

/-- Fetch goes on past an instruction at whose line it held and which has no effect. -/
def resumeFetch (s : State) (w : Who) : State := setFetch s w { fetchOf s w with stop := false }

/-- A lane's line. -/
def lineOf (l : QLane) : Nat := l.addr / 32 * 32

/-- A transfer out of the extent of a running record's phase is ILLEGAL (R149). -/
def inExtent (l : QLane) (target : Nat) : Bool :=
  match l.rcd with
  | none => true
  | some r => (extentOf r).1 ≤ target && target ≤ (extentOf r).2

/-- The agent transfers control to a target line. -/
def jumpTo (s : State) (l : Lane) (target : Nat) (stack : List Level) : Except Stop State := do
  require (inExtent l.ln target) .illegal
  .ok (setFetch s l.who (transferTo (fetchOf s l.who) l.ln (cycleOf s l.who) target stack l.ln.rcd))

/-- A level's count becomes known at its loop's issue: in the fetch state and in the lanes fetched
after it. -/
def fillLevel (lc : Fin 8) (kind iter stride left : Nat) (st : List Level) : List Level :=
  st.map fun x => if x.lc = lc ∧ x.left = none then { x with kind := kind, iter := iter, stride := stride, left := some left } else x

/-- The loop becomes active (R141). -/
def activate (f : Fetch) (l : QLane) (lc : Fin 8) (kind iter stride left : Nat) : Fetch :=
  { f with stack := fillLevel lc kind iter stride left f.stack,
           lanes := f.lanes.map fun x => if l.inst < x.inst then { x with stack := fillLevel lc kind iter stride left x.stack } else x }

end Sys2Proof.Machine
end

