-- ==== Sys2Proof/Machine/Scalar.lean ====
section
/-! DEFINITION. Scalar integer instructions of the control column (R129 to R135). -/

namespace Sys2Proof.Machine

open Sys2Proof

/-! ## The functions of R130 to R134 -/

/-- High half of the signed product. -/
def mulHigh (a b : Word) : Word := ((a.signExtend 128 * b.signExtend 128) >>> 64).setWidth 64

/-- High half of the unsigned product. -/
def mulHighN (a b : Word) : Word := ((a.setWidth 128 * b.setWidth 128) >>> 64).setWidth 64

/-- Signed division, truncated; -1 for a zero divisor (R131). -/
def divS (a b : Word) : Word := if b = 0 then BitVec.allOnes 64 else a.sdiv b

/-- Unsigned division; all ones for a zero divisor (R131). -/
def divU (a b : Word) : Word := if b = 0 then BitVec.allOnes 64 else a / b

/-- Signed remainder with the sign of the dividend; the dividend for a zero divisor (R131). -/
def remS (a b : Word) : Word := if b = 0 then a else a.srem b

/-- Unsigned remainder; the dividend for a zero divisor (R131). -/
def remU (a b : Word) : Word := if b = 0 then a else a % b

/-- Shift amount: b[5:0] (R130). -/
def shamt (b : Word) : Nat := b.toNat % 64

/-- Count of leading zero bits. -/
def countLz (a : Word) : Word := if a = 0 then 64 else BitVec.ofNat 64 (63 - Nat.log2 a.toNat)

/-- Count of trailing zero bits. -/
def countTz (a : Word) : Word := if a = 0 then 64 else BitVec.ofNat 64 (Nat.log2 (a &&& -a).toNat)

/-- Count of one bits. -/
def countOnes (a : Word) : Word := BitVec.ofNat 64 ((List.range 64).countP fun i => a.getLsbD i)

/-- a[w-1:0] sign-extended. -/
def sextTo (w : Nat) (a : Word) : Word := (a.setWidth w).signExtend 64

/-- a[w-1:0] zero-extended. -/
def zextTo (w : Nat) (a : Word) : Word := (a.setWidth w).setWidth 64

/-- Mask of a bit field (R132). -/
def fieldMask (p n : Nat) : Word := (BitVec.ofNat 64 (2 ^ n - 1)) <<< p

/-- `bfi` of R132. -/
def insertField (p n : Nat) (d a : Word) : Word := (d &&& ~~~(fieldMask p n)) ||| ((a <<< p) &&& fieldMask p n)

/-- `bfx` of R132. -/
def extractField (p n : Nat) (a : Word) : Word := (a >>> p) &&& fieldMask 0 n

/-- Condition of `cmp` (R118, R133): eq, ne, lt, ge, ltn, gen. -/
def cmpHolds (cc : BitVec 4) (a b : Word) : Bool :=
  match cc.toNat with
  | 0 => a == b
  | 1 => a != b
  | 2 => a.slt b
  | 3 => !a.slt b
  | 4 => a.ult b
  | _ => !a.ult b

/-- What `crd` writes for a physical position (R135). -/
def crdWord (row col : BitVec 4) : Word :=
  BitVec.ofNat 64 (dieOf (16 * row.toNat + col.toNat) * 2 ^ 16 + row.toNat * 2 ^ 8 + col.toNat)

/-! ## The instructions -/

/-- `add` (R130). -/
def execAdd (h : Hd) (d a : SReg) (b : Src2) (s : State) :
    Host.Outcome State Fault Refusal :=
  lockstep s fun l => scalarOp s l h d [opA h a, opB b] 1 (fn2 fun x y => x + y)

/-- `sub` (R130). -/
def execSub (h : Hd) (d a : SReg) (b : Src2) (s : State) :
    Host.Outcome State Fault Refusal :=
  lockstep s fun l => scalarOp s l h d [opA h a, opB b] 1 (fn2 fun x y => x - y)

/-- `mul` (R130). -/
def execMul (h : Hd) (d a : SReg) (b : Src2) (s : State) :
    Host.Outcome State Fault Refusal :=
  lockstep s fun l => scalarOp s l h d [opA h a, opB b] 3 (fn2 fun x y => x * y)

/-- `mulh` (R130). -/
def execMulh (h : Hd) (d a : SReg) (b : Src2) (s : State) :
    Host.Outcome State Fault Refusal :=
  lockstep s fun l => scalarOp s l h d [opA h a, opB b] 3 (fn2 fun x y => mulHigh x y)

/-- `mulhn` (R130). -/
def execMulhn (h : Hd) (d a : SReg) (b : Src2) (s : State) :
    Host.Outcome State Fault Refusal :=
  lockstep s fun l => scalarOp s l h d [opA h a, opB b] 3 (fn2 fun x y => mulHighN x y)

/-- `div` (R130). -/
def execDiv (h : Hd) (d a : SReg) (b : Src2) (s : State) :
    Host.Outcome State Fault Refusal :=
  lockstep s fun l => scalarOp s l h d [opA h a, opB b] 18 (fn2 fun x y => divS x y)

/-- `divn` (R130). -/
def execDivn (h : Hd) (d a : SReg) (b : Src2) (s : State) :
    Host.Outcome State Fault Refusal :=
  lockstep s fun l => scalarOp s l h d [opA h a, opB b] 18 (fn2 fun x y => divU x y)

/-- `rem` (R130). -/
def execRem (h : Hd) (d a : SReg) (b : Src2) (s : State) :
    Host.Outcome State Fault Refusal :=
  lockstep s fun l => scalarOp s l h d [opA h a, opB b] 18 (fn2 fun x y => remS x y)

/-- `remn` (R130). -/
def execRemn (h : Hd) (d a : SReg) (b : Src2) (s : State) :
    Host.Outcome State Fault Refusal :=
  lockstep s fun l => scalarOp s l h d [opA h a, opB b] 18 (fn2 fun x y => remU x y)

/-- `and` (R130). -/
def execAnd (h : Hd) (d a : SReg) (b : Src2) (s : State) :
    Host.Outcome State Fault Refusal :=
  lockstep s fun l => scalarOp s l h d [opA h a, opB b] 1 (fn2 fun x y => x &&& y)

/-- `or` (R130). -/
def execOr (h : Hd) (d a : SReg) (b : Src2) (s : State) :
    Host.Outcome State Fault Refusal :=
  lockstep s fun l => scalarOp s l h d [opA h a, opB b] 1 (fn2 fun x y => x ||| y)

/-- `xor` (R130). -/
def execXor (h : Hd) (d a : SReg) (b : Src2) (s : State) :
    Host.Outcome State Fault Refusal :=
  lockstep s fun l => scalarOp s l h d [opA h a, opB b] 1 (fn2 fun x y => x ^^^ y)

/-- `andn` (R130). -/
def execAndn (h : Hd) (d a : SReg) (b : Src2) (s : State) :
    Host.Outcome State Fault Refusal :=
  lockstep s fun l => scalarOp s l h d [opA h a, opB b] 1 (fn2 fun x y => x &&& ~~~y)

/-- `shl` (R130). -/
def execShl (h : Hd) (d a : SReg) (b : Src2) (s : State) :
    Host.Outcome State Fault Refusal :=
  lockstep s fun l => scalarOp s l h d [opA h a, opB b] 1 (fn2 fun x y => x <<< shamt y)

/-- `shr` (R130). -/
def execShr (h : Hd) (d a : SReg) (b : Src2) (s : State) :
    Host.Outcome State Fault Refusal :=
  lockstep s fun l => scalarOp s l h d [opA h a, opB b] 1 (fn2 fun x y => x >>> shamt y)

/-- `sra` (R130). -/
def execSra (h : Hd) (d a : SReg) (b : Src2) (s : State) :
    Host.Outcome State Fault Refusal :=
  lockstep s fun l => scalarOp s l h d [opA h a, opB b] 1 (fn2 fun x y => x.sshiftRight (shamt y))

/-- `rol` (R130). -/
def execRol (h : Hd) (d a : SReg) (b : Src2) (s : State) :
    Host.Outcome State Fault Refusal :=
  lockstep s fun l => scalarOp s l h d [opA h a, opB b] 1 (fn2 fun x y => x.rotateLeft (shamt y))

/-- `min` (R130). -/
def execMin (h : Hd) (d a : SReg) (b : Src2) (s : State) :
    Host.Outcome State Fault Refusal :=
  lockstep s fun l => scalarOp s l h d [opA h a, opB b] 1 (fn2 fun x y => if x.slt y then x else y)

/-- `max` (R130). -/
def execMax (h : Hd) (d a : SReg) (b : Src2) (s : State) :
    Host.Outcome State Fault Refusal :=
  lockstep s fun l => scalarOp s l h d [opA h a, opB b] 1 (fn2 fun x y => if x.slt y then y else x)

/-- `minn` (R130). -/
def execMinn (h : Hd) (d a : SReg) (b : Src2) (s : State) :
    Host.Outcome State Fault Refusal :=
  lockstep s fun l => scalarOp s l h d [opA h a, opB b] 1 (fn2 fun x y => if x.ult y then x else y)

/-- `maxn` (R130). -/
def execMaxn (h : Hd) (d a : SReg) (b : Src2) (s : State) :
    Host.Outcome State Fault Refusal :=
  lockstep s fun l => scalarOp s l h d [opA h a, opB b] 1 (fn2 fun x y => if x.ult y then y else x)

/-- `clz` (R130). -/
def execClz (h : Hd) (d a : SReg) (s : State) : Host.Outcome State Fault Refusal :=
  lockstep s fun l => scalarOp s l h d [opA h a] 1 (fn1 countLz)

/-- `ctz` (R130). -/
def execCtz (h : Hd) (d a : SReg) (s : State) : Host.Outcome State Fault Refusal :=
  lockstep s fun l => scalarOp s l h d [opA h a] 1 (fn1 countTz)

/-- `popc` (R130). -/
def execPopc (h : Hd) (d a : SReg) (s : State) : Host.Outcome State Fault Refusal :=
  lockstep s fun l => scalarOp s l h d [opA h a] 1 (fn1 countOnes)

/-- `sext` (R130). -/
def execSext (h : Hd) (d a : SReg) (w : BitVec 33) (s : State) : Host.Outcome State Fault Refusal :=
  lockstep s fun l => scalarOp s l h d [opA h a] 1 (fn1 (sextTo w.toNat))

/-- `zext` (R130). -/
def execZext (h : Hd) (d a : SReg) (w : BitVec 33) (s : State) : Host.Outcome State Fault Refusal :=
  lockstep s fun l => scalarOp s l h d [opA h a] 1 (fn1 (zextTo w.toNat))

/-- `bfx` (R132). -/
def execBfx (h : Hd) (d a : SReg) (p : BitVec 6) (n : BitVec 7) (s : State) : Host.Outcome State Fault Refusal :=
  lockstep s fun l => scalarOp s l h d [opA h a] 1 (fn1 (extractField p.toNat n.toNat))

/-- `bfi` (R132): s[D] is a source, before s[A]. -/
def execBfi (h : Hd) (d a : SReg) (p : BitVec 6) (n : BitVec 7) (s : State) : Host.Outcome State Fault Refusal :=
  lockstep s fun l => scalarOp s l h d [.r d, opA h a] 1 (fn2 (insertField p.toNat n.toNat))

/-- `cmp` (R133). -/
def execCmp (h : Hd) (d a b : SReg) (cc : BitVec 4) (s : State) : Host.Outcome State Fault Refusal :=
  lockstep s fun l => scalarOp s l h d [opA h a, .r b] 1 (fn2 fun x y => if cmpHolds cc x y then 1 else 0)

/-- `sel` (R133): pairs A, B, then Y. -/
def execSel (h : Hd) (d a b y : SReg) (s : State) : Host.Outcome State Fault Refusal :=
  lockstep s fun l => scalarOp s l h d [opA h a, .r b, .r y] 1 (fn3 fun x z c => if c ≠ 0 then x else z)

/-- `li` (R134). -/
def execLi (h : Hd) (d : SReg) (imm : BitVec 39) (s : State) : Host.Outcome State Fault Refusal :=
  lockstep s fun l => scalarOp s l h d [.k (imm.signExtend 64)] 1 (fn1 id)

/-- `lih` (R134): s[D] is a source. -/
def execLih (h : Hd) (d : SReg) (imm : BitVec 32) (s : State) : Host.Outcome State Fault Refusal :=
  lockstep s fun l => scalarOp s l h d [.r d] 1 (fn1 fun x => imm ++ x.setWidth 32)

/-- A move of LDQ-C binds its destination: the queue is empty, or its head holds a poison that its access wrote,
which then stands in the destination as it would have had it landed there (R50, R164, R23). -/
def bindsC (m : Member) : Bool :=
  match m.l.ldqC with
  | [] => true
  | g :: _ => holdsOwn g

/-- Binds s[D] to the entry of LDQ-C still to come, or to the head (R50); at most 16 bindings are outstanding. -/
def bindC (s : State) (l : Lane) (n : Nat) (d : SReg) : Except Stop (State × Nat) := do
  let m := mem s n
  match m.l.ldqC with
  | g :: r =>
    let x : Land := { tok := s.fresh, due := s.cal, val := .s g, lit := none, out := [], q := l.q, addr := l.ln.addr }
    let m := setCell m d { sCell m d with pend := some s.fresh }
    .ok (setMem { s with fresh := s.fresh + 1 } n
      { m with l := { m.l with ldqC := r }, fly := { m.fly with lands := m.fly.lands ++ [x] } }, 1)
  | [] => do
    waitUnless (decide (m.l.bindC.length < 16)) .bindC
    let m := setCell m d { sCell m d with pend := some s.fresh }
    .ok (setMem { s with fresh := s.fresh + 1 } n { m with l := { m.l with bindC := m.l.bindC ++ [(s.fresh, l.ln.addr)] } }, 1)

/-- `mov` (R134); of LDQ-C with nothing in the queue it binds instead of waiting, when it replaces its
destination whole (R50).
DEDUCED (log 8), unsafe. -/
def execMov (h : Hd) (d a : SReg) (s : State) : Host.Outcome State Fault Refusal :=
  lockstep s fun l =>
    match l.who with
    | .mem n =>
      if h.qp ∧ memAct (mem s n) h = .always ∧ bindsC (mem s n) then do
        needLanded s l.who [d]
        bindC s l n d
      else scalarOp s l h d [opA h a] 1 (fn1 id)
    | _ => scalarOp s l h d [opA h a] 1 (fn1 id)

/-- `lea` (R134). -/
def execLea (h : Hd) (d a b : SReg) (p : BitVec 6) (s : State) : Host.Outcome State Fault Refusal :=
  lockstep s fun l => scalarOp s l h d [opA h a, .r b] 1 (fn2 fun x y => x + (y <<< p.toNat))

/-- `crd` (R135): the relocated fields hold a physical position; the instruction is no lookup
instruction (R127). -/
def execCrd (h : Hd) (d : SReg) (row col : BitVec 4) (s : State) : Host.Outcome State Fault Refusal :=
  lockstep s fun l => scalarOp s l h d [.k (crdWord row col)] 1 (fn1 id)

end Sys2Proof.Machine
end

