-- ==== Sys2Proof/Machine/Control.lean ====
section
/-! DEFINITION. Control transfers, hardware loops, stage predicates, and the timing instructions
(R136 to R145, R148, R243, R244, R264). -/

namespace Sys2Proof.Machine

open Sys2Proof

/-! ## Transfers -/

/-- Target of an offset form: the transfer's line plus 32 times the offset (R137). -/
def offTarget (l : QLane) (off : Int) : Nat := ((lineOf l : Int) + 32 * off).toNat

/-- Target of `jmpi` and `ret`: aligned and inside TEXT, else ILLEGAL (R137). -/
def regTarget (s : State) (w : Who) (v : Word) : Except Stop Nat := do
  let t := textOf s (imgOf s w)
  require (decide (v.toNat % 32 = 0 ∧ t.1 ≤ v.toNat ∧ v.toNat < t.2)) .illegal
  .ok v.toNat

/-- `br` (R137, R139). -/
def execBr (h : Hd) (z : Bool) (a : SReg) (off : BitVec 39) (s : State) : Host.Outcome State Fault Refusal :=
  lockstep s fun l => do
    let act ← waitClass s l.who h [a]
    if act then
      let v ← readOne s l.who a
      if (v == 0) == z then
        let s ← jumpTo s l (offTarget l.ln off.toInt) l.ln.stack
        .ok (s, 1)
      else .ok (s, 1)
    else .ok (s, 1)

/-- `jmp` (R137). -/
def execJmp (h : Hd) (off : BitVec 46) (s : State) : Host.Outcome State Fault Refusal :=
  lockstep s fun l => do
    let act ← waitClass s l.who h []
    if act then
      let s ← jumpTo s l (offTarget l.ln off.toInt) l.ln.stack
      .ok (s, 1)
    else .ok (s, 1)

/-- Transfer to the address in a register (R137). -/
def jumpReg (h : Hd) (a : SReg) (s : State) : Host.Outcome State Fault Refusal :=
  lockstep s fun l => do
    let act ← waitClass s l.who h [a]
    if act then
      let v ← readOne s l.who a
      let t ← regTarget s l.who v
      let s ← jumpTo s l t l.ln.stack
      .ok (s, 1)
    else .ok (s, 1)

/-- `jmpi` (R137). -/
def execJmpi (h : Hd) (a : SReg) (s : State) : Host.Outcome State Fault Refusal := jumpReg h a s

/-- `ret` (R137). -/
def execRet (h : Hd) (a : SReg) (s : State) : Host.Outcome State Fault Refusal := jumpReg h a s

/-- `call` (R137, R139): nothing is written when its qualifier is false. -/
def execCall (h : Hd) (d : SReg) (off : BitVec 39) (s : State) : Host.Outcome State Fault Refusal :=
  lockstep s fun l => do
    let act ← waitClass s l.who h []
    if act then
      needLanded s l.who [d]
      let s ← writeS s l d (plain (BitVec.ofNat 64 (lineOf l.ln + 32))) 1 none
      let s ← jumpTo s l (offTarget l.ln off.toInt) l.ln.stack
      .ok (s, 1)
    else .ok (s, 1)

/-! ## Hardware loops -/

/-- The members of a site's launch in member order (R143). -/
def gangOf (s : State) (site : Nat) : List Nat :=
  match findLaunch s (bindOf s site).launch with
  | some l => l.sites
  | none => [site]

/-- Rank of a number in a list. -/
def rankIn (x : Nat) (l : List Nat) : Nat := l.findIdx (fun y => y == x)

/-- Iterations of a loop of trip count T that fall to a member: count, first index, stride (R141, R143). -/
def spread (s : State) (site kind : Nat) (inDies : Bool) (t : Nat) : Nat × Nat × Nat :=
  let gang := gangOf s site
  let mine := gang.filter fun n => dieOf n == dieOf site
  let (g, m) :=
    if kind = 1 then
      (if inDies then (mine.length, rankIn site mine) else (gang.length, rankIn site gang))
    else if kind = 2 then
      let dies := [0, 1, 2, 3].filter fun d => gang.any fun n => dieOf n == d
      (dies.length, rankIn (dieOf site) dies)
    else (1, 0)
  ((t + g - 1 - m) / g, m, g)

/-- Levels active for a lane: hardware loops and the running record's (R140, R146). -/
def levelActive (l : QLane) (lc : Fin 8) : Bool :=
  l.stack.any (fun x => x.lc == lc) || (match l.rcd with | some r => r.level == lc | none => false)

/-- A level of a kind is active for a lane. -/
def kindActive (l : QLane) (k : Nat) : Bool :=
  l.stack.any (fun x => x.kind == k) || (match l.rcd with | some r => r.kind == k | none => false)

/-- The rules of R140 on the level of a loop instruction or record. -/
def levelRules (s : State) (l : Lane) (lc : Fin 8) (kind : Nat) : Bool :=
  (match l.who with
   | .mem _ => levelKind s (imgOf s l.who) lc.val == some kind
   | .hnd _ => false
   | .lk _ => kind == 0) &&
  !levelActive l.ln lc && !(kind == 1 && kindActive l.ln 1) &&
  !(kind == 2 && (kindActive l.ln 1 || kindActive l.ln 2))

/-- The body stays inside the innermost active body that contains the loop instruction (R140). -/
def bodyInside (l : QLane) (len : Nat) : Bool :=
  match l.stack.find? (fun x => x.first ≤ lineOf l && lineOf l ≤ x.last) with
  | none => true
  | some x => lineOf l + 32 * len ≤ x.last

/-- Trip count of format CL (R140). -/
def tripOf (s : State) (w : Who) : Trip → Except Stop Nat
  | .imm v => .ok v.toNat
  | .reg t => do
    let v ← readOne s w t
    require (decide (v.toNat < 2 ^ 32)) .illegal
    .ok v.toNat

/-- The register of a trip count. -/
def tripRegs : Trip → List SReg
  | .imm _ => []
  | .reg t => [t]

/-- Starts a loop of local trip count n, or skips its body (R141). -/
def enterLoop (s : State) (l : Lane) (lc : Fin 8) (kind len : Nat) (n iter stride : Nat) :
    Except Stop (State × Nat) := do
  if n = 0 then
    let s ← jumpTo s l (lineOf l.ln + 32 * (len + 1)) l.ln.stack
    .ok (s, 1)
  else .ok (setFetch s l.who (activate (fetchOf s l.who) l.ln lc kind iter stride (n - 1)), 1)

/-- `loop`, `loopc` and `loopd` (R140, R143): a false qualifier is a trip count of zero (R139). -/
def countedLoop (h : Hd) (lc : Fin 8) (trip : Trip) (len : BitVec 10) (kind : Nat) (s : State) :
    Host.Outcome State Fault Refusal :=
  lockstep s fun l => do
    let act ← waitClass s l.who h (tripRegs trip)
    require (levelRules s l lc kind && bodyInside l.ln (len.toNat + 1)) .illegal
    let t ← if act then tripOf s l.who trip else .ok 0
    let (n, i, g) := spread s (whoSite s l.who) kind (kindActive l.ln 2) t
    enterLoop s l lc kind (len.toNat + 1) n i g

/-- `loop` (R140). -/
def execLoop (h : Hd) (lc : Fin 8) (trip : Trip) (len : BitVec 10) (s : State) : Host.Outcome State Fault Refusal :=
  countedLoop h lc trip len 0 s

/-- `loopc` (R140, R143). -/
def execLoopc (h : Hd) (lc : Fin 8) (trip : Trip) (len : BitVec 10) (s : State) : Host.Outcome State Fault Refusal :=
  countedLoop h lc trip len 1 s

/-- `loopd` (R140, R143). -/
def execLoopd (h : Hd) (lc : Fin 8) (trip : Trip) (len : BitVec 10) (s : State) : Host.Outcome State Fault Refusal :=
  countedLoop h lc trip len 2 s

/-- A stream register of a member (R195). -/
def aReg (m : Member) (a : AReg) : BitVec 256 := tget 0 m.regs.a a.val

/-- A member with a stream register replaced. -/
def setA (m : Member) (a : AReg) (v : BitVec 256) : Member :=
  { m with regs := { m.regs with a := tput 0 m.regs.a a.val v } }

/-- A field of a stream register. -/
def sField (v : BitVec 256) (hi lo : Nat) : Nat := bits v.toNat hi lo

/-- A stream register with a field replaced. -/
def setSField (v : BitVec 256) (hi lo x : Nat) : BitVec 256 :=
  BitVec.ofNat 256 (v.toNat - sField v hi lo * 2 ^ lo + x % 2 ^ (hi - lo + 1) * 2 ^ lo)

/-- The read of a row-pointer stream (R142): the trip count, and the stream advanced by one row. A poisoned chunk gives
no trip count (R314). -/
def rowTrip (m : Member) (a : AReg) : Except Stop (Nat × Member) := do
  let v := aReg m a
  let b := sField v 31 0
  require (sField v 59 58 == 2 && b % 4 == 0 && decide (b + 8 ≤ 2 ^ 21)) .illegal
  require (!tget false m.buf.bad (badKey 2 b) && !tget false m.buf.bad (badKey 2 (b + 4))) .poisonRead
  let e0 := (BitVec.ofNat 32 (numAt m.buf.ab b 4)).toInt
  let e1 := (BitVec.ofNat 32 (numAt m.buf.ab (b + 4) 4)).toInt
  require (decide (e0 ≤ e1)) .illegal
  .ok ((e1 - e0).toNat, setA m a (setSField v 31 0 (b + 4)))

/-- `loopn` (R142): a false qualifier is a trip count of zero, and reads nothing (R139). -/
def execLoopn (h : Hd) (lc : Fin 8) (a : AReg) (len : BitVec 10) (s : State) : Host.Outcome State Fault Refusal :=
  lockstep s fun l => do
    let act ← waitClass s l.who h []
    require (levelRules s l lc 0 && bodyInside l.ln (len.toNat + 1)) .illegal
    match l.who with
    | .mem n =>
      if act then
        let (t, m) ← rowTrip (mem s n) a
        enterLoop (setMem s n m) l lc 0 (len.toNat + 1) t 0 1
      else enterLoop s l lc 0 (len.toNat + 1) 0 0 1
    | _ => illegal

/-- The loops left when a level and every level activated after it end (R145). -/
def endLevel (lc : Fin 8) (st : List Level) : List Level := (st.dropWhile fun x => x.lc != lc).drop 1

/-- `lbrk` (R145). The level of the running record is active too (R146); it has no body, and a break of it would
leave the record's extent, which the model takes as ILLEGAL (R149).
DEDUCED (log 154), unsafe. -/
def execLbrk (h : Hd) (lc : Fin 8) (a : SReg) (s : State) : Host.Outcome State Fault Refusal :=
  lockstep s fun l => do
    require (match l.who with | .hnd _ => false | _ => true) .illegal
    let act ← waitClass s l.who h [a]
    require (levelActive l.ln lc) .illegal
    if act then
      let v ← readOne s l.who a
      if v = 0 then .ok (s, 1)
      else
        match l.ln.stack.find? (fun x => x.lc == lc) with
        | none => illegal
        | some x => do
          let s ← jumpTo s l (x.last + 32) (endLevel lc l.ln.stack)
          .ok (s, 1)
    else .ok (s, 1)

/-- The stage predicate of a running record (R147); while its SAVE or RESTORE block runs every predicate is false, which
is the model's choice.
DESIGN CHOICE (log 135), unsafe. -/
def stagePred (r : RecRun) (st : Nat) : Bool :=
  r.phase == .ker && st < r.stages && st ≤ r.j && r.j < r.n + st

/-- The record that runs for an agent's lane: a handler is entered in the midst of its member's (R150, R273). -/
def laneRcd (s : State) (l : Lane) : Option RecRun :=
  match l.who with
  | .mem _ => l.ln.rcd
  | .hnd n => runRcd (mem s n)
  | .lk _ => none

/-- `stg` (R148). -/
def execStg (h : Hd) (d : SReg) (st : Fin 8) (s : State) : Host.Outcome State Fault Refusal :=
  lockstep s fun l =>
    match laneRcd s l with
    | some r => scalarOp s l h d [.k (if stagePred r st.val then 1 else 0)] 1 (fn1 id)
    | none => illegal

/-! ## Timing -/

/-- The inert instructions take no notice of their qualifier; a lookup core accepts none (R382), and in a handler
one that names an open slot is ILLEGAL (R159). -/
def inert (s : State) (w : Who) (h : Hd) : Except Stop Unit :=
  match w with
  | .lk _ => require (!(h.gq || h.qp)) .illegal
  | .hnd n => require (!(h.gq && slotOpen (mem s n) h.qs)) .illegal
  | .mem _ => .ok ()

/-- `nop` (R264). -/
def execNop (h : Hd) (s : State) : Host.Outcome State Fault Refusal :=
  lockstep s fun l => do
    inert s l.who h
    .ok (s, 1)

/-- The least multiple of 2^n greater than a tick (R243). -/
def alignTick (u n : Nat) : Nat := (u / 2 ^ n + 1) * 2 ^ n

/-- `align` (R243): it issues now, and from the next tick the agent is held until the tick. -/
def execAlign (h : Hd) (n : BitVec 6) (s : State) : Host.Outcome State Fault Refusal :=
  lockstep s fun l => do
    inert s l.who h
    let t := alignTick s.cal n.toNat
    match l.who with
    | .mem k => .ok (updMem s k fun m => { m with ctl := { m.ctl with alignTo := some t } }, 1)
    | .hnd k => .ok (updMem s k fun m => { m with ui := { m.ui with alignTo := some t } }, 1)
    | .lk k => .ok (setLookup s k { lookupCore s k with alignTo := some t }, 1)

/-- `idle` of C (R244): it occupies C for n cycles. -/
def execIdle (h : Hd) (n1 : BitVec 20) (s : State) : Host.Outcome State Fault Refusal :=
  lockstep s fun l => do
    inert s l.who h
    .ok (s, n1.toNat + 1)

/-- `idle.v`, `idle.x`, `idle.m` (R244): the column's reference point is raised to the issue plus n. -/
def execIdleColumn (h : Hd) (n1 : BitVec 20) (col : BitVec 2) (s : State) : Host.Outcome State Fault Refusal :=
  lockstep s fun l => do
    inert s l.who h
    match l.who with
    | .lk _ => illegal
    | .mem k | .hnd k =>
      let c := 1 + col.toNat
      .ok (updMem s k fun m =>
        let t := m.ctl.gc + n1.toNat + 1
        { m with ctl := { m.ctl with
            raised := m.ctl.raised ++ [(c, t, lanePos l.ln)]
            fetch := { m.ctl.fetch with steps := notePhase l.ln t m.ctl.fetch.steps } } }, 1)

end Sys2Proof.Machine
end

