-- ==== Sys2Proof/Machine/Trace.lean ====
section
/-! DEFINITION. Trace records and the wait log (R417 to R424), written to device memory. -/

namespace Sys2Proof.Machine

open Sys2Proof

/-- The device memory with bytes written at a physical address by the device itself, without a key; a chunk written
whole is poisoned no longer, and stands as stored (R313, R431).
DEDUCED (log 110), unsafe. -/
def devWrite (s : State) (pa : Nat) (b : List Byte) : State :=
  let k := (pa + 31) / 32
  let n := (pa + b.length) / 32 - k
  { s with dmem := setBytes s.dmem pa b, dbad := tclear s.dbad k n, dkey := tclear s.dkey k n }

/-- TRACE_CTL.EN and a bit of it are set, and the site's ring is enabled (R421). -/
def traceOn (s : State) (site bit : Nat) : Bool :=
  (tget LogRing.reset s.traceTab site).en && bits (mem s site).spr.traceCtl.toNat 0 0 == 1 &&
  bits (mem s site).spr.traceCtl.toNat bit bit == 1

/-- A trace record's header and payload (R422). -/
def traceBytes (type flg : Nat) (loop : BitVec 16) (delta iter stagep : Nat) (payload : List Byte) : List Byte :=
  leBytes 1 type ++ leBytes 1 flg ++ leBytes 2 loop.toNat ++ leBytes 4 delta ++ leBytes 4 iter ++
  leBytes 1 stagep ++ leBytes 3 0 ++ (payload ++ List.replicate 16 0).take 16

/-- Appends a record to the site's ring; false when the ring is full (R421, R424).
DESIGN CHOICE (log 27), unsafe. -/
def traceRaw (s : State) (site : Nat) (b : List Byte) : State × Bool :=
  let e := tget LogRing.reset s.traceTab site
  let base := e.base.toNat * 4096
  let tail := numAt s.dmem base 4
  let head := numAt s.dmem (base + 4) 4
  if (tail + 2 ^ 32 - head) % 2 ^ 32 ≥ 2 ^ e.logn.toNat - 1 then (s, false)
  else
    let s := devWrite s (base + 64 + 32 * (tail % 2 ^ e.logn.toNat)) b
    (devWrite s base (leBytes 4 ((tail + 1) % 2 ^ 32)), true)

/-- A time-base record (R422, R423). -/
def timeBase (s : State) (cause lost tick : Nat) : List Byte :=
  traceBytes 1 lost 0xffff 0 (s.clockMhz % 2 ^ 16 + cause * 2 ^ 16) 0
    (leBytes 8 tick ++ leBytes 8 (Config.refTime tick))

/-- A stream after a record of a tick, written or dropped (R424). -/
def traceMark (t : TraceSt) (tick : Nat) (bind ok : Bool) : TraceSt :=
  if ok then { t with last := tick, begun := t.begun || bind, lost := false } else { t with lost := true }

/-- Appends a record of a tick to a site's stream; `bind` marks the time base of a bind. -/
def tracePut (s : State) (site tick : Nat) (bind : Bool) (b : List Byte) : State :=
  let r := traceRaw s site b
  { r.1 with traceSt := tput TraceSt.reset s.traceSt site (traceMark (tget TraceSt.reset s.traceSt site) tick bind r.2) }

/-- A record of a tick and the time base before it. Where records were lost the next that fits is preceded by a time base
of cause 3 with LOST 1 (R424); a record that does not fit loses what follows it in this call. -/
def traceAfter (s : State) (site tick : Nat) (bind : Bool) (b : List Byte) : State :=
  let s := if (tget TraceSt.reset s.traceSt site).lost then tracePut s site tick false (timeBase s 3 1 tick) else s
  if (tget TraceSt.reset s.traceSt site).lost then s else tracePut s site tick bind b

/-- Writes a trace record of a tick, with the time bases it needs before it (R423, R424). -/
def traceRec (s : State) (site type tick : Nat) (loop : BitVec 16) (iter stagep : Nat) (payload : List Byte) : State :=
  let st := tget TraceSt.reset s.traceSt site
  let s := if !st.begun then traceAfter s site tick true (timeBase s 0 0 tick)
    else if !st.lost && decide (tick - st.last > 0xffffffff) then traceAfter s site tick false (timeBase s 4 0 tick)
    else s
  let s := if (tget TraceSt.reset s.traceSt site).lost then tracePut s site tick false (timeBase s 3 1 tick) else s
  let t := tget TraceSt.reset s.traceSt site
  if t.lost then s else tracePut s site tick false (traceBytes type 0 loop (tick - t.last) iter stagep payload)

/-- LOOPSTATE (R150): with no hardware loop active, LVL is the level of the running record. Inside a record within
an active hardware loop LACT is 1, and LVL and ITER are that loop's, which is the model's choice.
DESIGN CHOICE (log 136), unsafe. -/
def loopState (stack : List Level) (r : Option RecRun) : Word :=
  let t := loopTag stack r
  let (lvl, act) := match stack with
    | x :: _ => (x.lc.val, 1)
    | [] => ((r.map fun x => x.level.val).getD 0, 0)
  BitVec.ofNat 64 (t.loop.toNat * 2 ^ 48 + t.stagep.toNat * 2 ^ 40 + lvl * 2 ^ 37 + act * 2 ^ 36 + t.iter.toNat)

/-- Writes a wait-log record of a site's log and its copy in trace (R418, R422). -/
def writeWait (s : State) (w : WaitEnd) : State :=
  let e := tget LogRing.reset s.waitLog w.site
  let seq := tget 0 s.waitSeq w.site
  let waited := min (w.last - w.timer.first) 0xffffffff
  let mid := leBytes 2 w.timer.waiter.toNat ++ leBytes 2 w.set.setter.toNat ++ leBytes 2 w.timer.flag.toNat ++
    leBytes 2 w.timer.owner.toNat ++ leBytes 2 w.set.smod.toNat
  let s := devWrite s (e.base.toNat * 4096 + 32 * (seq % 2 ^ e.logn.toNat))
    (leBytes 4 seq ++ mid ++ leBytes 2 w.tag.loop.toNat ++ leBytes 4 w.tag.iter.toNat ++ leBytes 4 waited ++ leBytes 8 w.last)
  let s := { s with waitSeq := tput 0 s.waitSeq w.site (seq + 1) }
  let s := updMem s w.site fun m => count m 0x0c1
  if traceOn s w.site 4 then
    traceRec s w.site 4 w.last w.tag.loop w.tag.iter.toNat w.tag.stagep.toNat (mid ++ leBytes 2 0 ++ leBytes 4 waited)
  else s

/-- The records of the waits that ended in this tick are written, in ascending WAITER (R418). -/
def flushWaits (s : State) : State :=
  (sortBy (byKey fun w => w.timer.waiter.toNat) s.waitPend).foldl writeWait { s with waitPend := [] }

end Sys2Proof.Machine
end

