-- ==== Sys2Proof/Machine/System.lean ====
section
/-! DEFINITION. System instructions (R264 to R273) and the special registers (R45). -/

namespace Sys2Proof.Machine

open Sys2Proof

/-! ## Special registers -/

/-- STATUS (R45). -/
def statusWord (m : Member) : Word :=
  BitVec.ofNat 64 (bit m.ui.active * 2 ^ 15 + bit m.spr.uien * 2 ^ 14 + m.spr.rmode.toNat * 2 ^ 11 +
    bit m.spr.oflow * 2 ^ 8 + bit m.spr.slip * 2 ^ 7 + bit m.spr.uflow * 2 ^ 6 + bit m.spr.coll * 2 ^ 5 +
    bit m.spr.chkRaw * 2 ^ 4)

/-- GROUP_CYCLE as the program counts it (R18, R414). -/
def groupCycle (m : Member) : Nat := (m.ctl.gc + m.ctl.gcBias) % 2 ^ 64

/-- The value `rdsr` reads in a member; none for a number it does not accept (R45).
DESIGN CHOICE (log 131), unsafe. DEDUCED (log 132), safe. -/
def sprRead (s : State) (n : Nat) (l : Lane) (sn : Nat) : Option Word :=
  let m := mem s n
  match sn with
  | 0x00 => some (statusWord m)
  | 0x01 => some m.spr.cause
  | 0x02 => some m.spr.faultVa
  | 0x03 => some m.spr.faultInfo
  | 0x04 => some (match l.who with
    | .hnd _ => loopState (headLoops m).1 (headLoops m).2
    | _ => loopState l.ln.stack l.ln.rcd)
  | 0x08 => some (BitVec.ofNat 64 s.cal)
  | 0x09 => some (BitVec.ofNat 64 (groupCycle m))
  | 0x0c => some (BitVec.ofNat 64 (siteRow n))
  | 0x0d => some (BitVec.ofNat 64 (siteCol n))
  | 0x0e => some ((bindOf s n).origin.setWidth 64)
  | 0x0f => some ((bindOf s n).shape.setWidth 64)
  | 0x10 => some ((m.spr.rngKey.setWidth 32).setWidth 64)
  | 0x11 => some (m.spr.rngKey >>> 32)
  | 0x12 => some ((m.spr.rngCtr.setWidth 32).setWidth 64)
  | 0x13 => some (((m.spr.rngCtr >>> 32).setWidth 32).setWidth 64)
  | 0x14 => some (((m.spr.rngCtr >>> 64).setWidth 32).setWidth 64)
  | 0x15 => some (((m.spr.rngCtr >>> 96).setWidth 32).setWidth 64)
  | 0x18 => some m.spr.uiVector
  | 0x19 => some m.spr.uiCause
  | 0x1c => some (BitVec.ofNat 64 (openMask m * 256 + m.grd.breadth % 8))
  | 0x1d => some (BitVec.ofNat 64 m.grd.held.length)
  | 0x20 => some (m.spr.perfSel.setWidth 64)
  | 0x21 => some (m.spr.traceCtl.setWidth 64)
  | 0x22 => some 64
  | _ => none

/-- The value `rdsr` reads in a lookup core (R381). -/
def lookupSpr (s : State) (n : Nat) (sn : Nat) : Option Word :=
  let c := lookupCore s n
  match sn with
  | 0x08 => some (BitVec.ofNat 64 s.cal)
  | 0x09 => some (BitVec.ofNat 64 c.cyc)
  | 0x30 => some (BitVec.ofNat 64 n)
  | 0x31 => some (BitVec.ofNat 64 (c.grl * 2 ^ 32 + c.il.length * 2 ^ 16 + c.ga.length))
  | _ => none

/-- The numbers `wrsr` accepts (R45). -/
def sprWritable (sn : Nat) : Bool :=
  sn == 0x00 || (0x10 ≤ sn && sn ≤ 0x15) || sn == 0x18 || sn == 0x20 || sn == 0x21

/-- 32 bits of a wide register replaced by v[31:0]. -/
def setLow {w : Nat} (x : BitVec w) (lo : Nat) (v : Word) : BitVec w :=
  BitVec.ofNat w (x.toNat - bits x.toNat (lo + 31) lo * 2 ^ lo + v.toNat % 2 ^ 32 * 2 ^ lo)

/-- A special register takes the value written (R45, R46, R268, R421). A write of 4 to 7 to RMODE leaves it as it was,
the directed mode SR among them, of which R76 says ILLEGAL and R45 does not.
DESIGN CHOICE (log 144), unsafe. -/
def sprWrite (m : Member) (sn : Nat) (v : Word) : Member :=
  let p := m.spr
  let b := fun i => v.getLsbD i
  let p := match sn with
    | 0x00 =>
      { p with
        uien := b 14
        rmode := if bits v.toNat 13 11 ≤ 3 then BitVec.ofNat 3 (bits v.toNat 13 11) else p.rmode
        oflow := p.oflow && !b 8, slip := p.slip && !b 7, uflow := p.uflow && !b 6, coll := p.coll && !b 5 }
    | 0x10 => { p with rngKey := setLow p.rngKey 0 v }
    | 0x11 => { p with rngKey := setLow p.rngKey 32 v }
    | 0x12 => { p with rngCtr := setLow p.rngCtr 0 v }
    | 0x13 => { p with rngCtr := setLow p.rngCtr 32 v }
    | 0x14 => { p with rngCtr := setLow p.rngCtr 64 v }
    | 0x15 => { p with rngCtr := setLow p.rngCtr 96 v }
    | 0x18 => { p with uiVector := v }
    | 0x20 => { p with perfSel := v.setWidth 9 }
    | 0x21 => { p with traceCtl := v.setWidth 16 &&& 0xf01f }
    | _ => p
  { m with spr := p }

/-- `rdsr` (R45, R264, R381). -/
def execRdsr (h : Hd) (d : SReg) (sn : BitVec 8) (s : State) : Host.Outcome State Fault Refusal :=
  lockstep s fun l =>
    match (match l.who with
      | .mem n | .hnd n => sprRead s n l sn.toNat
      | .lk n => lookupSpr s n sn.toNat) with
    | some v => scalarOp s l h d [.k v] 1 (fn1 id)
    | none => illegal

/-! ## Effects, at once or when a held entry leaves -/

/-- `trap`: the terminal fault TRAP with its code (R264). -/
def effTrap (code : BitVec 16) (_s : State) (_c : Cap) (_v : List Word) : Except Stop State :=
  .error (.trap { trapOf .trap with status := code.toNat })

/-- The record and request of `svc` (R265): the record of a member, or of a lookup core (R382).
DEDUCED (log 31), unsafe. -/
def postSvc (s : State) (w : Who) (code : BitVec 16) (args : List Word) (c : Cap) : State :=
  let n := whoSite s w
  let (id, s) := takeFresh s
  let (kind, sub, src) : Nat × Nat × Nat := match w with
    | .lk k => (3, 0, k)
    | _ => (1, 1, n)
  let r := { siteRec s n kind sub .trap false true code.toNat c.tag.iter.toNat c.tag c.addr with
    src := srcId kind sub src }
  let s := postRec s r
  { s with svcs := s.svcs ++ [{ id := id, site := n, lookup := (match w with | .lk k => some k | _ => none),
                                code := code, args := args, ctx := (bindOf s n).ctx, launch := (bindOf s n).launch, addr := c.addr, lt := c.tag, begun := false }] }

/-- CAUSE and FAULT_INFO of a deferred `svc` or `brk` (R162).
DEDUCED (log 26), unsafe. -/
def deferredRegs (m : Member) (c : Cap) : Member :=
  faultRegs m { trapOf .trap with deferred := true } c.q.code c.addr

/-- `halt` of a member: no lockstep instruction issues after this group cycle, and open chains close (R253, R266). -/
def effHalt (n : Nat) (s : State) (_c : Cap) (_v : List Word) : Except Stop State :=
  .ok (updMem s n fun m =>
    { m with ctl := { m.ctl with halting := true }
             eng := tmap Stream.t0 (fun x => { x with open_ := false }) m.eng })

/-- `yield`: the boundary that ends this kernel iteration is offered as a yield point (R267). -/
def effYield (n : Nat) (s : State) (_c : Cap) (_v : List Word) : Except Stop State :=
  .ok (updMem s n fun m =>
    { m with ctl := { m.ctl with fetch := { m.ctl.fetch with
        steps := match m.ctl.fetch.steps with | r :: t => { r with yieldAsked := true } :: t | [] => [] } } })

/-- `wrsr`: the register takes the value at the end of the cycle (R268). -/
def effWrsr (n : Nat) (sn : BitVec 8) (s : State) (_c : Cap) (v : List Word) : Except Stop State :=
  .ok (updMem s n fun m => { m with fly := { m.fly with spr := m.fly.spr ++ [(sn.toNat, v.headD 0)] } })

/-- Breakpoints are enabled by the bind record (R269, R342). -/
def breakOn (s : State) (n : Nat) : Bool := bits (bindOf s n).mode.toNat 2 2 == 1

/-- `brk`: the member is asked to stop, when breakpoints are enabled (R269). -/
def effBrk (n : Nat) (code : BitVec 16) (s : State) (_c : Cap) (_v : List Word) : Except Stop State :=
  .ok (if breakOn s n then updMem s n fun m => { m with ctl := { m.ctl with dbg := .asked 0 code } } else s)

/-- `pcsel` (R264). -/
def effPcsel (n : Nat) (code : BitVec 16) (s : State) (_c : Cap) (_v : List Word) : Except Stop State :=
  .ok (updMem s n fun m => { m with spr := { m.spr with perfSel := code.setWidth 9 } })

/-- `trmark` (R271): a marker record of the member's or the kicker's trace. -/
def effTrmark (w : Who) (code : BitVec 16) (s : State) (c : Cap) (_v : List Word) : Except Stop State :=
  let n := whoSite s w
  if traceOn s n 1 then
    match w with
    | .lk k => .ok (traceRec s n 2 s.cal 0xffff 0 0 (leBytes 2 code.toNat ++ leBytes 1 (k + 1)))
    | _ => .ok (traceRec s n 2 s.cal c.tag.loop c.tag.iter.toNat c.tag.stagep.toNat (leBytes 2 code.toNat))
  else .ok s

/-! ## The instructions -/

/-- `trap` (R264, R159, R162). -/
def execTrap (h : Hd) (code : BitVec 16) (s : State) : Host.Outcome State Fault Refusal :=
  lockstep s fun l => heldC s l h (.trap h code) none [] (effTrap code)

/-- `svc` (R265): its arguments are s1 to s4. -/
def execSvc (h : Hd) (code : BitVec 16) (s : State) : Host.Outcome State Fault Refusal :=
  lockstep s fun l =>
    heldC s l h (.svc h code) none [1, 2, 3, 4] fun s c v => .ok (postSvc s l.who code v c)

/-- `halt` (R266, R382). -/
def execHalt (h : Hd) (s : State) : Host.Outcome State Fault Refusal :=
  lockstep s fun l =>
    match l.who with
    | .hnd _ => illegal
    | .lk k => do
      inert s l.who h
      .ok (setLookup s k { lookupCore s k with run := false, ended := some 0, hold := none }, 1)
    | .mem n => do
      let (s, o) ← heldC s l h (.halt h) none [] (effHalt n)
      .ok (if (mem s n).ctl.halting then s else resumeFetch s l.who, o)

/-- `yield` (R267). -/
def execYield (h : Hd) (s : State) : Host.Outcome State Fault Refusal :=
  lockstep s fun l =>
    match l.who, l.ln.rcd with
    | .mem n, some r =>
      if r.phase = .ker ∧ r.yieldint ≠ 0 then heldC s l h (.yield h) none [] (effYield n) else illegal
    | _, _ => illegal

/-- `wrsr` (R45, R268). -/
def execWrsr (h : Hd) (a : SReg) (sn : BitVec 8) (s : State) : Host.Outcome State Fault Refusal :=
  lockstep s fun l =>
    match l.who with
    | .lk _ => illegal
    | .mem n | .hnd n => do
      require (sprWritable sn.toNat) .illegal
      heldC s l h (.wrsr h a sn) none [a] (effWrsr n sn)

/-- `brk` (R269). -/
def execBrk (h : Hd) (code : BitVec 16) (s : State) : Host.Outcome State Fault Refusal :=
  lockstep s fun l =>
    match l.who with
    | .mem n => heldC s l h (.brk h code) none [] (effBrk n code)
    | _ => illegal

/-- `uiret` (R272): the handler is left at the end of its cycle. -/
def execUiret (h : Hd) (s : State) : Host.Outcome State Fault Refusal :=
  lockstep s fun l =>
    match l.who with
    | .hnd n => do
      require (!h.gq) .illegal
      .ok (updMem s n fun m => { m with ui := { m.ui with leaving := true } }, 1)
    | _ => illegal

/-- `pcsel` (R264). -/
def execPcsel (h : Hd) (code : BitVec 16) (s : State) : Host.Outcome State Fault Refusal :=
  lockstep s fun l =>
    match l.who with
    | .lk _ => illegal
    | .mem n | .hnd n => heldC s l h (.pcsel h code) none [] (effPcsel n code)

/-- Logical coordinates of a launch's members, row * 16 + col, with their sites. -/
def gangCoords (s : State) (site : Nat) : List (Nat × Nat) :=
  match findLaunch s (bindOf s site).launch with
  | some l => l.coords.zip l.sites
  | none => [(0, site)]

/-- The members that s[A] of `pcread` selects; none where the set reaches outside the gang or a zero bit
is set (R270). -/
def pcSet (s : State) (site : Nat) (v : Word) : Option (List Nat) :=
  let g := gangCoords s site
  if v = 0 then some (g.map Prod.snd)
  else
    let n := v.toNat
    if n / 2 ^ 28 ≠ 0 ∨ bits n 23 20 ≠ 0 ∨ bits n 15 12 ≠ 0 ∨ bits n 7 4 ≠ 0 ∨ 15 < bits n 3 0 + bits n 19 16 then none
    else
      let want := (List.range (bits n 27 24 + 1)).flatMap fun r =>
        (List.range (bits n 19 16 + 1)).map fun c => 16 * (bits n 11 8 + r) + (bits n 3 0 + c)
      want.mapM fun k => (g.find? fun p => p.1 == k).map Prod.snd

/-- `pcread` (R270): sampled 16 ticks after its issue, it lands at the end of the tick 127 after it. -/
def execPcread (h : Hd) (d a : SReg) (op : BitVec 2) (s : State) : Host.Outcome State Fault Refusal :=
  lockstep s fun l =>
    match l.who with
    | .lk _ => illegal
    | .mem n | .hnd n => do
      let act ← qualAct s l.who h
      if act = .never then .ok (s, 1)
      else do
        needLanded s l.who (if op = 0 then [d] else [d, a])
        plainDest s l.who d
        let src ← if op = 0 then .ok (plain 0) else readS s l.who a
        require (src.all fun x => match x.2 with
          | .val v => op == 0 || (pcSet s n v).isSome
          | .poison .. => true) .illegal
        let sets : Alts (List Nat) := mapAlts (fun v => if op = 0 then [n] else (pcSet s n v).getD []) src
        let cnt := lateCount s l.who d (mapAlts (fun _ => 0) sets) (actLit act)
        if cnt > 4 then .error (.trap (breadthTrap (mem s n) cnt))
        else .ok (schedule s l d (s.cal + 127) (.pcread (mem s n).spr.perfSel op sets (s.cal + 16)) (actLit act), 1)

/-- `trmark` (R271). -/
def execTrmark (h : Hd) (code : BitVec 16) (s : State) : Host.Outcome State Fault Refusal :=
  lockstep s fun l => heldC s l h (.trmark h code) none [] (effTrmark l.who code)

end Sys2Proof.Machine
end

