-- ==== Sys2Proof/Machine/Guard.lean ====
section
/-! DEFINITION. Opening, resolving and waiting on guard slots (R151, R152, R166 to R169). -/

namespace Sys2Proof.Machine

open Sys2Proof

/-- A member with a guard slot replaced. -/
def setSlot (m : Member) (q : QSlot) (x : Slot) : Member :=
  { m with grd := { m.grd with slots := tput Slot.free m.grd.slots q.val x } }

/-- Opens a slot on a source (R167). -/
def openSlot (s : State) (n : Nat) (q : QSlot) (x : QSrc) (due : Option Bool) : Except Stop State := do
  require (!slotOpen (mem s n) q) .guardReopen
  .ok (updMem s n fun m => count (setSlot m q { src := some x, kept := (slotOf m q).kept, due := due }) 0x090)

/-- The value a slot binds to: as it stands, or still to land (R151). -/
def bindSrc (m : Member) (a : SReg) : QSrc :=
  if a.val = 0 then .prog
  else
    match (sCell m a).pend with
    | some t => .reg (.tok t)
    | none => .reg (.now (sCell m a).alts)

/-- `qopen` (R27, R151, R167): it never waits. -/
def execQopen (h : Hd) (q : QSlot) (a : SReg) (s : State) : Host.Outcome State Fault Refusal :=
  lockstep s fun l => do
    let n ← memOnly l
    require (!h.gq) .illegal
    let _ ← readS s l.who a
    let s ← openSlot s n q (bindSrc (mem s n) a) none
    .ok (s, 1)

/-- `qopenf` (R167): a target of zero resolves true in this cycle. -/
def execQopenf (h : Hd) (q : QSlot) (a : SReg) (fk : BitVec 2) (fn : BitVec 12) (s : State) :
    Host.Outcome State Fault Refusal :=
  lockstep s fun l => do
    let n ← memOnly l
    require (!h.gq && decide (fk.toNat ≤ 1) && (fk != 0 || decide (fn.toNat < 1024))) .illegal
    let v ← readOne s l.who a
    let s ← openSlot s n q (.flag (fk == 1) fn.toNat (v.setWidth 32)) (if v.setWidth 32 = 0 then some true else none)
    .ok (s, 1)

/-- `qres` (R168): only a slot without a source; the resolution takes effect at the end of the cycle. -/
def execQres (h : Hd) (q : QSlot) (a : SReg) (s : State) : Host.Outcome State Fault Refusal :=
  lockstep s fun l => do
    let n ← memOnly l
    require (!h.gq && (slotOf (mem s n) q).src == some .prog) .illegal
    let v ← readOne s l.who a
    .ok (updMem s n fun m => setSlot m q { slotOf m q with due := some (v != 0) }, 1)

/-- `qwait` (R169). -/
def execQwait (h : Hd) (q : QSlot) (s : State) : Host.Outcome State Fault Refusal :=
  lockstep s fun l => do
    let n ← memOnly l
    require (!h.gq) .illegal
    waitUnless (!slotOpen (mem s n) q) (.slotOpen q)
    .ok (s, 1)

end Sys2Proof.Machine
end

