-- ==== Sys2Proof/Machine/Digest.lean ====
section
/-! DEFINITION. SHAKE256, the digest of the boot measurements and of signatures (R2, R429, R430), as FIPS 202
gives it: the spec names the function and leaves its text to the standard. -/

namespace Sys2Proof.Machine

open Sys2Proof

/-- A lane of the Keccak state; the lane of column x and row y stands at place x + 5 y. -/
def keccakLane (a : List Word) (x y : Nat) : Word := a.getD (x % 5 + 5 * (y % 5)) 0

/-- A state from its lanes by column and row. -/
def lanesOf (f : Nat → Nat → Word) : List Word := (List.range 25).map fun i => f (i % 5) (i / 5)

/-- Rotation of each lane. -/
def keccakTurns : List Nat :=
  [0, 1, 62, 28, 27, 36, 44, 6, 55, 20, 3, 10, 43, 25, 39, 41, 45, 15, 21, 8, 18, 2, 61, 56, 14]

/-- Constant of each round. -/
def keccakConsts : List Word :=
  [0x0000000000000001, 0x0000000000008082, 0x800000000000808a, 0x8000000080008000, 0x000000000000808b, 0x0000000080000001,
   0x8000000080008081, 0x8000000000008009, 0x000000000000008a, 0x0000000000000088, 0x0000000080008009, 0x000000008000000a] ++
  [0x000000008000808b, 0x800000000000008b, 0x8000000000008089, 0x8000000000008003, 0x8000000000008002, 0x8000000000000080,
   0x000000000000800a, 0x800000008000000a, 0x8000000080008081, 0x8000000000008080, 0x0000000080000001, 0x8000000080008008]

/-- Parity of each column, spread over the two beside it. -/
def keccakTheta (a : List Word) : List Word :=
  let c := (List.range 5).map fun x => (List.range 5).foldl (fun w y => w ^^^ keccakLane a x y) 0
  let d := (List.range 5).map fun x => c.getD ((x + 4) % 5) 0 ^^^ (c.getD ((x + 1) % 5) 0).rotateLeft 1
  lanesOf fun x y => keccakLane a x y ^^^ d.getD x 0

/-- Lanes turned and moved: the lane at (x, y) goes to (y, 2 x + 3 y). -/
def keccakRhoPi (a : List Word) : List Word :=
  lanesOf fun x y => (keccakLane a (x + 3 * y) x).rotateLeft (keccakTurns.getD ((x + 3 * y) % 5 + 5 * x) 0)

/-- Each lane with the two to its right, and the constant of the round. -/
def keccakChiIota (a : List Word) (rc : Word) : List Word :=
  lanesOf fun x y => keccakLane a x y ^^^ (~~~keccakLane a (x + 1) y &&& keccakLane a (x + 2) y) ^^^ (if x = 0 ∧ y = 0 then rc else 0)

/-- The permutation of the state: 24 rounds. -/
def keccak (a : List Word) : List Word :=
  keccakConsts.foldl (fun a rc => keccakChiIota (keccakRhoPi (keccakTheta a)) rc) a

/-- A block of 136 bytes taken into the state. -/
def spongeTake (a : List Word) (b : List Byte) : List Word :=
  keccak (a.zipIdx.map fun p => p.1 ^^^ BitVec.ofNat 64 (leNat ((b.drop (8 * p.2)).take 8)))

/-- The padding of a message of n bytes. -/
def padEnd (n : Nat) : List Byte := if n % 136 = 135 then [0x9f] else 0x1f :: (List.replicate (134 - n % 136) 0 ++ [0x80])

/-- The first n bytes, at most 136, of SHAKE256 of a byte string (R429, R430). -/
def shake256 (n : Nat) (m : List Byte) : List Byte :=
  let p := m ++ padEnd m.length
  let a := (List.range (p.length / 136)).foldl (fun a i => spongeTake a ((p.drop (136 * i)).take 136)) (List.replicate 25 0)
  (a.flatMap fun w => leBytes 8 w.toNat).take n

/-- A digest of 64 bytes, its first byte the lowest. -/
def digest (m : List Byte) : BitVec 512 := BitVec.ofNat 512 (leNat (shake256 64 m))

end Sys2Proof.Machine
end

