-- ==== Sys2Proof/Machine/Cipher.lean ====
section
/-! DEFINITION. AES-256-XTS, under which device memory is written (R2, R431, R432), as FIPS 197 and IEEE 1619 give
it: the spec names the function, its data unit and its tweak. -/

namespace Sys2Proof.Machine

open Sys2Proof

/-- The substitution of a byte. -/
def aesBox : List Byte :=
  [0x63, 0x7c, 0x77, 0x7b, 0xf2, 0x6b, 0x6f, 0xc5, 0x30, 0x01, 0x67, 0x2b, 0xfe, 0xd7, 0xab, 0x76] ++
  [0xca, 0x82, 0xc9, 0x7d, 0xfa, 0x59, 0x47, 0xf0, 0xad, 0xd4, 0xa2, 0xaf, 0x9c, 0xa4, 0x72, 0xc0] ++
  [0xb7, 0xfd, 0x93, 0x26, 0x36, 0x3f, 0xf7, 0xcc, 0x34, 0xa5, 0xe5, 0xf1, 0x71, 0xd8, 0x31, 0x15] ++
  [0x04, 0xc7, 0x23, 0xc3, 0x18, 0x96, 0x05, 0x9a, 0x07, 0x12, 0x80, 0xe2, 0xeb, 0x27, 0xb2, 0x75] ++
  [0x09, 0x83, 0x2c, 0x1a, 0x1b, 0x6e, 0x5a, 0xa0, 0x52, 0x3b, 0xd6, 0xb3, 0x29, 0xe3, 0x2f, 0x84] ++
  [0x53, 0xd1, 0x00, 0xed, 0x20, 0xfc, 0xb1, 0x5b, 0x6a, 0xcb, 0xbe, 0x39, 0x4a, 0x4c, 0x58, 0xcf] ++
  [0xd0, 0xef, 0xaa, 0xfb, 0x43, 0x4d, 0x33, 0x85, 0x45, 0xf9, 0x02, 0x7f, 0x50, 0x3c, 0x9f, 0xa8] ++
  [0x51, 0xa3, 0x40, 0x8f, 0x92, 0x9d, 0x38, 0xf5, 0xbc, 0xb6, 0xda, 0x21, 0x10, 0xff, 0xf3, 0xd2] ++
  [0xcd, 0x0c, 0x13, 0xec, 0x5f, 0x97, 0x44, 0x17, 0xc4, 0xa7, 0x7e, 0x3d, 0x64, 0x5d, 0x19, 0x73] ++
  [0x60, 0x81, 0x4f, 0xdc, 0x22, 0x2a, 0x90, 0x88, 0x46, 0xee, 0xb8, 0x14, 0xde, 0x5e, 0x0b, 0xdb] ++
  [0xe0, 0x32, 0x3a, 0x0a, 0x49, 0x06, 0x24, 0x5c, 0xc2, 0xd3, 0xac, 0x62, 0x91, 0x95, 0xe4, 0x79] ++
  [0xe7, 0xc8, 0x37, 0x6d, 0x8d, 0xd5, 0x4e, 0xa9, 0x6c, 0x56, 0xf4, 0xea, 0x65, 0x7a, 0xae, 0x08] ++
  [0xba, 0x78, 0x25, 0x2e, 0x1c, 0xa6, 0xb4, 0xc6, 0xe8, 0xdd, 0x74, 0x1f, 0x4b, 0xbd, 0x8b, 0x8a] ++
  [0x70, 0x3e, 0xb5, 0x66, 0x48, 0x03, 0xf6, 0x0e, 0x61, 0x35, 0x57, 0xb9, 0x86, 0xc1, 0x1d, 0x9e] ++
  [0xe1, 0xf8, 0x98, 0x11, 0x69, 0xd9, 0x8e, 0x94, 0x9b, 0x1e, 0x87, 0xe9, 0xce, 0x55, 0x28, 0xdf] ++
  [0x8c, 0xa1, 0x89, 0x0d, 0xbf, 0xe6, 0x42, 0x68, 0x41, 0x99, 0x2d, 0x0f, 0xb0, 0x54, 0xbb, 0x16]

/-- A byte substituted. -/
def subByte (b : Byte) : Byte := aesBox.getD b.toNat 0

/-- The byte whose substitution is this one. -/
def unsubByte (b : Byte) : Byte := BitVec.ofNat 8 (aesBox.idxOf b)

/-- Twice a byte in the field of AES. -/
def twiceByte (b : Byte) : Byte := (b <<< 1) ^^^ (if b.getLsbD 7 then 0x1b else 0)

/-- The product of a byte and a number below 16 in the field of AES. -/
def mulByte (k : Nat) (b : Byte) : Byte :=
  let b2 := twiceByte b
  let b4 := twiceByte b2
  (if k.testBit 0 then b else 0) ^^^ (if k.testBit 1 then b2 else 0) ^^^ (if k.testBit 2 then b4 else 0) ^^^
  (if k.testBit 3 then twiceByte b4 else 0)

/-- The bitwise sum of two byte strings. -/
def xorBytes (a b : List Byte) : List Byte := a.zipWith (fun x y => x ^^^ y) b

/-- The next word of the key schedule from those before it, the last eight first. -/
def nextKeyWord (w : List (List Byte)) : List Byte :=
  let i := w.length
  let t := w.getLastD []
  let t := if i % 8 = 0 then xorBytes ((t.drop 1 ++ t.take 1).map subByte) [1 <<< (i / 8 - 1), 0, 0, 0]
    else if i % 8 = 4 then t.map subByte else t
  xorBytes (w.getD (i - 8) []) t

/-- The fifteen round keys of a key of 32 bytes. -/
def roundKeys (k : List Byte) : List (List Byte) :=
  let w := (List.range 52).foldl (fun w _ => w ++ [nextKeyWord w]) ((List.range 8).map fun i => (k.drop (4 * i)).take 4)
  (List.range 15).map fun r => ((w.drop (4 * r)).take 4).flatten

/-- The bytes of a block, column by column, each row turned by its number of columns times k. -/
def turnRows (k : Nat) (b : List Byte) : List Byte :=
  (List.range 16).map fun i => b.getD ((i + 4 * k * (i % 4)) % 16) 0

/-- The columns of a block mixed by the coefficients of the first row. -/
def mixColumns (k : List Nat) (b : List Byte) : List Byte :=
  (List.range 16).map fun i => (List.range 4).foldl (fun x j =>
    x ^^^ mulByte (k.getD ((j + 4 - i % 4) % 4) 0) (b.getD (i / 4 * 4 + j) 0)) 0

/-- A block under the round keys of AES-256. -/
def aesSeal (ks : List (List Byte)) (b : List Byte) : List Byte :=
  let b := (List.range 13).foldl (fun b r =>
    xorBytes (mixColumns [2, 3, 1, 1] (turnRows 1 (b.map subByte))) (ks.getD (r + 1) [])) (xorBytes b (ks.getD 0 []))
  xorBytes (turnRows 1 (b.map subByte)) (ks.getD 14 [])

/-- The block that AES-256 gives this one for. -/
def aesOpen (ks : List (List Byte)) (b : List Byte) : List Byte :=
  let b := (List.range 13).foldl (fun b r =>
    mixColumns [14, 11, 13, 9] (xorBytes ((turnRows 3 b).map unsubByte) (ks.getD (13 - r) []))) (xorBytes b (ks.getD 14 []))
  xorBytes ((turnRows 3 b).map unsubByte) (ks.getD 0 [])

/-- The tweak of the next block of a data unit. -/
def nextTweak (t : List Byte) : List Byte :=
  let v := 2 * leNat t
  leBytes 16 (if v < 2 ^ 128 then v else (v % 2 ^ 128).xor 0x87)

/-- The two halves of a slot's key pair: the first 32 bytes are the data key, the others the tweak key.
DESIGN CHOICE (log 43), unsafe. -/
def keyPair (k : BitVec 512) : List (List Byte) × List (List Byte) :=
  let b := leBytes 64 k.toNat
  (roundKeys (b.take 32), roundKeys (b.drop 32))

/-- A data unit of two blocks, each passed through f between two sums with its tweak (R431). -/
def xtsUnit (f : List (List Byte) → List Byte → List Byte) (k : BitVec 512) (unit : Nat) (b : List Byte) : List Byte :=
  let (k1, k2) := keyPair k
  let t := aesSeal k2 (leBytes 16 unit)
  let g (t b : List Byte) := xorBytes (f k1 (xorBytes b t)) t
  g t (b.take 16) ++ g (nextTweak t) (b.drop 16)

/-- What a sector written under one key reads as under another: the decryption, under the reader's key, of its
encryption (R431, R432); its data unit is PA[45:5]. -/
def rekeyed (k key : BitVec 512) (unit : Nat) (b : List Byte) : List Byte := xtsUnit aesOpen key unit (xtsUnit aesSeal k unit b)

end Sys2Proof.Machine
end

