-- ==== Sys2Proof/Machine/Memory.lean ====
section
/-! DEFINITION. Homes of locations: handles and the walk (R34, R35, R315 to R319), the L2 slices (R302 to
R308), metering (R310), and the one read and the one write of device memory and of typed buffers
(R276 to R282, R313, R431, R432). -/

namespace Sys2Proof.Machine

open Sys2Proof

/-! ## Handles (R34, R35) -/

/-- A field of a handle. -/
def hField (h : BitVec 128) (hi lo : Nat) : Nat := bits h.toNat hi lo

/-- VALID. -/
def hValid (h : BitVec 128) : Bool := h.getLsbD 0
/-- PEND. -/
def hPend (h : BitVec 128) : Bool := h.getLsbD 1
/-- XST. -/
def hXst (h : BitVec 128) : Nat := hField h 4 3
/-- SIZE. -/
def hBig (h : BitVec 128) : Bool := h.getLsbD 5
/-- PRD. -/
def hRead (h : BitVec 128) : Bool := h.getLsbD 6
/-- PW. -/
def hWrite (h : BitVec 128) : Bool := h.getLsbD 7
/-- PA. -/
def hAtom (h : BitVec 128) : Bool := h.getLsbD 8
/-- KEY. -/
def hKeyIdx (h : BitVec 128) : Nat := hField h 19 9
/-- Physical base of the page. -/
def hBase (h : BitVec 128) : Nat := hField h 65 36 * 2 ^ 16
/-- Virtual base of the page. -/
def hVa (h : BitVec 128) : Nat := hField h 103 66 * 2 ^ 16
/-- VPAGE. -/
def hVpage (h : BitVec 128) : Nat := hField h 103 66
/-- Bytes of the page (R224). -/
def hBytes (h : BitVec 128) : Nat := if hBig h then 2 ^ 29 else 2 ^ 16

/-- The handle of a pending `xlat` (R233). -/
def hPending : BitVec 128 := 2

/-- A handle with VALID cleared (R323). -/
def hClear (h : BitVec 128) : BitVec 128 := h &&& ~~~(1 : BitVec 128)

/-- The fault of an access through a handle whose VALID is 0 (R35). -/
def hKind (h : BitVec 128) : Kind :=
  if h = 0 then .illegal
  else match hXst h with | 1 => .page | 2 => .permission | 3 => .illegal | _ => .staleHandle

/-- A handle register of a member. -/
def hReg (m : Member) (r : HReg) : BitVec 128 := tget 0 m.regs.h r.val

/-- The member with a handle register replaced. -/
def setH (m : Member) (r : HReg) (h : BitVec 128) : Member :=
  { m with regs := { m.regs with h := tput 0 m.regs.h r.val h } }

/-- What an access needs of a handle (R225). -/
inductive Perm
  | r | w | a
  deriving DecidableEq, Repr

/-- The handle carries a permission. -/
def hHas (h : BitVec 128) : Perm → Bool
  | .r => hRead h
  | .w => hWrite h
  | .a => hAtom h

/-- The checks of an access of n bytes at an offset of a handle's page (R35, R224, R225): the physical
address, or the fault. -/
def hAddr (h : BitVec 128) (p : Perm) (off n : Nat) : Except Kind Nat :=
  if !hValid h then .error (hKind h)
  else if off + n > hBytes h then .error .illegal
  else if !hHas h p then .error .permission
  else .ok (hBase h + off)

/-! ## Windows and slices (R305, R315) -/

/-- Windows of the physical address space (R315). -/
inductive Window
  | dev | host | thirel
  deriving DecidableEq, Repr

/-- The window of a physical address (R315). -/
def windowOf (pa : Nat) : Window :=
  if pa / 2 ^ 45 % 2 = 1 then .thirel else if pa / 2 ^ 38 = 0 then .dev else .host

/-- Home slice of a device-memory address (R305). -/
def sliceOfPa (pa : Nat) : Nat :=
  Nat.xor (bits pa 12 7) (Nat.xor (bits pa 18 13) (Nat.xor (bits pa 24 19)
    (Nat.xor (bits pa 30 25) (Nat.xor (bits pa 36 31) (bits pa 37 37)))))

/-- Set of a device-memory address (R305). -/
def setOfPa (pa : Nat) : Nat := bits pa 22 13

/-- Tag of a device-memory address (R305). -/
def tagOfPa (pa : Nat) : BitVec 15 := BitVec.ofNat 15 (bits pa 37 23)

/-- Key of a set in the state's table. -/
def setKey (pa : Nat) : Nat := 1024 * sliceOfPa pa + setOfPa pa

/-- Bit of the sector of an address. -/
def sectorBit (pa : Nat) : BitVec 4 := BitVec.ofNat 4 (2 ^ (pa / 32 % 4))

/-- The tags of the set of an address. -/
def tagsAt (s : State) (pa : Nat) : List Tag := tget [] s.l2 (setKey pa)

/-- L2 holds the sector of an address. -/
def resident (s : State) (pa : Nat) : Bool :=
  (tagsAt s pa).any fun t => t.tag == tagOfPa pa && (t.zero || (t.way && t.valid &&& sectorBit pa != 0))

/-- GDDR alone holds the sector, under a key: an access without one does not bring it into L2 (R431). -/
def sealed (s : State) (pa : Nat) : Bool := (tget none s.dkey (pa / 32)).isSome && !resident s pa

/-- A sector as an access without a key finds it: what L2 holds, or else what GDDR holds (R431).
DEDUCED (log 110), unsafe. -/
def rawSector (s : State) (pa : Nat) : List Byte :=
  let b := bytesAt s.dmem (pa / 32 * 32) 32
  match tget none s.dkey (pa / 32) with
  | some k => if resident s pa then b else xtsUnit aesSeal k (pa / 32) b
  | none => b

/-- Bytes within one sector as an access without a key finds them. -/
def rawBytes (s : State) (pa n : Nat) : List Byte := ((rawSector s pa).drop (pa % 32)).take n

/-! ## The walk (R317, R318, R319) -/

/-- A walk's result. -/
inductive Walk
  | absent
  | denied
  | ok (base : Nat) (big : Bool) (r w a : Bool)
  deriving DecidableEq, Repr

/-- A table entry; none where it is invalid, malformed or poisoned (R318, R319).
DEDUCED (log 34), unsafe. -/
def tableEntry (s : State) (pa : Nat) : Option Nat :=
  let e := leNat (rawBytes s pa 8)
  if tget false s.dbad (pa / 32) then none
  else if bits e 0 0 = 0 ∨ bits e 63 46 ≠ 0 ∨ bits e 15 7 ≠ 0 ∨ bits e 2 2 ≠ 0 then none
  else some e

/-- The end of a walk at a leaf. -/
def leafOf (e : Nat) (big : Bool) : Walk :=
  if bits e 6 6 = 1 ∨ (big ∧ bits e 28 16 ≠ 0) then .absent
  else if bits e 5 3 = 0 then .denied
  else .ok (bits e 45 16 * 2 ^ 16) big (bits e 3 3 == 1) (bits e 4 4 == 1) (bits e 5 5 == 1)

/-- The walk of a virtual address in a context's tables (R318). It sees what has been written, whether or not an
invalidation has completed (R321).
DESIGN CHOICE (log 174), unsafe. -/
def walk (s : State) (ctx va : Nat) : Walk :=
  let c := ctxOf s ctx
  if !c.v ∨ va / 2 ^ 54 ≠ 0 then .absent
  else
    match tableEntry s (c.root.toNat * 2 ^ 16 + 8 * bits va 53 42) with
    | none => .absent
    | some e =>
      if bits e 1 1 = 1 then .absent
      else match tableEntry s (bits e 45 16 * 2 ^ 16 + 8 * bits va 41 29) with
        | none => .absent
        | some e =>
          if bits e 1 1 = 1 then leafOf e true
          else match tableEntry s (bits e 45 16 * 2 ^ 16 + 8 * bits va 28 16) with
            | none => .absent
            | some e => if bits e 1 1 = 1 then leafOf e false else .absent

/-- The management core logs an event: 1 a poisoned sector, 2 a failed migration, 3 an alarm of level 1. -/
def mgmtNote (s : State) (code x : Nat) : State := { s with mgmtLog := s.mgmtLog ++ [(code, x)] }

/-- The poisoned table entry at which a walk ends (R319). -/
def walkPoison (s : State) (ctx va : Nat) : Option Nat :=
  let c := ctxOf s ctx
  let at_ (pa : Nat) (next : Nat → Option Nat) : Option Nat :=
    if tget false s.dbad (pa / 32) then some pa
    else match tableEntry s pa with
      | some e => if bits e 1 1 = 1 then none else next (bits e 45 16 * 2 ^ 16)
      | none => none
  if !c.v ∨ va / 2 ^ 54 ≠ 0 then none
  else at_ (c.root.toNat * 2 ^ 16 + 8 * bits va 53 42) fun b => at_ (b + 8 * bits va 41 29) fun a =>
    at_ (a + 8 * bits va 28 16) fun _ => none

/-- A walk that met a poisoned entry is logged to the management core (R319).
DEDUCED (log 124), unsafe. -/
def noteWalk (s : State) (ctx va : Nat) : State :=
  match walkPoison s ctx va with
  | some pa => mgmtNote s 1 (pa / 32)
  | none => s

/-- The handle a walk makes (R233, R318).
DEDUCED (log 40), unsafe. -/
def handleOf (s : State) (ctx va : Nat) (w : Walk) : BitVec 128 :=
  let c := ctxOf s ctx
  let vp := if va / 2 ^ 54 ≠ 0 then 0 else bits va 53 16
  let common := vp * 2 ^ 66 + c.gen.toNat * 2 ^ 20 + c.key.toNat * 2 ^ 9
  BitVec.ofNat 128 (common + match w with
    | .absent => 1 * 2 ^ 3
    | .denied => 2 * 2 ^ 3
    | .ok base big r w a =>
      -- VPAGE and PBASE are those of the page base
      base / 2 ^ 16 * 2 ^ 36 + bit a * 2 ^ 8 + bit w * 2 ^ 7 + bit r * 2 ^ 6 + bit big * 2 ^ 5 + 1)

/-- The virtual page of a 512 MiB page's handle is that of its base (R233).
DEDUCED (log 41), unsafe. -/
def pageBase (h : BitVec 128) : BitVec 128 :=
  if hBig h then h &&& ~~~(BitVec.ofNat 128 ((2 ^ 13 - 1) * 2 ^ 66)) else h

/-- `xlat` of an address in a context, at once (R233, R318). -/
def translate (s : State) (ctx va : Nat) : BitVec 128 := pageBase (handleOf s ctx va (walk s ctx va))

/-! ## L2 tags (R303, R304, R308) -/

/-- How a slice answered (R420). -/
inductive Hit
  | hit | miss | zero
  deriving DecidableEq, Repr

/-- Room for one more tag of a set, and one more way where the line needs one: what is displaced is
written back, so nothing of it is lost; none when every candidate is pinned (R304). -/
def makeRoom (way : Bool) (l : List Tag) : Option (List Tag) := do
  let l ← if way ∧ waysUsed l ≥ 16 then dropOldest (fun t => t.way && !t.pinned) l else some l
  if l.length ≥ 24 then dropOldest (fun t => !t.pinned) l else some l

/-- A line of device memory holds only zeros. -/
def lineZero (s : State) (pa : Nat) : Bool := (bytesAt s.dmem (pa / 128 * 128) 128).all fun b => b == 0

/-- A read or write reaches the tags of its set (R303, R304). -/
def l2Set (s : State) (pa : Nat) (write : Bool) (l : List Tag) : List Tag × Hit :=
  let tag := tagOfPa pa
  let sec := sectorBit pa
  let put (t : Tag) : Tag :=
    { t with valid := t.valid ||| sec, dirty := if write then t.dirty ||| sec else t.dirty }
  match l.find? (fun t => t.tag == tag) with
  | some t =>
    if t.zero then
      if !write then (touchTag tag id l, .zero)
      else match takeWay tag l with
        | some l => (touchTag tag (fun t => { t with zero := false, valid := 0xf, dirty := t.dirty ||| sec }) l, .zero)
        | none => (touchTag tag (fun t => { t with zero := false, valid := 0, dirty := 0 }) l, .zero)
    else if t.way then (touchTag tag put l, if t.valid &&& sec = 0 then .miss else .hit)
    else (l, .miss)
  | none =>
    let z := !write && lineZero s pa
    match makeRoom (!z) l with
    | some l =>
      (l ++ [put { tag := tag, zero := z, valid := if z then 0xf else 0, dirty := 0, way := !z, pins := [] }], .miss)
    | none => (l, .miss)

/-- The state with the tags of a set replaced. -/
def setTags (s : State) (pa : Nat) (l : List Tag) : State := { s with l2 := tput [] s.l2 (setKey pa) l }

/-- A sector of device memory is accessed at its home.
DESIGN CHOICE (log 49), safe. -/
def l2Touch (s : State) (pa : Nat) (write : Bool) : State × Hit :=
  let (l, h) := l2Set s pa write (tagsAt s pa)
  (setTags s pa (fillPinned l), h)

/-! ## Accesses -/

/-- Who makes an access: its agent number and identity, what happens before it, the launch and context
it acts for, the site that counts it, and whether its ports meter it (R293, R310, R328, R420). -/
structure Acc where
  agent : Nat
  src : BitVec 16
  clk : Clock
  launch : Word32
  ctx : Nat
  site : Option Nat
  /-- a chunk of `zfill`, whose lines become zero lines (R303) -/
  zero : Bool := false
  /-- where it is a run of a row piece: how far into the piece the run begins, and the size of the piece (R278) -/
  piece : Option (Nat × Nat) := none
  deriving DecidableEq, Repr

/-- Start and size of the access that bytes at a location are part of. -/
def unitOf (a : Acc) (loc n : Nat) : Nat × Nat :=
  match a.piece with
  | some (back, k) => (loc - back, k)
  | none => (loc, n)

/-- The state with an agent's clock replaced. -/
def setClock (s : State) (a : Nat) (c : Clock) : State := { s with clocks := tput [] s.clocks a c }

/-- An agent as clocks name it: a program that takes over an agent's number is another agent (R293). -/
def agentKey (s : State) (a : Nat) : Nat := a + 2 ^ 64 * tget 0 s.incarn a

/-- Another program takes over an agent's number, knowing what a clock says. -/
def renewAgent (s : State) (a : Nat) (c : Clock) : State :=
  setClock { s with incarn := tput 0 s.incarn a (tget 0 s.incarn a + 1) } a c

/-- An access of an agent happens: its clock and the number of the access. -/
def stampAcc (s : State) (a : Acc) : Clock × Nat × State :=
  let c := joinClock (clockOf s a.agent) a.clk
  let k := tget 0 c (agentKey s a.agent) + 1
  let c := tput 0 c (agentKey s a.agent) k
  (c, k, setClock s a.agent c)

/-- An earlier access happens before one of clock c (R293). -/
def before (r : AccRec) (c : Clock) : Bool := r.stamp ≤ tget 0 c r.agent

/-- Two accesses touch a common byte and differ in start or size (R279). -/
def mixed (r : AccRec) (a : Acc) (start n : Nat) : Bool :=
  r.start < start + n && start < r.start + r.size && r.unit != unitOf a start n

/-- An agent of KV pages by its SRC: the Harvest engine or an attention instruction (R328). -/
def pageAgent (src : BitVec 16) : Bool := decide (src.toNat / 256 = 0x23 ∨ src.toNat / 256 = 0x14)

/-- A whole chunk moved by an engine stream (R278, R281). -/
def engineChunk (src : BitVec 16) (start n : Nat) : Bool := decide (src.toNat / 4096 = 2 ∧ n = 32 ∧ start % 32 = 0)

/-- A read and a write of mixed size of which the later rule says more: a read that races a whole chunk which an engine
writes, or a write that races one which an engine reads, finds the chunk before or after, whole (R258, R281, R287);
so does every access of the agents of KV pages (R372, R377, R378).
DEDUCED (log 162), unsafe. -/
def wholeRace (r : AccRec) (a : Acc) (write : Bool) (loc n : Nat) : Bool :=
  !write && (pageAgent r.src || pageAgent a.src || engineChunk r.src r.start r.size || engineChunk a.src loc n)

/-- Writes that leave bytes of an access undefined: unordered and of mixed size (R279). -/
def racers (s : State) (a : Acc) (write : Bool) (c : Clock) (loc n : Nat) : List AccRec :=
  (tget [] s.accs (loc / 32)).filter fun r => r.write && mixed r a loc n && !before r c && !wholeRace r a write loc n

/-- A write of a chunk happens after both writes of a race. -/
def afterRace (c : Clock) (x : Race) : Bool := x.one.2 ≤ tget 0 c x.one.1 && x.two.2 ≤ tget 0 c x.two.1

/-- Earlier races whose bytes a write leaves undefined, since it does not happen after both their writes (R279). -/
def openRaces (s : State) (c : Clock) (loc : Nat) : List Race :=
  ((tget [] s.accs (loc / 32)).flatMap AccRec.races).filter fun x => !afterRace c x

/-- The bytes, by start and size, that an access finds or leaves undefined (R279). A read is judged by the writes that
have performed. -/
def undefBytes (s : State) (a : Acc) (write : Bool) (c : Clock) (loc n : Nat) : List (Nat × Nat) :=
  (racers s a write c loc n).map (fun r => (r.start, r.size)) ++
  if write then (openRaces s c loc).map fun x => (x.start, x.size) else []

/-- Bytes with the undefined ones free (R279).
DESIGN CHOICE (log 42), safe. -/
def freeBytes (s : State) (l : List (Nat × Nat)) (loc : Nat) (b : List Byte) : List Byte × State :=
  if l.all fun r => r.1 + r.2 ≤ loc || loc + b.length ≤ r.1 then (b, s)
  else (b.zipIdx.map (fun p => if l.any fun r => r.1 ≤ loc + p.2 && loc + p.2 < r.1 + r.2 then Config.freeByte s.free (loc + p.2) else p.1),
        { s with free := s.free + 1 })

/-- The record of an access with its number; a write's names the races it makes (R279). -/
def accRec (s : State) (a : Acc) (c : Clock) (k start n : Nat) (write : Bool) : AccRec :=
  let me := (agentKey s a.agent, k)
  { agent := me.1, src := a.src, launch := a.launch, start := start, size := n, write := write, stamp := k, tick := s.cal,
    unit := unitOf a start n
    races := if write then (racers s a true c start n).map fun r =>
        let lo := max r.start start
        { one := (r.agent, r.stamp), two := me, start := lo, size := min (r.start + r.size) (start + n) - lo }
      else [] }

/-- The accesses to a chunk after one more, newest first: every write, since a later access may still race it
(R279), and of reads the last of each agent, for R280. A write that happens after both writes of a race and covers its
bytes ends it. -/
def noteAccess (s : State) (c : Clock) (r : AccRec) (keepReads : Bool) : State :=
  let k := r.start / 32
  let spent (x : Race) : Bool := r.write && afterRace c x && r.start ≤ x.start && x.start + x.size ≤ r.start + r.size
  let old := (tget [] s.accs k).filter fun x => x.write || (keepReads && x.agent != r.agent)
  let old := old.map fun x => { x with races := x.races.filter fun y => !spent y }
  { s with accs := tput [] s.accs k (if r.write || keepReads then r :: old else old) }

/-- Mixed-size debug mode is enabled for a launch (R280, R342). -/
def debugMode (s : State) (id : Word32) : Bool :=
  s.slotTable.any fun p => p.2.launch == id && p.2.state == 2 && p.2.mode.getLsbD 3

/-- Some bound launch has the mode. -/
def anyDebug (s : State) : Bool := s.slotTable.any fun p => p.2.state == 2 && p.2.mode.getLsbD 3

/-- Two agent numbers name one agent to R280: L's two queues are one. -/
def sameAgent (a b : Nat) : Bool := a == b || (a / 8 == b / 8 && a % 8 * (b % 8) == 2)

/-- The access that mixed-size debug mode finds in conflict (R280). -/
def debugHit (s : State) (a : Acc) (pa n : Nat) (write : Bool) : Option AccRec :=
  let l := tget [] s.accs (pa / 32)
  match l.find? (fun r => !sameAgent r.agent (agentKey s a.agent)) with
  | some r =>
    let whole := l.filter fun x => x.agent == r.agent && x.tick == r.tick && x.unit == r.unit
    if (debugMode s a.launch || debugMode s r.launch) && (whole.any fun x => mixed x a pa n) && (write || r.write) &&
        s.cal - r.tick ≤ 4096 then some r
    else none
  | none => none

/-- Where typed buffers stand among the locations of accesses. -/
def bufLoc (site b off : Nat) : Nat := 2 ^ 50 + (4 * site + b) * 2 ^ 24 + off

/-! ## Device memory -/

/-- The key a context's slot holds (R431). -/
def keyOf (s : State) (idx : Nat) : BitVec 512 := tget 0 s.keys idx

/-- The line of an address is a zero line (R303). -/
def zeroTag (s : State) (pa : Nat) : Bool := (tagsAt s pa).any fun t => t.tag == tagOfPa pa && t.zero

/-- A sector as a reader under a key finds it (R432); a zero line reads as zeros under every key (R303).
DEDUCED (log 44), unsafe. -/
def sectorAs (s : State) (key : BitVec 512) (pa : Nat) : List Byte :=
  let a := pa / 32 * 32
  let b := bytesAt s.dmem a 32
  match (if zeroTag s pa then none else tget none s.dkey (pa / 32)) with
  | some k =>
    if k = key then b else rekeyed k key (pa / 32) b
  | none => b

/-- Bytes of device memory read under a key, within one sector. -/
def keyedBytes (s : State) (key : BitVec 512) (pa n : Nat) : List Byte :=
  ((sectorAs s key pa).drop (pa % 32)).take n

/-- Counts what a member's request met at L2 (R420). -/
def countHit (s : State) (site : Option Nat) (h : Hit) : State :=
  match site with
  | some n => updMem s n fun m => count m (match h with | .hit => 0x60 | .miss => 0x61 | .zero => 0x62)
  | none => s

/-- What a chunk of `zfill` meets, whose line takes its tag once it is whole (R303, R420). -/
def zeroHit (s : State) (pa : Nat) : Hit :=
  match (tagsAt s pa).find? fun t => t.tag == tagOfPa pa with
  | some t => if t.zero then .zero else if t.way && t.valid &&& sectorBit pa != 0 then .hit else .miss
  | none => .miss

/-- Reads bytes of one sector of device memory at their home: none where the sector is poisoned
(R276, R313, R314). -/
def devRead (s : State) (a : Acc) (keyIdx pa n : Nat) : Option (List Byte) × State :=
  let (c, k, s) := stampAcc s a
  let (s, h) := l2Touch s pa false
  let s := countHit s a.site h
  if tget false s.dbad (pa / 32) then (none, s)
  else
    let (b, s) := freeBytes s (undefBytes s a false c pa n) pa (keyedBytes s (keyOf s keyIdx) pa n)
    (some b, noteAccess s c (accRec s a c k pa n false) (anyDebug s))

/-- Writes bytes of one sector of device memory at their home (R276, R313, R431); a zero line is filled with zeros first
(R303). -/
def devPut (s : State) (a : Acc) (keyIdx pa : Nat) (b : List Byte) : State :=
  let (c, k, s) := stampAcc s a
  let n := b.length
  let key := keyOf s keyIdx
  let sec := sectorAs s key pa
  let s := if zeroTag s pa && !a.zero then
      { s with dkey := [0, 1, 2, 3].foldl (fun t i => tput none t (pa / 128 * 4 + i) (some key)) s.dkey }
    else s
  let (s, h) := if a.zero then (s, zeroHit s pa) else l2Touch s pa true
  let s := countHit s a.site h
  let rec_ := accRec s a c k pa n true
  let (b, s) := freeBytes s (undefBytes s a true c pa n) pa b
  let sec := sec.take (pa % 32) ++ b ++ sec.drop (pa % 32 + n)
  let s := { s with
    dmem := setBytes s.dmem (pa / 32 * 32) sec
    dkey := tput none s.dkey (pa / 32) (some key)
    dbad := if n = 32 then tput false s.dbad (pa / 32) false else s.dbad }
  noteAccess s c rec_ (anyDebug s)

/-! ## Typed buffers (R298) -/

/-- A typed buffer of a member: 1 WB, 2 AB, 3 CB, as AS codes them (R224). -/
def bufMem (m : Member) : Nat → Mem
  | 1 => m.buf.wb | 2 => m.buf.ab | _ => m.buf.cb

/-- The member with a typed buffer replaced. -/
def setBuf (m : Member) (b : Nat) (x : Mem) : Member :=
  { m with buf := match b with
      | 1 => { m.buf with wb := x }
      | 2 => { m.buf with ab := x }
      | _ => { m.buf with cb := x } }

/-- Bytes of a typed buffer (R298). -/
def bufSize : Nat → Nat
  | 1 => 3 * 2 ^ 20 | 2 => 2 * 2 ^ 20 | _ => 2 ^ 20

/-- Reads bytes of one chunk of a typed buffer: none where it is poisoned (R276, R313). -/
def bufRead (s : State) (a : Acc) (site b off n : Nat) : Option (List Byte) × State :=
  let (c, _, s) := stampAcc s a
  let m := mem s site
  if tget false m.buf.bad (badKey b off) then (none, s)
  else
    let loc := bufLoc site b off
    let (x, s) := freeBytes s (undefBytes s a false c loc n) loc (bytesAt (bufMem m b) off n)
    (some x, s)

/-- A write of WB or AB that meets an M instruction within its occupancy is read by it or not (R281,
R286): its operands as the instruction finds them, and the next free value.
DESIGN CHOICE (log 56), safe. -/
def reachOp (b off : Nat) (x : List Byte) (o : MatOp) (f : Nat) : MatOp :=
  if Config.freeBit f then
    match b with
    | 1 => { o with wb := setBytes o.wb off x }
    | 2 => { o with ab := setBytes o.ab off x }
    | _ => o
  else o

/-- The same for every M instruction within its occupancy. -/
def reachOps (b off : Nat) (x : List Byte) (m : Member) (f : Nat) : Member × Nat :=
  if m.mat.ops = [] ∨ b = 3 then (m, f)
  else ({ m with mat := { m.mat with ops := m.mat.ops.zipIdx.map fun p => reachOp b off x p.1 (f + p.2) } },
        f + m.mat.ops.length)

/-- What stands in a stretch of a chunk of CB is kept until the end of the next group cycle, for the reads of M (R201). -/
def keepCb (m : Member) (off n : Nat) : Member :=
  let keep (t : Tab (Option Byte)) (i : Nat) : Tab (Option Byte) :=
    if (tget none t (off + i)).isSome then t else tput none t (off + i) (some (byteAt m.buf.cb (off + i)))
  let k := off / 32
  { m with buf := { m.buf with
      cbWas := (List.range n).foldl keep m.buf.cbWas
      cbBadWas := if (tget none m.buf.cbBadWas k).isSome then m.buf.cbBadWas
        else tput none m.buf.cbBadWas k (some (tget false m.buf.bad (badKey 3 off))) } }

/-- Writes bytes of one chunk of a typed buffer (R276, R313). -/
def bufWrite (s : State) (a : Acc) (site b off : Nat) (x : List Byte) : State :=
  let (c, k, s) := stampAcc s a
  let loc := bufLoc site b off
  let n := x.length
  let rec_ := accRec s a c k loc n true
  let (x, s) := freeBytes s (undefBytes s a true c loc n) loc x
  let m := mem s site
  let (m, f) := reachOps b off x m s.free
  let s := updMem { s with free := f } site fun _ =>
    let m := if b = 3 then keepCb m off n else m
    let m := setBuf m b (setBytes (bufMem m b) off x)
    if n = 32 then { m with buf := { m.buf with bad := tput false m.buf.bad (badKey b off) false } } else m
  noteAccess s c rec_ false

/-! ## Tile slots (R43, R44) -/

/-- A slot of WB (1) or AB (2) is full. -/
def slotFull (m : Member) (b slot : Nat) : Bool :=
  if b = 1 then tget false m.buf.wbFull slot else tget false m.buf.abFull slot

/-- A member with a slot's bit set. -/
def putSlot (m : Member) (b slot : Nat) (full : Bool) : Member :=
  { m with buf := if b = 1 then { m.buf with wbFull := tput false m.buf.wbFull slot full }
                  else { m.buf with abFull := tput false m.buf.abFull slot full } }

/-- Slots of a buffer. -/
def slotCount (b : Nat) : Nat := if b = 1 then 1536 else 1024

/-! ## Synchronisation for R293 -/

/-- Key of a release by its scope's observers: all, one die, or one member (R288). -/
def scopeKey (scope site : Nat) : Nat :=
  match scope with
  | 0 => 8 + site
  | 1 => 1 + dieOf site
  | _ => 0

/-- Key of a tile slot's release clocks. -/
def slotClkKey (site b slot : Nat) : Nat := 2 ^ 40 + (4 * site + b) * 4096 + slot

/-- Number of a host function among the agents of the clocks. -/
def hostAgent (func : Nat) : Nat := agentNo (1024 + func) 0

/-- Key of what releases and fences at `.sys` have told the host and the peers (R289, R297). -/
def sysKey : Nat := 2 ^ 60

/-- A release by an agent with a clock, remembered under a key (R291). -/
def release (s : State) (key : Nat) (c : Clock) : State :=
  { s with flagClk := tput [] s.flagClk key (joinClock (tget [] s.flagClk key) c) }

/-- A release of a flag at a scope by an agent of a site; one at `.sys` tells the host and the peers too (R291,
R297). -/
def releaseAt (s : State) (k : FlagKey) (scope site : Nat) (c : Clock) : State :=
  let s := release s (flagClkKey k (scopeKey scope site)) c
  if scope = 3 then release s sysKey c else s

/-- Other programs take over the agents of a site, knowing what a clock says. -/
def renewSite (s : State) (n : Nat) (c : Clock) : State := (List.range 8).foldl (fun s k => renewAgent s (agentNo n k) c) { s with fenced := tput [] s.fenced n [] }

/-- An agent learns a clock. -/
def learn (s : State) (agent : Nat) (c : Clock) : State := setClock s agent (joinClock (clockOf s agent) c)

/-! ## Visibility at `.sys` (R289 to R291) -/

/-- Launch of a requester. -/
def whoLaunch (s : State) : Requester → Word32
  | .l n | .eng n _ => (bindOf s n).launch
  | .lookup k => (lookupCore s k).launch
  | .device _ => 0

/-- A request of a requester, its tag and port still to be given. -/
def reqOf (who : Requester) (seq piece pa n : Nat) (write : Bool) (data : List Byte) : OutReq :=
  { tag := 0, who := who, seq := seq, piece := piece, host := false, write := write, atomic := false,
    flush := false, pa := BitVec.ofNat 46 pa, n := n, data := data, op := 0, port := 0,
    va := 0, lt := { loop := 0xffff, iter := 0, stagep := 0 }, launch := 0, agent := 0, stamp := 0, dmod := 0, func := 0 }

/-- Writes that are not yet visible at `.sys` (R289): those of a requester, and those that happen before a
clock (R291). -/
def unseen (s : State) (who : Requester) (c : Clock) : List OutReq :=
  s.outs.filter fun r => r.write && (r.who == who || decide (0 < r.stamp ∧ r.stamp ≤ tget 0 c r.agent))

/-- A further non-posted request to the host is within the 4,096 that may be outstanding (R401). -/
def tagFree (s : State) : Bool := decide ((s.outs.countP fun r => r.host && !r.write) < 4096)

/-- Waits until writes that have left the module are visible at `.sys`: a flushing read follows the last of them to
the host, and none is left outstanding (R289). -/
def awaitVisible (s : State) (who : Requester) (l : List OutReq) : Bool × State :=
  let last := (l.filter fun r => r.host).foldl (fun t r => max t r.tag) 0
  let flushed := s.outs.any fun r => r.flush && decide (last < r.tag)
  if l = [] then (true, s)
  else if last = 0 ∨ flushed ∨ !tagFree s then (false, s)
  else
    let f := { reqOf who 0 0 0 0 false [] with host := true, flush := true, tag := s.fresh, launch := whoLaunch s who }
    (false, { s with fresh := s.fresh + 1, outs := s.outs ++ [f] })

/-- Waits for visibility at `.sys` of a requester's writes and of those that happen before a clock (R290, R291). -/
def sysVisible (s : State) (who : Requester) (c : Clock) : Bool × State := awaitVisible s who (unseen s who c)

/-! ## Metering (R310) -/

/-- Quota entry of a context (R309). -/
def quotaOf (s : State) (ctx : Nat) : Quota := tget Quota.reset s.quotas (tget 0 s.qidx ctx)

/-- A slice's port. -/
def portOf (s : State) (slice : Nat) : Port := tget Port.reset s.ports slice

/-- The state with a port replaced. -/
def setPort (s : State) (slice : Nat) (p : Port) : State := { s with ports := tput Port.reset s.ports slice p }

/-- Tokens a context's bucket holds, in sixteenths; full at its first request. -/
def bucketOf (s : State) (slice ctx : Nat) : Nat :=
  (tget none (portOf s slice).bucket ctx).getD (16 * (quotaOf s ctx).bsize.toNat)

/-- A request pays its cost in sectors, or its context waits at the port (R310). -/
def pay (s : State) (a : Acc) (pa cost : Nat) : Bool × State :=
  let ctx := a.ctx
  if (quotaOf s ctx).bsize = 0 then (true, s)
  else
    let sl := sliceOfPa pa
    let p := portOf s sl
    let have' := bucketOf s sl ctx
    if 16 * cost ≤ have' then
      (true, setPort s sl { p with bucket := tput none p.bucket ctx (some (have' - 16 * cost)),
                                   waiting := p.waiting.filter fun w => w.1 != ctx })
    else
      (false, setPort s sl { p with bucket := tput none p.bucket ctx (some have'),
                                    waiting := if p.waiting.any (fun w => w.1 == ctx) then p.waiting else p.waiting ++ [(ctx, cost, a.site)] })

/-- A request whose tick a rule fixes takes its cost, or what is left of it, and does not wait (R213, R310).
DEDUCED (log 142), unsafe. -/
def payNow (s : State) (a : Acc) (pa cost : Nat) : State :=
  if (quotaOf s a.ctx).bsize = 0 then s
  else
    let sl := sliceOfPa pa
    let p := portOf s sl
    setPort s sl { p with bucket := tput none p.bucket a.ctx (some (bucketOf s sl a.ctx - 16 * cost)) }

/-- Refill of the buckets and the spare pool of a port (R310).
DEDUCED (log 11), unsafe. -/
def refillPort (s : State) (p : Port) : Port :=
  let cap0 := 16 * (tget Quota.reset s.quotas 0).bsize.toNat
  p.bucket.foldl (fun p e =>
    let q := quotaOf s e.1
    let cap := 16 * q.bsize.toNat
    let have' := e.2.getD cap
    let n := have' + q.rate.toNat
    if have' ≥ cap then { p with pool := min (max cap0 p.pool) (p.pool + q.rate.toNat) }
    else { p with bucket := tput none p.bucket e.1 (some (min cap n)),
                  pool := min (max cap0 p.pool) (p.pool + (n - cap)) }) p

end Sys2Proof.Machine
end

