-- ==== Sys2Proof/Machine/Flags.lean ====
section
/-! DEFINITION. Flags and barriers (R237 to R242): the flag named by an instruction, the status bits a
bound sets, and the flag instructions. Updates enter both of L's queues and perform there (R239); a
lookup core performs them itself (R382). -/

namespace Sys2Proof.Machine

open Sys2Proof

/-- The flag a flag operand names, coordinates relocated (R238). -/
def flagKey (site : Nat) (f : FlagRef) : FlagKey :=
  match f.fk.toNat with
  | 0 => .own site f.fn.toNat
  | 1 => .dev f.fn.toNat
  | _ => .own (16 * f.prow.toNat + f.pcol.toNat) f.fn.toNat

/-- A site is bound to the sender's launch and has started (R345).
DEDUCED (log 9), unsafe. -/
def reachable (s : State) (src dst : Nat) : Bool :=
  (bindOf s dst).launch == (bindOf s src).launch && (bindOf s dst).state == 2 &&
  match (mem s dst).ctl.life with
  | .free | .loading | .loaded => false
  | _ => true

/-- The flag's home may be reached (R345); own and device flags always are. -/
def flagReach (s : State) (site : Nat) : FlagKey → Bool
  | .own o _ => o == site || reachable s site o
  | .dev _ => true

/-- Registers of a value field (R238). -/
def valRegs : FlagVal → List SReg
  | .imm _ => []
  | .reg a => if a.val = 0 then [] else [a]

/-- The value of a value field from its registers' values (R238). -/
def valOfField (v : FlagVal) (regs : List Word) : Word32 :=
  match v with
  | .imm i => i.setWidth 32
  | .reg a => if a.val = 0 then 1 else (regs.headD 0).setWidth 32

/-- STATUS.OFLOW or UFLOW is set where a flag met its bound (R42). -/
def noteBound (m : Member) (ov : Bool) : Member :=
  { m with spr := { m.spr with oflow := m.spr.oflow || ov, uflow := m.spr.uflow || !ov } }

/-- Room for an instruction in the queues of L it enters (R220). -/
def lRoom (m : Member) (i : Instr) : Bool :=
  (!(lQueues i).1 || decide (m.l.lq.length < 32)) && (!(lQueues i).2 || decide (m.l.sq.length < 32))

/-- Room for a held entry in the queues it enters, beside the entries given to lines that are present (R162, R220, R245). -/
def heldRoom (m : Member) (i : Instr) : Bool :=
  let all := m.ctl.fetch.lanes ++ m.ui.fetch.lanes
  (!(lQueues i).1 || decide (m.l.lq.length + reserved all Prod.fst < 32)) &&
  (!(lQueues i).2 || decide (m.l.sq.length + reserved all Prod.snd < 32)) &&
  [0, 1, 2, 3].all fun e => pushTo i != some e || decide ((streamOf m e).queue.length + reservedE all e < 16)

/-- An entry in a queue in the order of capture (R161, R283). -/
def insertEnt (e : LEnt) : List LEnt → List LEnt
  | [] => [e]
  | x :: r => if e.cap.seq < x.cap.seq then e :: x :: r else x :: insertEnt e r

/-- A captured instruction enters L's queues; one in both is one entry (R219, R221). -/
def pushL (m : Member) (c : Cap) : Member :=
  let e : LEnt := { cap := c, begun := false, pairs := [], left := [], buf := [], req := [], bad := [] }
  { m with
    l := { m.l with lq := if (lQueues c.ins).1 then insertEnt e m.l.lq else m.l.lq,
                    sq := if (lQueues c.ins).2 then insertEnt e m.l.sq else m.l.sq }
    ctl := { m.ctl with seq := m.ctl.seq + 1 } }

/-- A flag update of a member enters both queues (R239). -/
def effUpdate (n : Nat) (s : State) (c : Cap) (_v : List Word) : Except Stop State := do
  waitUnless (lRoom (mem s n) c.ins) (.queueFull 5)
  .ok (updMem s n fun m => pushL m c)

/-- The result of an update at a home: the state, and whether the bound was kept (R240). -/
def updateFlag (s : State) (k : FlagKey) (i : Instr) (v : Word32) (setter smod : BitVec 16) : State × Bool :=
  match i with
  | .fpost .. => postFlag s k v.toNat setter smod
  | .fset .. => (setFlag s k v setter smod, true)
  | _ => decFlag s k v.toNat setter smod

/-- The fault of a bound met: overflow of a post, underflow of a decrement (R42). -/
def boundKind : Instr → Kind
  | .fdec .. => .flagUnderflow
  | _ => .flagOverflow

/-- Number of a lookup core among the agents of the clocks. -/
def lookupAgent (k : Nat) : Nat := agentNo (256 + k) 0

/-- Key of a release by a lookup core (R288). -/
def lookupScope (k site sc : Nat) : Nat := match sc with | 0 => 8 + site | 1 => 1 + k / 16 | _ => 0

/-- Scope of a flag instruction (R238). -/
def flagScope : Instr → Nat
  | .fpost _ _ sc _ | .fset _ _ sc _ | .fdec _ _ sc _ => sc.toNat
  | _ => 2

/-- A flag update of a member, or of a lookup core, whose update reaches its home in that tick or a later one (R463). -/
def flagUpdate (h : Hd) (i : Instr) (f : FlagRef) (v : FlagVal) (s : State) : Host.Outcome State Fault Refusal :=
  lockstep s fun l =>
    match l.who with
    | .lk k => do
      inert s l.who h
      require (decide (f.fk.toNat ≤ 1)) .illegal
      needLanded s l.who (valRegs v)
      let a ← readRegs s l.who (valRegs v)
      let c := lookupCore s k
      let p : LkPost := { ins := i, key := flagKey c.site f, val := valOfField v (a.map valOf), clk := clockOf s (lookupAgent k) }
      .ok (setLookup s k { c with posts := c.posts ++ [p] }, 1)
    | .mem n | .hnd n => heldC s l h i none (valRegs v) (effUpdate n)

/-- `fpost` (R238, R239, R240). -/
def execFpost (h : Hd) (f : FlagRef) (sc : BitVec 2) (v : FlagVal) (s : State) : Host.Outcome State Fault Refusal :=
  flagUpdate h (.fpost h f sc v) f v s

/-- `fset` (R238, R239, R240). -/
def execFset (h : Hd) (f : FlagRef) (sc : BitVec 2) (v : FlagVal) (s : State) : Host.Outcome State Fault Refusal :=
  flagUpdate h (.fset h f sc v) f v s

/-- `fdec` (R238, R239, R240). -/
def execFdec (h : Hd) (f : FlagRef) (sc : BitVec 2) (v : FlagVal) (s : State) : Host.Outcome State Fault Refusal :=
  flagUpdate h (.fdec h f sc v) f v s

/-- A flag wait is satisfied now, or was at the flag's home (R241). -/
def waitMet (s : State) (w : Who) : Option Met :=
  match w with
  | .mem n | .hnd n => (mem s n).ctl.met
  | .lk k => (lookupCore s k).met

/-- The agent that acquires learns what the flag's releases up to the satisfying tick make visible to it (R239, R291 to
R294). -/
def acquire (s : State) (w : Who) (k : FlagKey) : State :=
  match w with
  | .mem n | .hnd n => learn s (agentNo n 0) (((waitMet s w).map Met.clk).getD (acquired s k (siteScopes n)))
  | .lk c => learn s (lookupAgent c) (((waitMet s w).map Met.clk).getD (acquired s k (coreScopes c)))

/-- The setter of a satisfied wait (R419). -/
def setterOf (s : State) (k : FlagKey) (x : Option Met) : LastSet := (x.map Met.set).getD (tget LastSet.none s.lastSet (flagNum k))

/-- What satisfied the wait of an acquire is used up; that of a lookup core is logged (R418). -/
def clearMet (s : State) (w : Who) (k : FlagKey) : State :=
  match w with
  | .mem n | .hnd n => updMem s n fun m => { m with ctl := { m.ctl with met := none } }
  | .lk c =>
    let x := lookupCore s c
    let s := match x.wait with
      | some t => waitRec s x.site t (setterOf s k x.met) { loop := 0xffff, iter := 0, stagep := 0 }
      | none => s
    setLookup s c { lookupCore s c with met := none, wait := none }

/-- An acquire of a flag completes (R291, R418). -/
def acquireDone (s : State) (w : Who) (k : FlagKey) : State := clearMet (acquire s w k) w k

/-- `fwait` (R238, R239, R241). -/
def execFwait (h : Hd) (f : FlagRef) (_sc : BitVec 2) (v : FlagVal) (s : State) : Host.Outcome State Fault Refusal :=
  lockstep s fun l => do
    require (match l.who with | .hnd _ => false | .lk _ => decide (f.fk.toNat ≤ 1) | .mem _ => true) .illegal
    let act ← waitClass s l.who h (valRegs v)
    if act then
      let a ← readRegs s l.who (valRegs v)
      let t := valOfField v (a.map valOf)
      let k := flagKey (whoSite s l.who) f
      require (flagReach s (whoSite s l.who) k) .illegal
      if (waitMet s l.who).isSome ∨ t.toNat ≤ (flagVal s k).toNat then .ok (acquireDone s l.who k, 1)
      else .error (.wait (.flagWait k t.toNat))
    else .ok (s, 1)

/-- `fread` (R238, R240): an own flag with latency 1, another from its home.
DESIGN CHOICE (log 33), safe. -/
def execFread (h : Hd) (f : FlagRef) (d : SReg) (s : State) : Host.Outcome State Fault Refusal :=
  lockstep s fun l =>
    let n := whoSite s l.who
    let k := flagKey n f
    if f.fk = 0 then scalarOp s l h d [.k ((flagVal s k).setWidth 64)] 1 (fn1 id)
    else do
      require (match l.who with | .lk _ => decide (f.fk = 1) | _ => true) .illegal
      let act ← qualAct s l.who h
      if act = .never then .ok (s, 1)
      else do
        needLanded s l.who [d]
        plainDest s l.who d
        require (flagReach s n k) .illegal
        let cnt := lateCount s l.who d (plain 0) (actLit act)
        if cnt > 4 then .error (.trap (breadthTrap (mem s n) cnt))
        else .ok (schedule s l d 0 (.flag k) (actLit act), 1)

/-- `farm`: the flag is armed or disarmed, its value unchanged (R237). -/
def effFarm (n : Nat) (f : FlagRef) (v : FlagVal) (s : State) (_c : Cap) (r : List Word) : Except Stop State :=
  .ok (updMem s n fun m => { m with buf := { m.buf with armed := tput false m.buf.armed f.fn.toNat (valOfField v r != 0) } })

/-- `farm` (R237). -/
def execFarm (h : Hd) (f : FlagRef) (sc : BitVec 2) (v : FlagVal) (s : State) : Host.Outcome State Fault Refusal :=
  lockstep s fun l =>
    match l.who with
    | .lk _ => illegal
    | .mem n | .hnd n => heldC s l h (.farm h f sc v) none (valRegs v) (effFarm n f v)

/-- `barj` enters both queues with its destination pending (R222, R242).
DEDUCED (log 19), safe. DEDUCED (log 46), unsafe. -/
def effBarj (w : Who) (n : Nat) (d : SReg) (s : State) (c : Cap) (v : List Word) : Except Stop State :=
  match c.tok with
  | some _ => effUpdate n s c v
  | none => do
    let s' ← effUpdate n s { c with tok := some s.fresh } v
    .ok (markS { s' with fresh := s.fresh + 1 } w d s.fresh)

/-- `barj` (R242). -/
def execBarj (h : Hd) (o : BitVec 12) (d : SReg) (s : State) : Host.Outcome State Fault Refusal :=
  lockstep s fun l =>
    match l.who with
    | .lk _ => illegal
    | .mem n | .hnd n => do
      require (decide (o.toNat % 2 = 0)) .illegal
      plainDest s l.who d
      heldC s l h (.barj h o d) (some d) [] (effBarj l.who n d)

/-- `barw` (R242): it waits for another phase or a status, and writes the status. -/
def execBarw (h : Hd) (o : BitVec 12) (a : SReg) (s : State) : Host.Outcome State Fault Refusal :=
  lockstep s fun l => do
    let _ ← memOnly l
    require (decide (o.toNat % 2 = 0)) .illegal
    let act ← waitClass s l.who h [a]
    if act then
      let v ← readOne s l.who a
      let cur := flagVal s (.dev (o.toNat + 1))
      let ph := v.toNat % 2 ^ 30
      let got : Option Word32 := match waitMet s l.who with
        | some x => some x.val
        | none => if meets (.dev (o.toNat + 1)) cur (.barWait o.toNat ph) then some cur else none
      match got with
      | none => .error (.wait (.barWait o.toNat ph))
      | some x => do
        let s ← writeS (acquireDone s l.who (.dev (o.toNat + 1))) l a (plain (BitVec.ofNat 64 (x.toNat / 2 ^ 30))) 1 none
        .ok (s, 1)
    else .ok (s, 1)

end Sys2Proof.Machine
end

