-- ==== Sys2Proof/Machine/Float.lean ====
section
/-! DEFINITION. Number formats and exact arithmetic (R52 to R81): values are exact dyadic reals, every
result is rounded once. -/

namespace Sys2Proof.Machine

open Sys2Proof

/-- An exact value: NaN, an infinity, or (-1)^n * m * 2^e, zero keeping its sign. -/
inductive FVal
  | nan
  | inf (n : Bool)
  | fin (n : Bool) (m : Nat) (e : Int)
  deriving DecidableEq, Repr

/-- Rounding modes of R60; `sr` brings its 16-bit draw (R76). -/
inductive Mode
  | rne | rtz | rdn | rup
  | sr (d : Nat)
  deriving DecidableEq, Repr

/-- The mode of a rounding code 0 to 3 (R60). -/
def modeOf : Nat → Mode
  | 1 => .rtz | 2 => .rdn | 3 => .rup
  | _ => .rne

/-- Special codes of a format (R52). -/
inductive Specials
  /-- exponent all ones: infinity with f = 0, else NaN -/
  | ieee
  /-- only exponent and fraction all ones, a NaN -/
  | e4m3
  | none
  deriving DecidableEq, Repr

/-- Layout of a floating-point format (R52) and whether it flushes (R64, R65). -/
structure Fmt where
  eb : Nat
  fb : Nat
  bias : Nat
  sp : Specials
  flush : Bool
  deriving DecidableEq, Repr

/-- FP64 (R52). -/
def fp64 : Fmt := { eb := 11, fb := 52, bias := 1023, sp := .ieee, flush := false }
/-- FP32 (R52). -/
def fp32 : Fmt := { eb := 8, fb := 23, bias := 127, sp := .ieee, flush := false }
/-- BF16 (R52). -/
def bf16 : Fmt := { eb := 8, fb := 7, bias := 127, sp := .ieee, flush := true }
/-- FP16 (R52). -/
def fp16 : Fmt := { eb := 5, fb := 10, bias := 15, sp := .ieee, flush := true }
/-- E4M3 (R52). -/
def e4m3 : Fmt := { eb := 4, fb := 3, bias := 7, sp := .e4m3, flush := true }
/-- E5M2 (R52). -/
def e5m2 : Fmt := { eb := 5, fb := 2, bias := 15, sp := .ieee, flush := true }
/-- E3M2 (R52). -/
def e3m2 : Fmt := { eb := 3, fb := 2, bias := 3, sp := .none, flush := false }
/-- E2M3 (R52). -/
def e2m3 : Fmt := { eb := 2, fb := 3, bias := 1, sp := .none, flush := false }
/-- E2M1 (R52). -/
def e2m1 : Fmt := { eb := 2, fb := 1, bias := 1, sp := .none, flush := false }

/-- Width of a format's codes. -/
def Fmt.width (f : Fmt) : Nat := 1 + f.eb + f.fb

/-- The sign bit of a code. -/
def signCode (f : Fmt) (n : Bool) : Nat := if n then 2 ^ (f.eb + f.fb) else 0

/-- Magnitude code of the largest finite value. -/
def maxCode (f : Fmt) : Nat :=
  match f.sp with
  | .ieee => (2 ^ f.eb - 1) * 2 ^ f.fb - 1
  | .e4m3 => 2 ^ (f.eb + f.fb) - 2
  | .none => 2 ^ (f.eb + f.fb) - 1

/-- The canonical NaN (R52, R68); zero where the format has none, which only an MX element could ask
for and none does (R72). -/
def nanCode (f : Fmt) : Nat :=
  match f.sp with
  | .ieee => (2 ^ f.eb - 1) * 2 ^ f.fb + 2 ^ (f.fb - 1)
  | .e4m3 => 2 ^ (f.eb + f.fb) - 1
  | .none => 0

/-- An infinite result: infinity, the canonical NaN where the format has no infinity (R66). -/
def infCode (f : Fmt) (n : Bool) : Nat :=
  match f.sp with
  | .ieee => signCode f n + (2 ^ f.eb - 1) * 2 ^ f.fb
  | .e4m3 => nanCode f
  | .none => signCode f n + maxCode f

/-- The value of a code (R52); `flush` reads a subnormal as a zero of its sign (R64). -/
def decodeFp (f : Fmt) (flush : Bool) (c : Nat) : FVal :=
  let n := c / 2 ^ (f.eb + f.fb) % 2 == 1
  let e := c / 2 ^ f.fb % 2 ^ f.eb
  let x := c % 2 ^ f.fb
  if f.sp = .ieee ∧ e = 2 ^ f.eb - 1 then (if x = 0 then .inf n else .nan)
  else if f.sp = .e4m3 ∧ e = 2 ^ f.eb - 1 ∧ x = 2 ^ f.fb - 1 then .nan
  else if e = 0 then .fin n (if flush && f.flush then 0 else x) (1 - (f.bias : Int) - f.fb)
  else .fin n (2 ^ f.fb + x) ((e : Int) - f.bias - f.fb)

/-- Quotient of m by 2^d rounded in a mode for a value of sign n (R61): d may be negative. -/
def roundShift (mode : Mode) (n : Bool) (m : Nat) (d : Int) : Nat :=
  if d ≤ 0 then m * 2 ^ (-d).toNat
  else
    -- a value far below one half rounds as one quarter does
    let (m, d) := if d > (Nat.log2 m : Int) + 3 then (min m 1, 2) else (m, d.toNat)
    let q := m / 2 ^ d
    let r := m % 2 ^ d
    let up := match mode with
      | .rne => decide (2 * r > 2 ^ d ∨ (2 * r = 2 ^ d ∧ q % 2 = 1))
      | .rtz => false
      | .rdn => n && r != 0
      | .rup => !n && r != 0
      | .sr x => decide (r * 2 ^ 16 + x * 2 ^ d ≥ 2 ^ (d + 16))
    if up then q + 1 else q

/-- Truncation of |x| + d * u * 2^-16 to a multiple of the spacing u (R76), u being 2^sh times the last
place of m. -/
def srTrunc (m : Nat) (sh : Int) (d : Nat) : Nat :=
  if sh ≤ 0 then m * 2 ^ (-sh).toNat
  else if sh > (Nat.log2 m : Int) + 20 then 0
  else (m * 2 ^ 16 + d * 2 ^ sh.toNat) / 2 ^ (sh.toNat + 16)

/-- First step of R61, and R76: the magnitude as a multiple of 2^q. -/
def firstStep (f : Fmt) (mode : Mode) (n : Bool) (m : Nat) (e : Int) : Nat × Int :=
  let q : Int := e + Nat.log2 m - f.fb
  let q := if f.flush then q else max q (1 - (f.bias : Int) - f.fb)
  match mode with
  | .sr d => (srTrunc m (q - e) d, q)
  | md => (roundShift md n m (q - e), q)

/-- The magnitude code of k * 2^q, k below 2^(fb + 1) or a power of two; past the largest where it
overflows. -/
def magCode (f : Fmt) (k : Nat) (q : Int) : Nat :=
  let (k, q) := if k ≥ 2 ^ (f.fb + 1) then (k / 2, q + 1) else (k, q)
  if k < 2 ^ f.fb then k
  else if q + f.fb + f.bias ≥ 2 ^ f.eb then 2 ^ (f.eb + f.fb)
  else (q + f.fb + f.bias).toNat * 2 ^ f.fb + (k - 2 ^ f.fb)

/-- An overflowing result (R66, R67). -/
def overflowCode (f : Fmt) (sat : Bool) (mode : Mode) (n : Bool) : Nat :=
  let toMax := sat || match mode with
    | .rtz => true
    | .rdn => !n
    | .rup => n
    | _ => false
  if toMax then signCode f n + maxCode f else infCode f n

/-- `RoundTo` of R61, with the flush of R64 and the overflow of R66 or, with `sat`, R67. -/
def roundTo (f : Fmt) (sat : Bool) (mode : Mode) : FVal → Nat
  | .nan => nanCode f
  | .inf n => if sat then signCode f n + maxCode f else infCode f n
  | .fin n 0 _ => signCode f n
  | .fin n m e =>
    let (k, q) := firstStep f mode n m e
    if f.flush && decide (q + (Nat.log2 k : Int) < 1 - (f.bias : Int)) || k == 0 then signCode f n
    else
      let c := magCode f k q
      if c > maxCode f then overflowCode f sat mode n else signCode f n + c

/-! ## Exact operations (R68, R69) -/

/-- The negation of a value. -/
def FVal.neg : FVal → FVal
  | .nan => .nan
  | .inf n => .inf (!n)
  | .fin n m e => .fin (!n) m e

/-- The value of an integer. -/
def numInt (i : Int) : FVal := .fin (decide (i < 0)) i.natAbs 0

/-- A value times a power of two. -/
def FVal.scale (k : Int) : FVal → FVal
  | .fin n m e => .fin n m (e + k)
  | x => x

/-- A finite value as an integer multiple of 2^e0, e0 at most its exponent. -/
def signedAt (e0 : Int) (n : Bool) (m : Nat) (e : Int) : Int :=
  let a : Int := m * 2 ^ (e - e0).toNat
  if n then -a else a

/-- Exact sum; the sign of an exact zero sum of opposite signs is negative in RDN alone (R69). -/
def addNum (mode : Mode) : FVal → FVal → FVal
  | .nan, _ | _, .nan => .nan
  | .inf a, .inf b => if a = b then .inf a else .nan
  | .inf a, .fin .. => .inf a
  | .fin .., .inf b => .inf b
  | .fin a m e, .fin b k g =>
    if m = 0 ∧ k = 0 then .fin (if a = b then a else mode == .rdn) 0 0
    else if m = 0 then .fin b k g
    else if k = 0 then .fin a m e
    else
      let e0 := min e g
      let t := signedAt e0 a m e + signedAt e0 b k g
      if t = 0 then .fin (mode == .rdn) 0 0 else .fin (decide (t < 0)) t.natAbs e0

/-- Exact product (R68, R69). -/
def mulNum : FVal → FVal → FVal
  | .nan, _ | _, .nan => .nan
  | .inf a, .inf b => .inf (a != b)
  | .inf a, .fin b m _ => if m = 0 then .nan else .inf (a != b)
  | .fin a m _, .inf b => if m = 0 then .nan else .inf (a != b)
  | .fin a m e, .fin b k g => .fin (a != b) (m * k) (e + g)

/-- A finite value is below another; zeros of both signs are equal. -/
def ltFin (a : Bool) (m : Nat) (e : Int) (b : Bool) (k : Nat) (g : Int) : Bool :=
  if m = 0 then decide (k ≠ 0) && !b
  else if k = 0 then a
  else if a != b then a
  else
    -- compare leading exponents first, so that far exponents need no long shift
    let x : Int := e + Nat.log2 m
    let y : Int := g + Nat.log2 k
    if x ≠ y then (if a then decide (y < x) else decide (x < y))
    else
      let e0 := min e g
      decide (signedAt e0 a m e < signedAt e0 b k g)

/-- Less than, false with a NaN (R178). -/
def ltNum : FVal → FVal → Bool
  | .nan, _ | _, .nan => false
  | .inf a, .inf b => a && !b
  | .inf a, .fin .. => a
  | .fin .., .inf b => !b
  | .fin a m e, .fin b k g => ltFin a m e b k g

/-- A value is a NaN. -/
def FVal.isNan : FVal → Bool
  | .nan => true
  | _ => false

/-- Equal, false with a NaN; +0 equals -0 (R178). -/
def eqNum (x y : FVal) : Bool := !x.isNan && !y.isNan && !ltNum x y && !ltNum y x

/-- The sign of a value. -/
def FVal.sign : FVal → Bool
  | .nan => false
  | .inf n => n
  | .fin n _ _ => n

/-- Order with -0 below +0, for minimum and maximum (R69). -/
def belowNum (x y : FVal) : Bool := ltNum x y || (eqNum x y && x.sign && !y.sign)

/-- IEEE minimum and maximum: NaN if either operand is (R69). -/
def minMax (big : Bool) (x y : FVal) : FVal :=
  if x.isNan || y.isNan then .nan
  else if belowNum x y then (if big then y else x) else (if big then x else y)

/-- minimumNumber and maximumNumber: the number where one operand is NaN (R69). -/
def minMaxNumber (big : Bool) (x y : FVal) : FVal :=
  if x.isNan then y else if y.isNan then x else minMax big x y

/-! ## Integer types (R57, R59) -/

/-- Width of a type code (R59). -/
def typeWidth (t : Nat) : Nat := 8 * 2 ^ (t % 4)

/-- A type code is an int type. -/
def typeSigned (t : Nat) : Bool := t < 4

/-- Least and greatest value of a type. -/
def typeRange (t : Nat) : Int × Int :=
  if typeSigned t then (-(2 ^ (typeWidth t - 1) : Int), 2 ^ (typeWidth t - 1) - 1) else (0, 2 ^ typeWidth t - 1)

/-- `SatTo` of R48.
DEDUCED (log 39), unsafe. -/
def satTo (t : Nat) (x : Int) : Int := max (typeRange t).1 (min (typeRange t).2 x)

/-- `WrapTo` of R48. -/
def wrapTo (t : Nat) (x : Int) : Int :=
  let r := x % (2 ^ typeWidth t : Int)
  if typeSigned t ∧ r > (typeRange t).2 then r - 2 ^ typeWidth t else r

/-- The value of bits read as a type (R57). -/
def intOf (t c : Nat) : Int := wrapTo t c

/-- An integer as the bits of a 32-bit cell, extended as its type requires (R57). -/
def cellOf (x : Int) : Word32 := BitVec.ofInt 32 x

/-- Float to integer (R73). -/
def toInt (t : Nat) (mode : Mode) : FVal → Int
  | .nan => 0
  | .inf n => if n then (typeRange t).1 else (typeRange t).2
  | .fin n m e =>
    -- far above every type the magnitude is taken as 2^64
    let k : Nat := if m ≠ 0 ∧ e + Nat.log2 m > 64 then 2 ^ 65 else roundShift mode n m (-e)
    satTo t (if n then -(k : Int) else k)

/-! ## Block scales and MX formats (R54 to R56, R71, R72) -/

/-- Element of an MX format: a floating-point format, or an integer of w bits (R56). -/
inductive Elem
  | fp (f : Fmt)
  | int (w : Nat)
  deriving DecidableEq, Repr

/-- What a format code names (R58). -/
inductive Format
  | fp (f : Fmt)
  | mx (e : Elem)
  | bad
  deriving DecidableEq, Repr

/-- The format of a code (R58).
DEDUCED (log 96), unsafe. -/
def formatOf : Nat → Format
  | 0x0 => .fp fp32 | 0x1 => .fp bf16 | 0x2 => .fp fp16 | 0x3 => .fp e4m3 | 0x4 => .fp e5m2
  | 0x5 => .mx (.fp e4m3) | 0x6 => .mx (.fp e5m2) | 0x7 => .mx (.fp e3m2) | 0x8 => .mx (.fp e2m3)
  | 0x9 => .mx (.fp e2m1) | 0xa => .mx (.int 8) | 0xb => .mx (.int 6) | 0xc => .mx (.int 4)
  | 0xd => .fp fp64
  | _ => .bad

/-- The floating-point format of a code; FP32 where the code names none. -/
def fpOf (c : Nat) : Fmt :=
  match formatOf c with
  | .fp f => f
  | _ => fp32

/-- Width of an element. -/
def Elem.width : Elem → Nat
  | .fp f => f.width
  | .int w => w

/-- The exponent of the largest power of two of an element format (R72). -/
def Elem.emax : Elem → Int
  | .fp f => match f.sp with
    | .ieee => (2 ^ f.eb : Int) - 2 - f.bias
    | _ => (2 ^ f.eb : Int) - 1 - f.bias
  | .int _ => 0

/-- The value of an element's code (R56). -/
def elemValue (e : Elem) (flush : Bool) (c : Nat) : FVal :=
  match e with
  | .fp f => decodeFp f flush (c % 2 ^ f.width)
  | .int w =>
    let c := c % 2 ^ w
    let n : Int := if c ≥ 2 ^ (w - 1) then (c : Int) - 2 ^ w else c
    let n := if w < 8 ∧ n = -(2 ^ (w - 1) : Int) then n + 1 else n
    (numInt n).scale (2 - (w : Int))

/-- An element under a scale code (R54, R56, R71). -/
def mxValue (e : Elem) (flush : Bool) (scale c : Nat) : FVal :=
  if scale = 0xff then .nan else (elemValue e flush c).scale ((scale : Int) - 127)

/-- Rounding of a value to an element, always saturated (R67, R72). -/
def elemRound (e : Elem) (mode : Mode) (x : FVal) : Nat :=
  match e with
  | .fp f => roundTo f true mode x
  | .int w =>
    match x with
    | .fin n m g =>
      let q : Int := 2 - (w : Int)
      let k := match mode with
        | .sr d => srTrunc m (q - g) d
        | md => roundShift md n m (q - g)
      let k := min k (2 ^ (w - 1) - 1)
      if n then (2 ^ w - k) % 2 ^ w else k
    | _ => 0

/-- The exponent of the greatest magnitude among finite values; none when all are zero. -/
def topExp : List FVal → Option Int
  | [] => none
  | .fin _ m e :: r =>
    if m = 0 then topExp r
    else match topExp r with
      | some t => some (max t (e + Nat.log2 m))
      | none => some (e + Nat.log2 m)
  | _ :: r => topExp r

/-- A value is finite. -/
def FVal.isFin : FVal → Bool
  | .fin .. => true
  | _ => false

/-- The MX packing rule (R72): the scale code and the element codes; `mode` gives the mode of each
element. -/
def mxPack (e : Elem) (mode : Nat → Mode) (xs : List FVal) : Nat × List Nat :=
  if xs.any fun x => !x.isFin then (0xff, xs.map fun _ => 0)
  else
    match topExp xs with
    | none => (0x7f, xs.map fun x => elemRound e .rne x)
    | some t =>
      let k : Int := max (-127) (min 127 (t - e.emax))
      ((k + 127).toNat, xs.zipIdx.map fun p => elemRound e (mode p.2) (p.1.scale (-k)))

/-! ## Random draws (R77, R78) -/

/-- Ten rounds of Philox-4x32, of which the first r remain. -/
def philoxRounds : Nat → Nat × Nat → Nat × Nat × Nat × Nat → Nat × Nat × Nat × Nat
  | 0, _, c => c
  | r + 1, (k0, k1), (c0, c1, c2, c3) =>
    let p0 := 0xd2511f53 * c0
    let p1 := 0xcd9e8d57 * c2
    philoxRounds r ((k0 + 0x9e3779b9) % 2 ^ 32, (k1 + 0xbb67ae85) % 2 ^ 32)
      (Nat.xor (Nat.xor (p1 / 2 ^ 32) c1) k0, p1 % 2 ^ 32, Nat.xor (Nat.xor (p0 / 2 ^ 32) c3) k1, p0 % 2 ^ 32)

/-- One block of the generator (R77): 128 bits. -/
def philox (key : BitVec 64) (ctr : BitVec 128) : Nat :=
  let k := key.toNat
  let c := ctr.toNat
  let (a, b, d, e) := philoxRounds 10 (k % 2 ^ 32, k / 2 ^ 32)
    (c % 2 ^ 32, c / 2 ^ 32 % 2 ^ 32, c / 2 ^ 64 % 2 ^ 32, c / 2 ^ 96)
  a + b * 2 ^ 32 + d * 2 ^ 64 + e * 2 ^ 96

/-- Draw j of an instruction that read the counter as n0 (R78). -/
def draw (key : BitVec 64) (n0 : BitVec 128) (j : Nat) : Nat :=
  philox key (n0 + BitVec.ofNat 128 (j / 8)) / 2 ^ (16 * (j % 8)) % 2 ^ 16

end Sys2Proof.Machine
end

