-- ==== Sys2Proof/Machine/Fun.lean ====
section
/-! DEFINITION. The correctly rounded functions of R82 and R188. A result that is no dyadic number is
given as the dyadic number just above its truncation at a precision far beyond that of FP32, so that
rounding it is rounding the exact value. -/

namespace Sys2Proof.Machine

open Sys2Proof

/-- The value between v * 2^e and (v + 1) * 2^e, or v * 2^e itself where it is exact. -/
def stickyNum (n : Bool) (v : Nat) (exact : Bool) (e : Int) : FVal :=
  if exact then .fin n v e else .fin n (2 * v + 1) (e - 1)

/-- x / y (R82, `xdiv`). -/
def divNum : FVal → FVal → FVal
  | .nan, _ | _, .nan => .nan
  | .inf a, .inf _ => let _ := a; .nan
  | .inf a, .fin b _ _ => .inf (a != b)
  | .fin a _ _, .inf b => .fin (a != b) 0 0
  | .fin a m e, .fin b k g =>
    if k = 0 then (if m = 0 then .nan else .inf (a != b))
    else if m = 0 then .fin (a != b) 0 0
    else
      let sh := 64 + (Nat.log2 k - Nat.log2 m)
      let t := m * 2 ^ sh
      stickyNum (a != b) (t / k) (t % k == 0) (e - g - sh)

/-- 1 / x (R82, `xrcp`). -/
def rcpNum (x : FVal) : FVal := divNum (.fin false 1 0) x

/-- Bits of a square root, from bit b downward. -/
def isqrtBits (n : Nat) : Nat → Nat → Nat
  | 0, r => r
  | b + 1, r => isqrtBits n b (if (r + 2 ^ b) * (r + 2 ^ b) ≤ n then r + 2 ^ b else r)

/-- The integer square root. -/
def isqrt (n : Nat) : Nat := isqrtBits n (Nat.log2 n / 2 + 1) 0

/-- The square root of a positive m * 2^e. -/
def sqrtFin (m : Nat) (e : Int) : FVal :=
  let (m, e) := if e % 2 = 0 then (m, e) else (2 * m, e - 1)
  let t := m * 2 ^ 128
  let r := isqrt t
  stickyNum false r (r * r == t) (e / 2 - 64)

/-- √x (R82, `xsqrt`). -/
def sqrtNum : FVal → FVal
  | .nan => .nan
  | .inf n => if n then .nan else .inf false
  | .fin n m e => if m = 0 then .fin n 0 0 else if n then .nan else sqrtFin m e

/-- 1/√x (R82, `xrsqrt`). -/
def rsqrtNum : FVal → FVal
  | .nan => .nan
  | .inf n => if n then .nan else .fin false 0 0
  | .fin n m e =>
    if m = 0 then .inf n
    else if n then .nan
    else
      let (m, e) := if e % 2 = 0 then (m, e) else (2 * m, e - 1)
      let t := 2 ^ 256
      let r := isqrt (t / m)
      stickyNum false r (r * r * m == t) (-(e / 2) - 128)

/-! ## 2^x and log2 x -/

/-- Bits of the working fractions.
DEDUCED (log 38), unsafe. -/
def wp : Nat := 352

/-- Sum of 2^(p-k) / k for k up to n: ln 2 in units of 2^-p. -/
def ln2Sum (p : Nat) : Nat → Nat
  | 0 => 0
  | k + 1 => ln2Sum p k + 2 ^ p / (2 ^ (k + 1) * (k + 1))

/-- Terms of the exponential series of y, in units of 2^-p, from term k on. -/
def expTerms (p y : Nat) : Nat → Nat → Nat → Nat
  | 0, _, _ => 0
  | f + 1, k, t => t + expTerms p y f (k + 1) (t * y / 2 ^ p / k)

/-- e^y in units of 2^-p, for y below one in the same units. -/
def expFix (p y : Nat) : Nat := expTerms p y 96 1 (2 ^ p)

/-- 2^x (R82, `xexp2`): exact for an integer. -/
def exp2Num : FVal → FVal
  | .nan => .nan
  | .inf n => if n then .fin false 0 0 else .inf false
  | .fin n m e =>
    if m = 0 then .fin false 1 0
    else if e + Nat.log2 m ≥ 9 then (if n then .fin false 1 (-1024) else .fin false 1 1024)
    else
      -- x as a floor and a fraction of wp bits; |x| is below 2^9 and no finer than 2^-149
      let a := signedAt (-(wp : Int)) n m e
      let k := a / (2 ^ wp : Int)
      let f := (a % (2 ^ wp : Int)).toNat
      if f = 0 then .fin false 1 k
      else stickyNum false (expFix wp (f * ln2Sum wp wp / 2 ^ wp)) false (k - wp)

/-- Bits of log2 of y / 2^p, y in [2^p, 2^(p+1)), by repeated squaring. -/
def log2Bits (p : Nat) : Nat → Nat → Nat → Nat
  | 0, _, acc => acc
  | b + 1, y, acc =>
    let z := y * y / 2 ^ p
    if z ≥ 2 ^ (p + 1) then log2Bits p b (z / 2) (2 * acc + 1) else log2Bits p b z (2 * acc)

/-- log2 x (R82, `xlog2`): exact for a power of two. -/
def log2Num : FVal → FVal
  | .nan => .nan
  | .inf n => if n then .nan else .inf false
  | .fin n m e =>
    if m = 0 then .inf true
    else if n then .nan
    else
      let t := Nat.log2 m
      let k : Int := e + t
      if m = 2 ^ t then numInt k
      else
        let b := 160
        -- 160 bits of the fraction: the true value lies above them
        let f := log2Bits wp b (m * 2 ^ (wp - t)) 0
        let v : Int := k * 2 ^ b + f
        -- away from zero on the negative side the truncation lies below, so the sticky digit is set
        -- on the signed value
        let w := 2 * v + 1
        .fin (decide (w < 0)) w.natAbs (-(b : Int) - 1)

/-! ## Sine and cosine (R188) -/

/-- atan(1/x) in units of 2^-p: terms of the series from k on, pw being 2^p / x^(2k+1). -/
def atanTerms (x : Nat) : Nat → Nat → Nat → Int
  | 0, _, _ => 0
  | f + 1, k, pw => (if k % 2 = 0 then ((pw / (2 * k + 1) : Nat) : Int) else -((pw / (2 * k + 1) : Nat) : Int)) +
      atanTerms x f (k + 1) (pw / (x * x))

/-- π in units of 2^-p, by Machin's formula. -/
def piFix (p : Nat) : Nat :=
  (16 * atanTerms 5 p 0 (2 ^ p / 5) - 4 * atanTerms 239 p 0 (2 ^ p / 239)).toNat

/-- Alternating series of sine (s = 1) or cosine (s = 0) of r in units of 2^-p, from term t on. -/
def trigTerms (p r : Nat) : Nat → Nat → Nat → Int
  | 0, _, _ => 0
  | f + 1, k, t => (t : Int) - trigTerms p r f (k + 2) (t * r / 2 ^ p * r / 2 ^ p / ((k + 1) * (k + 2)))

/-- sin and cos of a finite nonzero value, in FP32 by RNE (R188): its product with 2/π gives a quadrant
and a rest, whose series are summed with enough bits for the smallest angle an FP32 factor gives. -/
def sinCos (n : Bool) (m : Nat) (e : Int) : Nat × Nat :=
  let top : Int := e + Nat.log2 m
  -- bits of the fraction: more where the angle is small
  let p : Nat := wp + 4 * (-top).toNat + top.toNat
  let pi := piFix (p + 8 + top.toNat)
  -- the angle and half of π in units of 2^-q
  let q := p + 8 + top.toNat
  let a := if (q : Int) + e ≥ 0 then m * 2 ^ ((q : Int) + e).toNat else m / 2 ^ (-((q : Int) + e)).toNat
  let quad := a / (pi / 2) % 4
  let r := a % (pi / 2)
  let s := trigTerms q r q 1 r
  let c := trigTerms q r q 0 (2 ^ q)
  let (sn, cs) : Int × Int := match quad with
    | 0 => (s, c) | 1 => (c, -s) | 2 => (-s, -c) | _ => (-c, s)
  let sn := if n then -sn else sn
  let num (v : Int) : FVal := .fin (decide (v < 0)) (2 * v.natAbs + 1) (-(q : Int) - 1)
  (roundTo fp32 false .rne (num sn), roundTo fp32 false .rne (num cs))

/-- sin and cos of p * f as `vrope` takes them: zero angles are exact. -/
def sinCosNum : FVal → Option (FVal × FVal)
  | .fin n m e =>
    if m = 0 then some (.fin n 0 0, .fin false 1 0)
    else
      let (s, c) := sinCos n m e
      some (decodeFp fp32 false s, decodeFp fp32 false c)
  | _ => none

end Sys2Proof.Machine
end

