-- ==== Sys2Proof/Machine/Cells.lean ====
section
/-! DEFINITION. What V and X instructions compute: one cell (R177 to R183, R188 to R190), one slice, or
a whole register (R181 to R187), from the cells of their operands. -/

namespace Sys2Proof.Machine

open Sys2Proof

/-! ## Cells of slices and registers -/

/-- A cell of a table of cells. -/
def cellAt (x : Cells) (k : Nat) : Word32 := tget 0 x k

/-- A slice from a function of its rows (R32). -/
def mkSlice (f : Nat → Word32) : Cells := tofn 0 (List.range 16) f

/-- A register from a function of its row and column (R32). -/
def mkReg (f : Nat → Nat → Word32) : Cells := tofn 0 (List.range 1024) fun k => f (k / 64) (k % 64)

/-- Slice c of a register. -/
def sliceOf (c : Nat) (x : Cells) : Cells :=
  x.filterMap fun p => if p.1 % 64 = c then some (p.1 / 64, p.2) else none

/-- A register put together from its 64 slices. -/
def ofSlices (l : List Cells) : Cells :=
  (List.range 16).flatMap fun row =>
    l.zipIdx.filterMap fun p => let x := cellAt p.1 row; if x = 0 then none else some (64 * row + p.2, x)

/-- A slice whose cells hold the bits of a k register's slice. -/
def bitCells (b : BitVec 16) : Cells := mkSlice fun r => if b.getLsbD r then 1 else 0

/-- Bits of a slice whose cells hold 0 or 1. -/
def cellBits (x : Cells) : BitVec 16 :=
  BitVec.ofNat 16 ((List.range 16).map fun r => if cellAt x r = 0 then 0 else 2 ^ r).sum

/-! ## One cell -/

/-- What a cell result depends on besides its operands. -/
structure CEnv where
  /-- the mode in force (R62) -/
  mode : Mode
  key : BitVec 64
  ctr : BitVec 128
  deriving DecidableEq, Repr

/-- The mode of a rounding code, RMODE for code 5 (R60). -/
def rndMode (rnd : BitVec 3) (e : CEnv) : Mode := if rnd = 5 then e.mode else modeOf rnd.toNat

/-- A cell read in a format, flushed where the format flushes (R53, R64). -/
def cellF (f : Fmt) (x : Word32) : FVal := decodeFp f true (x.toNat % 2 ^ f.width)

/-- A result rounded into a cell (R53, R61). -/
def outF (f : Fmt) (sat : Bool) (m : Mode) (v : FVal) : Word32 := BitVec.ofNat 32 (roundTo f sat m v)

/-- A float instruction of one result of its operands (R177). -/
def fOp (x : VExt) (e : CEnv) (g : Mode → FVal → FVal → FVal → FVal) (a b y : Word32) : Word32 :=
  let f := fpOf x.f.toNat
  let m := rndMode x.rnd e
  outF f x.sat m (g m (cellF f a) (cellF f b) (cellF f y))

/-- `vldx2` (R177): the product is exact before its one rounding. -/
def ldx2Cell (x : VExt) (e : CEnv) (a b : Word32) : Word32 :=
  let f := fpOf x.f.toNat
  outF f x.sat (rndMode x.rnd e) ((cellF f a).scale b.toInt)

/-- A value rounded to an integral value, a zero keeping the sign (R177, `vrnd`). -/
def integral (m : Mode) : FVal → FVal
  | .fin n k e => if e < 0 then .fin n (roundShift m n k (-e)) 0 else .fin n k e
  | v => v

/-- Absolute value; a NaN stays (R177). -/
def absVal : FVal → FVal
  | .nan => .nan
  | .inf _ => .inf false
  | .fin _ m e => .fin false m e

/-- The conditions of `vcmp` (R178). -/
def fCond (cc : Nat) (a b : FVal) : Bool :=
  match cc with
  | 0 => eqNum a b
  | 1 => !eqNum a b
  | 2 => ltNum a b
  | 3 => ltNum a b || eqNum a b
  | 4 => ltNum b a
  | 5 => ltNum b a || eqNum a b
  | 6 => a.isNan || b.isNan
  | _ => !(a.isNan || b.isNan)

/-- A V integer instruction (R179): WrapTo, or with SAT SatTo, of an exact value of w-bit operands. -/
def iOp (x : VExt) (g : Int → Int → Int → Int) (a b y : Word32) : Word32 :=
  let t := x.f.toNat % 8
  let r := g (intOf t a.toNat) (intOf t b.toNat) (intOf t y.toNat)
  cellOf (if x.sat then satTo t r else wrapTo t r)

/-- A V integer instruction on w-bit patterns (R179): width, first operand, second operand. -/
def bitOp (x : VExt) (g : Nat → Nat → Nat → Nat) (a b : Word32) : Word32 :=
  let t := x.f.toNat % 8
  let w := typeWidth t
  cellOf (intOf t (g w (a.toNat % 2 ^ w) (b.toNat % 2 ^ w)))

/-- Arithmetic shift right of a w-bit pattern (R179, `visra`). -/
def sraBits (w a n : Nat) : Nat := (if a ≥ 2 ^ (w - 1) then a + (2 ^ n - 1) * 2 ^ w else a) / 2 ^ n

/-- The conditions of `vicmp` (R118, R179). -/
def iCond (t cc : Nat) (a b : Word32) : Bool :=
  let x := intOf t a.toNat
  let y := intOf t b.toNat
  let m := 2 ^ typeWidth t
  match cc with
  | 0 => x == y
  | 1 => x != y
  | 2 => decide (x < y)
  | 3 => decide (y ≤ x)
  | 4 => decide (a.toNat % m < b.toNat % m)
  | _ => decide (b.toNat % m ≤ a.toNat % m)

/-! ## Conversions (R180) -/

/-- A convert widens a 16-bit or 8-bit format, so that its inputs are not flushed (R70); one between BF16 and FP16 does not
count as widening.
DEDUCED (log 169), unsafe. -/
def widening (src dst : Nat) : Bool := src != 0 && dst == 0

/-- The mode of a convert's value: stochastic with the draw of its position where the code is SR (R76). -/
def cvtMode (x : VExt) (e : CEnv) (j : Nat) : Mode :=
  if x.rnd = 4 then .sr (draw e.key e.ctr j) else rndMode x.rnd e

/-- One value converted by its kind (R180): source bits, power of two of `vcvts`, position of the draw. A negative
integer has no exact value in a wider unsigned format (R75): with SAT it becomes the nearest value of the format, and
without it wraps.
DESIGN CHOICE (log 143), unsafe. -/
def cvtVal (x : VExt) (k : Cvt) (e : CEnv) (j : Nat) (c : Nat) (sc : Int) : Int :=
  match k.kind.toNat with
  | 0 =>
    let f := fpOf x.f.toNat
    roundTo (fpOf k.tf.toNat) x.sat (cvtMode x e j)
      ((decodeFp f (!widening x.f.toNat k.tf.toNat) (c % 2 ^ f.width)).scale sc)
  | 1 =>
    let f := fpOf x.f.toNat
    toInt k.tty.toNat (rndMode x.rnd e) ((decodeFp f true (c % 2 ^ f.width)).scale sc)
  | 2 => roundTo (fpOf k.tf.toNat) x.sat (rndMode x.rnd e) ((numInt (intOf k.sty.toNat c)).scale sc)
  | _ => if x.sat then satTo k.tty.toNat (intOf k.sty.toNat c) else wrapTo k.tty.toNat (intOf k.sty.toNat c)

/-- Width of the packed side of `vpack`: its target, and of `vunpk`: its source (R181, R182). -/
def packWidth (float : Bool) (f t : Nat) : Nat := if float then (fpOf f).width else typeWidth t

/-- Bytes of packed elements, as a number (R55). -/
def packBits (w : Nat) (l : List Nat) : Nat := l.foldr (fun c acc => c % 2 ^ w + 2 ^ w * acc) 0

/-- Row of a register. -/
def rowOf (x : Cells) (r : Nat) : List Word32 := (List.range 64).map fun c => cellAt x (64 * r + c)

/-- One row packed into an MX format (R72, R181): its 64 cells. -/
def packRowMX (x : VExt) (e : CEnv) (el : Elem) (row : Nat) (a : Cells) : List Word32 :=
  let blk (b : Nat) : Nat × List Nat :=
    mxPack el (fun i => cvtMode x e (64 * row + 32 * b + i))
      ((List.range 32).map fun i => decodeFp fp32 false (cellAt a (64 * row + 32 * b + i)).toNat)
  let p := blk 0
  let q := blk 1
  let n := packBits el.width p.2 + packBits el.width q.2 * 2 ^ (32 * el.width)
  (List.range 64).map fun c =>
    if c = 63 then BitVec.ofNat 32 (p.1 + 256 * q.1) else BitVec.ofNat 32 (n / 2 ^ (32 * c))

/-- `vpack` (R181, R183). -/
def packReg (x : VExt) (k : Cvt) (e : CEnv) (a b : Cells) : Cells :=
  match (if k.kind = 0 then formatOf k.tf.toNat else .bad) with
  | .mx el => ofSlices (let rows := (List.range 16).map fun r => packRowMX x e el r a
      (List.range 64).map fun c => mkSlice fun r => (rows.getD r []).getD c 0)
  | _ =>
    let w := packWidth (k.kind == 0) k.tf.toNat k.tty.toNat
    let per := 32 / w
    let n := 64 / per
    mkReg fun r c =>
      if 2 * n ≤ c then 0
      else
        let (src, c0, d0) := if c < n then (a, c, 0) else (b, c - n, 1024)
        BitVec.ofNat 32 (packBits w ((List.range per).map fun i =>
          let col := per * c0 + i
          (cvtVal x k e (d0 + 16 * col + r) (cellAt src (64 * r + col)).toNat 0 % 2 ^ w).toNat))

/-- `vunpk` (R182). -/
def unpackReg (x : VExt) (k : Cvt) (e : CEnv) (p : Nat) (a : Cells) : Cells :=
  match (if k.kind = 0 then formatOf x.f.toNat else .bad) with
  | .mx el =>
    mkReg fun r c =>
      let w := el.width
      let bit := 32 * w * (c / 32) + w * (c % 32)
      let lo := (cellAt a (64 * r + bit / 32)).toNat
      let hi := (cellAt a (64 * r + bit / 32 + 1)).toNat
      let code := (lo + 2 ^ 32 * hi) / 2 ^ (bit % 32) % 2 ^ w
      let scale := (cellAt a (64 * r + 63)).toNat / 256 ^ (c / 32) % 256
      outF fp32 x.sat (rndMode x.rnd e) (mxValue el false scale code)
  | _ =>
    let w := packWidth (k.kind == 0) x.f.toNat k.sty.toNat
    let per := 32 / w
    mkReg fun r c =>
      let code := (cellAt a (64 * r + (64 / per) * p + c / per)).toNat / 2 ^ (w * (c % per)) % 2 ^ w
      match k.kind.toNat with
      | 0 => outF fp32 x.sat (rndMode x.rnd e) (decodeFp (fpOf x.f.toNat) false code)
      | 2 => outF fp32 x.sat (rndMode x.rnd e) (numInt (intOf k.sty.toNat code))
      | _ => cellOf (intOf k.sty.toNat code)

/-! ## Reductions (R185) -/

/-- One step of a fold. -/
def foldStep (f : Fmt) (op : Nat) (m : Mode) (acc : Option FVal) (v : FVal) : Option FVal :=
  match acc with
  | none => some v
  | some a => some (match op with
    | 0 => decodeFp f false (roundTo f false m (addNum m a v))
    | 1 => minMax true a v
    | 2 => minMax false a v
    | 3 => minMaxNumber true a v
    | _ => minMaxNumber false a v)

/-- The result of a fold, its value for no contribution included. -/
def foldEnd (f : Fmt) (op : Nat) : Option FVal → Word32
  | some v => outF f false .rne v
  | none => outF f false .rne (match op with | 0 => .fin false 0 0 | 1 => .inf true | 3 => .inf true | _ => .inf false)

/-- A fold over cells in order, masked-out ones left out. -/
def foldCells (x : VExt) (e : CEnv) (op : Nat) (l : List (Bool × Word32)) : Word32 :=
  let f := fpOf x.f.toNat
  let m := rndMode x.rnd e
  foldEnd f op (l.foldl (fun acc p => if p.1 then foldStep f op m acc (cellF f p.2) else acc) none)

/-- The running folds of a scan (R184, `vrscan`). -/
def scanCells (f : Fmt) (m : Mode) (op : Nat) : Option FVal → List (Bool × Word32) → List Word32
  | _, [] => []
  | acc, p :: r =>
    let acc := if p.1 then foldStep f op m acc (cellF f p.2) else acc
    foldEnd f op acc :: scanCells f m op acc r

/-! ## Rotary positions (R188) -/

/-- The two cells of one pair of `vrope`.
DESIGN CHOICE (log 37), unsafe. -/
def ropePair (x : VExt) (e : CEnv) (a0 a1 p f : Word32) : Word32 × Word32 :=
  let v0 := cellF fp32 a0
  let v1 := cellF fp32 a1
  let m := rndMode x.rnd e
  match sinCosNum (mulNum (numInt p.toInt) (cellF fp32 f)) with
  | none => (outF fp32 false .rne .nan, outF fp32 false .rne .nan)
  | some (s, c) =>
    if v0.isNan || v1.isNan then (outF fp32 false .rne .nan, outF fp32 false .rne .nan)
    else (outF fp32 x.sat m (addNum m (mulNum v0 c) (mulNum v1 s).neg),
          outF fp32 x.sat m (addNum m (mulNum v0 s) (mulNum v1 c)))

/-! ## Random bits (R190) -/

/-- Cell [row,col] of `xrng`. -/
def rngCell (e : CEnv) (row col : Nat) : Word32 :=
  let i := 16 * col + row
  BitVec.ofNat 32 (philox e.key (e.ctr + BitVec.ofNat 128 (i / 4)) / 2 ^ (32 * (i % 4)))

end Sys2Proof.Machine
end

