-- ==== Sys2Proof/Machine/Wave.lean ====
section
/-! DEFINITION. The wavefront of V and X (R29, R172, R173): sources are read and results written slice
by slice, one slice further in each group cycle. -/

namespace Sys2Proof.Machine

open Sys2Proof

/-! ## v and k registers by slices -/

/-- Slice c of a v register. -/
def vSlice (m : Member) (r : VReg) (c : Nat) : VAlts := tget VAlts.zero m.regs.v (64 * r.val + c)

/-- Slice c of a k register; k0 is all ones (R31), every other is at T0 (R30). -/
def kSlice (m : Member) (k : KReg) (c : Nat) : BitVec 16 :=
  if k.val = 0 then 0xffff else tget 0xffff m.regs.k (64 * k.val + c)

/-- The member with a slice of a v register replaced. -/
def setVSlice (m : Member) (r : VReg) (c : Nat) (a : VAlts) : Member :=
  { m with regs := { m.regs with v := tput VAlts.zero m.regs.v (64 * r.val + c) a } }

/-- The member with a slice of a k register replaced; k0 is not written. -/
def setKSlice (m : Member) (k : KReg) (c : Nat) (b : BitVec 16) : Member :=
  if k.val = 0 then m else { m with regs := { m.regs with k := tput 0xffff m.regs.k (64 * k.val + c) b } }

/-- The 64 columns. -/
def cols : List Nat := List.range 64

/-- A whole v register read as it stands: its slices' alternatives paired (R467). -/
def flatV (m : Member) (r : VReg) : Alts Cells :=
  mapAlts ofSlices (pairAll (cols.map fun c => (vSlice m r c).alts))

/-- A whole k register read as it stands, bit 64 * row + col (R186, R467). -/
def flatK (m : Member) (k : KReg) : BitVec 1024 :=
  let l := cols.map fun c => kSlice m k c
  BitVec.ofNat 1024 (((List.range 16).map fun row =>
    (l.zipIdx.map fun p => if p.1.getLsbD row then 2 ^ (64 * row + p.2) else 0).sum).sum)

/-- A v register is pending (R26). -/
def vPending (m : Member) (r : VReg) : Bool := tget 0 m.regs.vp r.val != 0

/-- Waits until none of the v registers is pending (R26). -/
def needV (m : Member) : List VReg → Except Stop Unit
  | [] => .ok ()
  | r :: rs => if vPending m r then .error (.wait (.vPend r)) else needV m rs

/-- A v register waits for a token. -/
def markV (m : Member) (r : VReg) (tok : Nat) : Member :=
  { m with regs := { m.regs with vp := tput 0 m.regs.vp r.val (tok + 1) } }

/-- A value lands in the slices of the v register that waits for a token, but for those that a column of a lower code
than its own has written in this tick (R16). -/
def landTokV (code : Nat) (m : Member) (tok : Nat) (a : Alts Cells) : Member :=
  (m.regs.vp.filter fun p => p.2 == tok + 1).foldl (fun m p =>
    let r : VReg := Fin.ofNat 32 p.1
    let m := { m with regs := { m.regs with vp := tput 0 m.regs.vp p.1 0 } }
    let free := cols.filter fun c => !(m.fly.landedV.any fun y => y.1 == r && y.2.1 == c && decide (y.2.2.1 < code))
    free.foldl (fun m c => setVSlice m r c { alts := reform (sliceOf c) a }) m) m

/-! ## Shapes of V and X instructions -/

/-- A source of a V or X instruction: a register, or the head of LDQ-V in field A (R228). -/
inductive VSrc
  | v (r : VReg)
  | pop
  | k (r : KReg)
  deriving DecidableEq, Repr

/-- A destination of a V or X instruction. -/
inductive VDest
  | v (r : VReg)
  | k (r : KReg)
  | s (r : SReg)
  | none
  deriving DecidableEq, Repr

/-- How cells move: within a cell, within a slice, between the two columns of a pair, from later slices
within 4 cycles, or along rows. -/
inductive Moves
  | cell | slice | pair | early | row
  deriving DecidableEq, Repr

/-- Operands, destination, latency and mask of a V or X instruction. -/
structure VShape where
  src : List VSrc
  sreg : Option SReg
  dst : VDest
  lat : Nat
  msk : KReg
  /-- the destination is a source (R184, `vins`) -/
  usesD : Bool
  moves : Moves
  deriving DecidableEq, Repr

/-- Field A. -/
def srcA (h : Hd) (a : VReg) : VSrc := if h.qp then .pop else .v a

/-- Shape of an instruction whose cells stand alone. -/
def cellShape (x : VExt) (src : List VSrc) (dst : VDest) (lat : Nat) : VShape :=
  { src := src, sreg := none, dst := dst, lat := lat, msk := x.msk, usesD := false, moves := .cell }

/-- Shape of a V or X instruction (R28, R121, R177 to R190). -/
def vShape : Instr → Option VShape
  | .vadd h x d a b | .vsub h x d a b | .vmul h x d a b | .vmin h x d a b | .vmax h x d a b
  | .vminn h x d a b | .vmaxn h x d a b | .vldx2 h x d a b | .viadd h x d a b | .visub h x d a b
  | .vimul h x d a b | .vimulh h x d a b | .viand h x d a b | .vior h x d a b | .vixor h x d a b
  | .vishl h x d a b | .vishr h x d a b | .visra h x d a b | .vimin h x d a b | .vimax h x d a b
  | .vcvts h x d a b _ => some (cellShape x [srcA h a, .v b] (.v d) 4)
  | .vfma h x d a b y | .vfms h x d a b y | .vfnma h x d a b y | .vclamp h x d a b y
  | .viclamp h x d a b y => some (cellShape x [srcA h a, .v b, .v y] (.v d) 4)
  | .vabs h x d a | .vneg h x d a | .vrnd h x d a | .viabs h x d a | .vcvt h x d a _
  | .vmov h x d a => some (cellShape x [srcA h a] (.v d) 4)
  | .vcmp h x d a b _ | .vicmp h x d a b _ => some (cellShape x [srcA h a, .v b] (.k d) 4)
  | .vsel h x d a b y => some (cellShape x [srcA h a, .v b, .k y] (.v d) 4)
  | .vpack h x d a b k =>
    let mx := match (if k.kind = 0 then formatOf k.tf.toNat else .bad) with | .mx _ => true | _ => false
    some { cellShape x (if mx then [srcA h a] else [srcA h a, .v b]) (.v d) 4 with moves := .early }
  | .vunpk h x d a _ _ => some { cellShape x [srcA h a] (.v d) 4 with moves := .early }
  | .vbc _ x d s => some { cellShape x [] (.v d) 4 with sreg := some s }
  | .viota _ x d => some (cellShape x [] (.v d) 4)
  | .vins _ x d s _ _ => some { cellShape x [] (.v d) 4 with sreg := some s, usesD := true }
  | .vrbc h x d a _ => some { cellShape x [srcA h a] (.v d) 68 with moves := .row }
  | .vcbc h x d a _ => some { cellShape x [srcA h a] (.v d) 3 with moves := .slice }
  | .vrrot h x d a n =>
    some { cellShape x [srcA h a] (.v d) 68 with
      moves := .row, sreg := match n with | .reg s => some s | .imm _ => none }
  | .vcrot h x d a n =>
    some { cellShape x [srcA h a] (.v d) 3 with
      moves := .slice, sreg := match n with | .reg s => some s | .imm _ => none }
  | .vrred h x d a _ =>
    some { cellShape x [srcA h a] (match d with | .v r => .v r | .s r => .s r) 72 with moves := .row }
  | .vcred h x d a _ => some { cellShape x [srcA h a] (.v d) 6 with moves := .slice }
  | .vrscan h x d a _ => some { cellShape x [srcA h a] (.v d) 72 with moves := .row }
  | .vperm h x d a b => some { cellShape x [srcA h a, .v b] (.v d) 72 with moves := .row }
  | .vtrn h x d a => some { cellShape x [srcA h a] (.v d) 70 with moves := .row }
  | .vext h x d a _ _ => some { cellShape x [srcA h a] (.s d) 72 with moves := .row }
  | .kand _ x d a b | .kor _ x d a b | .kxor _ x d a b => some (cellShape x [.k a, .k b] (.k d) 2)
  | .knot _ x d a | .kmov _ x d a => some (cellShape x [.k a] (.k d) 2)
  | .kpop _ x d a | .kfst _ x d a => some { cellShape x [.k a] (.s d) 6 with moves := .row }
  | .rtcnt h x a => some { cellShape x [srcA h a] .none 72 with moves := .row }
  | .vrope h x d a b y => some { cellShape x [srcA h a, .v b, .v y] (.v d) 4 with moves := .pair }
  | .xexp2 h x d a | .xlog2 h x d a | .xrcp h x d a | .xrsqrt h x d a =>
    some (cellShape x [srcA h a] (.v d) 12)
  | .xsqrt h x d a => some (cellShape x [srcA h a] (.v d) 20)
  | .xdiv h x d a b => some (cellShape x [srcA h a, .v b] (.v d) 20)
  | .xrng _ x d => some (cellShape x [] (.v d) 8)
  | _ => none

/-! ## Results -/

/-- One cell (R177 to R180, R184, R186, R189, R190): row, column, cells of A, B and Y, s[S][31:0], and
for `vins` the cell of D. -/
def cellFn (i : Instr) (e : CEnv) (row col : Nat) (a b y s d : Word32) : Word32 :=
  match i with
  | .vadd _ x .. => fOp x e (fun m p q _ => addNum m p q) a b y
  | .vsub _ x .. => fOp x e (fun m p q _ => addNum m p q.neg) a b y
  | .vmul _ x .. => fOp x e (fun _ p q _ => mulNum p q) a b y
  | .vfma _ x .. => fOp x e (fun m p q r => addNum m (mulNum p q) r) a b y
  | .vfms _ x .. => fOp x e (fun m p q r => addNum m (mulNum p q) r.neg) a b y
  | .vfnma _ x .. => fOp x e (fun m p q r => addNum m (mulNum p q).neg r) a b y
  | .vmin _ x .. => fOp x e (fun _ p q _ => minMax false p q) a b y
  | .vmax _ x .. => fOp x e (fun _ p q _ => minMax true p q) a b y
  | .vminn _ x .. => fOp x e (fun _ p q _ => minMaxNumber false p q) a b y
  | .vmaxn _ x .. => fOp x e (fun _ p q _ => minMaxNumber true p q) a b y
  | .vabs _ x .. => fOp x e (fun _ p _ _ => absVal p) a b y
  | .vneg _ x .. => fOp x e (fun _ p _ _ => p.neg) a b y
  | .vclamp _ x .. => fOp x e (fun _ p q r => minMax false (minMax true p q) r) a b y
  | .vrnd _ x .. => fOp x e (fun m p _ _ => integral m p) a b y
  | .vldx2 _ x .. => ldx2Cell x e a b
  | .vcmp _ x _ _ _ cc =>
    if fCond cc.toNat (cellF (fpOf x.f.toNat) a) (cellF (fpOf x.f.toNat) b) then 1 else 0
  | .vsel .. => if y = 0 then b else a
  | .viadd _ x .. => iOp x (fun p q _ => p + q) a b y
  | .visub _ x .. => iOp x (fun p q _ => p - q) a b y
  | .vimul _ x .. => iOp x (fun p q _ => p * q) a b y
  | .vimulh _ x .. => iOp x (fun p q _ => p * q / 2 ^ typeWidth (x.f.toNat % 8)) a b y
  | .viand _ x .. => bitOp x (fun _ p q => Nat.land p q) a b
  | .vior _ x .. => bitOp x (fun _ p q => Nat.lor p q) a b
  | .vixor _ x .. => bitOp x (fun _ p q => Nat.xor p q) a b
  | .vishl _ x .. => bitOp x (fun w p q => p * 2 ^ (q % w)) a b
  | .vishr _ x .. => bitOp x (fun w p q => p / 2 ^ (q % w)) a b
  | .visra _ x .. => bitOp x (fun w p q => sraBits w p (q % w)) a b
  | .vimin _ x .. => iOp x (fun p q _ => Min.min p q) a b y
  | .vimax _ x .. => iOp x (fun p q _ => Max.max p q) a b y
  | .viabs _ x .. => iOp x (fun p _ _ => p.natAbs) a b y
  | .vicmp _ x _ _ _ cc => if iCond (x.f.toNat % 8) cc.toNat a b then 1 else 0
  | .viclamp _ x .. => iOp x (fun p q r => Min.min (Max.max p q) r) a b y
  | .vcvt _ x _ _ k => BitVec.ofInt 32 (cvtVal x k e (16 * col + row) a.toNat 0)
  | .vcvts _ x _ _ _ k => BitVec.ofInt 32 (cvtVal x k e (16 * col + row) a.toNat b.toInt)
  | .vmov .. => a
  | .vbc .. => s
  | .viota .. => BitVec.ofNat 32 (64 * row + col)
  | .vins _ _ _ _ r c => if row = r.val ∧ col = c.val then s else d
  | .kand .. => a &&& b
  | .kor .. => a ||| b
  | .kxor .. => a ^^^ b
  | .knot .. => 1 - a
  | .kmov .. => a
  | .xexp2 _ x .. => fOp x e (fun _ p _ _ => exp2Num p) a b y
  | .xlog2 _ x .. => fOp x e (fun _ p _ _ => log2Num p) a b y
  | .xrcp _ x .. => fOp x e (fun _ p _ _ => rcpNum p) a b y
  | .xrsqrt _ x .. => fOp x e (fun _ p _ _ => rsqrtNum p) a b y
  | .xsqrt _ x .. => fOp x e (fun _ p _ _ => sqrtNum p) a b y
  | .xdiv _ x .. => fOp x e (fun _ p q _ => divNum p q) a b y
  | .xrng .. => rngCell e row col
  | _ => 0

/-- The amount of a rotation. -/
def rotBy (n : Rot) (s : Word32) (m : Nat) : Nat :=
  match n with
  | .imm n => n.val % m
  | .reg _ => s.toNat % m

/-- One slice of an instruction that moves cells within it (R184, R185): mask bits, slice of A. -/
def sliceFn (i : Instr) (e : CEnv) (msk : BitVec 16) (a : Cells) (s : Word32) : Cells :=
  match i with
  | .vcbc _ _ _ _ r => mkSlice fun _ => cellAt a r.val
  | .vcrot _ _ _ _ n => let k := rotBy n s 16; mkSlice fun row => cellAt a ((row + 16 - k) % 16)
  | .vcred _ x _ _ op =>
    let v := foldCells x e op.toNat ((List.range 16).map fun r => (msk.getLsbD r, cellAt a r))
    mkSlice fun _ => v
  | _ => []

/-- The cells of a row with their mask bits. -/
def rowCells (msk a : Cells) (r : Nat) : List (Bool × Word32) :=
  (List.range 64).map fun c => (cellAt msk (64 * r + c) != 0, cellAt a (64 * r + c))

/-- A register in which row r holds the list given for it. -/
def ofRows (f : Nat → List Word32) : Cells :=
  let rows := (List.range 16).map f
  mkReg fun r c => (rows.getD r []).getD c 0

/-- A whole register of an instruction that moves cells along rows (R181, R182, R184, R185): mask,
A, B, s[S][31:0]. -/
def rowFn (i : Instr) (e : CEnv) (msk a b : Cells) (s : Word32) : Cells :=
  match i with
  | .vrbc _ _ _ _ c => mkReg fun row _ => cellAt a (64 * row + c.val)
  | .vrrot _ _ _ _ n => let k := rotBy n s 64; mkReg fun row col => cellAt a (64 * row + (col + 64 - k) % 64)
  | .vrred _ x _ _ op => ofRows fun r =>
      let v := foldCells x e op.toNat (rowCells msk a r)
      List.replicate 64 v
  | .vrscan _ x _ _ op => ofRows fun r => scanCells (fpOf x.f.toNat) (rndMode x.rnd e) op.toNat none (rowCells msk a r)
  | .vperm .. => mkReg fun row col => cellAt a (64 * row + (cellAt b (64 * row + col)).toNat % 64)
  | .vtrn .. => mkReg fun row col => cellAt a (64 * (col % 16) + 16 * (col / 16) + row)
  | .vpack _ x _ _ _ k => packReg x k e a b
  | .vunpk _ x _ _ p k => unpackReg x k e p.val a
  | _ => []

/-- The value for an s register (R184, R185): the fold of every cell, or one cell. -/
def toSFn (i : Instr) (e : CEnv) (msk a : Cells) : Word :=
  match i with
  | .vrred _ x _ _ op => (foldCells x e op.toNat ((List.range 16).flatMap fun r => rowCells msk a r)).setWidth 64
  | .vext _ _ _ _ r c => (cellAt a (64 * r.val + c.val)).setWidth 64
  | _ => 0

/-! ## One group cycle of the wavefront -/

/-- What a cell result of a wavefront depends on besides its operands. -/
def waveEnv (w : Wave) : CEnv := { mode := modeOf w.rmode.toNat, key := w.key, ctr := w.ctr }

/-- Slice c of a source as it stands. -/
def srcSlice (m : Member) (w : Wave) (c : Nat) : VSrc → Alts Cells
  | .v r => (vSlice m r c).alts
  | .pop => mapAlts (sliceOf c) (resolveAll w.out (w.pop.getD []))
  | .k r => plain (bitCells (kSlice m r c))

/-- Slice c of the destination, where it is an extra first source (R154, R175, R184). -/
def dstSlice (m : Member) (sh : VShape) (c : Nat) : Alts Cells :=
  match sh.dst with
  | .v r => if sh.usesD ∨ sh.msk.val ≠ 0 then (vSlice m r c).alts else plain []
  | .k r => plain (bitCells (kSlice m r c))
  | _ => plain []

/-- New cells where the mask bit is 1, the destination's elsewhere (R175). -/
def maskCells (msk : BitVec 16) (d x : Cells) : Cells :=
  if msk = 0xffff then x else mkSlice fun r => if msk.getLsbD r then cellAt x r else cellAt d r

/-- A write to slice c of the destination, due at the end of a group cycle. -/
def sliceWrite (w : Wave) (tgt : VTgt) (c due : Nat) (res : Alts Cells) (keep : BitVec 16 := 0) : SliceWrite :=
  { tgt := tgt, slice := c, res := res, lit := w.lit, out := w.out, due := due, q := w.q, seq := w.seq, addr := w.addr, keep := keep }

/-- The register a wavefront writes slice by slice. -/
def waveTgt : VDest → Option VTgt
  | .v r => some (.v r)
  | .k r => some (.k r)
  | _ => none

/-- The result of a slice that needs nothing of other slices (R172). -/
def localSlice (m : Member) (w : Wave) (sh : VShape) (c : Nat) : Alts Cells :=
  let e := waveEnv w
  let msk := kSlice m sh.msk c
  let ops := pairAll (dstSlice m sh c :: (sh.src.map (srcSlice m w c) ++ [resolveAll w.out w.ss]))
  mapAlts (fun l =>
    let d := l.headD []
    let a := l.getD 1 []
    let s := cellAt (l.getLastD []) 0
    let n := sh.src.length
    let b := if n ≥ 2 then l.getD 2 [] else []
    let y := if n ≥ 3 then l.getD 3 [] else []
    let a := if n = 0 then [] else a
    let x := match sh.moves with
      | .slice => sliceFn w.ins e msk a s
      | _ => mkSlice fun r => cellFn w.ins e r c (cellAt a r) (cellAt b r) (cellAt y r) s (cellAt d r)
    maskCells msk d x) ops

/-- Operand numbers of what a row instruction gathers besides its sources. -/
def gathD : Nat := 14
/-- The mask's number. -/
def gathM : Nat := 15

/-- A wavefront reads slice c of every operand it gathers (R172, R175). -/
def gather (m : Member) (sh : VShape) (c : Nat) (w : Wave) : Wave :=
  let put (g : Tab VAlts) (k : Nat) (a : Alts Cells) : Tab VAlts := tput VAlts.zero g (64 * k + c) { alts := a }
  let g := sh.src.zipIdx.foldl (fun g p => put g p.2 (srcSlice m w c p.1)) w.gath
  let g := put g gathD (dstSlice m sh c)
  { w with gath := put g gathM (plain (bitCells (kSlice m sh.msk c))), full := w.full || c == 63 }

/-- A gathered operand's slice. -/
def gathSlice (w : Wave) (k c : Nat) : Alts Cells := (tget VAlts.zero w.gath (64 * k + c)).alts

/-- A gathered operand put together. -/
def gathered (w : Wave) (k : Nat) : Alts Cells :=
  mapAlts ofSlices (pairAll (cols.map fun c => resolveAll w.out (gathSlice w k c)))

/-- The gathered mask bits of a slice. -/
def gathBits (w : Wave) (c : Nat) : BitVec 16 :=
  match (gathSlice w gathM c).head? with
  | some (_, .val v) => cellBits v
  | _ => 0

/-- The gathered mask. -/
def gathMask (w : Wave) : Cells := ofSlices (cols.map fun c => bitCells (gathBits w c))

/-- Results of a row instruction before its destination is paired in. -/
def rowResult (w : Wave) (sh : VShape) : Alts Cells :=
  let ops := pairAll ((List.range sh.src.length).map (gathered w) ++ [resolveAll w.out w.ss])
  mapAlts (fun l => rowFn w.ins (waveEnv w) (gathMask w) (l.headD [])
    (if sh.src.length ≥ 2 then l.getD 1 [] else []) (cellAt (l.getLastD []) 0)) ops

/-- The writes of a row instruction, one for each slice, due in the wavefront's order. -/
def rowWrites (w : Wave) (sh : VShape) : List SliceWrite :=
  match waveTgt sh.dst with
  | none => []
  | some t =>
    let res := rowResult w sh
    cols.map fun c =>
      sliceWrite w t c (w.t + c + sh.lat - 1)
        (mapAlts (fun l => maskCells (gathBits w c) (l.headD []) (sliceOf c (l.getD 1 [])))
          (pairAll [resolveAll w.out (gathSlice w gathD c), res]))

/-- The results for an s register of what was gathered (R173). -/
def toSResult (w : Wave) : Alts Word :=
  mapAlts (fun a => toSFn w.ins (waveEnv w) (gathMask w) a) (gathered w 0)

/-- The writes of one pair of columns of `vrope`, once its second column has been read (R188). -/
def pairWrites (w : Wave) (sh : VShape) (c : Nat) : List SliceWrite :=
  match waveTgt sh.dst, w.ins with
  | some t, .vrope _ x .. =>
    let e := waveEnv w
    let at' (k c : Nat) : Alts Cells := resolveAll w.out (gathSlice w k c)
    let res (odd : Bool) (col : Nat) : Alts Cells :=
      mapAlts (fun l =>
        let g (i : Nat) : Cells := l.getD i []
        maskCells (gathBits w col) (g 0)
          (mkSlice fun r =>
            let o := ropePair x e (cellAt (g 1) r) (cellAt (g 2) r) (cellAt (g 3) r) (cellAt (g 4) r)
            if odd then o.2 else o.1))
        (pairAll [at' gathD col, at' 0 (c - 1), at' 0 c, at' 1 (c - 1), at' 2 (c - 1)])
    [sliceWrite w t (c - 1) (w.t + c - 1 + sh.lat - 1) (res false (c - 1)),
     sliceWrite w t c (w.t + c + sh.lat - 1) (res true c)]
  | _, _ => []

/-- Additions of a gathered `rtcnt`: the counted values below 256 (R187). -/
def countVals (w : Wave) : List Nat :=
  let msk := gathMask w
  match (gathered w 0).head? with
  | some (_, .val a) =>
    (List.range 1024).filterMap fun k =>
      let v := (cellAt a k).toNat
      if cellAt msk k != 0 && v < 256 then some v else none
  | _ => []

/-- One wavefront in one group cycle: what is left of it, the writes it sends off, the counts. -/
def waveStep (m : Member) (gc : Nat) (w : Wave) : Option Wave × List SliceWrite × Option (Nat × List Nat) :=
  match vShape w.ins with
  | none => (none, [], none)
  | some sh =>
    let c := gc - w.t
    let last := c ≥ 63
    let keep (w : Wave) : Option Wave := if last then none else some w
    match sh.moves with
    | .cell | .slice =>
      (keep w, (waveTgt sh.dst).toList.map fun t => sliceWrite w t c (w.t + c + sh.lat - 1) (localSlice m w sh c) (~~~(kSlice m sh.msk c)), none)
    | .pair =>
      let w := gather m sh c w
      (keep w, if c % 2 = 1 then pairWrites w sh c else [], none)
    | .early => (none, rowWrites w sh, none)
    | .row =>
      let w := if w.full then w else gather m sh c w
      match sh.dst with
      | .s _ => (some w, [], none)
      | .none => (keep w, [], if last then some (w.t + 71, countVals w) else none)
      | _ => (keep w, if last then rowWrites w sh else [], none)

/-- The member after every wavefront has read its slice of this group cycle. -/
def wavesRead (gc : Nat) (m : Member) : Member :=
  let rs := m.fly.waves.map (waveStep m gc)
  { m with fly := { m.fly with
      waves := rs.filterMap fun r => r.1
      slw := m.fly.slw ++ rs.flatMap fun r => r.2.1
      rtc := m.fly.rtc ++ rs.filterMap fun r => r.2.2 } }

/-! ## Landing -/

/-- Two targets are one register slice. -/
def sameSlice (x y : SliceWrite) : Bool := x.tgt == y.tgt && x.slice == y.slice

/-- Among writes to one slice that land together, the one that stands: the lowest queue code, and of one
column the instruction issued later (R16). -/
def beats (x y : SliceWrite) : Bool := x.q.code < y.q.code || (x.q == y.q && y.seq < x.seq)

/-- A write lands in its slice (R156); a k bit whose mask bit is 0 keeps its value (R175), and the breadth that a v
register reaches is noted (R157). -/
def landSlice (m : Member) (x : SliceWrite) : Member :=
  match x.tgt with
  | .v r =>
    let a := landAlts (vSlice m r x.slice).alts x.res x.lit x.out
    noteBreadth (setVSlice m r x.slice { alts := a }) a.length
  | .k r =>
    match x.res.head? with
    | some (_, .val v) => setKSlice m r x.slice ((kSlice m r x.slice &&& x.keep) ||| (cellBits v &&& ~~~x.keep))
    | _ => m

/-- A slice of a v register that landed for a token in this tick, or that another column wrote: queue code and address. -/
def landedAt (m : Member) (x : SliceWrite) : Option (Nat × Nat) :=
  match x.tgt with
  | .v r => (m.fly.landedV.find? fun y => y.1 == r && y.2.1 == x.slice).map fun y => y.2.2
  | .k _ => none

/-- What is told of two writes to one place: the addresses of the one that stands, of the lower queue code, and of the
other (R16). -/
def lostOf (a b : Nat × Nat) : Nat × Nat := if a.1 < b.1 then (a.2, b.2) else (b.2, a.2)

/-- The slice writes due in a group cycle land; collisions are told by the addresses of the write that
stands and of one that is lost. -/
def landSlices (gc : Nat) (m : Member) : Member × Option (Nat × Nat) :=
  let due := m.fly.slw.filter fun x => x.due ≤ gc
  let first := due.filter fun x => !(due.any fun y => sameSlice x y && beats y x)
  let stand := first.filter fun x => !((landedAt m x).any fun y => decide (y.1 ≤ x.q.code))
  let lost := due.findSome? fun x =>
    match due.find? fun y => sameSlice x y && y.q.code < x.q.code with
    | some y => some (y.addr, x.addr)
    | none => ((landedAt m x).filter fun y => y.1 != x.q.code).map fun y => lostOf y (x.q.code, x.addr)
  let wait := stand.filterMap fun x => match x.tgt with
    | .v r => if vPending m r then some (r, x.slice, x.q.code, x.addr) else none
    | .k _ => none
  let m := stand.foldl landSlice { m with fly := { m.fly with
    slw := m.fly.slw.filter fun x => !(x.due ≤ gc)
    landedV := m.fly.landedV ++ wait } }
  (m, lost)

/-! ## Reading ahead -/

/-- Gathers the slices a wavefront has not read yet, as the writes in flight leave them when it would
enter each (R172, R173): from group cycle gc on, k slices further.
DEDUCED (log 36), unsafe. -/
def gatherAhead (sh : VShape) : Nat → Nat → Member → Wave → Wave
  | 0, _, _, w => w
  | k + 1, gc, m, w =>
    let w := gather m sh (gc - w.t) w
    let m := (landSlices gc (wavesRead gc m)).1
    gatherAhead sh k (gc + 1) { m with fly := { m.fly with landedV := [] } } w

/-- A wavefront with every slice gathered, from the member's group cycle on. -/
def gatherRest (m : Member) (gc : Nat) (sh : VShape) (w : Wave) : Wave :=
  if w.full then w else gatherAhead sh (64 - (gc - w.t)) gc m w

end Sys2Proof.Machine
end

