-- ==== Sys2Proof/Machine/Vector.lean ====
section
/-! DEFINITION. The V and X instructions (R172 to R190): what happens at their issue; the wavefront does
the rest. -/

namespace Sys2Proof.Machine

open Sys2Proof

/-- The v registers an instruction reads or writes, its destination last (R26). -/
def vRegs (sh : VShape) : List VReg :=
  sh.src.filterMap (fun x => match x with | .v r => some r | _ => none) ++
  match sh.dst with | .v r => [r] | _ => []

/-- The s registers an instruction reads or writes. -/
def vSRegs (sh : VShape) : List SReg :=
  sh.sreg.toList ++ match sh.dst with | .s r => [r] | _ => []

/-- A write to a v or k register that a V or X instruction issued now would not meet in slice 0 (R25,
R27). -/
def vInFlight (m : Member) (t : VTgt) : Option Nat :=
  match m.fly.slw.find? (fun x => x.tgt == t && x.slice == 0) with
  | some x => some x.addr
  | none => (m.fly.waves.find? fun w => match vShape w.ins with
      | some sh => waveTgt sh.dst == some t && (sh.moves == .row || w.t == m.ctl.gc)
      | none => false).map Wave.addr

/-- The registers whose reading CHK_RAW checks (R27). -/
def vChecked (sh : VShape) : List VTgt :=
  sh.src.filterMap (fun x => match x with | .v r => some (.v r) | .k r => some (.k r) | .pop => none) ++
  (if sh.msk.val = 0 then [] else [.k sh.msk]) ++
  (if sh.usesD || sh.msk.val != 0 then (waveTgt sh.dst).toList else [])

/-- HAZARD of a V or X instruction (R27). -/
def vHazard (m : Member) (sh : VShape) : Except Stop Unit :=
  if m.spr.chkRaw then
    match (vChecked sh).findSome? (vInFlight m) with
    | some a => .error (.trap (hazardTrap a))
    | none => .ok ()
  else .ok ()

/-- Instructions that write a k register or act on shared state wait for open conditions (R176). -/
def vWaits (sh : VShape) : Bool :=
  match sh.dst with
  | .k _ | .none => true
  | _ => false

/-- `Pop` of LDQ-V (R48, R50). -/
def popV (s : State) (n : Nat) : Except Stop (Alts Cells × State) :=
  let m := mem s n
  match m.l.ldqV with
  | [] => .error (.wait .ldqV)
  | g :: r => .ok (g, setMem s n { m with l := { m.l with ldqV := r } })

/-- The entry an instruction pops, where field A names it (R228). -/
def takePopV (s : State) (n : Nat) (sh : VShape) : Except Stop (Option (Alts Cells) × State) :=
  if sh.src.contains .pop then do
    let (g, s) ← popV s n
    .ok (some g, s)
  else .ok (none, s)

/-- Blocks an instruction draws (R183, R190). -/
def drawBlocks (i : Instr) : Nat :=
  match i with
  | .xrng .. => 256
  | .vcvt _ x .. | .vcvts _ x .. => if x.rnd = 4 then 128 else 0
  | .vpack _ x _ _ _ k =>
    if x.rnd = 4 then (match formatOf k.tf.toNat with | .mx _ => 128 | _ => 256) else 0
  | _ => 0

/-- The alternatives of a wavefront's result in slice 0, without their values: as it has gathered them, or as they stand. -/
def waveAlts (m : Member) (sh : VShape) (w : Wave) : Alts Unit :=
  let ops := if w.t < m.ctl.gc then
      gathSlice w gathD 0 :: ((List.range sh.src.length).map (fun k => gathSlice w k 0) ++ [w.ss])
    else dstSlice m sh 0 :: (sh.src.map (srcSlice m w 0) ++ [w.ss])
  mapAlts (fun _ => ()) (pairAll (ops.map (resolveAll w.out)))

/-- A wavefront has not yet sent off its write of slice 0. -/
def beforeSlice0 (m : Member) (sh : VShape) (w : Wave) : Bool :=
  match sh.moves with
  | .row => true
  | .pair => decide (m.ctl.gc ≤ w.t + 1)
  | _ => decide (m.ctl.gc ≤ w.t)

/-- The writes of slice 0 of a v register in flight, each with the group cycle at whose end it lands. -/
def flyAlts (m : Member) (r : VReg) : List (Nat × Alts Unit × Option Lit × List Lit) :=
  ((m.fly.slw.filter fun x => x.tgt == .v r && x.slice == 0).map fun x => (x.due, mapAlts (fun _ => ()) x.res, x.lit, x.out)) ++
  m.fly.waves.filterMap fun w =>
    match vShape w.ins with
    | some sh => if waveTgt sh.dst == some (.v r) && beforeSlice0 m sh w then some (w.t + sh.lat - 1, waveAlts m sh w, w.lit, w.out) else none
    | none => none

/-- The most alternatives the destination comes to hold as the writes in flight to it and this one land, counted in the
slice entered first (R157). -/
def vCount (m : Member) (sh : VShape) (w : Wave) : Nat :=
  match sh.dst with
  | .v r => breadthOf (mapAlts (fun _ => ()) (vSlice m r 0).alts)
      ((sortBy (byKey Prod.fst) (flyAlts m r ++ [(m.ctl.gc + sh.lat - 1, waveAlts m sh w, w.lit, [])])).map Prod.snd)
  | .s r => lateBreadth m r (mapAlts (fun _ => 0) (waveAlts m sh w)) w.lit
  | _ => 1

/-- The wavefront of an instruction issued now. -/
def newWave (s : State) (l : Lane) (n : Nat) (i : Instr) (ss : Alts Cells) (pop : Option (Alts Cells))
    (lit : Option Lit) : Wave :=
  let m := mem s n
  { ins := i, q := l.q, addr := l.ln.addr, seq := s.fresh, t := m.ctl.gc, lit := lit, out := [],
    rmode := m.spr.rmode, ss := ss, pop := pop, key := m.spr.rngKey, ctr := m.spr.rngCtr, gath := [],
    full := false }

/-- A v register among the sources holds more than one alternative in some slice as the wavefront of an instruction
issued now will read it (R172, R176). -/
def vSplit (s : State) (l : Lane) (n : Nat) (i : Instr) (sh : VShape) : Option VReg :=
  let m := mem s n
  if openMask m = 0 then none
  else
    let w := gatherRest m m.ctl.gc sh (newWave s l n i (plain []) none none)
    sh.src.zipIdx.findSome? fun x => match x.1 with
      | .v r => if cols.any fun c => (gathSlice w x.2 c).length > 1 then some r else none
      | _ => none

/-- The s source of an instruction, its low half in cell 0 (R172). -/
def vScalar (s : State) (l : Lane) (sh : VShape) : Except Stop (Alts Cells) :=
  match sh.sreg with
  | none => .ok (plain [])
  | some r => do
    let a ← readS s l.who r
    .ok (mapAlts (fun v => tput (0 : Word32) [] 0 (v.setWidth 32)) a)

/-- The wavefront of an instruction sets out, sources that later slices hold gathered at once where its
latency leaves no time to meet them. Of a V and an X instruction that draw from the Philox counter in one group cycle,
V draws first, which is the model's choice (R78).
DESIGN CHOICE (log 140), unsafe. -/
def launchWave (m : Member) (sh : VShape) (w : Wave) (blocks : Nat) : Member :=
  let w := if sh.moves = .early then gatherRest m m.ctl.gc sh w else w
  { m with fly := { m.fly with waves := m.fly.waves ++ [w] }
           spr := { m.spr with rngCtr := m.spr.rngCtr + BitVec.ofNat 128 blocks } }

/-- The checks of a V or X instruction at its issue: pending registers, open conditions of the wait
class, the pop, and hazards (R26, R27, R153, R176). -/
def vReady (s : State) (n : Nat) (l : Lane) (h : Hd) (i : Instr) (sh : VShape) :
    Except Stop (Act × Option (Alts Cells) × State) := do
  let m := mem s n
  let act := memAct m h
  if act = .never then do
    let (_, s) ← takePopV s n sh
    .ok (act, none, s)
  else do
    needLanded s l.who (vSRegs sh)
    needV m (vRegs sh)
    if vWaits sh then
      match act, vSplit s l n i sh with
      | .lit x, _ => .error (.wait (.litOpen x.1))
      | _, some r => .error (.wait (.vAlts r))
      | _, none => .ok ()
    let (p, s) ← takePopV s n sh
    waitUnless (!(vWaits sh && (p.getD []).length > 1)) (.popAlts true)
    vHazard m sh
    .ok (act, p, s)

/-- The issue of a V or X instruction: its sources set out on the wavefront (R172), an s destination is
pending until tick u + 71 (R173), and more than four alternatives are BREADTH (R157). -/
def vIssue (s : State) (l : Lane) (h : Hd) (i : Instr) : Except Stop (State × Nat) := do
  let n ← memOnly l
  match vShape i with
  | none => illegal
  | some sh => do
    let (act, p, s) ← vReady s n l h i sh
    if act = .never then .ok (s, 1)
    else do
      let ss ← vScalar s l sh
      let w := newWave s l n i ss p (actLit act)
      let cnt := vCount (mem s n) sh w
      if cnt > 4 then .error (.trap (breadthTrap (mem s n) cnt))
      else
        let s := updMem { s with fresh := s.fresh + 1 } n fun m => noteBreadth (launchWave m sh w (drawBlocks i)) cnt
        .ok (match sh.dst with
          | .s d => schedule s l d (s.cal + 71) (.wave w.seq) (actLit act)
          | _ => s, 1)

/-- A k register as its slices will stand when an instruction issued now enters each (R172). -/
def maskAhead (s : State) (l : Lane) (n : Nat) (i : Instr) (sh : VShape) : Cells :=
  let m := mem s n
  let w := gatherRest m m.ctl.gc sh (newWave s l n i (plain []) none none)
  match (gathered w 0).head? with
  | some (_, .val a) => a
  | _ => []

/-- `kpop`: number of one bits (R186). -/
def popMask (a : Cells) : Word := BitVec.ofNat 64 a.length

/-- `kfst`: the least set position, 1,024 where there is none (R186). -/
def firstMask (a : Cells) : Word := BitVec.ofNat 64 ((a.head?.map Prod.fst).getD 1024)

/-- `kpop` and `kfst` write their s register with latency 6 (R173, R186). -/
def maskToS (s : State) (l : Lane) (h : Hd) (i : Instr) (d : SReg) (f : Cells → Word) :
    Except Stop (State × Nat) := do
  let n ← memOnly l
  match vShape i with
  | none => illegal
  | some sh => do
    let (act, _, s) ← vReady s n l h i sh
    if act = .never then .ok (s, 1)
    else do
      let s ← writeS s l d (plain (f (maskAhead s l n i sh))) 6 (actLit act)
      .ok (s, 1)

/-- A move of LDQ-V binds its destination, as `bindsC` says of LDQ-C. -/
def bindsV (m : Member) : Bool :=
  match m.l.ldqV with
  | [] => true
  | g :: _ => holdsOwn g

/-- Binds v[D] to the entry of LDQ-V still to come, or to the head (R50). -/
def bindV (s : State) (l : Lane) (n : Nat) (d : VReg) : Except Stop (State × Nat) := do
  let m := mem s n
  match m.l.ldqV with
  | g :: r =>
    let x : Land := { tok := s.fresh, due := s.cal, val := .v g, lit := none, out := [], q := l.q, addr := l.ln.addr }
    .ok (setMem { s with fresh := s.fresh + 1 } n
      { markV m d s.fresh with l := { m.l with ldqV := r }, fly := { m.fly with lands := m.fly.lands ++ [x] } }, 1)
  | [] => do
    waitUnless (decide (m.l.bindV.length < 16)) .bindV
    .ok (setMem { s with fresh := s.fresh + 1 } n
      { markV m d s.fresh with l := { m.l with bindV := m.l.bindV ++ [(s.fresh, l.ln.addr)] } }, 1)

/-- `vmov` of LDQ-V with nothing in the queue binds its destination, when it replaces it whole (R50). -/
def moveV (s : State) (l : Lane) (h : Hd) (x : VExt) (d : VReg) (i : Instr) : Except Stop (State × Nat) := do
  let n ← memOnly l
  if h.qp ∧ memAct (mem s n) h = .always ∧ x.msk.val = 0 ∧ bindsV (mem s n) then do
    needV (mem s n) [d]
    bindV s l n d
  else vIssue s l h i

/-! ## The instructions -/

/-- `vadd` (R177). -/
def execVadd (h : Hd) (x : VExt) (d a b : VReg) (s : State) :
    Host.Outcome State Fault Refusal :=
  lockstep s fun l => vIssue s l h (.vadd h x d a b)

/-- `vsub` (R177). -/
def execVsub (h : Hd) (x : VExt) (d a b : VReg) (s : State) :
    Host.Outcome State Fault Refusal :=
  lockstep s fun l => vIssue s l h (.vsub h x d a b)

/-- `vmul` (R177). -/
def execVmul (h : Hd) (x : VExt) (d a b : VReg) (s : State) :
    Host.Outcome State Fault Refusal :=
  lockstep s fun l => vIssue s l h (.vmul h x d a b)

/-- `vfma` (R177). -/
def execVfma (h : Hd) (x : VExt) (d a b y : VReg) (s : State) :
    Host.Outcome State Fault Refusal :=
  lockstep s fun l => vIssue s l h (.vfma h x d a b y)

/-- `vfms` (R177). -/
def execVfms (h : Hd) (x : VExt) (d a b y : VReg) (s : State) :
    Host.Outcome State Fault Refusal :=
  lockstep s fun l => vIssue s l h (.vfms h x d a b y)

/-- `vfnma` (R177). -/
def execVfnma (h : Hd) (x : VExt) (d a b y : VReg) (s : State) :
    Host.Outcome State Fault Refusal :=
  lockstep s fun l => vIssue s l h (.vfnma h x d a b y)

/-- `vmin` (R177). -/
def execVmin (h : Hd) (x : VExt) (d a b : VReg) (s : State) :
    Host.Outcome State Fault Refusal :=
  lockstep s fun l => vIssue s l h (.vmin h x d a b)

/-- `vmax` (R177). -/
def execVmax (h : Hd) (x : VExt) (d a b : VReg) (s : State) :
    Host.Outcome State Fault Refusal :=
  lockstep s fun l => vIssue s l h (.vmax h x d a b)

/-- `vminn` (R177). -/
def execVminn (h : Hd) (x : VExt) (d a b : VReg) (s : State) :
    Host.Outcome State Fault Refusal :=
  lockstep s fun l => vIssue s l h (.vminn h x d a b)

/-- `vmaxn` (R177). -/
def execVmaxn (h : Hd) (x : VExt) (d a b : VReg) (s : State) :
    Host.Outcome State Fault Refusal :=
  lockstep s fun l => vIssue s l h (.vmaxn h x d a b)

/-- `vabs` (R177). -/
def execVabs (h : Hd) (x : VExt) (d a : VReg) (s : State) :
    Host.Outcome State Fault Refusal :=
  lockstep s fun l => vIssue s l h (.vabs h x d a)

/-- `vneg` (R177). -/
def execVneg (h : Hd) (x : VExt) (d a : VReg) (s : State) :
    Host.Outcome State Fault Refusal :=
  lockstep s fun l => vIssue s l h (.vneg h x d a)

/-- `vcmp` (R178). -/
def execVcmp (h : Hd) (x : VExt) (d : KReg) (a b : VReg) (cc : BitVec 4) (s : State) :
    Host.Outcome State Fault Refusal :=
  lockstep s fun l => vIssue s l h (.vcmp h x d a b cc)

/-- `vsel` (R177). -/
def execVsel (h : Hd) (x : VExt) (d a b : VReg) (y : KReg) (s : State) :
    Host.Outcome State Fault Refusal :=
  lockstep s fun l => vIssue s l h (.vsel h x d a b y)

/-- `vclamp` (R177). -/
def execVclamp (h : Hd) (x : VExt) (d a b y : VReg) (s : State) :
    Host.Outcome State Fault Refusal :=
  lockstep s fun l => vIssue s l h (.vclamp h x d a b y)

/-- `vldx2` (R177). -/
def execVldx2 (h : Hd) (x : VExt) (d a b : VReg) (s : State) :
    Host.Outcome State Fault Refusal :=
  lockstep s fun l => vIssue s l h (.vldx2 h x d a b)

/-- `vrnd` (R177). -/
def execVrnd (h : Hd) (x : VExt) (d a : VReg) (s : State) :
    Host.Outcome State Fault Refusal :=
  lockstep s fun l => vIssue s l h (.vrnd h x d a)

/-- `viadd` (R179). -/
def execViadd (h : Hd) (x : VExt) (d a b : VReg) (s : State) :
    Host.Outcome State Fault Refusal :=
  lockstep s fun l => vIssue s l h (.viadd h x d a b)

/-- `visub` (R179). -/
def execVisub (h : Hd) (x : VExt) (d a b : VReg) (s : State) :
    Host.Outcome State Fault Refusal :=
  lockstep s fun l => vIssue s l h (.visub h x d a b)

/-- `vimul` (R179). -/
def execVimul (h : Hd) (x : VExt) (d a b : VReg) (s : State) :
    Host.Outcome State Fault Refusal :=
  lockstep s fun l => vIssue s l h (.vimul h x d a b)

/-- `vimulh` (R179). -/
def execVimulh (h : Hd) (x : VExt) (d a b : VReg) (s : State) :
    Host.Outcome State Fault Refusal :=
  lockstep s fun l => vIssue s l h (.vimulh h x d a b)

/-- `viand` (R179). -/
def execViand (h : Hd) (x : VExt) (d a b : VReg) (s : State) :
    Host.Outcome State Fault Refusal :=
  lockstep s fun l => vIssue s l h (.viand h x d a b)

/-- `vior` (R179). -/
def execVior (h : Hd) (x : VExt) (d a b : VReg) (s : State) :
    Host.Outcome State Fault Refusal :=
  lockstep s fun l => vIssue s l h (.vior h x d a b)

/-- `vixor` (R179). -/
def execVixor (h : Hd) (x : VExt) (d a b : VReg) (s : State) :
    Host.Outcome State Fault Refusal :=
  lockstep s fun l => vIssue s l h (.vixor h x d a b)

/-- `vishl` (R179). -/
def execVishl (h : Hd) (x : VExt) (d a b : VReg) (s : State) :
    Host.Outcome State Fault Refusal :=
  lockstep s fun l => vIssue s l h (.vishl h x d a b)

/-- `vishr` (R179). -/
def execVishr (h : Hd) (x : VExt) (d a b : VReg) (s : State) :
    Host.Outcome State Fault Refusal :=
  lockstep s fun l => vIssue s l h (.vishr h x d a b)

/-- `visra` (R179). -/
def execVisra (h : Hd) (x : VExt) (d a b : VReg) (s : State) :
    Host.Outcome State Fault Refusal :=
  lockstep s fun l => vIssue s l h (.visra h x d a b)

/-- `vimin` (R179). -/
def execVimin (h : Hd) (x : VExt) (d a b : VReg) (s : State) :
    Host.Outcome State Fault Refusal :=
  lockstep s fun l => vIssue s l h (.vimin h x d a b)

/-- `vimax` (R179). -/
def execVimax (h : Hd) (x : VExt) (d a b : VReg) (s : State) :
    Host.Outcome State Fault Refusal :=
  lockstep s fun l => vIssue s l h (.vimax h x d a b)

/-- `viabs` (R179). -/
def execViabs (h : Hd) (x : VExt) (d a : VReg) (s : State) :
    Host.Outcome State Fault Refusal :=
  lockstep s fun l => vIssue s l h (.viabs h x d a)

/-- `vicmp` (R179). -/
def execVicmp (h : Hd) (x : VExt) (d : KReg) (a b : VReg) (cc : BitVec 4) (s : State) :
    Host.Outcome State Fault Refusal :=
  lockstep s fun l => vIssue s l h (.vicmp h x d a b cc)

/-- `viclamp` (R179). -/
def execViclamp (h : Hd) (x : VExt) (d a b y : VReg) (s : State) :
    Host.Outcome State Fault Refusal :=
  lockstep s fun l => vIssue s l h (.viclamp h x d a b y)

/-- `vcvt` (R180). -/
def execVcvt (h : Hd) (x : VExt) (d a : VReg) (k : Cvt) (s : State) :
    Host.Outcome State Fault Refusal :=
  lockstep s fun l => vIssue s l h (.vcvt h x d a k)

/-- `vcvts` (R180). -/
def execVcvts (h : Hd) (x : VExt) (d a b : VReg) (k : Cvt) (s : State) :
    Host.Outcome State Fault Refusal :=
  lockstep s fun l => vIssue s l h (.vcvts h x d a b k)

/-- `vpack` (R181). -/
def execVpack (h : Hd) (x : VExt) (d a b : VReg) (k : Cvt) (s : State) :
    Host.Outcome State Fault Refusal :=
  lockstep s fun l => vIssue s l h (.vpack h x d a b k)

/-- `vunpk` (R182). -/
def execVunpk (h : Hd) (x : VExt) (d a : VReg) (p : Fin 32) (k : Cvt) (s : State) :
    Host.Outcome State Fault Refusal :=
  lockstep s fun l => vIssue s l h (.vunpk h x d a p k)

/-- `vmov` (R184, R50). -/
def execVmov (h : Hd) (x : VExt) (d a : VReg) (s : State) :
    Host.Outcome State Fault Refusal :=
  lockstep s fun l => moveV s l h x d (.vmov h x d a)

/-- `vbc` (R184). -/
def execVbc (h : Hd) (x : VExt) (d : VReg) (r : SReg) (s : State) :
    Host.Outcome State Fault Refusal :=
  lockstep s fun l => vIssue s l h (.vbc h x d r)

/-- `vrbc` (R184). -/
def execVrbc (h : Hd) (x : VExt) (d a : VReg) (col : Fin 64) (s : State) :
    Host.Outcome State Fault Refusal :=
  lockstep s fun l => vIssue s l h (.vrbc h x d a col)

/-- `vcbc` (R184). -/
def execVcbc (h : Hd) (x : VExt) (d a : VReg) (row : Fin 16) (s : State) :
    Host.Outcome State Fault Refusal :=
  lockstep s fun l => vIssue s l h (.vcbc h x d a row)

/-- `vrrot` (R184). -/
def execVrrot (h : Hd) (x : VExt) (d a : VReg) (n : Rot) (s : State) :
    Host.Outcome State Fault Refusal :=
  lockstep s fun l => vIssue s l h (.vrrot h x d a n)

/-- `vcrot` (R184). -/
def execVcrot (h : Hd) (x : VExt) (d a : VReg) (n : Rot) (s : State) :
    Host.Outcome State Fault Refusal :=
  lockstep s fun l => vIssue s l h (.vcrot h x d a n)

/-- `vrred` (R185). -/
def execVrred (h : Hd) (x : VExt) (d : VDst) (a : VReg) (op : BitVec 3) (s : State) :
    Host.Outcome State Fault Refusal :=
  lockstep s fun l => vIssue s l h (.vrred h x d a op)

/-- `vcred` (R185). -/
def execVcred (h : Hd) (x : VExt) (d a : VReg) (op : BitVec 3) (s : State) :
    Host.Outcome State Fault Refusal :=
  lockstep s fun l => vIssue s l h (.vcred h x d a op)

/-- `vrscan` (R185). -/
def execVrscan (h : Hd) (x : VExt) (d a : VReg) (op : BitVec 3) (s : State) :
    Host.Outcome State Fault Refusal :=
  lockstep s fun l => vIssue s l h (.vrscan h x d a op)

/-- `vperm` (R184). -/
def execVperm (h : Hd) (x : VExt) (d a b : VReg) (s : State) :
    Host.Outcome State Fault Refusal :=
  lockstep s fun l => vIssue s l h (.vperm h x d a b)

/-- `vtrn` (R184). -/
def execVtrn (h : Hd) (x : VExt) (d a : VReg) (s : State) :
    Host.Outcome State Fault Refusal :=
  lockstep s fun l => vIssue s l h (.vtrn h x d a)

/-- `viota` (R184). -/
def execViota (h : Hd) (x : VExt) (d : VReg) (s : State) :
    Host.Outcome State Fault Refusal :=
  lockstep s fun l => vIssue s l h (.viota h x d)

/-- `vext` (R184). -/
def execVext (h : Hd) (x : VExt) (d : SReg) (a : VReg) (row : Fin 16) (col : Fin 64) (s : State) :
    Host.Outcome State Fault Refusal :=
  lockstep s fun l => vIssue s l h (.vext h x d a row col)

/-- `vins` (R184). -/
def execVins (h : Hd) (x : VExt) (d : VReg) (r : SReg) (row : Fin 16) (col : Fin 64) (s : State) :
    Host.Outcome State Fault Refusal :=
  lockstep s fun l => vIssue s l h (.vins h x d r row col)

/-- `kand` (R186). -/
def execKand (h : Hd) (x : VExt) (d a b : KReg) (s : State) :
    Host.Outcome State Fault Refusal :=
  lockstep s fun l => vIssue s l h (.kand h x d a b)

/-- `kor` (R186). -/
def execKor (h : Hd) (x : VExt) (d a b : KReg) (s : State) :
    Host.Outcome State Fault Refusal :=
  lockstep s fun l => vIssue s l h (.kor h x d a b)

/-- `kxor` (R186). -/
def execKxor (h : Hd) (x : VExt) (d a b : KReg) (s : State) :
    Host.Outcome State Fault Refusal :=
  lockstep s fun l => vIssue s l h (.kxor h x d a b)

/-- `knot` (R186). -/
def execKnot (h : Hd) (x : VExt) (d a : KReg) (s : State) :
    Host.Outcome State Fault Refusal :=
  lockstep s fun l => vIssue s l h (.knot h x d a)

/-- `kmov` (R186). -/
def execKmov (h : Hd) (x : VExt) (d a : KReg) (s : State) :
    Host.Outcome State Fault Refusal :=
  lockstep s fun l => vIssue s l h (.kmov h x d a)

/-- `kpop` (R186, R173). -/
def execKpop (h : Hd) (x : VExt) (d : SReg) (a : KReg) (s : State) :
    Host.Outcome State Fault Refusal :=
  lockstep s fun l => maskToS s l h (.kpop h x d a) d popMask

/-- `kfst` (R186, R173). -/
def execKfst (h : Hd) (x : VExt) (d : SReg) (a : KReg) (s : State) :
    Host.Outcome State Fault Refusal :=
  lockstep s fun l => maskToS s l h (.kfst h x d a) d firstMask

/-- `rtcnt` (R187). -/
def execRtcnt (h : Hd) (x : VExt) (a : VReg) (s : State) : Host.Outcome State Fault Refusal :=
  lockstep s fun l => vIssue s l h (.rtcnt h x a)

/-- `vrope` (R188). -/
def execVrope (h : Hd) (x : VExt) (d a b y : VReg) (s : State) :
    Host.Outcome State Fault Refusal :=
  lockstep s fun l => vIssue s l h (.vrope h x d a b y)

/-- `xexp2` (R189). -/
def execXexp2 (h : Hd) (x : VExt) (d a : VReg) (s : State) :
    Host.Outcome State Fault Refusal :=
  lockstep s fun l => vIssue s l h (.xexp2 h x d a)

/-- `xlog2` (R189). -/
def execXlog2 (h : Hd) (x : VExt) (d a : VReg) (s : State) :
    Host.Outcome State Fault Refusal :=
  lockstep s fun l => vIssue s l h (.xlog2 h x d a)

/-- `xrcp` (R189). -/
def execXrcp (h : Hd) (x : VExt) (d a : VReg) (s : State) :
    Host.Outcome State Fault Refusal :=
  lockstep s fun l => vIssue s l h (.xrcp h x d a)

/-- `xrsqrt` (R189). -/
def execXrsqrt (h : Hd) (x : VExt) (d a : VReg) (s : State) :
    Host.Outcome State Fault Refusal :=
  lockstep s fun l => vIssue s l h (.xrsqrt h x d a)

/-- `xsqrt` (R189). -/
def execXsqrt (h : Hd) (x : VExt) (d a : VReg) (s : State) :
    Host.Outcome State Fault Refusal :=
  lockstep s fun l => vIssue s l h (.xsqrt h x d a)

/-- `xdiv` (R189). -/
def execXdiv (h : Hd) (x : VExt) (d a b : VReg) (s : State) :
    Host.Outcome State Fault Refusal :=
  lockstep s fun l => vIssue s l h (.xdiv h x d a b)

/-- `xrng` (R190). -/
def execXrng (h : Hd) (x : VExt) (d : VReg) (s : State) :
    Host.Outcome State Fault Refusal :=
  lockstep s fun l => vIssue s l h (.xrng h x d)

end Sys2Proof.Machine
end

