-- ==== Sys2Proof/Machine/Pick.lean ====
section
/-! DEFINITION. `qpick` and `qstat` (R170, R171), which read a register of alternatives as it stands and
write a plain value. -/

namespace Sys2Proof.Machine

open Sys2Proof

/-- A write to some slice of a v or k register is in flight (R27, R467). -/
def vFlight (m : Member) (t : VTgt) : Option Nat :=
  match m.fly.slw.find? (fun x => x.tgt == t) with
  | some x => some x.addr
  | none => (m.fly.waves.find? fun w => match vShape w.ins with
      | some sh => waveTgt sh.dst == some t
      | none => false).map Wave.addr

/-- HAZARD of a read of all slices (R467). -/
def flatHazard (m : Member) (t : VTgt) : Except Stop Unit :=
  if m.spr.chkRaw then
    match vFlight m t with
    | some a => .error (.trap (hazardTrap a))
    | none => .ok ()
  else .ok ()

/-- A write to every slice of a v register at the end of one group cycle (R172). -/
def writeAllV (s : State) (l : Lane) (n : Nat) (d : VReg) (res : Alts Cells) (lat : Nat) (lit : Option Lit) : State :=
  updMem { s with fresh := s.fresh + 1 } n fun m =>
    { m with fly := { m.fly with slw := m.fly.slw ++ cols.map fun c =>
        { tgt := .v d, slice := c, res := mapAlts (sliceOf c) res, lit := lit, out := [],
          due := m.ctl.gc + lat - 1, q := l.q, seq := s.fresh, addr := l.ln.addr, keep := 0 } } }

/-- The alternative `qpick` takes, as the only one; a poison stays a poison (R164, R170). -/
def pickAlt {α : Type} (gm : BitVec 16) (a : Alts α) : Alts α :=
  match a.find? (fun x => compatible x.1 gm) with
  | some (_, v) => [(0, derived id v)]
  | none => a

/-- No literal of a guard mask is a contradiction (R36, R166). -/
def maskOk (g : BitVec 16) : Bool := (g &&& (g >>> 1) &&& 0x5555) == 0

/-- The v register of a 6-bit register field. -/
def vOfField (r : SReg) : VReg := Fin.ofNat 32 r.val

/-- `qpick` (R170). -/
def execQpick (h : Hd) (vr : Bool) (d a : SReg) (gm : BitVec 16) (s : State) : Host.Outcome State Fault Refusal :=
  lockstep s fun l => do
    let n ← memOnly l
    require (!h.gq && maskOk gm && (!vr || decide (d.val < 32 ∧ a.val < 32))) .illegal
    if vr then
      needV (mem s n) [vOfField a, vOfField d]
      flatHazard (mem s n) (.v (vOfField a))
      .ok (writeAllV s l n (vOfField d) (pickAlt gm (flatV (mem s n) (vOfField a))) 4 none, 1)
    else
      needLanded s l.who [a, d]
      let x ← readS s l.who a
      let s ← writeS s l d (pickAlt gm x) 1 none
      .ok (s, 1)

/-- Guard mask of frame i; 0xFFFF where it holds nothing (R171). -/
def frameMask {α : Type} (a : Alts α) (i : Nat) : Nat :=
  match (a.drop i).head? with
  | some x => x.1.toNat
  | none => 0xffff

/-- `qstat` (R171): a pending source is described as it stands. -/
def execQstat (h : Hd) (vr : Bool) (d a : SReg) (s : State) : Host.Outcome State Fault Refusal :=
  lockstep s fun l => do
    let n ← memOnly l
    require (!h.gq && (!vr || decide (d.val < 32 ∧ a.val < 32))) .illegal
    if vr then
      needV (mem s n) [vOfField d]
      flatHazard (mem s n) (.v (vOfField a))
      let x := flatV (mem s n) (vOfField a)
      let cells : Cells := tofn 0 [0, 1, 2, 3] fun i => BitVec.ofNat 32 (frameMask x i)
      .ok (writeAllV s l n (vOfField d) (plain cells) 4 none, 1)
    else
      needLanded s l.who [d]
      let x ← readS s l.who a
      let w := BitVec.ofNat 64 (((List.range 4).map fun i => frameMask x i * 2 ^ (16 * i)).sum)
      let s ← writeS s l d (plain w) 1 none
      .ok (s, 1)

end Sys2Proof.Machine
end

