-- ==== Sys2Proof/Machine/Access.lean ====
section
/-! DEFINITION. The access column at capture (R219, R223 to R236): operands, checks, and the queues an
instruction enters; `xlat` and `hrel`. -/

namespace Sys2Proof.Machine

open Sys2Proof

/-! ## Operands -/

/-- An s register captured (R219). -/
def sSrc (m : Member) (r : SReg) : Src Word :=
  match (sCell m r).pend with
  | some t => .tok t
  | none => .now (sCell m r).alts

/-- A v register captured (R219, R467). -/
def vSrcOf (m : Member) (r : VReg) : Src Cells :=
  match tget 0 m.regs.vp r.val with
  | 0 => .now (flatV m r)
  | t + 1 => .tok t

/-- An h register captured (R219). While its `xlat` has not landed the capture is bound to it, and an `hrel` in between
clears the register alone (R234).
DEDUCED (log 170), unsafe. -/
def hSrcOf (m : Member) (r : HReg) : HSrc :=
  match tget 0 m.regs.hp r.val with
  | 0 => .now (hReg m r)
  | t + 1 => .tok t

/-- The values of captured operands, none while one is still to land. -/
def srcNow {α : Type} : List (Src α) → Option (List (Alts α))
  | [] => some []
  | .now a :: r => (srcNow r).map fun l => a :: l
  | .tok _ :: _ => none

/-- The operand pairings of an entry (R160, R219); none while an operand is still to land. -/
def entPairs (c : Cap) : Option (Alts (List Word × List Cells)) :=
  match srcNow c.ss, srcNow c.vs with
  | some a, some b => some (pairWith Prod.mk (pairAll a) (pairAll b))
  | _, _ => none

/-- The handle of an entry once it is no longer pending. -/
def entHandle (c : Cap) : Option (BitVec 128) :=
  match c.hs with
  | [] => some 0
  | (_, .now h) :: _ => if hPend h then none else some h
  | (_, .tok _) :: _ => none

/-- A captured operand of several alternatives (R159). -/
def srcSplits {α : Type} : Src α → Bool
  | .now a => splits a
  | .tok _ => false

/-- An entry's operands depend on an open slot (R159). -/
def capSplits (c : Cap) : Bool := c.ss.any srcSplits || c.vs.any srcSplits

/-! ## Addresses and pieces (R224 to R227, R278) -/

/-- Bytes of an element of a vector access. -/
def elemBytes (w : BitVec 2) : Nat := if w = 0 then 4 else 2

/-- Offset of an LM address from its offset register's value (R224). -/
def lmOff (m : LMem) (o : Nat) : Nat :=
  (o + if m.as = 0 then m.imm.toNat else m.hn.val * 2 ^ 20 + m.imm.toNat) % 2 ^ 64

/-- The address space an access acts in: 0 a handle's page, else a typed buffer. -/
def spaceOf : Instr → Nat
  | .sld _ m .. | .sst _ m .. | .vld _ m .. | .vst _ m .. | .vldx _ m .. | .vstx _ m .. | .tfill _ m ..
  | .tdrain _ m .. => m.as.toNat
  | _ => 0

/-- A piece of an access: offset in its space, bytes, place in the data moved. -/
structure Piece where
  off : Nat
  n : Nat
  dst : Nat
  deriving DecidableEq, Repr

/-- A run of bytes cut at 32-byte boundaries (R278). -/
def cut : Nat → Nat → Nat → Nat → List Piece
  | 0, _, _, _ => []
  | f + 1, off, n, dst =>
    if n = 0 then []
    else
      let k := min n (32 - off % 32)
      { off := off, n := k, dst := dst } :: cut f (off + k) (n - k) (dst + k)

/-- The mask bit of cell 64 * row + col. -/
def mbit (k : BitVec 1024) (i : Nat) : Bool := k.getLsbD i

/-- Row pieces of a `vld` or `vst`, those without an unmasked cell left out (R227, R278). -/
def rowPieces (off e : Nat) (msk : BitVec 1024) : List Piece :=
  (List.range 16).flatMap fun row =>
    (cut 9 (off + 64 * row * e) (64 * e) (64 * row * e)).filter fun p =>
      (List.range (p.n / e)).any fun i => mbit msk (p.dst / e + i)

/-- First value of a list of words. -/
def w0 (l : List Word) : Nat := (l.headD 0).toNat

/-- Second value of a list of words. -/
def w1 (l : List Word) : Nat := (l.getD 1 0).toNat

/-- Third value of a list of words. -/
def w2 (l : List Word) : Nat := (l.getD 2 0).toNat

/-- Offsets of the elements of an indexed access. -/
def indexPieces (base e : Nat) (o : Cells) (msk : BitVec 1024) : List Piece :=
  (List.range 1024).filterMap fun i =>
    if mbit msk i then some { off := base + (cellAt o i).toNat, n := e, dst := i * e } else none

/-- The pieces of an access from its values (R226, R229, R232, R236). -/
def piecesOf (i : Instr) (msk : BitVec 1024) (ss : List Word) (vs : List Cells) : List Piece :=
  match i with
  | .sld _ m w _ => [{ off := lmOff m (w0 ss), n := 2 ^ w.toNat, dst := 0 }]
  | .sst _ m _ w => [{ off := lmOff m (w1 ss), n := 2 ^ w.toNat, dst := 0 }]
  | .vld _ m w _ => rowPieces (lmOff m (w0 ss)) (elemBytes w) msk
  | .vst _ m _ w => rowPieces (lmOff m (w0 ss)) (elemBytes w) msk
  | .vldx _ m w _ => indexPieces (lmOff m 0) (elemBytes w) (vs.headD []) msk
  | .vstx _ m _ w => indexPieces (lmOff m 0) (elemBytes w) (vs.getD 1 []) msk
  | .atom _ _ _ _ _ _ sz imm => [{ off := (w1 ss + imm.toNat) % 2 ^ 64, n := 4 * 2 ^ sz.toNat, dst := 0 }]
  | .cas _ _ _ _ _ _ sz imm => [{ off := (w2 ss + imm.toNat) % 2 ^ 64, n := 4 * 2 ^ sz.toNat, dst := 0 }]
  | .zfill _ m _ => (List.range (4 * w0 ss)).map fun k => { off := lmOff m (w1 ss) + 32 * k, n := 32, dst := 32 * k }
  | .rst .. => (List.range 128).map fun k => { off := w0 ss + 32 * k, n := 32, dst := 32 * k }
  | _ => []

/-- Pieces are numbered pairing by pairing: piece i of pairing p is pairStride * p + i. An access has fewer pieces
than this: a page holds 2^24 chunks (R232). -/
def pairStride : Nat := 2 ^ 25

/-- The stretch an access spans for its limits, offset and bytes, and the unit of its alignment
(R223 to R226, R232, R235, R236). -/
def spanOf (i : Instr) (msk : BitVec 1024) (ss : List Word) (vs : List Cells) : List (Nat × Nat) × Nat :=
  match i with
  | .vld _ m w _ | .vst _ m _ w => ([(lmOff m (w0 ss), 1024 * elemBytes w)], elemBytes w)
  | .zfill _ m _ | .pin _ m _ | .unpin _ m _ => ([(lmOff m (w1 ss), 128 * w0 ss)], 128)
  | .tfill _ m _ w => ([(lmOff m (w0 ss), if w = 1 then 2048 else 4096)], 2048)
  | .tdrain _ m w => ([(lmOff m (w0 ss), if w = 1 then 2048 else 4096)], 2048)
  | .vldx _ m w _ => ((piecesOf i msk ss vs).map fun p => (p.off, p.n), if m.as = 0 then elemBytes w else elemBytes w)
  | .vstx _ _ _ w => ((piecesOf i msk ss vs).map fun p => (p.off, p.n), elemBytes w)
  | .sld .. | .sst .. | .atom .. | .cas .. =>
    let ps := piecesOf i msk ss vs
    (ps.map fun p => (p.off, p.n), (ps.head?.map Piece.n).getD 1)
  | .rst .. => ([(w0 ss, 4096)], 32)
  | _ => ([], 1)

/-- Bytes of the space an access acts in, a handle's page unknown while the handle is. -/
def spaceBytes (i : Instr) (h : Option (BitVec 128)) : Option Nat :=
  match i with
  | .rst .. => some (2 ^ 21)
  | _ =>
    match spaceOf i with
    | 0 => match h with
      | some h => if h = 0 then none else some (hBytes h)
      | none => none
    | b => some (bufSize b)

/-- The range and alignment checks of an access (R223, R224, R226). -/
def spanOk (i : Instr) (h : Option (BitVec 128)) (msk : BitVec 1024) (ss : List Word) (vs : List Cells) : Bool :=
  let (l, u) := spanOf i msk ss vs
  l.all fun p => p.1 % u == 0 && match spaceBytes i h with
    | some n => decide (p.1 + p.2 ≤ n)
    | none => true

/-- What an access needs of its handle (R225).
DEDUCED (log 52), unsafe. -/
def permOf : Instr → Perm
  | .sld .. | .vld .. | .vldx .. | .pin .. | .unpin .. | .pf .. => .r
  | .atom .. | .cas .. => .a
  | _ => .w

/-! ## Capture (R219) -/

/-- The v, k and s registers an L instruction reads with a write in flight are a HAZARD (R27, R467). -/
def lHazard (s : State) (w : Who) (n : Nat) (ss : List SReg) (vs : List VReg) (k : KReg) : Except Stop Unit := do
  let _ ← readRegs s w (ss.filter fun r => (sCell (mem s n) r).pend.isNone)
  match (vs.filter fun r => !vPending (mem s n) r).findSome? (fun r => match flatHazard (mem s n) (.v r) with
      | .error e => some e
      | .ok _ => none) with
  | some e => .error e
  | none => if k.val = 0 then .ok () else flatHazard (mem s n) (.k k)

/-- The entry of an instruction: its operands captured in operand order. -/
def lCap (s : State) (l : Lane) (n : Nat) (i : Instr) (ss : List SReg) (vs : List VReg) (hs : List HReg)
    (k : KReg) (lit : Option Lit) : Cap :=
  let m := mem s n
  { capAt s l i with ss := ss.map (sSrc m), vs := vs.map (vSrcOf m), hs := hs.map fun r => (r, hSrcOf m r),
                     msk := flatK m k, lit := lit }

/-- The checks that can be made at capture (R223); those of a load under an open condition turn into
poison when it performs. -/
def checkNow (c : Cap) : Bool :=
  match entPairs c with
  | none => true
  | some ps => ps.all fun p => match p.2 with
    | .val (ss, vs) => spanOk c.ins (entHandle c) c.msk ss vs
    | .poison .. => true

/-- An entry that delivers to LDQ-C takes its place in the order of capture (R50, R232). -/
def orderC (i : Instr) : Bool :=
  match i with
  | .sld .. | .pin .. => true
  | _ => false

/-- Capture into L's queues. -/
def enterL (s : State) (n : Nat) (c : Cap) : State :=
  updMem s n fun m => pushL { m with l := { m.l with ordC := if orderC c.ins then m.l.ordC ++ [c.seq] else m.l.ordC } } c

/-- A load or prefetch (R159, R219): performed for each pairing, so a qualifier on an open slot does not
hold it.
DEDUCED (log 45), unsafe. -/
def loadL (s : State) (l : Lane) (h : Hd) (i : Instr) (ss : List SReg) (vs : List VReg) (hs : List HReg)
    (k : KReg) : Except Stop (State × Nat) := do
  let n ← memOnly l
  match memAct (mem s n) h with
  | .never => .ok (s, 1)
  | act => do
    lHazard s l.who n ss vs k
    let c := lCap s l n i ss vs hs k none
    require ((actLit act).isSome || capSplits c || checkNow c || (match i with | .pf .. => true | _ => false)) .illegal
    waitUnless (lRoom (mem s n) i) (.queueFull 5)
    .ok (enterL s n { c with lit := actLit act }, 1)

/-- The effect of an access of the held class: it enters its queues, its checks made now (R162, R223). -/
def effL (n : Nat) (s : State) (c : Cap) (_v : List Word) : Except Stop State := do
  require (checkNow c) .illegal
  waitUnless (lRoom (mem s n) c.ins) (.queueFull 5)
  .ok (updMem s n fun m => pushL m c)

/-- An access of the held class (R159 to R161): into its queues, or into the held-store buffer; a
destination is pending from its capture or hold (R222). -/
def storeL (s : State) (l : Lane) (h : Hd) (i : Instr) (d : Option SReg) (ss : List SReg) (vs : List VReg)
    (hs : List HReg) (k : KReg) : Except Stop (State × Nat) := do
  let n ← memOnly l
  match memAct (mem s n) h with
  | .never => .ok (s, 1)
  | act => do
    lHazard s l.who n ss vs k
    let c := lCap s l n i ss vs hs k (actLit act)
    let own := (actLit act).isSome || capSplits c
    let hold := own || (mem s n).grd.held != []
    require (own || checkNow c) .illegal
    let s' := updMem s n fun m => { m with l := { m.l with ordC := if orderC i then m.l.ordC ++ [c.seq] else m.l.ordC } }
    if hold then do
      let s ← holdCap s' n l.who c d
      .ok (s, 1)
    else do
      waitUnless (lRoom (mem s n) i) (.queueFull 5)
      match d with
      | none => .ok (updMem s' n fun m => pushL m c, 1)
      | some r =>
        let s' := updMem { s' with fresh := s'.fresh + 1 } n fun m => pushL m { c with tok := some s.fresh }
        .ok (markS s' l.who r s.fresh, 1)

/-- The handle of an LM access; none where the field holds address bits (R123). -/
def lmH (m : LMem) : List HReg := if m.as = 0 then [m.hn] else []

/-- The offset register of an indexed access names a v register (R123). -/
def lmV (m : LMem) : VReg := vOfField m.o

/-! ## The instructions -/

/-- `sld` (R226, R227). -/
def execSld (h : Hd) (m : LMem) (w : BitVec 2) (sx : Bool) (s : State) : Host.Outcome State Fault Refusal :=
  lockstep s fun l => loadL s l h (.sld h m w sx) [m.o] [] (lmH m) 0

/-- `vld` (R226, R227). -/
def execVld (h : Hd) (m : LMem) (w : BitVec 2) (sx : Bool) (s : State) : Host.Outcome State Fault Refusal :=
  lockstep s fun l => loadL s l h (.vld h m w sx) [m.o] [] (lmH m) m.msk

/-- `vldx` (R226, R227). -/
def execVldx (h : Hd) (m : LMem) (w : BitVec 2) (sx : Bool) (s : State) : Host.Outcome State Fault Refusal :=
  lockstep s fun l => loadL s l h (.vldx h m w sx) [] [lmV m] (lmH m) m.msk

/-- `pf` (R231). -/
def execPf (h : Hd) (m : LMem) (s : State) : Host.Outcome State Fault Refusal :=
  lockstep s fun l => loadL s l h (.pf h m) [m.o] [] (lmH m) 0

/-- `sst` (R226, R227). -/
def execSst (h : Hd) (m : LMem) (r : SReg) (w : BitVec 2) (s : State) : Host.Outcome State Fault Refusal :=
  lockstep s fun l => storeL s l h (.sst h m r w) none [r, m.o] [] (lmH m) 0

/-- `vst` (R226, R227). -/
def execVst (h : Hd) (m : LMem) (r : VReg) (w : BitVec 2) (s : State) : Host.Outcome State Fault Refusal :=
  lockstep s fun l => storeL s l h (.vst h m r w) none [m.o] [r] (lmH m) m.msk

/-- `vstx` (R226, R227). -/
def execVstx (h : Hd) (m : LMem) (r : VReg) (w : BitVec 2) (s : State) : Host.Outcome State Fault Refusal :=
  lockstep s fun l => storeL s l h (.vstx h m r w) none [] [r, lmV m] (lmH m) m.msk

/-- `atom` (R229): its destination is pending from its capture (R222). -/
def execAtom (h : Hd) (d : SReg) (hn : HReg) (o : SReg) (op : BitVec 4) (v : SReg) (sz : BitVec 2)
    (imm : BitVec 12) (s : State) : Host.Outcome State Fault Refusal :=
  lockstep s fun l => storeL s l h (.atom h d hn o op v sz imm) (some d) [v, o] [] [hn] 0

/-- `cas` (R229). -/
def execCas (h : Hd) (d : SReg) (hn : HReg) (o v nv : SReg) (sz : BitVec 2) (imm : BitVec 12) (s : State) :
    Host.Outcome State Fault Refusal :=
  lockstep s fun l => storeL s l h (.cas h d hn o v nv sz imm) (some d) [v, nv, o] [] [hn] 0

/-- `mark` (R230). -/
def execMark (h : Hd) (s : State) : Host.Outcome State Fault Refusal :=
  lockstep s fun l => storeL s l h (.mark h) none [] [] [] 0

/-- `fence` (R230). -/
def execFence (h : Hd) (sc : BitVec 2) (s : State) : Host.Outcome State Fault Refusal :=
  lockstep s fun l => storeL s l h (.fence h sc) none [] [] [] 0

/-- `zfill` (R232). -/
def execZfill (h : Hd) (m : LMem) (r : SReg) (s : State) : Host.Outcome State Fault Refusal :=
  lockstep s fun l => storeL s l h (.zfill h m r) none [r, m.o] [] (lmH m) 0

/-- `pin` (R232). -/
def execPin (h : Hd) (m : LMem) (r : SReg) (s : State) : Host.Outcome State Fault Refusal :=
  lockstep s fun l => storeL s l h (.pin h m r) none [r, m.o] [] (lmH m) 0

/-- `unpin` (R232). -/
def execUnpin (h : Hd) (m : LMem) (r : SReg) (s : State) : Host.Outcome State Fault Refusal :=
  lockstep s fun l => storeL s l h (.unpin h m r) none [r, m.o] [] (lmH m) 0

/-- `tfill` (R235). -/
def execTfill (h : Hd) (m : LMem) (r : VReg) (w : BitVec 2) (s : State) : Host.Outcome State Fault Refusal :=
  lockstep s fun l => storeL s l h (.tfill h m r w) none [m.o] [r] [] 0

/-- `tdrain` (R235). -/
def execTdrain (h : Hd) (m : LMem) (w : BitVec 2) (s : State) : Host.Outcome State Fault Refusal :=
  lockstep s fun l => storeL s l h (.tdrain h m w) none [m.o] [] [] 0

/-- `rst` (R236). -/
def execRst (h : Hd) (r : VReg) (o : SReg) (prow pcol : BitVec 4) (fv : Bool) (fn : BitVec 10) (s : State) :
    Host.Outcome State Fault Refusal :=
  lockstep s fun l => storeL s l h (.rst h r o prow pcol fv fn) none [o] [r] [] 0

/-- `xlat` (R233): the handle is pending from now; the result lands at the end of tick u + 95. One that names a
handle still pending waits in L. -/
def execXlat (h : Hd) (hn : HReg) (o : SReg) (s : State) : Host.Outcome State Fault Refusal :=
  lockstep s fun l => do
    let n ← memOnly l
    match memAct (mem s n) h with
    | .lit x => .error (.wait (.litOpen x.1))
    | .never => .ok (s, 1)
    | .always => do
      let m := mem s n
      if tget 0 m.regs.hp hn.val ≠ 0 ∨ m.l.hrel.contains hn then .error .stall else .ok ()
      lHazard s l.who n [o] [] 0
      waitUnless (!srcSplits (sSrc m o)) (.sAlts o)
      let due := match sSrc m o with | .now _ => s.cal + 95 | .tok _ => 0
      let x : Land :=
        { tok := s.fresh, due := due, val := .xlat hn (sSrc m o) s.cal false 0, lit := none, out := [], q := .l, addr := l.ln.addr }
      let s := updMem { s with fresh := s.fresh + 1 } n fun m =>
        let m := setH m hn hPending
        { m with regs := { m.regs with hp := tput 0 m.regs.hp hn.val (x.tok + 1) }
                 fly := { m.fly with lands := m.fly.lands ++ [x] } }
      .ok (s, 1)

/-- `hrel` (R234): cleared now, or in the tick after its `xlat` has landed. -/
def execHrel (h : Hd) (hn : HReg) (s : State) : Host.Outcome State Fault Refusal :=
  lockstep s fun l => do
    let n ← memOnly l
    match memAct (mem s n) h with
    | .lit x => .error (.wait (.litOpen x.1))
    | .never => .ok (s, 1)
    | .always =>
      .ok (updMem s n fun m =>
        if tget 0 m.regs.hp hn.val ≠ 0 then { m with l := { m.l with hrel := m.l.hrel ++ [hn] } }
        else setH m hn 0, 1)

end Sys2Proof.Machine
end

