-- ==== Sys2Proof/Machine/Barrier.lean ====
section
/-! DEFINITION. Barrier objects (R242, R349, R350): arrivals, completed phases, withdrawal, and the two
ways an object breaks. -/

namespace Sys2Proof.Machine

open Sys2Proof

/-- A barrier object. -/
def barrierOf (s : State) (n : Nat) : Option Barrier := tget none s.barriers n

/-- The state with a barrier object replaced. -/
def setBarrier (s : State) (n : Nat) (b : Option Barrier) : State := { s with barriers := tput none s.barriers n b }

/-- The phase word of a barrier: phase in [29:0], status in [31:30] (R242). -/
def phaseWord (s : State) (n : Nat) : Word32 := flagVal s (.dev (n + 1))

/-- Phase of a barrier. -/
def phaseOf (s : State) (n : Nat) : Nat := (phaseWord s n).toNat % 2 ^ 30

/-- Status of a barrier. -/
def statusOf (s : State) (n : Nat) : Nat := (phaseWord s n).toNat / 2 ^ 30

/-- Arrivals in the current phase. -/
def arrivalsOf (s : State) (n : Nat) : Nat := (flagVal s (.dev n)).toNat

/-- A phase completes as one step: the count returns to 0, the phase advances, and falls that waited
take effect (R242, R350). -/
def completePhase (s : State) (n : Nat) (b : Barrier) (setter : BitVec 16) : State :=
  let s := setFlag s (.dev n) 0 setter 0
  let s := setFlag s (.dev (n + 1)) (BitVec.ofNat 32 ((phaseOf s n + 1) % 2 ^ 30 + statusOf s n * 2 ^ 30)) setter 0
  setBarrier s n (some { b with arrived := [], expected := b.expected - b.falls, falls := 0 })

/-- A barrier breaks with a status, releasing every waiter (R350). -/
def breakBarrier (s : State) (n st : Nat) : State :=
  setFlag s (.dev (n + 1)) (breakWord (phaseWord s n) st) (srcId 5 0 0) 0

/-- The record of an underpopulated barrier (R350). -/
def underRec (n : Nat) : FaultRec :=
  { ctx := 0, func := 0, launch := 0, src := srcId 5 0 0, cause := BitVec.ofNat 8 (kindCode .illegal),
    deferred := false, replay := false, status := BitVec.ofNat 32 n, index := 0, loop := 0xffff, stagep := 0, addr := 0 }

/-- What follows a change of the arrivals or of the expected count: the phase completes, or the object
is underpopulated (R242, R350). -/
def settleBarrier (s : State) (n : Nat) (setter : BitVec 16) : State :=
  match barrierOf s n with
  | none => s
  | some b =>
    let k := arrivalsOf s n
    if statusOf s n ≠ 0 then s
    else if 0 < k ∧ b.expected ≤ k then completePhase s n b setter
    else if b.regs = b.nreg ∧ k < b.expected ∧ b.parts.all (fun p => b.arrived.contains p) then
      postRec (breakBarrier s n 2) (underRec n)
    else s

/-- An arrival of a site (R242): the value that lands, the phase current at the arrival, or the status
of a broken object. -/
def arrive (s : State) (n site : Nat) (setter : BitVec 16) : Word × State :=
  if statusOf s n ≠ 0 then (BitVec.ofNat 64 (statusOf s n), s)
  else
    let ph := BitVec.ofNat 64 (phaseOf s n)
    let s := setFlag s (.dev n) (BitVec.ofNat 32 (arrivalsOf s n + 1)) setter 0
    let s := match barrierOf s n with
      | some b => setBarrier s n (some { b with arrived := if b.arrived.contains site then b.arrived else b.arrived ++ [site] })
      | none => s
    (ph, settleBarrier s n setter)

/-- A retiring member's participation is withdrawn (R350). -/
def withdraw (s : State) (n site : Nat) : State :=
  match barrierOf s n with
  | none => s
  | some b =>
    if !b.parts.contains site then s
    else
      let parts := b.parts.filter fun p => p != site
      let b := if b.arrived.contains site then { b with parts := parts, falls := b.falls + 1 }
        else { b with parts := parts, expected := b.expected - 1 }
      let s := settleBarrier (setBarrier s n (some b)) n (srcId 0 5 site)
      if parts = [] then setBarrier s n none else s

/-- Withdraws a member from every object (R350). -/
def withdrawAll (s : State) (site : Nat) : State :=
  (s.barriers.map Prod.fst).foldl (fun s n => withdraw s n site) s

end Sys2Proof.Machine
end

