-- ==== Sys2Proof/Machine/Deliver.lean ====
section
/-! DEFINITION. Values that land: registers that wait for a token, captured bindings, the load data
queues (R26, R50, R219, R222); and what a resolution does to everything a member holds (R158). -/

namespace Sys2Proof.Machine

open Sys2Proof

/-! ## Everything a member has captured -/

/-- A stream with every captured command changed. -/
def mapStream (f : Cap → Cap) (x : Stream) : Stream :=
  { x with queue := x.queue.map f
           fly := x.fly.map fun y => { y with cap := f y.cap }
           chain := x.chain.map fun c => { c with cur := c.cur.map f }
           stopped := x.stopped.map fun y => { y with cap := f y.cap } }

/-- A member with every captured instruction changed. -/
def mapCaps (f : Cap → Cap) (m : Member) : Member :=
  { m with
    grd := { m.grd with held := m.grd.held.map f }
    l := { m.l with lq := m.l.lq.map (fun e => { e with cap := f e.cap }),
                    sq := m.l.sq.map (fun e => { e with cap := f e.cap }) }
    eng := tmap Stream.t0 (mapStream f) m.eng }

/-! ## Bindings -/

/-- A binding to a token takes the value that landed. -/
def bindTok {α : Type} (tok : Nat) (a : Alts α) : Src α → Src α
  | .tok t => if t = tok then .now a else .tok t
  | x => x

/-- The same for a handle. -/
def bindH (tok : Nat) (h : BitVec 128) : HSrc → HSrc
  | .tok t => if t = tok then .now h else .tok t
  | x => x

/-- An `xlat` whose address has landed counts its 95 ticks from the next tick (R233). -/
def bindLand (cal tok : Nat) (a : Alts Word) (x : Land) : Land :=
  match x.val with
  | .xlat hn (.tok t) _ b g =>
    if t = tok then { x with due := cal + 96, val := .xlat hn (.now a) (cal + 1) b g } else x
  | _ => x

/-- A guard slot bound to a token. -/
def bindSlot (tok : Nat) (a : Alts Word) (x : Slot) : Slot :=
  match x.src with
  | some (.reg (.tok t)) => if t = tok then { x with src := some (.reg (.now a)) } else x
  | _ => x

/-- The value an s register takes when a token lands: what its write leaves there (R155, R156), or the
landed value itself where no register waits any more. -/
def landedS (m : Member) (tok : Nat) (a : Alts Word) (lit : Option Lit) (out : List Lit) : Alts Word :=
  match m.regs.s.find? (fun p => p.2.pend == some tok) with
  | some p => landAlts p.2.alts a lit out
  | none => resolveAll out a

/-- The s registers that wait for a token. -/
def waitingS (m : Member) (tok : Nat) : List SReg :=
  (m.regs.s.filter fun p => p.2.pend == some tok).map fun p => Fin.ofNat 64 p.1

/-- A value that lands for a token in a group cycle meets a write of another column to its register (R16, R222).
DEDUCED (log 159), unsafe. -/
def noteClash (m : Member) (c : Option (Nat × Nat)) : Member :=
  if cycleRuns m then { m with fly := { m.fly with clash := m.fly.clash.or c } } else m

/-- A value of an s register lands: in the registers that wait for it and in every binding. `by_` is the queue code
and the address of its instruction: where a column of a lower code has written the register in this tick, that write
stands (R16). The breadth it brings is noted (R157). -/
def landS (cal : Nat) (by_ : Nat × Nat) (m : Member) (tok : Nat) (a : Alts Word) (lit : Option Lit) (out : List Lit) :
    Member :=
  let v := landedS m tok a lit out
  let ws := waitingS m tok
  let m := noteClash m (ws.findSome? fun r => (m.fly.landed.find? fun y => y.1 == r && y.2.1 != by_.1).map fun y => lostOf y.2 by_)
  let lost := (ws.filter fun r => m.fly.landed.any fun x => x.1 == r && decide (x.2.1 < by_.1)).map fun r => (r, sCell m r)
  let m := landTok m tok a lit out
  let m := lost.foldl (fun m p => setCell m p.1 { p.2 with pend := none }) m
  let m := mapCaps (fun c => { c with ss := c.ss.map (bindTok tok v) }) m
  let m := if ws = [] then m else noteBreadth m v.length
  { m with fly := { m.fly with lands := m.fly.lands.map (bindLand cal tok v)
                               landed := m.fly.landed ++ ws.map fun r => (r, by_) }
           grd := { m.grd with slots := tmap Slot.free (bindSlot tok v) m.grd.slots } }

/-- The v registers that wait for a token. -/
def waitingV (m : Member) (tok : Nat) : List VReg := (m.regs.vp.filter fun p => p.2 == tok + 1).map fun p => Fin.ofNat 32 p.1

/-- A value of a v register lands, on behalf of an instruction as `landS` names it; the breadth it brings is noted
(R157). -/
def landV (by_ : Nat × Nat) (m : Member) (tok : Nat) (a : Alts Cells) : Member :=
  let ws := waitingV m tok
  let m := noteClash m (ws.findSome? fun r => (m.fly.landedV.find? fun y => y.1 == r && y.2.2.1 != by_.1).map fun y => lostOf y.2.2 by_)
  let m := if ws = [] then m else noteBreadth m a.length
  let m := landTokV by_.1 m tok a
  let m := { m with fly := { m.fly with landedV := m.fly.landedV ++ ws.flatMap fun r => cols.map fun c => (r, c, by_) } }
  mapCaps (fun c => { c with vs := c.vs.map (bindTok tok a) }) m

/-- A handle lands; one that an `hrel` awaits is cleared by it in the next tick (R234). -/
def landH (m : Member) (hn : HReg) (tok : Nat) (h : BitVec 128) : Member :=
  let mine := tget 0 m.regs.hp hn.val == tok + 1
  let m := mapCaps (fun c => { c with hs := c.hs.map fun p => (p.1, bindH tok h p.2) }) m
  if mine then { setH m hn h with regs := { (setH m hn h).regs with hp := tput 0 m.regs.hp hn.val 0 } } else m

/-- What an `atom`, a `cas` or a `barj` answers is on its way to its register (R222, R463). -/
def sendAnswer (m : Member) (tok addr : Nat) (w : Word) : Member :=
  { m with fly := { m.fly with lands := m.fly.lands ++
      [{ tok := tok, due := 0, val := .answer (plain w), lit := none, out := [], q := .l, addr := addr }] } }

/-! ## Load data queues (R50, R165) -/

/-- Entries that stand in a data queue. -/
def entries {α : Type} (q : List (Group α)) : Nat := (q.map List.length).sum

/-- A data queue has room for n more entries, or a binding waits for them (R221). -/
def ldqRoom {α : Type} (q : List (Group α)) (binds : List (Nat × Nat)) (n : Nat) : Bool :=
  !binds.isEmpty || decide (entries q + n ≤ 16)

/-- A group enters LDQ-C, or the register bound to it, which a move of the control column writes. -/
def deliverC (cal : Nat) (m : Member) (g : Group Word) : Member :=
  match m.l.bindC with
  | t :: r => landS cal (Queue.c.code, t.2) { m with l := { m.l with bindC := r } } t.1 g none []
  | [] => { m with l := { m.l with ldqC := m.l.ldqC ++ [g] } }

/-- A group enters LDQ-V, or the register bound to it, which a move of column V writes. -/
def deliverV (m : Member) (g : Group Cells) : Member :=
  match m.l.bindV with
  | t :: r => landV (Queue.v.code, t.2) { m with l := { m.l with bindV := r } } t.1 g
  | [] => { m with l := { m.l with ldqV := m.l.ldqV ++ [g] } }

/-- It is the turn of an entry to deliver to LDQ-C (R50, R232). -/
def turnC (m : Member) (seq : Nat) : Bool := m.l.ordC.head? == some seq

/-- An entry has delivered. -/
def doneC (m : Member) (seq : Nat) : Member :=
  { m with l := { m.l with ordC := m.l.ordC.filter fun x => x != seq } }

/-! ## Resolution (R158) -/

/-- A captured operand after a resolution. -/
def resolveSrc {α : Type} (q : QSlot) (o : Bool) : Src α → Src α
  | .now a => .now (resolveAlts q o a)
  | x => x

/-- A captured instruction after a resolution; the outcome is kept where its qualifier names the slot
(R162). -/
def resolveCap (q : QSlot) (o : Bool) (c : Cap) : Cap :=
  { c with ss := c.ss.map (resolveSrc q o), vs := c.vs.map (resolveSrc q o), out := c.out ++ [(q, o)] }

/-- A begun entry drops the pairings that lose, and what their requests outside the module will answer. -/
def resolveEnt (q : QSlot) (o : Bool) (e : LEnt) : LEnt :=
  let ps := resolveAlts q o e.pairs
  let ids := ps.filterMap fun p => match p.2 with | .val v => some v.no | .poison .. => none
  { e with pairs := ps, left := e.left.filter (fun k => ids.contains (k / pairStride)),
           req := e.req.filter fun k => ids.contains (k / pairStride) }

/-- A landing after a resolution: results in flight keep the outcome until they land (R156). -/
def resolveLand (q : QSlot) (o : Bool) (x : Land) : Land :=
  let x := { x with out := x.out ++ [(q, o)] }
  match x.val with
  | .xlat hn va st b g => { x with val := .xlat hn (resolveSrc q o va) st b g }
  | _ => x

/-- A source of another slot after a resolution. -/
def resolveSlot (q : QSlot) (o : Bool) (x : Slot) : Slot :=
  match x.src with
  | some (.reg v) => { x with src := some (.reg (resolveSrc q o v)) }
  | _ => x

/-- One slot resolves (R158): losing alternatives go, the literal becomes don't-care, the slot becomes
free and keeps its outcome. -/
def resolveSlotOf (m : Member) (q : QSlot) (o : Bool) : Member :=
  let m := mapCaps (resolveCap q o) m
  let ent := resolveEnt q o
  { m with
    regs := { m.regs with
      s := tmap SCell.zero (fun c => { c with alts := resolveAlts q o c.alts }) m.regs.s
      v := tmap VAlts.zero (fun a => { alts := resolveAlts q o a.alts }) m.regs.v }
    fly := { m.fly with
      sw := m.fly.sw.map fun x => { x with out := x.out ++ [(q, o)] }
      slw := m.fly.slw.map fun x => { x with out := x.out ++ [(q, o)] }
      waves := m.fly.waves.map fun x => { x with out := x.out ++ [(q, o)] }
      lands := m.fly.lands.map (resolveLand q o) }
    grd := { m.grd with
      slots := tput Slot.free (tmap Slot.free (resolveSlot q o) m.grd.slots) q.val
        { src := none, kept := o, due := none } }
    l := { m.l with ldqV := m.l.ldqV.map (resolveAlts q o), ldqC := m.l.ldqC.map (resolveAlts q o),
                    lq := m.l.lq.map ent, sq := m.l.sq.map ent } }

/-! ## Poison that survives (R163, R164) -/

/-- Fault kind a poison class names (R163). -/
def classKind (c : BitVec 4) : Kind :=
  match c.toNat with
  | 0 => .page | 1 => .staleHandle | 2 => .permission | 4 => .poisonRead | _ => .illegal

/-- Poison class of a fault of an access (R163). -/
def kindClass : Kind → BitVec 4
  | .page => 0 | .staleHandle => 1 | .permission => 2 | .poisonRead => 4 | _ => 0xf

/-- Virtual address a recorded access names: its page and its first offset. -/
def accVa (a : Access) : Nat :=
  hVa a.h + (match a.ins with
    | .apos .. => 32768
    | _ => ((piecesOf a.ins a.msk a.ss a.vs).head?.map Piece.off).getD 0)

/-- The poison that is the only alternative of a register. -/
def lonePoison {α : Type} : Alts α → Option (BitVec 4 × Bool × Access)
  | [(_, .poison c own a)] => some (c, own, a)
  | _ => none

/-- A poison that hardware may replay: the access wrote it and its class is PAGE or STALE_HANDLE. -/
def replayable (p : BitVec 4 × Bool × Access) : Bool := p.2.1 && decide (p.1.toNat ≤ 1)

/-- The terminal fault of a surviving poison (R164); one of a typed buffer has no virtual address (R328). -/
def poisonTrap (p : BitVec 4 × Bool × Access) : Trap :=
  { trapOf (classKind p.1) with va := if spaceOf p.2.2.ins = 0 then some (accVa p.2.2) else none, deferred := true }

/-- The recorded access as an entry of its own, for its reissue (R164). -/
def deferEnt (a : Access) (tok seq : Nat) : LEnt :=
  { cap := { ins := a.ins, q := .l, addr := a.addr, seq := seq, ss := a.ss.map fun w => .now (plain w),
             vs := a.vs.map fun v => .now (plain v), msk := a.msk, hs := [(a.hn, .now a.h)], lit := none,
             out := [], tok := some tok, tag := { loop := 0xffff, iter := 0, stagep := 0 }, tick := 0,
             slipped := false, known := false, taken := 0, since := none, clk := [] }
    begun := false, pairs := [], left := [], buf := [], req := [], bad := [] }

/-- A captured copy of the poison waits for the reissued access too (R151, R164). -/
def rebind {α : Type} (acc : Access) (tok : Nat) : Src α → Src α
  | .now [(g, .poison c true a)] => if a = acc then .tok tok else .now [(g, .poison c true a)]
  | x => x

/-- Every captured copy of a poison that is deferred. -/
def rebindAll (acc : Access) (tok : Nat) (m : Member) : Member :=
  let m := mapCaps (fun c => { c with ss := c.ss.map (rebind acc tok), vs := c.vs.map (rebind acc tok) }) m
  let f (x : Slot) : Slot := match x.src with
    | some (.reg v) => { x with src := some (.reg (rebind acc tok v)) }
    | _ => x
  { m with grd := { m.grd with slots := tmap Slot.free f m.grd.slots } }

/-- A register's poison is deferred: the register pends on a fresh token, a record is posted, and the
access waits for its service (R164). -/
def deferPoison (s : State) (n : Nat) (p : BitVec 4 × Bool × Access) (mark : Member → Nat → Member) : State :=
  let tok := s.fresh
  let va := accVa p.2.2
  let s := updMem { s with fresh := tok + 1 } n fun m =>
    let m := rebindAll p.2.2 tok (mark m tok)
    { m with l := { m.l with defer := m.l.defer ++ [(deferEnt p.2.2 tok tok, false)] } }
  let s := postRec s (siteRec s n 0 5 .deferredAccess true true 0 0 { loop := 0xffff, iter := 0, stagep := 0 } va)
  { s with replays := s.replays ++ [{ site := n, src := .deferred tok, seq := tok, va := BitVec.ofNat 64 va }] }

/-- The first s register whose only alternative is poison. -/
def poisonS (m : Member) : Option (SReg × BitVec 4 × Bool × Access) :=
  m.regs.s.findSome? fun p =>
    if p.2.pend.isSome then none else (lonePoison p.2.alts).map fun x => (Fin.ofNat 64 p.1, x)

/-- The first v register with a slice whose only alternative is poison. -/
def poisonV (m : Member) : Option (VReg × BitVec 4 × Bool × Access) :=
  m.regs.v.findSome? fun p =>
    let r : VReg := Fin.ofNat 32 (p.1 / 64)
    if vPending m r then none else (lonePoison p.2.alts).map fun x => (r, x)

/-- Deals with one surviving poison of a member; none where there is none. Of several the model deals with s registers
first, each kind in ascending number. It leaves a slot open that is bound to a lone poison which no register holds any
more, since a poison never resolves it (R151).
DESIGN CHOICE (log 137), safe. -/
def surviveOne (s : State) (n : Nat) : Option (State × Bool) :=
  let m := mem s n
  match poisonS m with
  | some (r, p) =>
    if replayable p then
      some (deferPoison s n p fun m t => setCell m r { alts := plain 0, pend := some t }, true)
    else some (takeFault s n 1 0 0 p.2.2.addr 0 { loop := 0xffff, iter := 0, stagep := 0 } (poisonTrap p), false)
  | none =>
    match poisonV m with
    | some (r, p) =>
      if replayable p then
        some (deferPoison s n p fun m t =>
          let m := cols.foldl (fun m c => setVSlice m r c VAlts.zero) m
          markV m r t, true)
      else some (takeFault s n 1 1 1 p.2.2.addr 0 { loop := 0xffff, iter := 0, stagep := 0 } (poisonTrap p), false)
    | none => none

/-- Deals with every surviving poison of a member.
DESIGN CHOICE (log 138), unsafe. -/
def surviveAll : Nat → State → Nat → State
  | 0, s, _ => s
  | k + 1, s, n =>
    match surviveOne s n with
    | some (s, true) => surviveAll k s n
    | some (s, false) => s
    | none => s

end Sys2Proof.Machine
end

