-- ==== Sys2Proof/Machine/Outside.lean ====
section
/-! DEFINITION. Accesses at their homes, for every agent: reads and writes of device memory, of typed
buffers in the order of R300, and requests that leave the module (R275, R289, R315, R392 to R394,
R401, R404). -/

namespace Sys2Proof.Machine

open Sys2Proof

/-! ## Requests that leave the module -/

/-- Module of an aperture entry (R392): bit 0 of an entry is EN, the rest MODULE. -/
def apModule (s : State) (pa : Nat) : Nat := (tget 0 s.aperture (bits pa 44 38)).toNat / 2

/-- An access through the entry is answered at once as rejected (R392). -/
def apReject (s : State) (pa : Nat) : Bool :=
  !(tget 0 s.aperture (bits pa 44 38)).getLsbD 0 || apModule s pa == s.moduleId.toNat

/-- Ports of a route that are up (R394). -/
def upPorts (s : State) (m : Nat) : List Nat :=
  (List.range 12).filter fun p => (tget 0 s.routes m).getLsbD p && !tget false s.linkDown p

/-- The port a flit takes (R394); none while none is up.
DEDUCED (log 95), unsafe. -/
def portFor (s : State) (pa : Nat) : Option Nat :=
  let up := upPorts s (apModule s pa)
  up[bits pa 12 7 % up.length]?

/-- What became of a request that leaves the module. -/
inductive Sent
  | wait
  | reject
  | ok (s : State) (tag : Nat)

/-- Sends a request for a function: to the host with its requester ID, while one more may be outstanding, to a peer
through a port; a write toward a function under reset is dropped (R401, R404). -/
def sendReq (s : State) (func : Nat) (r : OutReq) : Sent :=
  let tag := s.fresh
  let r := { r with launch := whoLaunch s r.who, func := func }
  match windowOf r.pa.toNat with
  | .thirel =>
    if apReject s r.pa.toNat then .reject
    else match portFor s r.pa.toNat with
      | none => .wait
      | some p => .ok { s with fresh := tag + 1, outs := s.outs ++ [{ r with tag := tag, host := false, port := p }] } tag
  | _ =>
    if s.flr.contains func then (if r.write then .ok s tag else .wait)
    else if !r.write && !tagFree s then .wait
    else .ok { s with fresh := tag + 1, outs := s.outs ++ [{ r with tag := tag, host := true, port := 0 }] } tag

/-- Function of a context (R316). -/
def funcOf (s : State) (ctx : Nat) : Nat := (ctxOf s ctx).func.toNat

/-! ## Pins (R232, R306 to R308) -/

/-- Pins a context has at a slice. -/
def pinsAt (s : State) (ctx slice : Nat) : Nat :=
  ((s.l2.filter fun p => p.1 / 1024 == slice).map fun p =>
    (p.2.map fun t => ((t.pins.filter fun x => x.ctx == ctx).map Pin.count).sum).sum).sum

/-- Pins a tag carries. -/
def tagPins (t : Tag) : Nat := (t.pins.map Pin.count).sum

/-- The tag of a line, where its set holds one. -/
def lineTag (s : State) (pa : Nat) : Option Tag := (tagsAt s pa).find? fun t => t.tag == tagOfPa pa

/-- A pin of the line would make one more way of its set pinned. -/
def needsWay (s : State) (pa : Nat) : Bool :=
  match lineTag s pa with
  | some t => !t.pinned && !t.zero
  | none => !lineZero s pa

/-- Pinned ways of a set. -/
def pinnedWays (l : List Tag) : Nat := l.countP fun t => t.way && t.pinned

/-- A pin request of lines (R307): refused, deferred or granted. -/
inductive PinEnd
  | refused
  | deferred
  | granted
  deriving DecidableEq, Repr

/-- Judges a request of a context (R306, R307, R308). A request for whose absent lines too few tags of a set are
free of pins waits as a deferred one does.
DESIGN CHOICE (log 48), unsafe. -/
def judgePins (s : State) (ctx : Nat) (lines : List Nat) : PinEnd :=
  let quota := min 15360 (quotaOf s ctx).pinq.toNat
  let slices := (lines.map sliceOfPa).eraseDups
  let sets := (lines.map setKey).eraseDups
  let tooMany := slices.any fun sl => decide (quota < pinsAt s ctx sl + (lines.filter fun l => sliceOfPa l == sl).length)
  let full := lines.any fun l => decide (255 < ((lineTag s l).map tagPins).getD 0 + 1)
  let fresh (k : Nat) : Nat := ((lines.filter fun l => setKey l == k && needsWay s l)).length
  let used (k : Nat) : Nat := pinnedWays (tget [] s.l2 k)
  let many := sets.any fun k => decide (0 < fresh k ∧ used k < 16 ∧ 15 < used k + fresh k) || decide (15 < fresh k)
  let absent (k : Nat) : Nat := (lines.filter fun l => setKey l == k && (lineTag s l).isNone).length
  let noTag (k : Nat) : Bool := decide (0 < absent k ∧ 24 < (tget [] s.l2 k).countP Tag.pinned + absent k)
  if tooMany || full || many then .refused
  else if sets.any fun k => decide (0 < fresh k ∧ 16 ≤ used k) || noTag k then .deferred
  else .granted

/-- Adds a pin to a list of pins. -/
def addPin (ctx : Nat) (id : Word32) : List Pin → List Pin
  | [] => [{ ctx := ctx, launch := id, count := 1 }]
  | p :: r => if p.ctx = ctx ∧ p.launch = id then { p with count := p.count + 1 } :: r else p :: addPin ctx id r

/-- One line takes a pin, fetched if it was absent (R232, R306). -/
def pinLine (ctx : Nat) (id : Word32) (s : State) (pa : Nat) : State :=
  let s := if (lineTag s pa).isSome then s else (l2Touch s pa false).1
  let l := tagsAt s pa
  let l := match l.find? (fun t => t.tag == tagOfPa pa) with
    | some t => if t.zero || t.way then l else (takeWay t.tag l).getD l
    | none => l
  setTags s pa (touchTag (tagOfPa pa)
    (fun t => { t with pins := addPin ctx id t.pins, valid := if t.zero || t.way then 0xf else t.valid }) l)

/-- Removes one pin of a context (R232): of its launches' pins on the line, the oldest launch's.
DESIGN CHOICE (log 171), unsafe. -/
def dropPin (ctx : Nat) : List Pin → List Pin
  | [] => []
  | p :: r => if p.ctx = ctx then (if p.count ≤ 1 then r else { p with count := p.count - 1 } :: r) else p :: dropPin ctx r

/-- One line loses a pin of a context, if it has one (R232). -/
def unpinLine (ctx : Nat) (s : State) (pa : Nat) : State :=
  let l := (tagsAt s pa).map fun t => if t.tag = tagOfPa pa then { t with pins := dropPin ctx t.pins } else t
  setTags s pa (fillPinned l)

/-! ## The order of R300 in one tick -/

/-- An access of a rank may reach a chunk in this tick: no agent that comes later has. -/
def rankOk (m : Member) (b off rank : Nat) : Bool := tget 0 m.buf.order (badKey b off) ≤ rank

/-- A write of a rank has reached a chunk in this tick. -/
def noteRank (m : Member) (b off rank : Nat) : Member :=
  { m with buf := { m.buf with order := tput 0 m.buf.order (badKey b off) rank } }

/-- Key of a tile slot. -/
def slotKey (b slot : Nat) : Nat := 4096 * b + slot

/-- A tile slot is as a waiter needs it, and has been since before this tick (R44). -/
def slotReady (m : Member) (b slot : Nat) (full : Bool) : Bool :=
  slotFull m b slot == full && !m.buf.turned.contains (slotKey b slot)

/-- A slot set empty releases the lines that `tfetch` pinned for it and that no other slot still holds
(R257). -/
def dropTfPins (s : State) (site b slot : Nat) : State :=
  let m := mem s site
  let mine := m.buf.tfPins.filter fun p => p.1 == slotKey b slot
  let rest := m.buf.tfPins.filter fun p => p.1 != slotKey b slot
  let lines := (mine.map Prod.snd).filter fun l => !(rest.any fun p => p.2 == l)
  lines.foldl (fun s l => unpinLine (siteCtx s site) s (l % 2 ^ 38))
    (if mine = [] then s else setMem s site { m with buf := { m.buf with tfPins := rest } })

/-- An agent sets a tile slot full or empty, releasing it to the site's agents (R44, R291). -/
def turnSlot (s : State) (site b slot : Nat) (full : Bool) (clk : Clock) : State :=
  let s := release (updMem s site fun m =>
    let m := putSlot m b slot full
    { m with buf := { m.buf with turned := slotKey b slot :: m.buf.turned } }) (slotClkKey site b slot) clk
  if full then s else dropTfPins s site b slot

/-- What a reader or writer that proceeds on a slot learns (R291). -/
def slotClock (s : State) (site b slot : Nat) : Clock := tget [] s.flagClk (slotClkKey site b slot)

/-! ## One access -/

/-- How an access ended. -/
inductive Got
  | data (b : List Byte)
  | done
  | sent
  | wait
  | fail (k : Kind)
  /-- mixed-size debug mode found another access at this physical address -/
  | clash (r : AccRec) (pa : Nat)

/-- Reads bytes of one chunk at a physical address. -/
def readPa (s : State) (a : Acc) (key pa n : Nat) (req : OutReq) : Got × State :=
  match windowOf pa with
  | .dev =>
    match debugHit s a pa n false with
    | some r => (.clash r pa, s)
    | none =>
      match pay s a pa 1 with
      | (false, s) => (.wait, s)
      | (true, s) => match devRead s a key pa n with
        | (some b, s) => (.data b, s)
        | (none, s) => (.fail .poisonRead, s)
  | _ => match sendReq s (funcOf s a.ctx) req with
    | .wait => (.wait, s)
    | .reject => (.fail .permission, s)
    | .ok s _ => (.sent, s)

/-- The lines of a granted request that its fetch still has to pay for (R232, R310): the first of those absent that
is not among the numbers given. -/
def nextFetch (s : State) (lines paid : List Nat) : Option (Nat × Nat) :=
  (lines.zipIdx.find? fun p => (lineTag s p.1).isNone && !paid.contains p.2).map fun p => (p.2, p.1)

/-- A word is written 0, as the holder of a LOCK releases it: a member after its fence, a Harvest command after its
writes have performed (R371). -/
def noteUnlock (s : State) (a : Acc) (pa : Nat) (b : List Byte) : State :=
  if b = List.replicate 4 0 ∧ pa % 4 = 0 ∧ (a.src.toNat / 4096 = 0 ∨ pageAgent a.src) then
    let c := if pageAgent a.src then clockOf s a.agent else (a.site.map fun n => tget [] s.fenced n).getD []
    { s with lockClk := tput [] s.lockClk (pa / 4) c }
  else s

/-- Writes bytes of one chunk at a physical address; `paid` says that the request's sector is paid for. -/
def writePa (s : State) (a : Acc) (key pa : Nat) (b : List Byte) (req : OutReq) (paid : Bool) : Got × State :=
  match windowOf pa with
  | .dev =>
    match debugHit s a pa b.length true with
    | some r => (.clash r pa, s)
    | none =>
      match (if paid then (true, s) else pay s a pa 1) with
      | (false, s) => (.wait, s)
      | (true, s) => (.done, noteUnlock (devPut s a key pa b) a pa b)
  | _ =>
    let (_, k, t) := stampAcc s a
    match sendReq t (funcOf s a.ctx) { req with agent := agentKey s a.agent, stamp := k } with
    | .wait => (.wait, s)
    | .reject => (.fail .permission, s)
    | .ok s _ => (.done, s)

/-- Reads bytes of one chunk of a typed buffer, before any write of this tick (R300). -/
def readBuf (s : State) (a : Acc) (site b off n : Nat) : Got × State :=
  if !rankOk (mem s site) b off 0 then (.wait, s)
  else match bufRead s a site b off n with
    | (some x, s) => (.data x, s)
    | (none, s) => (.fail .poisonRead, s)

/-- Writes bytes of one chunk of a typed buffer at a rank of R300. -/
def writeBuf (s : State) (a : Acc) (site b off : Nat) (x : List Byte) (rank : Nat) : Got × State :=
  if !rankOk (mem s site) b off rank then (.wait, s)
  else (.done, updMem (bufWrite s a site b off x) site fun m => noteRank m b off rank)

/-- The terminal fault of mixed-size debug mode (R280): raised by the home slice for the launch, with
the second access's address and both agents; its SRC names the slice.
DEDUCED (log 53), unsafe. -/
def clashFault (s : State) (a : Acc) (r : AccRec) (pa va : Nat) : State :=
  let id := if debugMode s a.launch then a.launch else r.launch
  let x : FaultRec :=
    { ctx := BitVec.ofNat 12 a.ctx, func := recFunc s a.ctx, launch := id, src := srcId 4 0 (sliceOfPa pa),
      cause := BitVec.ofNat 8 (kindCode .illegal), deferred := false, replay := false,
      status := BitVec.ofNat 32 (a.src.toNat + 65536 * r.src.toNat), index := 0, loop := 0xffff, stagep := 0,
      addr := BitVec.ofNat 64 (va % 2 ^ 54) }
  let s := postRec s x
  if vigilArmed s 2 then vigilFire s 3 (some x) else endLaunch s id (launchSites s id) 2 (kindCode .illegal)

end Sys2Proof.Machine
end

