-- ==== Sys2Proof/Machine/LPerform.lean ====
section
/-! DEFINITION. L performs the entries of its queues (R219 to R236, R239, R240, R275 to R283, R290, R325):
loads, stores, atomics, marks, fences, flag updates, tile slots, pins and remote stores. -/

namespace Sys2Proof.Machine

open Sys2Proof

/-! ## Queues -/

/-- L of a member stands still while a breakpoint or the debugger holds it (R269). -/
def lRuns (m : Member) : Bool := match m.ctl.dbg with | .stopped _ => false | _ => true

/-- An entry may perform while a queue is halted: it was captured before every faulting entry and is in
one queue only (R325). -/
def mayPerform (m : Member) (e : LEnt) (both : Bool) : Bool :=
  lRuns m && m.l.halts.all fun h => !both && decide (e.cap.seq < h)

/-- The entry at both heads. -/
def headBoth (m : Member) : Option LEnt :=
  match m.l.lq, m.l.sq with
  | e :: _, f :: _ => if e.cap.seq = f.cap.seq ∧ mayPerform m e true then some e else none
  | _, _ => none

/-- The entry at the head of the load queue alone. -/
def headLoad (m : Member) : Option LEnt :=
  match m.l.lq with
  | e :: _ => if (lQueues e.cap.ins).2 || !mayPerform m e false then none else some e
  | [] => none

/-- The entry at the head of the store queue alone. -/
def headStore (m : Member) : Option LEnt :=
  match m.l.sq with
  | e :: _ => if (lQueues e.cap.ins).1 || !mayPerform m e false then none else some e
  | [] => none

/-- Replaces an entry in the queues it stands in. -/
def putEnt (m : Member) (e : LEnt) : Member :=
  let f (x : LEnt) := if x.cap.seq = e.cap.seq then e else x
  { m with l := { m.l with lq := m.l.lq.map f, sq := m.l.sq.map f } }

/-- An entry leaves the queues it stands in. -/
def dropEnt (m : Member) (e : LEnt) : Member :=
  { m with l := { m.l with lq := m.l.lq.filter fun x => x.cap.seq != e.cap.seq,
                           sq := m.l.sq.filter fun x => x.cap.seq != e.cap.seq } }

/-- The access of an entry: k is 1 for the load queue and 2 for the store queue. -/
def lAcc (s : State) (n k : Nat) (c : Cap) : Acc :=
  { agent := agentNo n k, src := srcId 0 5 n, clk := c.clk, launch := (bindOf s n).launch, ctx := siteCtx s n, site := some n }

/-- A both-queue entry joins what the two queues have done (R283). -/
def joinQueues (s : State) (n : Nat) (c : Cap) : Clock × State :=
  let k := joinClock (joinClock (clockOf s (agentNo n 1)) (clockOf s (agentNo n 2))) c.clk
  (k, setClock (setClock s (agentNo n 1) k) (agentNo n 2) k)

/-! ## Faults of an access -/

/-- The alternative of an access is not known to be wanted: a fault becomes poison (R163, R223).
DEDUCED (log 47), unsafe. -/
def guarded (c : Cap) (mask : BitVec 16) : Bool :=
  mask != 0 || match c.lit with
    | some l => !c.out.contains l
    | none => false

/-- Virtual address of an access of an entry, or the offset of one to a typed buffer. -/
def entVa (c : Cap) (off : Nat) : Nat :=
  match entHandle c with
  | some h => if spaceOf c.ins = 0 then hVa h + off else off
  | none => off

/-- The terminal fault of an entry. -/
def entTrap (s : State) (n : Nat) (c : Cap) (t : Trap) : State :=
  takeFault s n 0 5 5 c.addr c.tag.iter.toNat c.tag t

/-- An entry meets PAGE or STALE_HANDLE at the head of its queue: the queue halts there and a
replayable record is posted (R325). -/
def haltAt (s : State) (n : Nat) (c : Cap) (k : Kind) (va : Nat) : State :=
  let s := updMem s n fun m => count { m with l := { m.l with halts := m.l.halts ++ [c.seq] } } 0x044
  let s := postRec s (siteRec s n 0 5 k false true 0 c.tag.iter.toNat c.tag (va % 2 ^ 54))
  { s with replays := s.replays ++ [{ site := n, src := .l, seq := c.seq, va := BitVec.ofNat 64 va }] }

/-- A fault of an entry that is wanted (R47, R325); one in a typed buffer has no virtual address (R328). -/
def entFail (s : State) (n : Nat) (c : Cap) (k : Kind) (va : Nat) : State :=
  match k with
  | .page | .staleHandle => haltAt s n c k va
  | _ => entTrap s n c { trapOf k with va := if spaceOf c.ins = 0 then some va else none }

/-! ## Beginning an entry -/

/-- The pairings of an entry with their numbers. -/
def numbered (ps : Alts (List Word × List Cells)) : Alts Pairing :=
  ps.zipIdx.map fun p => (p.1.1, match p.1.2 with
    | .val v => .val { no := p.2, ss := v.1, vs := v.2 }
    | .poison c o a => .poison c o a)

/-- The fault a pairing meets before any piece of it performs (R223 to R225, R35); none where it has
nothing to access. -/
def pairFault (c : Cap) (h : BitVec 128) (p : Pairing) : Option Kind :=
  if !spanOk c.ins (some h) c.msk p.ss p.vs then some .illegal
  else if spaceOf c.ins ≠ 0 ∨ piecesOf c.ins c.msk p.ss p.vs = [] then none
  else if !hValid h then some (hKind h)
  else if !hHas h (permOf c.ins) then some .permission
  else none

/-- The first value pairing with a fault that is wanted. -/
def wantedFault (c : Cap) (h : BitVec 128) (ps : Alts Pairing) : Option (Kind × Nat) :=
  ps.findSome? fun p => match p.2 with
    | .val v => if guarded c p.1 then none else (pairFault c h v).map fun k =>
        (k, entVa c (((piecesOf c.ins c.msk v.ss v.vs).head?.map Piece.off).getD 0))
    | .poison .. => none

/-- An entry begins: its pairings are numbered, those that fault become poison, and every piece of the
others is still to perform. -/
def beginEnt (e : LEnt) (h : BitVec 128) (ps : Alts Pairing) : LEnt :=
  let vals := ps.filterMap fun p => match p.2 with | .val v => some v | .poison .. => none
  { e with
    begun := true
    pairs := ps
    bad := vals.filterMap fun v => (pairFault e.cap h v).map fun k => (v.no, kindClass k)
    left := vals.flatMap fun v =>
      if (pairFault e.cap h v).isSome then []
      else (List.range (piecesOf e.cap.ins e.cap.msk v.ss v.vs).length).map fun i => pairStride * v.no + i }

/-- The pairing of a piece. -/
def pairOf (e : LEnt) (piece : Nat) : Option (BitVec 16 × Pairing) :=
  e.pairs.findSome? fun p => match p.2 with
    | .val v => if v.no = piece / pairStride then some (p.1, v) else none
    | .poison .. => none

/-- The place of a piece. -/
def pieceOf (e : LEnt) (piece : Nat) : Option (BitVec 16 × Pairing × Piece) :=
  match pairOf e piece with
  | none => none
  | some (g, v) => (piecesOf e.cap.ins e.cap.msk v.ss v.vs)[piece % pairStride]?.map fun p => (g, v, p)

/-! ## Loads (R221, R227) -/

/-- An older held entry of both queues keeps a load waiting (R161). -/
def heldBefore (m : Member) (seq : Nat) : Bool :=
  m.grd.held.any fun c => (lQueues c.ins).1 && (lQueues c.ins).2 && decide (c.seq < seq)

/-- The data queue of a load has room for its entries, and it is its turn (R50, R221). -/
def loadRoom (m : Member) (e : LEnt) (k : Nat) : Bool :=
  match e.cap.ins with
  | .sld .. => turnC m e.cap.seq && ldqRoom m.l.ldqC m.l.bindC k
  | .pf .. => true
  | _ => ldqRoom m.l.ldqV m.l.bindV k

/-- The poison of a pairing whose access failed (R163). -/
def poisonOf {α : Type} (c : Cap) (cls : BitVec 4) (p : Pairing) : AV α :=
  .poison cls true { ins := c.ins, addr := c.addr, hn := (c.hs.head?.map Prod.fst).getD 0, h := (entHandle c).getD 0,
                     ss := p.ss, vs := p.vs, msk := c.msk }

/-- The alternatives a load delivers (R165). -/
def loadGroup {α : Type} (e : LEnt) (f : Nat → α) : Group α :=
  e.pairs.map fun p => (p.1, match p.2 with
    | .poison c _ a => .poison c false a
    | .val v => match e.bad.find? (fun b => b.1 == v.no) with
      | some b => poisonOf e.cap b.2 v
      | none => .val (f v.no))

/-- The number a scalar load delivers (R227). -/
def scalarOf (buf : Mem) (w : BitVec 2) (sx : Bool) (no : Nat) : Word :=
  let n := 2 ^ w.toNat
  let v := numAt buf (pairStride * no) n
  if sx && 2 ^ (8 * n - 1) ≤ v then BitVec.ofInt 64 ((v : Int) - 2 ^ (8 * n)) else BitVec.ofNat 64 v

/-- The cells a vector load delivers (R227). -/
def cellsOf (buf : Mem) (w : BitVec 2) (sx : Bool) (msk : BitVec 1024) (no : Nat) : Cells :=
  let e := elemBytes w
  tofn 0 (List.range 1024) fun i =>
    if mbit msk i then
      let v := numAt buf (pairStride * no + e * i) e
      if sx && e == 2 then (BitVec.ofNat 16 v).signExtend 32 else BitVec.ofNat 32 v
    else 0

/-- A load has performed: it delivers its entries (R165, R221). -/
def finishLoad (cal : Nat) (m : Member) (e : LEnt) : Member :=
  let m := dropEnt m e
  match e.cap.ins with
  | .sld _ _ w sx => count (doneC (deliverC cal m (loadGroup e (scalarOf e.buf w sx))) e.cap.seq) 0x040
  | .vld _ _ w sx => count (deliverV m (loadGroup e (cellsOf e.buf w sx e.cap.msk))) 0x040
  | .vldx _ _ w sx => count (deliverV m (loadGroup e (cellsOf e.buf w sx e.cap.msk))) 0x040
  | _ => m

/-- The reissue of a recorded access has performed: its data lands in the register (R164). -/
def finishDefer (cal : Nat) (m : Member) (e : LEnt) : Member :=
  let m := { m with l := { m.l with defer := m.l.defer.filter fun x => x.1.cap.seq != e.cap.seq } }
  let tok := e.cap.tok.getD 0
  match e.cap.ins with
  | .sld _ _ w sx => landS cal (5, e.cap.addr) m tok (loadGroup e (scalarOf e.buf w sx)) none []
  | .vld _ _ w sx => landV (5, e.cap.addr) m tok (loadGroup e (cellsOf e.buf w sx e.cap.msk))
  | .vldx _ _ w sx => landV (5, e.cap.addr) m tok (loadGroup e (cellsOf e.buf w sx e.cap.msk))
  | _ => m

/-- A pairing becomes poison of a class. -/
def spoil (e : LEnt) (no : Nat) (k : Kind) : LEnt :=
  { e with bad := e.bad ++ [(no, kindClass k)], left := e.left.filter fun x => x / pairStride != no,
           req := e.req.filter fun x => x / pairStride != no }

/-- Reads the piece of an access. -/
def readPiece (s : State) (n : Nat) (a : Acc) (c : Cap) (piece : Nat) (p : Piece) : Got × State :=
  match spaceOf c.ins with
  | 0 =>
    match hAddr ((entHandle c).getD 0) (permOf c.ins) p.off p.n with
    | .error k => (.fail k, s)
    | .ok pa => readPa s a (hKeyIdx ((entHandle c).getD 0)) pa p.n (reqOf (.l n) c.seq piece pa p.n false [])
  | b => readBuf s a n b p.off p.n

/-- What a piece leaves: the entry, or the fault of one that is wanted. -/
inductive PieceEnd
  | ent (e : LEnt)
  | wait
  | fail (k : Kind)
  | clash (r : AccRec) (pa : Nat)

/-- A load's entry after a piece. -/
def afterRead (e : LEnt) (piece : Nat) (g : BitVec 16) (p : Piece) : Got → PieceEnd
  | .data b => .ent { e with left := e.left.filter fun x => x != piece,
                             buf := setBytes e.buf (pairStride * (piece / pairStride) + p.dst) b }
  | .done | .wait => .wait
  | .sent => .ent { e with left := e.left.filter fun x => x != piece, req := e.req ++ [piece] }
  | .fail k => if guarded e.cap g then .ent (spoil e (piece / pairStride) k) else .fail k
  | .clash r pa => .clash r pa

/-- Counts the bytes L moved (R420). -/
def countBytes (s : State) (n k : Nat) : State := updMem s n fun m => countN m 0x043 k

/-- One piece of a begun load. -/
def loadPiece (s : State) (n : Nat) (e : LEnt) (piece : Nat) : PieceEnd × State :=
  match (if e.left.contains piece then pieceOf e piece else none) with
  | none => (.ent e, s)
  | some (g, _, p) =>
    let (r, s) := readPiece s n (lAcc s n 1 e.cap) e.cap piece p
    let s := match r with | .data _ => countBytes s n p.n | _ => s
    (afterRead e piece g p r, s)

/-- Lines a `pf` requests: those its access would not fault at and that are absent (R231). -/
def prefetchLines (s : State) (e : LEnt) (h : BitVec 128) (ps : Alts Pairing) : List Nat :=
  ps.filterMap fun p => match p.2, e.cap.ins with
    | .val v, .pf _ m =>
      match hAddr h .r (lmOff m (w0 v.ss)) 1 with
      | .ok pa => if windowOf pa = .dev ∧ (lineTag s pa).isNone then some pa else none
      | .error _ => none
    | _, _ => none

/-- `pf` requests its lines into L2 (R231), each at the cost of its four sectors (R310): true once every request is
sent. -/
def prefetch (a : Acc) : List Nat → State → Bool × State
  | [], s => (true, s)
  | pa :: r, s =>
    match pay s a pa 4 with
    | (false, s) => (false, s)
    | (true, s) => prefetch a r (l2Touch s pa false).1

/-- A wanted fault, a clash or the next state of an entry. -/
def endPiece (s : State) (n : Nat) (a : Acc) (e : LEnt) (piece : Nat) (fin : LEnt → Member → Member) :
    PieceEnd → State
  | .wait => s
  | .fail k => entFail s n e.cap k (entVa e.cap (((pieceOf e piece).map fun x => x.2.2.off).getD 0))
  | .clash r pa => clashFault s a r pa (entVa e.cap (((pieceOf e piece).map fun x => x.2.2.off).getD 0))
  | .ent e => updMem s n fun m => if e.left = [] ∧ e.req = [] then fin e m else putEnt m e

/-- L_LOAD_PERFORM: a piece of the load at the head of the load queue performs at its home (R221, R227,
R275, R278). -/
def loadPerform (n piece : Nat) (s : State) : State :=
  let m := mem s n
  match headLoad m with
  | none => s
  | some e =>
    let go (e : LEnt) (piece : Nat) (s : State) : State :=
      let (r, s) := loadPiece s n e piece
      endPiece s n (lAcc s n 1 e.cap) e piece (fun e m => finishLoad s.cal m e) r
    if e.begun then go e piece s
    else match entPairs e.cap, entHandle e.cap with
      | some ps, some h =>
        if heldBefore m e.cap.seq || !loadRoom m e ps.length then s
        else match e.cap.ins with
          | .pf .. =>
            match prefetch (lAcc s n 1 e.cap) (prefetchLines s e h (numbered ps)) s with
            | (true, s) => updMem s n fun m => dropEnt m e
            | (false, s) => s
          | _ => match wantedFault e.cap h (numbered ps) with
            | some (k, va) => entFail s n e.cap k va
            | none => go (beginEnt e h (numbered ps)) piece s
      | _, _ => s

/-! ## Stores (R226, R227, R232, R275, R278) -/

/-- The one pairing of an entry that stores: none while a slot its pairings name is open (R219). -/
def onePair (c : Cap) : Option (AV (List Word × List Cells)) :=
  match entPairs c with
  | some [(g, v)] => if g = 0 then some v else none
  | _ => none

/-- The bytes an element of a vector store writes. -/
def elemOut (v : Cells) (i e : Nat) : List Byte := leBytes e (cellAt v i).toNat

/-- The runs of bytes a piece of a store writes: its place, and the bytes (R227, R278). -/
def pieceBytes (c : Cap) (v : Pairing) (p : Piece) : List (Nat × List Byte) :=
  match c.ins with
  | .sst .. => [(p.off, leBytes p.n (w0 v.ss))]
  | .vst _ _ _ w =>
    let e := elemBytes w
    ((List.range (p.n / e)).filter fun i => mbit c.msk (p.dst / e + i)).map fun i =>
      (p.off + e * i, elemOut (v.vs.headD []) (p.dst / e + i) e)
  | .vstx _ _ _ w => [(p.off, elemOut (v.vs.headD []) (p.dst / elemBytes w) (elemBytes w))]
  | .zfill .. => [(p.off, List.replicate 32 0)]
  | _ => []

/-- Neighbouring runs written as one (R278). -/
def joinRuns : List (Nat × List Byte) → List (Nat × List Byte)
  | (a, x) :: l =>
    match joinRuns l with
    | (b, y) :: r => if a + x.length = b then (a, x ++ y) :: r else (a, x) :: (b, y) :: r
    | [] => [(a, x)]
  | [] => []

/-- Writes one run of a piece. -/
def writeRun (s : State) (n : Nat) (a : Acc) (c : Cap) (piece off : Nat) (b : List Byte) (paid : Bool) : Got × State :=
  match spaceOf c.ins with
  | 0 =>
    let h := (entHandle c).getD 0
    match hAddr h (permOf c.ins) off b.length with
    | .error k => (.fail k, s)
    | .ok pa => writePa s a (hKeyIdx h) pa b { reqOf (.l n) c.seq piece pa b.length true b with va := entVa c off, lt := c.tag } paid
  | k => writeBuf s a n k off b 1

/-- The access of a run of a piece (R278). -/
def runAcc (a : Acc) (p : Piece) (off : Nat) : Acc := { a with piece := some (off - p.off, p.n) }

/-- Writes the runs of a piece that has been let pass. -/
def writeRuns (s : State) (n : Nat) (a : Acc) (c : Cap) (piece : Nat) (p : Piece) (paid : Bool) :
    List (Nat × List Byte) → Got × State
  | [] => (.done, s)
  | (off, b) :: r =>
    match writeRun s n (runAcc a p off) c piece off b paid with
    | (.done, s) => writeRuns s n a c piece p true r
    | x => x

/-- The run of a piece that mixed-size debug mode finds in conflict (R280). -/
def runClash (s : State) (a : Acc) (c : Cap) (p : Piece) (l : List (Nat × List Byte)) : Option (AccRec × Nat) :=
  l.findSome? fun r =>
    match spaceOf c.ins, hAddr ((entHandle c).getD 0) (permOf c.ins) r.1 r.2.length with
    | 0, .ok pa => if windowOf pa = .dev then (debugHit s (runAcc a p r.1) pa r.2.length true).map fun x => (x, pa) else none
    | _, _ => none

/-- Writes the runs of a piece, all of them or none (R278). -/
def writePiece (s : State) (n : Nat) (a : Acc) (c : Cap) (piece : Nat) (p : Piece) (l : List (Nat × List Byte)) : Got × State :=
  match runClash s a c p l with
  | some (r, pa) => (.clash r pa, s)
  | none => writeRuns s n a c piece p false l

/-- Pieces of one entry that keep an order among themselves: those of `zfill`, and elements of `vstx`
at one address (R227, R232). -/
def pieceTurn (e : LEnt) (piece : Nat) : Bool :=
  match e.cap.ins with
  | .zfill .. => e.left.head? == some piece
  | .vstx .. =>
    match pieceOf e piece with
    | some (_, _, p) => e.left.all fun k => decide (piece ≤ k) || ((pieceOf e k).map fun x => x.2.2.off != p.off).getD true
    | none => true
  | _ => true

/-- A line becomes a dirty zero line, which gives up its data way or takes a tag (R303). -/
def zeroLine (s : State) (pa : Nat) : State :=
  let z (t : Tag) : Tag := { t with zero := true, way := false, valid := 0xf, dirty := 0xf }
  let l := tagsAt s pa
  if (lineTag s pa).isSome then setTags s pa (fillPinned (touchTag (tagOfPa pa) z l))
  else match makeRoom false l with
    | some l => setTags s pa (l ++ [z { tag := tagOfPa pa, zero := true, valid := 0, dirty := 0, way := false, pins := [] }])
    | none => s

/-- A line of `zfill` is complete when its last chunk is written; it is a zero line unless another agent has written
to it meanwhile.
DEDUCED (log 161), safe. -/
def afterZero (s : State) (c : Cap) (p : Piece) : State :=
  match c.ins, hAddr ((entHandle c).getD 0) .w p.off 32 with
  | .zfill .., .ok pa =>
    if pa % 128 ≠ 96 ∨ windowOf pa ≠ .dev then s
    else if lineZero s pa then zeroLine s pa
    else (l2Touch s pa true).1
  | _, _ => s

/-- The access of a store: a chunk of `zfill` takes no data way (R303). -/
def storeAcc (s : State) (n : Nat) (c : Cap) : Acc :=
  { lAcc s n 2 c with zero := match c.ins with | .zfill .. => true | _ => false }

/-- One piece of a begun store. -/
def storePiece (s : State) (n : Nat) (e : LEnt) (piece : Nat) : PieceEnd × State :=
  match (if e.left.contains piece && pieceTurn e piece then pieceOf e piece else none) with
  | none => (if e.left = [] then .ent e else .wait, s)
  | some (_, v, p) =>
    match writePiece s n (storeAcc s n e.cap) e.cap piece p (joinRuns (pieceBytes e.cap v p)) with
    | (.done, s) => (.ent { e with left := e.left.filter fun x => x != piece }, afterZero (countBytes s n p.n) e.cap p)
    | (.wait, s) => (.wait, s)
    | (.fail k, s) => (.fail k, s)
    | (.clash r pa, s) => (.clash r pa, s)
    | (_, s) => (.wait, s)

/-- The operands of an entry of the store queue are ready: what to do with it. -/
inductive Ready
  | wait
  | trap (t : Trap)
  | go (p : List Word × List Cells) (h : BitVec 128)

/-- An entry that stores is ready once its operands and handle have landed and one pairing is left; a
poison among them is a surviving poison (R164, R219). -/
def storeReady (c : Cap) : Ready :=
  match onePair c, entHandle c with
  | some (.val v), some h => .go v h
  | some (.poison k o a), _ => .trap (poisonTrap (k, o, a))
  | _, _ => .wait

/-- L_STORE_PERFORM: a piece of the store at the head of the store queue performs (R275, R276). -/
def storePerform (n piece : Nat) (s : State) : State :=
  match headStore (mem s n) with
  | none => s
  | some e =>
    match e.cap.ins with
    | .sst .. | .vst .. | .vstx .. | .zfill .. =>
      let go (e : LEnt) (s : State) : State :=
        let (r, s) := storePiece s n e piece
        endPiece s n (lAcc s n 2 e.cap) e piece (fun e m => count (dropEnt m e) 0x041) r
      if e.begun then go e s
      else match storeReady e.cap with
        | .wait => s
        | .trap t => entTrap s n e.cap t
        | .go v h =>
          let ps := numbered [(0, .val v)]
          match wantedFault { e.cap with lit := none } h ps with
          | some (k, va) => entFail s n e.cap k va
          | none => go (beginEnt e h ps) s
    | _ => s

/-! ## Atomics (R229, R282) -/

/-- The operation of an `atom` on values of a size in bytes. -/
def atomOp (op sz : Nat) (old v : Nat) : Nat :=
  let w := 8 * sz
  let sg (x : Nat) : Int := if 2 ^ (w - 1) ≤ x then (x : Int) - 2 ^ w else x
  match op with
  | 0 => (old + v) % 2 ^ w
  | 1 => if sg v < sg old then v else old
  | 2 => if sg old < sg v then v else old
  | 3 => min old v
  | 4 => max old v
  | 5 => Nat.land old v
  | 6 => Nat.lor old v
  | 7 => v
  | _ => roundTo fp32 false .rne (addNum .rne (decodeFp fp32 true old) (decodeFp fp32 true v))

/-- Size in bytes, operation code (9 for `cas`), operand and new value of an atomic. -/
def atomArgs (i : Instr) (ss : List Word) : Nat × Nat × Nat × Nat :=
  match i with
  | .atom _ _ _ _ op _ sz _ => let n := 4 * 2 ^ sz.toNat; (n, op.toNat, w0 ss % 2 ^ (8 * n), 0)
  | .cas _ _ _ _ _ _ sz _ => let n := 4 * 2 ^ sz.toNat; (n, 9, w0 ss % 2 ^ (8 * n), w1 ss % 2 ^ (8 * n))
  | _ => (4, 0, 0, 0)

/-- An atomic at device memory as one step: the old value; nothing is written where the function gives
no new one, and it is then a read (R229, R280, R282).
DEDUCED (log 14), unsafe. -/
def atomBy (s : State) (a : Acc) (key pa n : Nat) (f : Nat → Option Nat) : Got × State :=
  let writes := match (devRead s a key pa n).1 with | some b => (f (leNat b)).isSome | none => false
  match debugHit s a pa n writes with
  | some r => (.clash r pa, s)
  | none =>
    match pay s a pa 2 with
    | (false, s) => (.wait, s)
    | (true, s) =>
      match devRead s a key pa n with
      | (none, s) => (.fail .poisonRead, s)
      | (some b, s) =>
        match f (leNat b) with
        | none => (.data b, s)
        | some x => (.data b, devPut s a key pa (leBytes n x))

/-- Value of LOCK while a member, or a Harvest command that it pushed, holds it (R371). -/
def holder (n : Nat) : Nat := 1 + 16 * siteRow n + siteCol n

/-- An `atom`, or a `cas` (operation 9), at device memory (R229, R282). One that takes a LOCK learns what was done before
it was released (R371).
DEDUCED (log 14), unsafe. -/
def atomAt (s : State) (a : Acc) (key pa n op v nv : Nat) : Got × State :=
  match atomBy s a key pa n fun old => if op = 9 then (if old = v then some nv else none) else some (atomOp op n old v) with
  | (.data b, t) =>
    if op = 9 ∧ v = 0 ∧ leNat b = 0 ∧ (a.site.map holder) = some nv then (.data b, learn t a.agent (tget [] t.lockClk (pa / 4)))
    else (.data b, t)
  | r => r

/-- The entry leaves both queues, and the old value is on its way to the register (R222, R229, R463). -/
def finishAtom (m : Member) (e : LEnt) (b : List Byte) : Member :=
  let m := dropEnt m e
  let m := match e.cap.tok with
    | some t => sendAnswer m t e.cap.addr (BitVec.ofNat 64 (leNat b))
    | none => m
  count m 0x042

/-- An operation that PCIe has as an AtomicOp: FetchAdd, Swap and CAS (R401). -/
def pcieOp (op : Nat) : Bool := op == 0 || op == 7 || op == 9

/-- An atomic that swaps in its new value against the value it takes the word to hold: it is over once the word held
that, and else tries again with what it held. -/
def swapAnswer (e : LEnt) (at_ n : Nat) (b : List Byte) : Option LEnt :=
  if numAt e.buf at_ n = leNat (b.take n) then none else some { e with req := [], buf := setBytes e.buf at_ (b.take n) }

/-- ATOMIC_PERFORM: an `atom` or `cas` at both heads performs as one step at its home (R229, R282). -/
def atomPerform (n : Nat) (s : State) : State :=
  match headBoth (mem s n) with
  | none => s
  | some e =>
    match e.cap.ins with
    | .atom .. | .cas .. =>
      if e.req ≠ [] then s
      else match storeReady e.cap with
        | .wait => s
        | .trap t => entTrap s n e.cap t
        | .go v h =>
          let ps := numbered [(0, .val v)]
          match wantedFault { e.cap with lit := none } h ps with
          | some (k, va) => entFail s n e.cap k va
          | none =>
            let off := ((piecesOf e.cap.ins e.cap.msk v.1 v.2).head?.map Piece.off).getD 0
            let (sz, op, x, nv) := atomArgs e.cap.ins v.1
            match hAddr h .a off sz with
            | .error k => entFail s n e.cap k (entVa e.cap off)
            | .ok pa =>
              let (_, s) := joinQueues s n e.cap
              let a := lAcc s n 1 e.cap
              match windowOf pa with
              | .dev =>
                match atomAt s a (hKeyIdx h) pa sz op x nv with
                | (.data b, s) =>
                  let s := setClock s (agentNo n 2) (clockOf s (agentNo n 1))
                  updMem (countBytes s n sz) n fun m => finishAtom m e b
                | (.fail k, s) => entFail s n e.cap k (entVa e.cap off)
                | (.clash r pa, s) => clashFault s a r pa (entVa e.cap off)
                | (_, s) => s
              | w =>
                let swap := w != .thirel && !pcieOp op
                let g := numAt e.buf 0 sz
                let r := { reqOf (.l n) e.cap.seq (bit swap) pa sz false (if swap then leBytes sz g ++ leBytes sz (atomOp op sz g x)
                    else leBytes sz x ++ leBytes sz nv) with atomic := true, op := if swap then 9 else op }
                match sendReq s (funcOf s (siteCtx s n)) r with
                | .wait => s
                | .reject => entFail s n e.cap .permission (entVa e.cap off)
                | .ok s _ => updMem s n fun m => putEnt m { e with req := [bit swap] }
    | _ => s

/-! ## Answers from outside (R282, R289, R393, R401) -/

/-- How a request that left the module was answered. -/
inductive Answer
  | data (b : List Byte)
  | rejected
  | poisoned
  | linkError
  deriving DecidableEq, Repr

/-- The fault of an answer in L (R393, R401). -/
def answerKind : Answer → Kind
  | .rejected => .permission
  | .poisoned => .poisonRead
  | _ => .illegal

/-- The entry of L that waits for a piece from outside. -/
def waitingEnt (m : Member) (seq piece : Nat) : Option LEnt :=
  (m.l.lq ++ m.l.defer.map Prod.fst).find? fun e => e.cap.seq == seq && e.req.contains piece

/-- An entry of `LCol.defer` replaced. -/
def putDefer (m : Member) (e : LEnt) : Member :=
  { m with l := { m.l with defer := m.l.defer.map fun x => if x.1.cap.seq = e.cap.seq then (e, x.2) else x } }

/-- An update of an `amass` has performed: the next follows, and after the last its entry leaves both
queues (R216). -/
def amassNext (m : Member) (e : LEnt) : Member :=
  match e.left.tail with
  | [] => dropEnt m e
  | r => putEnt m { e with left := r, req := [] }

/-- A deferred access or an entry of the queues is stored back, or finished. -/
def putBack (cal : Nat) (m : Member) (e : LEnt) : Member :=
  let deferred := m.l.defer.any fun x => x.1.cap.seq == e.cap.seq
  if e.left = [] ∧ e.req = [] then (if deferred then finishDefer cal m e else finishLoad cal m e)
  else if deferred then putDefer m e else putEnt m e

/-- An answer reaches L. -/
def answerL (s : State) (n seq piece : Nat) (x : Answer) : State :=
  match waitingEnt (mem s n) seq piece with
  | none => s
  | some e =>
    match e.cap.ins, x with
    | .atom .., .data b | .cas .., .data b =>
      match (if piece = 1 then swapAnswer e 0 (atomArgs e.cap.ins []).1 b else none) with
      | some e => updMem s n fun m => putEnt m e
      | none => updMem s n fun m => finishAtom m e b
    | .amass .., .data b =>
      match swapAnswer e (4 * piece) 4 b with
      | some e => updMem s n fun m => putEnt m e
      | none => updMem s n fun m => amassNext m e
    | _, .data b =>
      match pieceOf e piece with
      | none => s
      | some (_, _, p) =>
        let e := { e with req := e.req.filter fun k => k != piece,
                          buf := setBytes e.buf (pairStride * (piece / pairStride) + p.dst) (b.take p.n) }
        updMem (countBytes s n p.n) n fun m => putBack s.cal m e
    | _, x =>
      let g := ((pieceOf e piece).map fun y => y.1).getD 0
      if guarded e.cap g then updMem s n fun m => putBack s.cal m (spoil e (piece / pairStride) (answerKind x))
      else entTrap s n e.cap { trapOf (answerKind x) with va := some (entVa e.cap (((pieceOf e piece).map fun y => y.2.2.off).getD 0)) }

/-! ## Marks, fences and flag updates (R230, R239, R290) -/

/-- MARK_PERFORM (R230). -/
def markStep (n : Nat) (s : State) : State :=
  match headBoth (mem s n) with
  | some e => match e.cap.ins with
    | .mark .. => updMem (joinQueues s n e.cap).2 n fun m => dropEnt m e
    | _ => s
  | none => s

/-- FENCE_PERFORM (R230, R290): only `.sys` waits for more than a `mark`. -/
def fenceStep (n : Nat) (s : State) : State :=
  match headBoth (mem s n) with
  | some e => match e.cap.ins with
    | .fence _ sc =>
      match (if sc = 3 then sysVisible s (.l n) (joinQueues s n e.cap).1 else (true, s)) with
      | (true, s) =>
        let (clk, s) := joinQueues s n e.cap
        let s := if 2 ≤ sc.toNat then { s with fenced := tput [] s.fenced n clk } else s
        updMem (if sc = 3 then release s sysKey clk else s) n fun m => dropEnt m e
      | (false, s) => s
    | _ => s
  | none => s

/-- Scope of a release (R238, R239). -/
def releaseScope : Instr → Nat
  | .fpost _ _ sc _ | .fset _ _ sc _ | .fdec _ _ sc _ => sc.toNat
  | _ => 2

/-- The flag, and the value of the value field, of an update entry. -/
def updateArgs (n : Nat) (i : Instr) (ss : List Word) : FlagKey × Word32 :=
  match i with
  | .fpost _ f _ v | .fset _ f _ v | .fdec _ f _ v => (flagKey n f, valOfField v ss)
  | .barj _ o _ => (.dev (o.toNat + 1), 0)
  | _ => (.dev 0, 0)

/-- Counters of an update (R420). -/
def countUpdate (m : Member) : Instr → Member
  | .fpost .. => count m 0x0c0
  | .barj .. => count m 0x0c2
  | _ => m

/-- A flag update of a member performs at the flag's home: release, update, and the fault of a bound
met (R42, R239, R240, R242). -/
def updateStep (n : Nat) (s : State) : State :=
  match headBoth (mem s n) with
  | none => s
  | some e =>
    let c := e.cap
    let act (i : Instr) (s : State) : State :=
      match onePair c with
      | none => s
      | some (.poison k o a) => entTrap s n c (poisonTrap (k, o, a))
      | some (.val v) =>
        let (k, x) := updateArgs n i v.1
        if !flagReach s n k then
          takeFault s n 0 5 c.q.code c.addr c.tag.iter.toNat c.tag (trapOf .illegal)
        else
          match (if releaseScope i = 3 then sysVisible s (.l n) (joinQueues s n c).1 else (true, s)) with
          | (false, s) => s
          | (true, s) =>
            let (clk, s) := joinQueues s n c
            let s := releaseAt s k (releaseScope i) n clk
            let s := updMem s n fun m => countUpdate (dropEnt m e) i
            match i with
            | .barj _ o _ =>
              let (ph, s) := arrive s o.toNat n (srcId 0 5 n)
              updMem s n fun m => sendAnswer m (c.tok.getD 0) c.addr ph
            | _ =>
              let (s, ok) := updateFlag s k i x (srcId 0 5 n) 0
              if ok then s
              else
                let s := updMem s n fun m => noteBound m (boundKind i == .flagOverflow)
                takeFault s n 1 c.q.code c.q.code c.addr c.tag.iter.toNat c.tag (trapOf (boundKind i))
    match c.ins with
    | .fpost .. | .fset .. | .fdec .. | .barj .. => act c.ins s
    | _ => s

/-- The oldest flag update of a lookup core performs at its home: the release, the update, and where it meets a bound the
kicker's STATUS and the terminal fault of the program (R42, R382, R389).
DEDUCED (log 30), unsafe. -/
def postStep (k : Nat) (s : State) : State :=
  let c := lookupCore s k
  match c.posts with
  | [] => s
  | p :: rest =>
    let sc := flagScope p.ins
    match (if sc = 3 then sysVisible s (.lookup k) p.clk else (true, s)) with
    | (false, s) => s
    | (true, s) =>
      let s := release s (flagClkKey p.key (lookupScope k c.site sc)) p.clk
      let s := if sc = 3 then release s sysKey p.clk else s
      let (s, ok) := updateFlag (setLookup s k { c with posts := rest }) p.key p.ins p.val (BitVec.ofNat 16 (3 * 4096 + k)) 0
      if ok then s
      else
        let s := updMem s c.site fun m => noteBound m (boundKind p.ins == .flagOverflow)
        if c.ended.any fun x => x != 0 then s else lookupFault s k (boundKind p.ins)

/-! ## Tile slots (R44, R235) -/

/-- Buffer and slots of a `tfill` or `tdrain` at an offset. -/
def tileSlots (i : Instr) (off : Nat) : Nat × List Nat :=
  match i with
  | .tfill _ m _ w => (m.as.toNat, if w = 1 then [off / 2048] else [off / 2048, off / 2048 + 1])
  | .tdrain _ m w => (m.as.toNat, if w = 1 then [off / 2048] else [off / 2048, off / 2048 + 1])
  | _ => (1, [])

/-- Offset of a tile access. -/
def tileOff (i : Instr) (ss : List Word) : Nat :=
  match i with
  | .tfill _ m .. | .tdrain _ m .. => lmOff m (w0 ss)
  | _ => 0

/-- Bytes of a v register as `tfill` writes them. -/
def tileBytes (v : Cells) (e : Nat) : List Byte := (List.range 1024).flatMap fun i => elemOut v i e

/-- Writes whole chunks of a typed buffer one after the other. -/
def writeChunks (s : State) (a : Acc) (site b off rank : Nat) : Nat → List Byte → State
  | 0, _ => s
  | k + 1, l =>
    if l = [] then s
    else writeChunks (writeBuf s a site b off (l.take 32) rank).2 a site b (off + 32) rank k (l.drop 32)

/-- TFILL_PERFORM: every named slot is empty; the data is written and the slots are set full (R235). -/
def tfillStep (n : Nat) (s : State) : State :=
  match headStore (mem s n) with
  | none => s
  | some e =>
    match e.cap.ins with
    | .tfill _ _ _ w =>
      match storeReady e.cap with
      | .wait => s
      | .trap t => entTrap s n e.cap t
      | .go v _ =>
        if !spanOk e.cap.ins (some 0) e.cap.msk v.1 v.2 then entTrap s n e.cap (trapOf .illegal)
        else
          let off := tileOff e.cap.ins v.1
          let (b, sl) := tileSlots e.cap.ins off
          let data := tileBytes (v.2.headD []) (elemBytes w)
          let free := (List.range (data.length / 32)).all fun i => rankOk (mem s n) b (off + 32 * i) 1
          if !(sl.all fun x => slotReady (mem s n) b x false) || !free then s
          else
            let s := sl.foldl (fun s x => learn s (agentNo n 2) (slotClock s n b x)) s
            let s := writeChunks s (lAcc s n 2 e.cap) n b off 1 128 data
            let s := sl.foldl (fun s x => turnSlot s n b x true (clockOf s (agentNo n 2))) s
            updMem (countBytes s n data.length) n fun m => count (dropEnt m e) 0x041
    | _ => s

/-- TDRAIN_PERFORM: every named slot is full, and every earlier load has performed; the slots are set
empty (R235). -/
def tdrainStep (n : Nat) (s : State) : State :=
  match headBoth (mem s n) with
  | none => s
  | some e =>
    match e.cap.ins with
    | .tdrain .. =>
      match storeReady e.cap with
      | .wait => s
      | .trap t => entTrap s n e.cap t
      | .go v _ =>
        if !spanOk e.cap.ins (some 0) e.cap.msk v.1 v.2 then entTrap s n e.cap (trapOf .illegal)
        else
          let (b, sl) := tileSlots e.cap.ins (tileOff e.cap.ins v.1)
          if !(sl.all fun x => slotReady (mem s n) b x true) then s
          else
            let (clk, s) := joinQueues s n e.cap
            let clk := sl.foldl (fun c x => joinClock c (slotClock s n b x)) clk
            let s := setClock (setClock s (agentNo n 1) clk) (agentNo n 2) clk
            let s := sl.foldl (fun s x => turnSlot s n b x false clk) s
            updMem s n fun m => dropEnt m e
    | _ => s

/-! ## Pins (R232, R306 to R308) -/

/-- Lines of device memory that a `pin` or `unpin` names (R232, R306). -/
def pinLines (h : BitVec 128) (off n : Nat) : List Nat :=
  ((List.range n).map fun i => hBase h + off + 128 * i).filter fun pa => windowOf pa == .dev

/-- A pin delivers its entry to LDQ-C and leaves (R232). -/
def finishPin (cal : Nat) (m : Member) (e : LEnt) (v : Nat) : Member :=
  doneC (deliverC cal (dropEnt m e) (plain (BitVec.ofNat 64 v))) e.cap.seq

/-- PIN_PERFORM: a `pin` is granted or refused whole, or an `unpin` acts, at the head of the store queue;
a deferred pin waits there until it can be granted (R307), and a pin pays for the lines it fetches, four sectors
each, before it is granted (R232, R310). -/
def pinStep (n : Nat) (s : State) : State :=
  match headStore (mem s n) with
  | none => s
  | some e =>
    match storeReady e.cap with
    | .wait => s
    | .trap t => (match e.cap.ins with | .pin .. | .unpin .. => entTrap s n e.cap t | _ => s)
    | .go v h =>
      match e.cap.ins with
      | .unpin _ m _ =>
        if !spanOk e.cap.ins (some h) e.cap.msk v.1 v.2 then entFail s n e.cap .illegal (entVa e.cap (lmOff m (w1 v.1)))
        else if w0 v.1 ≠ 0 ∧ !hValid h then entFail s n e.cap (hKind h) (entVa e.cap (lmOff m (w1 v.1)))
        else
          let s := (pinLines h (lmOff m (w1 v.1)) (w0 v.1)).foldl (unpinLine (siteCtx s n)) s
          updMem s n fun m => dropEnt m e
      | .pin _ m _ =>
        if !turnC (mem s n) e.cap.seq || !ldqRoom (mem s n).l.ldqC (mem s n).l.bindC 1 then s
        else if !spanOk e.cap.ins (some h) e.cap.msk v.1 v.2 then entFail s n e.cap .illegal (entVa e.cap (lmOff m (w1 v.1)))
        else if w0 v.1 ≠ 0 ∧ !hValid h then entFail s n e.cap (hKind h) (entVa e.cap (lmOff m (w1 v.1)))
        else if w0 v.1 ≠ 0 ∧ !hRead h then entFail s n e.cap .permission (entVa e.cap (lmOff m (w1 v.1)))
        else
          let lines := pinLines h (lmOff m (w1 v.1)) (w0 v.1)
          match judgePins s (siteCtx s n) lines with
          | .refused => if e.begun then s else updMem s n fun m => finishPin s.cal m e 1
          | .deferred =>
            if e.begun then s
            else updMem s n fun m => count (putEnt m { e with begun := true }) 0x064
          | .granted =>
            match nextFetch s lines e.left with
            | some (i, pa) =>
              match pay s (lAcc s n 2 e.cap) pa 4 with
              | (true, s) => updMem s n fun m => putEnt m { e with left := i :: e.left }
              | (false, s) => s
            | none =>
            let s := lines.foldl (pinLine (siteCtx s n) (bindOf s n).launch) s
            updMem s n fun m => countN (finishPin s.cal m e 0) 0x063 lines.length
      | _ => s

/-! ## Remote stores (R236, R345) -/

/-- Target site of an `rst`. -/
def rstSite : Instr → Nat
  | .rst _ _ _ prow pcol _ _ => 16 * prow.toNat + pcol.toNat
  | _ => 0

/-- The increment of the target's flag, once the data is visible (R236, R419). -/
def rstFlag (n : Nat) (s : State) (c : Cap) : State :=
  match c.ins with
  | .rst _ _ _ _ _ true fn =>
    let t := rstSite c.ins
    if !tget false (mem s t).buf.armed fn.toNat then
      entTrap s n c { trapOf .illegal with status := t + 65536 * fn.toNat }
    else
      let k : FlagKey := .own t fn.toNat
      let s := release s (flagClkKey k (scopeKey 0 t)) (clockOf s (agentNo n 2))
      let (s, ok) := postFlag s k 1 (srcId 0 5 n) 0
      if ok then s
      else entTrap (updMem s t fun m => noteBound m true) n c (trapOf .flagOverflow)
  | _ => s

/-- RST_PERFORM: the next chunk of a remote store becomes visible in the target's AB; after the last the
armed flag is incremented (R236, R278).
DEDUCED (log 54), unsafe. -/
def rstStep (n : Nat) (s : State) : State :=
  match headStore (mem s n) with
  | none => s
  | some e =>
    match e.cap.ins with
    | .rst .. =>
      match storeReady e.cap with
      | .wait => s
      | .trap t => entTrap s n e.cap t
      | .go v _ =>
        if !spanOk e.cap.ins none e.cap.msk v.1 v.2 then entTrap s n e.cap (trapOf .illegal)
        else if !reachable s n (rstSite e.cap.ins) then entTrap s n e.cap (trapOf .illegal)
        else
          let e := if e.begun then e else { e with begun := true, left := List.range 128 }
          match e.left with
          | [] => s
          | k :: rest =>
            let x := ((List.range 8).flatMap fun i => elemOut (v.2.headD []) (8 * k + i) 4)
            match writeBuf s (lAcc s n 2 e.cap) (rstSite e.cap.ins) 2 (w0 v.1 + 32 * k) x 7 with
            | (.done, s) =>
              let s := countBytes s n 32
              if rest = [] then rstFlag n (updMem s n fun m => count (dropEnt m e) 0x041) e.cap
              else updMem s n fun m => putEnt m { e with left := rest }
            | (_, s) => s
    | _ => s

/-! ## Deferred accesses (R164) -/

/-- DEFERRED_ACCESS_REISSUE: the next piece of a recorded access that has been serviced.
DESIGN CHOICE (log 50), safe. -/
def deferStep (n tok : Nat) (s : State) : State :=
  match (mem s n).l.defer.find? (fun x => x.1.cap.seq == tok && x.2) with
  | none => s
  | some (e, _) =>
    match entPairs e.cap, entHandle e.cap with
    | some ps, some h =>
      let e' := if e.begun then e else beginEnt e h (numbered ps)
      match wantedFault e.cap h (numbered ps) with
      | some (k, va) =>
        match k with
        | .page | .staleHandle =>
          let s := updMem s n fun m =>
            { m with l := { m.l with defer := m.l.defer.map fun x => if x.1.cap.seq = tok then (e, false) else x } }
          let s := postRec s (siteRec s n 0 5 .deferredAccess true true 0 0 e.cap.tag (va % 2 ^ 54))
          { s with replays := s.replays ++ [{ site := n, src := .deferred tok, seq := tok, va := BitVec.ofNat 64 va }] }
        | _ => entTrap s n e.cap { trapOf k with va := some va, deferred := true }
      | none =>
        let piece := e'.left.headD 0
        let (r, s) := loadPiece s n e' piece
        match r with
        | .ent x => updMem s n fun m => putBack s.cal m x
        | .wait => s
        | .fail k => entTrap s n e.cap { trapOf k with va := some (entVa e.cap 0), deferred := true }
        | .clash r pa => clashFault s (lAcc s n 1 e.cap) r pa (entVa e.cap 0)
    | _, _ => s

/-! ## The events -/

/-- L_LOAD_PERFORM (R227, R275). -/
def execLLoadPerform (site piece : Nat) (s : State) : Host.Outcome State Fault Refusal := .next (loadPerform site piece s)

/-- L_STORE_PERFORM (R275). -/
def execLStorePerform (site piece : Nat) (s : State) : Host.Outcome State Fault Refusal := .next (storePerform site piece s)

/-- ATOMIC_PERFORM (R229). -/
def execAtomicPerform (site : Nat) (s : State) : Host.Outcome State Fault Refusal := .next (atomPerform site s)

/-- MARK_PERFORM (R230). -/
def execMarkPerform (site : Nat) (s : State) : Host.Outcome State Fault Refusal := .next (markStep site s)

/-- FENCE_PERFORM (R290). -/
def execFencePerform (site : Nat) (s : State) : Host.Outcome State Fault Refusal := .next (fenceStep site s)

/-- FLAG_UPDATE_PERFORM (R239): of a member, or of lookup core n as 256 + n (R382). -/
def execFlagUpdatePerform (site : Nat) (s : State) : Host.Outcome State Fault Refusal :=
  .next (if 256 ≤ site then postStep (site - 256) s else updateStep site s)

/-- TFILL_PERFORM (R235). -/
def execTfillPerform (site : Nat) (s : State) : Host.Outcome State Fault Refusal := .next (tfillStep site s)

/-- TDRAIN_PERFORM (R235). -/
def execTdrainPerform (site : Nat) (s : State) : Host.Outcome State Fault Refusal := .next (tdrainStep site s)

/-- PIN_PERFORM (R232). -/
def execPinPerform (site : Nat) (s : State) : Host.Outcome State Fault Refusal := .next (pinStep site s)

/-- RST_PERFORM (R236). -/
def execRstPerform (site : Nat) (s : State) : Host.Outcome State Fault Refusal := .next (rstStep site s)

/-- DEFERRED_ACCESS_REISSUE (R164). -/
def execDeferredAccessReissue (site tok : Nat) (s : State) : Host.Outcome State Fault Refusal := .next (deferStep site tok s)

end Sys2Proof.Machine
end

