-- ==== Sys2Proof/Machine/Sched.lean ====
section
/-! DEFINITION. What the step needs of the agents: which lanes are due, the fault of a lane that is no
instruction, the events that may happen in each part of a tick, and the end of a tick. -/

namespace Sys2Proof.Machine

open Sys2Proof

/-! ## Lanes that are due -/

/-- The queues of a fetch line in the order in which their lanes enter a group cycle (R160). -/
def laneQueues : List Queue := [.c, .v, .x, .m, .l, .e]

/-- The matrix column of a parking member performs what is in flight, in ticks that are no group cycles
(R408). -/
def draining (m : Member) : Bool :=
  m.ctl.life == .parking && (!m.mat.ops.isEmpty || !m.mat.cbw.isEmpty || !m.fly.rtc.isEmpty)

/-- The columns' work in flight goes on in this tick. -/
def columnsRun (m : Member) : Bool := cycleRuns m || draining m

/-- The group of a member may issue in this tick (R21, R266). -/
def groupRuns (m : Member) : Bool := cycleRuns m && (match m.ctl.life with | .halted => false | _ => true)

/-- A lane waits for the lane of the control column due in the same group cycle: an L or E lane for a flag wait
(R239, R284) and for the opening of a guard slot, which holds for every instruction of the cycle (R152); any lane of
a later line for an instruction that may transfer (R136). -/
def behindC (c : QLane) (q : Queue) (l : QLane) : Bool :=
  q != .c && match c.ins with
    | some (.fwait ..) | some (.barw ..) | some (.qopen ..) | some (.qopenf ..) => q == .l || q == .e
    | some i => endsC i && decide (c.inst < l.inst)
    | none => false

/-- A queue of a member has a lane that may issue in this group cycle. -/
def queueDue (m : Member) (q : Queue) : Bool :=
  match dueLane m q, dueLane m .c with
  | some l, some c => !behindC c q l
  | some _, none => true
  | none, _ => false

/-- L goes on capturing the lanes of the group cycle at which the group is frozen (R21, R448) and those that still
wait when the core program has ended (R160, R266), but not while a breakpoint stops it (R269). -/
def lCaptures (m : Member) : Bool :=
  (match m.ctl.life with | .running => true | .saving => true | .restoring => true | .halted => true | _ => false) &&
  match m.ctl.dbg with | .stopped _ => false | _ => true

/-- The queues of a member with a lane due in this group cycle.
DEDUCED (log 6), unsafe. -/
def dueQueues (m : Member) : List Queue :=
  let l := laneQueues.filter (queueDue m)
  if groupRuns m then l else if lCaptures m then l.filter fun q => q == .l else []

/-- The head lane of a handler, due in its cycle (R24); none while the member is stopped (R269). -/
def dueHandler (m : Member) : Option QLane :=
  if m.ui.active && m.ui.hold.isNone && !m.ui.leaving && m.ctl.trap.isNone && !(match m.ctl.dbg with | .stopped _ => true | _ => false) then
    match m.ui.fetch.lanes with
    | [] => none
    | l :: _ => if dueCycle m.ui.ref l ≤ m.ui.cyc then some l else none
  else none

/-- The head lane of a lookup core, due in its cycle (R382). -/
def dueLookup (c : Lookup) : Option QLane :=
  if c.run && c.hold.isNone && !c.halted && c.send.isNone then
    match c.fetch.lanes with
    | [] => none
    | l :: _ => if dueCycle c.ref l ≤ c.cyc then some l else none
  else none

/-- An instruction that a SAVE block may not hold (R412). -/
def notInSave (i : Instr) : Bool :=
  (eform i).isSome || match i with
  | .loop .. | .loopn .. | .loopc .. | .loopd .. | .lbrk .. | .lrec .. | .qopen .. | .qopenf .. | .qres .. | .qpick .. | .qstat .. | .fwait ..
  | .barw .. | .qwait .. | .yield .. | .halt .. => true
  | _ => false

/-- A lane of a SAVE block that R412 forbids. -/
def saveBreach (l : QLane) : Bool :=
  match l.rcd, l.ins with
  | some r, some i => r.phase == .save && notInSave i
  | _, _ => false

/-- The fault of a lane that is no well-formed instruction (R111, R128). -/
def badLane (s : State) (l : Lane) (r : Reject) : State :=
  if r = .lineFormat then laneFault s { l with ln := { l.ln with addr := l.ln.faddr } } (trapOf .lineFormat)
  else laneFault s l (trapOf .illegal)

/-! ## Lists the scheduler walks -/

/-- The sites that hold anything. -/
def siteList (s : State) : List Nat := s.members.map Prod.fst

/-- The lookup cores that hold anything. -/
def lookupList (s : State) : List Nat := s.lookups.map Prod.fst

/-- Pieces of the head of L's queues still to perform. -/
def headPieces (l : List LEnt) : List Nat :=
  match l with
  | [] => []
  | e :: _ => if e.begun then e.left else [0]

/-- The engines of a member. -/
def engines : List (Fin 4) := [0, 1, 2, 3]

/-! ## The end of a tick -/

/-- The freeze cause counted in this tick: UI_HANDLER, that of the freeze line, or a lower-numbered one that is
active too (R22). -/
def frozenCause (m : Member) : Option Nat :=
  let low (c : Nat) : Nat := min c (m.ctl.low.getD c)
  match m.ctl.frz with
  | some h => some (low (if m.ui.active then min 11 (holdCause m h) else holdCause m h))
  | none => if m.ui.active then some (low 11) else none

/-- A handler's cycles go on: it runs, or writes of it are still in flight after its `uiret` (R24, R25). -/
def uiTimed (m : Member) : Bool := if m.ui.active then m.ui.hold.isNone else !m.ui.fly.isEmpty

/-- A member is bound: its ticks are counted (R420). -/
def isBound (m : Member) : Bool :=
  match m.ctl.life with
  | .running | .parked | .parking | .saving | .restoring | .halted => true
  | _ => false

/-- A queue's reference point raised (R244). -/
def raiseRef (t : Tab Nat) (r : Nat × Nat × Nat) : Tab Nat := tput 0 t r.1 (max (tget 0 t r.1) r.2.1)

/-- The lanes of L, from a reference point on, whose issue cycles have come: they wait in L's own queue. -/
def overdue (gc : Nat) : Nat → List QLane → List QLane
  | _, [] => []
  | ref, l :: ls => if dueCycle ref l ≤ gc then l :: overdue gc (dueCycle ref l + 1) ls else []

/-- The lanes that still issue after a `halt`: no lockstep lane, but those that L has stalled (R160, R233, R266). -/
def afterHalt (m : Member) : List QLane :=
  overdue m.ctl.gc (tget 0 m.ctl.refs Queue.l.code) (m.ctl.fetch.lanes.filter fun l => l.q == .l)

/-- What the end of a tick does to a member: counters, GROUP_CYCLE, a `halt` or `brk` of this cycle, an
`align` that still holds it, and the handler's cycle (R18, R22, R24, R243, R266, R269, R272); a member that has raised a
fault issues nothing more (R111, R116). -/
def endTick (cal : Nat) (m : Member) : Member :=
  let m := { m with fly := { m.fly with landed := [], landedV := [], clash := none, spr := [] }, buf := { m.buf with order := [], turned := [] },
                    ctl := { m.ctl with fin := false, low := none, raised := [], refs := m.ctl.raised.foldl raiseRef m.ctl.refs } }
  if !isBound m then m
  else
    let m := count m 0x010
    let stop := match m.ctl.dbg with | .stopped _ => true | _ => false
    let idle := match m.ctl.life with | .parked | .parking => true | _ => false
    let rest := afterHalt m
    let frozen := m.ctl.frz.isSome || m.ui.active || stop || idle
    let m := match frozenCause m with | some c => count m c | none => m
    let m := if draining m then
        { m with ctl := { m.ctl with gc := m.ctl.gc + 1, gcBias := (m.ctl.gcBias + 2 ^ 64 - 1) % 2 ^ 64 } }
      else m
    let m := if frozen then m
      else count { m with ctl := { m.ctl with gc := m.ctl.gc + 1 }, buf := { m.buf with cbWas := [], cbBadWas := [] } } 0
    let m := if m.ctl.halting then
        { m with ctl := { m.ctl with halting := false, life := .halted, fetch := { Fetch.none with count := m.ctl.fetch.count, lanes := rest } } }
      else m
    let m := if m.ctl.trap.isSome then { m with ctl := { m.ctl with fetch := { Fetch.none with count := m.ctl.fetch.count } } } else m
    let m := match m.ctl.dbg, runRcd m with
      | .stepping, none => if frozen then m else { m with ctl := { m.ctl with dbg := .asked 1 0 } }
      | _, _ => m
    let m := match m.ctl.alignTo with
      | some t => { m with ctl := { m.ctl with alignTo := none, frz := if cal + 1 < t then some (.stamp t) else m.ctl.frz } }
      | none => m
    let m := if uiTimed m ∧ !stop then { m with ui := { m.ui with cyc := m.ui.cyc + 1 } } else m
    let m := match m.ui.alignTo with
      | some t => { m with ui := { m.ui with alignTo := none, hold := if cal + 1 < t then some (.stamp t) else m.ui.hold } }
      | none => m
    if m.ui.leaving then uiReturn { m with ui := { m.ui with leaving := false } } else m

/-- The same for a lookup core, whose counter advances in every tick in which it is not stalled (R382). -/
def endTickL (cal : Nat) (c : Lookup) : Lookup :=
  if !c.run then c
  else
    let c := if c.hold = none ∧ !c.halted ∧ c.work = none then { c with cyc := c.cyc + 1 } else c
    match c.alignTo with
    | some t => { c with alignTo := none, hold := if cal + 1 < t then some (.stamp t) else c.hold }
    | none => c

/-- A launch with a member that a debugger holds stopped: its DEADLINE moves by the tick (R425).
DEDUCED (log 90), unsafe. -/
def heldStopped (s : State) (l : Launch) : Launch :=
  if l.sites.any fun n => match (mem s n).ctl.dbg with | .stopped _ => isBound (mem s n) | _ => false
  then { l with deadline := l.deadline + 1 } else l

/-- Since when the records of a queue wait, and of them its head: from the tick in which its tail was accepted (R338). -/
def noteWaiting (cal : Nat) (w : WorkQueue) : WorkQueue :=
  if w.en && w.head != w.tail then
    let left := w.came.filter fun p => decide (1 ≤ (p.1 - w.head).toNat ∧ (p.1 - w.head).toNat < 2 ^ 31)
    let came := if (left.getLast?.map Prod.fst) = some w.tail then left else left ++ [(w.tail, cal)]
    { w with came := came, since := some (w.since.getD ((came.head?.map Prod.snd).getD cal)) }
  else { w with since := none, raised := 0, came := [] }

/-- The Calendar advances (R17). -/
def advance (s : State) : State :=
  let s := sealMets (flushWaits s)
  { s with cal := (s.cal + 1) % 2 ^ 64, phase := .start, posted := false,
           launches := s.launches.map (heldStopped s),
           queues := s.queues.map fun p => (p.1, noteWaiting s.cal p.2),
           ports := tmap Port.reset (refillPort s) s.ports,
           traceSt := tmap TraceSt.reset (fun t => { t with sampled := false }) s.traceSt,
           members := tmap Member.free (endTick s.cal) s.members,
           lookups := tmap Lookup.idle (endTickL s.cal) s.lookups }

/-- The next part of the tick. -/
def nextPhase (s : State) : State :=
  match s.phase with
  | .start => { s with phase := .issue }
  | .issue => { s with phase := .mid }
  | .mid => { s with phase := .fin }
  | .fin => advance s

/-- The clocks stand still: Vigil in force at the end of its tick, or an alarm of level 2 (R427, R433). -/
def clocksStand (s : State) : Bool :=
  s.halted || (bits s.vigil.toNat 4 4 == 1 && s.cal != s.vigilTv) ||
  (bits s.vigil.toNat 4 4 == 1 && s.phase == .start && s.cal == s.vigilTv + 1)

end Sys2Proof.Machine
end

