-- ==== Sys2Proof/Machine/Land.lean ====
section
/-! DEFINITION. The start and the end of a tick for a member: fetch (R20, R106, R220), the release of a
freeze (R22), fixed-latency results (R16, R25, R172), timed landings (R26, R173, R233, R240, R270), and
the resolution of guard slots (R152, R158, R164, R167). -/

namespace Sys2Proof.Machine

open Sys2Proof

/-! ## Fetch -/

/-- A lane that stands for the fetch of a line outside TEXT (R137).
DEDUCED (log 24), unsafe. -/
def outLane (f : Fetch) (cyc : Nat) : QLane :=
  { q := .c, ins := none, bad := some .unassigned, addr := f.pc, pres := max f.pres cyc, stack := f.stack, rcd := f.rcd,
    inst := f.count, faddr := f.pc, idle := 0, out := true }

/-- A fetch state of an agent with one line more; none where no line follows yet. -/
def oneMore (s : State) (w : Who) (f : Fetch) : Option Fetch :=
  if f.stop then none
  else (settle f).map fun f =>
    let pa := imgOf s w
    let (lo, hi) := textOf s pa
    if f.pc < lo ∨ hi < f.pc + 32 ∨ f.pc % 32 ≠ lo % 32 then
      { f with lanes := f.lanes ++ [outLane f (cycleOf s w)], stop := true, count := f.count + 1 }
    else pushLine w f (cycleOf s w) f.pc (lineAt s pa f.pc)

/-- Within k lines from a fetch state on, a lane of a member is due whose queue is empty (R20, R22). -/
def dueWithin (s : State) (n : Nat) : Nat → Fetch → Bool
  | 0, _ => false
  | k + 1, f =>
    match oneMore s (.mem n) f with
    | none => false
    | some g => nextLineDue (mem s n) (g.lanes.drop (mem s n).ctl.fetch.lanes.length) || dueWithin s n k g

/-- A fetch state with at most one iteration more of its loops and of its record's kernel: every line that fetch will
yet come to, it comes to within these. -/
def fewIterations (f : Fetch) : Fetch :=
  { f with stack := f.stack.map fun x => { x with left := x.left.map (min 1) }
           rcd := f.rcd.map fun r => { r with n := min r.n (r.j + 3 - r.stages) } }

/-- On a line that is still to be fetched, however far on, a lane of a member is due whose queue is empty (R20, R22). -/
def dueBeyond (s : State) (n : Nat) (f : Fetch) : Bool :=
  let (lo, hi) := textOf s (imgOf s (.mem n))
  dueWithin s n (16 * ((hi - lo) / 32 + 1)) (fewIterations f)

/-- Fetch goes on: few lanes are left, or a lane further on is due. -/
def fetchWants (s : State) (w : Who) : Bool :=
  decide ((fetchOf s w).lanes.length < fetchAhead) ||
  (match w with | .mem n => dueBeyond s n (fetchOf s w) | _ => false)

/-- The fetch state with its next line; none where no line follows yet. -/
def nextLine (s : State) (w : Who) : Option (Fetch × List QLane) :=
  if !fetchWants s w then none
  else (oneMore s w (fetchOf s w)).map fun g => (g, g.lanes.drop (fetchOf s w).lanes.length)

/-- An agent that fetches (R21, R24, R382). -/
def fetches (s : State) : Who → Bool
  | .mem n => match (mem s n).ctl.life with | .running | .saving | .restoring => true | _ => false
  | .hnd n => (mem s n).ui.active
  | .lk n => (lookupCore s n).run

/-- FETCH_LINE_PRESENT for an agent: the next line becomes present once its L lanes, flag updates and
commands have room (R20, R220, R245); a group that is due on an absent line freezes with FETCH (R22). -/
def fetchStep (w : Who) (s : State) : State :=
  if !fetches s w then s
  else match nextLine s w with
    | none => s
    | some (f, new) =>
      match w with
      | .mem n =>
        let m := mem s n
        if roomFor m new then
          updMem (setFetch s w f) n fun m => { m with ctl := { m.ctl with frz := if m.ctl.frz = some (.fetch 0) then none else m.ctl.frz } }
        else if groupRuns m ∧ dueBeyond s n m.ctl.fetch then
          updMem s n fun m => { m with ctl := { m.ctl with frz := some (.fetch 0) } }
        else s
      | .hnd n => if roomFor (mem s n) new then setFetch s w f else s
      | .lk _ => setFetch s w f

/-! ## Release of a freeze (R22) -/

/-- A flag wait is over: the tick after the one that satisfied it has come (R241); where no update did, its condition
holds. -/
def metBefore (s : State) (x : Option Met) (now : Bool) : Bool :=
  match x with
  | some x => x.tick < s.cal
  | none => now

/-- A condition is over, for a member; the wait of a V or X instruction on alternatives is judged anew at each issue
(R176). -/
def holdOver (s : State) (n : Nat) : Hold → Bool
  | .slotEmpty b k => slotReady (mem s n) b k true
  | .slotFull b k => slotReady (mem s n) b k false
  | .sPend r => (sCell (mem s n) r).pend.isNone
  | .vPend r => !vPending (mem s n) r
  | .ldqV => !(mem s n).l.ldqV.isEmpty
  | .ldqC => !(mem s n).l.ldqC.isEmpty
  | .bindV => decide ((mem s n).l.bindV.length < 16)
  | .bindC => decide ((mem s n).l.bindC.length < 16)
  | .heldFull => decide ((mem s n).grd.held.length < 16)
  | .flagWait k v => metBefore s (mem s n).ctl.met (decide (v ≤ (flagVal s k).toNat))
  | .barWait o ph => metBefore s (mem s n).ctl.met (meets (.dev (o + 1)) (flagVal s (.dev (o + 1))) (.barWait o ph))
  | .slotOpen q | .litOpen q => !slotOpen (mem s n) q
  | .fetch _ => false
  | .wake t => decide (t ≤ s.cal)
  | .handle r => tget 0 (mem s n).regs.hp r.val == 0 && !hPend (hReg (mem s n) r)
  | .ui => !(mem s n).ui.active
  | .stamp t => decide (t ≤ s.cal)
  | .sAlts r => (sCell (mem s n) r).pend.isNone && decide ((sCell (mem s n) r).alts.length ≤ 1)
  | .vAlts _ => true
  | .popAlts vec => if vec then (match (mem s n).l.ldqV with | g :: _ => decide (g.length ≤ 1) | [] => true)
      else match (mem s n).l.ldqC with | g :: _ => decide (g.length ≤ 1) | [] => true
  | .queueFull q => if q = 5 then decide ((mem s n).l.lq.length < 32 ∧ (mem s n).l.sq.length < 32)
      else if q < 10 then decide ((streamOf (mem s n) (Fin.ofNat 4 (q - 6))).queue.length < 16)
      else decide ((streamOf (mem s n) (Fin.ofNat 4 (q - 10))).conts.length < 8)

/-- The same for a handler: its shadows too (R273). -/
def holdOverH (s : State) (n : Nat) (h : Hold) : Bool :=
  match h with
  | .sPend r => if 56 ≤ r.val then tget 0 (mem s n).regs.shp (r.val - 56) == 0 else holdOver s n h
  | h => holdOver s n h

/-- The same for a lookup core (R382, R387). -/
def holdOverL (s : State) (k : Nat) (h : Hold) : Bool :=
  let c := lookupCore s k
  match h with
  | .sPend r => tget 0 c.sp r.val == 0
  | .flagWait f v => metBefore s c.met (decide (v ≤ (flagVal s f).toNat))
  | .stamp t => decide (t ≤ s.cal)
  | _ => true

/-- A flag whose home lies outside a site: its notices and answers take no stated number of ticks (R463). -/
def farFlag (n : Nat) : FlagKey → Bool
  | .own m _ => m != n
  | .dev _ => true

/-- A freeze or stall that ends with the notice of a far flag (R241, R463). -/
def farWait (n : Nat) (h : Option Hold) : Bool :=
  match h.bind waitKey with
  | some k => farFlag n k
  | none => false

/-- Writes the wait-log records of a member's control column (R418). -/
def logWaits (s : State) (n : Nat) (u : LastSet) : State :=
  let m := mem s n
  let s := m.ctl.waits.foldl (fun s t => waitRec s n t u (headTag m)) s
  updMem s n fun m => { m with ctl := { m.ctl with waits := [] } }

/-- FREEZE_RELEASE of a member: the condition of its freeze is over (R22); the wait of an `fwait` or
`barw` is logged (R418). A stopped member tests its condition when it resumes (R425). -/
def releaseStep (n : Nat) (s : State) : State :=
  let m := mem s n
  if !lRuns m then s
  else
    let s := match m.ctl.frz with
      | some h =>
        if holdOver s n h then
          let s := match waitKey h with
            | some k => logWaits s n (setterOf s k m.ctl.met)
            | none => s
          updMem s n fun m => { m with ctl := { m.ctl with frz := none } }
        else s
      | none => s
    match (mem s n).ui.hold with
    | some h => if holdOverH s n h then updMem s n fun m => { m with ui := { m.ui with hold := none } } else s
    | none => s

/-- The same for a lookup core. -/
def releaseStepL (k : Nat) (s : State) : State :=
  match (lookupCore s k).hold with
  | some h => if holdOverL s k h then setLookup s k { lookupCore s k with hold := none } else s
  | none => s

/-- FREEZE_RELEASE (R22); numbers from 256 on name the lookup cores, which stall as a member freezes
(R382). -/
def execFreezeRelease (site : Nat) (s : State) : Host.Outcome State Fault Refusal :=
  .next (if site < 256 then releaseStep site s else releaseStepL (site - 256) s)

/-- FETCH_LINE_PRESENT (R20). -/
def execFetchLinePresent (a : Agent) (s : State) : Host.Outcome State Fault Refusal :=
  .next (match a with
    | .site n => fetchStep (.mem n) s
    | .handler n => fetchStep (.hnd n) s
    | .lookup n => fetchStep (.lk n) s)

/-! ## Fixed-latency results (R16, R25) -/

/-- A write lands in its register (R156); the breadth it reaches is noted (R157). -/
def landWrite (m : Member) (x : SWrite) : Member :=
  let a := landAlts (sCell m x.reg).alts x.res x.lit x.out
  noteBreadth (setCell m x.reg { sCell m x.reg with alts := a }) a.length

/-- The s writes due in a group cycle land; a collision is told by the addresses of the write that
stands and of the one that is lost (R16, R222). -/
def landWrites (gc : Nat) (m : Member) : Member × Option (Nat × Nat) :=
  let due := m.fly.sw.filter fun x => x.due ≤ gc
  let first := due.filter fun x => !(due.any fun y => y.reg == x.reg && beatsS y x)
  let stand := first.filter fun x => !(m.fly.landed.any fun y => y.1 == x.reg && decide (y.2.1 ≤ x.q.code))
  let lost := due.findSome? fun x =>
    match due.find? (fun y => y.reg == x.reg && decide (y.q.code < x.q.code)) with
    | some y => some (y.addr, x.addr)
    | none => (m.fly.landed.find? fun y => y.1 == x.reg && y.2.1 != x.q.code).map fun y => lostOf y.2 (x.q.code, x.addr)
  let m := stand.foldl landWrite { m with fly := { m.fly with
    sw := m.fly.sw.filter fun x => !(x.due ≤ gc)
    landed := m.fly.landed ++ stand.map fun x => (x.reg, x.q.code, x.addr) } }
  (m, lost)

/-- A collision sets STATUS.COLL, and is the terminal fault COLLISION where it is checked; the status
word and the instruction address name the two instructions (R16, R27). -/
def collide (s : State) (n : Nat) (c : Option (Nat × Nat)) : State :=
  match c with
  | none => s
  | some (a, b) =>
    let s := updMem s n fun m => { m with spr := { m.spr with coll := true } }
    if (mem s n).spr.chkColl then
      takeFault s n 1 1 1 b 0 (headTag (mem s n)) { trapOf .collision with status := a % 2 ^ 32 }
    else s

/-- The collision of a value that landed for a token is dealt with (R16, R222). -/
def clashStep (n : Nat) (s : State) : State :=
  match (mem s n).fly.clash with
  | none => s
  | c => collide (updMem s n fun m => { m with fly := { m.fly with clash := none } }) n c

/-- The end of a group cycle of a member: wavefronts read, results land, special registers change (R25,
R172, R268); poison that survives is dealt with (R164). -/
def landGroup (n : Nat) (s : State) : State :=
  let m := mem s n
  if m.ctl.fin then s
  else
    let m := m.fly.spr.foldl (fun m p => sprWrite m p.1 p.2) { m with ctl := { m.ctl with fin := true } }
    if !cycleRuns m then surviveAll 64 (setMem s n m) n
    else
      let m := wavesRead m.ctl.gc m
      let (m, c1) := landSlices m.ctl.gc m
      let (m, c2) := landWrites m.ctl.gc m
      surviveAll 64 (collide (collide (setMem s n m) n c2) n c1) n

/-- A handler's writes land at the end of its cycle, s56 to s63 in the shadows (R24, R31, R273); those in flight at
its `uiret` land in the ticks after it (R25).
DEDUCED (log 139), unsafe. -/
def landHandler (n : Nat) (s : State) : State :=
  let m := mem s n
  if !uiTimed m then s
  else
    let due := m.ui.fly.filter fun x => x.due ≤ m.ui.cyc
    let m := { m with ui := { m.ui with fly := m.ui.fly.filter fun x => !(x.due ≤ m.ui.cyc) } }
    setMem s n (due.foldl (fun m x =>
      if 56 ≤ x.reg.val then
        { m with regs := { m.regs with shadow := tput 0 m.regs.shadow (x.reg.val - 56) ((single x.res).getD 0) } }
      else setCell m x.reg { sCell m x.reg with alts := x.res }) m)

/-- Device-flag values land in a lookup core (R240, R382). -/
def lookupVals (k : Nat) (s : State) : State :=
  let c := lookupCore s k
  let vals := c.lands.filter fun x => x.due ≤ s.cal
  let c := { c with lands := c.lands.filter fun x => !(x.due ≤ s.cal) }
  let c := vals.foldl (fun c x => match x.val with
    | .flag f =>
      let regs := (c.sp.filter fun p => p.2 == x.tok + 1).map Prod.fst
      { c with s := regs.foldl (fun t r => tput 0 t r ((flagVal s f).setWidth 64)) c.s
               sp := c.sp.filter fun p => p.2 != x.tok + 1 }
    | _ => c) c
  setLookup s k c

/-- A lookup core's fixed-latency writes land (R25, R382). -/
def lookupWrites (k : Nat) (s : State) : State :=
  let c := lookupCore s k
  if !c.run || c.hold.isSome || c.halted then s
  else
    let due := c.fly.filter fun x => x.due ≤ c.cyc
    setLookup s k
      { c with fly := c.fly.filter fun x => !(x.due ≤ c.cyc)
               s := due.foldl (fun t x => tput 0 t x.reg.val ((single x.res).getD 0)) c.s }

/-- What lands in a lookup core at the end of a tick. -/
def landLookup (k : Nat) (s : State) : State := lookupWrites k (lookupVals k s)

/-- FIXED_LATENCY_WRITE (R25). -/
def execFixedLatencyWrite (a : Agent) (s : State) : Host.Outcome State Fault Refusal :=
  .next (match a with
    | .site n => landGroup n s
    | .handler n => landHandler n s
    | .lookup n => landLookup n s)

/-! ## Timed landings -/

/-- The landing of a token. -/
def landOf (m : Member) (tok : Nat) : Option Land := m.fly.lands.find? fun x => x.tok == tok

/-- A landing is over. -/
def dropLand (m : Member) (tok : Nat) : Member :=
  { m with fly := { m.fly with lands := m.fly.lands.filter fun x => x.tok != tok } }

/-- What a wavefront that gathers for an s register delivers (R173), and the member without it: where the slice of
this group cycle has been read already, the rest begins with the next. -/
def waveResult (m : Member) (seq : Nat) : Alts Word × Member :=
  match m.fly.waves.find? (fun w => w.seq == seq) with
  | none => (plain 0, m)
  | some w =>
    let m' := { m with fly := { m.fly with waves := m.fly.waves.filter fun x => x.seq != seq } }
    match vShape w.ins with
    | some sh => (toSResult (gatherRest m (if m.ctl.fin && cycleRuns m then m.ctl.gc + 1 else m.ctl.gc) sh w), m')
    | none => (plain 0, m')

/-- A value that is due lands at the end of its tick (R26, R173, R240, R270). -/
def landTimed (n tok : Nat) (s : State) : State :=
  let m := mem s n
  match landOf m tok with
  | none => s
  | some x =>
    if s.cal < x.due then s
    else
      let put (a : Alts Word) (m : Member) : State :=
        surviveAll 64 (setMem s n (dropLand (landS s.cal (x.q.code, x.addr) m tok a x.lit x.out) tok)) n
      match x.val with
      | .s a | .answer a => put a m
      | .v a => surviveAll 64 (setMem s n (dropLand (landV (x.q.code, x.addr) m tok a) tok)) n
      | .flag k => put (plain ((flagVal s k).setWidth 64)) m
      | .wave seq => let (a, m) := waveResult m seq; put a m
      | .xlat .. | .pcread .. => s

/-- PENDING_VALUE_LANDS (R26). -/
def execPendingValueLands (site tok : Nat) (s : State) : Host.Outcome State Fault Refusal := .next (landTimed site tok s)

/-- An `xlat` whose address has landed and holds one alternative (R159, R233). -/
def xlatVa (v : Src Word) : Option Word :=
  match v with
  | .now a => single a
  | .tok _ => none

/-- XLAT_RESULT: the handle of a translation lands (R233, R319, R320, R323). -/
def xlatStep (n : Nat) (hn : HReg) (s : State) : State :=
  let m := mem s n
  match m.fly.lands.find? (fun x => match x.val with | .xlat r .. => r == hn && decide (x.due ≤ s.cal) | _ => false) with
  | none => s
  | some x =>
    match x.val with
    | .xlat _ v _ bad gen =>
      match xlatVa v with
      | none => s
      | some va =>
        let h := translate s (siteCtx s n) va.toNat
        let h := if bad then hClear (h &&& ~~~(BitVec.ofNat 128 ((2 ^ 16 - 1) * 2 ^ 20)) ||| BitVec.ofNat 128 (gen.toNat * 2 ^ 20)) else h
        setMem (noteWalk s (siteCtx s n) va.toNat) n (dropLand (landH m hn x.tok h) x.tok)
    | _ => s

/-- XLAT_RESULT (R233). -/
def execXlatResult (site : Nat) (hn : HReg) (s : State) : Host.Outcome State Fault Refusal := .next (xlatStep site hn s)

/-- `hrel` of a handle whose `xlat` landed in the tick before (R234). -/
def hrelStep (m : Member) : Member :=
  let now := m.l.hrel.filter fun r => tget 0 m.regs.hp r.val == 0
  now.foldl (fun m r => setH m r 0) { m with l := { m.l with hrel := m.l.hrel.filter fun r => tget 0 m.regs.hp r.val != 0 } }

/-- HREL_CLEAR of a member, in the tick after: no `xlat` lands for the handles named (R234). -/
def hrelDeed (n : Nat) (s : State) : Host.Outcome State Fault Refusal := .next (updMem s n hrelStep)

/-! ## Performance counters (R270, R420) -/

/-- The table of events implements a number (R420). -/
def eventKnown (ev : Nat) : Bool :=
  decide (ev ≤ 0x010) || (decide (0x021 ≤ ev) && decide (ev ≤ 0x026)) || (decide (0x030 ≤ ev) && decide (ev ≤ 0x03e)) ||
  (decide (0x040 ≤ ev) && decide (ev ≤ 0x044)) || (decide (0x050 ≤ ev) && decide (ev ≤ 0x05b)) ||
  (decide (0x060 ≤ ev) && decide (ev ≤ 0x065)) || (decide (0x080 ≤ ev) && decide (ev ≤ 0x083)) ||
  (decide (0x090 ≤ ev) && decide (ev ≤ 0x093)) || (decide (0x0c0 ≤ ev) && decide (ev ≤ 0x0c2))

/-- Count of an event of a member (R420). -/
def eventCount (s : State) (n ev : Nat) : Nat :=
  if !eventKnown ev then 2 ^ 64 - 1
  else tget 0 (mem s n).ctl.perf ev

/-- The counters of a set of members combined (R270). -/
def combine (s : State) (ev op : Nat) (l : List Nat) : Word :=
  let vs := l.map fun n => eventCount s n ev
  if !eventKnown ev then BitVec.allOnes 64
  else match op with
    | 1 => BitVec.ofNat 64 vs.sum
    | 2 => BitVec.ofNat 64 (vs.foldl min (2 ^ 64 - 1))
    | 3 => BitVec.ofNat 64 (vs.foldl max 0)
    | _ => BitVec.ofNat 64 (vs.headD 0)

/-- PCREAD_SAMPLE: the selected counters are sampled and combined (R270). -/
def sampleStep (n tok : Nat) (s : State) : State :=
  match landOf (mem s n) tok with
  | none => s
  | some x =>
    match x.val with
    | .pcread ev op sites t =>
      if s.cal < t then s
      else
        let v : LandVal := .s (mapAlts (combine s ev.toNat op.toNat) sites)
        updMem s n fun m => { m with fly := { m.fly with lands := m.fly.lands.map fun y => if y.tok = tok then { y with val := v } else y } }
    | _ => s

/-- PCREAD_SAMPLE (R270). -/
def execPcreadSample (site tok : Nat) (s : State) : Host.Outcome State Fault Refusal := .next (sampleStep site tok s)

/-- Additions to the routing counters of a site's die; a counter stays at its greatest value (R187). -/
def bankAdd (n : Nat) (l : List Nat) (s : State) : State :=
  let add (b : Tab Word32) (e : Nat) : Tab Word32 :=
    let k := 256 * dieOf n + e
    tput 0 b k (if tget 0 b k = 0xffffffff then 0xffffffff else tget 0 b k + 1)
  { s with rtbank := l.foldl add s.rtbank }

/-- RTCNT_BANK_UPDATE: the additions due in this group cycle are made (R187). -/
def rtcntStep (n : Nat) (s : State) : State :=
  let m := mem s n
  if !columnsRun m then s
  else
    let due := (m.fly.rtc.filter fun p => decide (p.1 ≤ m.ctl.gc)).flatMap Prod.snd
    bankAdd n due (setMem s n { m with fly := { m.fly with rtc := m.fly.rtc.filter fun p => !decide (p.1 ≤ m.ctl.gc) } })

/-- The additions of `rtcnt` that a member has issued are made, those of wavefronts still reading among them: an
instruction issued before a fault of its group completes (R111). -/
def flushCounts (n : Nat) (s : State) : State :=
  let m := mem s n
  let gc := if m.ctl.fin && cycleRuns m then m.ctl.gc + 1 else m.ctl.gc
  let far := m.fly.waves.filterMap fun w =>
    match vShape w.ins with
    | some sh => match sh.dst with
      | .none => some (countVals (gatherRest m gc sh w))
      | _ => none
    | none => none
  let all := (m.fly.rtc.flatMap Prod.snd) ++ far.flatten
  bankAdd n all (setMem s n { m with fly := { m.fly with rtc := [], waves := [] } })

/-- What a member issued has completed: L's queues, the matrix column and the results in flight are empty. -/
def drained (m : Member) : Bool :=
  m.l.lq.isEmpty && m.l.sq.isEmpty && m.mat.ops.isEmpty && m.mat.cbw.isEmpty && m.fly.rtc.isEmpty && m.fly.sw.isEmpty &&
  m.fly.slw.isEmpty && m.fly.waves.isEmpty

/-- A fault that a lane raised is taken once the instructions that issued in its group cycle and before it have
completed, and 256 ticks after it was raised whatever is left (R111, R116, R348); Vigil takes it in its own tick
(R427).
DEDUCED (log 29), unsafe. -/
def trapStep (n : Nat) (s : State) : State :=
  match (mem s n).ctl.trap with
  | none => s
  | some x => if drained (mem s n) || decide (x.tick + 256 ≤ s.cal) || vigilArmed s 2 then takeRaised (flushCounts n s) n x else s

/-- RTCNT_BANK_UPDATE (R187). -/
def execRtcntBankUpdate (site : Nat) (s : State) : Host.Outcome State Fault Refusal := .next (rtcntStep site s)

/-! ## Resolution of guard slots -/

/-- The outcome of an open slot, once it is known (R151, R152, R167, R168). -/
def slotOutcome (s : State) (n : Nat) (x : Slot) : Option Bool :=
  match x.due, x.src with
  | some o, some _ => some o
  | _, some (.reg (.now a)) => (single a).map fun v => v != 0
  | _, some (.flag dev k t) =>
    let v := flagVal s (if dev then .dev k else .own n k)
    if v = 0 then none else some (decide (t.toNat ≤ v.toNat))
  | _, _ => none

/-- Alternatives a member holds in registers, data queues and held entries (R420). -/
def altCount (m : Member) : Nat :=
  (m.regs.s.map fun p => p.2.alts.length - 1).sum + (m.regs.v.map fun p => if p.1 % 64 = 0 then p.2.alts.length - 1 else 0).sum +
  (m.l.ldqC.map List.length).sum + (m.l.ldqV.map List.length).sum +
  (m.grd.held.map fun c => (c.ss.map fun x => match x with | .now a => a.length - 1 | .tok _ => 0).sum).sum

/-- GUARD_RESOLUTION (R158): a slot whose outcome is known resolves at the end of the tick. -/
def resolveStep (n : Nat) (q : QSlot) (s : State) : State :=
  match slotOutcome s n (slotOf (mem s n) q) with
  | none => s
  | some o =>
    let s := updMem s n fun m =>
      let r := resolveSlotOf m q o
      count (countN r 0x093 (altCount m - altCount r)) 0x091
    surviveAll 64 s n

/-- GUARD_RESOLUTION (R158). -/
def execGuardResolution (site : Nat) (q : QSlot) (s : State) : Host.Outcome State Fault Refusal := .next (resolveStep site q s)

end Sys2Proof.Machine
end

