-- ==== Sys2Proof/Machine/Matrix.lean ====
section
/-! DEFINITION. The matrix array and the stream registers (R191 to R211): operands, the dot product of
R79, occupancy, stamps, gating, and the instructions `mmac` to `sget`. -/

namespace Sys2Proof.Machine

open Sys2Proof

/-! ## Streams (R195, R196) -/

/-- FMT of a stream. -/
def sFmt (v : BitVec 256) : Nat := sField v 63 60
/-- SP of a stream. -/
def sSpace (v : BitVec 256) : Nat := sField v 59 58
/-- Rows of a tile of a stream. -/
def sRows (v : BitVec 256) : Nat := sField v 87 81 + 1
/-- k-block length of a stream in elements. -/
def sK (v : BitVec 256) : Nat := (sField v 73 69 + 1) * 32
/-- REL of a stream. -/
def sRel (v : BitVec 256) : Bool := v.getLsbD 53

/-- Width of an element of a format code (R52, R56). -/
def fmtWidth (c : Nat) : Nat :=
  match formatOf c with
  | .fp f => f.width
  | .mx e => e.width
  | .bad => 8

/-- A format code names an MX format. -/
def fmtMx (c : Nat) : Bool :=
  match formatOf c with
  | .mx _ => true
  | _ => false

/-- Step cost of a format code (R200). -/
def stepCost (c : Nat) : Nat :=
  match c with
  | 0x1 | 0x2 | 0xd => 4
  | 0x9 | 0xc => 1
  | _ => 2

/-- Byte address of a group of a row (R196). -/
def groupAt (v : BitVec 256) (r g : Nat) : Nat :=
  let gs := if sField v 111 88 = 0 then 4 * fmtWidth (sFmt v) else sField v 111 88
  sField v 31 0 + r * sField v 135 112 + g * gs

/-- Byte address of the scale of a group of a row (R196). -/
def scaleAt (v : BitVec 256) (r g : Nat) : Nat := sField v 159 136 + r * sField v 183 160 + g

/-- The stretches of bytes read for some rows of a stream, scales included (R196). -/
def opBytes (v : BitVec 256) (rows : List Nat) : List (Nat × Nat) :=
  rows.flatMap fun r => (List.range (sK v / 32)).flatMap fun g =>
    (groupAt v r g, 4 * fmtWidth (sFmt v)) :: (if fmtMx (sFmt v) then [(scaleAt v r g, 1)] else [])

/-- Every stretch lies inside the buffer (R196). -/
def opInside (v : BitVec 256) (l : List (Nat × Nat)) : Bool :=
  l.all fun p => decide (p.1 + p.2 ≤ bufSize (sSpace v))

/-- The tile slots that hold bytes read (R199). -/
def opSlots (v : BitVec 256) (l : List (Nat × Nat)) : List (Nat × Nat) :=
  (l.flatMap fun p => (List.range ((p.1 + p.2 - 1) / 2048 - p.1 / 2048 + 1)).map fun i =>
    (sSpace v, p.1 / 2048 + i)).eraseDups

/-- A chunk read is poisoned (R313). -/
def opPoison (m : Member) (v : BitVec 256) (l : List (Nat × Nat)) : Bool :=
  l.any fun p => (List.range ((p.1 + p.2 - 1) / 32 - p.1 / 32 + 1)).any fun i =>
    tget false m.buf.bad (badKey (sSpace v) (p.1 + 32 * i))

/-- Bytes of a memory as a number, read in one pass. -/
def numIn (m : Mem) (a n : Nat) : Nat := (tslice m a n).foldl (fun x p => x + p.2.toNat * 256 ^ p.1) 0

/-- Element k of a packed group of a format (R55). -/
def packedCode (w g k : Nat) : Nat := g / 2 ^ (w * k) % 2 ^ w

/-- The value of an element of a plain format, flushed (R64). -/
def plainVal (fmt c : Nat) : FVal := decodeFp (fpOf fmt) true c

/-- The elements of a row of a stream (R196). -/
def opRow (m : Mem) (v : BitVec 256) (r : Nat) : List FVal :=
  let f := sFmt v
  let w := fmtWidth f
  (List.range (sK v / 32)).flatMap fun g =>
    let x := numIn m (groupAt v r g) (4 * w)
    match formatOf f with
    | .mx e =>
      let sc := numIn m (scaleAt v r g) 1
      (List.range 32).map fun k => mxValue e true sc (packedCode w x k)
    | _ => (List.range 32).map fun k => plainVal f (packedCode w x k)

/-! ## The dot product (R79, R80) -/

/-- One multiply-add of the loop of R79. -/
def macStep (f : Fmt) (mode : Mode) (acc : Nat) (p : FVal × FVal) : Nat :=
  roundTo f false mode (addNum mode (decodeFp f false acc) (mulNum p.1 p.2))

/-- The loop of R79 over the elements of two rows. -/
def dotAcc (f : Fmt) (mode : Mode) (acc : Nat) (a b : List FVal) : Nat := (a.zip b).foldl (macStep f mode) acc

/-- A tile of w by w cells with the cells (r0 + i, c0 + j) changed by a function of i, j and the old
value, i below na and j below nb. -/
def mapTile (w r0 c0 na nb : Nat) (f : Nat → Nat → Word → Word) (t : Tab Word) : Tab Word :=
  (List.range w).flatMap fun i =>
    let row := tslice t (w * i) w
    let row := if r0 ≤ i ∧ i < r0 + na then
        tofn 0 (List.range w) fun j =>
          let x := tget 0 row j
          if c0 ≤ j ∧ j < c0 + nb then f (i - r0) (j - c0) x else x
      else row
    row.map fun p => (w * i + p.1, p.2)

/-- Accumulation of rows of A against rows of B into a tile (R206, R207). -/
def macTile (f : Fmt) (mode : Mode) (w r0 c0 : Nat) (a b : List (List FVal)) (t : Tab Word) : Tab Word :=
  mapTile w r0 c0 a.length b.length (fun i j x =>
    BitVec.ofNat 64 (dotAcc f mode x.toNat (a.getD i []) (b.getD j []))) t

/-! ## Accumulators, tags and CB (R191 to R193) -/

/-- Cells of a side of the array in the mode. -/
def mSide (x : Mat) : Nat := if x.f64 then 32 else 128

/-- Bytes of an accumulator in the mode. -/
def mBytes (x : Mat) : Nat := if x.f64 then 8 else 4

/-- Format of the accumulators. -/
def mFmt (x : Mat) : Fmt := if x.f64 then fp64 else fp32

/-- The matrix rounding mode (R209). -/
def mMode (x : Mat) : Mode := modeOf x.rm.toNat

/-- Accumulator tile of a CB tile. -/
def accTile (x : Mat) (tl : Nat) : Tab Word := x.acc.getD (tl % 4) []

/-- The matrix state with the accumulator tile of a CB tile replaced. -/
def setAcc (x : Mat) (tl : Nat) (t : Tab Word) : Mat := { x with acc := x.acc.set (tl % 4) t }

/-- Tags the accumulator tile of a CB tile with it (R192). -/
def setTag (x : Mat) (tl : Nat) : Mat := { x with tags := tput 0 x.tags (tl % 4) (tl + 1) }

/-- The tag of the accumulator tile of a CB tile names it (R192). -/
def tagOk (x : Mat) (tl : Nat) : Bool := tget 0 x.tags (tl % 4) == tl + 1

/-- The CB tiles an instruction names (R205). -/
def tilesOf (tl : Fin 16) (nt : Fin 4) : List Nat := (List.range (nt.val + 1)).map fun t => tl.val + t

/-- The words of a tile from key k on, zeros written out. -/
def denseWords : Tab Word → Nat → Nat → List Word
  | _, _, 0 => []
  | [], k, n + 1 => 0 :: denseWords [] (k + 1) n
  | (k', a) :: r, k, n + 1 => if k' = k then a :: denseWords r (k + 1) n else 0 :: denseWords ((k', a) :: r) (k + 1) n

/-- The bytes of words from an address on. -/
def wordCells (sz a : Nat) (l : List Word) : List Host.Cell :=
  (l.flatMap fun w => leBytes sz w.toNat).zipIdx.map fun p => (a + p.2, p.1)

/-- Words of sz bytes of a memory, key i for the bytes at sz * i. -/
def wordsOf (sz : Nat) (m : Mem) : Tab Word :=
  (m.foldl (fun (l : Tab Word) p =>
    let k := p.1 / sz
    let x := BitVec.ofNat 64 (p.2.toNat * 256 ^ (p.1 % sz))
    match l with
    | (k', a) :: r => if k' = k then (k, a + x) :: r else (k, x) :: l
    | [] => [(k, x)]) []).reverse

/-- A memory with cells written over it; both rise, and fuel bounds their lengths. -/
def overlay : Nat → Mem → List Host.Cell → Mem
  | 0, m, _ => m
  | _ + 1, m, [] => m
  | n + 1, [], (a, b) :: r => if b = 0 then overlay n [] r else (a, b) :: overlay n [] r
  | n + 1, (k, x) :: m, (a, b) :: r =>
    if k < a then (k, x) :: overlay n m ((a, b) :: r)
    else
      let m' := if k = a then m else (k, x) :: m
      if b = 0 then overlay n m' r else (a, b) :: overlay n m' r

/-- A memory with cells written over it. -/
def overlayAll (m : Mem) (l : List Host.Cell) : Mem := overlay (m.length + l.length + 1) m l

/-- CB as M sees it: as it stood at the end of the group cycle before, with M's own writes that are still to be
performed (R194, R201). -/
def cbSeen (m : Member) : Mem :=
  let was : List Host.Cell := m.buf.cbWas.filterMap fun p => p.2.map fun b => (p.1, b)
  m.mat.cbw.foldl (fun x w => overlayAll x w.2) (overlayAll m.buf.cb was)

/-- A chunk of CB was poisoned at the end of the group cycle before (R201, R313). -/
def cbBad (m : Member) (k : Nat) : Bool := (tget none m.buf.cbBadWas k).getD (tget false m.buf.bad (badKey 3 (32 * k)))

/-- One of some chunks of CB is poisoned as M sees it, and no write of M in flight covers it (R201, R313). -/
def cbPoisonIn (m : Member) (p : Nat → Bool) : Bool :=
  ((m.buf.bad.filterMap fun (x : Nat × Bool) => if x.1 / 2 ^ 17 = 2 then some (x.1 % 2 ^ 17) else none) ++
    m.buf.cbBadWas.map Prod.fst).any fun k =>
    p k && cbBad m k && !(m.mat.cbw.any fun (w : Nat × List Host.Cell) => decide (32 ≤ w.2.countP fun (c : Host.Cell) => c.1 / 32 == k))

/-- A chunk of a stretch of CB is poisoned as M sees it. -/
def cbPoison (m : Member) (a n : Nat) : Bool := cbPoisonIn m fun k => decide (a / 32 ≤ k ∧ k < (a + n) / 32)

/-- Bytes of a CB tile that the mode uses. -/
def tileLen (x : Mat) : Nat := mSide x * mSide x * mBytes x

/-- A CB write in flight (R200). -/
def pushCb (m : Member) (due : Nat) (l : List Host.Cell) : Member :=
  { m with mat := { m.mat with cbw := m.mat.cbw ++ [(due, l)] } }

/-! ## Gating (R202, R203) -/

/-- A sub-array. -/
def subOf (m : Member) (k : Nat) : SubArray := tget SubArray.t0 m.mat.sub k

/-- The member with a sub-array replaced. -/
def setSub (m : Member) (k : Nat) (x : SubArray) : Member :=
  { m with mat := { m.mat with sub := tput SubArray.t0 m.mat.sub k x } }

/-- Starts the wake of a sleeping sub-array, 64 ticks, unless one is under way (R202). -/
def startWake (cal : Nat) (m : Member) (k : Nat) : Member :=
  let x := subOf m k
  if x.asleep ∧ x.waking = none then count (setSub m k { x with waking := some (cal + 64), idle := m.ctl.gc }) 0x03e else m

/-- A use of sub-arrays until a group cycle restarts their idle counts (R202). -/
def useSubs (m : Member) (l : List Nat) (last : Nat) : Member :=
  l.foldl (fun m k => setSub m k { subOf m k with idle := last }) m

/-- All sub-arrays. -/
def allSubs : List Nat := List.range 16

/-! ## Issue of an M instruction -/

/-- How an M instruction ends at its issue: it acts, or stops after changing what its wait changes. -/
inductive MEnd
  | go (s : State) (occ : Nat)
  | stop (s : State) (e : Stop)

/-- What an M instruction is before it acts: the s registers it reads as single values, the handle it
reads, the sub-arrays it uses, its occupancy, the tile slots it reads, the checks that raise a fault at its
first attempt, and those of its issue itself: POISON_READ of its operands, which its read of full slots meets, and the
faults of a page (R199, R213). -/
structure MNeeds where
  regs : List SReg
  hnd : Option HReg
  subs : List Nat
  occ : Nat
  slots : List (Nat × Nat)
  fault : Option Trap
  poison : Option Trap

/-- The member belongs to a launch of the graph class (R204). -/
def inGraph (s : State) (n : Nat) : Bool := ((findLaunch s (bindOf s n).launch).map Launch.graph).getD false

/-- The stamp of an instruction (R204). -/
def stampRegs (st : SReg) : List SReg := if st.val = 0 then [] else [st]

/-- What becomes of a stamp at this tick (R204 steps 1 and 2). -/
def stampStop (s : State) (n : Nat) (st : SReg) : Option Stop :=
  if st.val = 0 ∨ (mem s n).ctl.slipped then none
  else
    let t := (valOf (sCell (mem s n) st).alts).toNat
    if s.cal > t then some (.trap (trapOf .scheduleMiss))
    else if s.cal < t then some (.wait (.stamp t))
    else none

/-- STATUS.SLIP is set and the slip counted, once for an instruction (R204 step 5). -/
def noteSlip (m : Member) : Member :=
  if m.ctl.slipped then m
  else count { m with spr := { m.spr with slip := true }, ctl := { m.ctl with slipped := true } } 0x00f

/-- The condition an instruction's operands still wait for: a tile slot, else a wake (R199, R202).
DEDUCED (log 57), unsafe. -/
def mWaits (m : Member) (x : MNeeds) : Option Hold :=
  match x.slots.find? (fun p => !slotReady m p.1 p.2 true) with
  | some (b, k) => some (.slotEmpty b k)
  | none => match (x.subs.filterMap fun k => (subOf m k).waking).foldl max 0 with
    | 0 => none
    | t => some (.wake t)

/-- The issue of an M instruction of the wait class (R153, R199, R202, R204).
DEDUCED (log 55), unsafe. -/
def mIssue (s : State) (l : Lane) (h : Hd) (st : SReg) (f : Nat → Member → MNeeds)
    (eff : State → Nat → Except Stop State) : MEnd :=
  match memOnly l with
  | .error e => .stop s e
  | .ok n =>
    let x := f n (mem s n)
    match waitClass s l.who h (stampRegs st ++ x.regs) with
    | .error e => .stop s e
    | .ok false => .go s x.occ
    | .ok true =>
      match readRegs s l.who (stampRegs st ++ x.regs), x.hnd with
      | .error e, _ => .stop s e
      | .ok _, some r => if hPend (hReg (mem s n) r) then .stop s (.wait (.handle r)) else next s n x
      | .ok _, none => next s n x
where
  next (s : State) (n : Nat) (x : MNeeds) : MEnd :=
    match stampStop s n st with
    | some e => .stop s e
    | none =>
      match x.fault with
      | some t => .stop s (.trap t)
      | none =>
        if x.subs.any fun k => decide ((mem s n).ctl.gc < (subOf (mem s n) k).busy) then .stop s (.trap (trapOf .illegal))
        else
          let s₀ := s
          let s := updMem s n fun m => x.subs.foldl (startWake s.cal) m
          match mWaits (mem s n) x with
          | some hd =>
            if st.val ≠ 0 ∧ inGraph s n then .stop s₀ (.trap (trapOf .scheduleMiss))
            else .stop (if st.val = 0 then s else updMem s n noteSlip) (.wait hd)
          | none =>
            match x.poison, eff s n with
            | some t, _ => .stop s (.trap t)
            | none, .error e => .stop s e
            | none, .ok s => .go (updMem s n fun m => { m with ctl := { m.ctl with slipped := false } }) x.occ

/-- Runs an M lane. -/
def mLane (s : State) (f : Lane → MEnd) : Host.Outcome State Fault Refusal :=
  match curLane s with
  | none => .refused .noActor
  | some l =>
    match f l with
    | .go s occ => .next (retire s l occ)
    | .stop s (.wait h) => .next (waitOn s l.who h)
    | .stop s .stall => .next s
    | .stop s (.trap t) => .next (laneFault s l t)

/-- Needs of an instruction that reads nothing and uses no sub-array. -/
def MNeeds.plain (occ : Nat) (ok : Bool) : MNeeds :=
  { regs := [], hnd := none, subs := [], occ := occ, slots := [], fault := if ok then none else some (trapOf .illegal),
    poison := none }

/-- The first of two faults. -/
def firstFault (a b : Option Trap) : Option Trap := match a with | some t => some t | none => b

/-- ILLEGAL unless a condition holds. -/
def illegalUnless (b : Bool) : Option Trap := if b then none else some (trapOf .illegal)

/-- POISON_READ of a poisoned operand (R313). -/
def poisonIf (b : Bool) : Option Trap := if b then some (trapOf .poisonRead) else none

/-- Learns what filled the slots an instruction reads (R286, R291). -/
def learnSlots (s : State) (n : Nat) (l : List (Nat × Nat)) : State :=
  l.foldl (fun s p => learn s (agentNo n 0) (slotClock s n p.1 p.2)) s

/-- The slots a stream releases (R199). -/
def relSlots (v : BitVec 256) (l : List (Nat × Nat)) : List (Nat × Nat) := if sRel v then l else []

/-- An M instruction enters its occupancy. -/
def startOp (m : Member) (o : MatOp) : Member := { m with mat := { m.mat with ops := m.mat.ops ++ [o] } }

/-- An instruction within its occupancy, its operands still to be filled in. -/
def newOp (m : Member) (i : Instr) (addr occ : Nat) (fa fb : BitVec 256) (rels : List (Nat × Nat)) : MatOp :=
  { ins := i, addr := addr, start := m.ctl.gc, stop := m.ctl.gc + occ - 1, fa := fa, fb := fb, wb := m.buf.wb, ab := m.buf.ab,
    page := [], valid := 0, scale := 0, rels := rels }

/-! ## `mmac` and `mmacb` (R206, R207) -/

/-- The formats of two operands suit the mode and each other (R206). -/
def fmtsOk (x : Mat) (a b : Nat) : Bool :=
  if x.f64 then a == 0xd && b == 0xd
  else decide (1 ≤ a ∧ a ≤ 0xc ∧ 1 ≤ b ∧ b ≤ 0xc) && stepCost a == stepCost b

/-- Rows of A that an `mmac` reads. -/
def macRows (x : Mat) (a : BitVec 256) (nt : Nat) : List Nat :=
  (List.range (nt + 1)).flatMap fun t => (List.range (sRows a)).map fun i => mSide x * t + i

/-- Faults of an instruction with operands A in AB and B in WB (R192, R196, R198, R205, R206). -/
def macFault (m : Member) (a b : BitVec 256) (ra rb : List (Nat × Nat)) (tiles : List Nat) (own : Bool) : Option Trap :=
  illegalUnless (sSpace a == 2 && sSpace b == 1 && sField a 73 69 == sField b 73 69 &&
      fmtsOk m.mat (sFmt a) (sFmt b) && own && tiles.all (fun t => decide (t ≤ 15)) && opInside a ra && opInside b rb &&
      tiles.all (tagOk m.mat))

/-- Counts k-steps in the format of A (R420). -/
def countSteps (m : Member) (fmt n : Nat) : Member := countN m (0x030 + fmt) n

/-- What an `mmac` needs (R206). -/
def mmacNeeds (fa fb : AReg) (tl : Fin 16) (nt : Fin 4) (m : Member) : MNeeds :=
  let a := aReg m fa
  let b := aReg m fb
  let ra := opBytes a (macRows m.mat a nt.val)
  let rb := opBytes b (List.range (sRows b))
  { regs := [], hnd := none, subs := allSubs, occ := sK a * stepCost (sFmt a), slots := opSlots a ra ++ opSlots b rb
    fault := macFault m a b ra rb (tilesOf tl nt) (decide (sRows a ≤ mSide m.mat ∧ sRows b ≤ mSide m.mat))
    poison := poisonIf (opPoison m a ra || opPoison m b rb) }

/-- `mmac` (R206). -/
def execMmac (h : Hd) (st : SReg) (fa fb : AReg) (tl : Fin 16) (nt : Fin 4) (s : State) : Host.Outcome State Fault Refusal :=
  mLane s fun l => mIssue s l h st (fun _ m => mmacNeeds fa fb tl nt m)
    (fun s n =>
      let m := mem s n
      let a := aReg m fa
      let b := aReg m fb
      let sa := opSlots a (opBytes a (macRows m.mat a nt.val))
      let sb := opSlots b (opBytes b (List.range (sRows b)))
      let occ := sK a * stepCost (sFmt a)
      let o := newOp m (.mmac h st fa fb tl nt) l.ln.addr occ a b (relSlots a sa ++ relSlots b sb)
      .ok (updMem (learnSlots s n (sa ++ sb)) n fun m =>
        useSubs (countSteps (startOp m o) (sFmt a) (sK a)) allSubs o.stop))

/-- What an `mmacb` needs (R207). -/
def mmacbNeeds (fa fb : AReg) (tl : Fin 16) (sub : Fin 16) (m : Member) : MNeeds :=
  let a := aReg m fa
  let b := aReg m fb
  let ra := opBytes a (List.range (sRows a))
  let rb := opBytes b (List.range (sRows b))
  { regs := [], hnd := none, subs := [sub.val], occ := 2 * stepCost (sFmt a), slots := opSlots a ra ++ opSlots b rb
    fault := macFault m a b ra rb [tl.val] (decide (sRows a ≤ 32 ∧ sRows b ≤ 32 ∧ sK a = 32) && !m.mat.f64)
    poison := poisonIf (opPoison m a ra || opPoison m b rb) }

/-- `mmacb` (R207). -/
def execMmacb (h : Hd) (st : SReg) (fa fb : AReg) (tl : Fin 16) (sub : Fin 16) (s : State) : Host.Outcome State Fault Refusal :=
  mLane s fun l => mIssue s l h st (fun _ m => mmacbNeeds fa fb tl sub m)
    (fun s n =>
      let m := mem s n
      let a := aReg m fa
      let b := aReg m fb
      let sa := opSlots a (opBytes a (List.range (sRows a)))
      let sb := opSlots b (opBytes b (List.range (sRows b)))
      let c := stepCost (sFmt a)
      let o := newOp m (.mmacb h st fa fb tl sub) l.ln.addr (2 * c) a b (relSlots a sa ++ relSlots b sb)
      .ok (updMem (learnSlots s n (sa ++ sb)) n fun m =>
        let m := countSteps (startOp m o) (sFmt a) 32
        setSub m sub.val { subOf m sub.val with busy := m.ctl.gc + 32 * c, idle := m.ctl.gc + 32 * c - 1 }))

/-! ## Accumulator movement (R208, R209) -/

/-- Occupancy of `mret` and `mload` (R200). -/
def moveOcc (x : Mat) (nt : Fin 4) : Nat := (nt.val + 1) * if x.f64 then 4 else 32

/-- Bytes of CB that hold a tile of the mode. -/
def tileCells (x : Mat) (tl : Nat) : List Host.Cell :=
  wordCells (mBytes x) (65536 * tl) (denseWords (accTile x tl) 0 (mSide x * mSide x))

/-- The accumulator tile a CB tile holds (R193). -/
def loadTile (x : Mat) (cb : Mem) (tl : Nat) : Tab Word := wordsOf (mBytes x) (tslice cb (65536 * tl) (tileLen x))

/-- What an `mret` needs (R208). -/
def mretNeeds (tl : Fin 16) (nt : Fin 4) (m : Member) : MNeeds :=
  let ts := tilesOf tl nt
  { MNeeds.plain (moveOcc m.mat nt) (ts.all (fun t => decide (t ≤ 15)) && ts.all (tagOk m.mat)) with subs := allSubs }

/-- What an `mload` needs (R208). -/
def mloadNeeds (tl : Fin 16) (nt : Fin 4) (m : Member) : MNeeds :=
  let ts := tilesOf tl nt
  { MNeeds.plain (moveOcc m.mat nt) true with
    subs := allSubs
    fault := illegalUnless (ts.all fun t => decide (t ≤ 15))
    poison := poisonIf (ts.any fun t => cbPoison m (65536 * t) (tileLen m.mat)) }

/-- What an `mzero` needs (R208). -/
def mzeroNeeds (tl : Fin 16) (nt : Fin 4) : MNeeds :=
  { MNeeds.plain 1 ((tilesOf tl nt).all fun t => decide (t ≤ 15)) with subs := allSubs }

/-- `mret` (R208): its CB write is performed 15 group cycles after its occupancy (R200). -/
def execMret (h : Hd) (st : SReg) (tl : Fin 16) (nt : Fin 4) (s : State) : Host.Outcome State Fault Refusal :=
  mLane s fun l => mIssue s l h st (fun _ m => mretNeeds tl nt m)
    (fun s n => .ok (updMem s n fun m =>
      let occ := moveOcc m.mat nt
      let m := pushCb m (m.ctl.gc + occ + 15) ((tilesOf tl nt).flatMap (tileCells m.mat))
      useSubs m allSubs (m.ctl.gc + occ - 1)))

/-- `mload` (R208, R201). -/
def execMload (h : Hd) (st : SReg) (tl : Fin 16) (nt : Fin 4) (s : State) : Host.Outcome State Fault Refusal :=
  mLane s fun l => mIssue s l h st (fun _ m => mloadNeeds tl nt m)
    (fun s n => .ok (updMem s n fun m =>
      let cb := cbSeen m
      let x := (tilesOf tl nt).foldl (fun x t => setTag (setAcc x t (loadTile x cb t)) t) m.mat
      useSubs { m with mat := x } allSubs (m.ctl.gc + moveOcc m.mat nt - 1)))

/-- `mzero` (R208). -/
def execMzero (h : Hd) (st : SReg) (tl : Fin 16) (nt : Fin 4) (s : State) : Host.Outcome State Fault Refusal :=
  mLane s fun l => mIssue s l h st
    (fun _ _ => mzeroNeeds tl nt)
    (fun s n => .ok (updMem s n fun m =>
      let x := (tilesOf tl nt).foldl (fun x t => setTag (setAcc x t []) t) m.mat
      useSubs { m with mat := x } allSubs m.ctl.gc))

/-- `mwake` (R203). -/
def execMwake (h : Hd) (st : SReg) (mask : BitVec 16) (s : State) : Host.Outcome State Fault Refusal :=
  mLane s fun l => mIssue s l h st (fun _ _ => MNeeds.plain 1 true)
    (fun s n => .ok (updMem s n fun m =>
      let l := allSubs.filter fun k => mask.getLsbD k
      useSubs (l.foldl (startWake s.cal) m) l m.ctl.gc))

/-- `mmode` (R209). -/
def execMmode (h : Hd) (st : SReg) (f64 : Bool) (rm : BitVec 3) (s : State) : Host.Outcome State Fault Refusal :=
  mLane s fun l => mIssue s l h st (fun _ _ => MNeeds.plain 1 (decide (rm.toNat < 4)))
    (fun s n => .ok (updMem s n fun m =>
      let x := { m.mat with rm := rm, f64 := f64 }
      { m with mat := if m.mat.f64 = f64 then x else { x with acc := [[], [], [], []], tags := [] } }))

/-! ## Streams (R210, R211) -/

/-- A descriptor of the STREAMS section (R197); none where the index is not below the entry count. -/
def descriptor (s : State) (n : Nat) (idx : Nat) : Option (BitVec 256) :=
  let pa := (bindOf s n).image.toNat
  match sectOf s pa 7 with
  | none => none
  | some (o, _, c) => if idx < c then some (BitVec.ofNat 256 (numAt s.dmem (pa + o + 32 * idx) 32)) else none

/-- A descriptor that `sset` accepts (R210). -/
def descOk (v : BitVec 256) : Bool :=
  sField v 255 240 == 0 && sField v 68 64 == 0 && sField v 52 32 == 0 && decide (sFmt v ≤ 0xd) &&
  (sSpace v == 0 || sField v 57 54 == 0)

/-- `sset` (R210). -/
def execSset (h : Hd) (st : SReg) (fa : AReg) (idx : BitVec 16) (s : State) : Host.Outcome State Fault Refusal :=
  mLane s fun l => mIssue s l h st
    (fun n _ => MNeeds.plain 1 (((descriptor s n idx.toNat).map descOk).getD false))
    (fun s n => .ok (updMem s n fun m => setA m fa ((descriptor s n idx.toNat).getD 0)))

/-- A stream advanced (R210). -/
def advance1 (v : BitVec 256) : BitVec 256 :=
  let b := (sField v 31 0 + sField v 215 184) % 2 ^ 32
  let d := (BitVec.ofNat 16 (sField v 231 216)).signExtend 24
  setSField (setSField v 31 0 b) 159 136 ((sField v 159 136 + d.toNat) % 2 ^ 24)

/-- `sadv` (R210). -/
def execSadv (h : Hd) (st : SReg) (fa : AReg) (s : State) : Host.Outcome State Fault Refusal :=
  mLane s fun l => mIssue s l h st (fun _ _ => MNeeds.plain 1 true)
    (fun s n => .ok (updMem s n fun m => setA m fa (advance1 (aReg m fa))))

/-- The field of a stream that `sget` reads (R211). -/
def sgetVal (v : BitVec 256) (code : Nat) : Word :=
  match code with
  | 0 => BitVec.ofNat 64 (sField v 31 0)
  | 1 => BitVec.ofNat 64 (sField v 159 136)
  | 2 => (BitVec.ofNat 32 (sField v 215 184)).signExtend 64
  | 3 => (BitVec.ofNat 16 (sField v 231 216)).signExtend 64
  | 4 => BitVec.ofNat 64 (sField v 135 112)
  | 5 => BitVec.ofNat 64 (sField v 111 88)
  | 6 => BitVec.ofNat 64 (sField v 183 160)
  | 7 => BitVec.ofNat 64 (sFmt v)
  | 8 => BitVec.ofNat 64 (16 * sSpace v + sField v 57 54)
  | 9 => BitVec.ofNat 64 (sRows v)
  | 10 => BitVec.ofNat 64 (sField v 80 74 + 1)
  | 11 => BitVec.ofNat 64 (sK v)
  | 12 => BitVec.ofNat 64 (sField v 239 232)
  | _ => if sRel v then 1 else 0

/-- Waits and faults of a stamp of an instruction of the split class (R204). -/
def splitStamp (s : State) (l : Lane) (st : SReg) : Except Stop Nat := do
  let n ← memOnly l
  if st.val = 0 then .ok n
  else do
    let _ ← readOne s l.who st
    match stampStop s n st with
    | some e => .error e
    | none => .ok n

/-- `sget` (R211): latency 2, of the split class; where its qualifier is against it, its stamp has no effect (R153). -/
def execSget (h : Hd) (st : SReg) (fa : AReg) (code : BitVec 4) (d : SReg) (s : State) : Host.Outcome State Fault Refusal :=
  lockstep s fun l => do
    require (decide (code.toNat < 14)) .illegal
    let act ← qualAct s l.who h
    let n ← if act = .never then memOnly l else splitStamp s l st
    scalarOp s l h d [] 2 fun _ => sgetVal (aReg (mem s n) fa) code.toNat

/-! ## The end of an occupancy -/

/-- The accumulators once an instruction's occupancy is over (R206, R207). -/
def macEnd (x : Mat) (o : MatOp) : Mat :=
  match o.ins with
  | .mmac _ _ _ _ tl nt =>
    let b := (List.range (sRows o.fb)).map (opRow o.wb o.fb)
    (List.range (nt.val + 1)).foldl (fun x t =>
      let a := (List.range (sRows o.fa)).map fun i => opRow o.ab o.fa (mSide x * t + i)
      setAcc x (tl.val + t) (macTile (mFmt x) (mMode x) (mSide x) 0 0 a b (accTile x (tl.val + t)))) x
  | .mmacb _ _ _ _ tl sub =>
    let a := (List.range (sRows o.fa)).map (opRow o.ab o.fa)
    let b := (List.range (sRows o.fb)).map (opRow o.wb o.fb)
    setAcc x tl.val (macTile fp32 (mMode x) 128 (32 * (sub.val / 4)) (32 * (sub.val % 4)) a b (accTile x tl.val))
  | _ => x

end Sys2Proof.Machine
end

