-- ==== Sys2Proof/Machine/Attend.lean ====
section
/-! DEFINITION. The attention instructions (R212 to R217), and what happens in the M column beside issue:
the end of an occupancy, CB writes, the updates of `amass`, and gating. -/

namespace Sys2Proof.Machine

open Sys2Proof

/-! ## The page (R212, R213) -/

/-- Bytes of a page through a handle, without being read: for the checks at issue. -/
def pageRaw (s : State) (h : BitVec 128) (off n : Nat) : List Byte :=
  (cut (n / 32 + 2) off n 0).flatMap fun p => keyedBytes s (keyOf s (hKeyIdx h)) (hBase h + p.off) p.n

/-- A sector of a stretch of a page is poisoned (R313). -/
def pagePoison (s : State) (h : BitVec 128) (off n : Nat) : Bool :=
  (cut (n / 32 + 2) off n 0).any fun p => tget false s.dbad ((hBase h + p.off) / 32)

/-- The read of a stretch of a page by the group (R213, R276), which its context pays for at once (R310). -/
def pageRead (s : State) (a : Acc) (h : BitVec 128) (off n : Nat) : List Byte × State :=
  (cut (n / 32 + 2) off n 0).foldl (fun r p =>
    match devRead (payNow r.2 a (hBase h + p.off) 1) a (hKeyIdx h) (hBase h + p.off) p.n with
    | (some b, s) => (r.1 ++ b, s)
    | (none, s) => (r.1 ++ List.replicate p.n 0, s)) ([], s)

/-- Valid bits of the slots, from the metadata bytes (R212). -/
def validBits (meta_ : List Byte) : BitVec 64 :=
  BitVec.ofNat 64 (((List.range 64).map fun j => if (meta_.getD (12 * j + 8) 0).getLsbD 0 then 2 ^ j else 0).sum)

/-- The L2 line of an offset is pinned by a context (R213, R306). -/
def pinnedBy (s : State) (h : BitVec 128) (ctx off : Nat) : Bool :=
  let pa := hBase h + off
  windowOf pa == .dev && ((lineTag s pa).map fun t => t.pins.any fun p => p.ctx == ctx).getD false

/-- The first line of some stretches that is not pinned. -/
def unpinned (s : State) (h : BitVec 128) (ctx : Nat) (l : List (Nat × Nat)) : Option Nat :=
  l.findSome? fun p => (List.range ((p.1 + p.2 - 1) / 128 - p.1 / 128 + 1)).findSome? fun i =>
    let off := p.1 / 128 * 128 + 128 * i
    if pinnedBy s h ctx off then none else some off

/-- A terminal fault at an offset of a page. -/
def pageTrap (k : Kind) (h : BitVec 128) (off : Nat) : Option Trap := some { trapOf k with va := some (hVa h + off) }

/-- Faults of the handle of an attention instruction (R35, R212, R213). -/
def handleFault (h : BitVec 128) : Option Trap :=
  if !hValid h then pageTrap (hKind h) h 0
  else if hBig h then illegalUnless false
  else if !hRead h then pageTrap .permission h 0
  else none

/-- The group as an agent of accesses. -/
def groupAcc (s : State) (n : Nat) : Acc :=
  { agent := agentNo n 0, src := srcId 1 4 n, clk := [], launch := (bindOf s n).launch, ctx := siteCtx s n, site := some n }

/-- The fault of mixed-size debug mode for the chunks of some stretches of a page (R280): it is raised in M, as the other
faults of these reads are, and names both agents. -/
def pageClash (s : State) (n : Nat) (h : BitVec 128) (l : List (Nat × Nat)) : Option Trap :=
  let a := groupAcc s n
  (l.flatMap fun p => cut (p.2 / 32 + 2) p.1 p.2 0).findSome? fun p =>
    (debugHit s a (hBase h + p.off) p.n false).map fun r =>
      { trapOf .illegal with status := a.src.toNat + 65536 * r.src.toNat, va := some (hVa h + p.off) }

/-- Faults of some stretches of a page: a line that is not pinned, a conflict in mixed-size debug mode (R213, R280). -/
def linesHeld (s : State) (n : Nat) (h : BitVec 128) (l : List (Nat × Nat)) : Option Trap :=
  match unpinned s h (siteCtx s n) l with
  | some o => pageTrap .illegal h o
  | none => pageClash s n h l

/-- POISON_READ of the first stretch that holds a poisoned chunk (R313). -/
def linesPoison (s : State) (h : BitVec 128) (l : List (Nat × Nat)) : Option Trap :=
  (l.find? fun p => pagePoison s h p.1 p.2).bind fun p => pageTrap .poisonRead h p.1

/-- Faults of some stretches of a page. -/
def linesFault (s : State) (n : Nat) (h : BitVec 128) (l : List (Nat × Nat)) : Option Trap :=
  firstFault (linesHeld s n h l) (linesPoison s h l)

/-- The metadata of a page (R212). -/
def metaSpan : List (Nat × Nat) := [(32768, 768)]

/-- Faults of the handle, of the metadata and of the lines an attention instruction reads (R213). -/
def pageFault (s : State) (n : Nat) (h : BitVec 128) (rows : BitVec 64 → List (Nat × Nat)) : Option Trap :=
  firstFault (handleFault h) (firstFault (linesFault s n h metaSpan)
    (linesFault s n h (rows (validBits (pageRaw s h 32768 768)))))

/-- Bytes of an element of the formats an attention instruction takes. -/
def attSize (fmt : Nat) : Nat := fmtWidth fmt / 8

/-- A format an attention instruction takes (R214). -/
def attFmt (fmt : Nat) : Bool := decide (1 ≤ fmt ∧ fmt ≤ 4)

/-- The part of a slot's row an attention instruction reads: K from 0, V from 16,384 (R212 to R215). -/
def slotRow (v : BitVec 256) (base n : Nat) (j : Nat) : Nat × Nat :=
  (base + 256 * j + sField v 239 232 * attSize (sFmt v), n * attSize (sFmt v))

/-- The rows of the valid slots. -/
def validRows (v : BitVec 256) (base n : Nat) (valid : BitVec 64) : List (Nat × Nat) :=
  ((List.range 64).filter fun j => valid.getLsbD j).map (slotRow v base n)

/-- The rows of a page read for an instruction, as numbers, zero for those of invalid slots. -/
def readRows (s : State) (a : Acc) (h : BitVec 128) (v : BitVec 256) (base n : Nat) (valid : BitVec 64) : List Nat × State :=
  (List.range 64).foldl (fun r j =>
    if valid.getLsbD j then
      let p := slotRow v base n j
      let (b, s) := pageRead r.2 a h p.1 p.2
      (r.1 ++ [leNat b], s)
    else (r.1 ++ [0], r.2)) ([], s)

/-! ## `aqk` and `apv` (R214, R215) -/

/-- The scale register, none when it is s0 (R214). -/
def scaleRegs (x : SReg) : List SReg := if x.val = 0 then [] else [x]

/-- What `aqk` and `apv` need: n elements of each row of the page from `base` on. -/
def attNeeds (s : State) (n : Nat) (m : Member) (fa : AReg) (fb : HReg) (sr : SReg) (occ base len : Nat) (own : Bool) : MNeeds :=
  let v := aReg m fa
  let r := opBytes v (List.range (sRows v))
  { regs := scaleRegs sr, hnd := some fb, subs := allSubs, occ := occ, slots := opSlots v r
    fault := illegalUnless (!m.mat.f64 && sSpace v == 2 && attFmt (sFmt v) && own && opInside v r &&
        decide (sField v 239 232 + len ≤ 256 / attSize (sFmt v)))
    poison := firstFault (pageFault s n (hReg m fb) (validRows v base len)) (poisonIf (opPoison m v r)) }

/-- An attention instruction enters its occupancy with the data of the page as it stands (R213). -/
def attStart (s : State) (n : Nat) (i : Instr) (addr : Nat) (fa : AReg) (fb : HReg) (sr : SReg) (occ base len : Nat) : State :=
  let v := aReg (mem s n) fa
  let h := hReg (mem s n) fb
  let sl := opSlots v (opBytes v (List.range (sRows v)))
  let a := groupAcc s n
  let sc := (valOf (sCell (mem s n) sr).alts).setWidth 32
  let (b, s) := pageRead (learnSlots s n sl) a h 32768 768
  let valid := validBits b
  let (rows, s) := readRows s a h v base len valid
  updMem s n fun m =>
    let o := { newOp m i addr occ v 0 (relSlots v sl) with page := rows, valid := valid, scale := sc }
    useSubs (startOp m o) allSubs o.stop

/-- What an `aqk` needs (R214). -/
def aqkNeeds (s : State) (n : Nat) (m : Member) (fa : AReg) (fb : HReg) (sr : SReg) : MNeeds :=
  attNeeds s n m fa fb sr (sK (aReg m fa) * stepCost (sFmt (aReg m fa))) 0 (sK (aReg m fa)) true

/-- What an `apv` needs (R215). -/
def apvNeeds (s : State) (n : Nat) (m : Member) (fa : AReg) (fb : HReg) (tl : Fin 16) (sr : SReg) : MNeeds :=
  attNeeds s n m fa fb sr (64 * stepCost (sFmt (aReg m fa))) 16384 128 (sK (aReg m fa) == 64 && tagOk m.mat tl.val)

/-- `aqk` (R214). -/
def execAqk (h : Hd) (st : SReg) (fa : AReg) (fb : HReg) (tl : Fin 16) (sr : SReg) (s : State) :
    Host.Outcome State Fault Refusal :=
  mLane s fun l => mIssue s l h st
    (fun n m => aqkNeeds s n m fa fb sr)
    (fun s n =>
      let v := aReg (mem s n) fa
      .ok (updMem (attStart s n (.aqk h st fa fb tl sr) l.ln.addr fa fb sr (sK v * stepCost (sFmt v)) 0 (sK v)) n fun m =>
        { m with mat := setTag m.mat tl.val }))

/-- `apv` (R215). -/
def execApv (h : Hd) (st : SReg) (fa : AReg) (fb : HReg) (tl : Fin 16) (sr : SReg) (s : State) :
    Host.Outcome State Fault Refusal :=
  mLane s fun l => mIssue s l h st
    (fun n m => apvNeeds s n m fa fb tl sr)
    (fun s n =>
      .ok (attStart s n (.apv h st fa fb tl sr) l.ln.addr fa fb sr (64 * stepCost (sFmt (aReg (mem s n) fa))) 16384 128))

/-- An element of a row of the page (R212, R64). -/
def pageElem (fmt x k : Nat) : FVal := plainVal fmt (packedCode (fmtWidth fmt) x k)

/-- An accumulator times the scale (R214, R215). -/
def scaled (mode : Mode) (sr : SReg) (sc : Word32) (x : Nat) : Nat :=
  if sr.val = 0 then x else roundTo fp32 false mode (mulNum (decodeFp fp32 false x) (decodeFp fp32 false sc.toNat))

/-- The score tile of an `aqk` (R214). -/
def aqkTile (x : Mat) (o : MatOp) (sr : SReg) : Tab Word :=
  let f := sFmt o.fa
  let q := (List.range (sRows o.fa)).map (opRow o.ab o.fa)
  let k := o.page.map fun r => (List.range (sK o.fa)).map (pageElem f r)
  mapTile 128 0 0 128 128 (fun i j _ =>
    if i < q.length ∧ j < 64 then
      BitVec.ofNat 64 (if o.valid.getLsbD j then
          scaled (mMode x) sr o.scale (dotAcc fp32 (mMode x) 0 (q.getD i []) (k.getD j []))
        else infCode fp32 true)
    else 0) []

/-- The accumulator tile after an `apv` (R215). -/
def apvTile (x : Mat) (o : MatOp) (sr : SReg) (t : Tab Word) : Tab Word :=
  let f := sFmt o.fa
  let p := (List.range (sRows o.fa)).map (opRow o.ab o.fa)
  let js := (List.range 64).filter fun j => o.valid.getLsbD j
  let v := js.map fun j => (List.range 128).map (pageElem f (o.page.getD j 0))
  mapTile 128 0 0 p.length 128 (fun i d y =>
    let r := p.getD i []
    BitVec.ofNat 64 (((js.map fun j => r.getD j .nan).zip (v.map fun w => w.getD d .nan)).foldl
      (macStep fp32 (mMode x)) (scaled (mMode x) sr o.scale y.toNat))) t

/-- Cells an `aqk` writes to CB: 64 words of each row below ROWS (R214). -/
def aqkCells (tl rows : Nat) (t : Tab Word) : List Host.Cell :=
  (List.range rows).flatMap fun i => wordCells 4 (65536 * tl + 512 * i) (denseWords (tslice t (128 * i) 64) 0 64)

/-! ## `amass` and `apos` (R216, R217) -/

/-- The probability tile, key 64 * row + slot (R193, R216). -/
def probTile (x : Tab Word) : Cells :=
  x.filterMap fun p => if p.1 % 128 < 64 then some (p.1 / 128 * 64 + p.1 % 128, p.2.setWidth 32) else none

/-- A chunk of CB holds words that an `amass` adds: columns below 64 of a row that its mask names (R216). -/
def massChunk (tl : Fin 16) (k : BitVec 1024) (c : Nat) : Bool :=
  let r := c % 2048 / 16
  c / 2048 == tl.val && decide (c % 16 < 8) && mbit k (64 * (r / 64) + r % 64)

/-- What an `amass` needs (R216). -/
def amassNeeds (m : Member) (fb : HReg) (tl : Fin 16) (k : KReg) : MNeeds :=
  { MNeeds.plain 32 true with
    fault := firstFault (illegalUnless (!m.mat.f64 && !(hSrcOf m fb == .now (hReg m fb) && hBig (hReg m fb))))
      (match flatHazard m (.k k) with | .error (.trap t) => some t | _ => none)
    poison := poisonIf (cbPoisonIn m fun c => massChunk tl (flatK m k) c) }

/-- `amass` (R216): its entry enters both of L's queues. -/
def execAmass (h : Hd) (st : SReg) (fb : HReg) (tl : Fin 16) (k : KReg) (s : State) : Host.Outcome State Fault Refusal :=
  mLane s fun l => mIssue s l h st
    (fun _ m => amassNeeds m fb tl k)
    (fun s n => do
      waitUnless (lRoom (mem s n) (.amass h st fb tl k)) (.queueFull 5)
      let m := mem s n
      let p := probTile (wordsOf 4 (tslice (cbSeen m) (65536 * tl.val) 65536))
      let c := { lCap s l n (.amass h st fb tl k) [] [] [fb] k none with vs := [.now (plain p)] }
      .ok (updMem s n fun m => pushL m c))

/-- New mass of a slot (R216). -/
def massOf (c : Cap) (p : Cells) (j old : Nat) : Nat :=
  ((List.range 128).filter fun r => mbit c.msk (64 * (r / 64) + r % 64)).foldl (fun x r =>
    roundTo fp32 false .rne (addNum .rne (decodeFp fp32 false x) (decodeFp fp32 false (cellAt p (64 * r + j)).toNat))) old

/-- AMASS_UPDATE_PERFORM: the update of the next slot of the entry at the head of both queues (R216); at a home outside
the module it is compared and swapped until the swap succeeds (R395, R401).
DEDUCED (log 58), unsafe. -/
def amassStep (n : Nat) (s : State) : State :=
  match headBoth (mem s n) with
  | none => s
  | some e =>
    match e.cap.ins, entHandle e.cap, entPairs e.cap with
    | .amass .., some h, some ((_, .val (_, p :: _)) :: _) =>
      if e.req ≠ [] then s
      else
        let e := if e.begun then e else { e with begun := true, left := List.range 64 }
        let j := e.left.headD 0
        let off := 32768 + 12 * j
        if hValid h && hBig h then entFail s n e.cap .illegal (entVa e.cap off)
        else match hAddr h .a off 4 with
          | .error k => entFail s n e.cap k (entVa e.cap off)
          | .ok pa =>
            let (_, s) := joinQueues s n e.cap
            let a := lAcc s n 1 e.cap
            match windowOf pa with
            | .dev =>
              match atomBy s a (hKeyIdx h) pa 4 (fun old => some (massOf e.cap p j old)) with
              | (.data _, s) =>
                let s := setClock s (agentNo n 2) (clockOf s (agentNo n 1))
                updMem s n fun m => amassNext m e
              | (.fail k, s) => entFail s n e.cap k (entVa e.cap off)
              | (.clash r pa, s) => clashFault s a r pa (entVa e.cap off)
              | (_, s) => s
            | _ =>
              let g := numAt e.buf (4 * j) 4
              let r := { reqOf (.l n) e.cap.seq j pa 4 false (leBytes 4 g ++ leBytes 4 (massOf e.cap p j g)) with atomic := true, op := 9 }
              match sendReq s (funcOf s (siteCtx s n)) r with
              | .wait => s
              | .reject => entFail s n e.cap .permission (entVa e.cap off)
              | .ok s _ => updMem s n fun m => putEnt m { e with req := [j] }
    | _, _, _ => s

/-- `apos` (R217): latency 40, of the split class; where its qualifier is against it nothing else of it acts (R153). A
poisoned chunk of the metadata is a terminal POISON_READ, and under an open slot a poison alternative (R314).
DEDUCED (log 58), unsafe. -/
def execApos (h : Hd) (st : SReg) (fb : HReg) (d : VReg) (s : State) : Host.Outcome State Fault Refusal :=
  lockstep s fun l => do
    let n ← memOnly l
    let m := mem s n
    match memAct m h with
    | .never => .ok (s, 1)
    | act => do
      let _ ← splitStamp s l st
      needV m [d]
      waitUnless (!hPend (hReg m fb)) (.handle fb)
      let hv := hReg m fb
      let bad := linesPoison s hv metaSpan
      match firstFault (illegalUnless (!m.mat.f64)) (firstFault (handleFault hv) (firstFault (linesHeld s n hv metaSpan)
          (if (actLit act).isNone then bad else none))) with
      | some t => .error (.trap t)
      | none =>
        let (b, s) := if bad.isSome then ([], s) else pageRead s (groupAcc s n) hv 32768 768
        let res : Alts Cells :=
          if bad.isSome then [(0, .poison 4 true { ins := .apos h st fb d, addr := l.ln.addr, hn := fb, h := hv, ss := [], vs := [], msk := 0 })]
          else plain (mkReg fun _ col => BitVec.ofNat 32 (leNat ((b.drop (12 * col + 4)).take 4)))
        let cnt := (landAlts (flatV m d) res (actLit act) []).length
        if cnt > 4 then .error (.trap (breadthTrap m cnt))
        else .ok (updMem (writeAllV s l n d res 40 (actLit act)) n fun m => noteBreadth m cnt, 1)

/-! ## Events of the M column -/

/-- What an instruction does at the end of its occupancy. -/
def opEnd (m : Member) (o : MatOp) : Member :=
  match o.ins with
  | .aqk _ _ _ _ tl sr =>
    let t := aqkTile m.mat o sr
    pushCb { m with mat := setAcc m.mat tl.val t } (o.stop + 16) (aqkCells tl.val (sRows o.fa) t)
  | .apv _ _ _ _ tl sr => { m with mat := setAcc m.mat tl.val (apvTile m.mat o sr (accTile m.mat tl.val)) }
  | _ => { m with mat := macEnd m.mat o }

/-- M_OPERAND_SLOTS_SET_EMPTY: the end of an instruction's last group cycle of occupancy (R199). -/
def matEnd (n : Nat) (s : State) : State :=
  let m := mem s n
  if !columnsRun m then s
  else
    let due := m.mat.ops.filter fun o => o.stop ≤ m.ctl.gc
    let m := due.foldl opEnd { m with mat := { m.mat with ops := m.mat.ops.filter fun o => !(o.stop ≤ m.ctl.gc) } }
    let clk := clockOf s (agentNo n 0)
    (due.flatMap MatOp.rels).foldl (fun s p => turnSlot s n p.1 p.2 false clk) (setMem s n m)

/-- The chunks that cells cover whole are poisoned no longer (R313). -/
def clearBad (b : Nat) (l : List Host.Cell) (t : Tab Bool) : Tab Bool :=
  t.filter fun p => decide (l.countP (fun c => badKey b c.1 == p.1) < 32)

/-- M_CB_WRITE: the CB writes due in this group cycle (R200, R201); a chunk that a later agent of R300 has
written in this tick keeps what that agent wrote. -/
def cbWrite (n : Nat) (s : State) : State :=
  let m := mem s n
  if !columnsRun m then s
  else
    let due := m.mat.cbw.filter fun w => w.1 ≤ m.ctl.gc
    let cells := due.map fun w => w.2.filter fun c => tget 0 m.buf.order (badKey 3 c.1) ≤ 2
    setMem s n { m with
      mat := { m.mat with cbw := m.mat.cbw.filter fun w => !(w.1 ≤ m.ctl.gc) }
      buf := { m.buf with cb := cells.foldl overlayAll m.buf.cb
                          bad := cells.foldl (fun t l => clearBad 3 l t) m.buf.bad } }

/-- SUBARRAY_WAKE_COMPLETE (R202). -/
def wakeStep (n k : Nat) (s : State) : State :=
  updMem s n fun m =>
    let x := subOf m k
    match x.waking with
    | some t => if t ≤ s.cal then setSub m k { x with asleep := false, waking := none } else m
    | none => m

/-- SUBARRAY_SLEEP (R202): no use for SLEEP group cycles. -/
def sleepStep (n k : Nat) (s : State) : State :=
  updMem s n fun m =>
    let x := subOf m k
    if groupRuns m ∧ !x.asleep ∧ m.ctl.sleep ≠ 0 ∧ x.idle + m.ctl.sleep ≤ m.ctl.gc then setSub m k { x with asleep := true } else m

/-- M_OPERAND_SLOTS_SET_EMPTY (R199). -/
def execMOperandSlotsSetEmpty (site : Nat) (s : State) : Host.Outcome State Fault Refusal := .next (matEnd site s)

/-- M_CB_WRITE (R200, R201). -/
def execMCbWrite (site : Nat) (s : State) : Host.Outcome State Fault Refusal := .next (cbWrite site s)

/-- AMASS_UPDATE_PERFORM (R216). -/
def execAmassUpdatePerform (site : Nat) (s : State) : Host.Outcome State Fault Refusal := .next (amassStep site s)

/-- SUBARRAY_WAKE_COMPLETE (R202). -/
def execSubarrayWakeComplete (site : Nat) (k : Fin 16) (s : State) : Host.Outcome State Fault Refusal :=
  .next (wakeStep site k.val s)

/-- SUBARRAY_SLEEP (R202). -/
def execSubarraySleep (site : Nat) (k : Fin 16) (s : State) : Host.Outcome State Fault Refusal :=
  .next (sleepStep site k.val s)

end Sys2Proof.Machine
end

