-- ==== Sys2Proof/Machine/Records.lean ====
section
/-! DEFINITION. Loop records (R104, R146 to R149, R267): `lrec`, the boundaries of their phases, yield points
(R407, R411) and the stops of a debugger at a boundary (R269, R425). The implicit stamps of stage records
(R364). -/

namespace Sys2Proof.Machine

open Sys2Proof

/-! ## The RECORDS entry (R104) -/

/-- The last line of the block that begins at a line: the next line that begins a block ends it. -/
def blockEnd (s : State) (pa off : Nat) : Nat :=
  let (_, hi) := textOf s pa
  let n := (hi - off) / 32
  match ((List.range n).drop 1).find? (fun i => lineBlk ((lineAt s pa (off + 32 * i)).headD 0)) with
  | some i => off + 32 * (i - 1)
  | none => hi - 32

/-- The extent of a SAVE or RESTORE block; 0 stands for an empty one (R412). -/
def seqExtent (s : State) (pa off : Nat) : Nat × Nat := if off = 0 then (0, 0) else (off, blockEnd s pa off)

/-- The running record of an entry.
DEDUCED (log 70), safe. -/
def recordRun (s : State) (pa a n ret : Nat) (level : Fin 8) (kind : Nat) : RecRun :=
  let g (o w : Nat) : Nat := numAt s.dmem (a + o) w
  { id := BitVec.ofNat 16 (g 0 2), phase := .pro, j := 0, n := n, stages := g 2 1, longest := g 20 4, yieldint := g 24 4,
    pro := (g 8 4, g 52 4), ker := (g 12 4, g 56 4), epi := (g 16 4, g 60 4), save := seqExtent s pa (g 28 4),
    restore := seqExtent s pa (g 32 4), zero := 0, ret := ret, level := level, kind := kind,
    yieldAsked := false, fin := 0, loopBad := false }

/-- The greatest reference point among C, V, X and M (R146). -/
def maxRef (m : Member) : Nat :=
  m.ctl.raised.foldl (fun a r => max a r.2.1) ([Queue.c, .v, .x, .m].foldl (fun a q => max a (tget 0 m.ctl.refs q.code)) 0)

/-! ## Stage records (R364) -/

/-- Entries of the Almanac in their order, with their indexes, for a stage's core (R362, R364). -/
def firingsOf (a : Almanac) (p : Place) : List (Firing × Nat) :=
  a.firings.zipIdx.filter fun f => f.1.stage == p.stage && f.1.core == p.core

/-- A firing of a member: the entry, its index, the period's number, the member's firings per period, and
its stamp, none in catch-up (R368). -/
structure NextFiring where
  fire : Firing
  idx : Nat
  period : Nat
  per : Nat
  stamp : Option Nat
  deriving DecidableEq, Repr

/-- The next firing of a member in a bound graph. -/
def nextFiring (g : Graph) (p : Place) : Option NextFiring :=
  let l := firingsOf g.alm p
  let k := l.length
  if k = 0 then none
  else if p.behind ≠ 0 then
    (l[(k - p.behind % k) % k]?).map fun f =>
      { fire := f.1, idx := f.2, period := g.n0 - (p.behind + k - 1) / k, per := k, stamp := none }
  else
    (l[p.fired % k]?).map fun f =>
      { fire := f.1, idx := f.2, period := g.n0 + p.fired / k, per := k
        stamp := some (g.base + g.alm.period * (p.fired / k) + f.1.offset) }

/-- A position in period n (R360): 0xFFFF stands for an absent edge. -/
def posIn (e : Option Edge) (q n pos : Nat) (prod : Bool) : Nat :=
  match e with
  | none => 0xffff
  | some e => (pos + n * q * (if prod then e.prod else e.cons)) % e.slots

/-- The bound graph of a member of a stage whose record this is (R364). -/
def stageOf (s : State) (n id : Nat) : Option (Graph × Place × Stage) :=
  match s.graph, (mem s n).place with
  | some g, some p =>
    if g.launch = (bindOf s n).launch then
      match g.alm.stages[p.stage]? with
      | some t => if t.rcd.toNat = id then some (g, p, t) else none
      | none => none
    else none
  | _, _ => none

/-- Values that a stage `lrec` writes into s61 to s63. -/
def stageWords (g : Graph) (t : Stage) (k : Nat) (x : NextFiring) : List (SReg × Word) :=
  let ins := g.alm.edges.filter fun e => e.dest == k
  let outs := g.alm.edges.filter fun e => e.from_ == k
  let pos (l : List Edge) (i p : Nat) (prod : Bool) : Nat := posIn l[i]? t.q x.period p prod
  [(61, BitVec.ofNat 64 (x.fire.rep + x.idx * 2 ^ 16 + x.per * 2 ^ 32 + g.gen * 2 ^ 48)),
   (62, BitVec.ofNat 64 (pos ins 0 x.fire.in0 false + pos ins 1 x.fire.in1 false * 2 ^ 16)),
   (63, BitVec.ofNat 64 (pos outs 0 x.fire.out0 true + pos outs 1 x.fire.out1 true * 2 ^ 16))]

/-- The tick of a pre-emption request that has reached a member's launch (R407). -/
def requested (s : State) (n : Nat) : Option Nat := (findLaunch s (bindOf s n).launch).bind Launch.preempt

/-! ## `lrec` (R146) -/

/-- Register that holds a record's trip count. -/
def recordTrip (s : State) (a : Nat) : List SReg :=
  if numAt s.dmem (a + 3) 1 = 1 then [Fin.ofNat 64 (numAt s.dmem (a + 4) 4)] else []

/-- The trip count of a record, and the member after it is read (R140, R142, R146). -/
def readTrip' (s : State) (n a : Nat) (w : Who) : Except Stop (Nat × State) :=
  match numAt s.dmem (a + 3) 1 with
  | 0 => .ok (numAt s.dmem (a + 4) 4, s)
  | 1 => do
    let t ← tripOf s w (.reg (Fin.ofNat 64 (numAt s.dmem (a + 4) 4)))
    .ok (t, s)
  | _ => do
    let (t, m) ← rowTrip (mem s n) (Fin.ofNat 16 (numAt s.dmem (a + 4) 4))
    .ok (t, setMem s n m)

/-- The record starts, or is passed over with a trip count of zero (R146). -/
def startRecord (s : State) (l : Lane) (n a : Nat) (lc : Fin 8) (kind t : Nat) : Except Stop (State × Nat) :=
  let (k, _, _) := spread s n kind (kindActive l.ln 2) t
  let ret := lineOf l.ln + 32
  if k = 0 then do
    let s ← jumpTo s l ret l.ln.stack
    .ok (s, 1)
  else
    let m := mem s n
    let r := recordRun s (imgOf s l.who) a k ret lc kind
    let r := { r with zero := max (m.ctl.gc + 6) (max (maxRef m) (m.ctl.gc + 1)) }
    .ok (setFetch s l.who (transferTo (fetchOf s l.who) l.ln m.ctl.gc r.pro.1 l.ln.stack (some r)), 1)

/-- A stage record's firing is counted (R364, R368). -/
def countFiring (s : State) (n : Nat) : State :=
  updMem s n fun m =>
    { m with place := m.place.map fun p => if p.behind ≠ 0 then { p with behind := p.behind - 1 } else { p with fired := p.fired + 1 } }

/-- What a stage `lrec` waits for: its stamp (R204, R364), or a pre-emption before it (R368). -/
inductive StageGo
  | go
  | wait (t : Nat)
  | miss
  | park

/-- The state of a stage `lrec` at its stamp. -/
def stageGo (s : State) (n : Nat) (x : NextFiring) : StageGo :=
  match x.stamp with
  | none => match requested s n with | some _ => .park | none => .go
  | some t =>
    match requested s n with
    | some r => if r ≤ t then .park else if s.cal < t then .wait t else if t < s.cal then .miss else .go
    | none => if s.cal < t then .wait t else if t < s.cal then .miss else .go

/-- `lrec` (R146, R364); that of a stage writes s61 to s63, and waits for one of them that is pending (R26). A false
qualifier means a trip count of zero (R139). -/
def execLrec (h : Hd) (id : BitVec 16) (s : State) : Host.Outcome State Fault Refusal :=
  lockstep s fun l =>
    match l.who with
    | .mem n => do
      let img := imgOf s l.who
      let rec_ := recordAt s img id.toNat
      let act ← waitClass s l.who h ((rec_.map (recordTrip s)).getD [])
      match rec_ with
      | none => illegal
      | some a => do
        let lv := numAt s.dmem (a + 48) 2
        let kind := (levelKind s img lv).getD 3
        require (l.ln.rcd.isNone && decide (lv < 8) && levelRules s l (Fin.ofNat 8 lv) kind) .illegal
        let (t, s') ← if act then readTrip' s n a l.who else .ok (0, s)
        match stageOf s n id.toNat with
        | none => startRecord s' l n a (Fin.ofNat 8 lv) kind t
        | some (g, p, st) =>
          match nextFiring g p with
          | none => startRecord s' l n a (Fin.ofNat 8 lv) kind t
          | some x =>
            match stageGo s n x with
            | .wait t => .error (.wait (.stamp t))
            | .miss => .error (.trap (trapOf .scheduleMiss))
            | .park => .error (.wait (.stamp (s.cal + 1)))
            | .go => do
              needLanded s l.who [61, 62, 63]
              let s ← (stageWords g st p.stage x).foldlM (fun s w => writeS s l w.1 (plain w.2) 1 none) (countFiring s' n)
              startRecord s l n a (Fin.ofNat 8 lv) kind t
    | _ => illegal

/-- The stage `lrec` a member is held before while a request that came no later than its stamp waits (R368). -/
def heldBeforeStage (s : State) (n : Nat) : Option QLane :=
  let m := mem s n
  match m.ctl.frz, dueLane m .c with
  | some (.stamp _), some l =>
    match l.ins with
    | some (.lrec _ id) =>
      match stageOf s n id.toNat with
      | some (g, p, _) => match (nextFiring g p).map (stageGo s n) with
        | some .park => some l
        | _ => none
      | none => none
    | _ => none
  | _, _ => none

/-- Index of the YIELDS entry of a record (R105, R412): entry 0 where none names it, which is the model's choice.
DESIGN CHOICE (log 147), unsafe. -/
def yieldIndex (s : State) (pa id : Nat) : Nat :=
  match sectOf s pa 5 with
  | none => 0
  | some (o, _, k) => ((List.range k).find? fun i => numAt s.dmem (pa + o + 32 * i) 2 == id).getD 0

/-- The terminal fault ILLEGAL that names a record (R149, R411). -/
def recordFault (s : State) (n : Nat) (r : RecRun) : State :=
  takeFault s n 1 0 0 ((mem s n).ctl.fetch.line.getD (extentOf r).1) (tagOf (some r)).iter.toNat (tagOf (some r)) (trapOf .illegal)

/-- A member's guard slots are open, or its held-store buffer or load data queues are in use (R411). -/
def yieldBreach (m : Member) : Bool :=
  openMask m != 0 || m.grd.held != [] || m.l.ldqV != [] || m.l.ldqC != [] || m.l.bindV != [] || m.l.bindC != []

/-- A member held before a stage `lrec` parks there (R368): its record is at no iteration yet, which phase `pro`
says, and `ret` holds the `lrec`'s address. It is a yield point, and a breach of one raises ILLEGAL (R411). -/
def parkBefore (s : State) (n : Nat) (l : QLane) : State :=
  match l.ins with
  | some (.lrec _ id) =>
    let img := imgOf s (.mem n)
    let m := mem s n
    match recordAt s img id.toNat with
    | none => s
    | some a =>
      let y := { recordRun s img a 0 l.addr (Fin.ofNat 8 (numAt s.dmem (a + 48) 2)) 0 with zero := groupCycle m }
      if yieldBreach m then recordFault s n y
      else updMem s n fun m =>
        { m with ctl := { m.ctl with life := .parking, yrec := some y, yidx := yieldIndex s img id.toNat, frz := none
                                     ybefore := m.ctl.fetch.lanes.map QLane.addr, fetch := { m.ctl.fetch with stop := true } } }
  | _ => s

/-! ## Boundaries (R146, R149) -/

/-- A lane belongs to a phase or kernel iteration. -/
def inPhase (r : RecRun) (l : QLane) : Bool := (l.rcd.map (samePhase r)).getD false

/-- Fetch, still in a phase, has fallen through its last line: the loops active then. -/
def fallen (f : Fetch) (r : RecRun) : Option (List Level) :=
  match f.rcd, f.line with
  | some x, some a =>
    match fallThrough a 8 f.stack with
    | some (_, st, false) => if samePhase x r && (extentOf r).2 == a then some st else none
    | _ => none
  | _, _ => none

/-- The phase that a member is in, whose lockstep lanes and those before the record have all issued and whose last
line fetch has fallen through, with the loops active where fetch stands. -/
def phaseOver (m : Member) : Option (RecRun × List Level) :=
  let f := m.ctl.fetch
  match f.steps with
  | [] => none
  | r :: rest =>
    if f.lanes.any fun l => lockQueue l.q && (inPhase r l || l.rcd.isNone) then none
    else if rest ≠ [] then some (r, f.stack.filter fun x => !x.inner)
    else (fallen f r).map fun st => (r, st)

/-- Fetch at the first line of a record's phase, whose cycle 0 is given. -/
def enterPhase (f : Fetch) (r : RecRun) (b : Nat) (st : List Level) : Fetch :=
  let x := { r with zero := b, fin := 0, loopBad := false }
  { f with rcd := some x, steps := [x], pc := (extentOf r).1, pres := b, stack := st, line := none, stop := false,
           needBlk := true, fmt := none }

/-- Fetch after the epilogue: the line after the `lrec`'s (R146). -/
def leaveRecord (f : Fetch) (r : RecRun) (b : Nat) (st : List Level) : Fetch :=
  { f with rcd := none, steps := [], pc := r.ret, pres := b + 6, stack := st, line := none, stop := false, needBlk := true,
           fmt := none }

/-- The boundary of a phase falls in a group cycle: the next one, to which fetch has gone on or goes on now, begins
there. Its columns issue by their own reference points (R19, R91, R466). -/
def passBoundary (f : Fetch) (r : RecRun) (b : Nat) (st : List Level) : Fetch :=
  let f := if f.steps.length = 1 then stepRecord f r st else f
  { f with steps := match f.steps.drop 1 with | x :: t => { x with zero := b } :: t | [] => [] }

/-- The boundary after a kernel iteration is a yield point (R149, R267).
DEDUCED (log 67), unsafe. -/
def yieldPoint (m : Member) (r : RecRun) (req : Bool) : Bool :=
  (r.yieldint != 0 && (r.j + 1) % r.yieldint == 0) || (r.yieldAsked && req && openMask m == 0)


/-- A member stops for the debugger or at a `brk`, and its trace says so (R269, R422, R425). -/
def stopMember (s : State) (n : Nat) (reason : BitVec 4) (code : BitVec 16) : State :=
  let s := updMem s n fun m => { m with ctl := { m.ctl with dbg := .stopped reason } }
  let s := { s with dbgReason := tput 0 s.dbgReason n reason }
  let m := mem s n
  if traceOn s n 3 then
    let t := headTag m
    traceRec s n 5 s.cal t.loop t.iter.toNat t.stagep.toNat
      (leBytes 1 reason.toNat ++ leBytes 2 code.toNat ++ leBytes 1 0 ++ leBytes 8 (groupCycle m))
  else s

/-- A stop asked for takes effect (R269, R425). -/
def stopAsked (s : State) (n : Nat) : State :=
  match (mem s n).ctl.dbg with
  | .asked r c => stopMember s n r c
  | .stepping => stopMember s n 1 0
  | _ => s

/-- A member parks at a yield point (R407, R408); its record keeps GROUP_CYCLE of the boundary. -/
def parkAt (s : State) (n : Nat) (r : RecRun) (b : Nat) (st : List Level) : State :=
  let y := yieldIndex s (imgOf s (.mem n)) r.id.toNat
  updMem s n fun m =>
    { m with ctl := { m.ctl with
        life := .parking, yidx := y, ybefore := [], yrec := some { r with j := r.j + 1, zero := (b + (mem s n).ctl.gcBias) % 2 ^ 64, yieldAsked := false }
        fetch := { m.ctl.fetch with lanes := [], stop := true, line := none, rcd := none, steps := [], stack := st } } }

/-- Fetch of a member about to park at the boundary of its iteration: what was fetched beyond it is discarded. -/
def holdAt (f : Fetch) (r : RecRun) (st : List Level) : Fetch :=
  { f with lanes := f.lanes.filter (inPhase r), stop := true, line := some (extentOf r).2, rcd := some r, steps := [r], stack := st }

/-- Addresses of the lanes that a member held before a stage `lrec` had still to issue when it was saved. -/
def keptLanes (s : State) (n : Nat) : List Nat :=
  match findLaunch s (bindOf s n).launch with
  | none => []
  | some l =>
    match l.kept.find? fun k => l.sites[k.member]? == some n with
    | some k => k.before
    | none => []

/-- Fetch with the lanes of a member held before a stage `lrec` (R368), present in a given cycle. -/
def beforeFetch (s : State) (n b : Nat) (f : Fetch) : Fetch :=
  let at_ := keptLanes s n
  let img := imgOf s (.mem n)
  let lines := (at_.map fun a => a / 32 * 32).eraseDups
  let f := lines.foldl (fun (f : Fetch) o => pushLine (.mem n) f b o (lineAt s img o)) { f with stop := false, rcd := none, line := none }
  { f with lanes := f.lanes.filter fun l => at_.contains l.addr, stop := true, needBlk := false, fmt := none, steps := [] }

/-- A restored member resumes in a group cycle (R414): at the kernel iteration after its yield point, at the
epilogue where no iteration is left, or before the stage `lrec` it was held at. Every column's first instruction is
timed from that cycle (R19), and GROUP_CYCLE goes on from the saved value. -/
def resumeAt (s : State) (n b : Nat) : State :=
  let m := mem s n
  match m.ctl.yrec with
  | none => s
  | some y =>
    let bias := (y.zero + 2 ^ 64 - b % 2 ^ 64) % 2 ^ 64
    let f := if y.phase = .pro then beforeFetch s n b m.ctl.fetch
      else enterPhase m.ctl.fetch (if y.j < y.n + y.stages - 1 then y else { y with phase := .epi }) b m.ctl.fetch.stack
    stopAsked (updMem s n fun m =>
      { m with ctl := { m.ctl with
          life := .running, yrec := none, gcBias := bias, fetch := f
          refs := [1, 2, 3, 4, 5, 6].foldl (fun t q => tput 0 t q (max b (tget 0 t q))) m.ctl.refs } }) n

/-- RECORD_BOUNDARY: in the group cycle of the boundary the record goes on to its next phase or kernel
iteration, or the member parks or stops there (R146, R149, R407, R425). -/
def boundaryStep (n : Nat) (s : State) : State :=
  let m := mem s n
  match phaseOver m with
  | none => s
  | some (r, st) =>
    let b := max r.zero r.fin
    let go (f : Fetch) : State := updMem s n fun m => { m with ctl := { m.ctl with fetch := f } }
    if !groupRuns m || decide (m.ctl.gc < b) then s
    else match r.phase with
      | .pro => go (passBoundary m.ctl.fetch r b st)
      | .ker =>
        let req := match requested s n with | some t => decide (t < s.cal) | none => false
        let looped := r.loopBad || (m.ctl.fetch.steps.length == 1 && st.any Level.inner)
        if looped ∨ r.zero + r.longest < b then recordFault s n r
        else if yieldPoint m r req then
          if yieldBreach m then recordFault s n r
          else if req then
            let f := holdAt m.ctl.fetch r st
            if f.lanes = [] then parkAt s n r b st else go f
          else stopAsked (go (passBoundary m.ctl.fetch r b st)) n
        else stopAsked (go (passBoundary m.ctl.fetch r b st)) n
      | .epi => go (leaveRecord m.ctl.fetch r b st)
      | .save => updMem s n fun m =>
        { m with ctl := { m.ctl with
            saveAt := some b, fetch := { m.ctl.fetch with lanes := [], stop := true, line := none, rcd := none, steps := [] } } }
      | .restore => resumeAt s n b

/-- RECORD_LONGEST_EXCEEDED: a kernel iteration runs past LONGEST (R149). -/
def longestStep (n : Nat) (s : State) : State :=
  let m := mem s n
  match runRcd m with
  | none => s
  | some r =>
    if r.phase ≠ .ker ∨ groupRuns m = false then s
    else
      let late := decide (r.zero + r.longest ≤ m.ctl.gc) && !(phaseOver m).isSome
      let past := (phaseOver m).isSome && decide (r.zero + r.longest < max r.zero r.fin)
      if late || past then recordFault s n r else s

/-- RECORD_BOUNDARY (R146). -/
def execRecordBoundary (site : Nat) (s : State) : Host.Outcome State Fault Refusal := .next (boundaryStep site s)

/-- RECORD_LONGEST_EXCEEDED (R149). -/
def execRecordLongestExceeded (site : Nat) (s : State) : Host.Outcome State Fault Refusal := .next (longestStep site s)

end Sys2Proof.Machine
end

