-- ==== Sys2Proof/Machine/Engine.lean ====
section
/-! DEFINITION. The engine streams (R245 to R253): commands in flight, their small accesses, how they
fail, and what is common to every command's start. -/

namespace Sys2Proof.Machine

open Sys2Proof

/-! ## Streams and commands in flight -/

/-- The member with a stream replaced. -/
def setStream (m : Member) (e : Fin 4) (x : Stream) : Member := { m with eng := tput Stream.t0 m.eng e.val x }

/-- A stream changed. -/
def updStream (s : State) (n : Nat) (e : Fin 4) (f : Stream → Stream) : State :=
  updMem s n fun m => setStream m e (f (streamOf m e))

/-- The command in flight with an index. -/
def findFly (s : State) (n : Nat) (e : Fin 4) (idx : BitVec 32) : Option Fly :=
  (streamOf (mem s n) e).fly.find? fun f => f.idx == idx

/-- A command in flight stored back. -/
def putFly (s : State) (n : Nat) (e : Fin 4) (f : Fly) : State :=
  updStream s n e fun x => { x with fly := x.fly.map fun y => if y.idx = f.idx then f else y }

/-- A command leaves the commands in flight; its own clock is needed no more. -/
def dropFly (s : State) (n : Nat) (e : Fin 4) (f : Fly) : State :=
  setClock (updStream s n e fun x => { x with fly := x.fly.filter fun y => y.idx != f.idx }) f.agent []

/-- A command fails (R250); what failed first stays. -/
def failFly (f : Fly) (k : Kind) (detail va : Nat) : Fly :=
  { f with fail := some (f.fail.getD (k, detail, va)), undone := if f.fail.isSome then f.undone else f.ops.length, ops := [] }

/-- An engine command as an agent of accesses (R287). -/
def engAcc (s : State) (n : Nat) (e : Fin 4) (f : Fly) : Acc :=
  { agent := f.agent, src := srcId 2 e.val n, clk := f.cap.clk, launch := (bindOf s n).launch, ctx := siteCtx s n,
    site := some n }

/-- Key of a context's own pages (R316, R431). -/
def ctxKey (s : State) (n : Nat) : Nat := (ctxOf s (siteCtx s n)).key.toNat

/-- Virtual address of a failure that is no access to the context's space (R328). -/
def noVa : Nat := 2 ^ 70

/-- A captured operand of a command, by its place among the register fields. -/
def regN (f : Fly) (i : Nat) : Nat := (f.regs.getD i 0).toNat

/-- A captured handle. -/
def flyH (f : Fly) (r : HReg) : BitVec 128 := ((f.hs.find? fun p => p.1 == r).map Prod.snd).getD 0

/-- The fault of a handle a command captured, with what it must carry (R247). -/
def handleBad (h : BitVec 128) (ps : List Perm) : Option Kind :=
  if !hValid h then some (hKind h) else if ps.all (hHas h) then none else some .permission

/-- A Harvest command. -/
def isHarvest : Instr → Bool
  | .hvstKeep .. | .hvstMass .. | .hcomp .. | .htrunc .. => true
  | _ => false

/-- The command has translated what it uses, or has reached the step after which it does not fail: an invalidation
no longer takes its handles from it, and completes after it (R259, R260, R324, R373). -/
def holdsOn (f : Fly) : Bool :=
  match f.cap.ins with
  | .rmerge .. => decide (3 ≤ f.ph)
  | .rtsnap .. => decide (2 ≤ f.ph)
  | .hvstKeep .. | .hvstMass .. | .hcomp .. | .htrunc .. => decide (16 ≤ f.ph ∧ f.ph ≠ 50)
  | _ => false

/-! ## Small accesses -/

/-- Marks of requests that belong to a command's small accesses and to its elements. -/
def opPiece : Nat := 2 ^ 40
def elemPiece : Nat := 2 ^ 41

/-- The physical address of some bytes of the context's space, within one page (R252, R318). -/
def vaPiece (s : State) (n va k : Nat) (p : Perm) : Except Kind Nat :=
  let h := translate s (siteCtx s n) va
  hAddr h p (va - hVa h) k

/-- Key of a small access: that of the handle it goes through, or of the context for one the stream translates
itself; none of a context that does not exist (R252, R316, R431). -/
def opKey (s : State) (n : Nat) (f : Fly) (va : Nat) : Option Nat :=
  match f.hs.find? (fun p => hValid p.2 && decide (hVa p.2 ≤ va ∧ va < hVa p.2 + hBytes p.2)) with
  | some p => some (hKeyIdx p.2)
  | none => if (ctxOf s (siteCtx s n)).v then some (ctxKey s n) else none

/-- Reads of a stretch of the context's space (R278). -/
def vaReads (s : State) (n va k : Nat) : Except (Kind × Nat) (List MicroOp) :=
  (cut (k / 32 + 2) va k 0).mapM fun p =>
    match vaPiece s n p.off p.n .r with
    | .ok pa => .ok (MicroOp.read pa p.off p.n)
    | .error k => .error (k, p.off)

/-- What a command's reads found at an address of the context's space. -/
def gotNum (f : Fly) (va k : Nat) : Nat := numAt f.got va k

/-- The command after an access that ended. -/
def afterOp (f : Fly) (op : MicroOp) (rest : List MicroOp) (b : List Byte) : Fly :=
  match op with
  | .read _ va _ => { f with ops := rest, got := setBytes f.got va b, req := [] }
  | .move _ dst va => { f with ops := .write dst va b :: rest, req := [] }
  | .write .. => { f with ops := rest, req := [] }

/-- Address of an access for a fault. -/
def opVa : MicroOp → Nat
  | .read _ va _ | .write _ va _ | .move _ _ va => va

/-- A Harvest command has published its version: it does not fail any more (R373). -/
def published (f : Fly) : Bool := isHarvest f.cap.ins && decide (17 ≤ f.ph ∧ f.ph ≤ 20)

/-- A small access came to nothing: the command fails, but for one that does not fail any more, which makes a read
again in a later tick and goes on after a write (R373).
DEDUCED (log 157), unsafe. -/
def lostOp (s : State) (f : Fly) (k : Kind) (detail va : Nat) : Fly :=
  if published f then
    match f.ops with
    | .read .. :: _ => { f with ops := [], req := [], aux := [2, s.cal] }
    | _ :: rest => { f with ops := rest, req := [] }
    | [] => { f with req := [] }
  else failFly { f with req := [] } k detail va

/-- Performs the next small access of a command (R275, R281); in a context that does not exist no address is present
(R316). -/
def runOp (s : State) (n : Nat) (e : Fin 4) (f : Fly) : State :=
  match f.ops with
  | [] => s
  | op :: rest =>
    if f.req ≠ [] then s
    else match opKey s n f (opVa op) with
    | none => putFly s n e (failFly f .page 0 (opVa op))
    | some key =>
      let a := engAcc s n e f
      let who := Requester.eng n e
      let (g, s') := match op with
        | .read pa va k => readPa s a key pa k { reqOf who f.idx.toNat opPiece pa k false [] with va := va }
        | .move pa _ va => readPa s a key pa 32 { reqOf who f.idx.toNat opPiece pa 32 false [] with va := va }
        | .write pa va b => writePa s a key pa b { reqOf who f.idx.toNat opPiece pa b.length true b with va := va } false
      match g with
      | .data b => putFly s' n e (afterOp f op rest b)
      | .done => putFly s' n e (afterOp f op rest [])
      | .sent => putFly s' n e { f with req := [opPiece] }
      | .fail k => putFly s' n e (lostOp s f k 0 (opVa op))
      | .clash r pa => clashFault s' a r pa (opVa op)
      | .wait => s'

/-! ## Failure (R250) -/

/-- The status word of a failed command (R250). -/
def statusWordOf (entry detail : Nat) (k : Kind) : Nat := entry % 65536 * 65536 + detail * 256 + kindCode k

/-- Kinds that end the launch whoever meets them (R47, R327). -/
def endsLaunch : Kind → Bool
  | .illegal | .flagUnderflow | .flagOverflow | .page | .staleHandle | .deferredAccess => false
  | _ => true

/-- A failed command's record (R250): ADDR is that of the access, or of the instruction where the command did not fail
at one (R328). -/
def failRec (s : State) (n : Nat) (e : Fin 4) (f : Fly) (k : Kind) (detail va : Nat) : FaultRec :=
  siteRec s n 2 e.val k false (k == .page || k == .staleHandle) (statusWordOf f.entry detail k) f.idx.toNat
    f.cap.tag (if noVa ≤ va then f.cap.addr % 2 ^ 48 else va % 2 ^ 54)

/-- ENGINE_COMMAND_FAIL: the stream stops at the command and its record is posted (R250). PAGE and
STALE_HANDLE wait for a refill; every kind that R47 makes terminal ends the launch (R327). The walk of a translation of its
own that met a poisoned table is logged (R319).
DEDUCED (log 62), unsafe. -/
def failStep (n : Nat) (e : Fin 4) (idx : BitVec 32) (s : State) : State :=
  match findFly s n e idx with
  | none => s
  | some f =>
    match f.fail, (streamOf (mem s n) e).stopped with
    | some (k, detail, va), none =>
      let r := failRec s n e f k detail va
      let own := (match f.cap.ins with | .kick .. | .lkick .. => false | _ => true) && f.hs.any fun p => hVpage p.2 == va / 2 ^ 16
      let s := postRec (if k = .page ∧ own = false then noteWalk s (siteCtx s n) va else s) r
      let s := updMem s n fun m =>
        let x := streamOf m e
        count (setStream m e { x with fly := x.fly.filter (fun y => y.idx != idx), stopped := some f }) (0x050 + 3 * e.val + 2)
      if k = .page ∨ k = .staleHandle then
        { s with replays := s.replays ++ [{ site := n, src := .stream e, seq := idx.toNat, va := BitVec.ofNat 64 va }] }
      else if !endsLaunch k then s
      else if vigilArmed s 2 then vigilFire s 3 (some r)
      else
        let id := (bindOf s n).launch
        let sites := launchSites s id
        endLaunch s id (if sites.contains n then sites else n :: sites) 2 (kindCode k)
    | _, _ => s

/-! ## Answers from outside (R393, R401) -/

/-- An atomic step that a home outside the module has performed, with the old value. -/
def nextElem (f : Fly) (b : List Byte) : Fly :=
  { f with req := [], wr := [(0, b)], aux := match f.aux with | k :: r => (k + 1) :: r | [] => [] }

/-- An answer to a read or an atomic of a command. -/
def answerEng (s : State) (n : Nat) (e : Fin 4) (idx : BitVec 32) (piece va : Nat) (x : Answer) : State :=
  match findFly s n e idx with
  | none => s
  | some f =>
    if !f.req.contains piece then s
    else
      match x with
      | .data b =>
        if piece = opPiece then
          match f.ops with
          | op :: rest => putFly s n e (afterOp f op rest b)
          | [] => s
        else if piece = elemPiece then putFly s n e (nextElem f b)
        else putFly s n e { f with req := f.req.filter (fun k => k != piece), wr := f.wr ++ [(piece, b.take 32)] }
      | x => putFly s n e (lostOp s f (answerKind x) (if x = .linkError then 4 else 0) va)

/-- A write of a command outside the module was turned away. -/
def rejectEng (s : State) (n : Nat) (e : Fin 4) (idx : BitVec 32) (va : Nat) (x : Answer) : State :=
  match findFly s n e idx with
  | none => s
  | some f => if published f then s else putFly s n e (failFly f (answerKind x) (if x = .linkError then 4 else 0) va)

/-- ILLEGAL with detail 0x02 (R251). -/
def outOfRange (f : Fly) : Fly := failFly f .illegal 2 noVa

/-- The command has nothing left to do but to become visible. -/
def donePh : Nat := 1000

end Sys2Proof.Machine
end

