-- ==== Sys2Proof/Machine/Copy.lean ====
section
/-! DEFINITION. The copy family, `rtsnap` and `rmerge` (R254 to R257, R259, R260). -/

namespace Sys2Proof.Machine

open Sys2Proof

/-! ## Copies (R254 to R257) -/

/-- A copy: source and destination space (0 global, 1 WB, 2 AB, 3 CB, 4 the pattern of a fill), their
handles and offsets, bytes of a row, rows, strides, and gating. -/
structure Geo where
  src : Nat
  dst : Nat
  sh : BitVec 128
  dh : BitVec 128
  so : Nat
  do_ : Nat
  ln : Nat
  rn : Nat
  sst : Nat
  dstr : Nat
  fe : Bool
  deriving DecidableEq, Repr

/-- Spaces of a route of `cpy`, `cpyc` and `tfetch` (R254). -/
def routeOf (pair : BitVec 3) : Nat × Nat :=
  match pair.toNat with
  | 0 => (0, 1) | 1 => (0, 2) | 2 => (2, 0) | 3 => (3, 0) | _ => (0, 0)

/-- Space a `cfill` fills (R254). -/
def fillOf (pair : BitVec 3) : Nat :=
  match pair.toNat with
  | 0 => 1 | 1 => 2 | 2 => 3 | _ => 0

/-- The copy a command makes (R255, R257).
DEDUCED (log 59), safe. -/
def geoOf (f : Fly) : Geo :=
  let base (k : Copy) (src dst : Nat) : Geo :=
    { src := src, dst := dst, sh := flyH f k.sh, dh := flyH f k.dh, so := regN f 1, do_ := regN f 0, ln := regN f 2,
      rn := 1, sst := 0, dstr := 0, fe := k.fe }
  match f.cap.ins with
  | .cpyc _ k .. => { base k (routeOf k.pair).1 (routeOf k.pair).2 with rn := regN f 3, dstr := regN f 4, sst := regN f 5 }
  | .cfill _ k => base k 4 (fillOf k.pair)
  | .tfetch _ k .. =>
    { base k (routeOf k.pair).1 (routeOf k.pair).2 with rn := regN f 3, sst := regN f 4, dstr := regN f 2 }
  | .cpy _ k => base k (routeOf k.pair).1 (routeOf k.pair).2
  | _ => base { do_ := 0, dh := 0, so := 0, sh := 0, pair := 0, fe := false, ln := 0 } 4 0

/-- Chunks a copy moves. -/
def geoTotal (g : Geo) : Nat := if g.ln = 0 then 0 else g.rn * (g.ln / 32)

/-- Source offset of a chunk. -/
def geoSrc (g : Geo) (k : Nat) : Nat := g.so + k / (g.ln / 32) * g.sst + 32 * (k % (g.ln / 32))

/-- Destination offset of a chunk. -/
def geoDst (g : Geo) (k : Nat) : Nat := g.do_ + k / (g.ln / 32) * g.dstr + 32 * (k % (g.ln / 32))

/-- Bytes of one side's space. -/
def sideBytes (sp : Nat) (h : BitVec 128) : Nat := if sp = 0 then hBytes h else bufSize sp

/-- The operand rules of a copy (R251, R256, R257). -/
def geoOk (f : Fly) (g : Geo) : Bool :=
  let tf := match f.cap.ins with | .tfetch .. => true | _ => false
  let last := g.rn - 1
  g.do_ % 32 == 0 && g.ln % 32 == 0 && g.sst % 32 == 0 && g.dstr % 32 == 0 && (g.src == 4 || g.so % 32 == 0) &&
  (!g.fe || if g.dst = 0 then g.so % 2048 == 0 && g.ln % 2048 == 0
            else g.do_ % 2048 == 0 && (g.rn * g.ln) % 2048 == 0 && (tf || g.ln % 2048 == 0)) &&
  (!tf || decide (g.ln ≤ 2048)) &&
  (geoTotal g == 0 ||
    (decide (g.do_ + last * g.dstr + g.ln ≤ sideBytes g.dst g.dh) &&
     (g.src == 4 || decide (g.so + last * g.sst + g.ln ≤ sideBytes g.src g.sh))))

/-- The fault of the handles a copy uses (R247, R254). -/
def geoHandle (g : Geo) : Option (Kind × Nat) :=
  match (if g.src = 0 then (handleBad g.sh [.r]).map fun k => (k, hVa g.sh) else none) with
  | some x => some x
  | none => if g.dst = 0 then (handleBad g.dh [.w]).map fun k => (k, hVa g.dh) else none

/-- The device lines a `tfetch` reads, each once (R257, R306). -/
def tfLines (g : Geo) : List Nat :=
  (((List.range (geoTotal g)).map fun k => (hBase g.sh + geoSrc g k) / 128 * 128).eraseDups).filter fun pa =>
    windowOf pa == .dev

/-- The slots that hold data of each line a `tfetch` pins. -/
def tfSlots (g : Geo) (tag : Nat) : List (Nat × Nat) :=
  (((List.range (geoTotal g)).filterMap fun k =>
    let pa := (hBase g.sh + geoSrc g k) / 128 * 128
    if windowOf pa == .dev then some (slotKey g.dst (geoDst g k / 2048), pa + 2 ^ 38 * tag) else none)).eraseDups

/-- A `tfetch` pins what it will read, or fails, or waits for a pin to be released (R257, R307): once it waits it is
no longer refused. It pays for the lines it fetches before it is granted (R310). Its working values say whether it has
waited, and which lines it has paid for. -/
def tfPin (s : State) (n : Nat) (e : Fin 4) (f : Fly) (g : Geo) (run : Fly) : State :=
  let lines := tfLines g
  let paid := f.aux.tail
  let waits := f.aux.headD 0 = 1
  match judgePins s (siteCtx s n) lines with
  | .refused => if waits then s else putFly s n e (failFly f .illegal 1 noVa)
  | .deferred =>
    if waits then s else updMem (putFly s n e { f with aux := 1 :: paid }) n fun m => count m 0x064
  | .granted =>
    match nextFetch s lines paid with
    | some (i, pa) =>
      match pay s (engAcc s n e f) pa 4 with
      | (true, s) => putFly s n e { f with aux := f.aux.headD 0 :: i :: paid }
      | (false, s) => s
    | none =>
    let s := lines.foldl (pinLine (siteCtx s n) (bindOf s n).launch) s
    let (tag, s) := takeFresh s
    updMem (putFly s n e run) n fun m =>
      countN { m with buf := { m.buf with tfPins := m.buf.tfPins ++ tfSlots g tag } } 0x063 lines.length

/-- A copy begins: its checks are made before any access (R247, R251). -/
def copyBegin (s : State) (n : Nat) (e : Fin 4) (f : Fly) : State :=
  let g := geoOf f
  match geoHandle g with
  | some (k, va) => putFly s n e (failFly f k 0 va)
  | none =>
    if !geoOk f g then putFly s n e (outOfRange f)
    else
      let run := { f with ph := 2, aux := [0, 0, geoTotal g] }
      match f.cap.ins with
      | .tfetch .. => tfPin s n e f g run
      | _ => putFly s n e run

/-- Chunks read so far, chunks written so far, chunks in all. -/
def copyAt (f : Fly) : Nat × Nat × Nat := (f.aux.getD 0 0, f.aux.getD 1 0, f.aux.getD 2 0)

/-- The pattern of a `cfill` (R255). -/
def fillChunk (f : Fly) : List Byte := (List.range 8).flatMap fun _ => leBytes 4 (regN f 1 % 2 ^ 32)

/-- The next source chunk of a copy is read (R255, R256). -/
def copyRead (s : State) (n : Nat) (e : Fin 4) (f : Fly) : State :=
  let g := geoOf f
  let (r, w, t) := copyAt f
  if f.ph ≠ 2 ∨ f.fail.isSome ∨ t ≤ r then s
  else
    let a := engAcc s n e f
    let off := geoSrc g r
    let next := { f with aux := [r + 1, w, t] }
    let slot := off / 2048
    if g.src = 4 then putFly s n e { next with wr := f.wr ++ [(r, fillChunk f)] }
    else if g.src = 0 then
      match readPa s a (hKeyIdx g.sh) (hBase g.sh + off) 32 { reqOf (.eng n e) f.idx.toNat r (hBase g.sh + off) 32 false [] with va := hVa g.sh + off } with
      | (.data b, s) => putFly s n e { next with wr := f.wr ++ [(r, b)] }
      | (.sent, s) => putFly s n e { next with req := f.req ++ [r] }
      | (.fail k, s) => putFly s n e (failFly f k 0 (hVa g.sh + off))
      | (.clash x pa, s) => clashFault s a x pa (hVa g.sh + off)
      | (_, s) => s
    else if g.fe && !slotReady (mem s n) g.src slot true then s
    else
      let a := if g.fe then { a with clk := joinClock a.clk (slotClock s n g.src slot) } else a
      match readBuf s a n g.src off 32 with
      | (.data b, s) =>
        let s := putFly s n e { next with wr := f.wr ++ [(r, b)] }
        if g.fe && off % 2048 == 2016 then turnSlot s n g.src slot false (clockOf s f.agent) else s
      | (.fail k, s) => putFly s n e (failFly f k 0 noVa)
      | (_, s) => s

/-- A source chunk of a copy within one page is still unread where this chunk would be written (R255). -/
def copyOverlaps (f : Fly) (g : Geo) (r t off : Nat) : Bool :=
  g.src == 0 && g.dst == 0 &&
  (((List.range (t - r)).any fun i => hBase g.sh + geoSrc g (r + i) == hBase g.dh + off) ||
    f.req.any fun k => hBase g.sh + geoSrc g k == hBase g.dh + off)

/-- A CB write of M due in this group cycle covers a chunk: M's comes first (R300). -/
def cbDue (m : Member) (off : Nat) : Bool :=
  m.mat.cbw.any fun w => decide (w.1 ≤ m.ctl.gc) && w.2.any fun c => c.1 / 32 == off / 32

/-- The next chunk of a copy is written, chunks in ascending order (R255, R256). -/
def copyWrite (s : State) (n : Nat) (e : Fin 4) (f : Fly) : State :=
  let g := geoOf f
  let (r, w, t) := copyAt f
  match f.wr.find? (fun p => p.1 == w) with
  | none => s
  | some (_, b) =>
    if f.ph ≠ 2 ∨ f.fail.isSome then s
    else
      let a := engAcc s n e f
      let off := geoDst g w
      let next := { f with aux := [r, w + 1, t], wr := f.wr.filter fun p => p.1 != w }
      let slot := off / 2048
      if copyOverlaps f g r t off then s
      else if g.dst = 0 then
        match writePa s a (hKeyIdx g.dh) (hBase g.dh + off) b
            { reqOf (.eng n e) f.idx.toNat w (hBase g.dh + off) 32 true b with va := hVa g.dh + off } false with
        | (.done, s) => putFly s n e next
        | (.fail k, s) => putFly s n e (failFly f k 0 (hVa g.dh + off))
        | (.clash x pa, s) => clashFault s a x pa (hVa g.dh + off)
        | (_, s) => s
      else if g.fe && !slotReady (mem s n) g.dst slot false then s
      else if g.dst == 3 && cbDue (mem s n) off then s
      else
        let a := if g.fe then { a with clk := joinClock a.clk (slotClock s n g.dst slot) } else a
        match writeBuf s a n g.dst off b (if e = 0 then 3 else 4) with
        | (.done, s) =>
          let s := putFly s n e next
          if g.fe && off % 2048 == 2016 then turnSlot s n g.dst slot true (clockOf s f.agent) else s
        | (_, s) => s

/-- A copy is done once every chunk has been written. -/
def copyDone (f : Fly) : Bool := f.ph == 2 && (copyAt f).2.1 == (copyAt f).2.2

/-! ## `rtsnap` (R260) -/

/-- Offset and handle of `rtsnap` and `rmerge`. -/
def destOf (f : Fly) : BitVec 128 × Nat :=
  match f.cap.ins with
  | .rtsnap _ dh _ | .rmerge _ dh .. => (flyH f dh, regN f 0)
  | _ => (0, 0)

/-- `rtsnap` checks its destination, then reads and clears the die's bank in one step (R260): once the additions of the
step's own tick have been performed, before anything of the next. -/
def snapBegin (s : State) (n : Nat) (e : Fin 4) (f : Fly) : State :=
  let (h, off) := destOf f
  match handleBad h [.w] with
  | some k => putFly s n e (failFly f k 0 (hVa h))
  | none =>
    if off % 32 ≠ 0 ∨ hBytes h < off + 1024 then putFly s n e (outOfRange f)
    else if windowOf (hBase h + off) == .thirel && apReject s (hBase h + off) then
      putFly s n e (failFly f .permission 0 (hVa h + off))
    else if f.aux = [] then putFly s n e { f with aux := [s.cal] }
    else if s.cal ≤ f.aux.headD 0 then s
    else
      let d := dieOf n
      let b := (List.range 256).flatMap fun i => leBytes 4 (tget 0 s.rtbank (256 * d + i)).toNat
      let ops := (List.range 32).map fun i => MicroOp.write (hBase h + off + 32 * i) (hVa h + off + 32 * i) ((b.drop (32 * i)).take 32)
      putFly { s with rtbank := tclear s.rtbank (256 * d) 256 } n e { f with ph := 2, ops := ops, aux := [] }

/-! ## `rmerge` (R259, R405) -/

/-- `rmerge` checks its operands and reads its copy table (R259); with a length of zero it makes no access (R251).
DEDUCED (log 60), safe. -/
def mergeBegin (s : State) (n : Nat) (e : Fin 4) (f : Fly) : State :=
  let (h, off) := destOf f
  let ct := regN f 1
  let nc := regN f 2
  let ln := regN f 3
  match handleBad h [.r, .w] with
  | some k => putFly s n e (failFly f k 0 (hVa h))
  | none =>
    if off % 32 ≠ 0 ∨ ln % 32 ≠ 0 ∨ (ln ≠ 0 ∧ hBytes h < off + ln) ∨ (nc ≠ 0 ∧ ct % 16 ≠ 0) then putFly s n e (outOfRange f)
    else if ln = 0 then putFly s n e { f with ph := donePh }
    else match vaReads s n ct (16 * nc) with
      | .error (k, va) => putFly s n e (failFly f k 0 va)
      | .ok ops => putFly s n e { f with ph := 2, ops := ops }

/-- Entries of the copy table: owner and address of the copy. -/
def mergeTable (f : Fly) : List (Nat × Nat) :=
  (List.range (regN f 2)).map fun i => (gotNum f (regN f 1 + 16 * i) 4, gotNum f (regN f 1 + 16 * i + 8) 8)

/-- Owners ascend strictly (R259). -/
def ownersRise : List (Nat × Nat) → Bool
  | a :: b :: r => decide (a.1 < b.1) && ownersRise (b :: r)
  | _ => true

/-- The pages of the copies, by page number, with their places; every address is translated before any access to them
(R259): or the first that does not translate. -/
def mergePages (s : State) (n : Nat) (ln : Nat) (t : List (Nat × Nat)) : Except (Kind × Nat) (List (Nat × Nat)) :=
  let pages (va : Nat) : List Nat := if ln = 0 then [] else (List.range ((va + ln - 1) / 65536 - va / 65536 + 1)).map (va / 65536 + ·)
  ((t.flatMap fun p => (pages p.2).map fun q => (q, max p.2 (65536 * q)))).mapM fun p =>
    match vaPiece s n (65536 * p.1) 65536 .r with
    | .ok pa => .ok (p.1, pa)
    | .error k => .error (k, p.2)

/-- Physical address of a byte of the copies (R259). -/
def mergePa (f : Fly) (va : Nat) : Nat := ((f.pages.find? fun p => p.1 == va / 65536).map Prod.snd).getD 0 + va % 65536

/-- One element merged (R259). -/
def mergeElem (fp : Bool) (copies : List Nat) (old : Nat) : Nat :=
  copies.foldl (fun a c => if fp then roundTo fp32 false .rne (addNum .rne (decodeFp fp32 false a) (decodeFp fp32 false c))
    else (a + c) % 2 ^ 32) old

/-- `rmerge` at work: whether the home of a peer has answered, the element next, copies of its chunk read so far, the
value the peer is taken to hold, and the addresses of the copies. An element of a peer's memory is compared and swapped
there until the swap succeeds, so that its read and its write are one step (R395, R405).
DESIGN CHOICE (log 163), safe. -/
def mergeStep (s : State) (n : Nat) (e : Fin 4) (f : Fly) : State :=
  let ln := regN f 3
  match f.ph, f.aux with
  | 2, _ =>
    let t := mergeTable f
    if !ownersRise t then putFly s n e (failFly f .illegal 3 noVa)
    else if t.any fun p => p.2 % 32 != 0 then putFly s n e (outOfRange f)
    else match mergePages s n ln t with
      | .error (k, va) => putFly s n e (failFly f k 0 va)
      | .ok l => putFly s n e { f with ph := 3, aux := 0 :: 0 :: 0 :: 0 :: t.map Prod.snd, got := [], pages := l }
  | 3, ans :: k :: c :: guess :: vas =>
    if ln ≤ 4 * k then putFly s n e { f with ph := donePh }
    else if k % 8 = 0 ∧ c < vas.length then
      let va := vas.getD c 0 + 4 * k
      putFly s n e { f with ops := [.read (mergePa f va) va 32], aux := 0 :: k :: (c + 1) :: 0 :: vas }
    else
      let (h, off) := destOf f
      let fp := match f.cap.ins with | .rmerge _ _ _ ty .. => !ty | _ => true
      let copies := vas.map fun v => gotNum f (v + 4 * k) 4
      let pa := hBase h + off + 4 * k
      let a := engAcc s n e f
      let next := { f with aux := 0 :: (k + 1) :: (if k % 8 = 7 then 0 else c) :: 0 :: vas, wr := [],
                           got := if k % 8 = 7 then [] else f.got }
      match windowOf pa with
      | .dev =>
        match atomBy s a (hKeyIdx h) pa 4 (fun old => some (mergeElem fp copies old)) with
        | (.data _, s) => putFly s n e next
        | (.fail x, s) => putFly s n e (failFly f x 0 (hVa h + off + 4 * k))
        | (.clash r pa, s) => clashFault s a r pa (hVa h + off + 4 * k)
        | (_, s) => s
      | _ =>
        let old := ((f.wr.head?).map fun p => leNat p.2).getD 0
        if f.req ≠ [] then s
        else if ans = 1 ∧ old = guess then putFly s n e next
        else
          let g := if ans = 1 then old else guess
          let r := { reqOf (.eng n e) f.idx.toNat elemPiece pa 4 false (leBytes 4 g ++ leBytes 4 (mergeElem fp copies g)) with
            atomic := true, op := 9, va := hVa h + off + 4 * k }
          match sendReq s (funcOf s (siteCtx s n)) r with
          | .wait => s
          | .reject => putFly s n e (failFly f .permission 0 (hVa h + off + 4 * k))
          | .ok s _ => putFly s n e { f with req := [elemPiece], wr := [], aux := 0 :: k :: c :: g :: vas }
  | _, _ => s

end Sys2Proof.Machine
end

