-- ==== Sys2Proof/Machine/Coll.lean ====
section
/-! DEFINITION. The collective commands (R258, R395 to R400): the group, the pieces each participant
contributes, what passes between modules, and the chunks delivered. -/

namespace Sys2Proof.Machine

open Sys2Proof

/-! ## The command and its group (R258, R396, R397) -/

/-- Kind and fields of a `coll`: 0 all-reduce, 1 reduce-scatter, 2 all-gather, 3 all-to-all, 4 broadcast. -/
def collOf : Instr → Option (Nat × Coll)
  | .collAllReduce _ k => some (0, k)
  | .collReduceScatter _ k => some (1, k)
  | .collAllGather _ k => some (2, k)
  | .collAllToAll _ k => some (3, k)
  | .collBroadcast _ k => some (4, k)
  | _ => none

/-- A collective as one participant sees it: fields of the group descriptor, the local members in index
order, the number of participants, and the participant's own rank. -/
structure Grp where
  nmod : Nat
  self : Nat
  root : Nat
  tag : Word32
  /-- a switch reduces (R399) -/
  switch : Bool
  mods : List Nat
  sites : List Nat
  p : Nat
  rank : Nat
  kind : Nat
  red : Nat
  fmt : Nat
  ln : Nat
  deriving DecidableEq, Repr

/-- The sites of the local rectangle whose origin is a physical site; none where it leaves the gang
(R397). -/
def rectSites (s : State) (n org rr rc : Nat) : Option (List Nat) :=
  let g := gangCoords s n
  match g.find? (fun p => p.2 == org) with
  | none => none
  | some (c, _) =>
    ((List.range rr).flatMap fun a => (List.range rc).map fun b => (c / 16 + a, c % 16 + b)).mapM fun p =>
      if p.2 < 16 then (g.find? fun x => x.1 == 16 * p.1 + p.2).map Prod.snd else none

/-- The group of a `coll` from its descriptor (R396, R397); none where the descriptor breaks a rule.
DESIGN CHOICE (log 63), unsafe. -/
def grpOf (s : State) (n : Nat) (f : Fly) : Option Grp :=
  match collOf f.cap.ins with
  | none => none
  | some (kind, k) =>
    let va := regN f 0
    let g (o w : Nat) : Nat := gotNum f (va + o) w
    let nmod := g 0 2
    let rr := g 2 1
    let rc := g 3 1
    let ents := (List.range nmod).map fun i => g (64 + 4 * i) 4
    match rectSites s n (16 * k.row.toNat + k.col.toNat) rr rc with
    | none => none
    | some sites =>
      let p := nmod * sites.length
      let ok := decide (1 ≤ nmod ∧ nmod ≤ 4096 ∧ 1 ≤ rr ∧ rr ≤ 10 ∧ 1 ≤ rc ∧ rc ≤ 16 ∧ g 4 2 < nmod ∧ g 12 1 < 2) &&
        g 13 51 == 0 && (if kind = 4 then decide (g 6 2 < p) else g 6 2 == 0) &&
        ents.all (fun x => decide (x < 65536)) && ents.eraseDups.length == nmod && sites.contains n
      if ok then some
        { nmod := nmod, self := g 4 2, root := g 6 2, tag := BitVec.ofNat 32 (g 8 4)
          switch := kind ≤ 1 && g 12 1 == 1 && decide (1 < nmod) && Config.oneSwitch ents, mods := ents, sites := sites, p := p,
          rank := g 4 2 * sites.length + rankIn n sites, kind := kind, red := k.red.toNat, fmt := k.fmt.toNat, ln := regN f 2 }
      else none

/-- Block size of a collective (R398). -/
def grpBlock (g : Grp) : Nat := if g.kind = 1 ∨ g.kind = 3 then g.ln / g.p else g.ln

/-- Bytes of the destination (R398). -/
def grpDest (g : Grp) : Nat := if g.kind = 2 ∨ g.kind = 3 then g.p * grpBlock g else grpBlock g

/-- Pieces of its source that a participant contributes (R398). -/
def grpPieces (g : Grp) : Nat := if g.kind = 4 ∧ g.rank ≠ g.root then 0 else g.ln / 32

/-- The length and the places of a collective's operands (R251, R398, R400). -/
def grpFits (f : Fly) (k : Coll) (g : Grp) : Bool :=
  let b := grpBlock g
  b % 2048 == 0 && (if g.kind = 1 ∨ g.kind = 3 then g.ln == g.p * b else true) &&
  regN f 1 % 32 == 0 && decide (grpPieces g = 0 ∨ regN f 1 + g.ln ≤ bufSize 2) &&
  (if k.dg then regN f 3 % 32 == 0 && decide (regN f 3 + grpDest g ≤ hBytes (flyH f k.dh))
   else regN f 3 % 2048 == 0 && decide (regN f 3 + grpDest g ≤ bufSize 2))

/-! ## Occurrences (R397) -/

/-- `coll` commands with a tag that a site's stream has started. -/
def collCountOf (s : State) (n : Nat) (tag : Word32) : Nat := tget 0 s.collCount (2 ^ 32 * n + tag.toNat)

/-- Occurrence of a running `coll`. -/
def nthOf (f : Fly) : Nat := f.aux.getD 4 0

/-- What the operands of a `coll` show before anything is read (R251). -/
def collSound (f : Fly) (kind : Nat) (k : Coll) : Bool :=
  let so := regN f 1
  let ln := regN f 2
  let d := regN f 3
  let least := if kind = 0 ∨ kind = 2 ∨ kind = 4 then ln else 0
  so % 32 == 0 && ln % 32 == 0 && decide (kind = 4 ∨ so + ln ≤ bufSize 2) &&
  (if k.dg then d % 32 == 0 && decide (d + least ≤ hBytes (flyH f k.dh)) else d % 2048 == 0 && decide (d + least ≤ bufSize 2))

/-- Collectives of a tag that a site's stream has in flight or stopped at. -/
def collsAt (s : State) (n : Nat) (tag : Word32) : List (Fly × Grp) :=
  let x := streamOf (mem s n) 2
  (x.fly ++ x.stopped.toList).filterMap fun f =>
    if f.ph < 4 then none
    else match grpOf s n f with
      | some g => if g.tag = tag then some (f, g) else none
      | none => none

/-- What every participant must agree on (R397). -/
def grpForm (g : Grp) : List Nat := [g.kind, g.red, g.fmt, g.ln]

/-- The commands of an occurrence on this module, with their sites. -/
def grpFlies (s : State) (f : Fly) (g : Grp) : List (Nat × Fly × Grp) :=
  g.sites.flatMap fun m => ((collsAt s m g.tag).filter fun x => nthOf x.1 == nthOf f).map fun x => (m, x)

/-- Participants disagree about the collective (R397): one on this module, or one of a peer by what it has sent. -/
def grpDiffers (s : State) (n : Nat) (f : Fly) (g : Grp) : Bool :=
  (grpFlies s f g).any (fun x => grpForm x.2.2 != grpForm g) ||
  s.collIn.any fun c => c.launch == (bindOf s n).launch && c.tag == g.tag && c.nth == nthOf f && c.form != grpForm g

/-- A rank has no piece to give, and only says that it takes part (R397).
DESIGN CHOICE (log 151), safe. -/
def onlyTakesPart (g : Grp) (rank : Nat) : Bool := g.ln == 0 || (g.kind == 4 && rank != g.root)

/-! ## Values (R399) -/

/-- Format of the elements (R258). -/
def collFmt (c : Nat) : Fmt := match c with | 0 => fp32 | 1 => bf16 | _ => fp16

/-- Elements of a piece. -/
def pieceElems (f : Fmt) (b : List Byte) : List Nat :=
  let w := f.width / 8
  (List.range (32 / w)).map fun i => leNat ((b.drop (w * i)).take w)

/-- One step of the loop of R399. -/
def redStep (g : Grp) (acc x : Nat) : Nat :=
  let f := collFmt g.fmt
  let a := decodeFp f true acc
  let b := decodeFp f true x
  match g.red with
  | 0 => roundTo f false .rne (addNum .rne a b)
  | r => roundTo f false .rne (minMax (r == 1) a b)

/-- The loop of R399 over whole pieces, from a partial value or from rank 0. -/
def redPieces (g : Grp) (start : Option (List Byte)) (l : List (List Byte)) : List Byte :=
  let f := collFmt g.fmt
  let w := f.width / 8
  let first := match start with
    | some b => (pieceElems f b, l)
    | none => ((pieceElems f (l.headD [])).map fun x => roundTo f false .rne (decodeFp f true x), l.tail)
  (first.2.foldl (fun acc b => (acc.zip (pieceElems f b)).map fun p => redStep g p.1 p.2) first.1).flatMap (leBytes w)

/-- A piece of a collective that is at this module. -/
def pieceAt (s : State) (id : Word32) (g : Grp) (nth rank piece : Nat) (final : Bool) : Option (List Byte) :=
  (s.collIn.find? fun c => c.launch == id && c.tag == g.tag && c.nth == nth && c.rank == rank && c.piece == piece &&
    c.final == final).map CollIn.data

/-- A finished piece sent by the module that computed it, or by a switch (R399). -/
def finalAt (s : State) (id : Word32) (g : Grp) (nth piece : Nat) : Option (List Byte) :=
  (s.collIn.find? fun c => c.launch == id && c.tag == g.tag && c.nth == nth && c.piece == piece && c.final).map CollIn.data

/-- The value of a piece reduced over every rank up to this module's last (R399). -/
def partialAt (s : State) (id : Word32) (g : Grp) (nth piece : Nat) : Option (List Byte) :=
  let m := g.sites.length
  match (List.range m).mapM fun i => pieceAt s id g nth (g.self * m + i) piece false with
  | none => none
  | some l =>
    if g.self = 0 then some (redPieces g none l)
    else (pieceAt s id g nth (g.self * m - 1) piece false).map fun b => redPieces g (some b) l

/-- The finished value of a piece. -/
def reducedAt (s : State) (id : Word32) (g : Grp) (nth piece : Nat) : Option (List Byte) :=
  match finalAt s id g nth piece with
  | some b => some b
  | none => if !g.switch && g.self + 1 == g.nmod then partialAt s id g nth piece else none

/-- A piece of the destination (R398). -/
def destPiece (s : State) (id : Word32) (g : Grp) (nth q : Nat) : Option (List Byte) :=
  let b := grpBlock g / 32
  match g.kind with
  | 0 => reducedAt s id g nth q
  | 1 => reducedAt s id g nth (g.rank * b + q)
  | 2 => pieceAt s id g nth (q / b) (q % b) false
  | 3 => pieceAt s id g nth (q / b) (g.rank * b + q % b) false
  | _ => pieceAt s id g nth g.root q false

/-- A whole chunk of 2,048 bytes of the destination. -/
def destChunk (s : State) (id : Word32) (g : Grp) (nth c : Nat) : Option (List (List Byte)) :=
  (List.range 64).mapM fun i => destPiece s id g nth (64 * c + i)

/-! ## Between modules (R398, R399) -/

/-- What a participant sends to other modules, in order: piece, position of the module in the list, and
whether it is a finished value. Reductions go on from the last member of each module; where a switch reduces, every
member sends its own pieces into it, on the way to the next module of the list.
DESIGN CHOICE (log 63), unsafe. -/
def grpSends (g : Grp) : List (Nat × Nat × Bool) :=
  let m := g.sites.length
  let b := grpBlock g / 32
  let others := (List.range g.nmod).filter fun j => j != g.self
  let ps := List.range (grpPieces g)
  if onlyTakesPart g g.rank then others.map fun j => (g.ln / 32, j, false)
  else match g.kind with
  | 2 | 4 => ps.flatMap fun p => others.map fun j => (p, j, false)
  | 3 => ps.filterMap fun p => let j := p / b / m; if j = g.self then none else some (p, j, false)
  | k =>
    if g.switch then ps.map fun p => (p, (g.self + 1) % g.nmod, false)
    else if g.rank ≠ g.self * m + m - 1 then []
    else if g.self + 1 < g.nmod then ps.map fun p => (p, g.self + 1, false)
    else ps.flatMap fun p => (others.filter fun j => k == 0 || p / b / m == j).map fun j => (p, j, true)

/-- The data of what is sent next. -/
def sendData (s : State) (id : Word32) (g : Grp) (nth : Nat) (x : Nat × Nat × Bool) : Option (List Byte) :=
  if onlyTakesPart g g.rank then some []
  else if g.kind ≤ 1 ∧ g.switch = false then partialAt s id g nth x.1 else pieceAt s id g nth g.rank x.1 false

/-- ADDR of a collective chunk flit: the site and the AB offset (R391): the sender's site, and the place of the piece
from its DO. -/
def chunkAddr (n : Nat) (f : Fly) (piece : Nat) : Nat := n * 2 ^ 21 + (regN f 3 + 32 * piece) % 2 ^ 21

/-- Sends a collective flit, on the port that its ADDR selects (R391, R394). -/
def sendFlit (s : State) (n : Nat) (f : Fly) (mod piece : Nat) (b : List Byte) : Option State :=
  let pa := chunkAddr n f piece
  let up := upPorts s mod
  match up[bits pa 12 7 % up.length]? with
  | none => none
  | some p =>
    let r := { reqOf (.eng n 2) f.idx.toNat piece pa b.length true b with
      tag := s.fresh, op := 6, port := p, launch := whoLaunch s (.eng n 2), dmod := mod }
    some { s with fresh := s.fresh + 1, outs := s.outs ++ [r] }

/-- A participant's occurrence is over before it gave all its pieces: an entry without bytes says so here, and an empty
flit to every module that a port reaches (R397).
DESIGN CHOICE (log 151), safe. -/
def tellGroup (s : State) (n : Nat) (f : Fly) (g : Grp) (form : List Nat) : State :=
  let c : CollIn := { launch := (bindOf s n).launch, tag := g.tag, nth := nthOf f, rank := g.rank, piece := 2 ^ 40, final := false, data := [], form := form }
  ((List.range g.nmod).filter fun j => j != g.self).foldl (fun s j => (sendFlit s n f (g.mods.getD j 0) 0 []).getD s)
    { s with collIn := s.collIn ++ [c] }

/-- A mismatch fails the command on every participant (R397): those of this module, those that push theirs later, and
those of the other modules. -/
def failAll (s : State) (n : Nat) (f : Fly) (g : Grp) : State :=
  (grpFlies s f g).foldl (fun s x => putFly s x.1 2 (outOfRange x.2.1)) (tellGroup (putFly s n 2 (outOfRange f)) n f g [])

/-! ## The stages of a `coll` -/

/-- A `coll` begins: its handle and its operands, and the read of the group descriptor (R247, R251, R396). -/
def collBegin (s : State) (n : Nat) (f : Fly) (k : Coll) : State :=
  match (if k.dg then handleBad (flyH f k.dh) [.w] else none) with
  | some x => putFly s n 2 (failFly f x 0 (hVa (flyH f k.dh)))
  | none =>
    if !collSound f (((collOf f.cap.ins).map Prod.fst).getD 0) k then putFly s n 2 (outOfRange f)
    else match vaReads s n (regN f 0) 64 with
    | .error (x, va) => putFly s n 2 (failFly f x 0 va)
    | .ok ops => putFly s n 2 { f with ph := 2, ops := ops }

/-- Working values of a running `coll`: source pieces read, sends made, the chunk being written plus one,
a value not used, and its occurrence. -/
def collAux (r sent cur nth : Nat) : List Nat := [r, sent, cur, 0, nth]

/-- A piece of the source is read and joins the pieces at this module (R258, R281). -/
def collRead (s : State) (n : Nat) (f : Fly) (g : Grp) : State :=
  let r := f.aux.getD 0 0
  match readBuf s (engAcc s n 2 f) n 2 (regN f 1 + 32 * r) 32 with
  | (.data b, s) =>
    let c : CollIn := { launch := (bindOf s n).launch, tag := g.tag, nth := nthOf f, rank := g.rank, piece := r, final := false, data := b, form := grpForm g }
    putFly { s with collIn := s.collIn ++ [c] } n 2 { f with aux := collAux (r + 1) (f.aux.getD 1 0) (f.aux.getD 2 0) (nthOf f) }
  | (.fail k, s) => putFly s n 2 (failFly f k 0 noVa)
  | (_, s) => s

/-- The notice of a chunk that has landed in global memory (R258). -/
def collNotice (s : State) (n : Nat) (f : Fly) (c : Nat) : State :=
  let k := FlagKey.own n (regN f 4 % 1024)
  let s := release s (flagClkKey k (scopeKey 0 n)) (clockOf s f.agent)
  let (s, ok) := postFlag s k 1 (srcId 2 2 n) 0
  let f := { f with wr := f.wr ++ [(c, [])], aux := collAux (f.aux.getD 0 0) (f.aux.getD 1 0) 0 (nthOf f) }
  if ok then putFly s n 2 f
  else putFly (updMem s n fun m => noteBound m true) n 2 (failFly f .flagOverflow 0 noVa)

/-- Every participant has pushed its `coll` (R397): those of this module, and those of the others that have no piece
to give; a piece tells of the rest. -/
def allTakePart (s : State) (n : Nat) (f : Fly) (g : Grp) : Bool :=
  (g.sites.all fun m => decide (nthOf f < collCountOf s m g.tag)) &&
  (List.range g.p).all fun r => r / g.sites.length == g.self || !onlyTakesPart g r ||
    (pieceAt s (bindOf s n).launch g (nthOf f) r (g.ln / 32) false).isSome

/-- Everything of a `coll` has been read, sent and delivered, and no participant is missing. -/
def collOver (s : State) (n : Nat) (f : Fly) (g : Grp) : Bool :=
  f.wr.length * 2048 == grpDest g && f.aux.getD 0 0 == grpPieces g && f.aux.getD 1 0 == (grpSends g).length && allTakePart s n f g

/-- A `coll` at work between its small accesses. -/
def collStep (s : State) (n : Nat) (f : Fly) (k : Coll) : State :=
  match f.ph with
  | 2 =>
    match vaReads s n (regN f 0 + 64) (4 * gotNum f (regN f 0) 2) with
    | .error (x, va) => putFly s n 2 (failFly f x 0 va)
    | .ok ops =>
      if gotNum f (regN f 0) 2 = 0 ∨ gotNum f (regN f 0) 2 > 4096 then putFly s n 2 (outOfRange f)
      else putFly s n 2 { f with ph := 3, ops := ops }
  | 3 =>
    match grpOf s n f with
    | none => putFly s n 2 (outOfRange f)
    | some g =>
      let again := f.aux.length == 5
      let nth := if again then nthOf f else collCountOf s n g.tag
      let f := { f with ph := 4, aux := collAux 0 0 0 nth }
      let s := if again then s else { s with collCount := tput 0 s.collCount (2 ^ 32 * n + g.tag.toNat) (nth + 1) }
      let claim (c : CollIn) : CollIn := if c.launch = 0 ∧ c.tag = g.tag then { c with launch := (bindOf s n).launch } else c
      putFly { s with collIn := s.collIn.map claim } n 2 f
  | 4 =>
    match grpOf s n f with
    | none => putFly s n 2 (outOfRange f)
    | some g =>
      let id := (bindOf s n).launch
      if grpDiffers s n f g then failAll s n f g
      else if !grpFits f k g then tellGroup (putFly s n 2 (outOfRange f)) n f g (grpForm g)
      else
        if f.aux.getD 2 0 ≠ 0 then collNotice s n f (f.aux.getD 2 0 - 1)
        else if f.aux.getD 0 0 < grpPieces g then collRead s n f g
        else match (grpSends g)[f.aux.getD 1 0]? with
          | some x =>
            match sendData s id g (nthOf f) x with
            | none => s
            | some b => match sendFlit s n f (g.mods.getD x.2.1 0) x.1 b with
              | none => s
              | some s => putFly s n 2 { f with aux := collAux (f.aux.getD 0 0) (f.aux.getD 1 0 + 1) 0 (nthOf f) }
          | none => if collOver s n f g then putFly s n 2 { f with ph := donePh } else s
  | _ => s

/-- Writes the pieces of a chunk into AB; none where some agent of this tick comes first (R300). -/
def deliverPieces (a : Acc) (n off : Nat) : State → Nat → List (List Byte) → Option State
  | s, _, [] => some s
  | s, i, b :: r =>
    match writeBuf s a n 2 (off + 32 * i) b 5 with
    | (.done, s) => deliverPieces a n off s (i + 1) r
    | _ => none

/-- COLL_CHUNK_ARRIVES: a chunk whose pieces are all at this module lands (R258, R400). -/
def chunkStep (n : Nat) (idx : BitVec 32) (c : Nat) (s : State) : State :=
  match findFly s n 2 idx with
  | none => s
  | some f =>
    match collOf f.cap.ins, grpOf s n f with
    | some (_, k), some g =>
      if f.ph ≠ 4 ∨ f.fail.isSome ∨ f.ops ≠ [] ∨ f.aux.getD 2 0 ≠ 0 ∨ f.wr.any (fun p => p.1 == c) ∨ grpDest g ≤ 2048 * c then s
      else match destChunk s (bindOf s n).launch g (nthOf f) c with
        | none => s
        | some l =>
          let off := regN f 3 + 2048 * c
          if k.dg then
            let h := flyH f k.dh
            let ops := l.zipIdx.map fun p => MicroOp.write (hBase h + off + 32 * p.2) (hVa h + off + 32 * p.2) p.1
            putFly s n 2 { f with ops := ops, aux := collAux (f.aux.getD 0 0) (f.aux.getD 1 0) (c + 1) (nthOf f) }
          else if !slotReady (mem s n) 2 (off / 2048) false then s
          else
            let a := engAcc s n 2 f
            match deliverPieces { a with clk := joinClock a.clk (slotClock s n 2 (off / 2048)) } n off s 0 l with
            | none => s
            | some s => turnSlot (putFly s n 2 { f with wr := f.wr ++ [(c, [])] }) n 2 (off / 2048) true (clockOf s f.agent)
    | _, _ => s

/-- A failed `coll` leaves any bits in the destination of the chunks it has not announced (R400).
DESIGN CHOICE (log 129), safe. -/
def spoilColl (s : State) (n : Nat) (f : Fly) : State :=
  match collOf f.cap.ins, grpOf s n f with
  | some (_, k), some g =>
    if f.ph < 4 ∨ grpFits f k g = false then s
    else ((List.range (grpDest g / 2048)).filter fun c => !f.wr.any fun p => p.1 == c).foldl (fun s c =>
      let b := (List.range 2048).map fun i => (Config.freeWord (s.free + i)).setWidth 8
      let s := { s with free := s.free + 2048 }
      let off := regN f 3 + 2048 * c
      if k.dg then
        let pa := hBase (flyH f k.dh) + off
        if windowOf pa = .dev then { s with dmem := setBytes s.dmem pa b } else s
      else updMem s n fun m => setBuf m 2 (setBytes m.buf.ab off b)) s
  | _, _ => s

/-- What is left of a collective once its last participant on this module has completed. -/
def collClean (s : State) (n : Nat) (f : Fly) : State :=
  match grpOf s n f with
  | none => s
  | some g =>
    let busy := g.sites.any fun m => decide (collCountOf s m g.tag ≤ nthOf f) ||
      (collsAt s m g.tag).any fun x => nthOf x.1 == nthOf f && !(m == n && x.1.idx == f.idx)
    if busy then s
    else { s with collIn := s.collIn.filter fun c =>
      !(c.launch == (bindOf s n).launch && c.tag == g.tag && c.nth == nthOf f) }

end Sys2Proof.Machine
end

