-- ==== Sys2Proof/Machine/Harvest.lean ====
section
/-! DEFINITION. The Harvest commands (R369 to R378). -/

namespace Sys2Proof.Machine

open Sys2Proof

/-! ## The attention page table (R370) -/

/-- Handle of the attention page table of a Harvest command. -/
def aptOf (f : Fly) : BitVec 128 :=
  match f.cap.ins with
  | .hvstKeep _ p .. | .hvstMass _ p .. | .hcomp _ p | .htrunc _ p _ => flyH f p
  | _ => 0

/-- What the command's reads found in the table. -/
def aptNum (f : Fly) (off k : Nat) : Nat := gotNum f (hVa (aptOf f) + off) k

/-- The current map (R370). -/
def mapNow (f : Fly) : Nat := aptNum f 0 4 % 2

/-- Blocks of the current map. -/
def blocksNow (f : Fly) : Nat := aptNum f (20 + 2 * mapNow f) 2

/-- Pages in the pool. -/
def poolNow (f : Fly) : Nat := aptNum f 24 2

/-- Offset of an entry of a map. -/
def mapOff (c b : Nat) : Nat := 64 + 16384 * c + 8 * b

/-- Offset of an entry of the pool. -/
def poolOff (i : Nat) : Nat := 32832 + 8 * i

/-- Pages of the current map, in block order. -/
def pagesNow (f : Fly) : List Nat := (List.range (blocksNow f)).map fun b => aptNum f (mapOff (mapNow f) b) 8

/-- Reads of a stretch of the table. -/
def aptReads (f : Fly) (off n : Nat) : List MicroOp :=
  let h := aptOf f
  (cut (n / 32 + 2) off n 0).map fun p => MicroOp.read (hBase h + p.off) (hVa h + p.off) p.n

/-- A write to the table. -/
def aptWrite (f : Fly) (off : Nat) (b : List Byte) : MicroOp :=
  .write (hBase (aptOf f) + off) (hVa (aptOf f) + off) b

/-- Writes of 8-byte entries of the table, in aligned chunks (R377). -/
def aptEntries (f : Fly) (off : Nat) (l : List Nat) : List MicroOp :=
  let b := l.flatMap (leBytes 8)
  (cut (b.length / 32 + 2) off b.length 0).map fun p => aptWrite f p.off ((b.drop (p.off - off)).take p.n)

/-! ## The snapshot and the survivors (R374 to R376) -/

/-- A slot of the snapshot: its page, its number, mass, original position and flags. -/
structure KvSlot where
  page : Nat
  j : Nat
  mass : Nat
  pos : Int
  flags : BitVec 32
  deriving DecidableEq, Repr

/-- The signed value of 32 bits. -/
def int32 (n : Nat) : Int := (BitVec.ofNat 32 n).toInt

/-- Every slot of the current map, in order (R370). -/
def slotsNow (f : Fly) : List KvSlot :=
  (pagesNow f).flatMap fun va => (List.range 64).map fun j =>
    let g (o : Nat) : Nat := gotNum f (va + 32768 + 12 * j + o) 4
    { page := va, j := j, mass := g 0, pos := int32 (g 4), flags := BitVec.ofNat 32 (g 8) }

/-- Slots that hold a token (R369). -/
def validNow (f : Fly) : List KvSlot := (slotsNow f).filter fun x => x.flags.getLsbD 0

/-- Order of candidates: by mass, NaN above every number, then by position (R374). -/
def candLt (x y : KvSlot) : Bool :=
  let a := decodeFp fp32 false x.mass
  let b := decodeFp fp32 false y.mass
  if a.isNan || b.isNan then (!a.isNan && b.isNan) || (a.isNan == b.isNan && decide (x.pos < y.pos))
  else ltNum a b || (eqNum a b && decide (x.pos < y.pos))

/-- A slot that `hvst` never removes (R374). -/
def protectedBy (n w : Int) (x : KvSlot) : Bool := x.flags.getLsbD 1 || x.flags.getLsbD 2 || decide (n - w ≤ x.pos)

/-- Slots an `hvst` removes (R374). -/
def removedNow (f : Fly) : List KvSlot :=
  let n := int32 (aptNum f 16 4)
  let w : Int := (regN f 1 % 2 ^ 32 : Nat)
  let l := validNow f
  let cands := sortBy candLt (l.filter fun x => !protectedBy n w x)
  match f.cap.ins with
  | .hvstKeep .. => cands.take (l.length - regN f 0 % 2 ^ 32)
  | .hvstMass .. =>
    let t := decodeFp fp32 false (regN f 0 % 2 ^ 32)
    cands.filter fun x => ltNum (decodeFp fp32 false x.mass) t
  | _ => []

/-- Survivors of `hvst` and `hcomp`, in ascending original position (R375). -/
def survivors (f : Fly) : List KvSlot :=
  let gone := removedNow f
  sortBy (fun x y => decide (x.pos < y.pos)) ((validNow f).filter fun x => !gone.contains x)

/-- The length a `htrunc` rolls back to (R376). -/
def truncLen (f : Fly) : Int := int32 (regN f 0)

/-- Valid slots a `htrunc` clears. -/
def cutNow (f : Fly) : List KvSlot := (validNow f).filter fun x => decide (truncLen f ≤ x.pos)

/-- Pages a command takes from the pool (R375). -/
def takenNow (f : Fly) : Nat :=
  match f.cap.ins with
  | .htrunc .. => 0
  | _ => ((survivors f).length + 63) / 64

/-- The map the command writes (R375, R376). -/
def mapNext (f : Fly) : List Nat :=
  match f.cap.ins with
  | .htrunc .. =>
    (pagesNow f).filter fun va => (validNow f).any fun x => x.page == va && decide (x.pos < truncLen f)
  | _ => (List.range (takenNow f)).map fun b => aptNum f (poolOff (poolNow f - 1 - b)) 8

/-- Pages that return to the pool (R373). -/
def returned (f : Fly) : List Nat :=
  let new := mapNext f
  (pagesNow f).filter fun va => !new.contains va

/-! ## Build (R373, R375, R376) -/

/-- Metadata of a slot that `hvst` or `hcomp` writes: mass, position, flags. -/
def newMeta (f : Fly) (x : KvSlot) : List Byte :=
  let hv := match f.cap.ins with | .hvstKeep .. | .hvstMass .. => true | _ => false
  let dk := match f.cap.ins with | .hvstKeep _ _ _ dk .. | .hvstMass _ _ _ dk .. => dk | _ => false
  let mass := if dk then roundTo fp32 false .rne (mulNum (decodeFp fp32 false x.mass) (decodeFp fp32 false (regN f 2 % 2 ^ 32)))
    else x.mass
  let age := bits x.flags.toNat 31 16
  let age := if hv then Nat.min 65535 (age + 1) else age
  leBytes 4 mass ++ leBytes 4 (BitVec.ofInt 32 x.pos).toNat ++ leBytes 4 (65536 * age + x.flags.toNat / 2 % 4 * 2 + 1)

/-- The writes of one new page: the rows of its slots, then its metadata. -/
def pageOps (s : State) (n : Nat) (f : Fly) (va : Nat) (l : List KvSlot) : Except (Kind × Nat) (List MicroOp) := do
  let at_ (p : Perm) (a k : Nat) : Except (Kind × Nat) Nat := (vaPiece s n a k p).mapError fun x => (x, a)
  let rows ← l.zipIdx.mapM fun p => (List.range 16).mapM fun c => do
    let o := (if c < 8 then 0 else 16384) + 32 * (c % 8)
    let src ← at_ .r (p.1.page + 256 * p.1.j + o) 32
    let dst ← at_ .w (va + 256 * p.2 + o) 32
    return MicroOp.move src dst (va + 256 * p.2 + o)
  let md := l.flatMap (newMeta f) ++
    (List.replicate (64 - l.length) (leBytes 4 0 ++ leBytes 4 0xffffffff ++ leBytes 4 0)).flatten
  let ws ← (List.range 24).mapM fun c => do
    let dst ← at_ .w (va + 32768 + 32 * c) 32
    return MicroOp.write dst (va + 32768 + 32 * c) ((md.drop (32 * c)).take 32)
  return rows.flatten ++ ws

/-- Every write of Build. -/
def buildOps (s : State) (n : Nat) (f : Fly) : Except (Kind × Nat) (List MicroOp) := do
  let new := mapNext f
  let c := 1 - mapNow f
  let pages ← match f.cap.ins with
    | .htrunc .. => (cutNow f).mapM fun x => do
      let a := x.page + 32768 + 12 * x.j + 8
      let pa ← (vaPiece s n a 4 .w).mapError fun k => (k, a)
      return [MicroOp.write pa a (leBytes 4 (x.flags &&& 0xffff0006).toNat)]
    | _ =>
      let sv := survivors f
      new.zipIdx.mapM fun p => pageOps s n f p.1 ((sv.drop (64 * p.2)).take 64)
  return pages.flatten ++ aptEntries f (mapOff c 0) new ++ [aptWrite f (20 + 2 * c) (leBytes 2 new.length)]

/-- What a failed Build leaves in the new pages that it had begun to write, in the map it was writing and in its NBLK is
any bits; flags words that `htrunc` has cleared stay so (R373).
DESIGN CHOICE (log 129), safe. -/
def spoilBuild (s : State) (n : Nat) (f : Fly) : State :=
  let ops := match buildOps s n f with | .ok l => l | .error _ => []
  let begun := ((ops.take (ops.length - f.undone)).map fun op => opVa op / 65536 * 65536).eraseDups
  let new := mapNext f
  let ops := match f.cap.ins with
    | .htrunc .. => ops.drop (cutNow f).length
    | _ => ops.filter fun op => let p := opVa op / 65536 * 65536; !new.contains p || begun.contains p
  let spots := ops.filterMap fun op => match op with
    | .write pa _ b => if windowOf pa = .dev then some (pa, b.length) else none
    | .move _ pa _ => if windowOf pa = .dev then some (pa, 32) else none
    | .read .. => none
  spots.foldl (fun s p =>
    { s with dmem := setBytes s.dmem p.1 ((List.range p.2).map fun i => (Config.freeWord (s.free + i)).setWidth 8),
             free := s.free + p.2 }) s

/-! ## Checks (R373) -/

/-- The fixed part of the table breaks a rule. -/
def aptBad (f : Fly) : Bool :=
  decide (2048 < aptNum f 20 2 ∨ 2048 < aptNum f 22 2 ∨ 2048 < poolNow f) || aptNum f 26 38 != 0 ||
  aptNum f 49216 16320 != 0

/-- An entry whose zero bits are not zero. -/
def entryBad (va : Nat) : Bool := va % 65536 != 0 || decide (2 ^ 54 ≤ va)

/-- The first of some pages that does not translate with a permission. -/
def pagesFault (s : State) (n : Nat) (ps : List Perm) (l : List Nat) : Option (Kind × Nat) :=
  l.findSome? fun va => ps.findSome? fun p =>
    match vaPiece s n va 32 p with
    | .ok _ => none
    | .error k => some (k, va)

/-- A map or pool entry of the table breaks a rule. -/
def entriesBad (f : Fly) : Bool :=
  (pagesNow f).any entryBad || (List.range (poolNow f)).any fun i => entryBad (aptNum f (poolOff i) 8)

/-- Permissions the command needs of the pages of the current map. -/
def pagePerms (f : Fly) : List Perm := match f.cap.ins with | .htrunc .. => [.r, .w] | _ => [.r]

/-! ## Phases (R373)

Phase 10 takes LOCK; 11 to 13 check; 14 builds; 15 and 16 publish; 17 and 18 drain; 19 returns; 20 unlocks.
Phase 50 releases LOCK of a command that failed. -/

/-- The command holds LOCK and has failed: LOCK is still to be released. -/
def lockOwed (f : Fly) : Bool := isHarvest f.cap.ins && f.fail.isSome && decide (11 ≤ f.ph ∧ f.ph < 51)

/-- A Harvest command begins (R247, R261). -/
def harvestBegin (s : State) (n : Nat) (f : Fly) : State :=
  match handleBad (aptOf f) [.r, .w] with
  | some k => putFly s n 3 (failFly f k 0 (hVa (aptOf f)))
  | none => putFly s n 3 { f with ph := 10 }

/-- An atomic of a Harvest command at the table (R281, R282): the old value. -/
def aptAtom (s : State) (n : Nat) (f : Fly) (off op v nv : Nat) : Got × State :=
  let h := aptOf f
  let pa := hBase h + off
  match windowOf pa with
  | .dev => atomAt s (engAcc s n 3 f) (hKeyIdx h) pa 4 op v nv
  | _ =>
    let r := { reqOf (.eng n 3) f.idx.toNat elemPiece pa 4 false (leBytes 4 v ++ leBytes 4 nv) with atomic := true, op := op }
    match sendReq s (funcOf s (siteCtx s n)) r with
    | .wait => (.wait, s)
    | .reject => (.fail .permission, s)
    | .ok s _ => (.sent, s)

/-- A command that tried and did not succeed in this tick: it tries again in a later one. -/
def triedNow (s : State) (f : Fly) : Bool := f.aux == [2, s.cal]

/-- What to do with the answer of an atomic: the phase that follows, or the same one again in a later tick. -/
def afterAtom (s : State) (n : Nat) (f : Fly) (g : Got × State) (next : Nat → Option Nat) : State :=
  match g with
  | (.data b, t) => match next (leNat b) with
    | some ph => putFly t n 3 { f with ph := ph, wr := [], aux := [] }
    | none => putFly t n 3 { f with aux := [2, s.cal] }
  | (.sent, t) => putFly t n 3 { f with req := [elemPiece], aux := [0], wr := [] }
  | (.fail k, t) => putFly t n 3 (failFly f k 0 (hVa (aptOf f)))
  | (.clash r pa, t) => clashFault t (engAcc s n 3 f) r pa (hVa (aptOf f))
  | (.wait, t) => t
  | (.done, _) => s

/-- HARVEST_LOCK: LOCK is taken by a compare-and-swap, tried again each tick (R371, R373). -/
def lockStep (n : Nat) (s : State) : State :=
  match (streamOf (mem s n) 3).fly.find? (fun f => isHarvest f.cap.ins && f.ph == 10) with
  | none => s
  | some f =>
    if f.fail.isSome ∨ f.req ≠ [] ∨ triedNow s f then s
    else match f.aux, f.wr with
      | [1], (_, b) :: _ => if leNat b = 0 then putFly s n 3 { f with ph := 11, aux := [], wr := [] }
        else putFly s n 3 { f with aux := [], wr := [] }
      | _, _ => afterAtom s n f (aptAtom s n f 4 9 0 (holder n)) fun old => if old = 0 then some 11 else none

/-- HARVEST_DRAIN: the command goes on once no reader of the old map is counted: the count is read again until
it is zero (R373). -/
def drainStep (n : Nat) (s : State) : State :=
  match (streamOf (mem s n) 3).fly.find? (fun f => isHarvest f.cap.ins && f.ph == 17) with
  | none => s
  | some f =>
    let off := 8 + 4 * mapNow f
    if f.ops ≠ [] ∨ f.fail.isSome ∨ triedNow s f then s
    else if f.aux = [1] then
      if aptNum f off 4 = 0 then putFly s n 3 { f with ph := 18, aux := [] } else putFly s n 3 { f with aux := [2, s.cal] }
    else putFly s n 3 { f with ops := aptReads f off 4, aux := [1] }

/-- A Harvest command at work between its small accesses (R373). -/
def harvestStep (s : State) (n : Nat) (f : Fly) : State :=
  let bad := putFly s n 3 (outOfRange f)
  let go (ph : Nat) (ops : List MicroOp) : State := putFly s n 3 { f with ph := ph, ops := ops, aux := [], wr := [] }
  if lockOwed f then
    if f.ph = 50 then go 51 []
    else putFly (if f.ph = 15 then spoilBuild s n f else s) n 3
      { f with ph := 50, ops := [aptWrite f 4 (leBytes 4 0)], aux := [], wr := [] }
  else if f.fail.isSome then s
  else match f.ph with
    | 11 => if hBig (aptOf f) then bad else go 12 (aptReads f 0 64 ++ aptReads f 49216 16320)
    | 12 =>
      if aptBad f then bad
      else go 13 (aptReads f (mapOff (mapNow f) 0) (8 * blocksNow f) ++ aptReads f (poolOff 0) (8 * poolNow f))
    | 13 =>
      if entriesBad f then bad
      else match pagesFault s n (pagePerms f) (pagesNow f) with
        | some (k, va) => putFly s n 3 (failFly f k 0 va)
        | none => match (pagesNow f).mapM fun va => vaReads s n (va + 32768) 768 with
          | .error (k, va) => putFly s n 3 (failFly f k 0 va)
          | .ok ops => go 14 ops.flatten
    | 14 =>
      if poolNow f < takenNow f ∨ 2048 < poolNow f - takenNow f + (returned f).length then bad
      else match pagesFault s n [.w] (if takenNow f = 0 then [] else mapNext f) with
        | some (k, va) => putFly s n 3 (failFly f k 0 va)
        | none => match buildOps s n f with
          | .error (k, va) => putFly s n 3 (failFly f k 0 va)
          | .ok ops => go 15 ops
    | 15 => match sysVisible s (.eng n 3) [] with
      | (false, t) => t
      | (true, _) =>
        let next := min (truncLen f) (int32 (aptNum f 16 4))
        let trunc := match f.cap.ins with | .htrunc .. => [aptWrite f 16 (leBytes 4 (BitVec.ofInt 32 next).toNat)] | _ => []
        go 16 (trunc ++ [aptWrite f 24 (leBytes 2 (poolNow f - takenNow f))])
    | 16 =>
      if f.req ≠ [] then s
      else if f.aux = [1] then go 17 []
      else match sysVisible s (.eng n 3) [] with
        | (false, t) => t
        | (true, _) => afterAtom s n f (aptAtom s n f 0 0 1 0) fun _ => some 17
    | 18 =>
      let l := returned f
      let k := poolNow f - takenNow f
      go 19 (aptEntries f (poolOff k) l ++ [aptWrite f 24 (leBytes 2 (k + l.length))])
    | 19 => match sysVisible s (.eng n 3) [] with
      | (false, t) => t
      | (true, _) => go 20 [aptWrite f 4 (leBytes 4 0)]
    | 20 => go donePh []
    | _ => s

/-- HARVEST_LOCK (R373). -/
def execHarvestLock (site : Nat) (s : State) : Host.Outcome State Fault Refusal := .next (lockStep site s)

/-- HARVEST_DRAIN (R373). -/
def execHarvestDrain (site : Nat) (s : State) : Host.Outcome State Fault Refusal := .next (drainStep site s)

end Sys2Proof.Machine
end

