-- ==== Sys2Proof/Machine/Lookup.lean ====
section
/-! DEFINITION. The lookup profile (R383 to R389). An instruction runs chunk by chunk and stalls its core
until its whole effect is complete (R382); it takes effect on IL, GA and OT at its end. -/

namespace Sys2Proof.Machine

open Sys2Proof

/-! ## Running one instruction -/

/-- Where an instruction of the profile stands after a step. -/
inductive LkEnd
  /-- a chunk is done, others follow -/
  | more (s : State)
  | done (s : State)
  | stop (x : Stop)
  /-- a replayable fault before the effect, at an address (R389) -/
  | replay (k : Kind) (va : Nat)

/-- The core halts before the effect of an instruction and a replayable record is posted (R389). -/
def lkHalt (s : State) (k : Nat) (l : Lane) (kind : Kind) (va : Nat) : State :=
  let c := lookupCore s k
  let r := { siteRec s c.site 3 0 kind false true 0 0 { loop := 0xffff, iter := 0, stagep := 0 } (va % 2 ^ 54) with
    src := BitVec.ofNat 16 (3 * 4096 + k) }
  let s := setLookup (postRec s r) k { c with halted := true, work := none }
  { s with replays := s.replays ++ [{ site := c.site, src := .lookup k, seq := l.ln.addr, va := BitVec.ofNat 64 va }] }

/-- Runs an instruction of the profile; in a member it is ILLEGAL (R127). -/
def lkRun (s : State) (f : Lane → Nat → LkEnd) : Host.Outcome State Fault Refusal :=
  match curLane s with
  | none => .refused .noActor
  | some l =>
    match l.who with
    | .lk k =>
      match f l k with
      | .more s => .next s
      | .done s => .next (retire (setLookup s k { lookupCore s k with work := none }) l 1)
      | .stop (.wait h) => .next (waitOn s l.who h)
      | .stop .stall => .next s
      | .stop (.trap t) => .next (laneFault s l t)
      | .replay kind va => .next (lkHalt s k l kind va)
    | _ => .next (laneFault s l (trapOf .illegal))

/-- The work of a core, fresh at an instruction's first step.
DESIGN CHOICE (log 51), unsafe. -/
def lkWork (c : Lookup) (h : BitVec 128) : LkWork :=
  c.work.getD { h := h, rows := [], part := [], put := 0, tag := none, ans := none }

/-- The state with the work of a core replaced. -/
def putWork (s : State) (k : Nat) (w : LkWork) : State := setLookup s k { lookupCore s k with work := some w }

/-- ILLEGAL. -/
def lkIllegal : LkEnd := .stop (.trap (trapOf .illegal))

/-- The access of a lookup core. -/
def lkAcc (s : State) (k : Nat) : Acc :=
  let c := lookupCore s k
  { agent := lookupAgent k, src := BitVec.ofNat 16 (3 * 4096 + k), clk := [], launch := c.launch, ctx := siteCtx s c.site, site := none }

/-- The handle an instruction uses: as it was at its issue (R384). -/
def lkHandle (c : Lookup) (h : HReg) : BitVec 128 :=
  match c.work with
  | some w => w.h
  | none => tget 0 c.h h.val

/-- A register of a lookup core by number. -/
def lkS (c : Lookup) (n : Nat) : Nat := (lookupS c (Fin.ofNat 64 n)).toNat

/-- The first check that a stretch of a page fails, for a permission (R35, R224, R383). -/
def lkCheck (h : BitVec 128) (p : Perm) (off n : Nat) : Option Kind :=
  match hAddr h p off n with
  | .ok _ => none
  | .error k => some k

/-- A failed check: PAGE and STALE_HANDLE are replayable, every other is terminal (R389). -/
def lkFail (h : BitVec 128) (off : Nat) : Kind → LkEnd
  | .page => .replay .page (hVa h + off)
  | .staleHandle => .replay .staleHandle (hVa h + off)
  | k => .stop (.trap { trapOf k with va := some (hVa h + off) })

/-- Waits until registers have landed (R382). -/
def lkLanded (s : State) (l : Lane) (rs : List SReg) (k : Unit → LkEnd) : LkEnd :=
  match needLanded s l.who rs with
  | .error x => .stop x
  | .ok _ => k ()

/-- Reads the next chunk, at most to its end and at most n bytes, at an offset of a page: the bytes, or
what the instruction does instead. The step at which the instruction issues only notes its work: its first access
reaches the home in that tick or a later one (R463). -/
def lkRead (s : State) (k : Nat) (h : BitVec 128) (off n : Nat) : Except LkEnd (List Byte × State) :=
  let len := min n (32 - off % 32)
  match hAddr h .r off len with
  | .error e => .error (lkFail h off e)
  | .ok pa =>
    let w := lkWork (lookupCore s k) h
    match w.ans, w.tag with
    | some b, _ => .ok (b.take len, putWork s k { w with ans := none, tag := none })
    | none, some _ => .error (.stop (.wait (.stamp (s.cal + 1))))
    | none, none =>
      if (lookupCore s k).work.isNone then .error (.more (putWork s k w))
      else
      let r := reqOf (.lookup k) 0 0 pa len false []
      match readPa s (lkAcc s k) (hKeyIdx h) pa len r with
      | (.data b, s) => .ok (b, s)
      | (.sent, s) => .error (.more (putWork s k { w with tag := some (s.fresh - 1) }))
      | (.fail e, _) => .error (lkFail h off e)
      | (.clash x pa, s) => .error (.done (clashFault s (lkAcc s k) x pa (hVa h + off)))
      | (_, s) => .error (.more (waitOn s (.lk k) (.stamp (s.cal + 1))))

/-- An answer reaches a lookup core (R393, R401). -/
def answerLk (s : State) (k tag : Nat) (x : Option (List Byte)) (kind : Kind) : State :=
  let c := lookupCore s k
  match c.work with
  | some w =>
    if w.tag = some tag then
      match x with
      | some b => setLookup s k { c with work := some { w with ans := some b } }
      | none => lookupFault s k kind
    else s
  | none => s

/-! ## `lidx`, `ldup` and `lgat` (R385) -/

/-- The elements of an index list from its bytes. -/
def idxOf (w : Nat) : Nat → List Byte → List Word32
  | 0, _ => []
  | n + 1, b => BitVec.ofNat 32 (leNat (b.take w)) :: idxOf w n (b.drop w)

/-- `lidx` (R385). -/
def execLidx (h : Hd) (d : SReg) (hn : HReg) (a : SReg) (op : BitVec 4) (s : State) : Host.Outcome State Fault Refusal :=
  lkRun s fun l k =>
    let c := lookupCore s k
    let w := if op = 0 then 4 else 2
    let off := lkS c a.val
    let n := lkS c (a.val + 1)
    let hd := lkHandle c hn
    if h.gq || h.qp || decide (1 < op.toNat) || decide (a.val % 2 ≠ 0) then lkIllegal
    else lkLanded s l [d, a, Fin.ofNat 64 (a.val + 1)] fun _ =>
      if 4096 < n ∨ off % w ≠ 0 then lkIllegal
      else match (if n = 0 then none else lkCheck hd .r off (n * w)) with
        | some e => lkFail hd off e
        | none =>
          let wk := lkWork c hd
          let got := wk.part.length
          if got < n * w then
            match lkRead s k hd (off + got) (n * w - got) with
            | .error e => e
            | .ok (b, s) => .more (putWork s k { lkWork (lookupCore s k) hd with part := wk.part ++ b })
          else
            let s := setLookup s k { lookupCore s k with il := idxOf w n wk.part }
            match writeS s l d (plain (BitVec.ofNat 64 n)) 1 none with
            | .ok s => .done s
            | .error x => .stop x

/-- `ldup` (R385). -/
def execLdup (h : Hd) (d : SReg) (s : State) : Host.Outcome State Fault Refusal :=
  lkRun s fun l k =>
    let c := lookupCore s k
    if h.gq || h.qp then lkIllegal
    else lkLanded s l [d] fun _ =>
      let il := c.il.eraseDups
      match writeS (setLookup s k { c with il := il }) l d (plain (BitVec.ofNat 64 il.length)) 1 none with
      | .ok s => .done s
      | .error x => .stop x

/-- A row in the cache, by handle number and page offset (R383). -/
def cached (c : Lookup) (hn off len : Nat) : Option (List Byte) :=
  (c.cache.find? fun p => p.1 == hn && p.2.1 == off && decide (len ≤ p.2.2.length)).map fun p => p.2.2.take len

/-- The cache with a row used or filled: at most 64, least recently used first (R383). -/
def cacheRow (c : Lookup) (hn off : Nat) (b : List Byte) : Lookup :=
  let r := (c.cache.filter fun p => !(p.1 == hn && p.2.1 == off)) ++ [(hn, off, b)]
  { c with cache := r.drop (r.length - 64) }

/-- Offset of row i of a gather or scatter. -/
def rowOff (c : Lookup) (lin : Bool) (off len i : Nat) : Nat := off + (if lin then i else (c.il.getD i 0).toNat) * len

/-- The first check a row of a gather or scatter fails. -/
def rowsFail (c : Lookup) (h : BitVec 128) (p : Perm) (lin : Bool) (off len : Nat) : Option (Kind × Nat) :=
  (List.range c.il.length).findSome? fun i =>
    (lkCheck h p (rowOff c lin off len i) len).map fun e => (e, rowOff c lin off len i)

/-- Reads the row at hand a chunk further, through the cache; once whole, it is given to a function. A row read
under a handle that an invalidation has cleared meanwhile is not kept (R324). -/
def readRow (s : State) (k hn : Nat) (h : BitVec 128) (off len : Nat) (fill : Bool) (f : List Byte → State → LkEnd) : LkEnd :=
  let c := lookupCore s k
  let wk := lkWork c h
  match (if wk.part = [] then cached c hn off len else none) with
  | some b => f b (setLookup s k (cacheRow c hn off ((c.cache.find? fun p => p.1 == hn && p.2.1 == off).elim b fun p => p.2.2)))
  | none =>
    match lkRead s k h (off + wk.part.length) (len - wk.part.length) with
    | .error e => e
    | .ok (b, s) =>
      let wk' := lkWork (lookupCore s k) h
      let part := wk.part ++ b
      if part.length < len then .more (putWork s k { wk' with part := part })
      else
        let s := putWork s k { wk' with part := [] }
        let fill := fill && tget 0 (lookupCore s k).h hn == h
        f part (if fill then setLookup s k (cacheRow (lookupCore s k) hn off part) else s)

/-- `lgat` (R385). -/
def execLgat (h : Hd) (hn : HReg) (a : SReg) (op : BitVec 4) (s : State) : Host.Outcome State Fault Refusal :=
  lkRun s fun l k =>
    let c := lookupCore s k
    let off := lkS c a.val
    let len := lkS c (a.val + 1)
    let hd := lkHandle c hn
    let lin := op.getLsbD 0
    if h.gq || h.qp || decide (1 < op.toNat) || decide (a.val % 2 ≠ 0) then lkIllegal
    else lkLanded s l [a, Fin.ofNat 64 (a.val + 1)] fun _ =>
      if len < 32 ∨ 2048 < len ∨ len % 32 ≠ 0 ∨ 65536 < c.il.length * len then lkIllegal
      else match rowsFail c hd .r lin off len with
        | some (e, o) => lkFail hd o e
        | none =>
          let wk := lkWork c hd
          let i := wk.rows.length
          if i < c.il.length then
            readRow s k hn.val hd (rowOff c lin off len i) len true fun b s =>
              .more (putWork s k { lkWork (lookupCore s k) hd with rows := wk.rows ++ [b] })
          else .done (setLookup s k { lookupCore s k with ga := wk.rows, grl := len })

/-! ## `lpool` (R386) -/

/-- The element of w bytes at a place of a row. -/
def rowElem (r : List Byte) (w j : Nat) : Nat := leNat ((r.drop (w * j)).take w)

/-- The fold of one column of the gather area: in float formats in FP32, to which BF16 widens exactly, the mean
taken before the last rounding (R70, R386). -/
def poolElem (op fmt gn : Nat) (l : List Nat) : Nat :=
  if fmt = 2 then
    let v := l.map fun x => (BitVec.ofNat 32 x).toInt
    (BitVec.ofInt 32 (if op = 2 then v.foldl max (-(2 ^ 31)) else v.sum)).toNat
  else
    let f := if fmt = 1 then bf16 else fp32
    let v := l.map fun x => decodeFp f (fmt != 1 || op == 2) x
    if op = 2 then
      roundTo f false .rne ((v.foldl (fun acc x => foldStep f 1 .rne acc x) none).getD (.inf true))
    else
      let t := (v.foldl (fun acc x => foldStep fp32 0 .rne acc x) none).getD (.fin false 0 0)
      roundTo f false .rne (if op = 1 ∧ gn ≠ 0 then divNum t (numInt gn) else t)

/-- The output tile of a fold. -/
def poolTile (c : Lookup) (op fmt : Nat) : List Byte :=
  let w := if fmt = 1 then 2 else 4
  let b := (List.range (c.grl / w)).flatMap fun j =>
    leBytes w (poolElem op fmt c.ga.length (c.ga.map fun r => rowElem r w j))
  (b ++ List.replicate 2048 0).take 2048

/-- `lpool` (R386). -/
def execLpool (h : Hd) (op : BitVec 4) (s : State) : Host.Outcome State Fault Refusal :=
  lkRun s fun _ k =>
    let c := lookupCore s k
    let o := op.toNat % 4
    let f := op.toNat / 4
    if h.gq || h.qp || o == 3 || f == 3 || (o == 1 && f == 2) then lkIllegal
    else .done (setLookup s k { c with ot := poolTile c o f })

/-! ## `lsend` (R387) -/

/-- Writes a tile into a slot of AB in one tick and sets it full (R387). -/
def sendTile (s : State) (a : Acc) (site slot : Nat) (b : List Byte) : State :=
  let s := (List.range 64).foldl (fun s i => (writeBuf s a site 2 (2048 * slot + 32 * i) ((b.drop (32 * i)).take 32) 6).2) s
  turnSlot s site 2 slot true (clockOf s a.agent)

/-- The terminal ILLEGAL of a sender's launch: its lookup core reaches a site that is not bound to the launch, or
not started (R345). -/
def sendFault (s : State) (k addr : Nat) : State :=
  takeRaised s (lookupCore s k).site
    { src := BitVec.ofNat 16 (3 * 4096 + k), q := Queue.c.code, addr := addr, index := 0,
      tag := { loop := 0xffff, iter := 0, stagep := 0 }, trap := trapOf .illegal, tick := s.cal }

/-- A tile of an `lsend` is delivered once its slot is empty, after L's `tfill` and the engines and in ascending
number of the lookup cores; the instruction is then complete (R44, R387). -/
def sendStep (k : Nat) (s : State) : State :=
  let c := lookupCore s k
  match c.send with
  | none => s
  | some (t, n) =>
    if !slotReady (mem s t) 2 n false || !((List.range 64).all fun i => rankOk (mem s t) 2 (2048 * n + 32 * i) 6) ||
       s.lookups.any fun p => decide (p.1 < k) && p.2.send == some (t, n) then s
    else
      let s := sendTile (learn s (lookupAgent k) (slotClock s t 2 n)) (lkAcc s k) t n ((c.ot ++ List.replicate 2048 0).take 2048)
      let s := setLookup s k { lookupCore s k with send := none, work := none }
      match c.fetch.lanes with
      | [] => s
      | l :: _ => retire s { who := .lk k, q := .c, ln := l } 1

/-- `lsend` (R387, R345): it waits, stalling the core alone, until its tile is delivered. -/
def execLsend (h : Hd) (a : SReg) (prow pcol : BitVec 4) (slot : BitVec 11) (s : State) :
    Host.Outcome State Fault Refusal :=
  lkRun s fun l k =>
    let c := lookupCore s k
    if h.gq || h.qp then lkIllegal
    else lkLanded s l [a] fun _ =>
      let t := if h.long then 16 * prow.toNat + pcol.toNat else c.site
      let n := (if h.long then slot.toNat else 0) + lkS c a.val
      if 1024 ≤ n then lkIllegal
      else if !reachable s c.site t then .more (sendFault s k l.ln.addr)
      else .more (setLookup s k { c with send := some (t, n), work := some (lkWork c 0) })

/-! ## `lscat` (R388) -/

/-- A row with the gathered row added element by element (R388). -/
def addRow (op : Nat) (x y : List Byte) : List Byte :=
  (List.range (x.length / 4)).flatMap fun j =>
    let u := rowElem x 4 j
    let v := rowElem y 4 j
    leBytes 4 (if op = 1 then (u + v) % 2 ^ 32 else roundTo fp32 false .rne (addNum .rne (decodeFp fp32 true u) (decodeFp fp32 true v)))

/-- Writes the next chunk of a row. -/
def lkWrite (s : State) (k : Nat) (h : BitVec 128) (off : Nat) (b : List Byte) : Except LkEnd (Nat × State) :=
  let len := min b.length (32 - off % 32)
  match hAddr h .w off len with
  | .error e => .error (lkFail h off e)
  | .ok pa =>
    match writePa s (lkAcc s k) (hKeyIdx h) pa (b.take len) (reqOf (.lookup k) 0 0 pa len true (b.take len)) false with
    | (.done, s) => .ok (len, s)
    | (.fail e, _) => .error (lkFail h off e)
    | (.clash x pa, s) => .error (.done (clashFault s (lkAcc s k) x pa (hVa h + off)))
    | (_, s) => .error (.more (waitOn s (.lk k) (.stamp (s.cal + 1))))

/-- Bytes at an offset with those of another stretch written over them where the two overlap. -/
def patchRow (at_ : Nat) (old : List Byte) (off : Nat) (b : List Byte) : List Byte :=
  old.zipIdx.map fun x => if off ≤ at_ + x.2 then b.getD (at_ + x.2 - off) x.1 else x.1

/-- Cached rows of a page take the bytes written to it (R383). -/
def cacheUpdate (c : Lookup) (hn off : Nat) (b : List Byte) : Lookup :=
  { c with cache := c.cache.map fun p => if p.1 = hn then (p.1, p.2.1, patchRow p.2.1 p.2.2 off b) else p }

/-- `lscat` (R388): each row is read, added to and written, in ascending i. -/
def execLscat (h : Hd) (hn : HReg) (a : SReg) (op : BitVec 4) (s : State) : Host.Outcome State Fault Refusal :=
  lkRun s fun l k =>
    let c := lookupCore s k
    let off := lkS c a.val
    let len := c.grl
    let hd := lkHandle c hn
    if h.gq || h.qp || decide (1 < op.toNat) || decide (a.val % 2 ≠ 0) then lkIllegal
    else lkLanded s l [a, Fin.ofNat 64 (a.val + 1)] fun _ =>
      if lkS c (a.val + 1) ≠ 0 ∨ c.ga.length ≠ c.il.length then lkIllegal
      else match rowsFail c hd .r false off len, rowsFail c hd .w false off len with
        | some (e, o), _ | none, some (e, o) => lkFail hd o e
        | none, none =>
          let wk := lkWork c hd
          let i := wk.rows.length
          if c.il.length ≤ i then .done s
          else
            let o := rowOff c false off len i
            if wk.put = 0 then
              readRow s k hn.val hd o len false fun b s =>
                .more (putWork s k { lkWork (lookupCore s k) hd with part := addRow op.toNat b (c.ga.getD i []), put := 1 })
            else
              match lkWrite s k hd (o + (wk.put - 1)) (wk.part.drop (wk.put - 1)) with
              | .error e => e
              | .ok (n, s) =>
                let wk' := lkWork (lookupCore s k) hd
                if wk.put - 1 + n < len then .more (putWork s k { wk' with put := wk.put + n })
                else
                  let s := setLookup s k (cacheUpdate (lookupCore s k) hn.val o wk.part)
                  .more (putWork s k { lkWork (lookupCore s k) hd with rows := wk.rows ++ [[]], part := [], put := 0 })

end Sys2Proof.Machine
end

