-- ==== Sys2Proof/Machine/Stream.lean ====
section
/-! DEFINITION. Engine streams from the push of a command to its completion (R245 to R253, R262, R263). -/

namespace Sys2Proof.Machine

open Sys2Proof

/-! ## Operands (R251) -/

/-- The s register a length field names. -/
def lenReg (l : Fin 32) : SReg := Fin.ofNat 64 l.val

/-- Register fields of a command, in ascending payload order (R251 to R262). -/
def cmdRegs : Instr → List SReg
  | .cpy _ k | .cfill _ k => [k.do_, k.so, lenReg k.ln]
  | .cpyc _ k rn dst sst => [k.do_, k.so, lenReg k.ln, rn, dst, sst]
  | .tfetch _ k rn sst => [k.do_, k.so, lenReg k.ln, rn, sst]
  | .kick _ c t => [c, t]
  | .link _ c => [c]
  | .collAllReduce _ k | .collReduceScatter _ k | .collAllGather _ k | .collAllToAll _ k | .collBroadcast _ k =>
    [k.gr, k.so, lenReg k.ln, k.do_, k.nf]
  | .rmerge _ _ d _ ct nc ln => [d, ct, nc, lenReg ln]
  | .rtsnap _ _ d => [d]
  | .hvstKeep _ _ k _ w d | .hvstMass _ _ k _ w d => [k, w, d]
  | .htrunc _ _ l => [l]
  | .lkick _ lc pc ar => [lc, pc, ar]
  | _ => []

/-- Handles a command captures: those it uses, and all sixteen for `kick` and `lkick` (R252, R262). -/
def cmdHs : Instr → List HReg
  | .cpy _ k | .cpyc _ k .. | .tfetch _ k .. =>
    (if (routeOf k.pair).1 = 0 then [k.sh] else []) ++ (if (routeOf k.pair).2 = 0 then [k.dh] else [])
  | .cfill _ k => if fillOf k.pair = 0 then [k.dh] else []
  | .kick .. | .lkick .. => (List.range 16).map (Fin.ofNat 16)
  | .collAllReduce _ k | .collReduceScatter _ k | .collAllGather _ k | .collAllToAll _ k | .collBroadcast _ k =>
    if k.dg then [k.dh] else []
  | .rmerge _ h .. | .rtsnap _ h _ => [h]
  | .hvstKeep _ p .. | .hvstMass _ p .. | .hcomp _ p | .htrunc _ p _ => [p]
  | _ => []

/-- The common part of a command (R124). -/
def cmdOf (i : Instr) : Option ECmd := (eform i).map EForm.e

/-- A `kick`. -/
def isKick : Instr → Bool
  | .kick .. => true
  | _ => false

/-- Start-stamp register of a command: s0 stands for none (R124). -/
def cmdStamp (i : Instr) : List SReg :=
  match cmdOf i with
  | some e => if e.st.val = 0 then [] else [e.st]
  | none => []

/-- The single value of a captured operand; none while it has not landed (R247). -/
def landedVal : Src Word → Option Word
  | .now [(_, .val v)] => some v
  | _ => none

/-- A captured handle once it has landed (R247). -/
def landedH : HSrc → Option (BitVec 128)
  | .now h => if hPend h then none else some h
  | .tok _ => none

/-- The start stamp of a command; none for a command without one or not landed. -/
def stampOf (c : Cap) : Option Nat :=
  if cmdStamp c.ins = [] then none else (c.ss.getLast?.bind landedVal).map BitVec.toNat

/-! ## Interrupt requests (R249, R272) -/

/-- UI_CAUSE of a request (R272). -/
def uiWord (src : Nat) (idx : Nat) : BitVec 64 := BitVec.ofNat 64 (src + idx * 2 ^ 32)

/-- A stream makes a request; a full list leaves it with the stream (R272). -/
def raiseUi (s : State) (n : Nat) (e : Fin 4) (w : BitVec 64) : State :=
  updMem s n fun m =>
    if m.ui.reqs.length < 16 then { m with ui := { m.ui with reqs := m.ui.reqs ++ [w] } }
    else setStream m e { streamOf m e with heldUi := (streamOf m e).heldUi ++ [w] }

/-! ## Push (R245, R248, R253) -/

/-- SCHEDULE_MISS. -/
def stampMissed (s : State) (c : Cap) : Bool := match stampOf c with | some t => decide (t < s.cal) | none => false

/-- A command enters its stream's queue (R245, R248); a `kick` opens a chain, and any other command closes
it (R253). -/
def effPush (n : Nat) (e : Fin 4) (s : State) (c : Cap) (_v : List Word) : Except Stop State := do
  waitUnless (decide ((streamOf (mem s n) e).queue.length < 16)) (.queueFull (6 + e.val))
  require (!stampMissed s c) .scheduleMiss
  .ok (updStream s n e fun x =>
    { x with queue := x.queue ++ [{ c with known := (stampOf c).isSome }], open_ := isKick c.ins })

/-- A `link` takes effect at its push (R253). Its interrupt request carries the index of the stream's next command.
DEDUCED (log 64), unsafe. DEDUCED (log 173), unsafe. -/
def effLink (n : Nat) (e : Fin 4) (ui : Bool) (s : State) (_c : Cap) (v : List Word) : Except Stop State := do
  let x := streamOf (mem s n) e
  let a := v.headD 0
  if !x.open_ then .error (.trap { trapOf .illegal with status := 0x600 + kindCode .illegal })
  else
    waitUnless (a == 0 || decide (x.conts.length < 8)) (.queueFull (10 + e.val))
    let s := updStream s n e fun x =>
      if a = 0 then { x with open_ := false }
      else { x with conts := x.conts ++ [((x.queue.filter fun c => isKick c.ins).length, a)] }
    .ok (if ui then raiseUi s n e (uiWord e.val x.idx.toNat) else s)

/-- The capture of a command at its issue (R245). -/
def eCap (s : State) (l : Lane) (n : Nat) (i : Instr) : Cap :=
  lCap s l n i (cmdRegs i ++ cmdStamp i) [] (cmdHs i) 0 none

/-- The issue of an E lane (R245, R159, R161): pushed, or held. -/
def pushE (e : ECmd) (i : Instr) (s : State) : Host.Outcome State Fault Refusal :=
  lockstep s fun l => do
    let n ← memOnly l
    lHazard s l.who n (cmdRegs i ++ cmdStamp i) [] 0
    let c := eCap s l n i
    if capSplits c || (mem s n).grd.held != [] then do
      let s ← holdCap s n l.who c none
      .ok (s, 1)
    else do
      let s ← effPush n e.eng s c []
      .ok ({ s with members := (updMem s n fun m => { m with ctl := { m.ctl with seq := m.ctl.seq + 1 } }).members }, 1)

/-! ## Start (R247, R248) -/

/-- A stream starts commands: its group is at work or has halted, and nothing stops the stream (R250, R266,
R269, R272, R408). -/
def streamStarts (m : Member) (x : Stream) : Bool :=
  (match m.ctl.life with | .running | .halted | .restoring => true | _ => false) && lRuns m && x.stopped.isNone &&
  x.heldUi.isEmpty

/-- Commands in flight that count against the limit (R246): a running `kick` is one of them, but on a Harvest stream,
whose limit is of Harvest commands (R373).
DEDUCED (log 61), unsafe. -/
def inFlight (e : Fin 4) (x : Stream) : Nat := (x.fly.filter fun f => decide (e ≠ 3) || !isKick f.cap.ins).length

/-- How many commands of a stream may be in flight at once (R246, R373). -/
def flyLimit (e : Fin 4) : Nat := if e = 3 then 1 else 4

/-- The command that a stream starts next, and whether a chain brings it (R247, R252). -/
def nextCmd (x : Stream) : Option (Cap × Bool) :=
  match x.chain with
  | some c => c.cur.map fun p => (p, true)
  | none => if x.fly.any (fun f => isKick f.cap.ins) then none else x.queue.head?.map fun p => (p, false)

/-- The stream with the command it starts next replaced. -/
def putNext (x : Stream) (c : Cap) : Stream :=
  match x.chain with
  | some ch => { x with chain := some { ch with cur := some c } }
  | none => { x with queue := c :: x.queue.tail }

/-- The stream without the command it starts next. -/
def popNext (x : Stream) : Stream :=
  match x.chain with
  | some ch => { x with chain := some { ch with cur := none } }
  | none => { x with queue := x.queue.tail }

/-- Consume tokens of a command, in order. -/
def cmdTokens (i : Instr) : List FlagTok :=
  match cmdOf i with
  | some e => e.c0.toList ++ e.c1.toList ++ e.c2.toList
  | none => []

/-- The flag of a token: own flags are those of the member (R247). -/
def tokKey (n : Nat) (t : FlagTok) : FlagKey := if t.dev then .dev t.n.toNat else .own n t.n.toNat

/-- `Consume` of R48, once the flag is at least 1; it leaves the flag's last setter (R419). -/
def consume (s : State) (k : FlagKey) : State :=
  let v := flagVal s k - 1
  match k with
  | .own site n => updMem s site fun m => { m with buf := { m.buf with flags := tput 0 m.buf.flags n v } }
  | .dev n => tailFlag { s with dflags := tput 0 s.dflags n v } n v

/-- Takes the tokens of a command that can be taken now (R247): the command, and whether all are taken. A
token that held the command is logged (R418). -/
def takeTokens (n : Nat) (e : Fin 4) (idx : Nat) : List FlagTok → State → Cap → State × Cap × Bool
  | [], s, c => (s, c, true)
  | t :: r, s, c =>
    let k := tokKey n t
    if flagVal s k = 0 then
      let w : WaitTimer := { waiter := srcId 2 e.val n, flag := BitVec.ofNat 16 (t.n.toNat + 4096 * bit t.dev), owner := 0, first := s.cal }
      (s, { c with since := some (c.since.getD w) }, false)
    else
      let s := match c.since with
        | some w =>
          if w.first < s.cal then
            waitRec s n w (tget (LastSet.none, 0) s.rose (flagNum k)).1 { c.tag with iter := BitVec.ofNat 32 idx }
          else s
        | none => s
      let clk := joinClock c.clk (acquired s k (siteScopes n))
      takeTokens n e idx r (consume s k) { c with taken := c.taken + 1, since := none, clk := clk }

/-- A pushed `kick` starts: the continuations of its own chain are those of the running chain now, and what an earlier
chain has left is dropped (R253). -/
def ageConts (l : List (Nat × Word)) : List (Nat × Word) :=
  (l.filter fun p => p.1 != 0).map fun p => (p.1 - 1, p.2)

/-- The command begins to run: it takes its index, and a chain entry begins with its argument words (R246,
R251, R252). -/
def beginCmd (s : State) (n : Nat) (e : Fin 4) (c : Cap) (chained : Bool) : State :=
  let x := streamOf (mem s n) e
  let (a, s) := takeFresh s
  let agent := 2 ^ 40 + a
  let hs := if chained then
      (cmdHs c.ins).map fun r => (r, ((x.chain.bind fun ch => ch.hs.find? fun p => p.1 == r).map Prod.snd).getD 0)
    else c.hs.map fun p => (p.1, (landedH p.2).getD 0)
  let f : Fly :=
    { cap := c, idx := x.idx, entry := (x.chain.map fun ch => ch.entry - 1).getD 0, fromChain := chained,
      regs := c.ss.map fun v => (landedVal v).getD 0, hs := hs, wr := [], ops := [], got := [], undone := 0, ph := if chained then 0 else 1,
      aux := [], fail := none, req := [], pages := [], agent := agent }
  let argt := (x.chain.map Chain.argt).getD 0
  let f := if !chained ∨ argt = 0 then f
    else match ((cmdRegs c.ins).filter fun r => r.val != 0).mapM fun r => vaReads s n (argt + 8 * r.val) 8 with
      | .ok ops => { f with ops := ops.flatten }
      | .error (k, va) => failFly f k 0 va
  let f := match c.ins with
    | .linkWord _ => { f with entry := (x.chain.map Chain.entry).getD 0, fail := some (.illegal, 0, noVa) }
    | _ => f
  let s := setClock s agent c.clk
  updMem s n fun m =>
    count (setStream m e { popNext x with idx := x.idx + 1, fly := x.fly ++ [f],
                                          conts := if isKick c.ins ∧ !chained then ageConts x.conts else x.conts })
      (0x050 + 3 * e.val)

/-- The command a stream would start, when nothing but its tokens and stamp holds it (R247). -/
def readyCmd (m : Member) (e : Fin 4) : Option (Cap × Bool) :=
  let x := streamOf m e
  if !streamStarts m x ∨ flyLimit e ≤ inFlight e x then none
  else match nextCmd x with
    | some (c, ch) =>
      if c.ss.all (fun v => (landedVal v).isSome) && c.hs.all (fun p => (landedH p.2).isSome) then some (c, ch) else none
    | none => none

/-- A command meets or misses its stamp (R248): what becomes of one that is queued. -/
inductive StampEnd
  | stay
  | know
  | slip
  | miss
  deriving DecidableEq, Repr

/-- The fate of a queued command's stamp at the start of a tick (R248). -/
def stampEnd (cal : Nat) (graph : Bool) (c : Cap) : StampEnd :=
  match stampOf c with
  | none => .stay
  | some t =>
    if c.slipped then .stay
    else if !c.known then (if t < cal then .miss else .know)
    else if t < cal then (if graph then .miss else .slip)
    else .stay

/-- The first queued command whose stamp has something to tell.
DEDUCED (log 66), safe. -/
def stampDue (s : State) (n : Nat) (e : Fin 4) : Option (Cap × StampEnd) :=
  (streamOf (mem s n) e).queue.findSome? fun c =>
    match stampEnd s.cal (inGraph s n) c with
    | .stay => none
    | x => some (c, x)

/-- A queued command replaced, by its capture number. -/
def putQueued (x : Stream) (c : Cap) : Stream := { x with queue := x.queue.map fun d => if d.seq = c.seq then c else d }

/-- What the stamps of a stream's queued commands tell at the start of a tick (R248). -/
def stampStep (s : State) (n : Nat) (e : Fin 4) : State :=
  match stampDue s n e with
  | none => s
  | some (c, .know) => updStream s n e fun x => putQueued x { c with known := true }
  | some (c, .slip) =>
    updMem s n fun m =>
      count { setStream m e (putQueued (streamOf m e) { c with slipped := true }) with spr := { m.spr with slip := true } } 0x00f
  | some (c, _) =>
    let s := updStream s n e fun x => { x with queue := x.queue.filter fun d => d.seq != c.seq }
    takeFault s n 2 e.val c.q.code c.addr (streamOf (mem s n) e).idx.toNat c.tag (trapOf .scheduleMiss)

/-- ENGINE_COMMAND_START: the head of a stream takes its tokens and starts, once every condition of R247 and
R248 holds. -/
def startCmd (n : Nat) (e : Fin 4) (s : State) : State :=
  if (stampDue s n e).isSome ∨ s.phase = .start then stampStep s n e
  else match readyCmd (mem s n) e with
    | none => s
    | some (c, chained) =>
      if (match stampOf c with | some t => decide (s.cal < t) | none => false) then s
      else
        let (s, c, all) := takeTokens n e (streamOf (mem s n) e).idx.toNat ((cmdTokens c.ins).drop c.taken) s c
        let s := updStream s n e fun x => putNext x c
        if all then beginCmd s n e c chained else s

/-! ## Chains (R126, R252, R253) -/

/-- A `kick` begins: both addresses are translated, and the chain runs (R252). -/
def kickBegin (s : State) (n : Nat) (e : Fin 4) (f : Fly) : State :=
  let c := regN f 0
  let t := regN f 1
  if c % 16 ≠ 0 ∨ t % 32 ≠ 0 then putFly s n e (outOfRange f)
  else match vaReads s n c 16, (if t = 0 then Except.ok [] else vaReads s n t 512) with
    | .error (k, va), _ | _, .error (k, va) => putFly s n e (failFly f k 0 va)
    | .ok _, .ok _ =>
      let s := updStream s n e fun x =>
        { x with chain := some { next := c, argt := t, kidx := f.idx, entry := 0, hs := f.hs, cur := none } }
      putFly s n e { f with ph := 2 }

/-- The chain with an entry to start; a bad one stands as a command that fails (R126).
DEDUCED (log 65), unsafe. -/
def chainEntry (f : Fly) (ch : Chain) (i : Instr) (ok : Bool) (s : State) : Chain :=
  let c := { f.cap with ins := i, ss := [], vs := [], hs := [], seq := 0, tick := s.cal, taken := 0, since := none,
                        slipped := true, known := true }
  { ch with cur := some c, next := if ok then ch.next + 16 else ch.next, entry := if ok then ch.entry + 1 else ch.entry }

/-- The place of a chain whose entry cannot be read: a command that fails with the kind. -/
def chainBad (s : State) (n : Nat) (e : Fin 4) (f : Fly) (ch : Chain) (k : Kind) (detail va : Nat) : State :=
  let s := updStream s n e fun x => { x with chain := some (chainEntry f ch (.linkWord 0) false s) }
  match nextCmd (streamOf (mem s n) e) with
  | none => s
  | some (c, _) =>
    let s := beginCmd s n e c true
    updStream s n e fun x =>
      { x with fly := x.fly.map fun g => if g.idx + 1 = x.idx then { g with fail := some (k, detail, va) } else g }

/-- A link word names the next segment of a chain; zero leaves it at its end, where a continuation or a `kick`
finds it (R126, R253). -/
def followLink (n : Nat) (e : Fin 4) (next : BitVec 50) (s : State) : State :=
  let x := streamOf (mem s n) e
  match x.chain, x.fly.find? (fun f => isKick f.cap.ins) with
  | some ch, some f =>
    if next = 0 then putFly s n e { f with ph := 4 }
    else updStream s n e fun x => { x with chain := some { ch with next := next.toNat * 16, entry := 0 } }
  | _, _ => s

/-- A running `kick` fetches the next entry of its chain, follows a link word, takes a continuation, waits
for one, or ends (R126, R252, R253). -/
def kickStep (s : State) (n : Nat) (e : Fin 4) (f : Fly) : State :=
  let x := streamOf (mem s n) e
  match x.chain with
  | none => if f.ph = 2 ∧ x.fly.all (fun g => !g.fromChain) ∧ x.stopped.isNone then putFly s n e { f with ph := donePh } else s
  | some ch =>
    if x.stopped.isSome ∨ ch.cur.isSome ∨ f.ph = donePh then s
    else if f.ph = 4 then
      match x.conts with
      | (0, v) :: r => putFly (updStream s n e fun x =>
          { x with conts := r, chain := some { ch with next := v.toNat, entry := 0 } }) n e { f with ph := 2 }
      | _ => if x.open_ ∧ x.queue = [] then s
        else putFly (updStream s n e fun x => { x with chain := none }) n e { f with ph := 2 }
    else if flyLimit e ≤ inFlight e x then s
    else if f.ph = 2 then
      if ch.next % 16 ≠ 0 then chainBad s n e f ch .illegal 2 noVa
      else match vaReads s n ch.next 16 with
        | .error (k, va) => chainBad s n e f ch k 0 va
        | .ok ops => putFly s n e { f with ops := ops, got := [], ph := 3 }
    else if f.ph = 3 then
      let ws := (List.range 4).map fun i => BitVec.ofNat 32 (gotNum f (ch.next + 4 * i) 4)
      let s := putFly s n e { f with ph := 2, got := [] }
      match decodeLane .chain ws with
      | .ok (.linkWord next) => followLink n e next s
      | .ok i =>
        if (cmdOf i).map ECmd.eng = some e then updStream s n e fun x => { x with chain := some (chainEntry f ch i true s) }
        else chainBad s n e f ch .illegal 0 noVa
      | .error _ => chainBad s n e f ch .illegal 0 noVa
    else s

/-! ## `lkick` (R262, R379, R380) -/

/-- The kind of a fault code (R47). -/
def kindOfCode (c : Nat) : Kind :=
  ([Kind.illegal, .lineFormat, .hazard, .collision, .breadth, .guardReopen, .flagUnderflow, .flagOverflow, .scheduleMiss,
    .waitTimeout, .arithFormat, .page, .staleHandle, .permission, .deferredAccess, .poisonRead, .trap].find?
    fun k => kindCode k == c).getD .illegal

/-- s[PC] addresses the first line of a block in TEXT (R382). -/
def lkEntryOk (s : State) (n pc : Nat) : Bool :=
  let pa := (bindOf s n).image.toNat
  let (lo, hi) := textOf s pa
  decide (lo ≤ pc ∧ pc + 32 ≤ hi) && (pc - lo) % 32 == 0 && lineBlk ((lineAt s pa pc).headD 0)

/-- `lkick` begins once its lookup core is idle (R262).
DEDUCED (log 30), unsafe. -/
def lkickBegin (s : State) (n : Nat) (e : Fin 4) (f : Fly) : State :=
  let k := regN f 0
  let pc := regN f 1
  if 63 < k ∨ !lkEntryOk s n pc then putFly s n e (outOfRange f)
  else if (lookupCore s k).run ∨ (lookupCore s k).ended.isSome then s
  else
    let c := { Lookup.idle with
      run := true, site := n, launch := (bindOf s n).launch, idx := f.idx
      s := tput 0 [] 1 (BitVec.ofNat 64 (regN f 2))
      h := f.hs.foldl (fun t p => tput 0 t p.1.val p.2) []
      fetch := { Fetch.none with pc := pc, stop := false } }
    let s := setLookup (renewAgent s (lookupAgent k) f.cap.clk) k c
    putFly s n e { f with ph := 2 }

/-- `lkick` waits for the end of its program and of its accesses (R262, R389). -/
def lkickStep (s : State) (n : Nat) (e : Fin 4) (f : Fly) : State :=
  let k := regN f 0
  let c := lookupCore s k
  match (if c.posts = [] then c.ended else none) with
  | none => s
  | some code =>
    if code = 0 then
      match sysVisible s (.lookup k) (clockOf s (lookupAgent k)) with
      | (false, t) => t
      | (true, _) =>
        let s := learn s f.agent (clockOf s (lookupAgent k))
        putFly (setLookup s k Lookup.idle) n e { f with ph := donePh }
    else putFly (setLookup s k Lookup.idle) n e (failFly f (kindOfCode code.toNat) 5 noVa)

/-! ## Commands at work -/

/-- A command begins: its handles and operands are checked before any access (R247, R251). -/
def flyBegin (s : State) (n : Nat) (e : Fin 4) (f : Fly) : State :=
  match f.cap.ins with
  | .cpy .. | .cpyc .. | .cfill .. | .tfetch .. => copyBegin s n e f
  | .kick .. => kickBegin s n e f
  | .collAllReduce _ k | .collReduceScatter _ k | .collAllGather _ k | .collAllToAll _ k | .collBroadcast _ k =>
    collBegin s n f k
  | .rmerge .. => mergeBegin s n e f
  | .rtsnap .. => snapBegin s n e f
  | .hvstKeep .. | .hvstMass .. | .hcomp .. | .htrunc .. => harvestBegin s n f
  | .lkick .. => lkickBegin s n e f
  | _ => putFly s n e { f with ph := donePh }

/-- A command that has begun goes on. -/
def flyGo (s : State) (n : Nat) (e : Fin 4) (f : Fly) : State :=
  match f.cap.ins with
  | .cpy .. | .cpyc .. | .cfill .. | .tfetch .. =>
    if copyDone f then putFly s n e { f with ph := donePh }
    else
      let t := copyWrite s n e f
      if t = s then copyRead s n e f else t
  | .kick .. => kickStep s n e f
  | .collAllReduce _ k | .collReduceScatter _ k | .collAllGather _ k | .collAllToAll _ k | .collBroadcast _ k =>
    collStep s n f k
  | .rmerge .. => mergeStep s n e f
  | .rtsnap .. => if f.ph = 2 then putFly s n e { f with ph := donePh } else s
  | .hvstKeep .. | .hvstMass .. | .hcomp .. | .htrunc .. => harvestStep s n f
  | .lkick .. => lkickStep s n e f
  | _ => s

/-- The fault of a command at work one of whose handles an invalidation has cleared (R323, R324); accesses
already sent complete first.
DEDUCED (log 92), unsafe. -/
def lostHandle (f : Fly) : Option (Kind × Nat) :=
  match f.cap.ins with
  | .kick .. | .lkick .. => none
  | _ =>
    if f.ph < 2 ∨ f.ph = donePh ∨ holdsOn f ∨ f.fail.isSome ∨ f.req ≠ [] then none
    else (f.hs.find? fun p => !hValid p.2).map fun p => (hKind p.2, hVa p.2)

/-- One step of a command in flight. -/
def flyStep (s : State) (n : Nat) (e : Fin 4) (f : Fly) : State :=
  match lostHandle f with
  | some (k, va) => putFly s n e { failFly f k 0 va with ops := [] }
  | none =>
  if f.ops ≠ [] then runOp s n e f
  else if lockOwed f then harvestStep s n f
  else if f.fail.isSome then s
  else if f.ph = 0 then
    let argt := ((streamOf (mem s n) e).chain.map Chain.argt).getD 0
    let regs := (cmdRegs f.cap.ins).map fun r =>
      if argt = 0 ∨ r.val = 0 then (0 : Word) else BitVec.ofNat 64 (gotNum f (argt + 8 * r.val) 8)
    putFly s n e { f with regs := regs, got := [], ph := 1 }
  else if f.ph = 1 then flyBegin s n e f
  else flyGo s n e f

/-- The first of some commands that a step changes. -/
def firstFly (s : State) (n : Nat) (e : Fin 4) : List Fly → State
  | [] => s
  | f :: r =>
    let t := flyStep s n e f
    if t = s then firstFly s n e r else t

/-- One step of a stream's commands in flight, the oldest first; they go on to their ends while the debugger holds the
member, and no further one starts (R269). -/
def streamStep (n : Nat) (e : Fin 4) (s : State) : State :=
  if (match (mem s n).ctl.life with | .parked | .saving | .saved | .retired => true | _ => false) then s
  else firstFly s n e (streamOf (mem s n) e).fly

/-! ## Completion (R249) -/

/-- A command may complete: it is done and every command that started before it has completed; a running
`kick` lets the entries of its chain go first (R246, R252). -/
def mayComplete (x : Stream) (f : Fly) : Bool :=
  f.ph == donePh && f.fail.isNone && f.ops.isEmpty && f.req.isEmpty &&
  x.fly.all (fun g => decide (f.agent ≤ g.agent) || isKick g.cap.ins) &&
  match x.stopped with | some g => decide (f.agent < g.agent) | none => true

/-- The produce token of a completed command is posted: a release of its writes (R249, R291); false when
the flag cannot hold it. -/
def produce (s : State) (n : Nat) (e : Fin 4) (f : Fly) : State × Bool :=
  match (cmdOf f.cap.ins).bind ECmd.produce with
  | none => (s, true)
  | some t =>
    let k := tokKey n t
    let s := release s (flagClkKey k (scopeKey 2 n)) (clockOf s f.agent)
    let (s, ok) := postFlag s k 1 (srcId 2 e.val n) 0
    if ok then (s, true) else (updMem s n fun m => noteBound m true, false)

/-- ENGINE_COMMAND_COMPLETE (R249). -/
def completeCmd (n : Nat) (e : Fin 4) (idx : BitVec 32) (s : State) : State :=
  match findFly s n e idx with
  | none => s
  | some f =>
    if !mayComplete (streamOf (mem s n) e) f then s
    else match sysVisible s (.eng n e) (clockOf s f.agent) with
      | (false, t) => t
      | (true, _) =>
        match produce s n e f with
        | (s, false) => putFly s n e (failFly { f with ph := 1 } .flagOverflow 0 noVa)
        | (s, true) =>
          let s := match (cmdOf f.cap.ins).map ECmd.ui with
            | some true => raiseUi s n e (uiWord e.val idx.toNat)
            | _ => s
          let s := match f.cap.ins with
            | .collAllReduce .. | .collReduceScatter .. | .collAllGather .. | .collAllToAll .. | .collBroadcast .. => collClean s n f
            | _ => s
          let s := learn s (agentNo n 7) (clockOf s f.agent)
          dropFly (updMem s n fun m => count m (0x051 + 3 * e.val)) n e f

/-! ## Restart (R250) -/

/-- Puts a command back among those in flight, in start order. -/
def insertFly (f : Fly) : List Fly → List Fly
  | [] => [f]
  | g :: r => if f.agent < g.agent then f :: g :: r else g :: insertFly f r

/-- STREAM_RESTART: the stream runs again from the failed command, with the operands it captured and without
taking its tokens again, once its fault is serviced (R250, R326); a chain entry that failed before its argument words
were read reads them now. -/
def restartStream (n : Nat) (e : Fin 4) (s : State) : State :=
  match (streamOf (mem s n) e).stopped with
  | none => s
  | some f =>
    let keep := match collOf f.cap.ins with | some _ => collAux 0 0 0 (nthOf f) | none => []
    let g := { f with fail := none, ops := [], got := [], req := [], wr := [], aux := if f.aux.length = 5 then keep else [],
                      pages := [], ph := if f.fromChain ∧ f.ph = 0 then 0 else 1 }
    let argt := ((streamOf (mem s n) e).chain.map Chain.argt).getD 0
    let g := if g.ph = 1 ∨ argt = 0 then g
      else match ((cmdRegs f.cap.ins).filter fun r => r.val != 0).mapM fun r => vaReads s n (argt + 8 * r.val) 8 with
        | .ok ops => { g with ops := ops.flatten }
        | .error (k, va) => failFly g k 0 va
    if s.replays.any fun r => r.site == n && r.src == .stream e then s
    else updStream s n e fun x => match f.cap.ins with
      | .linkWord _ => { x with stopped := none, idx := x.idx - (if f.idx + 1 = x.idx then 1 else 0) }
      | _ => { x with stopped := none, fly := insertFly g x.fly }

/-! ## The instructions -/

/-- `cpy` (R254, R255). -/
def execCpy (e : ECmd) (k : Copy) (s : State) : Host.Outcome State Fault Refusal := pushE e (.cpy e k) s

/-- `cpyc` (R255). -/
def execCpyc (e : ECmd) (k : Copy) (rn dst sst : SReg) (s : State) : Host.Outcome State Fault Refusal :=
  pushE e (.cpyc e k rn dst sst) s

/-- `cfill` (R255). -/
def execCfill (e : ECmd) (k : Copy) (s : State) : Host.Outcome State Fault Refusal := pushE e (.cfill e k) s

/-- `tfetch` (R257). -/
def execTfetch (e : ECmd) (k : Copy) (rn sst : SReg) (s : State) : Host.Outcome State Fault Refusal :=
  pushE e (.tfetch e k rn sst) s

/-- `kick` (R252). -/
def execKick (e : ECmd) (c t : SReg) (s : State) : Host.Outcome State Fault Refusal := pushE e (.kick e c t) s

/-- `link` (R253): it reads its register at its push and takes effect there; the group waits for a pending one.
DEDUCED (log 172), unsafe. -/
def execLink (e : ECmd) (c : SReg) (s : State) : Host.Outcome State Fault Refusal :=
  lockstep s fun l => do
    let n ← memOnly l
    lHazard s l.who n (c :: cmdStamp (.link e c)) [] 0
    let p := eCap s l n (.link e c)
    if capSplits p || (mem s n).grd.held != [] then do
      let s ← holdCap s n l.who p none
      .ok (s, 1)
    else do
      waitUnless ((sCell (mem s n) c).pend.isNone) (.sPend c)
      require (!stampMissed s p) .scheduleMiss
      let s ← effLink n e.eng e.ui s p [valOf (sCell (mem s n) c).alts]
      .ok (s, 1)

/-- A link word is an entry of a chain; in a fetch line its code raises ILLEGAL (R126). -/
def execLinkWord (next : BitVec 50) (s : State) : Host.Outcome State Fault Refusal :=
  match s.cur with
  | .chain n e => .next (followLink n e next s)
  | _ => lockstep s fun _ => illegal

/-- `coll` all-reduce (R258). -/
def execCollAllReduce (e : ECmd) (k : Coll) (s : State) : Host.Outcome State Fault Refusal := pushE e (.collAllReduce e k) s

/-- `coll` reduce-scatter (R258). -/
def execCollReduceScatter (e : ECmd) (k : Coll) (s : State) : Host.Outcome State Fault Refusal :=
  pushE e (.collReduceScatter e k) s

/-- `coll` all-gather (R258). -/
def execCollAllGather (e : ECmd) (k : Coll) (s : State) : Host.Outcome State Fault Refusal := pushE e (.collAllGather e k) s

/-- `coll` all-to-all (R258). -/
def execCollAllToAll (e : ECmd) (k : Coll) (s : State) : Host.Outcome State Fault Refusal := pushE e (.collAllToAll e k) s

/-- `coll` broadcast (R258). -/
def execCollBroadcast (e : ECmd) (k : Coll) (s : State) : Host.Outcome State Fault Refusal := pushE e (.collBroadcast e k) s

/-- `rmerge` (R259). -/
def execRmerge (e : ECmd) (dh : HReg) (d : SReg) (ty : Bool) (ct nc : SReg) (ln : Fin 32) (s : State) :
    Host.Outcome State Fault Refusal := pushE e (.rmerge e dh d ty ct nc ln) s

/-- `rtsnap` (R260). -/
def execRtsnap (e : ECmd) (dh : HReg) (d : SReg) (s : State) : Host.Outcome State Fault Refusal := pushE e (.rtsnap e dh d) s

/-- `hvst.keep` (R261, R374). -/
def execHvstKeep (e : ECmd) (p : HReg) (k : SReg) (dk : Bool) (w d : SReg) (s : State) : Host.Outcome State Fault Refusal :=
  pushE e (.hvstKeep e p k dk w d) s

/-- `hvst.mass` (R261, R374). -/
def execHvstMass (e : ECmd) (p : HReg) (k : SReg) (dk : Bool) (w d : SReg) (s : State) : Host.Outcome State Fault Refusal :=
  pushE e (.hvstMass e p k dk w d) s

/-- `hcomp` (R261, R375). -/
def execHcomp (e : ECmd) (p : HReg) (s : State) : Host.Outcome State Fault Refusal := pushE e (.hcomp e p) s

/-- `htrunc` (R261, R376). -/
def execHtrunc (e : ECmd) (p : HReg) (l : SReg) (s : State) : Host.Outcome State Fault Refusal := pushE e (.htrunc e p l) s

/-- `lkick` (R262). -/
def execLkick (e : ECmd) (lc pc ar : SReg) (s : State) : Host.Outcome State Fault Refusal := pushE e (.lkick e lc pc ar) s

/-- `esync` (R263). -/
def execEsync (e : ECmd) (s : State) : Host.Outcome State Fault Refusal := pushE e (.esync e) s

/-! ## The events -/

/-- ENGINE_COMMAND_START (R247, R248). -/
def execEngineCommandStart (site : Nat) (eng : Fin 4) (s : State) : Host.Outcome State Fault Refusal := .next (startCmd site eng s)

/-- ENGINE_COMMAND_COMPLETE (R249). -/
def execEngineCommandComplete (site : Nat) (eng : Fin 4) (idx : Nat) (s : State) : Host.Outcome State Fault Refusal :=
  .next (completeCmd site eng (BitVec.ofNat 32 idx) s)

/-- ENGINE_COMMAND_FAIL (R250, R400). -/
def execEngineCommandFail (site : Nat) (eng : Fin 4) (idx : Nat) (s : State) : Host.Outcome State Fault Refusal :=
  .next (match findFly s site eng (BitVec.ofNat 32 idx) with
    | some f =>
      if lockOwed f then s
      else
        let t := failStep site eng (BitVec.ofNat 32 idx) s
        if (findFly t site eng (BitVec.ofNat 32 idx)).isNone then failStep site eng (BitVec.ofNat 32 idx) (spoilColl s site f) else t
    | none => s)

/-- STREAM_RESTART (R250). -/
def execStreamRestart (site : Nat) (eng : Fin 4) (s : State) : Host.Outcome State Fault Refusal := .next (restartStream site eng s)

/-- COLL_CHUNK_ARRIVES (R258, R400). -/
def execCollChunkArrives (site idx chunk : Nat) (s : State) : Host.Outcome State Fault Refusal :=
  .next (chunkStep site (BitVec.ofNat 32 idx) chunk s)

end Sys2Proof.Machine
end

