-- ==== Sys2Proof/Machine/Debug.lean ====
section
/-! DEFINITION. Entry of a user-level interrupt handler (R272, R273), the debugger (R425), trace samples
(R423) and changes of the core clock (R8, R423). -/

namespace Sys2Proof.Machine

open Sys2Proof

/-! ## Entry of a handler -/

/-- An interrupt request may be entered (R272, R269).
DEDUCED (log 98), unsafe. -/
def canEnter (m : Member) : Bool :=
  m.ctl.life == .running && m.ctl.trap.isNone && lRuns m && m.spr.uien && !m.ui.active && !m.ui.reqs.isEmpty

/-- The first stream that holds a request moves it into the list, which has room again (R272). -/
def takeHeldUi (m : Member) : Member :=
  match engines.find? fun e => !(streamOf m e).heldUi.isEmpty with
  | some e =>
    let x := streamOf m e
    let m' := setStream m e { x with heldUi := x.heldUi.drop 1 }
    { m' with ui := { m'.ui with reqs := m'.ui.reqs ++ x.heldUi.take 1 } }
  | none => m

/-- The oldest request is entered: UI_CAUSE, UIACT, and the control column fetches from UI_VECTOR (R272). -/
def enterUi (m : Member) : Member :=
  let pc := m.spr.uiVector.toNat
  takeHeldUi { m with
    spr := { m.spr with uiCause := m.ui.reqs.headD 0 }
    ui := { m.ui with reqs := m.ui.reqs.drop 1, active := true, hold := none, alignTo := none, ref := 0, cyc := 0, count := 0
                      fly := m.ui.fly.map (fun x => { x with due := x.due - m.ui.cyc }), leaving := false
                      fetch := { Fetch.none with pc := pc, stop := false, needBlk := true } } }

/-- UI_ENTRY (R272): a vector that is no first line of a block raises LINE_FORMAT at entry (R273). -/
def execUiEntry (site : Nat) (s : State) : Host.Outcome State Fault Refusal :=
  .next (
    let m := mem s site
    if !canEnter m then s
    else
      let pc := m.spr.uiVector.toNat
      let s := updMem s site enterUi
      if lkEntryOk s site pc then s
      else takeFault s site 1 1 Queue.c.code pc 0 { loop := 0xffff, iter := 0, stagep := 0 } (trapOf .lineFormat))

/-! ## The debugger (R425) -/

/-- Outside a running record a stop takes effect at once; inside one at the next boundary of a kernel
iteration (R269). A member that parks yields first, and the stop is taken after the restore (R407).
DEDUCED (log 69), unsafe. -/
def stopsHere (m : Member) : Bool := m.ctl.life == .running && m.ctl.trap.isNone && (runRcd m).isNone

/-- DBG_STOP: a debugger asks for a stop, and a stop asked for takes effect (R269, R425). -/
def execDbgStop (site : Nat) (s : State) : Host.Outcome State Fault Refusal :=
  .next (
    let m := mem s site
    if !(breakOn s site && isBound m) then s
    else match m.ctl.dbg with
      | .run => updMem s site fun m => { m with ctl := { m.ctl with dbg := .asked 2 0 } }
      | .asked _ _ => if stopsHere m && s.phase == .start then stopAsked s site else s
      | _ => s)

/-- A stopped member goes on; a flag wait it is frozen by is tested again (R425).
DEDUCED (log 97), unsafe. -/
def runOn (m : Member) (d : DbgState) : Member := { m with ctl := { m.ctl with dbg := d, met := none } }

/-- DBG_STEP: one group cycle, or one kernel iteration inside a record (R425). -/
def execDbgStep (site : Nat) (s : State) : Host.Outcome State Fault Refusal :=
  .next (match (mem s site).ctl.dbg with
    | .stopped _ => updMem s site fun m => runOn m .stepping
    | _ => s)

/-- DBG_RESUME (R425), with its trace record (R422). -/
def execDbgResume (site : Nat) (s : State) : Host.Outcome State Fault Refusal :=
  .next (match (mem s site).ctl.dbg with
    | .stopped _ =>
      let s := updMem s site fun m => runOn m .run
      let m := mem s site
      if traceOn s site 3 then
        let t := headTag m
        traceRec s site 6 s.cal t.loop t.iter.toNat t.stagep.toNat (leBytes 8 (groupCycle m))
      else s
    | _ => s)

/-! ## Trace -/

/-- Address of the control column's next instruction. -/
def nextCAddr (m : Member) : Nat :=
  match m.ctl.fetch.lanes.find? fun l => l.q == .c with
  | some l => l.addr
  | none => m.ctl.fetch.pc

/-- TRACE_SAMPLE: in every tick that is a multiple of the period (R422, R423). -/
def execTraceSample (site : Nat) (s : State) : Host.Outcome State Fault Refusal :=
  .next (
    let m := mem s site
    let t := tget TraceSt.reset s.traceSt site
    if !(isBound m && traceOn s site 2 && !t.sampled && s.phase == .fin) ∨
       s.cal % 2 ^ (10 + bits m.spr.traceCtl.toNat 15 12) ≠ 0 then s
    else
      let g := headTag m
      let s := { s with traceSt := tput TraceSt.reset s.traceSt site { t with sampled := true } }
      traceRec s site 3 s.cal g.loop g.iter.toNat g.stagep.toNat
        (leBytes 8 (nextCAddr m % 2 ^ 48) ++ leBytes 1 ((frozenCause m).getD 0)))

/-- A ring whose trace is enabled gets a time base (R423). -/
def clockBase (cause : Nat) (s : State) (n : Nat) : State :=
  traceAfter s n s.cal false (timeBase s cause 0 s.cal)

/-- CORE_CLOCK_CHANGE (R8): only between launches; every trace ring gets its time-base record (R423).
DEDUCED (log 99), safe. -/
def execCoreClockChange (mhz : Nat) (stopped : Bool) (s : State) : Host.Outcome State Fault Refusal :=
  .next (
    if s.launches.any fun l => l.state != .ended then s
    else
      let s := { s with clockMhz := mhz }
      let on := s.traceTab.filterMap fun p => if p.2.en then some p.1 else none
      on.foldl (clockBase (if stopped then 2 else 1)) s)

end Sys2Proof.Machine
end

