-- ==== Sys2Proof/Machine/Held.lean ====
section
/-! DEFINITION. The held-store buffer's entries as they leave (R162), the refill of a replayable fault (R326),
a deferred pin's grant (R307), and agents that wait on a tile slot (R44). -/

namespace Sys2Proof.Machine

open Sys2Proof

/-! ## HELD_ENTRY_LEAVES (R162) -/

/-- The slots an operand still depends on are resolved. -/
def srcResolved {α : Type} : Src α → Bool
  | .now a => a.all fun p => p.1 == 0
  | .tok _ => true

/-- Every slot that an entry's pairings or its qualifier name has resolved. -/
def heldResolved (c : Cap) : Bool :=
  c.ss.all srcResolved && c.vs.all srcResolved &&
  match c.lit with | some l => c.out.any (fun o => o.1 == l.1) | none => true

/-- The qualifier's outcome is for the entry: the first outcome of its slot since the hold (R162). -/
def heldHolds (c : Cap) : Bool := match c.lit with | some l => c.out.find? (fun o => o.1 == l.1) == some l | none => true

/-- A poison that a captured operand is left with. -/
def capPoison (c : Cap) : Option (BitVec 4 × Bool × Access) :=
  match c.ss.findSome? (fun v => match v with | .now a => lonePoison a | .tok _ => none) with
  | some p => some p
  | none => c.vs.findSome? fun v => match v with | .now a => lonePoison a | .tok _ => none

/-- The values of a column instruction's operands; none while one is still to land. -/
def heldVals (c : Cap) : Option (List Word) := c.ss.mapM landedVal

/-- What a held instruction does once it issues, as its description states (R162). -/
def heldEff (s : State) (n : Nat) (c : Cap) : Except Stop State :=
  let val (f : List Word → Except Stop State) : Except Stop State :=
    match heldVals c with
    | some v => f v
    | none => .error (.wait .heldFull)
  let reg (s : State) : State := updMem s n fun m => deferredRegs m c
  match c.ins with
  | .trap _ code => effTrap code s c []
  | .svc _ code => val fun v => .ok (postSvc (reg s) (.mem n) code v c)
  | .halt _ => effHalt n s c []
  | .yield _ => effYield n s c []
  | .wrsr _ _ sn => val fun v => effWrsr n sn s c v
  | .brk _ code => effBrk n code (if breakOn s n then reg s else s) c []
  | .pcsel _ code => effPcsel n code s c []
  | .trmark _ code => effTrmark (.mem n) code s c []
  | .fpost .. | .fset .. | .fdec .. => effUpdate n s c []
  | .farm _ f _ v => val fun r => effFarm n f v s c r
  | .barj _ _ d => effBarj (.mem n) n d s c []
  | .link e _ => val fun v => do
    require (!stampMissed s c) .scheduleMiss
    effLink n e.eng e.ui s c v
  | i => match cmdOf i with
    | some e => effPush n e.eng s c []
    | none => effL n s c []

/-- A discarded entry: a pending destination keeps its value and leaves the pending state; a `pin` still
delivers the value 2 in its turn (R162); none while it must wait for that turn.
DEDUCED (log 72), unsafe. -/
def heldDiscard (s : State) (n : Nat) (c : Cap) : Option State :=
  match c.ins with
  | .pin .. =>
    if turnC (mem s n) c.seq && ldqRoom (mem s n).l.ldqC (mem s n).l.bindC 1 then
      some (updMem s n fun m => doneC (deliverC s.cal m (plain 2)) c.seq)
    else none
  | _ => match c.tok with
    | some t => some (updMem s n fun m =>
      let old := (waitingS m t).head?.map fun r => (sCell m r).alts
      let r := landS s.cal (5, c.addr) m t (old.getD (plain 0)) none []
      { r with fly := { r.fly with landed := m.fly.landed, clash := m.fly.clash } })
    | none => some s

/-- SRC kind and column of an entry's fault (R328). -/
def capFault (s : State) (n : Nat) (c : Cap) (t : Trap) : State :=
  takeFault s n (if c.q = .l then 0 else 1) c.q.code c.q.code c.addr c.tag.iter.toNat c.tag { t with deferred := true }

/-- HELD_ENTRY_LEAVES: the oldest entry issues or is discarded once its conditions have resolved and there is
room where it goes (R162). -/
def heldStep (n : Nat) (s : State) : State :=
  match (mem s n).grd.held with
  | [] => s
  | c :: rest =>
    let gone := updMem s n fun m => { m with grd := { m.grd with held := rest } }
    if !heldResolved c then s
    else if !heldHolds c then (heldDiscard gone n c).getD s
    else if !heldRoom (mem s n) c.ins then s
    else match capPoison c with
      | some p => if replayable p then deferPoison s n p (fun m _ => m) else capFault gone n c (poisonTrap p)
      | none => match heldEff gone n c with
        | .ok t => t
        | .error (.wait _) | .error .stall => s
        | .error (.trap t) => capFault gone n c t

/-- HELD_ENTRY_LEAVES (R162). -/
def execHeldEntryLeaves (site : Nat) (s : State) : Host.Outcome State Fault Refusal := .next (heldStep site s)

/-! ## Refill (R326) -/

/-- A copy of the handle that a refill replaces: it names the page and may not be used. -/
def refillable (vpage : Nat) (h : BitVec 128) : Bool := !hValid h && !hPend h && h != 0 && hVpage h == vpage

/-- A handle after a refill.
DEDUCED (log 71), unsafe. -/
def refillH (vpage : Nat) (new h : BitVec 128) : BitVec 128 := if refillable vpage h then new else h

/-- A captured instruction after a refill. -/
def refillCap (vpage : Nat) (new : BitVec 128) (c : Cap) : Cap :=
  { c with hs := c.hs.map fun p => (p.1, match p.2 with | .now h => .now (refillH vpage new h) | x => x) }

/-- The faulting entry and every later captured copy (R326). -/
def refillEnt (seq vpage : Nat) (new : BitVec 128) (e : LEnt) : LEnt :=
  if seq ≤ e.cap.seq then { e with cap := refillCap vpage new e.cap } else e

/-- The h register of a refilled entry, if it still holds the page (R326). -/
def refillReg (c : Cap) (vpage : Nat) (new : BitVec 128) (m : Member) : Member :=
  match c.hs.head? with
  | some (r, _) => setH m r (refillH vpage new (hReg m r))
  | none => m

/-- The handle through which an entry faulted. -/
def capHandle (c : Cap) : BitVec 128 := (entHandle c).getD 0

/-- A refill of an entry of L: once the walk ends translated, L resumes at the faulting entry (R326). -/
def refillL (s : State) (n seq : Nat) : State :=
  let m := mem s n
  match (m.l.lq ++ m.l.sq).find? (fun e => e.cap.seq == seq) with
  | none => s
  | some e =>
    let h := capHandle e.cap
    let new := translate s (siteCtx s n) (hVa h)
    if !hValid new then s
    else
      let f := refillEnt seq (hVpage h) new
      updMem s n fun m =>
        { refillReg e.cap (hVpage h) new m with
          l := { m.l with lq := m.l.lq.map f, sq := m.l.sq.map f, halts := m.l.halts.filter fun k => k != seq }
          grd := { m.grd with held := m.grd.held.map fun c => if seq ≤ c.seq then refillCap (hVpage h) new c else c } }

/-- A refill of a recorded access, which hardware then reissues (R164, R326). -/
def refillDefer (s : State) (n tok : Nat) : State :=
  match (mem s n).l.defer.find? (fun x => x.1.cap.seq == tok) with
  | none => s
  | some (e, _) =>
    let h := capHandle e.cap
    let new := translate s (siteCtx s n) (hVa h)
    if !hValid new then s
    else updMem s n fun m =>
      { m with l := { m.l with defer := m.l.defer.map fun x =>
          if x.1.cap.seq = tok then ({ x.1 with cap := refillCap (hVpage h) new x.1.cap }, true) else x } }

/-- The VPAGE that a fault of a command or of a lookup instruction records (R326): that of the handle it went through,
whose page may lie before the address. -/
def faultPage (hs : List (BitVec 128)) (va : Nat) : Nat :=
  if hs.any fun h => !hValid h && hVpage h == va / 2 ^ 16 then va / 2 ^ 16
  else ((hs.find? fun h => !hValid h && decide (hVa h ≤ va ∧ va < hVa h + 2 ^ 29)).map hVpage).getD (va / 2 ^ 16)

/-- A refill of a failed command: its handles and those of the queued commands (R326). -/
def refillStream (s : State) (n : Nat) (e : Fin 4) (page : Nat) : State :=
  let new := translate s (siteCtx s n) (page * 2 ^ 16)
  if !hValid new then s
  else
    let vp := page % 2 ^ 38
    let f (h : BitVec 128) : BitVec 128 := refillH (hVpage new) new (refillH vp new h)
    updStream s n e fun x =>
      { x with stopped := x.stopped.map fun g => { g with hs := g.hs.map fun p => (p.1, f p.2) }
               queue := x.queue.map fun c => refillCap (hVpage new) new (refillCap vp new c) }

/-- A refill of a lookup core, whose instruction then runs again from its start (R389). -/
def refillLookup (s : State) (k page : Nat) : State :=
  let c := lookupCore s k
  let new := translate s (siteCtx s c.site) (page * 2 ^ 16)
  if !hValid new then s
  else
    let f (h : BitVec 128) : BitVec 128 := refillH (hVpage new) new (refillH (page % 2 ^ 38) new h)
    setLookup s k { c with h := tmap 0 f c.h, halted := false, work := none }

/-- The page is being moved: its faults are served once that is over (R331). -/
def migrating (s : State) (ctx va : Nat) : Bool :=
  match s.mig with
  | some g => g.ctx == ctx && decide (g.va.toNat / 65536 * 65536 ≤ va ∧ va < g.va.toNat + g.size)
  | none => false

/-- REFILL: the firmware's service of the oldest replayable fault of an agent (R326). A walk that does not
end translated leaves everything as it is, but for the log of a poisoned table (R319). -/
def refillStep (n : Nat) (src : FaultSrc) (s : State) : State :=
  match s.replays.find? (fun r => r.site == n && r.src == src) with
  | none => s
  | some r =>
    let page := match src with
      | .stream e => faultPage (((streamOf (mem s n) e).stopped.map fun f => f.hs.map Prod.snd).getD []) r.va.toNat
      | .lookup k => faultPage ((lookupCore s k).h.map Prod.snd) r.va.toNat
      | _ => r.va.toNat / 2 ^ 16
    let t := match src with
      | .l => refillL s n r.seq
      | .stream e => refillStream s n e page
      | .deferred tok => refillDefer s n tok
      | .lookup k => refillLookup s k page
    let ok := match src with
      | .stream _ | .lookup _ => hValid (translate s (siteCtx s n) (page * 2 ^ 16))
      | _ => t != s
    if migrating s (siteCtx s n) r.va.toNat then s
    else if ok then { t with replays := s.replays.filter fun x => x != r }
    else noteWalk s (siteCtx s n) r.va.toNat

/-- REFILL (R326). -/
def execRefill (site : Nat) (src : FaultSrc) (s : State) : Host.Outcome State Fault Refusal := .next (refillStep site src s)

/-! ## Deferred pins and slot waiters -/

/-- A `tfetch` whose pins were deferred tries again (R257, R307). -/
def tfetchRetry (n : Nat) (s : State) : State :=
  match (streamOf (mem s n) 0).fly.find? (fun f => f.ph == 1 && f.aux.headD 0 == 1 && f.fail.isNone) with
  | some f => match f.cap.ins with
    | .tfetch .. => flyBegin s n 0 f
    | _ => s
  | none => s

/-- PIN_DEFERRED_GRANT (R307). -/
def execPinDeferredGrant (site : Nat) (loader : Bool) (s : State) : Host.Outcome State Fault Refusal :=
  .next (if loader then tfetchRetry site s else pinStep site s)

/-- SLOT_WAITER_PROCEEDS: an engine stream or a lookup core that waits on a tile slot goes on (R44). -/
def execSlotWaiterProceeds (w : Waiter) (s : State) : Host.Outcome State Fault Refusal :=
  .next (match w with
    | .eng n e => streamStep n e s
    | .lookup k => sendStep k s)

end Sys2Proof.Machine
end

