-- ==== Sys2Proof/Machine/Space.lean ====
section
/-! DEFINITION. Memory as the device itself and its firmware reach it: physical addresses, and the virtual
addresses of a context (R315 to R318, R431, R432). What the firmware reads outside the device memory is a
free value; what it writes there is a request that leaves the module. -/

namespace Sys2Proof.Machine

open Sys2Proof

/-- Bytes that nothing constrains. -/
def drawBytes (n : Nat) (s : State) : List Byte × State :=
  ((List.range n).map fun i => (Config.freeWord (s.free + i)).setWidth 8, { s with free := s.free + n })

/-- Pieces of n bytes from an address on that stay within one 32-byte sector. -/
def sectors (va n : Nat) : List (Nat × Nat) :=
  if n = 0 then []
  else (List.range ((va % 32 + n + 31) / 32)).map fun i =>
    let lo := max va ((va / 32 + i) * 32)
    (lo, min (va + n) ((va / 32 + i + 1) * 32) - lo)

/-- The management core as an agent of accesses (R280, R310): nothing it does is unordered here (R279).
DEDUCED (log 158), unsafe. -/
def fwAcc (ctx : Nat) : Acc :=
  { agent := agentNo 4096 0, src := srcId 5 0 0, clk := [], launch := 0, ctx := ctx, site := none }

/-- An access of the firmware within one sector meets mixed-size debug mode: false, and the fault, where it finds
another access in conflict (R280). -/
def fwTouch (ctx pa n va : Nat) (write : Bool) (s : State) : Bool × State :=
  if !anyDebug s then (true, s)
  else
    let a := fwAcc ctx
    match debugHit s a pa n write with
    | some r => (false, clashFault s a r pa va)
    | none => (true, noteAccess s [] { accRec s a [] 0 pa n write with races := [] } true)

/-- The same for every sector of a stretch. -/
def fwTouches (pa n : Nat) (write : Bool) (s : State) : Bool × State :=
  if !anyDebug s then (true, s)
  else (sectors pa n).foldl (fun r p => let (ok, t) := fwTouch 0 p.1 p.2 p.1 write r.2; (r.1 && ok, t)) (true, s)

/-- Bytes at a physical address as the firmware reads them, without a key (R431).
DESIGN CHOICE (log 128), safe. -/
def paRead (pa n : Nat) (s : State) : List Byte × State :=
  match windowOf pa with
  | .dev =>
    match fwTouches pa n false s with
    | (true, s) => ((sectors pa n).flatMap fun p => rawBytes s p.1 p.2, s)
    | (false, s) => drawBytes n s
  | _ => drawBytes n s

/-- A number at a physical address. -/
def paNum (pa n : Nat) (s : State) : Nat × State :=
  let (b, s) := paRead pa n s
  (leNat b, s)

/-- A sector of device memory written by the device under a key. -/
def sectorPut (key : BitVec 512) (pa : Nat) (b : List Byte) (bad : Bool) (s : State) : State :=
  let sec := sectorAs s key pa
  let sec := sec.take (pa % 32) ++ b ++ sec.drop (pa % 32 + b.length)
  let s := (l2Touch s pa true).1
  { s with dmem := setBytes s.dmem (pa / 32 * 32) sec
           dkey := tput none s.dkey (pa / 32) (some key)
           dbad := if b.length = 32 ∨ bad then tput false s.dbad (pa / 32) bad else s.dbad }

/-- Bytes at a physical address written by the device for a function; none while no link carries them. -/
def paPut (func pa : Nat) (b : List Byte) (s : State) : Option State :=
  match windowOf pa with
  | .dev => some (match fwTouches pa b.length true s with
    | (true, s) => devWrite s pa b
    | (false, s) => s)
  | _ => match sendReq s func (reqOf (.device func) 0 0 pa b.length true b) with
    | .ok s _ => some s
    | .reject => some s
    | .wait => none

/-- The same, where nothing waits for the link. -/
def paWrite (func pa : Nat) (b : List Byte) (s : State) : State := (paPut func pa b s).getD s

/-- Physical address of bytes of a context within one page. -/
def ctxPa (s : State) (ctx va n : Nat) (p : Perm) : Except Kind Nat :=
  let h := translate s ctx va
  hAddr h p (va % max 1 (hBytes h)) n

/-- The bytes of one sector of a context, and whether they are poisoned. -/
def ctxPiece (ctx va n : Nat) (s : State) : Except Kind (List Byte × Bool) × State :=
  match ctxPa s ctx va n .r with
  | .error k => (.error k, s)
  | .ok pa =>
    match windowOf pa with
    | .dev =>
      match fwTouch ctx pa n va false s with
      | (false, s) => (.error .illegal, s)
      | (true, s) => (.ok (keyedBytes s (keyOf s (ctxOf s ctx).key.toNat) pa n, tget false s.dbad (pa / 32)), s)
    | _ =>
      let (b, s) := drawBytes n s
      (.ok (b, false), s)

/-- The bytes of a context at virtual addresses. -/
def ctxPieces (ctx : Nat) : List (Nat × Nat) → State → Except Kind (List Byte) × State
  | [], s => (.ok [], s)
  | (va, n) :: r, s =>
    match ctxPiece ctx va n s with
    | (.error k, s) => (.error k, s)
    | (.ok (_, true), s) => (.error .poisonRead, s)
    | (.ok (b, false), s) =>
      match ctxPieces ctx r s with
      | (.ok c, s) => (.ok (b ++ c), s)
      | e => e

/-- Reads n bytes of a context. -/
def ctxRead (ctx va n : Nat) (s : State) : Except Kind (List Byte) × State := ctxPieces ctx (sectors va n) s

/-- Writes one piece of a context; false when the context may not write there. -/
def ctxPutPiece (ctx va : Nat) (b : List Byte) (bad : Bool) (s : State) : Bool × State :=
  match ctxPa s ctx va b.length .w with
  | .error _ => (false, s)
  | .ok pa =>
    match windowOf pa with
    | .dev =>
      match fwTouch ctx pa b.length va true s with
      | (false, s) => (false, s)
      | (true, s) => (true, sectorPut (keyOf s (ctxOf s ctx).key.toNat) pa b bad s)
    | _ =>
      let f := funcOf s ctx
      match sendReq s f (reqOf (.device f) 0 0 pa b.length true b) with
      | .ok s _ => (true, s)
      | _ => (false, s)

/-- Writes the pieces of a list of bytes. -/
def ctxPuts (ctx base : Nat) (b : List Byte) : List (Nat × Nat) → State → Bool × State
  | [], s => (true, s)
  | (va, n) :: r, s =>
    let (ok, s) := ctxPutPiece ctx va ((b.drop (va - base)).take n) false s
    let (ok', s) := ctxPuts ctx base b r s
    (ok && ok', s)

/-- Writes bytes of a context; false when some of them found no writable page. -/
def ctxWrite (ctx va : Nat) (b : List Byte) (s : State) : Bool × State := ctxPuts ctx va b (sectors va b.length) s

/-- Every page of a range of a context has a permission. -/
def pagesHave (s : State) (ctx va n : Nat) (ps : List Perm) : Bool :=
  (List.range ((va % 65536 + n + 65535) / 65536)).all fun i =>
    let h := translate s ctx ((va / 65536 + i) * 65536)
    hValid h && ps.all fun p => hHas h p

/-- A record of the dispatch processor in the terminal ring: SRC kind 5 (R328). -/
def dispatchRec (s : State) (ctx : BitVec 12) (id : Word32) (cause status addr : Nat) : FaultRec :=
  { ctx := ctx, func := recFunc s ctx.toNat, launch := id, src := srcId 5 0 0,
    cause := BitVec.ofNat 8 cause, deferred := false, replay := false, status := BitVec.ofNat 32 status, index := 0,
    loop := 0xffff, stagep := 0, addr := BitVec.ofNat 64 addr }

/-- A number within a list of bytes. -/
def fieldIn (b : List Byte) (off n : Nat) : Nat := leNat ((b.drop off).take n)

end Sys2Proof.Machine
end

