-- ==== Sys2Proof/Machine/Equinox.lean ====
section
/-! DEFINITION. Equinox (R352 to R368): the balance solution, the firing sequence, offsets and ring sizes,
the layout of the rings, the Almanac, and the binding of a graph. -/

namespace Sys2Proof.Machine

open Sys2Proof

/-- Why a graph is refused: the cause of R366 and the item it names. -/
structure GraphRefusal where
  cause : Nat
  named : Nat
  deriving DecidableEq, Repr

/-- A refusal that names nothing. -/
def noItem (cause : Nat) : GraphRefusal := { cause := cause, named := 0xffff }

/-! ## The GRAPH section (R354) -/

/-- What the GRAPH section describes. -/
structure GraphDesc where
  stages : List Stage
  edges : List Edge
  ringab : Nat
  deriving DecidableEq, Repr

/-- Logical site of a 2-byte coordinate: row in [11:8], column in [3:0]. -/
def logicalOf (w : Nat) : Nat := bits w 11 8 * 16 + bits w 3 0

/-- Stage entry at an address. -/
def stageAt (m : Mem) (a : Nat) : Stage :=
  { rcd := BitVec.ofNat 16 (numAt m a 2), fl := numAt m (a + 4) 4
    cores := (List.range (numAt m (a + 2) 1)).map fun i => logicalOf (numAt m (a + 8 + 2 * i) 2), q := 0 }

/-- Edge entry at an address. -/
def edgeAt (m : Mem) (a : Nat) : Edge :=
  { from_ := numAt m a 1, dest := numAt m (a + 1) 1, prod := numAt m (a + 2) 2, cons := numAt m (a + 4) 2,
    bytes := numAt m (a + 8) 4, init := numAt m (a + 12) 4, slots := 0, l2 := false, base := 0, die := 0 }

/-- The GRAPH section of an image copy; without one there are no stages. -/
def graphDesc (s : State) (img : Nat) : GraphDesc :=
  match sectOf s img 10 with
  | none => { stages := [], edges := [], ringab := 0 }
  | some (o, _, _) =>
    let a := img + o
    let ns := numAt s.dmem a 2
    { stages := (List.range ns).map fun i => stageAt s.dmem (a + 32 + 32 * i)
      edges := (List.range (numAt s.dmem (a + 2) 2)).map fun i => edgeAt s.dmem (a + 32 + 32 * ns + 16 * i)
      ringab := numAt s.dmem (a + 4) 4 }

/-- Edges into a stage, in edge order. -/
def insOf (es : List Edge) (k : Nat) : List Nat := (es.zipIdx.filter fun e => e.1.dest == k).map Prod.snd

/-- Edges out of a stage, in edge order. -/
def outsOf (es : List Edge) (k : Nat) : List Nat := (es.zipIdx.filter fun e => e.1.from_ == k).map Prod.snd

/-- A stage's record has TRIPKIND 0 and a yield interval (R353). -/
def stageRecordOk (s : State) (img : Nat) (t : Stage) : Bool :=
  match recordAt s img t.rcd.toNat with
  | some a => numAt s.dmem (a + 3) 1 == 0 && numAt s.dmem (a + 24) 4 != 0
  | none => false

/-- The limits of R353 that hold before the graph is solved. -/
def graphLimits (s : State) (img nargs : Nat) (d : GraphDesc) : Bool :=
  let ns := d.stages.length
  let cores := d.stages.flatMap Stage.cores
  decide (1 ≤ ns ∧ ns ≤ 16 ∧ 1 ≤ d.edges.length ∧ d.edges.length ≤ 32 ∧ 1 ≤ nargs) &&
  decide (cores.eraseDups = cores) &&
  (d.stages.all fun t => decide (1 ≤ t.cores.length ∧ t.cores.length ≤ 12) && stageRecordOk s img t) &&
  ((List.range ns).all fun k => decide ((insOf d.edges k).length ≤ 2 ∧ (outsOf d.edges k).length ≤ 2)) &&
  d.edges.all fun e => decide (e.from_ < ns ∧ e.dest < ns ∧ 1 ≤ e.prod ∧ e.prod ≤ 255 ∧ 1 ≤ e.cons ∧ e.cons ≤ 255 ∧
    e.init ≤ 65535 ∧ 32 ≤ e.bytes ∧ e.bytes ≤ 2 ^ 21 ∧ e.bytes % 32 = 0)

/-! ## The balance solution (R355) -/

/-- A positive rational: numerator and denominator. -/
abbrev Rate := Nat × Nat

/-- A rational in lowest terms. -/
def lowest (a : Rate) : Rate := (a.1 / Nat.gcd a.1 a.2, a.2 / Nat.gcd a.1 a.2)

/-- a * n / d. -/
def scaleRate (a : Rate) (n d : Nat) : Rate := lowest (a.1 * n, a.2 * d)

/-- Assigns rates along edges with exactly one end assigned, the lowest-numbered first. -/
def spreadRates (es : List Edge) : Nat → List (Option Rate) → List (Option Rate)
  | 0, r => r
  | f + 1, r =>
    let at_ (k : Nat) : Option Rate := (r[k]?).getD none
    match es.find? fun e => (at_ e.from_).isSome != (at_ e.dest).isSome with
    | none => r
    | some e =>
      match at_ e.from_, at_ e.dest with
      | some a, _ => spreadRates es f (r.set e.dest (some (scaleRate a e.prod e.cons)))
      | none, some b => spreadRates es f (r.set e.from_ (some (scaleRate b e.cons e.prod)))
      | none, none => r

/-- The repetition vector q (R355). -/
def balance (ns : Nat) (es : List Edge) : Except GraphRefusal (List Nat) :=
  let r := spreadRates es ns ((List.range ns).map fun k => if k = 0 then some (1, 1) else none)
  let v : List Rate := r.filterMap id
  if v.length < ns then .error (noItem 8)
  else
    let at_ (k : Nat) : Rate := (v[k]?).getD (1, 1)
    match es.zipIdx.find? fun e =>
      lowest ((at_ e.1.from_).1 * e.1.prod, (at_ e.1.from_).2) != lowest ((at_ e.1.dest).1 * e.1.cons, (at_ e.1.dest).2) with
    | some e => .error { cause := 8, named := e.2 }
    | none =>
      let den := v.foldl (fun a x => Nat.lcm a x.2) 1
      let w := v.map fun x => x.1 * (den / x.2)
      let g := w.foldl Nat.gcd 0
      .ok (w.map fun x => x / g)

/-! ## The firing sequence (R356) -/

/-- The highest-numbered stage with repetitions left and CONS records on each input. -/
def canFire (es : List Edge) (have_ left : List Nat) (k : Nat) : Bool :=
  left.getD k 0 != 0 && (insOf es k).all fun e =>
    match es[e]? with
    | some x => decide (x.cons ≤ have_.getD e 0)
    | none => true

/-- Records on the edges after a firing. -/
def moveRecords (es : List Edge) (have_ : List Nat) (k : Nat) : List Nat :=
  es.zipIdx.map fun e =>
    let h := have_.getD e.2 0
    let h := if e.1.dest = k then h - e.1.cons else h
    if e.1.from_ = k then h + e.1.prod else h

/-- The sequence of firings of one period: stage and repetition. -/
def play (es : List Edge) (q : List Nat) : Nat → List Nat → List Nat → Except GraphRefusal (List (Nat × Nat))
  | 0, _, _ => .ok []
  | f + 1, have_, left =>
    match (List.range q.length).reverse.find? (canFire es have_ left) with
    | some k =>
      match play es q f (moveRecords es have_ k) (left.set k (left.getD k 0 - 1)) with
      | .ok l => .ok ((k, q.getD k 0 - left.getD k 0) :: l)
      | .error e => .error e
    | none =>
      match (List.range q.length).find? fun k => left.getD k 0 != 0 with
      | some k => .error { cause := 9, named := k }
      | none => .ok []

/-! ## Offsets and ring sizes (R357, R358, R360) -/

/-- A firing with its offset, its end, and the records it takes and gives on each edge: edge and number of
the first record, counted from the initial ones. -/
structure Timed where
  stage : Nat
  rep : Nat
  core : Nat
  offset : Nat
  stop : Nat
  ins : List (Nat × Nat)
  outs : List (Nat × Nat)
  deriving DecidableEq, Repr

/-- What timing carries along the sequence: when each core is free, when each record of an edge not yet
consumed is ready, and records consumed and made of each edge. -/
structure Timing where
  free : Tab Nat
  ready : List (List Nat)
  used : List Nat
  made : List Nat

/-- Times one firing (R357). -/
def timeOne (st : List Stage) (es : List Edge) (t : Timing) (k rep : Nat) : Timed × Timing :=
  let g : Stage := (st[k]?).getD { rcd := 0, fl := 0, cores := [], q := 0 }
  let core := rep % max 1 g.cores.length
  let ins := insOf es k
  let outs := outsOf es k
  let cons (e : Nat) : Nat := ((es[e]?).map Edge.cons).getD 0
  let prod (e : Nat) : Nat := ((es[e]?).map Edge.prod).getD 0
  let hop (e : Nat) : Nat := if ((es[e]?).map Edge.l2).getD false then 512 else 64
  let need (e : Nat) : Nat := (((t.ready.getD e []).take (cons e)).getLast?).getD 0
  let o := ins.foldl (fun a e => max a (need e)) (tget 0 t.free (16 * k + core))
  let stop := o + g.fl
  let ready := t.ready.zipIdx.map fun r =>
    let l := if ins.contains r.2 then r.1.drop (cons r.2) else r.1
    if outs.contains r.2 then l ++ List.replicate (prod r.2) (stop + hop r.2) else l
  ({ stage := k, rep := rep, core := core, offset := o, stop := stop
     ins := ins.map fun e => (e, t.used.getD e 0), outs := outs.map fun e => (e, t.made.getD e 0) },
   { free := tput 0 t.free (16 * k + core) (stop + 16), ready := ready
     used := t.used.zipIdx.map fun u => if ins.contains u.2 then u.1 + cons u.2 else u.1
     made := t.made.zipIdx.map fun u => if outs.contains u.2 then u.1 + prod u.2 else u.1 })

/-- Times a sequence. -/
def timeAll (st : List Stage) (es : List Edge) : Timing → List (Nat × Nat) → List Timed
  | _, [] => []
  | t, (k, rep) :: r =>
    let (x, t) := timeOne st es t k rep
    x :: timeAll st es t r

/-- Slots of an edge held at a tick, a freeing counted before a reservation (R358). -/
def heldAt (l : List Timed) (e : Edge) (i t : Nat) : Nat :=
  let made := ((l.filter fun x => x.outs.any (fun y => y.1 == i) && decide (x.offset ≤ t)).length) * e.prod
  let gone := ((l.filter fun x => x.ins.any (fun y => y.1 == i) && decide (x.stop ≤ t)).length) * e.cons
  e.init + made - gone

/-- S_e (R358). -/
def slotsOf (l : List Timed) (e : Edge) (i : Nat) : Nat :=
  (0 :: l.map Timed.offset).foldl (fun a t => max a (heldAt l e i t)) 1

/-- An entry goes before another in the Almanac (R362): by offset, then stage; the sort is stable. -/
def entryBefore (a b : Timed) : Bool := decide (a.offset < b.offset) || (a.offset == b.offset && decide (a.stage ≤ b.stage))

/-- A stable insertion. -/
def insertTimed (x : Timed) : List Timed → List Timed
  | [] => [x]
  | y :: r => if entryBefore y x then y :: insertTimed x r else x :: y :: r

/-- The firings in Almanac order. -/
def sortTimed (l : List Timed) : List Timed := l.foldl (fun a x => insertTimed x a) []

/-- Ring slot of a record of an edge; 0xFFFF for an absent edge (R360). -/
def slotAt (es : List Edge) (x : Option (Nat × Nat)) : Nat :=
  match x with
  | none => 0xffff
  | some (e, k) => match es[e]? with
    | some y => k % max 1 y.slots
    | none => 0xffff

/-- The Almanac entry of a firing (R362). -/
def firingOf (es : List Edge) (x : Timed) : Firing :=
  { stage := x.stage, core := x.core, rep := x.rep, offset := x.offset
    in0 := slotAt es x.ins[0]?, in1 := slotAt es x.ins[1]?, out0 := slotAt es x.outs[0]?, out1 := slotAt es x.outs[1]? }

/-! ## Rings (R358, R359, R361) -/

/-- The physical site of a logical one in a launch. -/
def physOf (l : Launch) (c : Nat) : Nat := ((l.coords.zip l.sites).find? fun p => p.1 == c).elim 0 Prod.snd

/-- The kind of a ring and the die of its entry (R358, R361). -/
def ringKind (l : Launch) (st : List Stage) (e : Edge) : Edge :=
  let cons := ((st[e.dest]?).map Stage.cores).getD []
  let prods := ((st[e.from_]?).map Stage.cores).getD []
  let die := dieOf (physOf l (cons.headD 0))
  { e with die := die, l2 := !(cons.length == 1 && prods.all fun c => dieOf (physOf l c) == die) }

/-- A number rounded up to a multiple. -/
def roundUp (n k : Nat) : Nat := (n + k - 1) / k * k

/-- Bases of the AB rings, laid out in each consuming member's AB from RINGAB in edge order (R359). -/
def layAb (st : List Stage) (ringab : Nat) : Nat → Tab (Option Nat) → List Edge → Except GraphRefusal (List Edge)
  | _, _, [] => .ok []
  | i, t, e :: r =>
    if e.l2 then (layAb st ringab (i + 1) t r).map fun l => e :: l
    else
      let site := (((st[e.dest]?).map Stage.cores).getD []).headD 0
      let b := (tget none t site).getD ringab
      let stop := b + roundUp (e.slots * e.bytes) 2048
      if bufSize 2 < stop then .error { cause := 10, named := i }
      else (layAb st ringab (i + 1) (tput none t site (some stop)) r).map fun l => { e with base := b } :: l

/-- Bases of the L2 rings from an offset of the ring area on (R359), and the end of the last. -/
def layL2 (va : Nat) : Nat → List Edge → List Edge × Nat
  | o, [] => ([], o)
  | o, e :: r =>
    if e.l2 then
      let o := roundUp o 128
      let (l, z) := layL2 va (o + e.slots * e.bytes) r
      ({ e with base := va + o } :: l, z)
    else
      let (l, z) := layL2 va o r
      (e :: l, z)

/-- The region that argument word 0 names (R361): address and size. -/
def areaOf (w : Nat) : Nat × Nat := (w % 2 ^ 54 / 65536 * 65536, (w % 65536 + 1) * 65536)

/-! ## The solution -/

/-- Solves a graph for a launch: the Almanac with its rings laid out, or why it is refused (R353 to R362).
Limits that show only in the solution are checked where they arise, so that causes come in the order of the steps.
DESIGN CHOICE (log 176), unsafe. -/
def solve (s : State) (l : Launch) (img nargs word : Nat) : Except GraphRefusal Almanac := do
  let d := graphDesc s img
  if !graphLimits s img nargs d then .error (noItem 11)
  let q ← balance d.stages.length d.edges
  if (q.any fun x => decide (65535 < x)) || decide (4096 < q.sum) then .error (noItem 11)
  let seq ← play d.edges q 4097 (d.edges.map Edge.init) q
  let es := d.edges.map (ringKind l d.stages)
  let st := d.stages.zipIdx.map fun t => { t.1 with q := q.getD t.2 0 }
  let timed := timeAll st es
    { free := [], ready := es.map fun e => List.replicate e.init 0, used := es.map fun _ => 0, made := es.map Edge.init } seq
  let period := roundUp (timed.foldl (fun a x => max a x.stop) 0 + 16) 64
  if 2 ^ 32 - 1 < period then .error (noItem 11)
  let es := es.zipIdx.map fun e => { e.1 with slots := slotsOf timed e.1 e.2 }
  let es ← layAb st d.ringab 0 [] es
  let (va, size) := areaOf word
  let (es, stop) := layL2 va (roundUp (576 + 16 * timed.length) 128) es
  if word / 2 ^ 54 ≠ 0 ∨ pagesHave s l.ctx.toNat va size [.r, .w] = false ∨ size < stop then .error (noItem 10)
  .ok { stages := st, edges := es, firings := (sortTimed timed).map (firingOf es), period := period }

/-! ## The ring area (R361, R362) -/

/-- An edge table entry. -/
def edgeBytes (e : Edge) : List Byte :=
  leBytes 8 e.base ++ leBytes 2 e.slots ++ leBytes 1 (bit e.l2) ++ leBytes 1 e.die ++ leBytes 4 0

/-- An Almanac entry. -/
def firingBytes (f : Firing) : List Byte :=
  leBytes 1 f.stage ++ leBytes 1 f.core ++ leBytes 2 f.rep ++ leBytes 4 f.offset ++ leBytes 2 f.in0 ++ leBytes 2 f.in1 ++
  leBytes 2 f.out0 ++ leBytes 2 f.out1

/-- The tables of the ring area. -/
def areaBytes (a : Almanac) (base gen : Nat) : List Byte :=
  (a.edges.flatMap edgeBytes ++ List.replicate 512 0).take 512 ++
  leBytes 8 a.period ++ leBytes 8 base ++ leBytes 4 a.firings.length ++ leBytes 2 gen ++ leBytes 2 a.stages.length ++
  leBytes 2 a.edges.length ++ List.replicate 38 0 ++
  a.firings.flatMap firingBytes

/-- Sets the full and empty flags of each edge (R363); the setter is Equinox (R419). -/
def setRingFlags (s : State) (a : Almanac) : State :=
  a.edges.zipIdx.foldl (fun s e =>
    let s := setFlag s (.dev (4032 + 2 * e.2)) (BitVec.ofNat 32 e.1.init) (srcId 8 0 0) 0
    setFlag s (.dev (4033 + 2 * e.2)) (BitVec.ofNat 32 (e.1.slots - e.1.init)) (srcId 8 0 0) 0) s

/-- Publishes an Almanac: the ring area and the flags (R361, R363). -/
def publishGraph (s : State) (ctx : Nat) (g : Graph) : State :=
  setRingFlags (ctxWrite ctx (areaOf g.areaWord.toNat).1 (areaBytes g.alm g.base g.gen) s).2 g.alm

/-- Binds a solved graph (R363): BASE is T0 + 4,096. -/
def bindGraph (s : State) (l : Launch) (a : Almanac) (word : Nat) : State :=
  let g : Graph := { launch := l.id, alm := a, next := none, base := (l.t0 + 4096) % 2 ^ 64, n0 := 0, gen := 0
                     areaWord := BitVec.ofNat 64 word }
  publishGraph { s with graph := some g } l.ctx.toNat g

/-- The place of a member in a graph (R364): its stage and core index. -/
def placeIn (a : Almanac) (coord : Nat) : Option Place :=
  match a.stages.zipIdx.find? fun t => t.1.cores.contains coord with
  | some (t, k) => some { stage := k, core := t.cores.idxOf coord, fired := 0, behind := 0 }
  | none => none

/-- The record of a graph that cannot be bound (R366). -/
def graphRefused (s : State) (l : Launch) (r : GraphRefusal) : State :=
  postRec s (dispatchRec s l.ctx l.id (kindCode .illegal) (r.named * 65536 + r.cause) 0)

/-! ## Rebinding (R367) -/

/-- A 32-byte piece of a ring record, with its poison. -/
def ringPiece (s : State) (l : Launch) (st : List Stage) (e : Edge) (off : Nat) : (List Byte × Bool) × State :=
  if e.l2 then
    match ctxPiece l.ctx.toNat (e.base + off) 32 s with
    | (.ok x, s) => (x, s)
    | (.error _, s) => ((List.replicate 32 0, true), s)
  else
    let n := physOf l ((((st[e.dest]?).map Stage.cores).getD []).headD 0)
    let m := mem s n
    ((bytesAt m.buf.ab (e.base + off) 32, tget false m.buf.bad (badKey 2 (e.base + off))), s)

/-- Puts a piece into a ring. -/
def putRingPiece (l : Launch) (st : List Stage) (e : Edge) (off : Nat) (x : List Byte × Bool) (s : State) : State :=
  if e.l2 then (ctxPutPiece l.ctx.toNat (e.base + off) x.1 x.2 s).2
  else
    let n := physOf l ((((st[e.dest]?).map Stage.cores).getD []).headD 0)
    updMem s n fun m => { m with buf := { m.buf with
      ab := setBytes m.buf.ab (e.base + off) x.1, bad := tput false m.buf.bad (badKey 2 (e.base + off)) x.2 } }

/-- Offsets of the pieces of the record in a slot. -/
def slotPieces (e : Edge) (slot : Nat) : List Nat := (List.range (e.bytes / 32)).map fun i => slot % max 1 e.slots * e.bytes + 32 * i

/-- The pieces of the INIT records of an edge at the boundary of period n, in record order (R360). -/
def takeRecords (l : Launch) (a : Almanac) (e : Edge) (n : Nat) (s : State) : List (List Byte × Bool) × State :=
  let q := ((a.stages[e.from_]?).map Stage.q).getD 0
  ((List.range e.init).flatMap fun i => slotPieces e (n * q * e.prod + i)).foldl (fun (p : List (List Byte × Bool) × State) off =>
    let (x, s) := ringPiece p.2 l a.stages e off
    (p.1 ++ [x], s)) ([], s)

/-- Moves the records of every edge to slots 0 to INIT - 1 of the new rings: all are read before any is
written. -/
def moveRings (l : Launch) (old new : Almanac) (n : Nat) (s : State) : State :=
  let (xs, s) := old.edges.foldl (fun (p : List (List (List Byte × Bool)) × State) e =>
    let (x, s) := takeRecords l old e n p.2
    (p.1 ++ [x], s)) ([], s)
  (new.edges.zip xs).foldl (fun s p =>
    (((List.range p.1.init).flatMap (slotPieces p.1)).zip p.2).foldl (fun s y => putRingPiece l new.stages p.1 y.1 y.2 s) s) s

/-- The image matches the bound graph in its stages, edges and INIT values (R367).
DEDUCED (log 82), unsafe. -/
def sameGraph (a : Almanac) (d : GraphDesc) : Bool :=
  (a.stages.map fun t => (t.rcd, t.cores)) == (d.stages.map fun t => (t.rcd, t.cores)) &&
  (a.edges.map fun e => (e.from_, e.dest, e.bytes, e.init)) == (d.edges.map fun e => (e.from_, e.dest, e.bytes, e.init))

/-- The tick of the first period boundary of a graph at least some ticks after now. -/
def boundaryAfter (g : Graph) (t : Nat) : Nat :=
  if t ≤ g.base then g.base else g.base + roundUp (t - g.base) (max 1 g.alm.period)

/-- GRAPH_REBIND (R367): Equinox solves the graph of a relocated copy into its inactive buffer, whether the bound launch
waits for T0, runs or is saved; a refusal is reported and the old binding runs on.
DEDUCED (log 82), unsafe. -/
def rebindGraph (s : State) (id : Word32) (img : Nat) : State :=
  match s.graph, findLaunch s id with
  | some g, some l =>
    if g.launch ≠ id ∨ l.state = .ended ∨ sameGraph g.alm (graphDesc s img) = false then s
    else
      match solve s l img 1 g.areaWord.toNat with
      | .error r => graphRefused s l r
      | .ok a => { s with graph := some { g with next := some (a, s.cal + 65536) } }
  | _, _ => s

/-- GRAPH_REBIND_SWITCH (R367): in the tick of the first boundary that is late enough, while the launch runs; one that
is being pre-empted or is saved finds it on the restored timeline (R368). -/
def rebindSwitch (s : State) (id : Word32) : State :=
  match s.graph, findLaunch s id with
  | some g, some l =>
    match g.next with
    | some (a, after) =>
      let t := boundaryAfter g after
      if g.launch ≠ id ∨ t ≠ s.cal ∨ s.phase ≠ .start ∨ l.state ≠ .running ∨ l.preempt.isSome then s
      else
        let n := g.n0 + (t - g.base) / max 1 g.alm.period
        let s := moveRings l g.alm a n s
        let g' : Graph := { g with alm := a, next := none, base := t, n0 := 0, gen := (g.gen + 1) % 65536 }
        let s := l.sites.foldl (fun s k => updMem s k fun m =>
          { m with place := m.place.map fun p => { p with fired := 0, behind := 0 } }) s
        publishGraph { s with graph := some g' } l.ctx.toNat g'
    | none => s
  | _, _ => s

/-- GRAPH_REBIND (R367). -/
def execGraphRebind (launch : Word32) (img : Nat) (s : State) : Host.Outcome State Fault Refusal := .next (rebindGraph s launch img)

/-- GRAPH_REBIND_SWITCH (R367). -/
def execGraphRebindSwitch (launch : Word32) (s : State) : Host.Outcome State Fault Refusal := .next (rebindSwitch s launch)

end Sys2Proof.Machine
end

