-- ==== Sys2Proof/Machine/Image.lean ====
section
/-! DEFINITION. The image of a launch as the firmware reads it (R103 to R105, R336, R340, R354, R464): the
checks by which it is refused, the placement of its gang (R339) and its relocation (R340). -/

namespace Sys2Proof.Machine

open Sys2Proof

/-- A section descriptor (R103). -/
structure Sect where
  kind : Nat
  off : Nat
  size : Nat
  count : Nat
  deriving DecidableEq, Repr

/-- Section descriptors of an image. -/
def sectsOf (b : List Byte) : List Sect :=
  (List.range (fieldIn b 10 2)).map fun i =>
    let d := 64 + 16 * i
    { kind := fieldIn b d 4, off := fieldIn b (d + 4) 4, size := fieldIn b (d + 8) 4, count := fieldIn b (d + 12) 4 }

/-- The section of a kind. -/
def sectIn (b : List Byte) (k : Nat) : Option Sect := (sectsOf b).find? fun x => x.kind == k

/-- Size of an image: to the end of its last section (R103). -/
def imageSize (b : List Byte) : Nat :=
  (sectsOf b).foldl (fun a x => max a (x.off + x.size)) (64 + 16 * fieldIn b 10 2)

/-- Bytes that are all zero. -/
def allZero (b : List Byte) (off n : Nat) : Bool := ((b.drop off).take n).all fun x => x == 0

/-- The image at a virtual address of a context, every page of which must be readable (R103, R336). -/
def readImage (ctx va : Nat) (s : State) : Except Kind (List Byte) × State :=
  match ctxRead ctx va 64 s with
  | (.error k, s) => (.error k, s)
  | (.ok h, s) =>
    match ctxRead ctx va (64 + 16 * fieldIn h 10 2) s with
    | (.error k, s) => (.error k, s)
    | (.ok h, s) => ctxRead ctx va (imageSize h) s

/-- Logical rows and columns of GANG (R103). -/
def gangShape (b : List Byte) : Nat × Nat :=
  let g := fieldIn b 8 2
  (bits g 11 8, if bits g 3 0 = 0 then 16 else bits g 3 0)

/-- The gang is given as a list. -/
def gangList (b : List Byte) : Bool := bits (fieldIn b 8 2) 15 15 == 1

/-- Logical coordinates of the members in member order (R339): a rectangle in row-major order, or the list. -/
def gangCoordsOf (b : List Byte) : List Nat :=
  if gangList b then
    match sectIn b 12 with
    | some x => (List.range x.count).map fun i => logicalOf (fieldIn b (x.off + 2 * i) 2)
    | none => []
  else
    let (r, c) := gangShape b
    (List.range r).flatMap fun i => (List.range c).map fun j => 16 * i + j

/-! ## Checks of cause 1 -/

/-- The header and the section table (R103). -/
def headerOk (b : List Byte) : Bool :=
  let l := sectsOf b
  let n (k : Nat) : Nat := l.countP fun x => x.kind == k
  fieldIn b 0 4 == 0x39584e4f && fieldIn b 4 2 == 1 && fieldIn b 6 2 / 4 == 0 && fieldIn b 6 2 % 2 == 0 &&
  bits (fieldIn b 8 2) 14 12 == 0 && bits (fieldIn b 8 2) 7 4 == 0 && allZero b 25 39 &&
  (l.all fun x => decide (1 ≤ x.kind ∧ x.kind ≤ 12 ∧ x.off + x.size < 2 ^ 32)) &&
  ([1, 3, 4, 6].all fun k => n k == 1) && n 12 == bit (gangList b) &&
  (l.all fun x => n x.kind == 1) &&
  (match sectIn b 1 with | some x => x.off % 32 == 0 && x.size % 32 == 0 | none => false)

/-- The entries of a section that is absent or whose entries all pass; a count of entries that disagrees with the
section's size is not looked at.
DESIGN CHOICE (log 145), unsafe. -/
def entriesOk (b : List Byte) (k w : Nat) (n : Sect → Nat) (f : Nat → Bool) : Bool :=
  match sectIn b k with
  | none => true
  | some x => (List.range (n x)).all fun i => f (x.off + w * i)

/-- LOOPTABLE entries (R104). -/
def loopTableOk (b : List Byte) : Bool :=
  entriesOk b 3 8 (fun x => x.size / 8) fun a => bits (fieldIn b a 8) 9 8 != 3 && fieldIn b a 8 / 1024 == 0

/-- RECORDS entries (R104). -/
def recordsOk (b : List Byte) : Bool :=
  entriesOk b 4 64 (fun x => x.size / 64) fun a =>
    let k := fieldIn b (a + 3) 1
    let t := fieldIn b (a + 4) 4
    decide (1 ≤ fieldIn b (a + 2) 1 ∧ fieldIn b (a + 2) 1 ≤ 8) && allZero b (a + 50) 2 &&
    (k == 0 || (k == 1 && decide (1 ≤ t ∧ t ≤ 63)) || (k == 2 && decide (t ≤ 15)))

/-- A live buffer range (R105). -/
def rangeOk (b : List Byte) (a : Nat) : Bool :=
  let k := fieldIn b a 1
  decide (k ≤ 2) && allZero b (a + 1) 3 && decide ((fieldIn b (a + 4) 2 + fieldIn b (a + 6) 2) * 2048 ≤ bufSize (k + 1))

/-- YIELDS entries (R105); RANGES outside the section is no refusal, and bytes beyond the image read as zero.
DESIGN CHOICE (log 167), unsafe. -/
def yieldsOk (b : List Byte) : Bool :=
  let base := ((sectIn b 5).map Sect.off).getD 0
  entriesOk b 5 32 Sect.count fun a =>
    let n := fieldIn b (a + 2) 2
    decide (n ≤ 24) && allZero b (a + 26) 6 &&
    (List.range n).all fun i => rangeOk b (base + fieldIn b (a + 4) 4 + 8 * i)

/-- A RELOC entry: word, row position, column position, kind (R99). -/
structure Reloc where
  word : Nat
  row : Nat
  col : Nat
  kind : Nat
  deriving DecidableEq, Repr

/-- RELOC entries in order. -/
def relocsOf (b : List Byte) : List Reloc :=
  match sectIn b 6 with
  | none => []
  | some x => (List.range (x.size / 8)).map fun i =>
    let a := x.off + 8 * i
    { word := fieldIn b a 4, row := fieldIn b (a + 4) 1, col := fieldIn b (a + 5) 1, kind := fieldIn b (a + 6) 1 }

/-- Two 4-bit fields share a bit. -/
def fieldsMeet (a b : Nat) : Bool := decide (a < b + 4 ∧ b < a + 4)

/-- Two entries name a bit in common. -/
def relocsMeet (x y : Reloc) : Bool :=
  x.word == y.word && (fieldsMeet x.row y.row || fieldsMeet x.row y.col || fieldsMeet x.col y.row || fieldsMeet x.col y.col)

/-- No two entries of a list name a bit in common. -/
def relocsApart : List Reloc → Bool
  | [] => true
  | x :: r => (r.all fun y => !relocsMeet x y) && relocsApart r

/-- The image can be relocated (R340). -/
def relocsOk (b : List Byte) : Bool :=
  let l := relocsOf b
  decide (l.length ≤ 65536) && relocsApart l &&
  entriesOk b 6 8 (fun x => x.size / 8) (fun a => allZero b (a + 7) 1) &&
  (l.all fun x => x.word % 4 == 0 && decide (x.row ≤ 28 ∧ x.col ≤ 28 ∧ x.kind ≤ 1) && !fieldsMeet x.row x.col &&
    match sectIn b 1 with
    | some t => decide (t.off ≤ x.word ∧ x.word + 4 ≤ t.off + t.size)
    | none => false)

/-- BUFINIT entries (R464). -/
def bufInitOk (b : List Byte) : Bool :=
  let dsize := ((sectIn b 2).map Sect.size).getD 0
  entriesOk b 8 16 (fun x => x.size / 16) fun a =>
    let k := fieldIn b a 4
    let addr := fieldIn b (a + 4) 4
    let len := fieldIn b (a + 12) 4
    decide (k ≤ 2 ∧ fieldIn b (a + 8) 4 + len ≤ dsize ∧ addr + len ≤ bufSize (k + 1)) && (k != 2 || (addr % 4 == 0 && len % 4 == 0))

/-- FLAGS, SYMBOLS and GANGLIST (R464). -/
def listsOk (b : List Byte) : Bool :=
  entriesOk b 9 8 (fun x => x.size / 8) (fun a => decide (fieldIn b a 4 ≤ 1023)) &&
  (match sectIn b 11 with | some x => x.size == 64 + 80 * x.count | none => true) &&
  (match sectIn b 12 with | some x => decide (1 ≤ x.count) | none => true) &&
  entriesOk b 12 2 Sect.count (fun a => let w := fieldIn b a 2; bits w 15 12 == 0 && bits w 7 4 == 0 && decide (bits w 11 8 ≤ 9)) &&
  decide ((gangCoordsOf b).eraseDups = gangCoordsOf b)

/-- The GRAPH section's zero fields, and its sites among the gang's (R354, R340).
DEDUCED (log 76), unsafe. -/
def graphOk (b : List Byte) : Bool :=
  match sectIn b 10 with
  | none => true
  | some x =>
    let ns := fieldIn b x.off 2
    allZero b (x.off + 8) 24 &&
    ((List.range ns).all fun i =>
      let a := x.off + 32 + 32 * i
      allZero b (a + 3) 1 &&
      (List.range (min 12 (fieldIn b (a + 2) 1))).all fun k => (gangCoordsOf b).contains (logicalOf (fieldIn b (a + 8 + 2 * k) 2))) &&
    (List.range (fieldIn b (x.off + 2) 2)).all fun i => allZero b (x.off + 32 + 32 * ns + 16 * i + 6) 2

/-- Logical coordinate that a RELOC entry's fields hold. -/
def relocCoord (b : List Byte) (r : Reloc) : Nat :=
  let w := fieldIn b r.word 4
  bits w (r.row + 3) r.row * 16 + bits w (r.col + 3) r.col

/-- Every coordinate of the image is of its gang (R340). -/
def coordsOk (b : List Byte) : Bool := (relocsOf b).all fun r => (gangCoordsOf b).contains (relocCoord b r)

/-- The image passes every check of cause 1 (R336).
DEDUCED (log 75), safe. -/
def imageOk (b : List Byte) : Bool :=
  headerOk b && loopTableOk b && recordsOk b && yieldsOk b && relocsOk b && bufInitOk b && listsOk b && graphOk b && coordsOk b

/-- The records are within the capability list's limits (R336 cause 3, R435). -/
def boundsOk (b : List Byte) : Bool :=
  entriesOk b 4 64 (fun x => x.size / 64) fun a => decide (fieldIn b (a + 20) 4 ≤ 2 ^ 20 ∧ fieldIn b (a + 40) 8 ≤ 2 ^ 24)

/-- Header's graph bit. -/
def imageGraph (b : List Byte) : Bool := bits (fieldIn b 6 2) 1 1 == 1

/-! ## Placement (R339) -/

/-- The enabled sites of a row from a column on. -/
def rowFrom (row col : Nat) : List Nat :=
  ((List.range 16).filter fun c => decide (col ≤ c) && siteEnabled (16 * row + c)).map fun c => 16 * row + c

/-- The sites of a rectangle on a physical origin; none where a row has too few. -/
def placeRect (pr pc rows cols : Nat) : Option (List Nat) :=
  if pr + rows ≤ 10 ∧ (List.range rows).all (fun r => decide (cols ≤ (rowFrom (pr + r) pc).length)) then
    some ((List.range rows).flatMap fun r => (rowFrom (pr + r) pc).take cols)
  else none

/-- A site that no launch holds (R339). -/
def siteFree (s : State) (n : Nat) : Bool :=
  siteEnabled n && (bindOf s n).state == 0 &&
  !s.launches.any fun l => l.sites.contains n && match l.state with | .bound | .running | .saving | .armed => true | _ => false

/-- The physical origin by which the sites are a placement of the image's gang. -/
def placeOrigin (b : List Byte) (sites : List Nat) : Option Nat :=
  if gangList b then
    if sites.length = (gangCoordsOf b).length ∧ sites.eraseDups = sites then sites.head? else none
  else
    let (r, c) := gangShape b
    let pr := siteRow (sites.headD 0)
    ((List.range 16).reverse.find? fun pc => placeRect pr pc r c == some sites && !sites.isEmpty).map fun pc => 16 * pr + pc

/-- GANG_ORIGIN of a site (R45). -/
def siteWord (n : Nat) : Nat := siteRow n * 256 + siteCol n

/-! ## Relocation (R340) -/

/-- A 4-bit field of a word replaced. -/
def putNibble (w pos v : Nat) : Nat := w - bits w (pos + 3) pos * 2 ^ pos + v % 16 * 2 ^ pos

/-- Bytes with a number written at an offset. -/
def putIn (b : List Byte) (off n v : Nat) : List Byte := b.take off ++ leBytes n v ++ b.drop (off + n)

/-- One RELOC entry applied. -/
def relocOne (coords sites : List Nat) (b : List Byte) (r : Reloc) : List Byte :=
  let c := relocCoord b r
  match (coords.zip sites).find? fun p => p.1 == c with
  | some (_, n) =>
    let w := putNibble (putNibble (fieldIn b r.word 4) r.row (siteRow n)) r.col (siteCol n)
    putIn b r.word 4 w
  | none => b

/-- The relocated copy of an image for a placement. -/
def relocate (b : List Byte) (sites : List Nat) : List Byte :=
  let c := (relocsOf b).foldl (relocOne (gangCoordsOf b) sites) b
  putIn c 6 2 (fieldIn c 6 2 / 2 * 2 + 1)

end Sys2Proof.Machine
end

