-- ==== Sys2Proof/Machine/Launch.lean ====
section
/-! DEFINITION. From a doorbell to T0 (R333 to R345): work queues, the choice and placement of a launch, its
bind records, the bind and the load of its members. -/

namespace Sys2Proof.Machine

open Sys2Proof

/-! ## Work queues (R333, R334, R338) -/

/-- A work queue. -/
def queueOf (s : State) (q : Nat) : WorkQueue := tget WorkQueue.reset s.queues q

/-- The state with a work queue replaced. -/
def setQueue (s : State) (q : Nat) (w : WorkQueue) : State := { s with queues := tput WorkQueue.reset s.queues q w }

/-- The host-visible queue that a doorbell of a function names (R334, R402). -/
def doorbellQueue (s : State) (func idx : Nat) : Option Nat :=
  ((List.range 2048).filter fun q => (queueOf s q).func.toNat == func)[idx]?

/-- A doorbell moves the tail of its queue (R334, R402); not while the function is being reset (R404). -/
def ringDoorbell (s : State) (func idx : Nat) (t : Word32) : State :=
  match doorbellQueue s func idx with
  | some q => if s.flr.contains func then s else setQueue s q (acceptTail (queueOf s q) t)
  | none => s

/-- DOORBELL (R334). -/
def execDoorbell (func idx : Nat) (tail : Word32) (s : State) : Host.Outcome State Fault Refusal := .next (ringDoorbell s func idx tail)

/-- A device flag as a tenant has it: its own is resident while the tenant runs (R351). -/
def tenantFlag (s : State) (func k : Nat) : Word32 :=
  if func = s.tenant then flagVal s (.dev k)
  else ((tget none s.tenantSaves func).map fun x => tget 0 x.flags k).getD 0

/-- The queue holds a record that the firmware has not taken. -/
def hasRecord (w : WorkQueue) : Bool := w.en && w.head != w.tail

/-- The effective priority class of a queue's head launch.
DEDUCED (log 120), unsafe. -/
def classOf (w : WorkQueue) : Nat := min 7 (w.prio.toNat + w.raised)

/-- A queue whose head launch has waited more than 2^30 ticks since it came or was raised last: one class up (R338). -/
def raiseOne (cal : Nat) (w : WorkQueue) : WorkQueue :=
  match w.since with
  | some t =>
    if hasRecord w ∧ t + 2 ^ 30 < cal ∧ classOf w < 7 then { w with raised := w.raised + 1, since := some (t + 2 ^ 30) } else w
  | none => w

/-- LAUNCH_CLASS_RAISE (R338): a launch that has waited more than 2^30 ticks is raised one class. -/
def raiseClass (s : State) (q : Nat) : State := setQueue s q (raiseOne s.cal (queueOf s q))

/-- Every raise that is due is made before a launch is chosen (R338). -/
def raiseDue (s : State) : State :=
  { s with queues := tmap WorkQueue.reset (fun w => (List.range 7).foldl (fun w _ => raiseOne s.cal w) w) s.queues }

/-- LAUNCH_CLASS_RAISE (R338). -/
def execLaunchClassRaise (queue : Nat) (s : State) : Host.Outcome State Fault Refusal := .next (raiseClass s queue)

/-! ## The launch record (R335) -/

/-- Fields of a launch record. -/
structure LaunchRec where
  ctx : Nat
  graph : Nat
  mode : Nat
  nargs : Nat
  image : Nat
  args : Nat
  flagInit : Nat
  nflag : Nat
  sleep : Nat
  watchdog : Nat
  done : Nat
  barrier : Nat
  nbar : Nat
  /-- its zero fields are zero and its counts in range (R336 cause 6) -/
  sound : Bool
  deriving DecidableEq, Repr

/-- A launch record from its 128 bytes. -/
def launchRec (b : List Byte) : LaunchRec :=
  let n (o w : Nat) : Nat := fieldIn b o w
  { ctx := n 0 2 % 4096, graph := n 2 1, mode := n 3 1, nargs := n 4 2, image := n 8 8, args := n 16 8, flagInit := n 24 8,
    nflag := n 32 4, sleep := n 36 4, watchdog := n 40 8, done := n 48 8, barrier := n 56 8, nbar := n 64 4
    sound := decide (n 0 2 < 4096 ∧ n 3 1 < 32 ∧ n 4 2 ≤ 63 ∧ n 32 4 ≤ 1024 ∧ n 64 4 ≤ 64) && allZero b 6 2 &&
      allZero b 68 60 }

/-- 8-byte numbers at a virtual address of a context; where the record says so, address 0 stands for none (R335). -/
def ctxWords (ctx va n : Nat) (orNone : Bool) (s : State) : Except Kind (List Nat) × State :=
  if orNone && va == 0 || n == 0 then (.ok [], s)
  else match ctxRead ctx va (8 * n) s with
    | (.error k, s) => (.error k, s)
    | (.ok b, s) => (.ok ((List.range n).map fun i => fieldIn b (8 * i) 8), s)

/-- A barrier registration is well formed (R349). -/
def barOk (w : Nat) : Bool :=
  let n := w % 65536
  n % 2 == 0 && decide (n ≤ 4094 ∧ 1 ≤ bits w 31 16 ∧ 1 ≤ bits w 39 32 ∧ w / 2 ^ 40 = 0)

/-- A launch of a record, with nothing placed. -/
def newLaunch (q : Nat) (w : WorkQueue) (r : LaunchRec) : Launch :=
  { id := BitVec.ofNat 32 (q * 2 ^ 20 + w.head.toNat % 2 ^ 20), queue := q, ctx := BitVec.ofNat 12 r.ctx, func := w.func
    graph := r.graph == 1, mode := BitVec.ofNat 8 r.mode, imgVA := BitVec.ofNat 64 r.image, doneVA := BitVec.ofNat 64 r.done
    watchdog := if r.watchdog = 0 then 2 ^ 40 else r.watchdog, sleep := r.sleep, barrierVA := BitVec.ofNat 64 r.barrier, bars := [], sites := []
    coords := [], rows := 0, cols := 0, state := .ended, t0 := 0, deadline := 0, status := 1, cause := 0, endTick := 0, owed := true
    order := 0, preempt := none, ts := none, te := none, kept := [], areas := [], clk := [], counts := [], watts := 0 }

/-- A launch that the firmware refuses (R336): no member is bound, and its completion word is owed. -/
def refuseLaunch (s : State) (l : Launch) (cause : Nat) : State :=
  { s with launches := s.launches.filter (fun x => x.id != l.id) ++
      [{ l with state := .ended, status := 1, cause := BitVec.ofNat 8 cause, endTick := s.cal, owed := true }] }

/-- The cause of R336 by which the record is refused before its image is read.
DESIGN CHOICE (log 74), unsafe. -/
def recordCause (s : State) (w : WorkQueue) (r : LaunchRec) : Option Nat :=
  let c := ctxOf s r.ctx
  if !r.sound then some 6
  else if !c.v ∨ c.func ≠ w.func then some 5
  else if r.image % 32 ≠ 0 then some 1
  else none

/-- CLASS differs from the image header (R336 cause 4). -/
def classBad (b : List Byte) (r : LaunchRec) : Bool := bit (imageGraph b) != r.graph

/-- The cause by which the image is refused; a launch that the power cap has no room for, even on an idle module, has
cause 2 (R436). -/
def imageCause (b : List Byte) (r : LaunchRec) (p : Placement) (cap : Nat) : Option Nat :=
  if ((sectIn b 12).map Sect.count).getD 0 > 152 then some 2
  else if !imageOk b then some 1
  else if classBad b r then some 4
  else if p.sites = [] ∨ cap < p.watts then some 2
  else if !boundsOk b then some 3
  else none

/-! ## Arming (R342) -/

/-- Writes a bind record; the typed buffers of a site that goes to another context are scrubbed (R51).
DEDUCED (log 78), unsafe. -/
def armSite (s : State) (n : Nat) (b : Bind) : State :=
  let s := if (bindOf s n).ctx = b.ctx then s else updMem s n fun m =>
    { m with buf := { m.buf with wb := [], ab := [], cb := [], bad := [] } }
  { s with slotTable := tput Bind.reset s.slotTable n b }

/-- The bind record of member i of a launch. -/
def bindRec (l : Launch) (b : List Byte) (p : Placement) (origin qidx sleep args nargs nflag i : Nat) (restore : Bool) : Bind :=
  let list := gangList b
  let (r, c) := gangShape b
  let lpos := if list then i else siteWord ((l.coords[i]?).getD 0)
  { launch := l.id, ctx := l.ctx, qidx := BitVec.ofNat 8 qidx
    mode := BitVec.ofNat 8 (l.mode.toNat % 16 + 16 * bit l.graph + 32 * bit restore)
    t0 := BitVec.ofNat 64 p.t0, deadline := BitVec.ofNat 64 l.deadline, image := BitVec.ofNat 64 p.imgPA
    ltab := BitVec.ofNat 64 (p.imgPA + ((sectIn b 3).map Sect.off).getD 0), args := BitVec.ofNat 64 args
    origin := BitVec.ofNat 16 (siteWord origin), shape := BitVec.ofNat 16 (r * 256 + c % 16 + 32768 * bit list)
    lpos := BitVec.ofNat 16 lpos, nargs := BitVec.ofNat 16 nargs, sleep := BitVec.ofNat 32 sleep
    nflag := BitVec.ofNat 16 nflag, state := 1 }

/-- Arms the sites of a launch. -/
def armAll (s : State) (l : Launch) (f : Nat → Bind) : State :=
  l.sites.zipIdx.foldl (fun s x => armSite s x.1 (f x.2)) s

/-- Sub-array idle time of a record, or the smaller one the firmware chose to stay under the power cap
(R335, R436). -/
def sleepOf (r : Nat) (p : Placement) : Nat :=
  let n := if r = 2 ^ 32 - 1 then 4096 else r
  match p.sleep with
  | some k => if 0 < k ∧ (n = 0 ∨ k < n) then k else n
  | none => n

/-- The relocated copy of an image that is kept for a placement (R340). -/
def cachedCopy (s : State) (ctx va : Nat) (sites : List Nat) : Option ImageCopy :=
  s.copies.find? fun c => c.ctx == ctx && c.va == va && c.sites == sites

/-- Copies that a write of n bytes does not overwrite.
DESIGN CHOICE (log 150), safe. -/
def keptCopies (pa n : Nat) (l : List ImageCopy) : List ImageCopy :=
  l.filter fun c => decide (c.pa + c.size ≤ pa ∨ pa + n ≤ c.pa)

/-- The dispatch loader writes the relocated copy of an image and keeps it (R340). -/
def writeCopy (s : State) (ctx va : Nat) (b : List Byte) (p : Placement) : State :=
  let s := paWrite 0 p.imgPA (relocate b p.sites) s
  { s with copies := keptCopies p.imgPA b.length s.copies ++
      [{ ctx := ctx, va := va, sites := p.sites, pa := p.imgPA, size := b.length }] }

/-- The parameter block is written. -/
def writeParams (s : State) (pa : Nat) (l : List Nat) : State :=
  let s := paWrite 0 pa (l.flatMap (leBytes 8)) s
  { s with copies := keptCopies pa (8 * l.length) s.copies }

/-- A launch whose record and image stand: relocated copy, parameter block and bind records (R340, R342). Of an image
whose copy is kept, the bytes are those of the copy and nothing is written. -/
def placeLaunch (s : State) (l : Launch) (r : LaunchRec) (b : List Byte) (p : Placement) (copied : Bool) (args flags bars : List Nat) : State :=
  match placeOrigin b p.sites with
  | none => s
  | some origin =>
    if p.sites.all (siteFree s) = false ∨ p.imgPA % 32 ≠ 0 then s
    else
      let (rows, cols) := gangShape b
      let l := { l with bars := bars, sites := p.sites, coords := gangCoordsOf b, rows := rows, cols := cols, state := .armed
                        t0 := p.t0, deadline := p.t0 + l.watchdog, status := 0, owed := false, order := s.nLaunch
                        watts := p.watts }
      let s := if copied then s else writeCopy s l.ctx.toNat l.imgVA.toNat b p
      let s := writeParams s p.argPA (args ++ flags)
      let s := armAll s l fun i =>
        bindRec l b p origin (tget 0 s.qidx l.ctx.toNat) (sleepOf r.sleep p) p.argPA args.length flags.length i false
      let s := setQueue s l.queue { queueOf s l.queue with head := (queueOf s l.queue).head + 1, raised := 0, since := none }
      { s with launches := s.launches ++ [l], nLaunch := s.nLaunch + 1 }

/-- The firmware is done with the head record of a queue, whose launch it refuses. -/
def refuseHead (s : State) (l : Launch) (cause : Nat) : State :=
  let w := queueOf s l.queue
  refuseLaunch (setQueue s l.queue { w with head := w.head + 1, raised := 0, since := none }) l cause

/-- A launch that must wait for others: SERIAL behind the launches of its queue, a graph behind the bound one
(R338, R355).
DEDUCED (log 77), safe. -/
def mustWait (s : State) (l : Launch) : Bool :=
  (l.mode.toNat / 16 % 2 == 1 && s.launches.any fun x => x.queue == l.queue && x.state != .ended) || (l.graph && (s.graph.isSome || s.launches.any fun x => x.graph && x.state != .ended))

/-- The image of a launch for a placement: the copy that is kept, with its place and true, or the bytes at its virtual
address (R340). -/
def imageFor (s : State) (ctx va : Nat) (p : Placement) : Except Kind (List Byte × Placement × Bool) × State :=
  match cachedCopy s ctx va p.sites with
  | some c =>
    let (b, s) := paRead c.pa c.size s
    (.ok (b, { p with imgPA := c.pa }, true), s)
  | none =>
    match readImage ctx va s with
    | (.error k, s) => (.error k, s)
    | (.ok b, s) => (.ok (b, p, false), s)

/-- Binds a saved launch again (R351, R414): the same shape and logical positions, the parameter block being
each member's save area; DEADLINE moves by the time it was saved (R347, R415). -/
def resumeLaunch (s : State) (q : Nat) (id : Word32) (p : Placement) : State :=
  match findLaunch s id with
  | none => s
  | some l =>
    if l.state ≠ .saved ∨ l.queue ≠ q then s
    else match imageFor s l.ctx.toNat l.imgVA.toNat p with
      | (.error _, _) => s
      | (.ok (b, p, copied), s) =>
        match placeOrigin b p.sites with
        | none => s
        | some origin =>
          if (!copied && !imageOk b) || gangCoordsOf b != l.coords || !(p.sites.all (siteFree s)) || p.imgPA % 32 != 0 then s
          else
            let l' := { l with sites := p.sites, state := .armed, t0 := p.t0
                               deadline := l.deadline + (p.t0 - l.te.getD p.t0) }
            let s := if copied then s else writeCopy s l.ctx.toNat l.imgVA.toNat b p
            let s := armAll s l' fun i =>
              bindRec l' b p origin (tget 0 s.qidx l.ctx.toNat) (sleepOf l.sleep p) ((l.areas[i]?).getD 0) 0 0 i true
            updLaunch s id fun _ => l'

/-! ## The fairness policy (R338) -/

/-- The head record of a queue. -/
def headRecord (s : State) (w : WorkQueue) : List Byte × State :=
  paRead (w.base.toNat * 4096 + 128 * (w.head.toNat % 2 ^ w.logn.toNat)) 128 s

/-- A queue of the tenant whose head launch need not wait for others. -/
def canTake (s : State) (q : Nat) : Bool :=
  let w := queueOf s q
  hasRecord w && w.func.toNat == s.tenant && !s.flr.contains w.func.toNat &&
  !mustWait s (newLaunch q w (launchRec (headRecord s w).1))

/-- A class has launches left in this round: class p takes 2^p of them. -/
def hasCredit (s : State) (p : Nat) : Bool := decide (tget 0 s.wrr p < 2 ^ p)

/-- The policy lets a queue's head launch be taken: its class has launches left in this round, or no class with a
launch waiting has.
DESIGN CHOICE (log 149), unsafe. -/
def mayTake (s : State) (q : Nat) : Bool :=
  canTake s q && (hasCredit s (classOf (queueOf s q)) ||
    s.queues.all fun p => !(canTake s p.1 && hasCredit s (classOf p.2)))

/-- A launch of a class is taken; where the class has none left, a new round begins. -/
def spend (s : State) (p : Nat) : State :=
  { s with wrr := if hasCredit s p then tput 0 s.wrr p (tget 0 s.wrr p + 1) else [(p, 1)] }

/-- The same, where the firmware has taken the head record of a queue. -/
def spendHead (q : Nat) (s t : State) : State :=
  if (queueOf t q).head = (queueOf s q).head then t else spend t (classOf (queueOf s q))

/-- A record the firmware takes: it refuses the launch or places it (R336, R339 to R342). -/
def takeRecord (s : State) (q : Nat) (p : Placement) : State :=
  let w := queueOf s q
  let (b, s) := headRecord s w
  let r := launchRec b
  let l := newLaunch q w r
  match recordCause s w r with
  | some c => refuseHead s l c
  | none =>
    match imageFor s r.ctx r.image p with
    | (.error _, s) => refuseHead s l 1
    | (.ok (img, p, copied), s) =>
      match (if copied then (if classBad img r then some 4 else if s.powerCap < p.watts then some 2 else none) else imageCause img r p s.powerCap) with
      | some c => refuseHead s l c
      | none =>
        match ctxWords r.ctx r.args r.nargs false s with
        | (.error _, s) => refuseHead s l 6
        | (.ok args, s) =>
          match ctxWords r.ctx r.flagInit r.nflag true s with
          | (.error _, s) => refuseHead s l 6
          | (.ok flags, s) =>
            if flags.any fun f => decide (1023 < f % 2 ^ 32) then refuseHead s l 6
            else match ctxWords r.ctx r.barrier r.nbar true s with
            | (.error _, s) => refuseHead s l 7
            | (.ok bars, s) =>
              if bars.all barOk = false then refuseHead s l 7
              else placeLaunch s l r img p copied args flags bars

/-- LAUNCH_SELECT (R338): the firmware binds a saved launch again, or takes the next record of a queue as the fairness
policy lets it; a saved launch has no turn to wait for.
DESIGN CHOICE (log 175), unsafe. -/
def selectLaunch (s : State) (q : Nat) (p : Placement) : State :=
  let w := queueOf s q
  if s.bootStatus ≠ 0xff ∨ w.func.toNat ≠ s.tenant ∨ s.flr.contains w.func.toNat then s
  else match p.resume with
  | some id => resumeLaunch s q id p
  | none =>
    let s := raiseDue s
    if mayTake s q then spendHead q s (takeRecord s q p) else s

/-- LAUNCH_SELECT (R338). -/
def execLaunchSelect (queue : Nat) (p : Placement) (s : State) : Host.Outcome State Fault Refusal := .next (selectLaunch s queue p)

/-! ## The bind (R343) -/

/-- The armed sites of a launch. -/
def armedSites (s : State) (id : Word32) : List Nat :=
  (s.slotTable.filter fun p => p.2.launch == id && p.2.state == 1).map Prod.fst

/-- A site that no other launch holds. -/
def heldByOther (s : State) (id : Word32) (n : Nat) : Bool :=
  s.launches.any fun l => l.id != id && l.sites.contains n && match l.state with | .bound | .running | .saving => true | _ => false

/-- The launch's estimate and those of the bound launches stay within the power cap; its bind is delayed while they do
not (R436).
DESIGN CHOICE (log 164), unsafe. -/
def powerFits (s : State) (l : Launch) : Bool :=
  decide (l.watts + ((s.launches.filter fun x => x.id != l.id && match x.state with | .bound | .running | .saving => true | _ => false).map
    Launch.watts).sum ≤ s.powerCap)

/-- The hardware's check of the armed records of a launch (R343). -/
def bindOk (s : State) (l : Launch) : Bool :=
  let a := armedSites s l.id
  let b0 := bindOf s (a.headD 0)
  a.length == l.coords.length && !a.isEmpty && l.sites.all (fun n => a.contains n) &&
  (a.all fun n =>
    let b := bindOf s n
    b.t0 == b0.t0 && b.ctx == b0.ctx && b.origin == b0.origin && b.shape == b0.shape && b.image == b0.image &&
    siteEnabled n && !heldByOther s l.id n) &&
  decide (s.cal + 65536 ≤ b0.t0.toNat)

/-- Every record of a launch returns to STATE = 0. -/
def disarm (s : State) (id : Word32) : State :=
  { s with slotTable := s.slotTable.map fun (p : Nat × Bind) => if p.2.launch = id then (p.1, { p.2 with state := 0 }) else p }

/-- Number by which a saved launch's member stands in the barrier objects it takes part in, in place of its
site. -/
def savedSite (id : Word32) (i : Nat) : Nat := 2 ^ 16 + 256 * id.toNat + i

/-- Numbers of a saved launch's members. -/
def savedSites (l : Launch) : List Nat := (List.range l.coords.length).map (savedSite l.id)

/-- The participations of a launch that is being restored end: until T0 they stand under the numbers of its saved
members (R350). -/
def breakParts (s : State) (l : Launch) : State := if l.areas = [] then s else breakBarriers s (savedSites l)

/-- The graph of a launch that ends is bound no more (R355). -/
def dropGraph (s : State) (id : Word32) : State :=
  { s with graph := match s.graph with
      | some g => if g.launch = id then none else some g
      | none => none }

/-- A launch turned away at its bind; one that was saved gives up its pins, barriers and graph. -/
def refuseBind (s : State) (l : Launch) (cause : Nat) : State :=
  let s := if l.areas = [] then s else dropGraph (breakParts (releasePins s l.id) l) l.id
  refuseLaunch (disarm s l.id) l cause

/-- A registration agrees with its object (R349). -/
def registrationOk (s : State) (w : Nat) : Bool :=
  match barrierOf s (w % 65536) with
  | none => true
  | some b => b.exp0 == bits w 31 16 && b.nreg == bits w 39 32 && decide (b.regs < b.nreg)

/-- One registration of a launch: its members become participants (R349). -/
def registerBar (sites : List Nat) (s : State) (w : Nat) : State :=
  let n := w % 65536
  match barrierOf s n with
  | none =>
    let s := setFlag (setFlag s (.dev n) 0 (srcId 5 0 0) 0) (.dev (n + 1)) 0 (srcId 5 0 0) 0
    setBarrier s n (some { expected := bits w 31 16, exp0 := bits w 31 16, nreg := bits w 39 32, regs := 1, parts := sites
                           arrived := [], falls := 0 })
  | some b => setBarrier s n (some { b with regs := b.regs + 1, parts := b.parts ++ sites.filter fun k => !b.parts.contains k })

/-- Registers a launch's barriers; none when one is refused. -/
def registerAll (sites : List Nat) : List Nat → State → Option State
  | [], s => some s
  | w :: r, s => if barOk w && registrationOk s w then registerAll sites r (registerBar sites s w) else none

/-- The launch's members are bound: they load until T0 (R344). -/
def bindMembers (s : State) (l : Launch) : State :=
  let s := l.sites.foldl (fun s n => updMem s n fun m => { m with ctl := { m.ctl with life := .loading } }) s
  updLaunch s l.id fun x =>
    { x with state := .bound, t0 := (bindOf s (l.sites.headD 0)).t0.toNat, deadline := (bindOf s (l.sites.headD 0)).deadline.toNat
             order := s.nLaunch }

/-- BIND_GO (R341, R343, R349, R355, R366): all armed records of a launch are bound, or none. -/
def goBind (s : State) (id : Word32) : State :=
  let s := { s with bindGo := id }
  match findLaunch s id with
  | none => s
  | some l =>
    -- a graph launch waits while another is bound (R355)
    if l.state ≠ .armed ∨ (l.graph ∧ s.graph.any (fun g => g.launch != id)) ∨ !powerFits s l then s
    else if !bindOk s l then refuseBind s l 2
    else
      let b := bindOf s (l.sites.headD 0)
      let l := { l with t0 := b.t0.toNat }
      if numAt s.dmem (b.image.toNat + 6) 1 % 2 = 0 then refuseBind s l 1
      else
        let s := { s with nLaunch := s.nLaunch + 1 }
        if l.areas ≠ [] then bindMembers s l
        else match registerAll l.sites l.bars s with
          | none => refuseBind s l 7
          | some t =>
            if !l.graph then bindMembers t l
            else
              let word := numAt s.dmem b.args.toNat 8
              match solve s l b.image.toNat b.nargs.toNat word with
              | .error r => refuseBind (graphRefused s l r) l r.cause
              | .ok a => bindMembers (bindGraph t l a word) l

/-- BIND_GO (R343). -/
def execBindGo (launch : Word32) (s : State) : Host.Outcome State Fault Refusal := .next (goBind s launch)

/-! ## The load (R30, R41, R43, R51, R344) -/

/-- What has happened before a launch starts (R293): what its submitter had done and known when it advanced the tail
of the queue, by a write of the function or by a release of the tail flag (R297, R334).
DEDUCED (log 79), unsafe. -/
def priorClock (s : State) (q : Nat) : Clock :=
  let w := queueOf s q
  if q < 2048 then joinClock (clockOf s (hostAgent w.func.toNat)) (tget [] s.flagClk sysKey)
  else tget [] s.flagClk (flagClkKey (.dev w.tailf.toNat) 0)

/-- Flag values of a list of 8-byte entries, a later entry overriding an earlier one (R344, R464). -/
def flagEntries (mem_ : Mem) (a n : Nat) (t : Tab Word32) : Tab Word32 :=
  (List.range n).foldl (fun t i => tput 0 t (numAt mem_ (a + 8 * i) 4) (BitVec.ofNat 32 (numAt mem_ (a + 8 * i + 4) 4))) t

/-- Poison marks of a typed buffer after a write of n bytes from an offset on: those of whole chunks are cleared
(R313). -/
def clearRun (b off n : Nat) (t : Tab Bool) : Tab Bool :=
  (List.range ((off + n) / 32 - (off + 31) / 32)).foldl (fun t i => tput false t (badKey b (((off + 31) / 32 + i) * 32)) false) t

/-- One BUFINIT entry copied (R464). -/
def bufInitOne (mem_ : Mem) (data a : Nat) (m : Member) : Member :=
  let b := numAt mem_ a 4 + 1
  let off := numAt mem_ (a + 4) 4
  let n := numAt mem_ (a + 12) 4
  let m := setBuf m b (setBytes (bufMem m b) off (bytesAt mem_ (data + numAt mem_ (a + 8) 4) n))
  { m with buf := { m.buf with bad := clearRun b off n m.buf.bad } }

/-- The BUFINIT copies of an image copy, in section order. -/
def bufInits (s : State) (img : Nat) (m : Member) : Member :=
  match sectOf s img 8 with
  | none => m
  | some (o, n, _) =>
    let data := img + ((sectOf s img 2).map Prod.fst).getD 0
    (List.range (n / 16)).foldl (fun m i => bufInitOne s.dmem data (img + o + 16 * i) m) m

/-- The sub-arrays at T0 (R202): asleep, or awake where gating is disabled. -/
def subsAtT0 (sleep : Nat) : Tab SubArray :=
  if sleep = 0 then tofn SubArray.t0 (List.range 16) fun _ => { SubArray.t0 with asleep := false } else []

/-- What a member holds at T0 whether it starts or resumes: everything at its T0 value, with the bind's
SLEEP, HAZARD_CTL and place in a graph; the typed buffers stay as they are (R51, R344). -/
def bareMember (s : State) (n : Nat) (keepBufs : Bool) : Member :=
  let b := bindOf s n
  let o := mem s n
  let f := Member.free
  let sleep := b.sleep.toNat
  let buf := if keepBufs then { f.buf with wb := o.buf.wb, ab := o.buf.ab, cb := o.buf.cb, bad := o.buf.bad } else f.buf
  { f with
    buf := buf
    mat := { f.mat with sub := subsAtT0 sleep }
    spr := { f.spr with chkRaw := b.mode.getLsbD 0, chkColl := b.mode.getLsbD 1 }
    ctl := { f.ctl with life := .loaded, sleep := sleep } }

/-- Arguments in s1 to s[NARGS] (R30). -/
def argRegs (s : State) (b : Bind) : Tab SCell :=
  tofn SCell.zero ((List.range (bits b.nargs.toNat 5 0)).map fun i => i + 1) fun i =>
    { alts := [(0, .val (BitVec.ofNat 64 (numAt s.dmem (b.args.toNat + 8 * (i - 1)) 8)))], pend := none }

/-- Fetch at ENTRY (R103, R110): the first line is present in group cycle 0. -/
def entryFetch (s : State) (img : Nat) : Fetch :=
  { Fetch.none with pc := numAt s.dmem (img + 12) 4, stop := false, needBlk := true }

/-- A member loaded from its bind record (R344). -/
def loadMember (s : State) (n : Nat) : State :=
  let b := bindOf s n
  let img := b.image.toNat
  let m := bufInits s img (bareMember s n true)
  let flags := match sectOf s img 9 with
    | some (o, k, _) => flagEntries s.dmem (img + o) (k / 8) []
    | none => []
  let flags := flagEntries s.dmem (b.args.toNat + 8 * bits b.nargs.toNat 5 0) b.nflag.toNat flags
  let place := match s.graph with
    | some g => if g.launch = b.launch then
        (match (findLaunch s b.launch).bind fun l => (l.sites.zip l.coords).find? fun p => p.1 == n with
          | some (_, c) => placeIn g.alm c
          | none => none)
      else none
    | none => none
  let m := { m with
    regs := { m.regs with s := argRegs s b }
    buf := { m.buf with flags := flags }
    ctl := { m.ctl with fetch := entryFetch s img }
    place := place }
  let s := { setMem s n m with slotTable := tput Bind.reset s.slotTable n { b with state := 2 }
                               traceSt := tput TraceSt.reset s.traceSt n { TraceSt.reset with lost := (tget TraceSt.reset s.traceSt n).lost }
                               waitSeq := tput 0 s.waitSeq n 0 }
  renewSite s n (((findLaunch s b.launch).map fun l => priorClock s l.queue).getD [])

/-- The collective commands a member has started are counted from T0 (R397). -/
def clearColls (s : State) (n : Nat) : State := { s with collCount := tclear s.collCount (2 ^ 32 * n) (2 ^ 32) }

/-- The event that a slot of a profile table names (R426). -/
def slotEvent (b : List Byte) : Nat := fieldIn b 0 2 % 512

/-- ABSENT of a slot (R426). -/
def slotAbsent (b : List Byte) : Bool := fieldIn b 2 1 % 2 == 1

/-- Goes through the slots of a function's profile table, and writes those that change (R426). -/
def eachSlot (func : Nat) (change : List Byte → Option (List Byte)) (s : State) : State :=
  match tget none s.profiles func with
  | none => s
  | some t => (List.range 16).foldl (fun s k =>
    match ctxRead t.ctx (t.va + 16 * k) 16 s with
    | (.ok b, s) => ((change b).map fun c => (ctxWrite t.ctx (t.va + 16 * k) c s).2).getD s
    | (.error _, s) => s) s

/-- A slot's total grows by what a launch has counted (R426). -/
def addToSlot (counts : Tab Nat) (b : List Byte) : Option (List Byte) :=
  if slotAbsent b || !eventKnown (slotEvent b) then none
  else some (b.take 8 ++ leBytes 8 ((fieldIn b 8 8 + tget 0 counts (slotEvent b)) % 2 ^ 64))

/-- A slot whose event this module does not count reads all ones with ABSENT once the session is moved here (R426). -/
def dropSlot (b : List Byte) : Option (List Byte) :=
  if eventKnown (slotEvent b) then none else some (b.take 2 ++ [1] ++ List.replicate 5 0 ++ List.replicate 8 0xff)

/-- The profile-migration request that a launch's members receive at T0 (R426). -/
def profileWord (s : State) (func : Nat) : BitVec 64 :=
  uiWord 4 (((List.range 16).map fun k =>
    match tget none s.profiles func with
    | some t => (match (ctxRead t.ctx (t.va + 16 * k) 16 s).1 with | .ok b => if slotAbsent b then 2 ^ k else 0 | .error _ => 0)
    | none => 0).sum)

/-- A launch's profile session was moved: every member is told, once (R426). -/
def tellProfiles (s : State) (l : Launch) : State :=
  let f := l.func.toNat
  if s.moved.contains f then
    let w := profileWord s f
    let s := l.sites.foldl (fun s n => updMem s n fun m => { m with ui := { m.ui with reqs := m.ui.reqs ++ [w] } }) s
    { s with moved := s.moved.filter fun x => x != f }
  else s

/-- A launch ends before T0 because of an uncorrectable error met while it loads (R344). -/
def loadFault (s : State) (n : Nat) : State :=
  let b := bindOf s n
  let r := dispatchRec s b.ctx b.launch (kindCode .poisonRead) 0 0
  let s := postRec s r
  if vigilArmed s 2 then vigilFire s 3 (some r)
  else
    let t := endLaunch s b.launch (launchSites s b.launch) 2 (kindCode .poisonRead)
    match findLaunch s b.launch with
    | some l => breakParts t l
    | none => t

end Sys2Proof.Machine
end

