-- ==== Sys2Proof/Machine/Preempt.lean ====
section
/-! DEFINITION. Pre-emption and context save (R368, R406 to R413): the request, the park, the save sequence
and what a save area holds. -/

namespace Sys2Proof.Machine

open Sys2Proof

/-! ## The request (R406, R407) -/

/-- PREEMPT_CTL.DONE. -/
def preemptIdle (s : State) : Bool := s.preemptCtl.getLsbD 33

/-- A write of PREEMPT_CTL with GO = 1 (R406). -/
def askPreempt (s : State) (id : Word32) : State :=
  match findLaunch s id with
  | none => s
  | some l =>
    let live := match l.state with | .bound | .running => true | _ => false
    if !preemptIdle s ∨ !live ∨ l.preempt.isSome then s
    else updLaunch { s with preemptCtl := BitVec.ofNat 64 id.toNat } id fun l => { l with preempt := some s.cal, ts := none, te := none }

/-- PREEMPT_REQUEST (R406). -/
def execPreemptRequest (launch : Word32) (s : State) : Host.Outcome State Fault Refusal := .next (askPreempt s launch)

/-! ## The park (R408, R409) -/

/-- A stream is at a command boundary: what it has started has completed or failed, but for a running `kick`
that waits between entries (R408, R413). -/
def streamAtRest (x : Stream) : Bool :=
  x.fly.all fun f => isKick f.cap.ins && f.ops.isEmpty && f.req.isEmpty && (f.ph == 2 || f.ph == 4)

/-- The conditions of R408 for a member at its parking boundary.
DEDUCED (log 68), unsafe. -/
def canPark (m : Member) : Bool :=
  m.ctl.trap.isNone && m.fly.lands.isEmpty && (m.regs.s.all fun p => p.2.pend.isNone) && m.regs.vp.isEmpty && m.regs.hp.isEmpty &&
  m.l.lq.isEmpty && m.l.sq.isEmpty && m.mat.cbw.isEmpty && m.mat.ops.isEmpty && m.fly.rtc.isEmpty &&
  engines.all fun e => streamAtRest (streamOf m e)

/-- A member counts as parked (R407, R416). -/
def isParked (m : Member) : Bool := match m.ctl.life with | .parked | .retired => true | _ => false

/-- MEMBER_PARK: a member held before a stage `lrec` parks there; a member at its parking boundary is parked
once nothing of it is in flight; and the last to park fixes TS (R368, R408, R409). -/
def parkStep (n : Nat) (s : State) : State :=
  let m := mem s n
  match m.ctl.life with
  | .running =>
    if m.ui.active then s
    else match heldBeforeStage s n with
      | some l => parkBefore s n l
      | none => s
  | .parking =>
    if !canPark m then s
    else
      let s := updMem s n fun m => { m with ctl := { m.ctl with life := .parked } }
      let id := (bindOf s n).launch
      match findLaunch s id with
      | none => s
      | some l =>
        if l.sites.all fun k => isParked (mem s k) then updLaunch s id fun l => { l with ts := some (s.cal + 16) } else s
  | _ => s

/-- MEMBER_PARK (R408). -/
def execMemberPark (site : Nat) (s : State) : Host.Outcome State Fault Refusal := .next (parkStep site s)

/-! ## The save area (R412, R413) -/

/-- Bytes padded with zeros to a multiple of 512. -/
def padTo (b : List Byte) : List Byte := b ++ List.replicate (roundUp b.length 512 - b.length) 0

/-- Bytes of a bit map: bit i at bit i mod 8 of byte i / 8. -/
def bitMap (n : Nat) (f : Nat → Bool) : List Byte :=
  (List.range (n / 8)).map fun i => BitVec.ofNat 8 (((List.range 8).map fun j => bit (f (8 * i + j)) * 2 ^ j).sum)

/-- The plain value of an s register (R411: no slot is open). -/
def plainOf (c : SCell) : Nat :=
  match c.alts with
  | (_, .val v) :: _ => v.toNat
  | _ => 0

/-- The level of a parked member's record, active while it runs, as the innermost of the loop stack: its body is the
kernel block and its iteration the next (R146). -/
def recordLevel (y : RecRun) : Level :=
  { lc := y.level, kind := y.kind, first := y.ker.1, last := y.ker.2, iter := y.j, left := some (y.n + y.stages - 2 - y.j), stride := 1,
    inner := false }

/-- The loop stack of a parked member, innermost first, its record's level with it once the record runs (R412). -/
def savedStack (m : Member) : List Level :=
  match m.ctl.yrec with
  | some y => if y.phase = .pro then m.ctl.fetch.stack else recordLevel y :: m.ctl.fetch.stack
  | none => m.ctl.fetch.stack

/-- The entry of lc0 to lc7: a level of the loop stack with its order, 0 for the outermost. -/
def levelBytes (st : List Level) (lc : Nat) : List Byte :=
  match st.reverse.zipIdx.find? fun x => x.1.lc.val == lc with
  | none => List.replicate 16 0
  | some (l, i) =>
    leBytes 1 (1 + i % 8 * 2 + l.kind % 8 * 32) ++ leBytes 3 ((l.last - l.first) / 32) ++ leBytes 4 l.iter ++
    leBytes 4 (l.left.getD 0) ++ leBytes 4 l.first

/-- The state block (R412). -/
def stateBlock (s : State) (n : Nat) : List Byte :=
  let m := mem s n
  let id := (bindOf s n).launch
  let y := m.ctl.yrec
  let rec_ : Nat := match m.ctl.life with | .retired => 0xfffe | _ => (y.map fun r => r.id.toNat).getD 0xffff
  let stagep : Nat := (y.map fun r => if r.phase = .ker then (stageByte r).toNat else 0).getD 0
  let kept : Nat := ((List.range 8).map fun q => bit (tget Slot.free m.grd.slots q).kept * 2 ^ q).sum
  let w8 (v : Nat) : List Byte := leBytes 8 v
  leBytes 4 id.toNat ++ leBytes 2 rec_ ++ leBytes 1 stagep ++ leBytes 1 kept ++ leBytes 4 ((y.map RecRun.j).getD 0) ++
  leBytes 4 ((y.map RecRun.n).getD 0) ++ w8 ((y.map RecRun.zero).getD (groupCycle m)) ++ w8 (statusWord m).toNat ++
  w8 (m.spr.rngKey.toNat % 2 ^ 32) ++ w8 (m.spr.rngKey.toNat / 2 ^ 32) ++
  ((List.range 4).flatMap fun i => w8 (m.spr.rngCtr.toNat / 2 ^ (32 * i) % 2 ^ 32)) ++
  w8 m.spr.uiVector.toNat ++ w8 m.spr.perfSel.toNat ++ w8 m.spr.traceCtl.toNat ++
  leBytes 1 (m.mat.rm.toNat + 8 * bit m.mat.f64) ++ leBytes 1 0 ++ leBytes 2 m.ctl.yidx ++ List.replicate 20 0 ++
  ((List.range 8).flatMap (levelBytes (savedStack m))) ++
  bitMap 1024 (fun k => tget false m.buf.armed k) ++ bitMap 1536 (fun k => tget false m.buf.wbFull k) ++
  bitMap 1024 (fun k => tget false m.buf.abFull k) ++
  ((List.range 16).flatMap fun i => w8 ((m.ui.reqs[i]?).getD 0).toNat) ++ leBytes 1 (min 16 m.ui.reqs.length) ++ List.replicate 7 0 ++
  ((List.range 8).flatMap fun i => w8 (tget 0 m.regs.shadow i).toNat) ++ List.replicate 120 0

/-- Own flags 0 to 1023. -/
def flagBytes (m : Member) : List Byte := (List.range 1024).flatMap fun k => leBytes 4 (tget 0 m.buf.flags k).toNat

/-- The set bits of a mask, ascending. -/
def bitsSet (n mask : Nat) : List Nat := (List.range n).filter fun i => mask / 2 ^ i % 2 == 1

/-- A k register: bit 64 * row + col.
DESIGN CHOICE (log 85), unsafe. -/
def kBytes (m : Member) (k : Nat) : List Byte :=
  bitMap 1024 fun i => if k = 0 then true else (tget 0xffff m.regs.k (64 * k + i % 64)).getLsbD (i / 64)

/-- Frame 0 of a v register, little-endian by 64 * row + col. -/
def vBytes (m : Member) (v : Nat) : List Byte :=
  (List.range 1024).flatMap fun i =>
    match (tget VAlts.zero m.regs.v (64 * v + i % 64)).alts with
    | (_, .val c) :: _ => leBytes 4 (tget 0 c (i / 64)).toNat
    | _ => leBytes 4 0

/-- A command as a capture record holds it (R413): as encoded, without idle count and start stamp. -/
def bareCmd (i : Instr) : Instr :=
  let f (e : ECmd) : ECmd := { e with idle := 0, st := 0 }
  match i with
  | .cpy e k => .cpy (f e) k | .cpyc e k a b c => .cpyc (f e) k a b c | .cfill e k => .cfill (f e) k
  | .tfetch e k a b => .tfetch (f e) k a b | .kick e a b => .kick (f e) a b | .link e a => .link (f e) a
  | .collAllReduce e k => .collAllReduce (f e) k | .collReduceScatter e k => .collReduceScatter (f e) k
  | .collAllGather e k => .collAllGather (f e) k | .collAllToAll e k => .collAllToAll (f e) k
  | .collBroadcast e k => .collBroadcast (f e) k | .rmerge e a b c d g h => .rmerge (f e) a b c d g h
  | .rtsnap e a b => .rtsnap (f e) a b | .hvstKeep e a b c d g => .hvstKeep (f e) a b c d g
  | .hvstMass e a b c d g => .hvstMass (f e) a b c d g | .hcomp e a => .hcomp (f e) a | .htrunc e a b => .htrunc (f e) a b
  | .lkick e a b c => .lkick (f e) a b c | .esync e => .esync (f e)
  | i => i

/-- Values captured for the register fields of a command. -/
def capRegs (c : Cap) : List Nat := ((c.ss.take (cmdRegs c.ins).length).map fun v => ((landedVal v).getD 0).toNat)

/-- A captured handle. -/
def capH (c : Cap) (k : Nat) : Nat :=
  match c.hs.find? fun p => p.1.val == k with
  | some (_, .now h) => h.toNat
  | _ => 0

/-- A capture record, 384 bytes (R413). -/
def captureRec (c : Cap) : List Byte :=
  let ws := ((encode (bareCmd c.ins)).map Prod.snd).getD []
  ((ws.flatMap fun (w : Word32) => leBytes 4 w.toNat) ++ List.replicate 16 0).take 16 ++
  ((capRegs c).flatMap (leBytes 8) ++ List.replicate 64 0).take 64 ++
  ((List.range 16).flatMap fun k => leBytes 16 (capH c k)) ++ leBytes 1 c.taken ++ List.replicate 47 0

/-- An engine block (R413). -/
def engineBlock (x : Stream) : List Byte :=
  let ch := x.chain
  let h (k : Nat) : Nat := ((ch.bind fun c => c.hs.find? fun p => p.1.val == k).map fun p => p.2.toNat).getD 0
  -- an entry fetched and not yet started is fetched again
  let next : Nat := (ch.map fun c => if c.cur.isSome then c.next - 16 else c.next).getD 0
  let state := leBytes 4 x.idx.toNat ++ leBytes 1 x.queue.length ++ leBytes 1 (bit ch.isSome + 2 * bit x.open_) ++
    leBytes 1 x.conts.length ++ leBytes 1 0 ++ leBytes 8 next ++ leBytes 8 ((ch.map Chain.argt).getD 0) ++
    leBytes 4 (((ch.map Chain.kidx).getD 0).toNat) ++ leBytes 4 0 ++
    ((List.range 8).flatMap fun i => leBytes 8 ((x.conts[i]?).elim 0 fun p => p.2.toNat)) ++
    ((List.range 16).flatMap fun k => leBytes 16 (h k)) ++ List.replicate 160 0
  state ++ (x.queue.take 16).flatMap captureRec ++ List.replicate (384 * (16 - min 16 x.queue.length)) 0

/-- The YIELDS entry of a member's yield point: its address in the image copy. -/
def yieldsAt (s : State) (n : Nat) : Option Nat :=
  let pa := imgOf s (.mem n)
  (sectOf s pa 5).map fun x => pa + x.1 + 32 * (mem s n).ctl.yidx

/-- The live ranges of a yield point: buffer (0 WB, 1 AB, 2 CB), first byte, bytes (R105). -/
def liveRanges (s : State) (n : Nat) : List (Nat × Nat × Nat) :=
  let pa := imgOf s (.mem n)
  match yieldsAt s n, sectOf s pa 5 with
  | some a, some (o, _, _) =>
    (List.range (numAt s.dmem (a + 2) 2)).map fun i =>
      let r := pa + o + numAt s.dmem (a + 4) 4 + 8 * i
      (numAt s.dmem r 1, numAt s.dmem (r + 4) 2 * 2048, numAt s.dmem (r + 6) 2 * 2048)
  | _, _ => []

/-- A live mask of a yield point, at a place of its entry. -/
def liveMask (s : State) (n off w : Nat) : Nat := ((yieldsAt s n).map fun a => numAt s.dmem (a + off) w).getD 0

/-- Sound sectors of bytes whose number is a multiple of 32. -/
def soundSectors (b : List Byte) : List (List Byte × Bool) :=
  (List.range (b.length / 32)).map fun i => ((b.drop (32 * i)).take 32, false)

/-- The chunks of a range of a typed buffer, with their poison. -/
def rangeSectors (m : Member) (b off n : Nat) : List (List Byte × Bool) :=
  (List.range (n / 32)).map fun i =>
    (bytesAt (bufMem m b) (off + 32 * i) 32, tget false m.buf.bad (badKey b (off + 32 * i)))

/-- The save area of a member, in 32-byte sectors (R412): for a retired member its state block alone. -/
def saveArea (s : State) (n : Nat) : List (List Byte × Bool) :=
  let m := mem s n
  match m.ctl.life with
  | .retired => soundSectors (stateBlock s n)
  | _ =>
    let regs (w : Nat) (mask : Nat) (f : Nat → List Byte) : List Byte := padTo ((bitsSet w mask).flatMap f)
    soundSectors (stateBlock s n ++ flagBytes m ++
      regs 64 (liveMask s n 8 8) (fun k => leBytes 8 (plainOf (tget SCell.zero m.regs.s k))) ++
      regs 16 (liveMask s n 20 2) (kBytes m) ++
      regs 16 (liveMask s n 22 2) (fun k => leBytes 32 (tget 0 m.regs.a k).toNat) ++
      regs 16 (liveMask s n 24 2) (fun k => leBytes 16 (tget 0 m.regs.h k).toNat) ++
      regs 32 (liveMask s n 16 4) (vBytes m) ++
      engines.flatMap fun e => engineBlock (streamOf m e)) ++
    (liveRanges s n).flatMap fun r => rangeSectors m (r.1 + 1) r.2.1 r.2.2

/-- Bytes of a member's save area. -/
def saveLen (s : State) (n : Nat) : Nat :=
  let up (k w : Nat) : Nat := roundUp (k * w) 512
  let c (w mask : Nat) : Nat := (bitsSet w mask).length
  match (mem s n).ctl.life with
  | .retired => 1024
  | _ =>
    31744 + up (c 64 (liveMask s n 8 8)) 8 + up (c 16 (liveMask s n 20 2)) 128 + up (c 16 (liveMask s n 22 2)) 32 +
    up (c 16 (liveMask s n 24 2)) 16 + up (c 32 (liveMask s n 16 4)) 4096 + ((liveRanges s n).map fun r => r.2.2).sum

/-- Physical address of a site's save area (R406). -/
def saveBase (s : State) (n : Nat) : Nat := (tget 0 s.saveArea n).toNat * 4096

/-- Writes sectors of a save area from a physical address on. -/
def putSectors (pa : Nat) (l : List (List Byte × Bool)) (s : State) : State :=
  l.zipIdx.foldl (fun s x =>
    let a := pa + 32 * x.2
    let s := devWrite s a x.1.1
    { s with dbad := tput false s.dbad (a / 32) x.1.2 }) s

/-! ## The save sequence (R409, R412) -/

/-- A parked member begins its SAVE block, or the hardware stream where the block is empty. -/
def beginSave (s : State) (n : Nat) : State :=
  let m := mem s n
  match m.ctl.life, m.ctl.yrec with
  | .parked, some y =>
    let len := saveLen s n / 512
    let g := m.ctl.gc
    let f := if y.save = (0, 0) then { m.ctl.fetch with lanes := [], stop := true, line := none, rcd := none, steps := [] }
      else { enterPhase m.ctl.fetch { y with phase := .save } g m.ctl.fetch.stack with lanes := [] }
    updMem s n fun m =>
      { m with ctl := { m.ctl with
          life := .saving, saveN := len, savePos := 0, saveAt := if y.save = (0, 0) then some g else none, fetch := f
          refs := tofn 0 ([Queue.c, .v, .x, .m, .l, .e].map Queue.code) fun _ => g } }
  | .retired, _ => putSectors (saveBase s n) (saveArea s n) s
  | _, _ => s

/-- SAVE_START (R409): in tick TS. -/
def startSave (s : State) (id : Word32) : State :=
  match findLaunch s id with
  | none => s
  | some l =>
    if l.state ≠ .running ∨ l.ts ≠ some s.cal ∨ s.phase ≠ .start then s
    else updLaunch (l.sites.foldl beginSave s) id fun l => { l with state := .saving }

/-- SAVE_START (R409). -/
def execSaveStart (launch : Word32) (s : State) : Host.Outcome State Fault Refusal := .next (startSave s launch)

/-- The hardware stream of a member writes its next 512 bytes, one piece in a group cycle (R412). -/
def savePiece (s : State) (n : Nat) : State :=
  let m := mem s n
  match m.ctl.life, m.ctl.saveAt with
  | .saving, some g =>
    let k := m.ctl.savePos
    if k < m.ctl.saveN ∧ g + k + 1 ≤ m.ctl.gc then
      let s := putSectors (saveBase s n + 512 * k) (((saveArea s n).drop (16 * k)).take 16) s
      updMem s n fun m => { m with ctl := { m.ctl with savePos := k + 1 } }
    else s
  | _, _ => s

/-- A member has been saved whole. -/
def isSaved (m : Member) : Bool :=
  match m.ctl.life with
  | .saving => m.ctl.saveAt.isSome && m.ctl.savePos == m.ctl.saveN
  | .retired => true
  | _ => false

/-- A member's place when a graph launch is restored (R368): the firings of the interrupted period that had
not started are still to run, and those of an earlier interruption that are left. -/
def keptPlace (s : State) (l : Launch) (p : Place) : Place :=
  match s.graph, l.preempt with
  | some g, some t =>
    let per := (firingsOf g.alm p).length
    let n := if t < g.base then 0 else (t - g.base) / max 1 g.alm.period + 1
    { p with fired := 0, behind := p.behind + n * per - p.fired }
  | _, _ => p

/-- What is kept of a member beside its save area. -/
def keepMember (s : State) (l : Launch) (i n : Nat) : Kept :=
  let m := mem s n
  let y := m.ctl.yrec
  let st := m.ctl.fetch.stack
  { member := i, ret := (y.map RecRun.ret).getD 0
    before := m.ctl.ybefore
    strides := st.reverse.map Level.stride, place := m.place.map (keptPlace s l)
    flies := engines.flatMap fun e => ((streamOf m e).fly ++ (streamOf m e).stopped.toList).map fun f => (e, f)
    chains := engines.flatMap fun e => (streamOf m e).chain.toList.map fun c => (e, c)
    depths := engines.map fun e => (e, (streamOf m e).conts.map Prod.fst)
    heldUi := engines.map fun e => (e, (streamOf m e).heldUi)
    clk := siteClock s n
    retired := match m.ctl.life with | .retired => true | _ => false
    dbg := m.ctl.dbg }

/-- The participants of a launch's barriers, and its service requests, under other numbers of its sites. -/
def moveParts (s : State) (id : Word32) (f : Nat → Nat) : State :=
  { s with svcs := s.svcs.map fun r => if r.launch = id then { r with site := f r.site } else r
           barriers := s.barriers.map fun (p : Nat × Option Barrier) =>
      (p.1, p.2.map fun b => { b with parts := b.parts.map f, arrived := b.arrived.map f }) }

/-- A launch's members from one list of numbers to another.
DESIGN CHOICE (log 86), safe. -/
def renumber (a b : List Nat) (n : Nat) : Nat := ((a.zip b).find? fun p => p.1 == n).elim n Prod.snd

/-- The graph of a saved launch: its next period begins at the restored BASE (R368). -/
def keptGraph (s : State) (l : Launch) : State :=
  match s.graph, l.preempt with
  | some g, some t =>
    if g.launch = l.id then
      let n := if t < g.base then 0 else (t - g.base) / max 1 g.alm.period + 1
      { s with graph := some { g with n0 := g.n0 + n } }
    else s
  | _, _ => s

/-- All members are saved: DONE is set and the sites are freed; the pins stay held (R409, R415). -/
def finishSave (s : State) (l : Launch) : State :=
  let kept := l.sites.zipIdx.map fun x => keepMember s l x.2 x.1
  let areas := l.sites.map (saveBase s)
  let s := moveParts s l.id (renumber l.sites (l.sites.zipIdx.map fun x => savedSite l.id x.2))
  let s := tallyEvents (keptGraph s l) l.id l.sites
  let s := l.sites.foldl (fun s n => updMem s n fun m => { m with ctl := { m.ctl with life := .saved }, place := none }) s
  let s := disarm s l.id
  let s := { s with replays := s.replays.filter (fun r => !l.sites.contains r.site)
                    preemptCtl := BitVec.ofNat 64 (2 ^ 33 + l.id.toNat) }
  updLaunch s l.id fun l =>
    { l with state := .saved, sites := [], kept := kept, areas := areas, te := some s.cal, ts := none, preempt := none }

/-- SAVE_DONE (R409, R412): the hardware streams write, and after the last write DONE is set.
DESIGN CHOICE (log 84), safe. -/
def saveStep (s : State) (id : Word32) : State :=
  match findLaunch s id with
  | none => s
  | some l =>
    if l.state ≠ .saving then s
    else
      let s := l.sites.foldl savePiece s
      if l.sites.all fun n => isSaved (mem s n) then finishSave s l else s

/-- SAVE_DONE (R409). -/
def execSaveDone (launch : Word32) (s : State) : Host.Outcome State Fault Refusal := .next (saveStep s launch)

end Sys2Proof.Machine
end

