-- ==== Sys2Proof/Machine/Restore.lean ====
section
/-! DEFINITION. The load of a member, new or restored, and T0 (R344, R368, R414, R415, R426). -/

namespace Sys2Proof.Machine

open Sys2Proof

/-! ## Reading a save area (R412 to R414) -/

/-- A handle as a restore loads it: not valid where its GEN is not the context's (R324, R414). -/
def freshHandle (gen : Nat) (h : BitVec 128) : BitVec 128 := if hField h 35 20 = gen then h else hClear h

/-- A handle as it is loaded: fields named zero are ignored, and one that holds XST 3 is cleared (R34, R35). -/
def cleanHandle (h : BitVec 128) : BitVec 128 :=
  if hXst h = 3 then 0 else h &&& BitVec.ofNat 128 (2 ^ 104 - 1 - 4)

/-- The fields of a stream register that are not zero in every descriptor (R11, R195). -/
def aFields : BitVec 256 := BitVec.ofNat 256 (2 ^ 240 - 1 - 31 * 2 ^ 64 - (2 ^ 21 - 1) * 2 ^ 32)

/-- A 16-byte handle of a memory. -/
def handleAt (s : State) (gen a : Nat) : BitVec 128 := freshHandle gen (cleanHandle (BitVec.ofNat 128 (numAt s.dmem a 16)))

/-- The cells of consecutive entries of a live section: entry i at an address. -/
def liveEntries (mask cnt w : Nat) (a : Nat) : List (Nat × Nat) := (bitsSet cnt mask).zipIdx.map fun x => (x.1, a + w * x.2)

/-- The command of a capture record (R413, R415): no start stamp, and its tokens beyond TAKEN still to take; what
was done before the save happens before it.
DEDUCED (log 160), unsafe. -/
def captureAt (s : State) (gen : Nat) (clk : Clock) (a : Nat) : Option Cap :=
  let w (i : Nat) : Word32 := BitVec.ofNat 32 (numAt s.dmem (a + 4 * i) 4)
  match decodeLane .e ((List.range (if (w 0).getLsbD 27 then 4 else 2)).map w) with
  | .error _ => none
  | .ok i =>
    some { ins := i, q := .e, addr := 0, seq := 0
           ss := (List.range (cmdRegs i).length).map fun k => .now [(0, .val (BitVec.ofNat 64 (numAt s.dmem (a + 16 + 8 * k) 8)))]
           vs := [], msk := 0, hs := (cmdHs i).map fun r => (r, .now (handleAt s gen (a + 80 + 16 * r.val))), lit := none, out := []
           tok := none, tag := tagOf none, tick := s.cal, slipped := true, known := true, taken := numAt s.dmem (a + 336) 1
           since := none, clk := clk }

/-- The stream of an engine block, with what is kept beside it. -/
def streamAt (s : State) (gen a : Nat) (e : Fin 4) (k : Kept) : Stream :=
  let ch := numAt s.dmem (a + 5) 1
  let fresh (l : List (HReg × BitVec 128)) : List (HReg × BitVec 128) := l.map fun h => (h.1, freshHandle gen h.2)
  let flies := ((k.flies.filter fun p => p.1 == e).map Prod.snd).map fun f => { f with hs := fresh f.hs }
  let old := (k.chains.find? fun p => p.1 == e).map Prod.snd
  let hs : List (HReg × BitVec 128) := (List.range 16).map fun i => (Fin.ofNat 16 i, handleAt s gen (a + 96 + 16 * i))
  let chain : Option Chain := if ch % 2 = 0 then none else
    some { next := numAt s.dmem (a + 8) 8, argt := numAt s.dmem (a + 16) 8, kidx := BitVec.ofNat 32 (numAt s.dmem (a + 24) 4)
           entry := (old.map fun c => if c.cur.isSome then c.entry - 1 else c.entry).getD 0, hs := hs, cur := none }
  -- an entry that had taken tokens goes on with those it has left
  let chain := match chain, old.bind Chain.cur with
    | some c, some p => if p.taken = 0 then some c else some { c with next := c.next + 16, entry := c.entry + 1, cur := some p }
    | c, _ => c
  { queue := (List.range (numAt s.dmem (a + 4) 1)).filterMap fun i => captureAt s gen k.clk (a + 512 + 384 * i)
    idx := BitVec.ofNat 32 (numAt s.dmem a 4), fly := flies.filter fun f => f.fail.isNone, chain := chain
    open_ := ch / 2 % 2 == 1
    conts := (List.range (numAt s.dmem (a + 6) 1)).map fun i =>
      ((((k.depths.find? fun p => p.1 == e).map Prod.snd).getD []).getD i 0, BitVec.ofNat 64 (numAt s.dmem (a + 32 + 8 * i) 8))
    stopped := flies.find? fun f => f.fail.isSome
    heldUi := ((k.heldUi.find? fun p => p.1 == e).map Prod.snd).getD [] }

/-- The loop stack of LC, innermost first (R412), without the level of the record that runs. -/
def stackAt (s : State) (a : Nat) (strides : List Nat) (own : Option (Fin 8)) : List Level :=
  let lv (i : Nat) : Option Level := ((List.range 8).find? fun lc => own != some (Fin.ofNat 8 lc) &&
      numAt s.dmem (a + 16 * lc) 1 % 2 == 1 && bits (numAt s.dmem (a + 16 * lc) 1) 3 1 == i).map fun lc =>
    let p := a + 16 * lc
    let first := numAt s.dmem (p + 12) 4
    { lc := Fin.ofNat 8 lc, kind := bits (numAt s.dmem p 1) 7 5, first := first, last := first + 32 * numAt s.dmem (p + 1) 3
      iter := numAt s.dmem (p + 4) 4, left := some (numAt s.dmem (p + 8) 4), stride := strides.getD i 1, inner := false }
  ((List.range 8).filterMap lv).reverse

/-- The special registers of a state block (R412); HAZARD_CTL stays that of the new bind (R414). -/
def sprsAt (s : State) (a : Nat) (p : Sprs) : Sprs :=
  let st := numAt s.dmem (a + 24) 8
  let n (o w : Nat) : Nat := numAt s.dmem (a + o) w
  { p with
    rmode := if bits st 13 11 ≤ 3 then BitVec.ofNat 3 (bits st 13 11) else p.rmode, uien := bits st 14 14 == 1, oflow := bits st 8 8 == 1, slip := bits st 7 7 == 1
    uflow := bits st 6 6 == 1, coll := bits st 5 5 == 1
    rngKey := BitVec.ofNat 64 (n 32 4 + 2 ^ 32 * n 40 4)
    rngCtr := BitVec.ofNat 128 (n 48 4 + 2 ^ 32 * n 56 4 + 2 ^ 64 * n 64 4 + 2 ^ 96 * n 72 4)
    uiVector := BitVec.ofNat 64 (n 80 8), perfSel := BitVec.ofNat 9 (n 88 8),
    traceCtl := BitVec.ofNat 16 (n 96 8) &&& 0xf01f }

/-- A bit map of a memory as a table. -/
def mapAt (s : State) (a n : Nat) : Tab Bool := tofn false (List.range n) fun i => (byteAt s.dmem (a + i / 8)).getLsbD (i % 8)

/-- Slices of a live v register at an address. -/
def vAt (s : State) (v a : Nat) : List (Nat × VAlts) :=
  (List.range 64).map fun c =>
    (64 * v + c, { alts := [(0, .val (tofn 0 (List.range 16) fun r => BitVec.ofNat 32 (numAt s.dmem (a + 4 * (64 * r + c)) 4)))] })

/-- Slices of a live k register at an address. -/
def kAt (s : State) (k a : Nat) : List (Nat × BitVec 16) :=
  (List.range 64).map fun c =>
    (64 * k + c, BitVec.ofNat 16 (((List.range 16).map fun r =>
      let i := 64 * r + c
      bit ((byteAt s.dmem (a + i / 8)).getLsbD (i % 8)) * 2 ^ r).sum))

/-- The record that a restored member goes on with. -/
def recordOf (s : State) (img a : Nat) (k : Kept) : Option RecRun :=
  (recordAt s img (numAt s.dmem (a + 4) 2)).map fun p =>
    let lv := Fin.ofNat 8 (numAt s.dmem (p + 48) 2)
    { recordRun s img p (numAt s.dmem (a + 12) 4) k.ret lv ((levelKind s img lv.val).getD 0) with
      phase := if k.before = [] then .ker else .pro, j := numAt s.dmem (a + 8) 4, zero := numAt s.dmem (a + 16) 8 }

/-- The member of a save area (R414); for a retired member everything at its T0 value. -/
def restoredMember (s : State) (n : Nat) (k : Kept) : Member :=
  let b := bindOf s n
  let img := b.image.toNat
  let a := b.args.toNat
  let gen := (ctxOf s b.ctx.toNat).gen.toNat
  let m := bareMember s n false
  if numAt s.dmem (a + 4) 2 = 0xfffe then m
  else
    let m := { m with ctl := { m.ctl with yidx := numAt s.dmem (a + 106) 2 } }
    let t := setMem s n m
    let mask (off w : Nat) : Nat := liveMask t n off w
    let sec (cnt w mask : Nat) : Nat := roundUp ((bitsSet cnt mask).length * w) 512
    let ms := mask 8 8; let mv := mask 16 4; let mk_ := mask 20 2; let ma := mask 22 2; let mh := mask 24 2
    let p0 := a + 5120
    let p1 := p0 + sec 64 8 ms
    let p2 := p1 + sec 16 128 mk_
    let p3 := p2 + sec 16 32 ma
    let p4 := p3 + sec 16 16 mh
    let p5 := p4 + sec 32 4096 mv
    let p6 := p5 + 4 * 6656
    let y := recordOf s img a k
    let st := stackAt s (a + 128) k.strides (y.bind fun r => if r.phase = .pro then none else some r.level)
    let f : Fetch := match y with
      | some y => if y.restore = (0, 0) then { Fetch.none with stack := st }
        else { enterPhase { Fetch.none with stop := false } { y with phase := .restore } 0 st with count := 0 }
      | none => Fetch.none
    let gout := numAt s.dmem (a + 7) 1
    let mm := numAt s.dmem (a + 104) 1
    let word (p : Nat) : Word := BitVec.ofNat 64 (numAt s.dmem p 8)
    let m := { m with
      regs := { m.regs with
        s := tputs SCell.zero [] ((liveEntries ms 64 8 p0).map fun e => (e.1, { alts := [(0, .val (word e.2))], pend := none }))
        shadow := tofn 0 (List.range 8) fun i => word (a + 840 + 8 * i)
        k := tputs 0xffff [] ((liveEntries mk_ 16 128 p1).flatMap fun e => kAt s e.1 e.2)
        a := tputs 0 [] ((liveEntries ma 16 32 p2).map fun e => (e.1, BitVec.ofNat 256 (numAt s.dmem e.2 32) &&& aFields))
        h := tputs 0 [] ((liveEntries mh 16 16 p3).map fun e => (e.1, handleAt s gen e.2))
        v := tputs VAlts.zero [] ((liveEntries mv 32 4096 p4).flatMap fun e => vAt s e.1 e.2) }
      grd := { m.grd with slots := tofn Slot.free (List.range 8) fun q => { Slot.free with kept := gout / 2 ^ q % 2 == 1 } }
      mat := { m.mat with rm := BitVec.ofNat 3 mm, f64 := mm / 8 % 2 == 1 }
      buf := { m.buf with
        flags := tofn 0 (List.range 1024) fun i => BitVec.ofNat 32 (numAt s.dmem (a + 1024 + 4 * i) 4)
        armed := mapAt s (a + 256) 1024, wbFull := mapAt s (a + 384) 1536, abFull := mapAt s (a + 576) 1024 }
      spr := sprsAt s a m.spr
      ui := { m.ui with reqs := (List.range (min 16 (numAt s.dmem (a + 832) 1))).map fun i => word (a + 704 + 8 * i) &&& 0xffffffff0000000f }
      ctl := { m.ctl with fetch := f, yrec := y, dbg := k.dbg }
      place := k.place }
    let m := engines.foldl (fun m e => setStream m e (streamAt s gen (p5 + 6656 * e.val) e k)) m
    ((liveRanges t n).foldl (fun (x : Member × Nat) r =>
      (setBuf x.1 (r.1 + 1) (setBytes (bufMem x.1 (r.1 + 1)) r.2.1 (bytesAt s.dmem x.2 r.2.2)), x.2 + r.2.2)) (m, p6)).1

/-- What is kept of a restored member. -/
def keptOf (s : State) (n : Nat) : Option Kept :=
  (findLaunch s (bindOf s n).launch).bind fun l => l.kept.find? fun k => l.sites[k.member]? == some n

/-- Loads a member from its save area (R414). -/
def restoreMember (s : State) (n : Nat) : State :=
  match keptOf s n with
  | none => s
  | some k =>
    let b := bindOf s n
    let s := setMem s n (restoredMember s n k)
    let s := { s with slotTable := tput Bind.reset s.slotTable n { b with state := 2 }
                      traceSt := tput TraceSt.reset s.traceSt n { TraceSt.reset with lost := (tget TraceSt.reset s.traceSt n).lost }
                      waitSeq := tput 0 s.waitSeq n 0 }
    let back := engines.flatMap fun e => match (streamOf (mem s n) e).stopped with
      | some f => (match f.fail with
          | some (.page, _, va) | some (.staleHandle, _, va) => [({ site := n, src := .stream e, seq := f.idx.toNat, va := BitVec.ofNat 64 va } : Replay)]
          | _ => [])
      | none => []
    renewSite { s with replays := s.replays ++ back } n k.clk

/-! ## Loading before T0 (R344) -/

/-- A sector of a range of device memory is poisoned. -/
def regionBad (s : State) (pa n : Nat) : Bool := (List.range ((pa % 32 + n + 31) / 32)).any fun i => tget false s.dbad (pa / 32 + i)

/-- An uncorrectable error lies in what the load of a member reads: its parameter block or save area, or the
FLAGS, BUFINIT and DATA sections. -/
def loadBad (s : State) (n : Nat) : Bool :=
  let b := bindOf s n
  let img := b.image.toNat
  let sect (k : Nat) : Bool := match sectOf s img k with
    | some (o, w, _) => regionBad s (img + o) w
    | none => false
  if b.mode.getLsbD 5 then
    regionBad s b.args.toNat (if numAt s.dmem (b.args.toNat + 4) 2 = 0xfffe then 1024 else saveLen (setMem s n (restoredMember s n
      ((keptOf s n).getD { member := 0, ret := 0, before := [], strides := [], place := none, flies := [], chains := []
                           depths := [], clk := [], heldUi := [], retired := false, dbg := .run }))) n)
  else
    regionBad s b.args.toNat (8 * bits b.nargs.toNat 5 0 + 8 * b.nflag.toNat) || sect 9 || sect 8 || sect 2

/-- Loads a member from its bind record (R344). -/
def loadAny (s : State) (n : Nat) : State :=
  if (bindOf s n).mode.getLsbD 5 then restoreMember s n else clearColls (loadMember s n) n

/-- MEMBER_LOAD_COMPLETE (R344): the member's load is complete; an uncorrectable error ends the launch. -/
def loadStep (n : Nat) (ok : Bool) (s : State) : State :=
  match (mem s n).ctl.life with
  | .loading => if !ok || loadBad s n then loadFault s n else loadAny s n
  | _ => s

/-- MEMBER_LOAD_COMPLETE (R344). -/
def execMemberLoadComplete (site : Nat) (ok : Bool) (s : State) : Host.Outcome State Fault Refusal := .next (loadStep site ok s)

/-! ## T0 (R344, R414) -/

/-- Loads the members that are still to load. -/
def loadRest (s : State) (l : Launch) : State := l.sites.foldl (fun s n => loadStep n true s) s

/-- The launch starts in this tick. -/
def startsNow (s : State) (l : Launch) : Bool := l.state == .bound && l.t0 == s.cal && s.phase == .start

/-- T0_START: every member's group cycle 0 begins (R344, R426). -/
def startLaunch (s : State) (id : Word32) : State :=
  match findLaunch s id with
  | none => s
  | some l =>
    if !startsNow s l || l.areas ≠ [] then s
    else
      let s := loadRest s l
      match findLaunch s id with
      | some l =>
        if l.state ≠ .bound then s
        else
          let s := l.sites.foldl (fun s n => updMem s n fun m => { m with ctl := { m.ctl with life := .running } }) s
          tellProfiles (updLaunch s id fun l => { l with state := .running }) l
      | none => s

/-- T0_START (R344). -/
def execT0Start (launch : Word32) (s : State) : Host.Outcome State Fault Refusal := .next (startLaunch s launch)

/-- The graph of a restored launch (R368): BASE is T0 + 2 P + 4,096, the rings keep their kinds and bases, and the ring
area says where they now are.
DEDUCED (log 83), unsafe. -/
def restoreGraph (s : State) (l : Launch) : State :=
  match s.graph with
  | some g =>
    if g.launch = l.id then
      let die (e : Edge) : Nat := dieOf (physOf l ((((g.alm.stages[e.dest]?).map Stage.cores).getD []).headD 0))
      let placed (a : Almanac) : Almanac := { a with edges := a.edges.map fun e => { e with die := die e } }
      let g := { g with base := (l.t0 + 2 * g.alm.period + 4096) % 2 ^ 64, alm := placed g.alm, next := g.next.map fun p => (placed p.1, p.2) }
      { (ctxWrite l.ctx.toNat (areaOf g.areaWord.toNat).1 (areaBytes g.alm g.base g.gen) s).2 with graph := some g }
    else s
  | none => s

/-- A restored member begins its RESTORE block, or resumes at once where the block is empty. -/
def beginRestore (s : State) (n : Nat) : State :=
  match (mem s n).ctl.yrec with
  | none => updMem s n fun m => { m with ctl := { m.ctl with life := .retired } }
  | some y =>
    let s := updMem s n fun m => { m with ctl := { m.ctl with life := .restoring } }
    if y.restore = (0, 0) then resumeAt s n 0 else s

/-- RESTORE_START: in T0 of the new bind every member runs its RESTORE block (R414). -/
def startRestore (s : State) (id : Word32) : State :=
  match findLaunch s id with
  | none => s
  | some l =>
    if !startsNow s l || l.areas = [] then s
    else
      let s := loadRest s l
      match findLaunch s id with
      | some l =>
        if l.state ≠ .bound then s
        else
          let s := restoreGraph s l
          let s := moveParts s l.id (renumber (l.sites.zipIdx.map fun x => savedSite l.id x.2) l.sites)
          let s := l.sites.foldl beginRestore s
          tellProfiles (updLaunch s id fun l => { l with state := .running, areas := [] }) l
      | none => s

/-- RESTORE_START (R414). -/
def execRestoreStart (launch : Word32) (s : State) : Host.Outcome State Fault Refusal := .next (startRestore s launch)

end Sys2Proof.Machine
end

