-- ==== Sys2Proof/Machine/Ending.lean ====
section
/-! DEFINITION. How launches end (R266, R337, R347, R348, R350, R404, R405, R437), and the switch of tenants
(R351). -/

namespace Sys2Proof.Machine

open Sys2Proof

/-! ## Retirement (R266) -/

/-- An M instruction within its occupancy that has yet to write CB: `aqk` sends its block off at its end (R214). -/
def writesCb : Instr → Bool
  | .aqk .. => true
  | _ => false

/-- A halted member has nothing left to do (R266).
DEDUCED (log 94), unsafe. -/
def canRetire (m : Member) : Bool :=
  (match m.ctl.life with | .halted => true | _ => false) && m.ctl.trap.isNone && m.l.lq.isEmpty && m.l.sq.isEmpty && m.grd.held.isEmpty &&
  m.ctl.fetch.lanes.isEmpty && m.mat.cbw.isEmpty && (m.mat.ops.all fun o => !writesCb o.ins) && engines.all fun e =>
    let x := streamOf m e
    x.queue.isEmpty && x.fly.isEmpty && x.chain.isNone

/-- The last member of a pre-empted gang to park or retire fixes TS (R409, R416). -/
def noteParked (s : State) (id : Word32) : State :=
  match findLaunch s id with
  | none => s
  | some l =>
    if l.preempt.isSome ∧ l.ts = none ∧ (l.sites.all fun k => isParked (mem s k)) then
      updLaunch s id fun l => { l with ts := some (s.cal + 16) }
    else s

/-- A member retires; with the last of them its launch does (R266, R350). -/
def retireStep (n : Nat) (s : State) : State :=
  if !canRetire (mem s n) then s
  else
    let id := (bindOf s n).launch
    let s := updMem s n fun m => { m with ctl := { m.ctl with life := .retired, frz := none, alignTo := none } }
    let s := withdrawAll s n
    let sites := launchSites s id
    if sites.all fun k => match (mem s k).ctl.life with | .retired => true | _ => false then endLaunch s id sites 0 0
    else noteParked s id

/-- MEMBER_RETIRE (R266). -/
def execMemberRetire (site : Nat) (s : State) : Host.Outcome State Fault Refusal := .next (retireStep site s)

/-! ## Kill (R348) -/

/-- The participations of a saved launch end (R350): they stand among what is resident, or in what a switch of tenants
has saved (R351). -/
def breakSaved (s : State) (l : Launch) : State :=
  if l.func.toNat = s.tenant then breakBarriers s (savedSites l)
  else match tget none s.tenantSaves l.func.toNat with
    | none => s
    | some x =>
      let t := breakBarriers { s with barriers := x.bars, dflags := x.flags } (savedSites l)
      { s with tenantSaves := tput none s.tenantSaves l.func.toNat (some { x with bars := t.barriers, flags := t.dflags }) }

/-- The firmware kills a launch: completion status 3. -/
def killLaunch (s : State) (id : Word32) : State :=
  match findLaunch s id with
  | none =>
    match launchSites s id with
    | [] => s
    | l => endLaunch s id l 3 0
  | some l =>
    match l.state with
    | .ended => s
    | .saved => breakSaved (endLaunch s id [] 3 0) l
    | _ => breakParts (endLaunch s id l.sites 3 0) l

/-- KILL (R348). -/
def execKill (launch : Word32) (s : State) : Host.Outcome State Fault Refusal := .next (killLaunch { s with killReg := launch } launch)

/-! ## The watchdog (R347) -/

/-- STATUS of a watchdog record of a frozen member: the flag waited for. A slot that is open on no flag has
none: the value is free.
DESIGN CHOICE (log 81), safe. -/
def waitStatus (s : State) (n : Nat) (h : Hold) : Nat × State :=
  match waitFlag n h, h with
  | some (f, _), _ => (f.toNat, s)
  | none, .slotOpen q | none, .litOpen q =>
    match (tget Slot.free (mem s n).grd.slots q.val).src with
    | some (.flag dev k _) => (k + 4096 * bit dev, s)
    | _ =>
      let (w, s) := drawFree s
      (w.toNat % 2 ^ 14, s)
  | none, _ => (0, s)

/-- Address of the instruction a frozen member waits with. -/
def waitAddr (m : Member) : Nat := (laneQueues.findSome? fun q => (dueLane m q).map QLane.addr).getD m.ctl.fetch.pc

/-- The record of a member frozen with FLAG_WAIT or GUARD_WAIT. -/
def waitRecord (s : State) (n : Nat) : State × Nat :=
  let m := mem s n
  match m.ctl.frz with
  | some h =>
    if holdCause m h = 6 ∨ holdCause m h = 7 then
      let (st, s) := waitStatus s n h
      (postRec s (siteRec s n 1 1 .waitTimeout false false st (headTag m).iter.toNat (headTag m) (waitAddr m % 2 ^ 48)), 1)
    else (s, 0)
  | none => (s, 0)

/-- The token a stream waits on. -/
def waitToken (x : Stream) : Option FlagTok :=
  match nextCmd x with
  | some (c, _) => if c.since.isSome then (cmdTokens c.ins)[c.taken]? else none
  | none => none

/-- The records of a member's streams that wait on a token. -/
def tokenRecords (s : State) (n : Nat) : State × Nat :=
  engines.foldl (fun (p : State × Nat) e =>
    let x := streamOf (mem p.1 n) e
    match waitToken x with
    | some t =>
      (postRec p.1 (siteRec p.1 n 2 e.val .waitTimeout false false (t.n.toNat + 4096 * bit t.dev) x.idx.toNat (tagOf none) x.idx.toNat),
        p.2 + 1)
    | none => p) (s, 0)

/-- The records of an expired launch, one with SRC kind 5 where nothing waits. -/
def expiryRecords (s : State) (l : Launch) : State :=
  let (s, k) := l.sites.foldl (fun (p : State × Nat) n =>
    let (s, a) := waitRecord p.1 n
    let (s, b) := tokenRecords s n
    (s, p.2 + a + b)) (s, 0)
  if k = 0 then postRec s (dispatchRec s l.ctx l.id (kindCode .waitTimeout) 0 0) else s

/-- WATCHDOG_EXPIRY (R347): the launch has not retired at its DEADLINE. -/
def expireLaunch (s : State) (id : Word32) : State :=
  match findLaunch s id with
  | none => s
  | some l =>
    let live := match l.state with | .bound | .running | .saving => true | _ => false
    if !live ∨ s.cal < l.deadline then s
    else
      let s := expiryRecords s l
      if vigilArmed s 3 then vigilFire s 4 (some (dispatchRec s l.ctx l.id (kindCode .waitTimeout) 0 0))
      else breakParts (endLaunch s id l.sites 2 (kindCode .waitTimeout)) l

/-- WATCHDOG_EXPIRY (R347). -/
def execWatchdogExpiry (launch : Word32) (s : State) : Host.Outcome State Fault Refusal := .next (expireLaunch s launch)

/-! ## The completion word (R337) -/

/-- The completion word. -/
def completionBytes (l : Launch) : List Byte :=
  leBytes 4 l.id.toNat ++ leBytes 1 l.status.toNat ++ leBytes 1 l.cause.toNat ++ leBytes 2 0 ++ leBytes 8 l.endTick

/-- Writes of a launch that have left the module and are not yet visible at `.sys`, whoever of it made them (R289). -/
def launchWrites (s : State) (id : Word32) : List OutReq := s.outs.filter fun r => r.write && r.launch == id

/-- COMPLETION_WORD (R337): written, with a release at `.sys`, once the launch's writes are visible and the totals of its
function's profile session (R426); then the launch is forgotten.
DESIGN CHOICE (log 80), unsafe. -/
def completeLaunch (s : State) (id : Word32) : State :=
  match findLaunch s id with
  | none => s
  | some l =>
    if l.state ≠ .ended ∨ !l.owed then s
    else match awaitVisible s (.device l.func.toNat) (launchWrites s id) with
      | (false, s) => s
      | (true, s) =>
        let s := eachSlot l.func.toNat (addToSlot l.counts) (release s sysKey l.clk)
        let s := if l.doneVA = 0 then s else (ctxWrite l.ctx.toNat l.doneVA.toNat (completionBytes l) s).2
        { s with launches := s.launches.filter fun x => x.id != id }

/-- COMPLETION_WORD (R337). -/
def execCompletionWord (launch : Word32) (s : State) : Host.Outcome State Fault Refusal := .next (completeLaunch s launch)

/-! ## Function Level Reset (R404, R405) -/

/-- Of the elements of an `rmerge` that were sent and not acknowledged when a reset cut it short, one performed at its
home, or it was dropped; which of them did is not stated (R405). The numbers of those that did, so far.
DESIGN CHOICE (log 88), safe. -/
def scatterOne (n : Nat) (e : Fin 4) (f : Fly) (r : List Nat × State) (i : Nat) : List Nat × State :=
  let (h, off) := destOf f
  let pa := hBase h + off + 4 * i
  let done := Config.freeBit r.2.free
  let s := { r.2 with free := r.2.free + 1 }
  if !done then (r.1, s)
  else match windowOf pa with
    | .dev =>
      let key := ctxKey s n
      let fp := match f.cap.ins with | .rmerge _ _ _ ty .. => !ty | _ => true
      let copies := (f.aux.drop 4).map fun v =>
        leNat (((keyedBytes s (keyOf s key) (mergePa f (v + 4 * i) / 32 * 32) 32).drop (mergePa f (v + 4 * i) % 32)).take 4)
      match atomBy s (engAcc s n e f) (hKeyIdx h) pa 4 (fun old => some (mergeElem fp copies old)) with
      | (.data _, s) => (r.1 ++ [i], s)
      | _ => (r.1, s)
    | _ => (if f.req = [] then r.1 else r.1 ++ [i], s)

/-- The record of an `rmerge` that a reset cuts short: the count of elements applied, and the lowest one dropped; at most
64 are sent beyond those that are known to have performed (R405). -/
def scatterRec (n : Nat) (e : Fin 4) (s : State) (f : Fly) : State :=
  match f.cap.ins with
  | .rmerge .. =>
    if f.ph = donePh then s
    else
      let (h, off) := destOf f
      let k := if f.ph = 3 then f.aux.getD 1 0 else 0
      let left := if f.ph = 3 then min 64 (regN f 3 / 4 - k) else 0
      let (did, s) := ((List.range left).map (k + ·)).foldl (scatterOne n e f) ([], s)
      let low := ((List.range left).map (k + ·)).find? fun i => !did.contains i
      { s with recsTerm := s.recsTerm ++
          [{ siteRec s n 2 e.val .illegal false false (k + did.length) f.idx.toNat (tagOf none) 0 with
             addr := BitVec.ofNat 64 ((hVa h + off + 4 * low.getD (k + left)) % 2 ^ 54) }] }
  | _ => s

/-- Records of the atomic scatters in flight of a site, to the PF's terminal ring. -/
def scatterRecs (s : State) (n : Nat) : State :=
  engines.foldl (fun s e => (streamOf (mem s n) e).fly.foldl (scatterRec n e) s) s

/-- A launch killed by a reset: no completion word is written, and its members' buffers are scrubbed; one that has ended
holds its sites no more. -/
def resetLaunch (s : State) (l : Launch) : State :=
  let s := if l.state = .ended then s
    else
      let s := l.sites.foldl scatterRecs s
      let s := killLaunch s l.id
      l.sites.foldl (fun s n => updMem s n fun m => { m with buf := { m.buf with wb := [], ab := [], cb := [], bad := [] } }) s
  { s with launches := s.launches.filter fun x => x.id != l.id }

/-- The reset of a function begins: its queues stop, its launches are killed, its writes toward the host in
flight are dropped (R404, steps 1 to 3).
DESIGN CHOICE (log 87), safe. -/
def beginReset (s : State) (func : Nat) : State :=
  let mine := s.launches.filter fun l => funcOf s l.ctx.toNat == func
  let outs := s.outs.filter fun r => !(r.host && r.func == func)
  let s := mine.foldl resetLaunch { s with outs := outs }
  { s with flr := if s.flr.contains func then s.flr else func :: s.flr }

/-- The reset of a function ends: its queues and its fault ring return to reset (R404, step 4). -/
def endReset (s : State) (func : Nat) : State :=
  let back (p : Nat × WorkQueue) : Nat × WorkQueue :=
    if p.2.func.toNat = func then (p.1, { p.2 with head := 0, tail := 0, raised := 0, since := none, came := [] }) else p
  { s with queues := s.queues.map back
           rings := if func = 0 then s.rings else tput Ring.reset s.rings (1 + func) Ring.reset
           recsVf := s.recsVf.filter fun r => r.1 != func
           flr := s.flr.filter fun f => f != func }

/-- The functions that a reset of one resets: the PF's resets all (R404). -/
def resetScope (func : Nat) : List Nat := if func = 0 then List.range 127 else [func]

/-- FUNCTION_LEVEL_RESET (R404): the request, and once it is under way its completion. -/
def resetFunction (s : State) (func : Nat) : State :=
  if 126 < func then s
  else if s.flr.contains func then (resetScope func).foldl endReset s
  else (resetScope func).foldl beginReset s

/-- FUNCTION_LEVEL_RESET (R404). -/
def execFunctionLevelReset (func : Nat) (s : State) : Host.Outcome State Fault Refusal := .next (resetFunction s func)

/-! ## Power (R436, R437) -/

/-- POWER_CAP: clamped to its range. -/
def execPowerCap (watts : Nat) (s : State) : Host.Outcome State Fault Refusal :=
  .next { s with powerCap := min 3800 (max 1200 watts) }

/-- The newest bound launch. -/
def newestBound (s : State) : Option Launch :=
  (s.launches.filter fun l => match l.state with | .bound | .running | .saving => true | _ => false).foldl
    (fun a l => match a with
      | some x => if x.order < l.order then some l else some x
      | none => some l) none

/-- POWER_OVERDRAW (R437): the draw measured over 1 ms exceeds the cap by more than 5 %, or has not come back under the
cap since it did: the newest bound launch is killed. -/
def overdraw (s : State) (mw : Nat) : State :=
  if s.powerCap * 1050 < mw ∨ (s.overCap ∧ s.powerCap * 1000 ≤ mw) then
    let s := { s with overCap := true }
    match newestBound s with
    | some l => killLaunch s l.id
    | none => s
  else { s with overCap := false }

/-- POWER_OVERDRAW (R437). -/
def execPowerOverdraw (milliwatts : Nat) (s : State) : Host.Outcome State Fault Refusal := .next (overdraw s milliwatts)

/-! ## Tenants (R351) -/

/-- A launch of a tenant that is bound. -/
def boundOf (s : State) (func : Nat) : List Launch :=
  s.launches.filter fun l => l.func.toNat == func && match l.state with | .bound | .running | .saving | .armed => true | _ => false

/-- Heads of a tenant's queues. -/
def headsOf (s : State) (func : Nat) : Tab Nat :=
  (s.queues.filter fun p => p.2.func.toNat == func).map fun p => (p.1, p.2.head.toNat)

/-- The resident state of the outgoing tenant is saved, then that of the next is loaded. -/
def swapTenants (s : State) (func : Nat) : State :=
  let old : TenantSave := { heads := headsOf s s.tenant, flags := s.dflags, bars := s.barriers }
  let s := { s with tenantSaves := tput none s.tenantSaves s.tenant (some old) }
  let new : TenantSave := (tget none s.tenantSaves func).getD { heads := headsOf s func, flags := [], bars := [] }
  let back (p : Nat × WorkQueue) : Nat × WorkQueue :=
    if p.2.func.toNat = func then
      let w := { p.2 with head := BitVec.ofNat 32 (tget p.2.head.toNat new.heads p.1) }
      (p.1, if 2048 ≤ p.1 then acceptTail w (tget 0 new.flags w.tailf.toNat) else w)
    else p
  { s with tenant := func, sliceAt := s.cal, dflags := new.flags, barriers := new.bars, queues := s.queues.map back }

/-- A tenant has a launch to run: one that the firmware has taken, or a record in a queue (R351). -/
def runnable (s : State) (func : Nat) : Bool :=
  (s.launches.any fun l => l.func.toNat == func && l.state != .ended) ||
  s.queues.any fun p => p.2.func.toNat == func && p.2.en && p.2.tail != p.2.head

/-- The switch to a tenant is due: the slice of the one that runs is over or it has nothing to run, and the next one has
(R351).
DEDUCED (log 155), safe. -/
def switchDue (s : State) (func : Nat) : Bool :=
  runnable s func && (decide (s.sliceAt + 2 ^ 26 ≤ s.cal) || !runnable s s.tenant)

/-- TENANT_SWITCH (R351): while gangs of the outgoing tenant are bound, the firmware asks for their
pre-emption one after the other; then the tenants change.
DESIGN CHOICE (log 89), safe. -/
def switchTenant (s : State) (func : Nat) : State :=
  if func = s.tenant ∨ 126 < func ∨ switchDue s func = false then s
  else match boundOf s s.tenant with
    | [] => swapTenants s func
    | l =>
      match l.find? fun x => x.preempt.isNone with
      | some x => askPreempt s x.id
      | none => s

/-- TENANT_SWITCH (R351). -/
def execTenantSwitch (func : Nat) (s : State) : Host.Outcome State Fault Refusal := .next (switchTenant s func)

end Sys2Proof.Machine
end

