-- ==== Sys2Proof/Machine/Inval.lean ====
section
/-! DEFINITION. The management core's hold on translation: invalidation (R322 to R324), migration of a page
(R331, R332), and the reporting port of the fault rings (R328 to R330). -/

namespace Sys2Proof.Machine

open Sys2Proof

/-! ## Invalidation -/

/-- A handle of the request's context is covered (R322, R323): it is valid and its page overlaps the range. -/
def covers (r : Inval) (h : BitVec 128) : Bool :=
  let p := hVpage h
  let n := if hBig h then 2 ^ 13 else 1
  hValid h && (r.count == 0 || (decide (p < r.va.toNat + r.count.toNat) && decide (r.va.toNat < p + n)))

/-- A handle as the request leaves it (R323). -/
def strike (r : Inval) (h : BitVec 128) : BitVec 128 := if covers r h then hClear h else h

/-- A captured handle. -/
def strikeSrc (r : Inval) : HSrc → HSrc
  | .now h => .now (strike r h)
  | x => x

/-- The handles of a captured instruction. -/
def strikeCap (r : Inval) (c : Cap) : Cap := { c with hs := c.hs.map fun p => (p.1, strikeSrc r p.2) }

/-- The handles of a command in flight or stopped; one that no longer fails by them keeps them (R259, R260). -/
def strikeFly (r : Inval) (f : Fly) : Fly :=
  if holdsOn f then f
  else { f with cap := strikeCap r f.cap, hs := f.hs.map fun p => (p.1, strike r p.2) }

/-- The handles of a stream: queued commands, commands in flight, the chain's set (R252, R323). -/
def strikeStream (r : Inval) (x : Stream) : Stream :=
  { x with queue := x.queue.map (strikeCap r), fly := x.fly.map (strikeFly r), stopped := x.stopped.map (strikeFly r)
           chain := x.chain.map fun c =>
             { c with hs := c.hs.map fun p => (p.1, strike r p.2), cur := c.cur.map (strikeCap r) } }

/-- An `xlat` whose walk began before the request takes effect delivers its result with VALID 0 and the earlier GEN; one
whose address has not landed has no walk yet (R233, R323). -/
def strikeLand (r : Inval) (gen : BitVec 16) (x : Land) : Land :=
  match x.val with
  | .xlat hn (.now a) start bad _ => if start < r.tick ∧ bad = false then { x with val := .xlat hn (.now a) start true gen } else x
  | _ => x

/-- An entry of L. -/
def strikeEnt (r : Inval) (e : LEnt) : LEnt := { e with cap := strikeCap r e.cap }

/-- The handles of a member (R323). -/
def strikeMember (r : Inval) (gen : BitVec 16) (m : Member) : Member :=
  { m with
    regs := { m.regs with h := tmap 0 (strike r) m.regs.h }
    fly := { m.fly with lands := m.fly.lands.map (strikeLand r gen) }
    grd := { m.grd with held := m.grd.held.map (strikeCap r) }
    l := { m.l with lq := m.l.lq.map (strikeEnt r), sq := m.l.sq.map (strikeEnt r)
                    defer := m.l.defer.map fun x => (strikeEnt r x.1, x.2) }
    eng := tmap Stream.t0 (strikeStream r) m.eng }

/-- A lookup core keeps no cached row of a struck handle (R324). -/
def dropRows (c : Lookup) : Lookup := { c with cache := c.cache.filter fun x => hValid (tget 0 c.h x.1) }

/-- The handles of a lookup core; what an instruction on its way captured stays its own (R324). -/
def strikeLookup (r : Inval) (c : Lookup) : Lookup := dropRows { c with h := tmap 0 (strike r) c.h }

/-- Contexts of a lookup core's program. -/
def lookupCtx (s : State) (c : Lookup) : Nat := siteCtx s c.site

/-- Some 64 KiB pages from one on lie in the range of a request (R322). -/
def inRange (r : Inval) (page n : Nat) : Bool :=
  r.count == 0 || (decide (page < r.va.toNat + r.count.toNat) && decide (r.va.toNat < page + n))

/-- A kept copy of an image is dropped by the request: it covers a page of the image (R340). -/
def dropsCopy (s : State) (r : Inval) (c : ImageCopy) : Bool :=
  c.ctx == r.ctx &&
  (List.range ((c.va % 65536 + c.size + 65535) / 65536)).any fun i =>
    let p := c.va / 65536 + i
    inRange r p 1 || (hBig (translate s r.ctx (65536 * p)) && inRange r (p / 8192 * 8192) 8192)

/-- The registers as a request writes them, DONE clear (R322). -/
def writeInval (s : State) (ctx : Nat) (va : BitVec 38) (count : BitVec 24) : State :=
  { s with invVa := va, invCtl := BitVec.ofNat 64 (count.toNat * 2 ^ 40 + ctx % 2 ^ 12 * 2 ^ 16) }

/-- The request takes effect (R323). -/
def startInval (s : State) (ctx : Nat) (va : BitVec 38) (count : BitVec 24) : State :=
  let r : Inval := { ctx := ctx, va := va, count := count, tick := s.cal, mark := s.fresh }
  let old := (ctxOf s ctx).gen
  { s with
    ctxs := tput Ctx.reset s.ctxs ctx { ctxOf s ctx with gen := old + 1 }
    inval := some r
    copies := s.copies.filter fun c => !dropsCopy s r c
    members := s.members.map fun p => (p.1, if siteCtx s p.1 = ctx then strikeMember r old p.2 else p.2)
    lookups := s.lookups.map fun p => (p.1, if lookupCtx s p.2 = ctx then strikeLookup r p.2 else p.2) }

/-- GO is written (R322): a request that is still running delays the new one, after those it delays already. -/
def goInval (s : State) (ctx : Nat) (va : BitVec 38) (count : BitVec 24) : State :=
  let s := writeInval s ctx va count
  if s.inval.isSome then { s with invNext := s.invNext ++ [(ctx, va, count)] } else startInval s ctx va count

/-- INVALIDATION_REQUEST (R322). -/
def execInvalidationRequest (ctx : Nat) (va : BitVec 38) (count : BitVec 24) (s : State) : Host.Outcome State Fault Refusal :=
  .next (if 4096 ≤ ctx then s else goInval s ctx va count)

/-- Context of a requester. -/
def requesterCtx (s : State) : Requester → Option Nat
  | .l n | .eng n _ => some (siteCtx s n)
  | .lookup k => some (lookupCtx s (lookupCore s k))
  | .device _ => none

/-- A virtual address may lie on a page that the request covers, whatever the size of its page was. -/
def mayCover (r : Inval) (va : Nat) : Bool := inRange r (va / 2 ^ 29 * 8192) 8192

/-- A command in flight works at addresses that were translated before the request: small accesses it still has to
make, the copies of an `rmerge`, and what a command writes that no longer fails (R259, R260, R324). -/
def flyCrosses (r : Inval) (f : Fly) : Bool :=
  (f.ops.any fun op => match op with | .move .. => true | op => mayCover r (opVa op)) ||
  (holdsOn f && (f.hs.any (fun p => mayCover r (hVa p.2)) || f.pages.any fun p => mayCover r (65536 * p.1)))

/-- Everything issued under a covered handle has performed, landed or faulted (R324).
DEDUCED (log 108), safe. -/
def invalOver (s : State) (r : Inval) : Bool :=
  s.outs.all (fun o => requesterCtx s o.who != some r.ctx) &&
  s.members.all (fun p => siteCtx s p.1 != r.ctx ||
    (p.2.fly.lands.all (fun x => match x.val with
      | .xlat .. => !decide (x.tok < r.mark)
      | _ => true) &&
    p.2.eng.all fun x => x.2.fly.all fun f => !flyCrosses r f)) &&
  s.lookups.all (fun p => lookupCtx s p.2 != r.ctx || (match p.2.work with | some w => !covers r w.h | none => true))

/-- A request is over (R324): the end of a page's migration (R331), and DONE, or the next of the requests that it
delayed (R322). -/
def endInval (s : State) (r : Inval) : State :=
  let s := { s with
    inval := none, invCtl := if s.invNext = [] then s.invCtl ||| 2 else s.invCtl
    mig := match s.mig with
      | some g => if g.ending then none else some g
      | none => none
    lookups := s.lookups.map fun (p : Nat × Lookup) => (p.1, if lookupCtx s p.2 = r.ctx then dropRows p.2 else p.2) }
  match s.invNext with
  | (ctx, va, count) :: rest => startInval { s with invNext := rest } ctx va count
  | [] => s

/-- Writes of the context that have left for the host: a flushing read of the firmware's follows them, behind which
they are performed (R289, R324).
DEDUCED (log 108), safe. -/
def flushCtx (s : State) (ctx : Nat) : State :=
  (awaitVisible s (.device 0) (s.outs.filter fun o => o.host && o.write && requesterCtx s o.who == some ctx)).2

/-- INVALIDATION_DONE (R324). -/
def execInvalidationDone (s : State) : Host.Outcome State Fault Refusal :=
  .next (match s.inval with
    | none => s
    | some r => if invalOver s r then endInval s r else flushCtx s r.ctx)

/-! ## Migration of a page (R331, R332) -/

/-- The physical address of the leaf that maps a virtual address, and its value. -/
def leafAt (s : State) (ctx va : Nat) : Option (Nat × Nat) :=
  let c := ctxOf s ctx
  let at_ (base i : Nat) : Nat := base + 8 * i
  match tableEntry s (at_ (c.root.toNat * 2 ^ 16) (bits va 53 42)) with
  | none => none
  | some e =>
    if bits e 1 1 = 1 then none
    else
      let b := at_ (bits e 45 16 * 2 ^ 16) (bits va 41 29)
      match tableEntry s b with
      | none => none
      | some e =>
        if bits e 1 1 = 1 then some (b, e)
        else
          let a := at_ (bits e 45 16 * 2 ^ 16) (bits va 28 16)
          match tableEntry s a with
          | none => none
          | some e => if bits e 1 1 = 1 then some (a, e) else none

/-- A leaf with MIG set and W clear (R331). -/
def migLeaf (e : Nat) : Nat := (e - bits e 6 6 * 64 - bits e 4 4 * 16) + 64

/-- A leaf moved to another page, MIG clear. -/
def movedLeaf (e dst : Nat) : Nat := e - bits e 45 16 * 2 ^ 16 - bits e 6 6 * 64 + dst / 2 ^ 16 * 2 ^ 16

/-- Steps 1 and 2: the leaf is marked, and the page invalidated. -/
def migBegin (s : State) (ctx va dst : Nat) : State :=
  match leafAt s ctx va, walk s ctx va with
  | some (pa, e), .ok base big _ _ _ =>
    let n := if big then 2 ^ 29 else 2 ^ 16
    if dst % n ≠ 0 ∨ 2 ^ 46 < dst + n ∨ dst = base then s
    else
      let s := devWrite s pa (leBytes 8 (migLeaf e))
      let s := goInval s ctx (BitVec.ofNat 38 (va / n * n / 2 ^ 16)) (BitVec.ofNat 24 (n / 2 ^ 16))
      { s with mig := some { ctx := ctx, va := BitVec.ofNat 54 (va / n * n), leafPA := pa, leaf := BitVec.ofNat 64 e
                             dst := dst, size := n, copied := false, failed := false, ending := false } }
  | _, _ => s

/-- One sector of the page is copied under the context's key (R331, R431): a poisoned one reads as none (R314), and what
the firmware's stream reads outside device memory is a free value. -/
def migSector (key : BitVec 512) (src dst : Nat) (s : Option State) (i : Nat) : Option State := do
  let s ← s
  let (b, s) ← match windowOf (src + 32 * i) with
    | .dev => if tget false s.dbad (src / 32 + i) then none else some (sectorAs s key (src + 32 * i), s)
    | _ => some (drawBytes 32 s)
  match windowOf (dst + 32 * i) with
  | .dev => some (sectorPut key (dst + 32 * i) b false s)
  | _ => paPut 0 (dst + 32 * i) b s

/-- Step 3: the copy; an uncorrectable error of the source fails it (R332). -/
def migCopy (s : State) (g : Mig) : State :=
  let src := bits g.leaf.toNat 45 16 * 2 ^ 16
  match (List.range (g.size / 32)).foldl (migSector (keyOf s (ctxOf s g.ctx).key.toNat) src g.dst) (some s) with
  | some s => { s with mig := some { g with copied := true } }
  | none => mgmtNote { s with mig := some { g with failed := true } } 2 g.leafPA

/-- Steps 4 and 5, once the copy's writes are visible, or the way back (R332). -/
def migFinish (s : State) (g : Mig) : State :=
  if g.failed then { devWrite s g.leafPA (leBytes 8 g.leaf.toNat) with mig := none }
  else match sysVisible s (.device 0) [] with
    | (false, s) => s
    | (true, s) =>
      let s := devWrite s g.leafPA (leBytes 8 (movedLeaf g.leaf.toNat g.dst))
      { goInval s g.ctx (BitVec.ofNat 38 (g.va.toNat / 2 ^ 16)) (BitVec.ofNat 24 (g.size / 2 ^ 16)) with
        mig := some { g with ending := true } }

/-- PAGE_MIGRATION: one part of the firmware's procedure; each waits for the invalidation before it (R331).
DESIGN CHOICE (log 107), unsafe. -/
def execPageMigration (m : Migration) (s : State) : Host.Outcome State Fault Refusal :=
  .next (
    if s.inval.isSome then s
    else match m, s.mig with
      | .begin_ ctx va dst, none => migBegin s ctx va.toNat dst
      | .copy, some g => if g.copied || g.failed then s else migCopy s g
      | .copyFails, some g => if g.copied || g.failed then s else mgmtNote { s with mig := some { g with failed := true } } 2 g.leafPA
      | .finish, some g => if (g.copied || g.failed) && !g.ending then migFinish s g else s
      | _, _ => s)

/-! ## The reporting port (R328 to R330) -/

/-- The 32 bytes of a fault record (R328). -/
def recBytes (r : FaultRec) : List Byte :=
  leBytes 2 r.ctx.toNat ++ leBytes 2 r.func.toNat ++ leBytes 4 r.launch.toNat ++ leBytes 2 r.src.toNat ++
  leBytes 1 r.cause.toNat ++ leBytes 1 (bit r.deferred + 2 * bit r.replay) ++ leBytes 4 r.status.toNat ++
  leBytes 4 r.index.toNat ++ leBytes 2 r.loop.toNat ++ leBytes 1 r.stagep.toNat ++ leBytes 1 0 ++ leBytes 8 r.addr.toNat

/-- The ring is full (R329). -/
def ringFull (r : Ring) : Bool := (r.tail - r.head).toNat == 2 ^ r.logn.toNat

/-- A record is written, the tail advances, and the owning function is interrupted (R329); none while no link carries
the record of a ring outside device memory. -/
def ringPut (s : State) (k func : Nat) (x : FaultRec) : Option State := do
  let r := tget Ring.reset s.rings k
  let s ← paPut func (r.base.toNat * 4096 + 32 * (r.tail.toNat % 2 ^ r.logn.toNat)) (recBytes x) s
  some { s with
    rings := tput Ring.reset s.rings k { r with tail := r.tail + 1 }
    msix := if r.ien && !s.flr.contains func then s.msix ++ [(func, r.vec.toNat)] else s.msix
    posted := true }

/-- A class's weight: 0 acts as 1 (R330). -/
def weightOf (s : State) (k : Nat) : Nat := max 1 (tget (([8, 4, 1] : List (BitVec 4))[k]?.getD 1) s.weights k).toNat

/-- The VF whose copy is served next: the lowest above the last served, wrapping round (R330). -/
def nextVf (s : State) : Option Nat :=
  let l := s.recsVf.map Prod.fst
  let least (p : Nat → Bool) : Option Nat := (List.range 127).find? fun v => p v && l.contains v
  (least fun v => decide (s.lastVf < v)).or (least fun _ => true)

/-- The class served next and the round as it then stands (R330): a class whose turn has passed in this round
waits for the next. -/
def nextClass (s : State) : Option (Nat × List Nat) :=
  let have' : List Bool := [!s.recs.isEmpty, !s.recsTerm.isEmpty, !s.recsVf.isEmpty]
  let n (k : Nat) : Nat := (s.round[k]?).getD 0
  let over_ (k : Nat) : Bool := (List.range 3).any fun j => decide (k < j) && n j != 0
  let open_ (k : Nat) : Bool := (have'[k]?.getD false) && !over_ k && decide (n k < weightOf s k)
  match (List.range 3).find? open_ with
  | some k => some (k, (List.range 3).map fun j => if j = k then n j + 1 else n j)
  | none => ((List.range 3).find? fun k => have'[k]?.getD false).map fun k => (k, (List.range 3).map fun j => if j = k then 1 else 0)

/-- A VF's copy is written, or dropped where its ring is full or disabled, or while the function is being reset (R329,
R404). -/
def postVf (s₀ : State) (v : Nat) : State :=
  match s₀.recsVf.find? fun p => p.1 == v with
  | none => s₀
  | some p =>
    let s := { s₀ with recsVf := s₀.recsVf.erase p, lastVf := v, posted := true }
    let r := tget Ring.reset s.rings (1 + v)
    if !r.en || s.flr.contains v then s
    else if ringFull r then { s with rings := tput Ring.reset s.rings (1 + v) { r with ovf := true } }
    else (ringPut s (1 + v) v p.2).getD s₀

/-- FAULT_RECORD_POST: the port writes one record, or waits on a full ring (R329, R330).
DEDUCED (log 109), unsafe. -/
def execFaultRecordPost (s : State) : Host.Outcome State Fault Refusal :=
  .next (
    let ready (k : Nat) : Bool := let r := tget Ring.reset s.rings k; r.en && !ringFull r
    if s.posted then s
    else match nextClass s with
      | none => s
      | some (0, round) => (match s.recs with
        | x :: rest => if ready 0 then (ringPut { s with recs := rest, round := round } 0 0 x).getD s else s
        | [] => s)
      | some (1, round) => (match s.recsTerm with
        | x :: rest => if ready 1 then (ringPut { s with recsTerm := rest, round := round } 1 0 x).getD s else s
        | [] => s)
      | some (_, round) => (match nextVf s with
        | some v => postVf { s with round := round } v
        | none => s))

end Sys2Proof.Machine
end

