-- ==== Sys2Proof/Machine/Signature.lean ====
section
/-! DEFINITION. Ed448ph, the signature of attestation reports (R2, R430), as RFC 8032 gives it: the spec names the
function. -/

namespace Sys2Proof.Machine

open Sys2Proof

/-- The prime of the field. -/
def edPrime : Nat := 2 ^ 448 - 2 ^ 224 - 1

/-- The order of the base point. -/
def edOrder : Nat := 2 ^ 446 - 13818066809895115352007386748515426880336692474882178609894547503885

/-- A point of the curve in projective coordinates. -/
structure EdPoint where
  x : Nat
  y : Nat
  z : Nat
  deriving DecidableEq, Repr

/-- The base point. -/
def edBase : EdPoint :=
  { x := 224580040295924300187604334099896036246789641632564134246125461686950415467406032909029192869357953282578032075146446173674602635247710
    y := 298819210078481492676017930443930673437544040154080242095928241372331506189835876003536878655418784733982303233503462500531545062832660
    z := 1 }

/-- A difference in the field. -/
def edSub (a b : Nat) : Nat := (a + edPrime - b % edPrime) % edPrime

/-- The sum of two points; the curve is x² + y² = 1 - 39081 x² y². -/
def edAdd (p q : EdPoint) : EdPoint :=
  let a := p.z * q.z % edPrime
  let b := a * a % edPrime
  let c := p.x * q.x % edPrime
  let d := p.y * q.y % edPrime
  let e := edSub 0 (39081 * c * d)
  let f := edSub b e
  let g := (b + e) % edPrime
  let h := (p.x + p.y) * (q.x + q.y) % edPrime
  { x := a * f % edPrime * edSub (edSub h c) d % edPrime, y := a * g % edPrime * edSub d c % edPrime, z := f * g % edPrime }

/-- The multiple of a point by a number below 2^n. -/
def edMul : Nat → Nat → EdPoint → EdPoint
  | 0, _, _ => { x := 0, y := 1, z := 1 }
  | n + 1, k, p =>
    let r := edMul n (k / 2) (edAdd p p)
    if k % 2 = 1 then edAdd p r else r

/-- A power in the field, the exponent below 2^n. -/
def edPow : Nat → Nat → Nat → Nat
  | 0, _, _ => 1
  | n + 1, k, a =>
    let r := edPow n (k / 2) (a * a % edPrime)
    if k % 2 = 1 then a * r % edPrime else r

/-- The 57 bytes of a point: y, and the least bit of x in the last. -/
def edBytes (p : EdPoint) : List Byte :=
  let i := edPow 448 (edPrime - 2) p.z
  leBytes 56 (p.y * i % edPrime) ++ [BitVec.ofNat 8 (p.x * i % edPrime % 2 * 128)]

/-- The prefix of every digest: the scheme's name, the flag that tells a prehash, and an empty context. -/
def edDom (ph : Nat) : List Byte := [0x53, 0x69, 0x67, 0x45, 0x64, 0x34, 0x34, 0x38, BitVec.ofNat 8 ph, 0]

/-- A digest of 114 bytes as a number. -/
def edHash (m : List Byte) : Nat := leNat (shake256 114 m)

/-- A signature of a message, already digested where the flag tells so, under a secret key of 57 bytes. -/
def edSign (ph : Nat) (key m : List Byte) : List Byte :=
  let h := shake256 114 key
  let k := leNat (h.take 56)
  let s := k % 2 ^ 447 - k % 4 + 2 ^ 447
  let pub := edBytes (edMul 448 s edBase)
  let r := edHash (edDom ph ++ h.drop 57 ++ m) % edOrder
  let rb := edBytes (edMul 448 r edBase)
  let c := edHash (edDom ph ++ rb ++ pub ++ m) % edOrder
  rb ++ leBytes 57 ((r + c * s) % edOrder)

/-- Ed448ph of a message, its prehash SHAKE256 (R430). -/
def ed448ph (key m : List Byte) : List Byte := edSign 1 key (shake256 64 m)

end Sys2Proof.Machine
end

