-- ==== Sys2Proof/Machine/Security.lean ====
section
/-! DEFINITION. Vigil (R427, R428), bring-up and attestation (R429, R430), key slots (R431, R432) and alarms
(R433). -/

namespace Sys2Proof.Machine

open Sys2Proof

/-! ## Vigil -/

/-- ACTIVE (R427). -/
def vigilActive (s : State) : Bool := bits s.vigil.toNat 4 4 == 1

/-- A trigger fires where ARM is set and Vigil is not in force. -/
def vigilAsk (s : State) (cause : Nat) : State :=
  if bits s.vigil.toNat 0 0 = 1 ∧ vigilActive s = false then vigilFire s cause none else s

/-- VIGIL_TRIGGER: the debug port (cause 1) or a management write (cause 2); the triggers of terminal faults and
watchdogs fire with what raises them. -/
def execVigilTrigger (cause : BitVec 8) (s : State) : Host.Outcome State Fault Refusal :=
  .next (if cause = 1 ∨ cause = 2 then vigilAsk s cause.toNat else s)

/-- VIGIL_TRIG: 1 is written to VIGIL_CTL.TRIG. -/
def execVigilTrig (s : State) : Host.Outcome State Fault Refusal := .next (vigilAsk s 2)

/-- A section of the image: type, index, length, contents (R427). -/
structure ImageSection where
  type : Nat
  idx : Nat
  len : Nat
  body : Unit → List Byte

/-- Bytes the spec gives no layout for.
DESIGN CHOICE (log 116), safe. -/
def openBytes (s : State) (key n : Nat) : List Byte := (List.range n).map fun i => Config.imageByte s.vigilTv (key + i)

/-- Frames, masks and count of an s register, 48 bytes: what no alternative holds is open. -/
def sFrames (s : State) (key : Nat) (c : SCell) : List Byte :=
  let frame (i : Nat) : List Byte := match c.alts[i]? with
    | some (_, .val v) => leBytes 8 v.toNat
    | _ => openBytes s (key + 8 * i) 8
  let mask (i : Nat) : List Byte := match c.alts[i]? with
    | some (g, _) => leBytes 2 g.toNat
    | none => openBytes s (key + 32 + 2 * i) 2
  (List.range 4).flatMap frame ++ (List.range 4).flatMap mask ++ leBytes 1 c.alts.length ++ List.replicate 7 0

/-- One frame of a v register, 4,096 bytes. -/
def vFrame (s : State) (key : Nat) (m : Member) (v i : Nat) : List Byte :=
  (List.range 1024).flatMap fun k =>
    match (tget VAlts.zero m.regs.v (64 * v + k % 64)).alts[i]? with
    | some (_, .val c) => leBytes 4 (tget 0 c (k / 64)).toNat
    | _ => openBytes s (key + 4 * k) 4

/-- Masks and count of a v register, 16 bytes; open while its slices differ. -/
def vMasks (s : State) (key : Nat) (m : Member) (v : Nat) : List Byte :=
  let of (c : Nat) : List (BitVec 16) := (tget VAlts.zero m.regs.v (64 * v + c)).alts.map Prod.fst
  if (List.range 64).all fun c => of c == of 0 then
    ((List.range 4).flatMap fun i => match (of 0)[i]? with
      | some g => leBytes 2 g.toNat
      | none => openBytes s (key + 2 * i) 2) ++ leBytes 1 (of 0).length ++ List.replicate 7 0
  else openBytes s key 16

/-- The section of a site (R427): the state block shows the running record. -/
def siteBody (s : State) (n : Nat) : List Byte :=
  let m := mem s n
  let key := n * 2 ^ 24
  let shown := updMem s n fun m => { m with ctl := { m.ctl with
    yrec := m.ctl.yrec.or ((runRcd m).map fun r => { r with zero := groupCycle m }) } }
  stateBlock shown n ++ flagBytes m ++
  ((List.range 64).flatMap fun r => sFrames s (key + 64 * r) (tget SCell.zero m.regs.s r)) ++
  ((List.range 16).flatMap (kBytes m)) ++
  ((List.range 16).flatMap fun r => leBytes 32 (tget 0 m.regs.a r).toNat) ++
  ((List.range 16).flatMap fun r => leBytes 16 (tget 0 m.regs.h r).toNat) ++
  ((List.range 32).flatMap fun v => (List.range 4).flatMap fun i => vFrame s (key + 2 ^ 16 + 2 ^ 14 * v + 2 ^ 12 * i) m v i) ++
  ((List.range 32).flatMap fun v => vMasks s (key + 2 ^ 20 + 16 * v) m v) ++
  engines.flatMap fun e => engineBlock (streamOf m e)

/-- Bytes of a site's section. -/
def siteLen : Nat := 1024 + 4096 + 64 * 48 + 16 * 128 + 16 * 32 + 16 * 16 + 32 * 16384 + 32 * 16 + 4 * 6656

/-! ### Entries in flight -/

/-- The 64-byte header of an entry, and its data: the fields in the order of R427's table.
DESIGN CHOICE (log 165), unsafe. -/
def flightRec (kind pos : Nat) (c : Option Cap) (off : Nat) (data : List Byte) : List Byte :=
  let ws := (c.bind fun c => (encode c.ins).map Prod.snd).getD []
  leBytes 4 kind ++ leBytes 4 pos ++ ((ws.flatMap fun (w : Word32) => leBytes 4 w.toNat) ++ List.replicate 16 0).take 16 ++
  leBytes 8 (c.elim 0 fun c => entVa c off) ++ leBytes 16 ((c.bind entHandle).elim 0 BitVec.toNat) ++ leBytes 8 data.length ++
  List.replicate 8 0 ++ data

/-- The bytes of a whole vector register. -/
def cellBytes (c : Cells) : List Byte := (List.range 1024).flatMap fun k => leBytes 4 (tget 0 c k).toNat

/-- What an entry has captured: its s operands, then its v operands; one that is no single value yet is open. -/
def capBytesOf (s : State) (key : Nat) (c : Cap) : List Byte :=
  (c.ss.zipIdx.flatMap fun x => ((landedVal x.1).map fun v => leBytes 8 v.toNat).getD (openBytes s (key + 8 * x.2) 8)) ++
  (c.vs.zipIdx.flatMap fun x => match x.1 with
    | .now [(_, .val v)] => cellBytes v
    | _ => openBytes s (key + 256 + 4096 * x.2) 4096)

/-- Offset of the first byte that an entry reaches, where its operands are single values. -/
def entOff (e : LEnt) : Nat :=
  match e.pairs with
  | [(_, .val p)] => ((piecesOf e.cap.ins e.cap.msk p.ss p.vs).head?.map Piece.off).getD 0
  | _ => 0

/-- The alternatives of an entry of a data queue, in order. -/
def groupBytes {α : Type} (s : State) (key w : Nat) (f : α → List Byte) (g : Group α) : List Byte :=
  g.zipIdx.flatMap fun x => match x.1.2 with
    | .val v => f v
    | .poison .. => openBytes s (key + w * x.2) w

/-- Entries in flight at a site (R427): both queues of L, both data queues, held entries, pending registers. -/
def flightBytes (s : State) (n : Nat) : List Byte :=
  let m := mem s n
  let key (kind pos : Nat) : Nat := 2 ^ 40 + 2 ^ 24 * n + 2 ^ 20 * kind + 2 ^ 14 * pos
  (m.l.lq.zipIdx.flatMap fun x => flightRec 0 x.2 (some x.1.cap) (entOff x.1) (x.1.buf.map Prod.snd)) ++
  (m.l.sq.zipIdx.flatMap fun x => flightRec 1 x.2 (some x.1.cap) (entOff x.1) (capBytesOf s (key 1 x.2) x.1.cap)) ++
  (m.l.ldqV.zipIdx.flatMap fun x => flightRec 2 x.2 none 0 (groupBytes s (key 2 x.2) 4096 cellBytes x.1)) ++
  (m.l.ldqC.zipIdx.flatMap fun x => flightRec 3 x.2 none 0 (groupBytes s (key 3 x.2) 8 (fun v => leBytes 8 v.toNat) x.1)) ++
  (m.grd.held.zipIdx.flatMap fun x => flightRec 4 x.2 (some x.1) 0 (capBytesOf s (key 4 x.2) x.1)) ++
  (((List.range 64).filter fun r => (tget SCell.zero m.regs.s r).pend.isSome).flatMap fun r => flightRec 5 r none 0 []) ++
  (m.regs.vp.flatMap fun p => flightRec 5 (64 + p.1) none 0 []) ++
  (m.regs.hp.flatMap fun p => flightRec 5 (96 + p.1) none 0 [])

/-! ### Slices -/

/-- The physical address of a line from its set's key and tag (R305). -/
def lineOfTag (key : Nat) (tag : BitVec 15) : Nat :=
  let hi := tag.toNat * 2 ^ 23 + key % 1024 * 2 ^ 13
  hi + Nat.xor (key / 1024) (sliceOfPa hi) * 2 ^ 7

/-- A slice of L2 (R427): the tags of its sets, 16 bytes each, and the data of its ways; a tag or a way without a line is
zero. The order of the fields is the table's, and a line's way is its place among those of its set that have one.
DESIGN CHOICE (log 165), unsafe. -/
def sliceBody (s : State) (k : Nat) : List Byte :=
  let sets := (List.range 1024).map fun i => (1024 * k + i, tget [] s.l2 (1024 * k + i))
  let line (key : Nat) (t : Tag) : Nat := lineOfTag key t.tag
  let tag (key way : Nat) (t : Tag) : List Byte :=
    leBytes 8 (line key t) ++ [BitVec.ofNat 8 (bit t.zero), t.valid.setWidth 8, BitVec.ofNat 8 (t.pins.map Pin.count).sum] ++
    leBytes 1 way ++ List.replicate 4 0
  (sets.flatMap fun x =>
    ((x.2.zipIdx.flatMap fun y => tag x.1 ((x.2.take y.2).countP Tag.way) y.1) ++ List.replicate 384 0).take 384) ++
  (sets.flatMap fun x =>
    (((x.2.filter Tag.way).flatMap fun t => bytesAt s.dmem (line x.1 t) 128) ++ List.replicate 2048 0).take 2048)

/-- A typed buffer with its full bits (R427). -/
def bufBody (m : Member) (b : Nat) : List Byte :=
  bytesAt (bufMem m b) 0 (bufSize b) ++
  (if b = 1 then bitMap 1536 fun k => tget false m.buf.wbFull k
   else if b = 2 then bitMap 1024 fun k => tget false m.buf.abFull k else [])

/-- A lookup core's registers, handles, index list, gather area and output tile. -/
def lookupBody (s : State) (k : Nat) : List Byte :=
  let c := lookupCore s k
  let pad (b : List Byte) (n : Nat) : List Byte := (b ++ List.replicate n 0).take n
  ((List.range 64).flatMap fun r => leBytes 8 (tget 0 c.s r).toNat) ++
  ((List.range 16).flatMap fun r => leBytes 16 (tget 0 c.h r).toNat) ++
  pad (c.il.flatMap fun w => leBytes 4 w.toNat) 16384 ++ pad (c.ga.flatten) 65536 ++ pad c.ot 2048

/-- The enabled sites, ascending. -/
def enabledSites : List Nat := (List.range 160).filter siteEnabled

/-- The section of a site. -/
def siteSection (s : State) (n : Nat) : ImageSection := { type := 2, idx := n, len := siteLen, body := fun _ => siteBody s n }

/-- The sections in stream order (R427). -/
def imageSections (s : State) : List ImageSection :=
  [{ type := 1, idx := 0, len := 8 + 2 + 1 + 32
     body := fun _ => leBytes 8 s.vigilTv ++ leBytes 2 s.moduleId.toNat ++ leBytes 1 (bits s.vigil.toNat 15 8) ++
       (match s.vigilRec with | some r => recBytes r | none => List.replicate 32 0) }] ++
  enabledSites.map (siteSection s) ++
  enabledSites.map (fun n =>
    { type := 3, idx := n, len := (flightBytes s n).length, body := fun _ => flightBytes s n }) ++
  (enabledSites.flatMap fun n => ([0, 1, 2] : List Nat).map fun b =>
    { type := 4, idx := 4 * n + b, len := bufSize (b + 1) + (if b = 0 then 192 else if b = 1 then 128 else 0)
      body := fun _ => bufBody (mem s n) (b + 1) }) ++
  (List.range 64).map (fun k =>
    { type := 5, idx := k, len := 24576 * 16 + 2 ^ 21, body := fun _ => sliceBody s k }) ++
  (List.range 64).map (fun k =>
    { type := 6, idx := k, len := 512 + 256 + 16384 + 65536 + 2048, body := fun _ => lookupBody s k })

/-- Header of a section. -/
def sectionHeader (x : ImageSection) : List Byte :=
  leBytes 2 x.type ++ leBytes 2 x.idx ++ leBytes 4 0 ++ leBytes 8 x.len ++ List.replicate 16 0

/-- The part of the stream in [off, off + n). -/
def imageWindow (off n : Nat) : List ImageSection → List Byte
  | [] => []
  | x :: r =>
    if n = 0 then []
    else if 32 + x.len ≤ off then imageWindow (off - (32 + x.len)) n r
    else
      let part := ((sectionHeader x ++ x.body ()).drop off).take n
      part ++ imageWindow 0 (n - part.length) r

/-- A debugger holds the member of a site stopped (R425). -/
def dbgHeld (s : State) (n : Nat) : Bool := match (mem s n).ctl.dbg with | .stopped _ => true | _ => false

/-- VIGIL_IMAGE_READ: 4 KiB from an offset of the image, or of the site sections of all members that a debugger holds
stopped, in site order (R425, R427).
DESIGN CHOICE (log 116), safe. -/
def execVigilImageRead (off : Nat) (s : State) : Host.Outcome State Fault Refusal :=
  .next (
    if s.halted then s
    else if vigilActive s then { s with vigilOut := imageWindow off 4096 (imageSections s) }
    else match enabledSites.filter (dbgHeld s) with
      | [] => s
      | l => { s with vigilOut := imageWindow off 4096 (l.map (siteSection s)) })

/-! ## Reset (R428, R429) -/

/-- Sectors whose last writes L2 still holds (R303). -/
def dirtySectors (s : State) : List Nat :=
  s.l2.flatMap fun p => p.2.flatMap fun t =>
    (List.range 4).filterMap fun i => if t.dirty.getLsbD i then some (lineOfTag p.1 t.tag / 32 + i) else none

/-- The module after a reset: device memory, its marks and the model's own counters are carried over as given. -/
def afterReset (s : State) (dmem : Mem) (dbad : Tab Bool) (dkey : Tab (Option (BitVec 512))) : State :=
  { State.reset with dmem := dmem, dbad := dbad, dkey := dkey, agenda := s.agenda, free := s.free, fresh := s.fresh }

/-- The writes that only L2 held are lost: what their sectors of GDDR hold then is open (R428, R433).
DEDUCED (log 115), safe. -/
def loseDirty (s : State) : State :=
  (dirtySectors s).foldl (fun t a =>
    let (b, t) := drawBytes 32 t
    { t with dmem := setBytes t.dmem (32 * a) b }) s

/-- MEAS after the stages (R429). -/
def measure (ds : List FwStage) : BitVec 512 :=
  ds.foldl (fun m d => digest (leBytes 64 m.toNat ++ leBytes 64 d.digest.toNat)) 0

/-- The bring-up of R429 over the cold-reset values. A failure of steps 1 to 3 holds the module in reset with the step
in BOOT_STATUS; after one of step 4 no launch record is accepted.
DESIGN CHOICE (log 122), safe. -/
def bringUp (b : Boot) (t : State) : State :=
  let t := if b.failStep = 1 ∨ b.failStep = 2 then t else { t with meas := measure b.stages, measLog := b.stages }
  if 1 ≤ b.failStep ∧ b.failStep ≤ 3 then { t with bootStatus := BitVec.ofNat 8 b.failStep, halted := true }
  else { t with moduleId := b.moduleId, bootStatus := if b.failStep = 4 then BitVec.ofNat 8 b.status.val else 0xff }

/-- The Vigil reset: the bring-up without step 3's writing (R428). What it meets is a free value.
DESIGN CHOICE (log 122), safe. -/
def resetVigil (s : State) : State :=
  if vigilActive s = false ∨ s.halted then s
  else
    let t := loseDirty { s with free := s.free + 1 }
    bringUp (Config.boot s.free) (afterReset t t.dmem t.dbad t.dkey)

/-- VIGIL_RESET, through the debug port (R428). -/
def execVigilReset (s : State) : Host.Outcome State Fault Refusal := .next (resetVigil s)

/-- COLD_RESET (R429): step 3 sets device memory to zero, where it is reached. -/
def execColdReset (b : Boot) (s : State) : Host.Outcome State Fault Refusal :=
  .next (bringUp b (
    if 1 ≤ b.failStep ∧ b.failStep ≤ 3 then afterReset s s.dmem s.dbad s.dkey else afterReset s [] [] []))

/-- The part number, ONX-J9A (R430). -/
def partNumber : List Byte := [0x4f, 0x4e, 0x58, 0x2d, 0x4a, 0x39, 0x41]

/-- What the attestation report holds (R430), in the order of the rule's list. -/
def reportFields (s : State) (nonce : BitVec 256) : List (List Byte) :=
  [leBytes 32 nonce.toNat, leBytes 64 s.meas.toNat, leBytes 2 s.moduleId.toNat, partNumber,
   s.measLog.flatMap fun x => leBytes 4 x.step.toNat ++ leBytes 4 x.version.toNat,
   disabledSites.flatMap fun n => leBytes 2 (siteRow n * 256 + siteCol n)]

/-- The attestation report before its signature: every field of R430, in an order and with separators that are open.
DESIGN CHOICE (log 123), safe. -/
def report (s : State) (nonce : BitVec 256) : List Byte :=
  ((sortBy (byKey fun x : List Byte × Nat => Config.reportTurn x.2) (reportFields s nonce).zipIdx).flatMap fun x =>
    Config.reportFill x.2 ++ x.1) ++ Config.reportFill 6

/-- ATTESTATION_REPORT (R430): signed, and delivered through the function's mailbox. -/
def execAttestationReport (func : Nat) (nonce : BitVec 256) (s : State) : Host.Outcome State Fault Refusal :=
  .next (
    if s.halted || vigilActive s then s
    else
      let r := report s nonce
      { s with mailbox := s.mailbox ++ [(func, r ++ ed448ph (leBytes 57 Config.identityKey.toNat) r)] })

/-! ## Keys and alarms -/

/-- A launch holds sites in this state. -/
def launchBound (l : Launch) : Bool := match l.state with | .bound | .running | .saving => true | _ => false

/-- The dirty sectors written under a key are written back (R432). -/
def cleanUnder (s : State) (key : BitVec 512) : State :=
  { s with l2 := s.l2.map fun p => (p.1, p.2.map fun t =>
      { t with dirty := (List.range 4).foldl (fun (d : BitVec 4) i =>
          if tget none s.dkey (lineOfTag p.1 t.tag / 32 + i) = some key then d &&& ~~~(1#4 <<< i) else d) t.dirty }) }

/-- KEY_SLOT_WRITE (R432): refused where a context with a bound launch names the slot; the dirty lines of the old
contexts are written back first. -/
def execKeySlotWrite (slot : Nat) (key : BitVec 512) (s : State) : Host.Outcome State Fault Refusal :=
  .next (
    if 2048 ≤ slot ∨ s.halted ∨ s.launches.any (fun l => launchBound l && (ctxOf s l.ctx.toNat).key.toNat == slot) then s
    else
      let s := cleanUnder s (keyOf s slot)
      { s with keys := tput 0 s.keys slot key })

/-- ALARM_LEVEL_1 (R433). -/
def execAlarmLevel1 (s : State) : Host.Outcome State Fault Refusal :=
  .next (mgmtNote { s with alarms := s.alarms + 1 } 3 s.cal)

/-- ALARM_LEVEL_2 (R433): keys, typed buffers and L2 are zero, what has not reached GDDR is lost, and the module is
halted until cold reset. -/
def execAlarmLevel2 (s : State) : Host.Outcome State Fault Refusal :=
  .next { loseDirty s with
    keys := [], l2 := [], halted := true, bootStatus := 0xe2
    members := s.members.map fun p => (p.1, { p.2 with buf := { p.2.buf with wb := [], ab := [], cb := [], bad := [] } }) }

end Sys2Proof.Machine
end

