-- ==== Sys2Proof/Machine/Links.lean ====
section
/-! DEFINITION. What arrives from outside the module: flits of peer modules (R390 to R400), accesses of the host
and its answers (R297, R401, R402), the register BAR and the configuration space (R402, R429, R434, R435). -/

namespace Sys2Proof.Machine

open Sys2Proof

/-! ## Answers to the module's own requests -/

/-- An answer reaches the requester of a request (R393, R401); one whose launch has ended is dropped. -/
def answerTo (s : State) (r : OutReq) (x : Answer) : State :=
  let bad : Bool := match x with | .data _ => false | _ => true
  if whoLaunch s r.who ≠ r.launch then s
  else match r.who with
    | .l n =>
      if r.write then
        (if bad && isBound (mem s n) then takeFault s n 0 5 5 0 r.lt.iter.toNat r.lt { trapOf (answerKind x) with va := some r.va } else s)
      else answerL s n r.seq r.piece x
    | .eng n e =>
      if r.write then (if bad then rejectEng s n e (BitVec.ofNat 32 r.seq) r.va x else s)
      else answerEng s n e (BitVec.ofNat 32 r.seq) r.piece r.va x
    | .lookup k =>
      if r.write then (if bad then lookupFault s k (answerKind x) else s)
      else answerLk s k r.tag (match x with | .data b => some b | _ => none) (answerKind x)
    | .device _ => s

/-- A request is answered and outstanding no more. -/
def answerOut (s : State) (r : OutReq) (x : Answer) : State := answerTo { s with outs := s.outs.erase r } r x

/-! ## Links (R390, R393) -/

/-- Of the requests sent through a port that goes down, those that were unacknowledged are in error; which ones
were is not seen above the link layer.
DESIGN CHOICE (log 111), safe. -/
def linkErrors (port : Nat) : List OutReq → State → State
  | [], s => s
  | r :: rest, s =>
    if r.host || r.port != port then linkErrors port rest s
    else
      let lost := Config.freeBit s.free
      let s := { s with free := s.free + 1 }
      linkErrors port rest (if lost && s.outs.contains r then answerOut s r .linkError else s)

/-- LINK_DOWN (R390). -/
def execLinkDown (port : Nat) (s : State) : Host.Outcome State Fault Refusal :=
  .next (if 12 ≤ port ∨ tget false s.linkDown port then s
    else linkErrors port s.outs { s with linkDown := tput false s.linkDown port true })

/-- LINK_RETRAIN (R390). -/
def execLinkRetrain (port : Nat) (s : State) : Host.Outcome State Fault Refusal :=
  .next (if clocksStand s then s else { s with linkDown := tput false s.linkDown port false })

/-! ## Accesses from outside, at their homes (R278, R282, R297) -/

/-- A host function as an agent: it knows what releases and fences at `.sys` have told it (R297).
DEDUCED (log 152), unsafe. -/
def hostAcc (s : State) (func : Nat) : Acc :=
  { agent := hostAgent func, src := srcId 6 0 0, clk := tget [] s.flagClk sysKey, launch := 0, ctx := 0, site := none }

/-- A peer module as an agent. -/
def peerAcc (s : State) (m : Nat) : Acc :=
  { agent := agentNo (2048 + m) 0, src := srcId 7 0 0, clk := tget [] s.flagClk sysKey, launch := 0, ctx := 0, site := none }

/-- What an access from outside finds. -/
inductive Found
  | data (b : List Byte)
  | poisoned
  | rejected
  deriving DecidableEq, Repr

/-- Reads within one sector, without a key.
DEDUCED (log 110), unsafe. -/
def outerRead (s : State) (a : Acc) (pa n : Nat) : Found × State :=
  match debugHit s a pa n false with
  | some r => (.rejected, clashFault s a r pa pa)
  | none =>
    let (c, k, s) := stampAcc s a
    let x := rawBytes s pa n
    let s := if sealed s pa then s else (l2Touch s pa false).1
    if tget false s.dbad (pa / 32) then (.poisoned, s)
    else
      let (b, s) := freeBytes s (undefBytes s a false c pa n) pa x
      (.data b, noteAccess s c (accRec s a c k pa n false) (anyDebug s))

/-- Reads the pieces of an access: poisoned where one of them is (R314). -/
def outerReads (a : Acc) : List (Nat × Nat) → State → Found × State
  | [], s => (.data [], s)
  | (pa, n) :: r, s =>
    match outerRead s a pa n with
    | (.data b, s) => (match outerReads a r s with
      | (.data c, s) => (.data (b ++ c), s)
      | e => e)
    | e => e

/-- Writes within one sector; a whole sector stands as stored and clears its mark (R313), a part is made under the key
that the sector has.
DEDUCED (log 110), unsafe. -/
def outerWrite (s : State) (a : Acc) (pa : Nat) (b : List Byte) : State :=
  match debugHit s a pa b.length true with
  | some r => clashFault s a r pa pa
  | none =>
    let (c, k, s) := stampAcc s a
    let s := if sealed s pa && b.length != 32 then s else (l2Touch s pa true).1
    let rec_ := accRec s a c k pa b.length true
    let (x, s) := freeBytes s (undefBytes s a true c pa b.length) pa b
    let s := { s with dmem := setBytes s.dmem pa x
                      dbad := if b.length = 32 then tput false s.dbad (pa / 32) false else s.dbad
                      dkey := if b.length = 32 then tput none s.dkey (pa / 32) none else s.dkey }
    noteAccess s c rec_ (anyDebug s)

/-- Writes the pieces of an access. -/
def outerWrites (s : State) (a : Acc) (pa : Nat) (b : List Byte) : State :=
  (sectors pa b.length).foldl (fun s p => outerWrite s a p.1 ((b.drop (p.1 - pa)).take p.2)) s

/-- An atomic of the outside on device memory, in one step; the old value. -/
def outerAtomic (s : State) (a : Acc) (pa sz : Nat) (f : Nat → Option Nat) : Found × State :=
  match outerRead s a pa sz with
  | (.data b, s) =>
    (.data b, match f (leNat b) with
      | some v => outerWrite s a pa (leBytes sz v)
      | none => s)
  | e => e

/-! ## Flits -/

/-- A header and payload as R391 has them: a listed OPC, zero fields zero, LEN at most 3, and whole chunks of payload,
none in a read, whose LEN is what it asks for.
DESIGN CHOICE (log 113), safe. -/
def flitOk (f : Flit) : Bool :=
  decide (1 ≤ f.opc.toNat ∧ f.opc.toNat ≤ 7 ∧ f.len.toNat ≤ 3) && f.zero == 0 && f.addr.toNat / 2 ^ 38 == 0 &&
  f.data.length == (if f.opc = 1 then 0 else 32 * f.len.toNat)

/-- Payload as a flit carries it: whole chunks (R391). -/
def wholeChunks (b : List Byte) : List Byte := b ++ List.replicate (roundUp b.length 32 - b.length) 0

/-- The completion of a flit (R391), on the port that its ADDR selects (R394). -/
def flitReply (s : State) (f : Flit) (sts : Nat) (b : List Byte) : State :=
  let b := wholeChunks b
  let up := upPorts s f.smod.toNat
  let r : Flit := { opc := 7, len := BitVec.ofNat 8 (b.length / 32), smod := s.moduleId, dmod := f.smod, tag := f.tag, addr := f.addr,
                    sts := BitVec.ofNat 8 sts, zero := 0, data := b }
  { s with flitOut := s.flitOut ++ [(up[bits f.addr.toNat 12 7 % up.length]?, r)] }

/-- A flit for this module arrives: dropped and counted where it is malformed (R391). -/
def arrives (s : State) (f : Flit) (k : State → State) : Host.Outcome State Fault Refusal :=
  .next (
    if clocksStand s || f.dmod != s.moduleId then s
    else if !flitOk f then { s with malformed := s.malformed + 1 }
    else k s)

/-- Receives a request of an OPC, answered as rejected where the grant map has no bit for its source (R393). -/
def receive (s : State) (f : Flit) (opc : BitVec 8) (k : State → State) : Host.Outcome State Fault Refusal :=
  arrives s f fun s =>
    if f.opc != opc then s
    else if !tget false s.grants f.smod.toNat then flitReply s f 1 []
    else k s

/-- Address of the first chunk that a flit names. -/
def flitChunk (f : Flit) : Nat := f.addr.toNat / 32 * 32

/-- FLIT_READ: as many chunks as the flit asks for (R391, R393). -/
def execFlitRead (f : Flit) (s : State) : Host.Outcome State Fault Refusal :=
  receive s f 1 fun s =>
    match outerReads (peerAcc s f.smod.toNat) (sectors (flitChunk f) (32 * f.len.toNat)) s with
    | (.data b, s) => flitReply s f 0 b
    | (.poisoned, s) => flitReply s f 2 []
    | (.rejected, s) => flitReply s f 1 []

/-- FLIT_WRITE (R391, R278). -/
def execFlitWrite (f : Flit) (s : State) : Host.Outcome State Fault Refusal :=
  receive s f 2 fun s => flitReply (outerWrites s (peerAcc s f.smod.toNat) (flitChunk f) f.data) f 0 []

/-- FLIT_ATOMIC: the home performs it as one step and returns the old value (R395); 9 is `cas`, whose payload
holds the value and the new value. -/
def execFlitAtomic (f : Flit) (op : BitVec 4) (sz : BitVec 2) (s : State) : Host.Outcome State Fault Refusal :=
  receive s f 3 fun s =>
    let n := if sz = 3 then 8 else 4
    let v := fieldIn f.data 0 n
    let nv := fieldIn f.data n n
    let g (old : Nat) : Option Nat :=
      if op = 9 then (if old = v then some nv else none) else some (atomOp op.toNat n old v)
    if f.addr.toNat % n ≠ 0 then flitReply s f 1 []
    else match outerAtomic s (peerAcc s f.smod.toNat) f.addr.toNat n g with
      | (.data b, s) => flitReply s f 0 b
      | (.poisoned, s) => flitReply s f 2 []
      | (.rejected, s) => flitReply s f 1 []

/-- Site of a buffer store or flag add: bits 28 to 21 of ADDR; below them the offset or the flag.
PRESUMED (log 112), unsafe. -/
def flitSite (f : Flit) : Nat := bits f.addr.toNat 28 21

/-- The site is bound, has started (R345), and its launch is named by the group tag (R395). -/
def flitTargets (s : State) (f : Flit) (tag : Word32) : Bool :=
  let n := flitSite f
  isBound (mem s n) && (launchSites s (bindOf s n).launch).any fun m => collCountOf s m tag != 0

/-- FLIT_BUFFER_STORE (R395): among the writes of its tick it stands as a collective delivery does (R300), and arrives
in a later tick where an agent of this one comes before it. -/
def execFlitBufferStore (f : Flit) (tag : Word32) (s : State) : Host.Outcome State Fault Refusal :=
  receive s f 4 fun s =>
    let off := bits f.addr.toNat 20 5 * 32
    if !flitTargets s f tag ∨ bufSize 2 < off + f.data.length then flitReply s f 1 []
    else
      let l := (List.range (f.data.length / 32)).map fun i => (f.data.drop (32 * i)).take 32
      match deliverPieces (peerAcc s f.smod.toNat) (flitSite f) off s 0 l with
      | some s => flitReply s f 0 []
      | none => s

/-- FLIT_FLAG_ADD: adds to an own flag of the site (R395, R419). -/
def execFlitFlagAdd (f : Flit) (tag : Word32) (s : State) : Host.Outcome State Fault Refusal :=
  receive s f 5 fun s =>
    if !flitTargets s f tag then flitReply s f 1 []
    else
      let (s, ok) := postFlag s (.own (flitSite f) (bits f.addr.toNat 9 0)) (fieldIn f.data 0 4) (srcId 7 0 0) f.smod
      flitReply (if ok then s else updMem s (flitSite f) fun m => { m with spr := { m.spr with oflow := true } }) f 0 []

/-- The launch of this module that takes part in a tag's collectives (R397); 0 where none has begun one yet.
DEDUCED (log 114), safe. -/
def tagLaunch (s : State) (tag : Word32) : Word32 :=
  (((siteList s).find? fun n => isBound (mem s n) && collCountOf s n tag != 0).map fun n => (bindOf s n).launch).getD 0

/-- Every participant of this module that has begun a collective of the tag is past an occurrence (R397). -/
def pastNth (s : State) (id tag : Word32) (nth : Nat) : Bool :=
  id != 0 && (launchSites s id).all fun n => collCountOf s n tag == 0 ||
    (decide (nth < collCountOf s n tag) && !((collsAt s n tag).any fun x => nthOf x.1 == nth))

/-- FLIT_COLLECTIVE_CHUNK: the collective engines of the tag's launch take the pieces (R397 to R399); those that come
before a participant has begun its `coll` wait for it.
DEDUCED (log 114), safe. -/
def execFlitCollectiveChunk (f : Flit) (tag : Word32) (c : CollData) (s : State) : Host.Outcome State Fault Refusal :=
  receive s f 6 fun s =>
    let id := tagLaunch s tag
    if pastNth s id tag c.nth then flitReply s f 0 []
    else
      let put (s : State) (i : Nat) : State :=
        { s with collIn := s.collIn ++ [{ launch := id, tag := tag, nth := c.nth, rank := c.rank, piece := c.chunk + i, final := c.final
                                          data := (f.data.drop (32 * i)).take 32, form := [c.kind, c.red, c.fmt, c.ln] }] }
      flitReply ((List.range (max 1 f.len.toNat)).foldl put s) f 0 []

/-- The bytes asked for, within the whole chunks of a completion. -/
def replyPart (r : OutReq) (b : List Byte) : List Byte :=
  if r.atomic ∨ b.length ≤ r.n then b.take r.n else (b.drop (r.pa.toNat % 32)).take r.n

/-- FLIT_COMPLETION (R393). -/
def execFlitCompletion (f : Flit) (s : State) : Host.Outcome State Fault Refusal :=
  arrives s f fun s =>
    if f.opc != 7 then s
    else match s.outs.find? fun r => !r.host && r.tag % 65536 == f.tag.toNat with
      | none => s
      | some r =>
        let x : Answer := match f.sts.toNat with
          | 0 => .data (replyPart r f.data)
          | 2 => .poisoned
          | _ => .rejected
        answerOut s r x

/-! ## The host link -/

/-- PCIE_COMPLETION: the completion of a read, an atomic or the flushing read of the PCIe interface, which makes
the writes before it visible at `.sys` (R289, R401).
DESIGN CHOICE (log 10), unsafe. -/
def execPcieCompletion (tag : Nat) (ok : Bool) (poisoned : Bool) (data : List Byte) (s : State) : Host.Outcome State Fault Refusal :=
  .next (
    if clocksStand s then s
    else match s.outs.find? fun r => r.host && !r.write && r.tag % 16384 == tag with
      | none => s
      | some r =>
        if r.flush then
          { s with outs := s.outs.filter fun x => x != r && !(x.host && x.write && decide (x.tag < r.tag)) }
        else if ok ∧ !poisoned ∧ data.length ≠ r.n then s
        else answerOut s r (if !ok then .rejected else if poisoned then .poisoned else .data data))

/-- The module answers only for its configuration space: held in reset, halted or under Vigil (R427, R429). -/
def onlyConfig (s : State) : Bool := s.halted || vigilActive s

/-! ### The capability list (R434, R435) -/

/-- The entries: identifier and fields, little-endian, 2 bytes for a site and 4 for a number. Entry 7 gives R353's rows
in turn: least and greatest value, the edges into and out of a stage, the stages of a site, the multiple of `bytes`,
TRIPKIND and least YIELDINT, least NARGS and the ring area's word.
PRESUMED (log 118), unsafe. -/
def capabilities : List (Nat × List Byte) :=
  let w (l : List Nat) : List Byte := l.flatMap fun v => leBytes 4 v
  [(1, disabledSites.flatMap fun n => leBytes 2 (siteRow n * 256 + siteCol n)),
   (2, w [4, 8]), (3, w [1]), (4, w [64]), (5, w [2 ^ 20, 2 ^ 24, 65536]), (6, w [1, 65536]),
   (7, w [1, 16, 1, 32, 2, 2, 1, 12, 1, 1, 255, 0, 65535, 32, 2 ^ 21, 32, 0, 1, 65535, 4096, 2 ^ 32 - 1, 1, 0]),
   (8, w [2048] ++ (List.range 4).map fun i => Config.pcieConfig 0 (4096 + i)), (9, w [3800, 1200])]

/-- The list from an offset on: each header, then its fields. -/
def capBytes (off : Nat) : List (Nat × List Byte) → List Byte
  | [] => []
  | (id, b) :: r =>
    let len := 8 + b.length
    let next := off + len
    leBytes 8 (id + 2 ^ 16 + (if r.isEmpty then 0 else next) * 2 ^ 20 + len * 2 ^ 32) ++ b ++ capBytes next r

/-- Offset of BOOT_STATUS in configuration space: the model's choice.
PRESUMED (log 117), unsafe. -/
def bootStatusOff : Nat := 0x3fc

/-- A byte of a function's configuration space; the capability list is there once step 4 has set it up (R429). -/
def configByte (s : State) (func off : Nat) : Byte :=
  if func = 0 ∧ off = bootStatusOff then s.bootStatus
  else if func = 0 ∧ bootStatusOff < off ∧ off < 0x400 then 0
  else if func = 0 ∧ 0x400 ≤ off ∧ (s.bootStatus = 0xff ∨ s.bootStatus = 0xe2) then ((capBytes 0x400 capabilities)[off - 0x400]?).getD (Config.pcieConfig func off)
  else Config.pcieConfig func off

/-! ### The register BAR (R402) -/

/-- A function's own fault ring: the terminal ring for the PF.
DEDUCED (log 119), unsafe. -/
def ownRing (func : Nat) : Nat := if func = 0 then 1 else 1 + func

/-- The descriptor as its 256 bits place it: TAIL in [95:64], HEAD in [159:128], LOGN in [197:192]. -/
def ringRegister (r : Ring) : List Byte :=
  leBytes 8 (bit r.en + 2 * bit r.ien + 4 * bit r.ovf + r.vec.toNat * 8 + r.base.toNat * 2 ^ 12) ++
  leBytes 8 r.tail.toNat ++ leBytes 8 r.head.toNat ++ leBytes 8 r.logn.toNat

/-- A byte of a function's BAR. -/
def barByte (s : State) (func off : Nat) : Byte :=
  if off < 0x4000 then
    (match doorbellQueue s func (off / 8) with
      | some q => (leBytes 8 (queueOf s q).tail.toNat)[off % 8]?.getD 0
      | none => 0)
  else if off < 0x4020 then (ringRegister (tget Ring.reset s.rings (ownRing func)))[off - 0x4000]?.getD 0
  else 0

/-- A write to the BAR: a doorbell, or HEAD and OVF of the mirrored ring. -/
def barWrite (s : State) (func off : Nat) (b : List Byte) : State :=
  if off < 0x4000 then (if off % 8 = 0 ∧ 4 ≤ b.length then ringDoorbell s func (off / 8) (BitVec.ofNat 32 (fieldIn b 0 4)) else s)
  else if off + b.length ≤ 0x4020 then
    let k := ownRing func
    let r := tget Ring.reset s.rings k
    let at_ (o n : Nat) : Option Nat := if off ≤ o ∧ o + n ≤ off + b.length then some (fieldIn b (o - off) n) else none
    let r := match at_ 0x4000 1 with | some v => if bits v 2 2 = 1 then { r with ovf := false } else r | none => r
    let r := match at_ 0x4010 4 with | some v => { r with head := BitVec.ofNat 32 v } | none => r
    { s with rings := tput Ring.reset s.rings k r }
  else s

/-! ### Host accesses -/

/-- An answer to the host. -/
def hostReply (s : State) (func : Nat) (b : List Byte) (ok poisoned : Bool) : State :=
  { s with hostOut := s.hostOut ++ [{ func := func, data := b, ok := ok, poisoned := poisoned }] }

/-- HOST_READ: at the home, after the writes the function sent before it (R297, R401, R402). -/
def execHostRead (func : Nat) (t : HostTarget) (n : Nat) (s : State) : Host.Outcome State Fault Refusal :=
  .next (match t with
    | .config off => hostReply s func ((List.range n).map fun i => configByte s func (off + i)) true false
    | .bar off => if onlyConfig s then hostReply s func [] false false
      else hostReply s func ((List.range n).map fun i => barByte s func (off + i)) true false
    | .deviceFlag k => if onlyConfig s ∨ 4096 ≤ k then hostReply s func [] false false
      else hostReply s func ((leBytes 4 (flagVal s (.dev k)).toNat).take n) true false
    | .mem pa =>
      if onlyConfig s ∨ 4096 < n ∨ 2 ^ 38 < pa + n then hostReply s func [] false false
      else match outerReads (hostAcc s func) (sectors pa n) s with
        | (.data b, s) => hostReply s func b true false
        | (.poisoned, s) => hostReply s func [] true true
        | (.rejected, s) => hostReply s func [] false false)

/-- HOST_WRITE: performed in order of arrival (R297); a function being reset makes none (R404). -/
def execHostWrite (func : Nat) (t : HostTarget) (data : List Byte) (s : State) : Host.Outcome State Fault Refusal :=
  .next (
    if onlyConfig s ∨ s.flr.contains func then s
    else match t with
      | .config _ => s
      | .bar off => barWrite s func off data
      | .deviceFlag k =>
        if 4096 ≤ k ∨ data.length ≠ 4 then s
        else setFlag s (.dev k) (BitVec.ofNat 32 (leNat data)) (srcId 6 0 0) 0
      | .mem pa => if 512 < data.length ∨ 2 ^ 38 < pa + data.length then s else outerWrites s (hostAcc s func) pa data)

/-- HOST_ATOMIC: FetchAdd, Swap and CAS of 4 or 8 bytes (R401, R282). -/
def execHostAtomic (func : Nat) (addr : Nat) (op : BitVec 2) (wide : Bool) (v cmp : Word) (s : State) : Host.Outcome State Fault Refusal :=
  .next (
    let n := if wide then 8 else 4
    if onlyConfig s ∨ s.flr.contains func ∨ addr % n ≠ 0 ∨ 2 ^ 38 < addr + n ∨ op = 3 then hostReply s func [] false false
    else
      let x := v.toNat % 2 ^ (8 * n)
      let g (old : Nat) : Option Nat := match op.toNat with
        | 0 => some (atomOp 0 n old x)
        | 1 => some x
        | _ => if old = cmp.toNat % 2 ^ (8 * n) then some x else none
      match outerAtomic s (hostAcc s func) addr n g with
      | (.data b, s) => hostReply s func b true false
      | (.poisoned, s) => hostReply s func [] true true
      | (.rejected, s) => hostReply s func [] false false)

end Sys2Proof.Machine
end

