-- ==== Sys2Proof/Machine/Manage.lean ====
section
/-! DEFINITION. Writes of the management core to its registers and tables (R309, R316, R329, R330, R333, R342,
R392 to R394, R403, R409, R417, R421, R426, R427). Fields that read as zero ignore what is written to them. -/

namespace Sys2Proof.Machine

open Sys2Proof

/-- A context descriptor from its 128 bits (R316). -/
def ctxOfBits (v : Nat) : Ctx :=
  { func := BitVec.ofNat 7 (bits v 97 91), key := BitVec.ofNat 11 (bits v 90 80), gen := BitVec.ofNat 16 (bits v 79 64)
    root := BitVec.ofNat 30 (bits v 45 16), v := bits v 0 0 == 1 }

/-- A quota table entry from its 64 bits (R309). -/
def quotaOfBits (v : Nat) : Quota :=
  { pinq := BitVec.ofNat 16 (bits v 63 48), bsize := BitVec.ofNat 16 (bits v 47 32), rate := BitVec.ofNat 16 (bits v 31 16)
    prio := BitVec.ofNat 3 (bits v 10 8) }

/-- Part k of a ring descriptor: the four 64-bit registers of R329, lowest first. -/
def ringPart (r : Ring) (k v : Nat) : Ring :=
  match k with
  | 0 => { r with base := BitVec.ofNat 34 (bits v 45 12), vec := BitVec.ofNat 9 (bits v 11 3)
                  ovf := r.ovf && bits v 2 2 == 0, ien := bits v 1 1 == 1, en := bits v 0 0 == 1 }
  | 2 => { r with head := BitVec.ofNat 32 (bits v 31 0) }
  | 3 => if 6 ≤ bits v 5 0 ∧ bits v 5 0 ≤ 20 then { r with logn := BitVec.ofNat 6 (bits v 5 0) } else r
  | _ => r

/-- A launch of the queue holds sites or is on its way to them (R403). -/
def queueBusy (s : State) (q : Nat) : Bool := s.launches.any fun l => l.queue == q && launchBound l

/-- A work-queue descriptor (R333); FUNC changes only while the queue is disabled and no launch of it is bound
(R403). A device-internal queue's tail is its flag's value (R334). -/
def queueWrite (s : State) (q v : Nat) : State :=
  let w := queueOf s q
  let logn := bits v 11 7
  let w' := { w with
    tailf := if 2048 ≤ q then BitVec.ofNat 12 (bits v 107 96) else 0
    func := if w.en ∨ queueBusy s q then w.func else BitVec.ofNat 7 (bits v 55 49)
    prio := BitVec.ofNat 3 (bits v 48 46), base := BitVec.ofNat 34 (bits v 45 12)
    logn := if 6 ≤ logn ∧ logn ≤ 16 then BitVec.ofNat 5 logn else w.logn
    en := bits v 0 0 == 1 }
  setQueue s q (if 2048 ≤ q then acceptTail w' (tenantFlag s w'.func.toNat w'.tailf.toNat) else w')

/-- A bind record from its 64 bytes (R342). -/
def bindOfBits (v : Nat) : Bind :=
  let f (off n w : Nat) : BitVec w := BitVec.ofNat w (v / 2 ^ (8 * off) % 2 ^ (8 * n))
  { launch := f 0 4 32, ctx := f 4 2 12, qidx := f 6 1 8, mode := f 7 1 8 &&& 0x3f, t0 := f 8 8 64, deadline := f 16 8 64
    image := f 24 8 64, ltab := f 32 8 64, args := f 40 8 64, origin := f 48 2 16, shape := f 50 2 16, lpos := f 52 2 16
    nargs := f 54 2 16 &&& 0x3f, sleep := f 56 4 32, nflag := f 60 2 16, state := f 62 1 8 }

/-- An entry of the wait-log or trace table (R417, R421). -/
def logWrite (r : LogRing) (v : Nat) : LogRing :=
  let n := bits v 5 0
  { base := BitVec.ofNat 34 (bits v 45 12), en := bits v 6 6 == 1
    logn := if 6 ≤ n ∧ n ≤ 20 then BitVec.ofNat 6 n else r.logn }

/-- VIGIL_CTL (R427): the armed triggers, then what writing 1 to TRIG or RST does. -/
def vigilWrite (s : State) (v : Nat) : State :=
  let keep := s.vigil.toNat - bits s.vigil.toNat 3 2 * 4 - bits s.vigil.toNat 0 0
  let s := { s with vigil := BitVec.ofNat 16 (keep + bits v 3 2 * 4 + bits v 0 0) }
  let s := if bits v 1 1 = 1 then vigilAsk s 2 else s
  if bits v 5 5 = 1 then resetVigil s else s

/-- A function's profile session begins with the table at a virtual address of one of its contexts, or ends (R426). Where
the function's state is moved here with it, what this module does not count becomes absent and the next launch is told.
DESIGN CHOICE (log 91), unsafe. -/
def profileWrite (s : State) (func ctx : Nat) (moved : Bool) (va : Nat) : State :=
  let s := { s with profiles := tput none s.profiles func (if va = 0 then none else some { ctx := ctx, va := va }) }
  if moved && va != 0 then
    eachSlot func dropSlot { s with moved := if s.moved.contains func then s.moved else s.moved ++ [func] }
  else s

/-- A register or table entry takes a value.
DEDUCED (log 121), safe. -/
def mgmtWrite (s : State) (r : MgmtReg) (v : Nat) : State :=
  match r with
  | .context n => if 4096 ≤ n then s else { s with ctxs := tput Ctx.reset s.ctxs n (ctxOfBits v) }
  | .quota n => if 256 ≤ n then s else { s with quotas := tput Quota.reset s.quotas n (quotaOfBits v) }
  | .quotaIndex c => if 4096 ≤ c then s else { s with qidx := tput 0 s.qidx c (v % 256) }
  | .ring n k => if 127 < n then s else { s with rings := tput Ring.reset s.rings n (ringPart (tget Ring.reset s.rings n) k v) }
  | .ringHead n => if 127 < n then s else { s with rings := tput Ring.reset s.rings n (ringPart (tget Ring.reset s.rings n) 2 v) }
  | .ringWeight k => if 3 ≤ k then s
    else { s with weights := tput (([8, 4, 1] : List (BitVec 4))[k]?.getD 1) s.weights k (BitVec.ofNat 4 v) }
  | .queue n => if 2304 ≤ n then s else queueWrite s n v
  | .bind n => if 160 ≤ n ∨ (bindOf s n).state = 2 ∨ 2 ≤ (bindOfBits v).state.toNat then s else armSite s n (bindOfBits v)
  | .saveArea n => if 160 ≤ n then s else { s with saveArea := tput 0 s.saveArea n (BitVec.ofNat 34 (bits v 45 12)) }
  | .waitLog n => if 160 ≤ n then s
    else { s with waitLog := tput LogRing.reset s.waitLog n (logWrite (tget LogRing.reset s.waitLog n) v) }
  | .trace n => if 160 ≤ n then s
    else { s with traceTab := tput LogRing.reset s.traceTab n (logWrite (tget LogRing.reset s.traceTab n) v) }
  | .moduleId => if s.launches.any launchBound then s else { s with moduleId := BitVec.ofNat 16 v }
  | .aperture n => if 128 ≤ n then s
    else { s with aperture := tput 0 s.aperture n (BitVec.ofNat 17 (bits v 31 16 * 2 + bits v 0 0)) }
  | .grant n => if 65536 ≤ n then s else { s with grants := tput false s.grants n (v % 2 == 1) }
  | .route n => if 65536 ≤ n then s else { s with routes := tput 0 s.routes n (BitVec.ofNat 12 v) }
  | .vigilCtl => vigilWrite s v
  | .fairness q => if 2304 ≤ q then s else setQueue s q { queueOf s q with raised := v % 8 }
  | .invVa => { s with invVa := BitVec.ofNat 38 v }
  | .invCtl =>
    let c := BitVec.ofNat 64 (bits v 63 40 * 2 ^ 40 + bits v 27 16 * 2 ^ 16)
    if bits v 0 0 = 1 then goInval s (bits v 27 16) s.invVa (BitVec.ofNat 24 (bits v 63 40))
    else { s with invCtl := c ||| (s.invCtl &&& 2) }
  | .preemptCtl =>
    if !preemptIdle s then s
    else if bits v 32 32 = 1 then askPreempt s (BitVec.ofNat 32 v)
    else { s with preemptCtl := BitVec.ofNat 64 (2 ^ 33 + bits v 31 0) }
  | .profile f c moved =>
    if 127 ≤ f ∨ 4096 ≤ c ∨ (ctxOf s c).func.toNat ≠ f ∨ v % 16 ≠ 0 then s else profileWrite s f c moved (bits v 63 0)

/-- MGMT_REGISTER_WRITE: nothing runs in a module that an alarm or a failed bring-up has halted (R429, R433). -/
def execMgmtRegisterWrite (r : MgmtReg) (v : Nat) (s : State) : Host.Outcome State Fault Refusal :=
  .next (if s.halted then s else mgmtWrite s r v)

end Sys2Proof.Machine
end

