-- ==== Sys2Proof/Machine/Service.lean ====
section
/-! DEFINITION. The services of `svc` (R265), the scrubbing of device memory (R312, R314) and the tokens that a
waiting request borrows (R310). -/

namespace Sys2Proof.Machine

open Sys2Proof

/-! ## Requests -/

/-- A request by its number, of a launch that is not saved.
DESIGN CHOICE (log 93), unsafe. -/
def svcAt (s : State) (req : Nat) (ok : BitVec 16 → Bool) : Option SvcReq :=
  s.svcs.find? fun r => r.id == req && ok r.code && decide (r.site < 65536)

/-- An argument: s1 to s4 at the `svc`. -/
def svcArg (r : SvcReq) (i : Nat) : Nat := ((r.args[i]?).getD 0).toNat

/-- The result block may be written: it is aligned, in a writable page; no block is asked for with s4 = 0.
DEDUCED (log 102), unsafe. -/
def blockOk (s : State) (r : SvcReq) : Bool :=
  let va := svcArg r 3
  va == 0 || (va % 32 == 0 && (match ctxPa s r.ctx.toNat va 32 .w with | .ok _ => true | .error _ => false))

/-- The service ends: its block is written, with free bytes where the service has no result, and own flag 1023
of the member is posted; a post past the bound sets STATUS.OFLOW (R42).
DEDUCED (log 105), unsafe. -/
def svcEnd (s : State) (r : SvcReq) (status : Nat) (res : List Byte) : State :=
  let s := { s with svcs := s.svcs.filter fun x => x.id != r.id }
  let s := if svcArg r 3 = 0 ∨ !blockOk s r then s
    else
      let (rest, s) := drawBytes (24 - res.length) s
      (ctxWrite r.ctx.toNat (svcArg r 3) (leBytes 4 status ++ leBytes 4 0 ++ res ++ rest) s).2
  let (s, ok) := postFlag s (.own r.site 1023) 1 (srcId 5 0 0) 0
  if ok then s else updMem s r.site fun m => { m with spr := { m.spr with oflow := true } }

/-- A service that needs nothing more than its request. -/
def svcRun (s : State) (req code : Nat) (f : State → SvcReq → State) : State :=
  match svcAt s req fun c => c.toNat == code with
  | some r => if blockOk s r then f s r else svcEnd s r 3 []
  | none => s

/-- NOP. -/
def execSvcNop (req : Nat) (s : State) : Host.Outcome State Fault Refusal :=
  .next (svcRun s req 0 fun s r => svcEnd s r 0 [])

/-- TIME: the Calendar and the reference time at it. -/
def execSvcTime (req : Nat) (s : State) : Host.Outcome State Fault Refusal :=
  .next (svcRun s req 4 fun s r => svcEnd s r 0 (leBytes 8 s.cal ++ leBytes 8 (Config.refTime s.cal)))

/-- LOG: the message goes to the owning function's log with the launch identity. -/
def execSvcLog (req : Nat) (s : State) : Host.Outcome State Fault Refusal :=
  .next (svcRun s req 5 fun s r =>
    let va := svcArg r 0
    let n := svcArg r 1
    let page := hBytes (translate s r.ctx.toNat va)
    if n = 0 ∨ 256 < n ∨ page < va % page + n then svcEnd s r 1 []
    else match ctxRead r.ctx.toNat va n s with
      | (.ok b, s) => svcEnd { s with funcLog := s.funcLog ++ [(funcOf s r.ctx.toNat, r.launch, b)] } r 0 []
      | (.error _, s) => svcEnd s r 3 [])

/-- A code outside the table: the terminal fault TRAP with the code in the status word.
DEDUCED (log 106), unsafe. -/
def execSvcUnknownCode (req : Nat) (s : State) : Host.Outcome State Fault Refusal :=
  .next (match svcAt s req fun c => decide (5 < c.toNat) with
    | none => s
    | some r =>
      let s := { s with svcs := s.svcs.filter fun x => x.id != r.id }
      match r.lookup with
      | some k => lookupFault s k .trap
      | none => takeFault s r.site 1 1 Queue.c.code r.addr r.lt.iter.toNat r.lt { trapOf .trap with status := r.code.toNat })

/-! ## Page tables -/

/-- s1 and s2 of MAP, UNMAP and PROTECT are in range. -/
def svcRangeOk (r : SvcReq) : Bool :=
  let va := svcArg r 0
  let n := svcArg r 1
  va % 65536 == 0 && decide (1 ≤ n ∧ n ≤ 65536) && decide (va + n * 65536 ≤ 2 ^ 54)

/-- s3 of MAP and PROTECT: bit 0 R, bit 1 W, bit 2 A.
PRESUMED (log 103), unsafe. -/
def permsOk (r : SvcReq) : Bool := let p := svcArg r 2; decide (1 ≤ p ∧ p ≤ 7)

/-- A page that may serve as a frame or a table: whole, in device memory. -/
def frameOk (pa : Nat) : Bool := pa % 65536 == 0 && decide (pa + 65536 ≤ 2 ^ 38)

/-- The table that an entry names; an invalid entry takes the next free table, zeroed (R317). A leaf names
none. -/
def tableFor (s : State) (entry : Nat) (pool : List Nat) : Option (Nat × List Nat × State) :=
  match tableEntry s entry, pool with
  | some e, _ => if bits e 1 1 = 1 then none else some (bits e 45 16 * 2 ^ 16, pool, s)
  | none, t :: rest =>
    if !frameOk t then none
    else
      let s := { s with dmem := tclear s.dmem t 65536, dbad := tclear s.dbad (t / 32) 2048, dkey := tclear s.dkey (t / 32) 2048 }
      some (t, rest, devWrite s entry (leBytes 8 (t + 1)))
  | none, [] => none

/-- Maps pages one after the other; none where a table is missing or a 512 MiB page stands in the way. -/
def mapPages (root perms : Nat) : List (Nat × Nat) → List Nat → State → Option State
  | [], _, s => some s
  | (va, frame) :: rest, pool, s =>
    match tableFor s (root + 8 * bits va 53 42) pool with
    | none => none
    | some (b, pool, s) =>
      match tableFor s (b + 8 * bits va 41 29) pool with
      | none => none
      | some (a, pool, s) =>
        mapPages root perms rest pool (devWrite s (a + 8 * bits va 28 16) (leBytes 8 (frame + perms * 8 + 3)))

/-- GEN of a context as a result. -/
def genRes (s : State) (r : SvcReq) : List Byte := leBytes 8 (ctxOf s r.ctx.toNat).gen.toNat

/-- MAP: the frames and the free tables are the firmware's choice; too few of them are "no memory".
DEDUCED (log 104), unsafe. -/
def execSvcMap (req : Nat) (frames tables : List Nat) (s : State) : Host.Outcome State Fault Refusal :=
  .next (svcRun s req 1 fun s r =>
    let n := svcArg r 1
    if !(svcRangeOk r && permsOk r) then svcEnd s r 1 []
    else if frames.length < n ∨ !((frames.take n).all frameOk) then svcEnd s r 2 []
    else
      let pages := (List.range n).zip frames |>.map fun p => (svcArg r 0 + 65536 * p.1, p.2)
      match mapPages ((ctxOf s r.ctx.toNat).root.toNat * 2 ^ 16) (svcArg r 2) pages tables s with
      | some t => svcEnd t r 0 (genRes t r)
      | none => svcEnd s r 2 [])

/-- The pages of a request. -/
def svcPages (r : SvcReq) : List Nat := (List.range (svcArg r 1)).map fun i => svcArg r 0 + 65536 * i

/-- A leaf of 64 KiB at each page of the range that has one; false where a 512 MiB page covers one. -/
def noBig (s : State) (r : SvcReq) : Bool :=
  (svcPages r).all fun va => match walk s r.ctx.toNat va with | .ok _ true .. => false | _ => true

/-- Changes the leaves of the range. -/
def changeLeaves (s : State) (r : SvcReq) (f : Nat → Nat) : State :=
  (svcPages r).foldl (fun s va =>
    match leafAt s r.ctx.toNat va with
    | some (pa, e) => devWrite s pa (leBytes 8 (f e))
    | none => s) s

/-- UNMAP and PROTECT: the leaves change, the pages are invalidated, and the service ends after DONE (R322 to
R324). -/
def changeMap (s : State) (r : SvcReq) (ok : Bool) (f : Nat → Nat) : State :=
  if r.begun then (if s.inval.isSome then s else svcEnd s r 0 (genRes s r))
  else if !(svcRangeOk r && ok && noBig s r) then svcEnd s r 1 []
  else if s.inval.isSome then s
  else
    let s := changeLeaves s r f
    let s := goInval s r.ctx.toNat (BitVec.ofNat 38 (svcArg r 0 / 65536)) (BitVec.ofNat 24 (svcArg r 1))
    { s with svcs := s.svcs.map fun x => if x.id = r.id then { x with begun := true } else x }

/-- UNMAP. -/
def execSvcUnmap (req : Nat) (s : State) : Host.Outcome State Fault Refusal :=
  .next (svcRun s req 2 fun s r => changeMap s r true fun _ => 0)

/-- PROTECT: a page that is not mapped lacks a permission. -/
def execSvcProtect (req : Nat) (s : State) : Host.Outcome State Fault Refusal :=
  .next (svcRun s req 3 fun s r =>
    if !r.begun && svcRangeOk r && (svcPages r).any (fun va => (leafAt s r.ctx.toNat va).isNone) then svcEnd s r 3 []
    else changeMap s r (permsOk r) fun e => e - bits e 5 3 * 8 + svcArg r 2 * 8)

/-! ## Errors of storage (R312, R313, R314) -/

/-- A corrected error of a slice is counted for the slice's die, and by every member that is bound there (R302, R312,
R420). -/
def countCorrected (s : State) (pa : Nat) : State :=
  let die := sliceOfPa pa / 16
  let s := { s with corrected := tput 0 s.corrected die (tget 0 s.corrected die + 1) }
  ((siteList s).filter fun n => dieOf n == die && isBound (mem s n)).foldl (fun s n => updMem s n fun m => count m 0x083) s

/-- A sector is poisoned, and logged for the management core (R313, R314). -/
def poisonSector (s : State) (k : Nat) : State := mgmtNote { s with dbad := tput false s.dbad k true } 1 k

/-- The tag of a line is lost: its dirty sectors are poisoned and the line is invalid (R313); one that is pinned is
filled again (R308). -/
def loseTag (s : State) (line : Nat) : State :=
  let pa := 128 * line
  match lineTag s pa with
  | none => s
  | some t =>
    let s := (List.range 4).foldl (fun s i => if t.dirty.getLsbD i then poisonSector s (4 * line + i) else s) s
    let l := (tagsAt s pa).filter fun x => x.tag != t.tag
    let kept : List Tag := if t.pinned then [{ t with zero := false, valid := 0, dirty := 0, way := false }] else []
    setTags s pa (fillPinned (l ++ kept))

/-- A sector is held in L2 (R303). -/
def heldInL2 (s : State) (k : Nat) : Bool :=
  ((lineTag s (32 * k)).map fun t => t.zero || t.valid &&& sectorBit (32 * k) != 0).getD false

/-- A unit of storage that exists and holds what its code covers (R312). -/
def storedOk (s : State) : Stored → Bool
  | .device k => decide (k < 2 ^ 33)
  | .l2Data k => decide (k < 2 ^ 33) && heldInL2 s k
  | .l2Tag l => decide (l < 2 ^ 31) && (lineTag s (128 * l)).isSome
  | .buf n b c => decide (n < 160 ∧ 1 ≤ b ∧ b ≤ 3 ∧ 32 * c < bufSize b)

/-- A corrected error is counted in the event of its structure (R312, R420). -/
def correctUnit (s : State) : Stored → State
  | .device k | .l2Data k => countCorrected s (32 * k)
  | .l2Tag l => countCorrected s (128 * l)
  | .buf n b _ => updMem s n fun m => count m (0x07f + b)

/-- An uncorrectable error poisons what holds it (R313). -/
def poisonUnit (s : State) : Stored → State
  | .device k | .l2Data k => poisonSector s k
  | .l2Tag l => loseTag s l
  | .buf n b c => updMem s n fun m => { m with buf := { m.buf with bad := tput false m.buf.bad (badKey b (32 * c)) true } }

/-- SCRUB: what the code of a unit of storage finds, in the background or at an access (R312).
DEDUCED (log 100), unsafe. -/
def execScrub (u : Stored) (e : EccOutcome) (s : State) : Host.Outcome State Fault Refusal :=
  .next (if !storedOk s u then s
    else match e with
      | .clean => s
      | .corrected => correctUnit s u
      | .uncorrectable => poisonUnit s u)

/-! ## Metering (R310) -/

/-- Contexts that wait at a port: the bucket does not cover the cost. -/
def waitingAt (s : State) (slice : Nat) : List (Nat × Nat × Option Nat) :=
  (portOf s slice).waiting.filter fun w => decide (bucketOf s slice w.1 < 16 * w.2.1)

/-- The borrower served next: no context of a higher PRIO waits, and among equals it is the lowest above the
last one served, wrapping round. -/
def nextBorrower (s : State) (slice : Nat) : Option (Nat × Nat × Option Nat) :=
  let l := waitingAt s slice
  let prio (c : Nat) : Nat := (quotaOf s c).prio.toNat
  let top := l.foldl (fun a w => max a (prio w.1)) 0
  let l := l.filter fun w => prio w.1 == top
  let least (p : Nat → Bool) : Option (Nat × Nat × Option Nat) :=
    (l.filter fun w => p w.1).foldl (fun a w => match a with
      | some x => if w.1 < x.1 then some w else a
      | none => some w) none
  (least fun c => decide ((portOf s slice).last < c)).or (least fun _ => true)

/-- METERED_REQUEST_PROCEEDS: the borrower's shortfall comes from the pool, and its request proceeds when it is
presented next; the tokens borrowed are counted (R420).
DEDUCED (log 101), unsafe. -/
def execMeteredRequestProceeds (slice ctx : Nat) (s : State) : Host.Outcome State Fault Refusal :=
  .next (match nextBorrower s slice with
    | none => s
    | some (c, cost, site) =>
      let p := portOf s slice
      let short := 16 * cost - bucketOf s slice c
      if c ≠ ctx ∨ p.pool < short then s
      else
        let s := setPort s slice { p with bucket := tput none p.bucket c (some (16 * cost)), pool := p.pool - short, last := c }
        match site with
        | some n => updMem s n fun m => countN m 0x065 ((short + 15) / 16)
        | none => s)

end Sys2Proof.Machine
end

