-- ==== Sys2Proof/Machine/Dispatch.lean ====
section
/-! DEFINITION. One arm for each instruction: a direct call of its meaning. -/

namespace Sys2Proof.Machine

/-- Runs one instruction, as the actor that State.cur names. -/
def exec (i : Instr) (s : State) : Host.Outcome State Fault Refusal :=
  match i with
  | .nop h => Sys2Proof.Machine.execNop h s
  | .add h d a b => Sys2Proof.Machine.execAdd h d a b s
  | .sub h d a b => Sys2Proof.Machine.execSub h d a b s
  | .mul h d a b => Sys2Proof.Machine.execMul h d a b s
  | .mulh h d a b => Sys2Proof.Machine.execMulh h d a b s
  | .mulhn h d a b => Sys2Proof.Machine.execMulhn h d a b s
  | .div h d a b => Sys2Proof.Machine.execDiv h d a b s
  | .divn h d a b => Sys2Proof.Machine.execDivn h d a b s
  | .rem h d a b => Sys2Proof.Machine.execRem h d a b s
  | .remn h d a b => Sys2Proof.Machine.execRemn h d a b s
  | .and_ h d a b => Sys2Proof.Machine.execAnd h d a b s
  | .or_ h d a b => Sys2Proof.Machine.execOr h d a b s
  | .xor h d a b => Sys2Proof.Machine.execXor h d a b s
  | .andn h d a b => Sys2Proof.Machine.execAndn h d a b s
  | .shl h d a b => Sys2Proof.Machine.execShl h d a b s
  | .shr h d a b => Sys2Proof.Machine.execShr h d a b s
  | .sra h d a b => Sys2Proof.Machine.execSra h d a b s
  | .rol h d a b => Sys2Proof.Machine.execRol h d a b s
  | .min h d a b => Sys2Proof.Machine.execMin h d a b s
  | .max h d a b => Sys2Proof.Machine.execMax h d a b s
  | .minn h d a b => Sys2Proof.Machine.execMinn h d a b s
  | .maxn h d a b => Sys2Proof.Machine.execMaxn h d a b s
  | .clz h d a => Sys2Proof.Machine.execClz h d a s
  | .ctz h d a => Sys2Proof.Machine.execCtz h d a s
  | .popc h d a => Sys2Proof.Machine.execPopc h d a s
  | .sext h d a w => Sys2Proof.Machine.execSext h d a w s
  | .zext h d a w => Sys2Proof.Machine.execZext h d a w s
  | .bfx h d a p n => Sys2Proof.Machine.execBfx h d a p n s
  | .bfi h d a p n => Sys2Proof.Machine.execBfi h d a p n s
  | .cmp h d a b cc => Sys2Proof.Machine.execCmp h d a b cc s
  | .sel h d a b y => Sys2Proof.Machine.execSel h d a b y s
  | .li h d imm => Sys2Proof.Machine.execLi h d imm s
  | .lih h d imm => Sys2Proof.Machine.execLih h d imm s
  | .mov h d a => Sys2Proof.Machine.execMov h d a s
  | .lea h d a b p => Sys2Proof.Machine.execLea h d a b p s
  | .crd h d row col => Sys2Proof.Machine.execCrd h d row col s
  | .br h z a off => Sys2Proof.Machine.execBr h z a off s
  | .jmp h off => Sys2Proof.Machine.execJmp h off s
  | .jmpi h a => Sys2Proof.Machine.execJmpi h a s
  | .call h d off => Sys2Proof.Machine.execCall h d off s
  | .ret h a => Sys2Proof.Machine.execRet h a s
  | .loop h lc trip len => Sys2Proof.Machine.execLoop h lc trip len s
  | .loopn h lc as len => Sys2Proof.Machine.execLoopn h lc as len s
  | .loopc h lc trip len => Sys2Proof.Machine.execLoopc h lc trip len s
  | .loopd h lc trip len => Sys2Proof.Machine.execLoopd h lc trip len s
  | .lbrk h lc a => Sys2Proof.Machine.execLbrk h lc a s
  | .lrec h id => Sys2Proof.Machine.execLrec h id s
  | .stg h d stage => Sys2Proof.Machine.execStg h d stage s
  | .fpost h f sc v => Sys2Proof.Machine.execFpost h f sc v s
  | .fwait h f sc v => Sys2Proof.Machine.execFwait h f sc v s
  | .fset h f sc v => Sys2Proof.Machine.execFset h f sc v s
  | .fdec h f sc v => Sys2Proof.Machine.execFdec h f sc v s
  | .fread h f d => Sys2Proof.Machine.execFread h f d s
  | .farm h f sc v => Sys2Proof.Machine.execFarm h f sc v s
  | .barj h n a => Sys2Proof.Machine.execBarj h n a s
  | .barw h n a => Sys2Proof.Machine.execBarw h n a s
  | .align h n => Sys2Proof.Machine.execAlign h n s
  | .idle h n1 => Sys2Proof.Machine.execIdle h n1 s
  | .idleColumn h n1 col => Sys2Proof.Machine.execIdleColumn h n1 col s
  | .qopen h q a => Sys2Proof.Machine.execQopen h q a s
  | .qopenf h q a fk fn => Sys2Proof.Machine.execQopenf h q a fk fn s
  | .qres h q a => Sys2Proof.Machine.execQres h q a s
  | .qwait h q => Sys2Proof.Machine.execQwait h q s
  | .qpick h vr d a gm => Sys2Proof.Machine.execQpick h vr d a gm s
  | .qstat h vr d a => Sys2Proof.Machine.execQstat h vr d a s
  | .trap h code => Sys2Proof.Machine.execTrap h code s
  | .svc h code => Sys2Proof.Machine.execSvc h code s
  | .halt h => Sys2Proof.Machine.execHalt h s
  | .yield h => Sys2Proof.Machine.execYield h s
  | .rdsr h d sn => Sys2Proof.Machine.execRdsr h d sn s
  | .wrsr h a sn => Sys2Proof.Machine.execWrsr h a sn s
  | .brk h code => Sys2Proof.Machine.execBrk h code s
  | .uiret h => Sys2Proof.Machine.execUiret h s
  | .pcsel h code => Sys2Proof.Machine.execPcsel h code s
  | .pcread h d a op => Sys2Proof.Machine.execPcread h d a op s
  | .trmark h code => Sys2Proof.Machine.execTrmark h code s
  | .lidx h d hn a op => Sys2Proof.Machine.execLidx h d hn a op s
  | .ldup h d => Sys2Proof.Machine.execLdup h d s
  | .lgat h hn a op => Sys2Proof.Machine.execLgat h hn a op s
  | .lpool h op => Sys2Proof.Machine.execLpool h op s
  | .lsend h a prow pcol slot => Sys2Proof.Machine.execLsend h a prow pcol slot s
  | .lscat h hn a op => Sys2Proof.Machine.execLscat h hn a op s
  | .vadd h x d a b => Sys2Proof.Machine.execVadd h x d a b s
  | .vsub h x d a b => Sys2Proof.Machine.execVsub h x d a b s
  | .vmul h x d a b => Sys2Proof.Machine.execVmul h x d a b s
  | .vfma h x d a b y => Sys2Proof.Machine.execVfma h x d a b y s
  | .vfms h x d a b y => Sys2Proof.Machine.execVfms h x d a b y s
  | .vfnma h x d a b y => Sys2Proof.Machine.execVfnma h x d a b y s
  | .vmin h x d a b => Sys2Proof.Machine.execVmin h x d a b s
  | .vmax h x d a b => Sys2Proof.Machine.execVmax h x d a b s
  | .vminn h x d a b => Sys2Proof.Machine.execVminn h x d a b s
  | .vmaxn h x d a b => Sys2Proof.Machine.execVmaxn h x d a b s
  | .vabs h x d a => Sys2Proof.Machine.execVabs h x d a s
  | .vneg h x d a => Sys2Proof.Machine.execVneg h x d a s
  | .vcmp h x d a b cc => Sys2Proof.Machine.execVcmp h x d a b cc s
  | .vsel h x d a b y => Sys2Proof.Machine.execVsel h x d a b y s
  | .vclamp h x d a b y => Sys2Proof.Machine.execVclamp h x d a b y s
  | .vldx2 h x d a b => Sys2Proof.Machine.execVldx2 h x d a b s
  | .vrnd h x d a => Sys2Proof.Machine.execVrnd h x d a s
  | .viadd h x d a b => Sys2Proof.Machine.execViadd h x d a b s
  | .visub h x d a b => Sys2Proof.Machine.execVisub h x d a b s
  | .vimul h x d a b => Sys2Proof.Machine.execVimul h x d a b s
  | .vimulh h x d a b => Sys2Proof.Machine.execVimulh h x d a b s
  | .viand h x d a b => Sys2Proof.Machine.execViand h x d a b s
  | .vior h x d a b => Sys2Proof.Machine.execVior h x d a b s
  | .vixor h x d a b => Sys2Proof.Machine.execVixor h x d a b s
  | .vishl h x d a b => Sys2Proof.Machine.execVishl h x d a b s
  | .vishr h x d a b => Sys2Proof.Machine.execVishr h x d a b s
  | .visra h x d a b => Sys2Proof.Machine.execVisra h x d a b s
  | .vimin h x d a b => Sys2Proof.Machine.execVimin h x d a b s
  | .vimax h x d a b => Sys2Proof.Machine.execVimax h x d a b s
  | .viabs h x d a => Sys2Proof.Machine.execViabs h x d a s
  | .vicmp h x d a b cc => Sys2Proof.Machine.execVicmp h x d a b cc s
  | .viclamp h x d a b y => Sys2Proof.Machine.execViclamp h x d a b y s
  | .vcvt h x d a k => Sys2Proof.Machine.execVcvt h x d a k s
  | .vcvts h x d a b k => Sys2Proof.Machine.execVcvts h x d a b k s
  | .vpack h x d a b k => Sys2Proof.Machine.execVpack h x d a b k s
  | .vunpk h x d a p k => Sys2Proof.Machine.execVunpk h x d a p k s
  | .vmov h x d a => Sys2Proof.Machine.execVmov h x d a s
  | .vbc h x d r1 => Sys2Proof.Machine.execVbc h x d r1 s
  | .vrbc h x d a col => Sys2Proof.Machine.execVrbc h x d a col s
  | .vcbc h x d a row => Sys2Proof.Machine.execVcbc h x d a row s
  | .vrrot h x d a n => Sys2Proof.Machine.execVrrot h x d a n s
  | .vcrot h x d a n => Sys2Proof.Machine.execVcrot h x d a n s
  | .vrred h x d a op => Sys2Proof.Machine.execVrred h x d a op s
  | .vcred h x d a op => Sys2Proof.Machine.execVcred h x d a op s
  | .vrscan h x d a op => Sys2Proof.Machine.execVrscan h x d a op s
  | .vperm h x d a b => Sys2Proof.Machine.execVperm h x d a b s
  | .vtrn h x d a => Sys2Proof.Machine.execVtrn h x d a s
  | .viota h x d => Sys2Proof.Machine.execViota h x d s
  | .vext h x d a row col => Sys2Proof.Machine.execVext h x d a row col s
  | .vins h x d r1 row col => Sys2Proof.Machine.execVins h x d r1 row col s
  | .kand h x d a b => Sys2Proof.Machine.execKand h x d a b s
  | .kor h x d a b => Sys2Proof.Machine.execKor h x d a b s
  | .kxor h x d a b => Sys2Proof.Machine.execKxor h x d a b s
  | .knot h x d a => Sys2Proof.Machine.execKnot h x d a s
  | .kmov h x d a => Sys2Proof.Machine.execKmov h x d a s
  | .kpop h x d a => Sys2Proof.Machine.execKpop h x d a s
  | .kfst h x d a => Sys2Proof.Machine.execKfst h x d a s
  | .rtcnt h x a => Sys2Proof.Machine.execRtcnt h x a s
  | .vrope h x d a b y => Sys2Proof.Machine.execVrope h x d a b y s
  | .xexp2 h x d a => Sys2Proof.Machine.execXexp2 h x d a s
  | .xlog2 h x d a => Sys2Proof.Machine.execXlog2 h x d a s
  | .xrcp h x d a => Sys2Proof.Machine.execXrcp h x d a s
  | .xrsqrt h x d a => Sys2Proof.Machine.execXrsqrt h x d a s
  | .xsqrt h x d a => Sys2Proof.Machine.execXsqrt h x d a s
  | .xdiv h x d a b => Sys2Proof.Machine.execXdiv h x d a b s
  | .xrng h x d => Sys2Proof.Machine.execXrng h x d s
  | .mmac h st fa fb tl nt => Sys2Proof.Machine.execMmac h st fa fb tl nt s
  | .mmacb h st fa fb tl sub => Sys2Proof.Machine.execMmacb h st fa fb tl sub s
  | .mret h st tl nt => Sys2Proof.Machine.execMret h st tl nt s
  | .mload h st tl nt => Sys2Proof.Machine.execMload h st tl nt s
  | .mzero h st tl nt => Sys2Proof.Machine.execMzero h st tl nt s
  | .mwake h st mask => Sys2Proof.Machine.execMwake h st mask s
  | .mmode h st f64 rm => Sys2Proof.Machine.execMmode h st f64 rm s
  | .sset h st fa idx => Sys2Proof.Machine.execSset h st fa idx s
  | .sadv h st fa => Sys2Proof.Machine.execSadv h st fa s
  | .sget h st fa code d => Sys2Proof.Machine.execSget h st fa code d s
  | .aqk h st fa fb tl r1 => Sys2Proof.Machine.execAqk h st fa fb tl r1 s
  | .apv h st fa fb tl r1 => Sys2Proof.Machine.execApv h st fa fb tl r1 s
  | .amass h st fb tl k => Sys2Proof.Machine.execAmass h st fb tl k s
  | .apos h st fb d => Sys2Proof.Machine.execApos h st fb d s
  | .vld h m w sx => Sys2Proof.Machine.execVld h m w sx s
  | .vst h m r w => Sys2Proof.Machine.execVst h m r w s
  | .sld h m w sx => Sys2Proof.Machine.execSld h m w sx s
  | .sst h m r w => Sys2Proof.Machine.execSst h m r w s
  | .vldx h m w sx => Sys2Proof.Machine.execVldx h m w sx s
  | .vstx h m r w => Sys2Proof.Machine.execVstx h m r w s
  | .atom h d hn o op v sz imm => Sys2Proof.Machine.execAtom h d hn o op v sz imm s
  | .cas h d hn o v nv sz imm => Sys2Proof.Machine.execCas h d hn o v nv sz imm s
  | .pf h m => Sys2Proof.Machine.execPf h m s
  | .mark h => Sys2Proof.Machine.execMark h s
  | .fence h sc => Sys2Proof.Machine.execFence h sc s
  | .zfill h m r => Sys2Proof.Machine.execZfill h m r s
  | .pin h m r => Sys2Proof.Machine.execPin h m r s
  | .unpin h m r => Sys2Proof.Machine.execUnpin h m r s
  | .xlat h hn o => Sys2Proof.Machine.execXlat h hn o s
  | .hrel h hn => Sys2Proof.Machine.execHrel h hn s
  | .tfill h m r w => Sys2Proof.Machine.execTfill h m r w s
  | .tdrain h m w => Sys2Proof.Machine.execTdrain h m w s
  | .rst h r o prow pcol fv fn => Sys2Proof.Machine.execRst h r o prow pcol fv fn s
  | .cpy e k => Sys2Proof.Machine.execCpy e k s
  | .cpyc e k rn dst sst => Sys2Proof.Machine.execCpyc e k rn dst sst s
  | .cfill e k => Sys2Proof.Machine.execCfill e k s
  | .tfetch e k rn sst => Sys2Proof.Machine.execTfetch e k rn sst s
  | .kick e c t => Sys2Proof.Machine.execKick e c t s
  | .link e c => Sys2Proof.Machine.execLink e c s
  | .linkWord next => Sys2Proof.Machine.execLinkWord next s
  | .collAllReduce e k => Sys2Proof.Machine.execCollAllReduce e k s
  | .collReduceScatter e k => Sys2Proof.Machine.execCollReduceScatter e k s
  | .collAllGather e k => Sys2Proof.Machine.execCollAllGather e k s
  | .collAllToAll e k => Sys2Proof.Machine.execCollAllToAll e k s
  | .collBroadcast e k => Sys2Proof.Machine.execCollBroadcast e k s
  | .rmerge e dh do_ ty ct nc ln => Sys2Proof.Machine.execRmerge e dh do_ ty ct nc ln s
  | .rtsnap e dh do_ => Sys2Proof.Machine.execRtsnap e dh do_ s
  | .hvstKeep e p k dk w d => Sys2Proof.Machine.execHvstKeep e p k dk w d s
  | .hvstMass e p k dk w d => Sys2Proof.Machine.execHvstMass e p k dk w d s
  | .hcomp e p => Sys2Proof.Machine.execHcomp e p s
  | .htrunc e p l => Sys2Proof.Machine.execHtrunc e p l s
  | .lkick e lc pc ar => Sys2Proof.Machine.execLkick e lc pc ar s
  | .esync e => Sys2Proof.Machine.execEsync e s
  | .fetchLinePresent a => Sys2Proof.Machine.execFetchLinePresent a s
  | .fixedLatencyWrite a => Sys2Proof.Machine.execFixedLatencyWrite a s
  | .pendingValueLands site tok => Sys2Proof.Machine.execPendingValueLands site tok s
  | .freezeRelease site => Sys2Proof.Machine.execFreezeRelease site s
  | .recordBoundary site => Sys2Proof.Machine.execRecordBoundary site s
  | .recordLongestExceeded site => Sys2Proof.Machine.execRecordLongestExceeded site s
  | .guardResolution site q => Sys2Proof.Machine.execGuardResolution site q s
  | .deferredAccessReissue site tok => Sys2Proof.Machine.execDeferredAccessReissue site tok s
  | .heldEntryLeaves site => Sys2Proof.Machine.execHeldEntryLeaves site s
  | .lLoadPerform site piece => Sys2Proof.Machine.execLLoadPerform site piece s
  | .lStorePerform site piece => Sys2Proof.Machine.execLStorePerform site piece s
  | .atomicPerform site => Sys2Proof.Machine.execAtomicPerform site s
  | .markPerform site => Sys2Proof.Machine.execMarkPerform site s
  | .fencePerform site => Sys2Proof.Machine.execFencePerform site s
  | .flagUpdatePerform site => Sys2Proof.Machine.execFlagUpdatePerform site s
  | .amassUpdatePerform site => Sys2Proof.Machine.execAmassUpdatePerform site s
  | .tfillPerform site => Sys2Proof.Machine.execTfillPerform site s
  | .tdrainPerform site => Sys2Proof.Machine.execTdrainPerform site s
  | .pinPerform site => Sys2Proof.Machine.execPinPerform site s
  | .pinDeferredGrant site loader => Sys2Proof.Machine.execPinDeferredGrant site loader s
  | .rstPerform site => Sys2Proof.Machine.execRstPerform site s
  | .xlatResult site hn => Sys2Proof.Machine.execXlatResult site hn s
  | .refill site src => Sys2Proof.Machine.execRefill site src s
  | .slotWaiterProceeds w => Sys2Proof.Machine.execSlotWaiterProceeds w s
  | .subarraySleep site k => Sys2Proof.Machine.execSubarraySleep site k s
  | .subarrayWakeComplete site k => Sys2Proof.Machine.execSubarrayWakeComplete site k s
  | .mCbWrite site => Sys2Proof.Machine.execMCbWrite site s
  | .rtcntBankUpdate site => Sys2Proof.Machine.execRtcntBankUpdate site s
  | .pcreadSample site tok => Sys2Proof.Machine.execPcreadSample site tok s
  | .uiEntry site => Sys2Proof.Machine.execUiEntry site s
  | .engineCommandStart site eng => Sys2Proof.Machine.execEngineCommandStart site eng s
  | .engineCommandComplete site eng idx => Sys2Proof.Machine.execEngineCommandComplete site eng idx s
  | .engineCommandFail site eng idx => Sys2Proof.Machine.execEngineCommandFail site eng idx s
  | .streamRestart site eng => Sys2Proof.Machine.execStreamRestart site eng s
  | .collChunkArrives site idx chunk => Sys2Proof.Machine.execCollChunkArrives site idx chunk s
  | .harvestLock site => Sys2Proof.Machine.execHarvestLock site s
  | .harvestDrain site => Sys2Proof.Machine.execHarvestDrain site s
  | .memberRetire site => Sys2Proof.Machine.execMemberRetire site s
  | .watchdogExpiry launch => Sys2Proof.Machine.execWatchdogExpiry launch s
  | .kill launch => Sys2Proof.Machine.execKill launch s
  | .completionWord launch => Sys2Proof.Machine.execCompletionWord launch s
  | .doorbell func idx tail => Sys2Proof.Machine.execDoorbell func idx tail s
  | .launchSelect queue p => Sys2Proof.Machine.execLaunchSelect queue p s
  | .bindGo launch => Sys2Proof.Machine.execBindGo launch s
  | .t0Start launch => Sys2Proof.Machine.execT0Start launch s
  | .tenantSwitch func => Sys2Proof.Machine.execTenantSwitch func s
  | .graphRebind launch img => Sys2Proof.Machine.execGraphRebind launch img s
  | .graphRebindSwitch launch => Sys2Proof.Machine.execGraphRebindSwitch launch s
  | .invalidationRequest ctx va count => Sys2Proof.Machine.execInvalidationRequest ctx va count s
  | .invalidationDone => Sys2Proof.Machine.execInvalidationDone s
  | .pageMigration m => Sys2Proof.Machine.execPageMigration m s
  | .faultRecordPost => Sys2Proof.Machine.execFaultRecordPost s
  | .preemptRequest launch => Sys2Proof.Machine.execPreemptRequest launch s
  | .memberPark site => Sys2Proof.Machine.execMemberPark site s
  | .saveStart launch => Sys2Proof.Machine.execSaveStart launch s
  | .saveDone launch => Sys2Proof.Machine.execSaveDone launch s
  | .restoreStart launch => Sys2Proof.Machine.execRestoreStart launch s
  | .traceSample site => Sys2Proof.Machine.execTraceSample site s
  | .dbgStop site => Sys2Proof.Machine.execDbgStop site s
  | .dbgStep site => Sys2Proof.Machine.execDbgStep site s
  | .dbgResume site => Sys2Proof.Machine.execDbgResume site s
  | .vigilTrigger cause => Sys2Proof.Machine.execVigilTrigger cause s
  | .vigilTrig => Sys2Proof.Machine.execVigilTrig s
  | .vigilReset => Sys2Proof.Machine.execVigilReset s
  | .vigilImageRead off => Sys2Proof.Machine.execVigilImageRead off s
  | .coldReset b => Sys2Proof.Machine.execColdReset b s
  | .attestationReport func nonce => Sys2Proof.Machine.execAttestationReport func nonce s
  | .keySlotWrite slot key => Sys2Proof.Machine.execKeySlotWrite slot key s
  | .alarmLevel1 => Sys2Proof.Machine.execAlarmLevel1 s
  | .alarmLevel2 => Sys2Proof.Machine.execAlarmLevel2 s
  | .powerCap watts => Sys2Proof.Machine.execPowerCap watts s
  | .powerOverdraw milliwatts => Sys2Proof.Machine.execPowerOverdraw milliwatts s
  | .linkDown port => Sys2Proof.Machine.execLinkDown port s
  | .linkRetrain port => Sys2Proof.Machine.execLinkRetrain port s
  | .flitRead f => Sys2Proof.Machine.execFlitRead f s
  | .flitWrite f => Sys2Proof.Machine.execFlitWrite f s
  | .flitAtomic f op sz => Sys2Proof.Machine.execFlitAtomic f op sz s
  | .flitBufferStore f tag => Sys2Proof.Machine.execFlitBufferStore f tag s
  | .flitFlagAdd f tag => Sys2Proof.Machine.execFlitFlagAdd f tag s
  | .flitCollectiveChunk f tag c => Sys2Proof.Machine.execFlitCollectiveChunk f tag c s
  | .flitCompletion f => Sys2Proof.Machine.execFlitCompletion f s
  | .hostWrite func t data => Sys2Proof.Machine.execHostWrite func t data s
  | .hostRead func t n => Sys2Proof.Machine.execHostRead func t n s
  | .functionLevelReset func => Sys2Proof.Machine.execFunctionLevelReset func s
  | .scrub u e => Sys2Proof.Machine.execScrub u e s
  | .meteredRequestProceeds slice ctx => Sys2Proof.Machine.execMeteredRequestProceeds slice ctx s
  | .svcNop req => Sys2Proof.Machine.execSvcNop req s
  | .svcMap req frames tables => Sys2Proof.Machine.execSvcMap req frames tables s
  | .svcUnmap req => Sys2Proof.Machine.execSvcUnmap req s
  | .svcProtect req => Sys2Proof.Machine.execSvcProtect req s
  | .svcTime req => Sys2Proof.Machine.execSvcTime req s
  | .svcLog req => Sys2Proof.Machine.execSvcLog req s
  | .mgmtRegisterWrite r v => Sys2Proof.Machine.execMgmtRegisterWrite r v s
  | .mOperandSlotsSetEmpty site => Sys2Proof.Machine.execMOperandSlotsSetEmpty site s
  | .pcieCompletion tag ok poisoned data => Sys2Proof.Machine.execPcieCompletion tag ok poisoned data s
  | .hostAtomic func addr op wide v cmp => Sys2Proof.Machine.execHostAtomic func addr op wide v cmp s
  | .svcUnknownCode req => Sys2Proof.Machine.execSvcUnknownCode req s
  | .coreClockChange mhz stopped => Sys2Proof.Machine.execCoreClockChange mhz stopped s
  | .launchClassRaise queue => Sys2Proof.Machine.execLaunchClassRaise queue s
  | .memberLoadComplete site ok => Sys2Proof.Machine.execMemberLoadComplete site ok s

end Sys2Proof.Machine
end

