-- ==== Sys2Proof/Machine/Events.lean ====
section
/-! DEFINITION. What may happen in each part of a tick without a lane: the events that the module's own agents
bring about, each as its meaning; and the part of the tick in which an event of the table may be picked. -/

namespace Sys2Proof.Machine

open Sys2Proof

/-- A meaning with its operands. -/
abbrev Deed := State → Host.Outcome State Fault Refusal

/-- The first of several deeds that changes the state. -/
def firstDeed (s : State) : List Deed → Option (Host.Outcome State Fault Refusal)
  | [] => none
  | f :: r =>
    match f s with
    | .next t => if t = s then firstDeed s r else some (.next t)
    | o => some o

/-! ## The start of a tick -/

/-- What becomes of a launch at the start of a tick (R344, R347, R367, R409, R414). -/
def launchStarts (l : Launch) : List Deed :=
  [execT0Start l.id, execRestoreStart l.id, execWatchdogExpiry l.id, execSaveStart l.id, execGraphRebindSwitch l.id]

/-- What becomes of a member: stops, the end of a freeze where it thaws, a boundary, fetch, waking sub-arrays, start stamps,
handlers, parking (R20, R22, R146, R149, R202, R248, R269, R272, R408). -/
def memberStarts (n : Nat) (thaw : Bool) : List Deed :=
  [execDbgStop n] ++ (if thaw then [execFreezeRelease n] else []) ++
  [execRecordBoundary n, execRecordLongestExceeded n, execFetchLinePresent (.site n)] ++
  (List.range 16).map (fun k => execSubarrayWakeComplete n (Fin.ofNat 16 k)) ++
  engines.map (fun e => execEngineCommandStart n e) ++
  [hrelDeed n, execUiEntry n, execFetchLinePresent (.handler n), execMemberPark n]

/-- What becomes of a lookup core (R382, R387). -/
def lookupStarts (k : Nat) (thaw : Bool) : List Deed :=
  (if thaw then [execFreezeRelease (256 + k)] else []) ++ [execFetchLinePresent (.lookup k)]

/-- Deeds of the start of a tick. -/
def startDeeds (s : State) : List Deed :=
  s.launches.flatMap launchStarts ++ (siteList s).flatMap (fun n => memberStarts n true) ++
  (lookupList s).flatMap fun k => lookupStarts k true

/-! ## Beside the group -/

/-- Commands of a stream that may end, and chunks of a collective that may be delivered (R249, R250, R400). -/
def flyDeeds (s : State) (n : Nat) (e : Fin 4) (f : Fly) : List Deed :=
  [execEngineCommandFail n e f.idx.toNat, execEngineCommandComplete n e f.idx.toNat] ++
  (if e = 2 then (match grpOf s n f with
    | some g => (List.range (grpDest g / 2048)).map fun c => execCollChunkArrives n f.idx.toNat c
    | none => []) else [])

/-- A stream that stopped at a replayable fault restarts once the fault has been serviced (R250, R326). -/
def restarts (s : State) (n : Nat) (e : Fin 4) : Bool :=
  match (streamOf (mem s n) e).stopped with
  | some f => (match f.fail with | some (.page, _) | some (.staleHandle, _) => true | _ => false) &&
      s.replays.all fun r => r.site != n || r.src != .stream e
  | none => false

/-- Deeds of a stream. -/
def streamDeeds (s : State) (n : Nat) (e : Fin 4) : List Deed :=
  (streamOf (mem s n) e).fly.flatMap (flyDeeds s n e) ++
  [execSlotWaiterProceeds (.eng n e), execEngineCommandStart n e] ++
  (if restarts s n e then [execStreamRestart n e] else [])

/-- Deeds of a member's access column (R162, R164, R216, R227 to R239, R275, R290, R307). -/
def accessDeeds (m : Member) (n : Nat) : List Deed :=
  (headPieces m.l.lq).map (execLLoadPerform n) ++ (headPieces m.l.sq).map (execLStorePerform n) ++
  [execAtomicPerform n, execMarkPerform n, execFencePerform n, execFlagUpdatePerform n, execAmassUpdatePerform n,
   execTfillPerform n, execTdrainPerform n, execPinPerform n, execRstPerform n] ++
  (if m.l.defer.isEmpty then [] else m.l.defer.map fun x => execDeferredAccessReissue n x.1.cap.seq) ++
  [execPinDeferredGrant n true, execPinDeferredGrant n false]

/-- Deeds of a member beside its group. -/
def besideDeeds (s : State) (n : Nat) : List Deed :=
  accessDeeds (mem s n) n ++ engines.flatMap (streamDeeds s n) ++
  [execHarvestLock n, execHarvestDrain n, execHeldEntryLeaves n, execRecordBoundary n, execRecordLongestExceeded n, execMemberRetire n] ++
  (List.range 16).map fun k => execSubarraySleep n (Fin.ofNat 16 k)

/-- Requests that wait at the ports (R310). -/
def portDeeds (s : State) : List Deed :=
  s.ports.flatMap fun p => p.2.waiting.map fun w => execMeteredRequestProceeds p.1 w.1

/-- Deeds beside the groups. -/
def midDeeds (s : State) : List Deed :=
  (siteList s).flatMap (besideDeeds s) ++ (lookupList s).flatMap (fun k => [execSlotWaiterProceeds (.lookup k), execFlagUpdatePerform (256 + k)]) ++
  portDeeds s ++ s.launches.flatMap (fun l => [execSaveDone l.id, execCompletionWord l.id]) ++
  [execInvalidationDone, execFaultRecordPost]


/-! ## The end of a tick -/

/-- A timed value of a member (R26, R233, R270). -/
def landDeed (n : Nat) (x : Land) : Deed :=
  match x.val with
  | .xlat hn .. => execXlatResult n hn
  | .pcread .. => execPcreadSample n x.tok
  | _ => execPendingValueLands n x.tok

/-- What ends for a member with the tick, of the timed values those that a test takes (R25, R26, R158, R187, R199,
R200, R423). -/
def memberEnds (s : State) (n : Nat) (p : Land → Bool) : List Deed :=
  [execMOperandSlotsSetEmpty n, execFixedLatencyWrite (.site n), execFixedLatencyWrite (.handler n), execMCbWrite n,
   execRtcntBankUpdate n] ++
  ((mem s n).fly.lands.filter p).map (landDeed n) ++ [fun s => .next (clashStep n s)] ++
  (List.range 8).map (fun q => execGuardResolution n (Fin.ofNat 8 q)) ++
  [execTraceSample n]

/-- Deeds of the end of a tick. -/
def finDeeds (s : State) : List Deed :=
  (siteList s).flatMap (fun n => memberEnds s n fun _ => true) ++ (lookupList s).map (fun k => execFixedLatencyWrite (.lookup k)) ++
  (siteList s).map fun n => fun s => .next (trapStep n s)

/-! ## What a tick owes

Between two events for which no rule gives a count of ticks any number may pass (R463); what a rule ties to a tick
happens in it, whatever is left undone. -/

/-- What the start of a tick owes: everything but the notices of far flags. -/
def owedStarts (s : State) : List Deed :=
  s.launches.flatMap launchStarts ++
  (siteList s).flatMap (fun n => memberStarts n (!farWait n (mem s n).ctl.frz || (mem s n).ui.hold.isSome)) ++
  (lookupList s).flatMap fun k => lookupStarts k (!farWait (lookupCore s k).site (lookupCore s k).hold)

/-- A command with a start stamp starts in its tick, or, slipped, as soon as every condition holds (R248). -/
def stampedStart (n : Nat) (e : Fin 4) (s : State) : Host.Outcome State Fault Refusal :=
  match readyCmd (mem s n) e with
  | some (c, _) => if (stampOf c).isSome then execEngineCommandStart n e s else .next s
  | none => .next s

/-- What the part of a tick beside the groups owes: the boundaries of records, stamped starts and sub-arrays that have
been idle for SLEEP group cycles (R146, R202, R248). -/
def owedMids (s : State) : List Deed :=
  (siteList s).flatMap fun n =>
    [execRecordBoundary n, execRecordLongestExceeded n] ++ engines.map (fun e => stampedStart n e) ++
    (List.range 16).map fun k => execSubarraySleep n (Fin.ofNat 16 k)

/-- What the end of a tick owes: everything but the answers of far flags and of what performs at a home outside.
DEDUCED (log 156), safe. -/
def owedFins (s : State) : List Deed :=
  (siteList s).flatMap (fun n => memberEnds s n (fun x => match x.val with | .flag k => !farFlag n k | .answer _ => false | _ => true)) ++
  (lookupList s).map (fun k s => .next (lookupWrites k s)) ++
  (siteList s).map fun n => fun s => .next (trapStep n s)

/-! ## Picked events -/

/-- The part of the tick of an event that the module's own agents bring about; none for what comes from outside or
from the firmware, which may fall in any. -/
def partOf (i : Instr) : Option Phase :=
  match i with
  | .fetchLinePresent _ | .freezeRelease _ | .subarrayWakeComplete _ _ | .uiEntry _ | .memberPark _ | .t0Start _ | .restoreStart _
  | .saveStart _ | .watchdogExpiry _ | .graphRebindSwitch _ => some .start
  | .fixedLatencyWrite _ | .pendingValueLands _ _ | .guardResolution _ _ | .xlatResult _ _ | .mCbWrite _ | .rtcntBankUpdate _
  | .pcreadSample _ _ | .mOperandSlotsSetEmpty _ | .traceSample _ => some .fin
  | .flitBufferStore .. | .recordBoundary _ | .recordLongestExceeded _ | .deferredAccessReissue _ _ | .heldEntryLeaves _ | .lLoadPerform _ _
  | .lStorePerform _ _ | .atomicPerform _ | .markPerform _ | .fencePerform _ | .flagUpdatePerform _ | .amassUpdatePerform _
  | .tfillPerform _ | .tdrainPerform _ | .pinPerform _ | .pinDeferredGrant _ _ | .rstPerform _ | .slotWaiterProceeds _
  | .subarraySleep _ _ | .engineCommandStart _ _ | .engineCommandComplete _ _ _ | .engineCommandFail _ _ _ | .streamRestart _ _
  | .collChunkArrives _ _ _ | .harvestLock _ | .harvestDrain _ | .memberRetire _ | .saveDone _ | .completionWord _
  | .invalidationDone | .faultRecordPost | .meteredRequestProceeds _ _ => some .mid
  | _ => none

/-- An instruction of a queue: it runs from a lane or a chain, never as a picked event. -/
def ofQueue (i : Instr) : Bool := (form i).isSome || (eform i).isSome

/-- What may reach a module whose clocks stand still: the management core, the debug port and the host (R427,
R429, R433). -/
def whileStill (i : Instr) : Bool :=
  match i with
  | .vigilReset | .vigilImageRead _ | .coldReset _ | .hostRead .. | .hostWrite .. | .hostAtomic .. | .mgmtRegisterWrite _ _
  | .keySlotWrite _ _ | .alarmLevel1 | .alarmLevel2 => true
  | _ => false

/-- An event may be picked in this state. -/
def mayPick (s : State) (i : Instr) : Bool :=
  !ofQueue i && (if clocksStand s then whileStill i else match partOf i with | some p => p == s.phase | none => true)

end Sys2Proof.Machine
end

