-- ==== Sys2Proof/Machine/Step.lean ====
section
/-! DEFINITION. One step of the module: one lane issued, one event, or the next part of a tick; and the
state in which a given instruction is the next to run. -/

namespace Sys2Proof.Machine

open Sys2Proof

/-- Runs an instruction as an actor. -/
def runAs (c : Cur) (i : Instr) (s : State) : Host.Outcome State Fault Refusal :=
  match exec i { s with cur := c } with
  | .next t => .next { t with cur := .none }
  | o => o

/-- Issues the head lane of a queue of a member; one that a SAVE block may not hold is ILLEGAL (R412). -/
def laneRun (n : Nat) (q : Queue) (s : State) : Host.Outcome State Fault Refusal :=
  match dueLane (mem s n) q with
  | none => .next s
  | some l =>
    match (if saveBreach l then none else l.ins) with
    | some i => runAs (.lane n q l.addr) i s
    | none => .next (badLane s { who := .mem n, q := q, ln := l } (l.bad.getD .unassigned))

/-- A result in which the member is frozen. -/
def isStalled (n : Nat) (o : Host.Outcome State Fault Refusal) : Bool :=
  match o with
  | .next t => (mem t n).ctl.frz.isSome
  | _ => false

/-- The cause by which a result freezes the member. -/
def stallCause (n : Nat) (o : Host.Outcome State Fault Refusal) : Nat :=
  match o with
  | .next t => match (mem t n).ctl.frz with | some h => holdCause (mem t n) h | none => 0
  | _ => 0

/-- The result with the lowest cause among those that freeze the member. -/
def firstStall (n : Nat) : List Queue → State → Option (Host.Outcome State Fault Refusal)
  | [], _ => none
  | q :: qs, s =>
    let o := laneRun n q s
    match isStalled n o, firstStall n qs s with
    | true, some p => if stallCause n p < stallCause n o then some p else some o
    | true, none => some o
    | false, r => r

/-- A due lane of a member runs; a lane that is held freezes the group before any other issues (R21).
DEDUCED (log 5), unsafe. -/
def issueLane (n : Nat) (q : Queue) (s : State) : Host.Outcome State Fault Refusal :=
  match firstStall n (dueQueues (mem s n)) s with
  | some o => o
  | none => laneRun n q s

/-- The causes of a frozen group in this tick: that of its freeze line or of its handler, and those of the lockstep
lanes due in its group cycle (R22). -/
def causeStep (n : Nat) (s : State) : State :=
  let m := mem s n
  match frozenCause m, m.ctl.low with
  | some c, none =>
    let s' := updMem s n fun m => { m with ctl := { m.ctl with frz := none } }
    let cs := (laneQueues.filter fun q => q != .l && queueDue m q).map fun q => stallCause n (laneRun n q s')
    updMem s n fun m => { m with ctl := { m.ctl with low := some ((cs.filter fun c => c != 0).foldl min c) } }
  | _, _ => s

/-- A due instruction of a handler or a lookup core runs; the 257th of a handler is ILLEGAL (R24, R273). -/
def agentRun (a : Agent) (s : State) : Option (Host.Outcome State Fault Refusal) :=
  match a with
  | .site _ => none
  | .handler n =>
    (dueHandler (mem s n)).map fun l =>
      match (if (mem s n).ui.count < 256 then l.ins else none) with
      | some i => runAs (.handler n l.addr) i s
      | none => .next (badLane s { who := .hnd n, q := .c, ln := l } (l.bad.getD .unassigned))
  | .lookup n =>
    (dueLookup (lookupCore s n)).map fun l =>
      match l.ins with
      | some i => runAs (.lookup n l.addr) i s
      | none => .next (badLane s { who := .lk n, q := .c, ln := l } (l.bad.getD .unassigned))

/-- The first of the lanes of a group that runs: a lane of L that waits leaves the state as it is. -/
def firstLane (n : Nat) (s : State) : List Queue → Option (Host.Outcome State Fault Refusal)
  | [] => none
  | q :: r =>
    match issueLane n q s with
    | .next t => if t == s then firstLane n s r else some (.next t)
    | o => some o

/-- The lanes of one group cycle issue in ascending queue code (R160): no lane of a lower code than this one can
still issue. -/
def queueTurn (n : Nat) (q : Queue) (s : State) : Bool :=
  (dueQueues (mem s n)).contains q && (firstLane n s ((dueQueues (mem s n)).takeWhile fun p => p != q)).isNone

/-- The model's own order of issue: members in ascending site, queues in ascending code, then handlers,
then the lookup cores that a test takes. -/
def autoIssue (s : State) (p : Nat → Bool) : Option (Host.Outcome State Fault Refusal) :=
  match (siteList s).findSome? (fun n => (firstLane n s (dueQueues (mem s n))).or
      (if (frozenCause (mem s n)).isSome && (mem s n).ctl.low.isNone then some (.next (causeStep n s)) else none)) with
  | some o => some o
  | none =>
    match (siteList s).findSome? (fun n => agentRun (.handler n) s) with
    | some o => some o
    | none => ((lookupList s).filter p).findSome? fun n => agentRun (.lookup n) s

/-- The next deed of this part of the tick, in the model's own order. -/
def nextDeed (s : State) : Option (Host.Outcome State Fault Refusal) :=
  match s.phase with
  | .start => firstDeed s (startDeeds s)
  | .issue => autoIssue s fun _ => true
  | .mid => firstDeed s (midDeeds s)
  | .fin => firstDeed s (finDeeds s)

/-- One step of the model's own order. -/
def autoStep (s : State) : Host.Outcome State Fault Refusal := (nextDeed s).getD (.next (nextPhase s))

/-- What a rule ties to this part of the tick; the accesses of an instruction that a lookup core has issued reach
their homes in no stated number of ticks (R463). -/
def owedDeed (s : State) : Option (Host.Outcome State Fault Refusal) :=
  match s.phase with
  | .start => firstDeed s (owedStarts s)
  | .issue => autoIssue s fun k => (lookupCore s k).work.isNone
  | .mid => firstDeed s (owedMids s)
  | .fin => firstDeed s (owedFins s)

/-- A result with a pick put back, to be taken again. -/
def putBackPick (p : Pick) : Host.Outcome State Fault Refusal → Host.Outcome State Fault Refusal
  | .next t => .next { t with agenda := p :: t.agenda }
  | o => o

/-- One step of the module: the next pick of the agenda, or the model's own order. A pick that is not enabled
has no effect.
DESIGN CHOICE (log 4), unsafe. -/
def step (s : State) : Host.Outcome State Fault Refusal :=
  match s.agenda with
  | [] => if clocksStand s then .fault .clocksStopped else autoStep s
  | p :: rest =>
    let s := { s with agenda := rest }
    match p with
    | .ev i => if mayPick s i then runAs .none i s else .next s
    | .lane n q =>
      if !clocksStand s && s.phase == .issue && queueTurn n q s then issueLane n q s else .next s
    | .agent a => if !clocksStand s && s.phase == .issue then (agentRun a s).getD (.next s) else .next s
    | .pass =>
      if clocksStand s then .next s
      else match owedDeed s with
        | some o => putBackPick .pass o
        | none => .next (nextPhase s)
    | .auto => if clocksStand s then .next s else autoStep s

/-- Byte offset of TEXT in the image that `withFetchWord` places. -/
def placedText : Nat := 128

/-- An image of one line: its header, its TEXT descriptor, and the words in the lanes of a queue. -/
def placedImage (q : Queue) (ws : List Word32) : List Byte :=
  let codes := q.code :: List.replicate (ws.length - 1) 0xe
  let hdr := 1 + (codes.zipIdx.map fun p => p.1 * 16 ^ (p.2 + 1)).sum
  leBytes 4 0x39584e4f ++ leBytes 2 1 ++ leBytes 2 1 ++ leBytes 2 0x101 ++ leBytes 2 1 ++ leBytes 4 placedText ++
  List.replicate 48 0 ++
  leBytes 4 1 ++ leBytes 4 placedText ++ leBytes 4 32 ++ leBytes 4 1 ++ List.replicate 48 0 ++
  leBytes 4 hdr ++ ws.flatMap (fun w => leBytes 4 w.toNat)

/-- The state in which one member runs at site 0 from an image that holds the instruction alone, its line
fetched and the instruction due: this stands for the load of a program, from the doorbell to T0 and the
fetch of its first line.
DESIGN CHOICE (log 35), safe. -/
def State.withFetchWord (s : State) (nbits w : Nat) : State :=
  match decodeTable nbits w with
  | none => s
  | some (q, i) =>
    let ws := tableWords nbits w
    let b : Bind := { tget Bind.reset s.slotTable 0 with
      launch := 1, image := 0, state := 2, mode := 0 }
    let m := Member.free
    let ln : QLane := { q := q, ins := some i, bad := none, addr := placedText + 4, pres := 0, stack := [], rcd := none,
                        inst := 0, faddr := placedText, idle := bits w 31 28, out := false }
    let f : Fetch := { Fetch.none with pc := placedText + 32, lanes := [ln], line := some placedText, stop := true, count := 1 }
    { setMem s 0 { m with ctl := { m.ctl with life := .running, gc := ln.idle, fetch := f } } with
      slotTable := tput Bind.reset s.slotTable 0 b
      dmem := setBytes s.dmem 0 (placedImage q ws)
      phase := .issue, agenda := [] }

end Sys2Proof.Machine
end

