-- ==== Sys2Proof/Safety.lean ====
section
/-! DEFINITION. What a safe run is: a step that neither stops nor refuses, and the form the state keeps. -/

namespace Sys2Proof.Machine

open Sys2Proof

/-- A step that answers a next state. -/
def Steps (s t : State) : Prop := step s = .next t

/-- The device memory of a state is in canonical form: addresses strictly rising, no entry equal to what an unlisted
address reads as. -/
def State.MemWf (s : State) : Prop := Memory.wf s.dmem

end Sys2Proof.Machine
end

