-- ==== Sys2Proof/Certificates/Slice0/Obligations.lean ====
section
/-! DEFINITION. The statements for the provers, with the conditions they are stated under. -/

namespace Sys2Proof.Claims

open Sys2Proof Sys2Proof.Machine

/-! ## Conditions on the state and the operands -/

/-- A chunk of device memory that a context reads and writes undisturbed: unmetered, not poisoned, no other access
to it on record, and stored under the key k or under none (R279, R280, R310, R313, R432). -/
def Undisturbed (s : State) (ctx k pa : Nat) : Prop :=
  windowOf pa = .dev ∧ (quotaOf s ctx).bsize = 0 ∧ tget false s.dbad (pa / 32) = false ∧ tget [] s.accs (pa / 32) = [] ∧
  (tget none s.dkey (pa / 32) = none ∨ tget none s.dkey (pa / 32) = some (keyOf s k))

/-- The lane l is the one at issue and its qualifier lets it act: at once, or under an open slot. -/
def Acts (s : State) (l : Lane) (h : Hd) (act : Act) : Prop :=
  curLane s = some l ∧ qualAct s l.who h = .ok act ∧ act ≠ .never

/-- No register of the sources or destinations is pending and the sources hold single values; s1 is the state
that the pop of a load data queue leaves, s itself where nothing is popped. -/
def Reads (s : State) (w : Who) (d : List SReg) (ops : List Opd) (vals : List Word) (s1 : State) : Prop :=
  needLanded s w (d ++ opdRegs ops) = .ok () ∧
  ∃ p, takePop s w ops = .ok (p, s1) ∧ readOpds s1 w p ops = .ok (vals.map plain)

/-- The write of a result of latency lat to s[d]: it lands at the end of cycle issue + lat - 1. -/
def sent (s : State) (l : Lane) (d : SReg) (v : Word) (lat : Nat) (act : Act) : SWrite :=
  { reg := d, res := plain v, lit := actLit act, out := [], due := cycleOf s l.who + lat - 1, q := l.q, seq := s.fresh,
    addr := l.ln.addr }

/-- The destination has a frame for every alternative that a result of any latency, landing among the writes already in
flight to it, leaves there (R157); a handler's destination holds one alternative (R159). -/
def Fits (s : State) (l : Lane) (d : SReg) (act : Act) : Prop :=
  match l.who with
  | .mem n => ∀ v lat, sBreadth (mem s n) (sent s l d v lat act) ≤ 4
  | .hnd n => d.val < 56 → (sCell (mem s n) d).alts.length ≤ 1
  | .lk _ => True

/-- The same for a value that lands after every write in flight (R26, R157). -/
def LateFits (s : State) (l : Lane) (d : SReg) (act : Act) : Prop :=
  match l.who with
  | .mem n => lateBreadth (mem s n) d (plain 0) (actLit act) ≤ 4
  | .hnd n => d.val < 56 → (sCell (mem s n) d).alts.length ≤ 1
  | .lk _ => True

/-- A state in which a result of latency lat is on its way to s[d]; a member has noted the breadth s[d] comes to. -/
def wrote (s : State) (l : Lane) (d : SReg) (v : Word) (lat : Nat) (act : Act) : State :=
  let x := sent s l d v lat act
  let s' := { s with fresh := s.fresh + 1 }
  if d = 0 then s'
  else match l.who with
    | .mem n => updMem s' n fun m => noteBreadth { m with fly := { m.fly with sw := m.fly.sw ++ [x] } } (sBreadth m x)
    | .hnd n => updMem s' n fun m => { m with ui := { m.ui with fly := m.ui.fly ++ [x] } }
    | .lk n => setLookup s' n { lookupCore s n with fly := (lookupCore s n).fly ++ [x] }

/-- The lane issued with occupancy 1 and its result of a latency on its way to s[d]. -/
def sends (s : State) (l : Lane) (d : SReg) (v : Word) (lat : Nat) (act : Act) : State := retire (wrote s l d v lat act) l 1

/-- The agent transfers control to a line with some loops active: later lanes of its lines are gone, and the
target's lines are present six cycles after the issue (R20, R136). -/
def jumped (s : State) (l : Lane) (target : Nat) (stack : List Level) : State :=
  let f := fetchOf s l.who
  retire (setFetch s l.who { f with
    lanes := f.lanes.filter (fun x => x.inst ≤ l.ln.inst), pc := target, pres := cycleOf s l.who + 6, stack := stack,
    rcd := l.ln.rcd, line := none, stop := false, needBlk := true, fmt := none, steps := stepsTo l.ln.rcd f.steps }) l 1

/-- An instruction of the wait class whose operands are single values and which acts or, its qualifier being false,
does not (R139, R153). -/
def Decided (s : State) (l : Lane) (h : Hd) (regs : List SReg) (act : Bool) : Prop :=
  curLane s = some l ∧ waitClass s l.who h regs = .ok act

/-- An instruction of the held class that acts at once, on single values, with nothing held before it (R159, R161). -/
def HeldNow (s : State) (l : Lane) (h : Hd) (dst regs : List SReg) (vals : List Word) : Prop :=
  curLane s = some l ∧ qualAct s l.who h = .ok .always ∧ needLanded s l.who (dst ++ regs) = .ok () ∧
  readRegs s l.who regs = .ok (vals.map plain) ∧
  (match l.who with | .lk _ => True | .mem n | .hnd n => (mem s n).grd.held = [])

/-- The instruction is captured in L's queues with its operand values, and its lane has issued. -/
def Captured (s : State) (l : Lane) (n : Nat) (i : Instr) (vals : List Word) (t : State) : Prop :=
  ∃ c : Cap, c.ins = i ∧ c.ss = vals.map (fun v => .now (plain v)) ∧ c.addr = l.ln.addr ∧
    c.seq = orderOf (mem s n) i ∧ c.tok = none ∧ t = retire (updMem s n fun m => pushL m c) l 1

/-- Vigil is not in force and does not stop a terminal fault (R427). -/
def Unwatched (s : State) : Prop := vigilActive s = false ∧ vigilArmed s 2 = false

/-! ## Integers -/

/-- The 64-bit value of an integer, wrapped (R129). -/
def int64 (x : Int) : Word := BitVec.ofInt 64 x

/-- The 64-bit value of a number, wrapped. -/
def nat64 (x : Nat) : Word := BitVec.ofNat 64 x

end Sys2Proof.Claims

open Sys2Proof Sys2Proof.Machine Sys2Proof.Claims

/-! ## Scalar instructions -/

/-- R130: the two-operand scalar instructions issue with occupancy 1 and send the result of the table to s[D] with the
table's latency, from single source values, in every agent, popped or not, under any qualifier that lets them act; the
shifts and rotates take their amount from b[5:0].

R131: the divisions, edge operands included; none of them faults.

R130: the bit counts clz, ctz and popc. -/
def Obligations.ScalarBinary : Prop :=
  (∀ (s s1 : State) (l : Lane) (h : Hd) (d a : SReg) (b : Src2) (x y : Word) (act : Act),
    Acts s l h act → Reads s l.who [d] [opA h a, opB b] [x, y] s1 → Fits s1 l d act →
    exec (.add h d a b) s = .next (sends s1 l d (int64 (x.toInt + y.toInt)) 1 act) ∧
    exec (.sub h d a b) s = .next (sends s1 l d (int64 (x.toInt - y.toInt)) 1 act) ∧
    exec (.mul h d a b) s = .next (sends s1 l d (int64 (x.toInt * y.toInt)) 3 act) ∧
    exec (.mulh h d a b) s = .next (sends s1 l d (int64 (x.toInt * y.toInt / 2 ^ 64)) 3 act) ∧
    exec (.mulhn h d a b) s = .next (sends s1 l d (nat64 (x.toNat * y.toNat / 2 ^ 64)) 3 act) ∧
    exec (.and_ h d a b) s = .next (sends s1 l d (x &&& y) 1 act) ∧
    exec (.or_ h d a b) s = .next (sends s1 l d (x ||| y) 1 act) ∧
    exec (.xor h d a b) s = .next (sends s1 l d (x ^^^ y) 1 act) ∧
    exec (.andn h d a b) s = .next (sends s1 l d (x &&& ~~~y) 1 act) ∧
    exec (.min h d a b) s = .next (sends s1 l d (if x.toInt < y.toInt then x else y) 1 act) ∧
    exec (.max h d a b) s = .next (sends s1 l d (if x.toInt < y.toInt then y else x) 1 act) ∧
    exec (.minn h d a b) s = .next (sends s1 l d (if x.toNat < y.toNat then x else y) 1 act) ∧
    exec (.maxn h d a b) s = .next (sends s1 l d (if x.toNat < y.toNat then y else x) 1 act) ∧
    exec (.div h d a b) s =
      .next (sends s1 l d (if y = 0 then int64 (-1) else int64 (x.toInt.tdiv y.toInt)) 18 act) ∧
    exec (.divn h d a b) s = .next (sends s1 l d (if y = 0 then int64 (-1) else nat64 (x.toNat / y.toNat)) 18 act) ∧
    exec (.rem h d a b) s = .next (sends s1 l d (if y = 0 then x else int64 (x.toInt.tmod y.toInt)) 18 act) ∧
    exec (.remn h d a b) s = .next (sends s1 l d (if y = 0 then x else nat64 (x.toNat % y.toNat)) 18 act)) ∧
  (∀ (s s1 : State) (l : Lane) (h : Hd) (d a : SReg) (b : Src2) (x y : Word) (act : Act),
    Acts s l h act → Reads s l.who [d] [opA h a, opB b] [x, y] s1 → Fits s1 l d act →
    let k := y.toNat % 64
    exec (.shl h d a b) s = .next (sends s1 l d (nat64 (x.toNat * 2 ^ k)) 1 act) ∧
    exec (.shr h d a b) s = .next (sends s1 l d (nat64 (x.toNat / 2 ^ k)) 1 act) ∧
    exec (.sra h d a b) s = .next (sends s1 l d (int64 (x.toInt / 2 ^ k)) 1 act) ∧
    exec (.rol h d a b) s = .next (sends s1 l d (nat64 (x.toNat * 2 ^ k + x.toNat / 2 ^ (64 - k))) 1 act)) ∧
  (∀ (s s1 : State) (l : Lane) (h : Hd) (d a : SReg) (x : Word) (act : Act),
    Acts s l h act → Reads s l.who [d] [opA h a] [x] s1 → Fits s1 l d act →
    exec (.clz h d a) s = .next (sends s1 l d (nat64 ((List.range 64).takeWhile fun i => !x.getLsbD (63 - i)).length) 1 act) ∧
    exec (.ctz h d a) s = .next (sends s1 l d (nat64 ((List.range 64).takeWhile fun i => !x.getLsbD i).length) 1 act) ∧
    exec (.popc h d a) s = .next (sends s1 l d (nat64 ((List.range 64).filter fun i => x.getLsbD i).length) 1 act))

/-- R45, R46, R76, R150, R268, R270, R381: what each special register reads as, by its number, in a member and its handler, and in
a lookup core. -/
def Sys2Proof.Claims.specials (s : State) (l : Lane) : List (Nat × Word) :=
  match l.who with
  | .mem n | .hnd n =>
    let m := mem s n
    let p := m.spr
    let one (b : Bool) (i : Nat) : Nat := if b then 2 ^ i else 0
    let loops := match l.who with | .hnd _ => headLoops m | _ => (l.ln.stack, l.ln.rcd)
    [(0x00, nat64 (one m.ui.active 15 + one p.uien 14 + p.rmode.toNat * 2 ^ 11 + one p.oflow 8 + one p.slip 7 + one p.uflow 6 +
        one p.coll 5 + one p.chkRaw 4)), (0x01, p.cause), (0x02, p.faultVa), (0x03, p.faultInfo), (0x04, loopState loops.1 loops.2),
      (0x08, nat64 s.cal), (0x09, nat64 (m.ctl.gc + m.ctl.gcBias)), (0x0c, nat64 (n / 16)), (0x0d, nat64 (n % 16)),
      (0x0e, nat64 (bindOf s n).origin.toNat), (0x0f, nat64 (bindOf s n).shape.toNat), (0x10, nat64 (p.rngKey.toNat % 2 ^ 32)),
      (0x11, nat64 (p.rngKey.toNat / 2 ^ 32)), (0x12, nat64 (p.rngCtr.toNat % 2 ^ 32)), (0x13, nat64 (p.rngCtr.toNat / 2 ^ 32 % 2 ^ 32)),
      (0x14, nat64 (p.rngCtr.toNat / 2 ^ 64 % 2 ^ 32)), (0x15, nat64 (p.rngCtr.toNat / 2 ^ 96)), (0x18, p.uiVector), (0x19, p.uiCause),
      (0x1c, nat64 (256 * ((List.range 8).map fun q => one (slotOpen m (Fin.ofNat 8 q)) q).sum + m.grd.breadth % 8)),
      (0x1d, nat64 m.grd.held.length), (0x20, nat64 p.perfSel.toNat), (0x21, nat64 p.traceCtl.toNat), (0x22, 64)]
  | .lk n =>
    let c := lookupCore s n
    [(0x08, nat64 s.cal), (0x09, nat64 c.cyc), (0x30, nat64 n), (0x31, nat64 (c.grl * 2 ^ 32 + c.il.length * 2 ^ 16 + c.ga.length))]

/-- R45, R130, R132 to R135, R264, R381: the other scalar instructions that compute s[D] in one cycle; `rdsr` of a number that names
no register its agent may read is ILLEGAL.
Rests on the model's choices of log 131, 132 and 136. -/
def Obligations.ScalarOther : Prop :=
  ∀ (s s1 : State) (l : Lane) (h : Hd) (d a b c : SReg) (x y z : Word) (act : Act),
    Acts s l h act →
    (Reads s l.who [d] [opA h a] [x] s1 → Fits s1 l d act →
      (∀ w : BitVec 33, 1 ≤ w.toNat → w.toNat ≤ 64 →
        exec (.sext h d a w) s = .next (sends s1 l d ((x.setWidth w.toNat).signExtend 64) 1 act) ∧
        exec (.zext h d a w) s = .next (sends s1 l d (nat64 (x.toNat % 2 ^ w.toNat)) 1 act)) ∧
      (∀ (p : BitVec 6) (n : BitVec 7), p.toNat + n.toNat ≤ 64 →
        exec (.bfx h d a p n) s = .next (sends s1 l d (nat64 (x.toNat / 2 ^ p.toNat % 2 ^ n.toNat)) 1 act)) ∧
      exec (.mov h d a) s = .next (sends s1 l d x 1 act)) ∧
    (Reads s l.who [d] [.r d, opA h a] [y, x] s1 → Fits s1 l d act →
      ∀ (p : BitVec 6) (n : BitVec 7),
        let mask : Word := nat64 (2 ^ n.toNat - 1) <<< p.toNat
        exec (.bfi h d a p n) s = .next (sends s1 l d ((y &&& ~~~mask) ||| (x <<< p.toNat &&& mask)) 1 act)) ∧
    (Reads s l.who [d] [opA h a, .r b] [x, y] s1 → Fits s1 l d act →
      exec (.cmp h d a b 0) s = .next (sends s1 l d (if x = y then 1 else 0) 1 act) ∧
      exec (.cmp h d a b 1) s = .next (sends s1 l d (if x ≠ y then 1 else 0) 1 act) ∧
      exec (.cmp h d a b 2) s = .next (sends s1 l d (if x.toInt < y.toInt then 1 else 0) 1 act) ∧
      exec (.cmp h d a b 3) s = .next (sends s1 l d (if y.toInt ≤ x.toInt then 1 else 0) 1 act) ∧
      exec (.cmp h d a b 4) s = .next (sends s1 l d (if x.toNat < y.toNat then 1 else 0) 1 act) ∧
      exec (.cmp h d a b 5) s = .next (sends s1 l d (if y.toNat ≤ x.toNat then 1 else 0) 1 act) ∧
      ∀ p : BitVec 6, exec (.lea h d a b p) s = .next (sends s1 l d (nat64 (x.toNat + y.toNat * 2 ^ p.toNat)) 1 act)) ∧
    (Reads s l.who [d] [opA h a, .r b, .r c] [x, y, z] s1 → Fits s1 l d act →
      exec (.sel h d a b c) s = .next (sends s1 l d (if z ≠ 0 then x else y) 1 act)) ∧
    (Reads s l.who [d] [.r d] [x] s1 → Fits s1 l d act →
      ∀ imm : BitVec 32, exec (.lih h d imm) s = .next (sends s1 l d (nat64 (imm.toNat * 2 ^ 32 + x.toNat % 2 ^ 32)) 1 act)) ∧
    (needLanded s l.who [d] = .ok () → Fits s l d act →
      (∀ imm : BitVec 39, exec (.li h d imm) s = .next (sends s l d (int64 imm.toInt) 1 act)) ∧
      (∀ row col : BitVec 4, exec (.crd h d row col) s =
        .next (sends s l d (nat64 (dieOf (16 * row.toNat + col.toNat) * 2 ^ 16 + row.toNat * 2 ^ 8 + col.toNat)) 1 act)) ∧
      (∀ (sn : BitVec 8) (v : Word), (sn.toNat, v) ∈ specials s l → exec (.rdsr h d sn) s = .next (sends s l d v 1 act)) ∧
      (∀ f : FlagRef, f.fk = 0 →
        exec (.fread h f d) s =
          .next (sends s l d ((flagVal s (.own (whoSite s l.who) f.fn.toNat)).setWidth 64) 1 act))) ∧
    (∀ sn : BitVec 8, (∀ v, (sn.toNat, v) ∉ specials s l) → exec (.rdsr h d sn) s = .next (laneFault s l (trapOf .illegal)))

/-- R153: a scalar instruction whose qualifier is against it writes nothing and issues with occupancy 1; a pop it
names is made all the same.

R154, R155: with sources of several alternatives, the result has one alternative for each pairing that no slot
forbids, in the order of the operands, and its guard is the conjunction of theirs. -/
def Obligations.ScalarUnderGuards : Prop :=
  (∀ (s s1 : State) (l : Lane) (h : Hd) (d a : SReg) (b : Src2) (p : Alts Word),
    curLane s = some l → qualAct s l.who h = .ok .never →
    needLanded s l.who (d :: opdRegs [opA h a, opB b]) = .ok () → takePop s l.who [opA h a, opB b] = .ok (p, s1) →
    ∀ i ∈ [Instr.add h d a b, .sub h d a b, .mul h d a b, .mulh h d a b, .mulhn h d a b, .div h d a b, .divn h d a b,
           .rem h d a b, .remn h d a b, .and_ h d a b, .or_ h d a b, .xor h d a b, .andn h d a b, .shl h d a b,
           .shr h d a b, .sra h d a b, .rol h d a b, .min h d a b, .max h d a b, .minn h d a b, .maxn h d a b],
      exec i s = .next (retire s1 l 1)) ∧
  (∀ (s s' s1 : State) (l : Lane) (h : Hd) (d a : SReg) (b : Src2) (p x y : Alts Word) (act : Act),
    Acts s l h act → needLanded s l.who (d :: opdRegs [opA h a, opB b]) = .ok () →
    takePop s l.who [opA h a, opB b] = .ok (p, s1) → readOpds s1 l.who p [opA h a, opB b] = .ok [x, y] →
    (∀ u ∈ x, compatible 0 u.1 = true) →
    writeS s1 l d (x.flatMap fun u => y.filterMap fun v =>
      if compatible u.1 v.1 then some (u.1 ||| v.1, match u.2, v.2 with
        | .poison c _ e, _ => .poison c false e
        | .val _, .poison c _ e => .poison c false e
        | .val m, .val n => .val (int64 (m.toInt + n.toInt))) else none) 1 (actLit act) = .ok s' →
    exec (.add h d a b) s = .next (retire s' l 1))

/-! ## Control -/

/-- R137, R139: transfers, taken and not taken, and a `call`'s return address. -/
def Obligations.Transfers : Prop :=
  ∀ (s : State) (l : Lane) (h : Hd) (a : SReg),
    (∀ (z : Bool) (off : BitVec 39) (v : Word),
      Decided s l h [a] true → readOne s l.who a = .ok v → inExtent l.ln (offTarget l.ln off.toInt) = true →
      exec (.br h z a off) s =
        .next (if (v = 0 ↔ z = true) then jumped s l (offTarget l.ln off.toInt) l.ln.stack else retire s l 1)) ∧
    (∀ off : BitVec 46, Decided s l h [] true → inExtent l.ln (offTarget l.ln off.toInt) = true →
      exec (.jmp h off) s = .next (jumped s l (offTarget l.ln off.toInt) l.ln.stack)) ∧
    (∀ v : Word, Decided s l h [a] true → readOne s l.who a = .ok v → v.toNat % 32 = 0 →
      (textOf s (imgOf s l.who)).1 ≤ v.toNat → v.toNat < (textOf s (imgOf s l.who)).2 → inExtent l.ln v.toNat = true →
      exec (.jmpi h a) s = .next (jumped s l v.toNat l.ln.stack) ∧
      exec (.ret h a) s = .next (jumped s l v.toNat l.ln.stack)) ∧
    (∀ (off : BitVec 39), Decided s l h [] true → needLanded s l.who [a] = .ok () → Fits s l a .always →
      inExtent l.ln (offTarget l.ln off.toInt) = true →
      exec (.call h a off) s =
        .next (jumped (wrote s l a (nat64 (lineOf l.ln + 32)) 1 .always) l (offTarget l.ln off.toInt) l.ln.stack))

/-- R139: a transfer whose qualifier is false is not taken, and `call` then writes nothing.

R137, R149: a register's target that is misaligned, outside TEXT, or outside the extent of the running record's phase, and
a displacement's target outside that extent, raise ILLEGAL at the transfer's issue where it is taken. -/
def Obligations.TransfersNotTakenOrTrapping : Prop :=
  (∀ (s : State) (l : Lane) (h : Hd) (a : SReg) (z : Bool) (o : BitVec 39) (p : BitVec 46),
    (Decided s l h [a] false → ∀ i ∈ [Instr.br h z a o, .jmpi h a, .ret h a], exec i s = .next (retire s l 1)) ∧
    (Decided s l h [] false → exec (.jmp h p) s = .next (retire s l 1) ∧
      (needLanded s l.who [a] = .ok () → exec (.call h a o) s = .next (retire s l 1)))) ∧
  (∀ (s : State) (l : Lane) (h : Hd) (a : SReg) (v : Word),
    Decided s l h [a] true → readOne s l.who a = .ok v →
    (v.toNat % 32 ≠ 0 ∨ v.toNat < (textOf s (imgOf s l.who)).1 ∨ (textOf s (imgOf s l.who)).2 ≤ v.toNat ∨
      inExtent l.ln v.toNat = false) →
    exec (.jmpi h a) s = .next (laneFault s l (trapOf .illegal)) ∧
    exec (.ret h a) s = .next (laneFault s l (trapOf .illegal))) ∧
  (∀ (s : State) (l : Lane) (h : Hd) (a : SReg) (z : Bool) (o : BitVec 39) (p : BitVec 46) (v : Word),
    (Decided s l h [a] true → readOne s l.who a = .ok v → (v = 0 ↔ z = true) → inExtent l.ln (offTarget l.ln o.toInt) = false →
      exec (.br h z a o) s = .next (laneFault s l (trapOf .illegal))) ∧
    (Decided s l h [] true → inExtent l.ln (offTarget l.ln p.toInt) = false →
      exec (.jmp h p) s = .next (laneFault s l (trapOf .illegal))) ∧
    (Decided s l h [] true → needLanded s l.who [a] = .ok () → Fits s l a .always → inExtent l.ln (offTarget l.ln o.toInt) = false →
      exec (.call h a o) s = .next (laneFault s l (trapOf .illegal))))

/-- R140, R141, R143: a loop of local trip count zero is a transfer past its body; another becomes active with its
first iteration index, and fetch falls through into the body.

R143: the members of a gang share the iterations 0 to T - 1 of a `loopc` at top level: member m of G runs as many
as there are i below T with i mod G = m, from m on in steps of G. -/
def Obligations.Loops : Prop :=
  (∀ (s : State) (l : Lane) (h : Hd) (lc : Fin 8) (len : BitVec 10),
    (∀ (trip : Trip) (T : Nat), Decided s l h (tripRegs trip) true → tripOf s l.who trip = .ok T →
      bodyInside l.ln (len.toNat + 1) = true → inExtent l.ln (lineOf l.ln + 32 * (len.toNat + 2)) = true →
      (levelRules s l lc 0 = true →
        exec (.loop h lc trip len) s = .next (
          if T = 0 then jumped s l (lineOf l.ln + 32 * (len.toNat + 2)) l.ln.stack
          else retire (setFetch s l.who (activate (fetchOf s l.who) l.ln lc 0 0 1 (T - 1))) l 1)) ∧
      (∀ n i g, levelRules s l lc 1 = true → spread s (whoSite s l.who) 1 (kindActive l.ln 2) T = (n, i, g) →
        exec (.loopc h lc trip len) s = .next (
          if n = 0 then jumped s l (lineOf l.ln + 32 * (len.toNat + 2)) l.ln.stack
          else retire (setFetch s l.who (activate (fetchOf s l.who) l.ln lc 1 i g (n - 1))) l 1)) ∧
      (∀ n i g, levelRules s l lc 2 = true → spread s (whoSite s l.who) 2 (kindActive l.ln 2) T = (n, i, g) →
        exec (.loopd h lc trip len) s = .next (
          if n = 0 then jumped s l (lineOf l.ln + 32 * (len.toNat + 2)) l.ln.stack
          else retire (setFetch s l.who (activate (fetchOf s l.who) l.ln lc 2 i g (n - 1))) l 1))) ∧
    (∀ (as : AReg) (n T : Nat) (m : Member), l.who = .mem n → Decided s l h [] true → rowTrip (mem s n) as = .ok (T, m) →
      levelRules s l lc 0 = true → bodyInside l.ln (len.toNat + 1) = true →
      inExtent l.ln (lineOf l.ln + 32 * (len.toNat + 2)) = true →
      exec (.loopn h lc as len) s = .next (
        if T = 0 then jumped (setMem s n m) l (lineOf l.ln + 32 * (len.toNat + 2)) l.ln.stack
        else retire (setFetch (setMem s n m) l.who (activate (fetchOf (setMem s n m) l.who) l.ln lc 0 0 1 (T - 1))) l 1))) ∧
  (∀ (s : State) (n m G T : Nat), (gangOf s n).length = G → rankIn n (gangOf s n) = m → m < G →
    spread s n 1 false T = (((List.range T).filter fun i => i % G = m).length, m, G))

/-- R145: `lbrk` ends its level and every level activated after it, and transfers past the level's body; with a zero
register, or with its qualifier against it, it has no effect on a level that is active, be it a hardware loop's or the
running record's; on an inactive level it raises ILLEGAL, as it does in a handler (R273), and where it would leave the
extent of the running record (R149). A break of the running record's level is ILLEGAL by the model's choice, and so is
the 0 that `stg` sends while a SAVE or RESTORE block runs.
Rests on the model's choices of log 154 and 135. -/
def Obligations.LoopBreak : Prop :=
  ∀ (s : State) (l : Lane) (h : Hd) (lc : Fin 8) (a : SReg) (v : Word) (x : Level),
    ((∀ n, l.who ≠ .hnd n) → Decided s l h [a] true → readOne s l.who a = .ok v →
      (l.ln.stack.find? (fun y => y.lc == lc) = some x → inExtent l.ln (x.last + 32) = true →
        exec (.lbrk h lc a) s = .next (
          if v = 0 then retire s l 1
          else jumped s l (x.last + 32) ((l.ln.stack.dropWhile fun y => y.lc != lc).drop 1))) ∧
      (l.ln.stack.find? (fun y => y.lc == lc) = some x → levelActive l.ln lc = true → inExtent l.ln (x.last + 32) = false → v ≠ 0 →
        exec (.lbrk h lc a) s = .next (laneFault s l (trapOf .illegal))) ∧
      (levelActive l.ln lc = true → v = 0 → exec (.lbrk h lc a) s = .next (retire s l 1)) ∧
      (levelActive l.ln lc = true → v ≠ 0 → l.ln.stack.find? (fun y => y.lc == lc) = none →
        exec (.lbrk h lc a) s = .next (laneFault s l (trapOf .illegal))) ∧
      (levelActive l.ln lc = false → exec (.lbrk h lc a) s = .next (laneFault s l (trapOf .illegal)))) ∧
    ((∀ n, l.who ≠ .hnd n) → Decided s l h [a] false → levelActive l.ln lc = true →
      exec (.lbrk h lc a) s = .next (retire s l 1)) ∧
    (curLane s = some l → (∃ n, l.who = .hnd n) → exec (.lbrk h lc a) s = .next (laneFault s l (trapOf .illegal))) ∧
    (∀ (r : RecRun) (act : Act) (d : SReg) (st : Fin 8), laneRcd s l = some r → r.phase = .save ∨ r.phase = .restore →
      Acts s l h act → needLanded s l.who [d] = .ok () → Fits s l d act →
      exec (.stg h d st) s = .next (sends s l d 0 1 act))

/-- R148: `stg` sends 1 to s[D] where the stage predicate of the running record is true, as R147 gives it, and 0
otherwise, with latency 1, in a lane of the record as in a handler entered while it runs; outside a running record it
raises ILLEGAL. -/
def Obligations.StagePredicates : Prop :=
  ∀ (s : State) (l : Lane) (h : Hd) (d : SReg) (st : Fin 8),
    (∀ (r : RecRun) (act : Act), laneRcd s l = some r → r.phase ≠ .save → r.phase ≠ .restore → Acts s l h act →
      needLanded s l.who [d] = .ok () → Fits s l d act →
      exec (.stg h d st) s = .next (sends s l d
        (if r.phase = .ker ∧ st.val < r.stages ∧ st.val ≤ r.j ∧ r.j < r.n + st.val then 1 else 0) 1 act)) ∧
    (curLane s = some l → laneRcd s l = none → exec (.stg h d st) s = .next (laneFault s l (trapOf .illegal)))

/-- R146: `lrec` of a member that no graph times starts its record at the prologue, with the member's trip count
and no kernel iteration begun; with a local trip count of zero it is a transfer to the line after its own. -/
def Obligations.RecordStarts : Prop :=
  ∀ (s s' : State) (l : Lane) (n : Nat) (h : Hd) (id : BitVec 16) (a T k i g : Nat),
    l.who = .mem n → recordAt s (imgOf s l.who) id.toNat = some a → Decided s l h (recordTrip s a) true →
    l.ln.rcd = none → numAt s.dmem (a + 48) 2 < 8 →
    levelRules s l (Fin.ofNat 8 (numAt s.dmem (a + 48) 2)) ((levelKind s (imgOf s l.who) (numAt s.dmem (a + 48) 2)).getD 3) = true →
    readTrip' s n a l.who = .ok (T, s') → stageOf s n id.toNat = none →
    spread s' n ((levelKind s (imgOf s l.who) (numAt s.dmem (a + 48) 2)).getD 3) (kindActive l.ln 2) T = (k, i, g) →
    (k = 0 → exec (.lrec h id) s = .next (jumped s' l (lineOf l.ln + 32) l.ln.stack)) ∧
    (k ≠ 0 → ∃ t r, exec (.lrec h id) s = .next t ∧ (mem t n).ctl.fetch.rcd = some r ∧ r.phase = .pro ∧ r.j = 0 ∧
      r.n = k ∧ r.ret = lineOf l.ln + 32 ∧ (mem t n).ctl.fetch.pc = r.pro.1 ∧
      (mem t n).ctl.fetch.pres = (mem s' n).ctl.gc + 6 ∧ t.dmem = s'.dmem)

/-- R243, R244, R264: `nop` does nothing; `align` issues now and holds its agent until the least multiple of 2^n
greater than the tick; `idle n` occupies C for n cycles; its column forms raise that column's reference point.
Rests on the model's choices of log 7. -/
def Obligations.Timing : Prop :=
  ∀ (s : State) (l : Lane) (h : Hd), curLane s = some l → inert s l.who h = .ok () →
    exec (.nop h) s = .next (retire s l 1) ∧
    (∀ n1 : BitVec 20, exec (.idle h n1) s = .next (retire s l (n1.toNat + 1))) ∧
    (∀ n : BitVec 6, ∃ (t : State) (T : Nat), exec (.align h n) s = .next t ∧ s.cal < T ∧ T % 2 ^ n.toNat = 0 ∧
      (∀ T', s.cal < T' → T' % 2 ^ n.toNat = 0 → T ≤ T') ∧
      (match l.who with
        | .mem k => (mem t k).ctl.alignTo
        | .hnd k => (mem t k).ui.alignTo
        | .lk k => (lookupCore t k).alignTo) = some T) ∧
    (∀ (n1 : BitVec 20) (col : BitVec 2) (k : Nat), l.who = .mem k ∨ l.who = .hnd k → ∃ t, exec (.idleColumn h n1 col) s = .next t ∧
      (mem t k).ctl.raised = (mem s k).ctl.raised ++ [(1 + col.toNat, (mem s k).ctl.gc + n1.toNat + 1, lanePos l.ln)] ∧
      (mem t k).regs = (mem s k).regs)

/-! ## Flags and barriers -/

/-- R382, R463: a lookup core's flag update sets out for the flag's home at its issue, behind those before it.

R42, R240: there the flag takes the sum, the value, or the difference; a post past the greatest value leaves that value
and OFLOW, a decrement past zero leaves zero and UFLOW, and either ends the program with its fault.
Rests on the model's choice of log 30. -/
def Obligations.FlagUpdatesOfLookup : Prop :=
  (∀ (s : State) (l : Lane) (k : Nat) (h : Hd) (f : FlagRef) (sc : BitVec 2) (v : FlagVal) (vals : List Word),
    curLane s = some l → l.who = .lk k → h.gq = false → h.qp = false → f.fk.toNat ≤ 1 →
    needLanded s l.who (valRegs v) = .ok () → readRegs s l.who (valRegs v) = .ok (vals.map plain) →
    let c := lookupCore s k
    ∀ i ∈ [Instr.fpost h f sc v, .fset h f sc v, .fdec h f sc v],
      exec i s = .next (retire (setLookup s k { c with posts := c.posts ++
        [{ ins := i, key := flagKey (whoSite s l.who) f, val := valOfField v vals, clk := clockOf s (lookupAgent k) }] }) l 1)) ∧
  (∀ (s : State) (k : Nat) (p : LkPost) (rest : List LkPost) (h : Hd) (f : FlagRef) (sc : BitVec 2) (v : FlagVal),
    (lookupCore s k).posts = p :: rest → (sc ≠ 3 ∨ s.outs = []) →
    let old := flagVal s p.key
    let does (y : Word32) (P : State → Prop) : Prop := ∃ t, exec (.flagUpdatePerform (256 + k)) s = .next t ∧ flagVal t p.key = y ∧
      (lookupCore t k).posts = rest ∧ t.dmem = s.dmem ∧ (mem t (lookupCore s k).site).regs = (mem s (lookupCore s k).site).regs ∧ P t
    let runs (t : State) : Prop := (lookupCore t k).run = (lookupCore s k).run ∧ (lookupCore t k).ended = (lookupCore s k).ended
    let ends (code : BitVec 8) (t : State) : Prop := (lookupCore s k).ended = none →
      (lookupCore t k).run = false ∧ (lookupCore t k).ended = some code
    (p.ins = .fset h f sc v → does p.val runs) ∧
    (p.ins = .fpost h f sc v → old.toNat + p.val.toNat < 2 ^ 32 → does (old + p.val) runs) ∧
    (p.ins = .fdec h f sc v → p.val.toNat ≤ old.toNat → does (old - p.val) runs) ∧
    (p.ins = .fpost h f sc v → 2 ^ 32 ≤ old.toNat + p.val.toNat →
      does 0xffffffff fun t => (mem t (lookupCore s k).site).spr.oflow = true ∧ ends 0x08 t) ∧
    (p.ins = .fdec h f sc v → old.toNat < p.val.toNat →
      does 0 fun t => (mem t (lookupCore s k).site).spr.uflow = true ∧ ends 0x07 t))

/-- R139, R241: `fwait` goes on once the flag is at least its target, or was so at the flag's home, and acquires;
until then its agent waits; with its qualifier false it does nothing.

R242: `barw` goes on once the barrier's phase is not the one it names or its status is not 0, and writes the
status; until then its member waits. -/
def Obligations.FlagAndBarrierWaits : Prop :=
  (∀ (s : State) (l : Lane) (h : Hd) (f : FlagRef) (sc : BitVec 2) (v : FlagVal) (vals : List Word),
    (match l.who with | .hnd _ => False | .lk _ => f.fk.toNat ≤ 1 | .mem _ => True) →
    (Decided s l h (valRegs v) false → exec (.fwait h f sc v) s = .next (retire s l 1)) ∧
    (Decided s l h (valRegs v) true → readRegs s l.who (valRegs v) = .ok (vals.map plain) →
      flagReach s (whoSite s l.who) (flagKey (whoSite s l.who) f) = true →
      let key := flagKey (whoSite s l.who) f
      let x := (valOfField v vals).toNat
      (x ≤ (flagVal s key).toNat ∨ waitMet s l.who ≠ none →
        exec (.fwait h f sc v) s = .next (retire (clearMet (acquire s l.who key) l.who key) l 1)) ∧
      ((flagVal s key).toNat < x → waitMet s l.who = none →
        exec (.fwait h f sc v) s = .next (waitOn s l.who (.flagWait key x))))) ∧
  (∀ (s : State) (l : Lane) (n : Nat) (h : Hd) (o : BitVec 12) (a : SReg) (v : Word),
    l.who = .mem n → o.toNat % 2 = 0 →
    (Decided s l h [a] false → exec (.barw h o a) s = .next (retire s l 1)) ∧
    (Decided s l h [a] true → readOne s l.who a = .ok v → (mem s n).ctl.met = none → Fits s l a .always →
      let w := (flagVal s (.dev (o.toNat + 1))).toNat
      (w % 2 ^ 30 ≠ v.toNat % 2 ^ 30 ∨ w / 2 ^ 30 ≠ 0 →
        ∃ t x, exec (.barw h o a) s = .next t ∧ t.dmem = s.dmem ∧ x.reg = a ∧ x.res = plain (nat64 (w / 2 ^ 30)) ∧
          x.due = (mem s n).ctl.gc ∧ (mem t n).fly.sw = (mem s n).fly.sw ++ if a = 0 then [] else [x]) ∧
      (w % 2 ^ 30 = v.toNat % 2 ^ 30 → w / 2 ^ 30 = 0 →
        exec (.barw h o a) s = .next (waitOn s l.who (.barWait o.toNat (v.toNat % 2 ^ 30))))))

/-- R159, R222, R239: a flag update of a member or handler that acts at once enters both of L's queues; `barj` too,
with its destination pending.

R237, R240: `fread` of a device or peer flag leaves its destination pending on the flag's value; `farm` arms or
disarms an own flag and changes no value. -/
def Obligations.FlagInstructions : Prop :=
  (∀ (s : State) (l : Lane) (n : Nat) (h : Hd) (f : FlagRef) (sc : BitVec 2) (v : FlagVal) (o : BitVec 12) (d : SReg)
    (vals : List Word),
    l.who = .mem n ∨ l.who = .hnd n → (mem s n).l.lq.length < 32 → (mem s n).l.sq.length < 32 →
    (HeldNow s l h [] (valRegs v) vals →
      ∀ i ∈ [Instr.fpost h f sc v, .fset h f sc v, .fdec h f sc v], ∃ t, exec i s = .next t ∧ Captured s l n i vals t) ∧
    (HeldNow s l h [d] [] [] → o.toNat % 2 = 0 → LateFits s l d .always →
      ∃ c : Cap, c.ins = .barj h o d ∧ c.seq = orderOf (mem s n) c.ins ∧ c.tok = some s.fresh ∧
        exec (.barj h o d) s = .next (retire
          (markS { updMem s n (fun m => pushL m c) with fresh := s.fresh + 1 } l.who d s.fresh) l 1))) ∧
  (∀ (s : State) (l : Lane) (h : Hd) (f : FlagRef) (d : SReg) (sc : BitVec 2) (v : FlagVal),
    (∀ act : Act, Acts s l h act → f.fk ≠ 0 → (∀ k, l.who = .lk k → f.fk = 1) → needLanded s l.who [d] = .ok () →
      flagReach s (whoSite s l.who) (flagKey (whoSite s l.who) f) = true → LateFits s l d act →
      exec (.fread h f d) s =
        .next (retire (schedule s l d 0 (.flag (flagKey (whoSite s l.who) f)) (actLit act)) l 1)) ∧
    (∀ (n : Nat) (vals : List Word), l.who = .mem n ∨ l.who = .hnd n → HeldNow s l h [] (valRegs v) vals →
      ∃ t, exec (.farm h f sc v) s = .next t ∧ t.dmem = s.dmem ∧ (mem t n).regs = (mem s n).regs ∧
        (∀ k, flagVal t k = flagVal s k) ∧
        (∀ j, tget false (mem t n).buf.armed j =
          if j = f.fn.toNat then decide (valOfField v vals ≠ 0) else tget false (mem s n).buf.armed j)))

/-! ## Guard slots -/

namespace Sys2Proof.Claims

open Sys2Proof Sys2Proof.Machine

/-- A guard mask holds under an assignment of outcomes to the slots (R36). -/
def holdsUnder (σ : QSlot → Bool) (g : BitVec 16) : Bool :=
  (List.finRange 8).all fun q => litAt g q == 0 || litAt g q == (if σ q then 1 else 2)

/-- What a register holds under an assignment: the alternatives whose guards it meets (R37). -/
def under {α : Type} (σ : QSlot → Bool) (a : Alts α) : List (AV α) := (a.filter fun x => holdsUnder σ x.1).map Prod.snd

/-- The partition invariant of R37: under every assignment of the slots there is one alternative; and no guard mask holds
the code 0b11 (R36). -/
def Partition {α : Type} (a : Alts α) : Prop :=
  (∀ x ∈ a, ∀ q, litAt x.1 q ≠ 3) ∧ ∀ σ : QSlot → Bool, (under σ a).length = 1

end Sys2Proof.Claims

/-- R36, R37, R48, R154 to R156, R158: every way in which a register takes new alternatives keeps the partition invariant and gives
each assignment of the slots the value the rule gives it. The results of two sources are those of their pairs; what lands under a
literal is, frame by frame, the list of R155: the results where the literal holds and what the register held where it does not, and so
too where its slot has resolved in the meantime; a resolution keeps, for the outcome that came, what there was. -/
def Obligations.AlternativesPartition : Prop :=
  ∀ (α : Type) (a b : Alts α) (q : QSlot) (o : Bool), Partition a → Partition b →
    (∀ (f : α → α → α), Partition (pairWith f a b) ∧ ∀ σ x y, under σ a = [.val x] → under σ b = [.val y] →
      under σ (pairWith f a b) = [.val (f x y)]) ∧
    landAlts a b none [] = b ∧
    (let yes : BitVec 16 := BitVec.ofNat 16 ((if o then 1 else 2) * 4 ^ q.val)
     let no : BitVec 16 := BitVec.ofNat 16 ((if o then 2 else 1) * 4 ^ q.val)
     landAlts a b (some (q, o)) [] = a.flatMap fun d =>
      (if compatible d.1 no then [(d.1 ||| no, d.2)] else []) ++
      if compatible d.1 yes then (b.filter fun r => compatible (d.1 ||| yes) r.1).map fun r => (d.1 ||| yes ||| r.1, r.2) else []) ∧
    (Partition (landAlts a b (some (q, o)) []) ∧ ∀ σ, under σ (landAlts a b (some (q, o)) []) = if σ q = o then under σ b else under σ a) ∧
    (Partition (resolveAlts q o a) ∧ (∀ x ∈ resolveAlts q o a, litAt x.1 q = 0) ∧ ∀ σ, σ q = o → under σ (resolveAlts q o a) = under σ a) ∧
    ∀ p : Bool, (∀ x ∈ a, litAt x.1 q = 0) → Partition (landAlts a b (some (q, o)) [(q, p)]) ∧
      ∀ σ x, σ q = p → (if p = o then under σ b else under σ a) = [.val x] → under σ (landAlts a b (some (q, o)) [(q, p)]) = [.val x]

/-- R151, R166 to R169: `qopen` opens a slot on a register as it stands, pending or not, or for the program; `qopenf`
opens one on a flag, resolved true at once where its target is 0; `qres` resolves a slot of the program; `qwait` goes
on where its slot is free and waits where it is open. Opening an open slot is GUARD_REOPEN; `qres` of a slot that is
free or has a source is ILLEGAL; so is a qualifier on any of them, and a flag that the encoding does not allow.

R166, R170, R171: `qpick` sends the first alternative its guard mask does not contradict, as the only one, with latency
1 to an s register and 4 to every slice of a v register; `qstat` sends the guard masks of its source's frames, pending
or not, in 16 bits each to an s register, to the first four columns of row 0 of a v register, whose other cells become
0. A qualifier, or a mask with a contradiction, is ILLEGAL.

Each of `qopen`, `qopenf`, `qres`, `qwait`, `qpick` and `qstat` completes: it answers the next state that its clause gives. -/
def Obligations.GuardInstructions : Prop :=
  (∀ (s : State) (l : Lane) (n : Nat) (h : Hd) (q : QSlot) (a : SReg),
    curLane s = some l → l.who = .mem n →
    (h.gq = true → ∀ fk fn, ∀ i ∈ [Instr.qopen h q a, .qopenf h q a fk fn, .qres h q a, .qwait h q],
      exec i s = .next (laneFault s l (trapOf .illegal))) ∧
    (h.gq = false → ∀ (fk : BitVec 2) (fn : BitVec 12), 1 < fk.toNat ∨ (fk = 0 ∧ 1024 ≤ fn.toNat) →
      exec (.qopenf h q a fk fn) s = .next (laneFault s l (trapOf .illegal))) ∧
    (h.gq = false → slotOpen (mem s n) q = false →
      ((∃ x, readS s l.who a = .ok x) → ∃ t, exec (.qopen h q a) s = .next t ∧ (mem t n).regs = (mem s n).regs ∧
        (slotOf (mem t n) q).kept = (slotOf (mem s n) q).kept ∧ (slotOf (mem t n) q).due = none ∧
        (slotOf (mem t n) q).src = some (if a = 0 then .prog else
          match (sCell (mem s n) a).pend with
          | some k => .reg (.tok k)
          | none => .reg (.now (sCell (mem s n) a).alts))) ∧
      (∀ (fk : BitVec 2) (fn : BitVec 12) (v : Word), fk.toNat ≤ 1 → (fk = 0 → fn.toNat < 1024) →
        readOne s l.who a = .ok v →
        ∃ t, exec (.qopenf h q a fk fn) s = .next t ∧
          (slotOf (mem t n) q).src = some (.flag (fk == 1) fn.toNat (v.setWidth 32)) ∧
          (slotOf (mem t n) q).due = if v.setWidth 32 = (0 : Word32) then some true else none) ∧
      exec (.qwait h q) s = .next (retire s l 1)) ∧
    (h.gq = false → slotOpen (mem s n) q = true →
      ((∃ x, readS s l.who a = .ok x) → exec (.qopen h q a) s = .next (laneFault s l (trapOf .guardReopen))) ∧
      (∀ (fk : BitVec 2) (fn : BitVec 12) (v : Word), fk.toNat ≤ 1 → (fk = 0 → fn.toNat < 1024) → readOne s l.who a = .ok v →
        exec (.qopenf h q a fk fn) s = .next (laneFault s l (trapOf .guardReopen))) ∧
      exec (.qwait h q) s = .next (waitOn s l.who (.slotOpen q))) ∧
    (h.gq = false → (slotOf (mem s n) q).src = some .prog → ∀ v : Word, readOne s l.who a = .ok v →
      ∃ t, exec (.qres h q a) s = .next t ∧ (slotOf (mem t n) q).due = some (decide (v ≠ 0)) ∧
        (slotOf (mem t n) q).src = some .prog) ∧
    ((slotOf (mem s n) q).src ≠ some .prog → exec (.qres h q a) s = .next (laneFault s l (trapOf .illegal)))) ∧
  (∀ (s : State) (l : Lane) (n : Nat) (h : Hd) (d a : SReg) (gm : BitVec 16),
    curLane s = some l → l.who = .mem n →
    (h.gq = true ∨ maskOk gm = false → ∀ vr, exec (.qpick h vr d a gm) s = .next (laneFault s l (trapOf .illegal))) ∧
    (h.gq = true → ∀ vr, exec (.qstat h vr d a) s = .next (laneFault s l (trapOf .illegal))) ∧
    (h.gq = false → (mem s n).spr.chkRaw = false →
    (maskOk gm = true → ∀ (g : BitVec 16) (v : Word), Fits s l d .always → needLanded s l.who [a, d] = .ok () →
      (sCell (mem s n) a).alts.find? (fun x => compatible x.1 gm) = some (g, .val v) →
      ∃ t x, exec (.qpick h false d a gm) s = .next t ∧ x.reg = d ∧ x.res = plain v ∧ x.lit = none ∧
        x.due = (mem s n).ctl.gc ∧ (mem t n).fly.sw = (mem s n).fly.sw ++ if d = 0 then [] else [x]) ∧
    (needLanded s l.who [d] = .ok () → Fits s l d .always →
      ∃ t x w, exec (.qstat h false d a) s = .next t ∧ x.reg = d ∧ x.res = plain w ∧ x.due = (mem s n).ctl.gc ∧
        (mem t n).fly.sw = (mem s n).fly.sw ++ (if d = 0 then [] else [x]) ∧
        (∀ i, i < 4 → w.toNat / 2 ^ (16 * i) % 2 ^ 16 = frameMask (sCell (mem s n) a).alts i)) ∧
    (maskOk gm = true → ∀ e b : VReg, needV (mem s n) [b, e] = .ok () →
      ∃ t, exec (.qpick h true (Fin.ofNat 64 e.val) (Fin.ofNat 64 b.val) gm) s = .next t ∧ (mem t n).regs = (mem s n).regs ∧
        (mem t n).fly.slw = (mem s n).fly.slw ++ cols.map fun c =>
          { tgt := .v e, slice := c, res := mapAlts (sliceOf c) (pickAlt gm (flatV (mem s n) b)), lit := none, out := [],
            due := (mem s n).ctl.gc + 3, q := l.q, seq := s.fresh, addr := l.ln.addr, keep := 0 }) ∧
    (∀ e b : VReg, needV (mem s n) [e] = .ok () →
      ∃ t, exec (.qstat h true (Fin.ofNat 64 e.val) (Fin.ofNat 64 b.val)) s = .next t ∧ (mem t n).regs = (mem s n).regs ∧
        ∃ w : Cells, (mem t n).fly.slw = (mem s n).fly.slw ++ cols.map (fun c =>
          { tgt := .v e, slice := c, res := mapAlts (sliceOf c) (plain w), lit := none, out := [],
            due := (mem s n).ctl.gc + 3, q := l.q, seq := s.fresh, addr := l.ln.addr, keep := 0 }) ∧
          ∀ i, i < 1024 → cellAt w i = if i < 4 then BitVec.ofNat 32 (frameMask (flatV (mem s n) b) i) else 0)))

/-! ## System instructions -/

/-- R264 to R271: what the held class of system instructions does when nothing holds it: `wrsr` writes its register at
the end of the cycle; `halt` stops the member's issue after its cycle; `yield` offers the boundary that ends its
iteration; `brk` asks for a stop where breakpoints are enabled; `pcsel` selects the event; none touches memory. -/
def Obligations.SystemHeld : Prop :=
  ∀ (s : State) (l : Lane) (n : Nat) (h : Hd) (code : BitVec 16),
    curLane s = some l →
    (∀ (a : SReg) (sn : BitVec 8) (v : Word), l.who = .mem n ∨ l.who = .hnd n → sprWritable sn.toNat = true →
      HeldNow s l h [] [a] [v] →
      ∃ t, exec (.wrsr h a sn) s = .next t ∧ (mem t n).fly.spr = (mem s n).fly.spr ++ [(sn.toNat, v)] ∧
        (mem t n).regs = (mem s n).regs ∧ (mem t n).spr = (mem s n).spr ∧ t.dmem = s.dmem) ∧
    (l.who = .mem n → HeldNow s l h [] [] [] →
      (∃ t, exec (.halt h) s = .next t ∧ (mem t n).ctl.halting = true ∧ (mem t n).regs = (mem s n).regs ∧ t.dmem = s.dmem) ∧
      (∃ t, exec (.brk h code) s = .next t ∧ t.dmem = s.dmem ∧
        (mem t n).ctl.dbg = if breakOn s n then .asked 0 code else (mem s n).ctl.dbg) ∧
      (∀ r, l.ln.rcd = some r → r.phase = .ker → r.yieldint ≠ 0 →
        ∃ t, exec (.yield h) s = .next t ∧ t.dmem = s.dmem ∧
          ∀ x, runRcd (mem s n) = some x → ∃ y, runRcd (mem t n) = some y ∧ y.yieldAsked = true ∧ y.phase = x.phase ∧
            y.j = x.j)) ∧
    (l.who = .mem n ∨ l.who = .hnd n → HeldNow s l h [] [] [] →
      (∃ t, exec (.pcsel h code) s = .next t ∧ (mem t n).spr.perfSel = code.setWidth 9 ∧ t.dmem = s.dmem) ∧
      exec (.trap h code) s = .next (laneFault s l { trapOf .trap with status := code.toNat })) ∧
    (HeldNow s l h [] [] [] → ∃ t, exec (.trmark h code) s = .next t ∧ (mem t n).regs = (mem s n).regs) ∧
    (∀ k, l.who = .lk k → h.gq = false → h.qp = false →
      ∃ t, exec (.halt h) s = .next t ∧ (lookupCore t k).run = false ∧ (lookupCore t k).ended = some 0)

/-- R265: `svc` posts a record of kind TRAP that is replayable and carries its code, and leaves one request with the
arguments s1 to s4 for the firmware; the program goes on.

R270, R272: `uiret` leaves the handler at the end of its cycle, and is ILLEGAL outside one; `pcread` of the
member's own counter lands at the end of the tick 127 after it.
Rests on the model's choices of log 17, 26 and 31. -/
def Obligations.CallsHandlersAndCounters : Prop :=
  (∀ (s : State) (l : Lane) (h : Hd) (code : BitVec 16) (a b c d : Word),
    HeldNow s l h [] [1, 2, 3, 4] [a, b, c, d] →
    ∃ t r x, exec (.svc h code) s = .next t ∧ t.recs = s.recs ++ [r] ∧ r.replay = true ∧ r.cause = 0x18 ∧
      r.status = code.setWidth 32 ∧ r.launch = (bindOf s (whoSite s l.who)).launch ∧
      t.svcs = s.svcs ++ [x] ∧ x.code = code ∧ x.args = [a, b, c, d] ∧ x.site = whoSite s l.who ∧
      t.recsTerm = s.recsTerm ∧ t.dmem = s.dmem) ∧
  (∀ (s : State) (l : Lane) (n : Nat) (h : Hd), curLane s = some l →
    (l.who = .hnd n → h.gq = false → ∃ t, exec (.uiret h) s = .next t ∧ (mem t n).ui.leaving = true ∧
      (mem t n).regs = (mem s n).regs ∧ t.dmem = s.dmem) ∧
    ((∀ k, l.who ≠ .hnd k) → exec (.uiret h) s = .next (laneFault s l (trapOf .illegal))) ∧
    (∀ (d a : SReg) (act : Act), l.who = .mem n ∨ l.who = .hnd n → Acts s l h act → needLanded s l.who [d] = .ok () → LateFits s l d act →
      exec (.pcread h d a 0) s = .next (retire
        (schedule s l d (s.cal + 127) (.pcread (mem s n).spr.perfSel 0 (plain [n]) (s.cal + 16)) (actLit act)) l 1)))

/-- R47, R111, R116, R328, R348, R45: a terminal fault that a lane of a member raises, the first of several, is taken
once what issued in its group cycle and before has completed, or 256 ticks later, and not before; where Vigil does not
stop it, CAUSE, FAULT_VA and FAULT_INFO tell
what faulted, the record goes to the terminal class, and the launch ends with its cause.
Rests on the model's choices of log 29 and 141. -/
def Obligations.FaultEnds : Prop :=
  (∀ (s : State) (n : Nat) (x : Raised), (mem s n).ctl.trap = some x → vigilArmed s 2 = false →
    (drained (mem s n) = false → s.cal < x.tick + 256 → trapStep n s = s) ∧
    (drained (mem s n) = true ∨ x.tick + 256 ≤ s.cal → vigilActive s = false → launchSites s (bindOf s n).launch = [n] →
      (mem (trapStep n s) n).ctl.life = .retired ∧ (mem (trapStep n s) n).spr.cause.toNat % 256 = kindCode x.trap.kind)) ∧
  ∀ (s : State) (l : Lane) (n : Nat) (t : Trap), l.who = .mem n → (mem s n).ctl.trap = none → Unwatched s →
    (launchSites s (bindOf s n).launch) = [n] → drained (mem s n) = true →
    (mem (laneFault s l t) n).ctl.life = (mem s n).ctl.life ∧
    let u := trapStep n (laneFault s l t)
    (mem u n).spr.cause = nat64 (kindCode t.kind + if t.deferred then 256 else 0) ∧
    (∀ v, t.va = some v → (mem u n).spr.faultVa = nat64 v) ∧
    (mem u n).spr.faultInfo.toNat % 2 ^ 48 = (if t.kind = .lineFormat then l.ln.faddr else l.ln.addr) % 2 ^ 48 ∧
    (mem u n).ctl.life = .retired ∧ (mem u n).regs = (mem s n).regs ∧ (mem u n).buf = (mem s n).buf ∧
    (∃ r, u.recsTerm = s.recsTerm ++ [r] ∧ r.cause.toNat = kindCode t.kind ∧ r.launch = (bindOf s n).launch ∧
      r.replay = false) ∧
    (∀ x, findLaunch s (bindOf s n).launch = some x →
      ∃ y, findLaunch u (bindOf s n).launch = some y ∧ y.status = 2 ∧ y.cause.toNat = kindCode t.kind ∧ y.owed = true)

/-! ## Lookup cores -/

namespace Sys2Proof.Claims

open Sys2Proof Sys2Proof.Machine

/-- An instruction of the lookup profile at issue, unqualified, its registers landed (R382). -/
def AtLookup (s : State) (l : Lane) (k : Nat) (h : Hd) (regs : List SReg) : Prop :=
  curLane s = some l ∧ l.who = .lk k ∧ h.gq = false ∧ h.qp = false ∧ needLanded s l.who regs = .ok ()

/-- The count w is on its way to s[d] of a lookup core, and the instruction's work is done. -/
def CountSent (s t : State) (k : Nat) (d : SReg) (w : Nat) : Prop :=
  (lookupCore t k).work = none ∧ ∃ x : SWrite, x.reg = d ∧ x.res = plain (nat64 w) ∧ x.due = (lookupCore s k).cyc ∧
    (lookupCore t k).fly = (lookupCore s k).fly ++ if d = 0 then [] else [x]

end Sys2Proof.Claims

/-- R384 to R386: `lidx` whose elements have all been read holds them in the index list and sends their count; `ldup`
keeps the first of each value, in order; `lgat` whose rows have all been read holds them in the gather area; `lpool`
of INT32 sums holds in element j of the output tile the sum of that element over the rows.

R345, R387, R388: `lsend` names the slot, of its kicker or, in the long form, of the member at its coordinate, and its
core stalls until the tile is delivered; one to a site it may not reach is the terminal fault ILLEGAL of the launch;
`lscat` whose rows have all been written is done.
Rests on the model's choices of log 51, 9 and 29: which sites it may reach, and that the fault ends the launch at once. -/
def Obligations.LookupInstructions : Prop :=
  (∀ (s : State) (l : Lane) (k : Nat) (h : Hd) (d a : SReg) (hn : HReg) (op : BitVec 4),
    (AtLookup s l k h [d, a, Fin.ofNat 64 (a.val + 1)] → op.toNat ≤ 1 → a.val % 2 = 0 →
      let c := lookupCore s k
      let w := if op = 0 then 4 else 2
      let n := lkS c (a.val + 1)
      let b := (lkWork c (lkHandle c hn)).part
      n ≤ 4096 → lkS c a.val % w = 0 → (n = 0 ∨ lkCheck (lkHandle c hn) .r (lkS c a.val) (n * w) = none) →
      b.length = n * w →
      ∃ t, exec (.lidx h d hn a op) s = .next t ∧ CountSent s t k d n ∧ t.dmem = s.dmem ∧
        (lookupCore t k).il = (List.range n).map fun i => BitVec.ofNat 32 (leNat ((b.drop (w * i)).take w))) ∧
    (AtLookup s l k h [d] → ∃ t, exec (.ldup h d) s = .next t ∧ t.dmem = s.dmem ∧
      (lookupCore t k).il = (lookupCore s k).il.eraseDups ∧ CountSent s t k d (lookupCore s k).il.eraseDups.length) ∧
    (AtLookup s l k h [a, Fin.ofNat 64 (a.val + 1)] → op.toNat ≤ 1 → a.val % 2 = 0 →
      let c := lookupCore s k
      let len := lkS c (a.val + 1)
      let rows := (lkWork c (lkHandle c hn)).rows
      32 ≤ len → len ≤ 2048 → len % 32 = 0 → c.il.length * len ≤ 65536 →
      rowsFail c (lkHandle c hn) .r (op.getLsbD 0) (lkS c a.val) len = none → rows.length = c.il.length →
      ∃ t, exec (.lgat h hn a op) s = .next t ∧ (lookupCore t k).ga = rows ∧ (lookupCore t k).grl = len ∧
        (lookupCore t k).work = none ∧ t.dmem = s.dmem) ∧
    (AtLookup s l k h [] → ∃ t, exec (.lpool h 8) s = .next t ∧ t.dmem = s.dmem ∧ (lookupCore t k).ot.length = 2048 ∧
      ∀ j, j < 512 → j < (lookupCore s k).grl / 4 →
        leNat (((lookupCore t k).ot.drop (4 * j)).take 4) =
          ((lookupCore s k).ga.map fun r => leNat ((r.drop (4 * j)).take 4)).sum % 2 ^ 32)) ∧
  (∀ (s : State) (l : Lane) (k : Nat) (h : Hd) (a : SReg) (hn : HReg) (op : BitVec 4) (row col : BitVec 4) (slot : BitVec 11),
    let c := lookupCore s k
    (AtLookup s l k h [a] →
      let site := if h.long then 16 * row.toNat + col.toNat else c.site
      let n := (if h.long then slot.toNat else 0) + lkS c a.val
      (n < 1024 → reachable s c.site site = true →
        ∃ t, exec (.lsend h a row col slot) s = .next t ∧ (lookupCore t k).send = some (site, n) ∧
          (lookupCore t k).ot = c.ot ∧ (lookupCore t k).s = c.s ∧ t.members = s.members ∧ t.dmem = s.dmem) ∧
      (n < 1024 → reachable s c.site site = false → Unwatched s →
        launchSites s (bindOf s c.site).launch = [c.site] →
        ∃ t, exec (.lsend h a row col slot) s = .next t ∧ (mem t c.site).spr.cause = nat64 (kindCode .illegal) ∧
          (mem t c.site).ctl.life = .retired) ∧
      (1024 ≤ n → exec (.lsend h a row col slot) s = .next (laneFault s l (trapOf .illegal)))) ∧
    (AtLookup s l k h [a, Fin.ofNat 64 (a.val + 1)] → op.toNat ≤ 1 → a.val % 2 = 0 → lkS c (a.val + 1) = 0 →
      c.ga.length = c.il.length → rowsFail c (lkHandle c hn) .r false (lkS c a.val) c.grl = none →
      rowsFail c (lkHandle c hn) .w false (lkS c a.val) c.grl = none →
      c.il.length ≤ (lkWork c (lkHandle c hn)).rows.length →
      ∃ t, exec (.lscat h hn a op) s = .next t ∧ (lookupCore t k).work = none ∧ t.dmem = s.dmem))

/-! ## Vector instructions -/

namespace Sys2Proof.Claims

open Sys2Proof Sys2Proof.Machine

/-- A V or X instruction of shape sh passes its checks and acts; s1 is the state that its pop leaves. -/
def VActs (s : State) (l : Lane) (n : Nat) (h : Hd) (i : Instr) (sh : VShape) (act : Act) (p : Option (Alts Cells))
    (s1 : State) : Prop :=
  curLane s = some l ∧ l.who = .mem n ∧ vReady s n l h i sh = .ok (act, p, s1) ∧ act ≠ .never

/-- The instruction issued with occupancy 1 and its wavefront sets out in this cycle. -/
def SetsOut (s1 : State) (l : Lane) (n : Nat) (i : Instr) (sh : VShape) (act : Act) (p : Option (Alts Cells)) (t : State) : Prop :=
  ∃ w ss, vScalar s1 l sh = .ok ss ∧ (mem t n).fly.waves = (mem s1 n).fly.waves ++ [w] ∧ w.ins = i ∧
    w.t = (mem s1 n).ctl.gc ∧ w.lit = actLit act ∧ w.ss = ss ∧ w.pop = p ∧ w.rmode = (mem s1 n).spr.rmode ∧
    w.ctr = (mem s1 n).spr.rngCtr ∧ (mem t n).spr.rngCtr = w.ctr + BitVec.ofNat 128 (drawBlocks i) ∧
    (mem t n).regs.v = (mem s1 n).regs.v ∧ (mem t n).regs.k = (mem s1 n).regs.k ∧ t.dmem = s1.dmem ∧
    tget 0 (mem t n).ctl.refs l.q.code = (mem s1 n).ctl.gc + 1 ∧
    (∀ d, sh.dst = .s d → d ≠ 0 → (sCell (mem t n) d).pend.isSome = true)

/-- Instructions of V that compute in a format or on integers (R177 to R182). -/
def waveArith (h : Hd) (x : VExt) (d a b y : VReg) (k : KReg) (cc : BitVec 4) (c : Cvt) (p : Fin 32) : List Instr :=
  [.vadd h x d a b, .vsub h x d a b, .vmul h x d a b, .vfma h x d a b y, .vfms h x d a b y, .vfnma h x d a b y,
   .vmin h x d a b, .vmax h x d a b, .vminn h x d a b, .vmaxn h x d a b, .vabs h x d a, .vneg h x d a,
   .vcmp h x k a b cc, .vsel h x d a b k, .vclamp h x d a b y, .vldx2 h x d a b, .vrnd h x d a,
   .viadd h x d a b, .visub h x d a b, .vimul h x d a b, .vimulh h x d a b, .viand h x d a b, .vior h x d a b,
   .vixor h x d a b, .vishl h x d a b, .vishr h x d a b, .visra h x d a b, .vimin h x d a b, .vimax h x d a b,
   .viabs h x d a, .vicmp h x k a b cc, .viclamp h x d a b y, .vcvt h x d a c, .vcvts h x d a b c, .vpack h x d a b c,
   .vunpk h x d a p c]

/-- The other instructions of V and X that set out as a wavefront (R184 to R190). -/
def waveMoves (h : Hd) (x : VExt) (d a b y : VReg) (k j m : KReg) (op : BitVec 3) (r : SReg) (row : Fin 16) (col : Fin 64)
    (rot : Rot) (vd : VDst) : List Instr :=
  [.vbc h x d r, .vrbc h x d a col, .vcbc h x d a row, .vrrot h x d a rot, .vcrot h x d a rot, .vrred h x vd a op,
   .vcred h x d a op, .vrscan h x d a op, .vperm h x d a b, .vtrn h x d a, .viota h x d, .vext h x r a row col,
   .vins h x d r row col, .kand h x k j m, .kor h x k j m, .kxor h x k j m, .knot h x k j, .kmov h x k j,
   .rtcnt h x a, .vrope h x d a b y, .xexp2 h x d a, .xlog2 h x d a, .xrcp h x d a, .xrsqrt h x d a, .xsqrt h x d a,
   .xdiv h x d a b, .xrng h x d]

end Sys2Proof.Claims

/-- R172, R173, R175, R190: every V and X instruction that acts issues with occupancy 1, and its wavefront sets out
with its s source, its popped entry, its rounding mode and the random counter as they stand; no register has changed
yet, and an s destination is pending.
Rests on the model's choices of log 140. -/
def Obligations.VectorSetsOut : Prop :=
  ∀ (s s1 : State) (l : Lane) (n : Nat) (h : Hd) (x : VExt) (d a b y : VReg) (k j m : KReg) (cc : BitVec 4) (c : Cvt)
    (op : BitVec 3) (r : SReg) (row : Fin 16) (col : Fin 64) (rot : Rot) (vd : VDst) (p : Fin 32)
    (act : Act) (pop : Option (Alts Cells)) (sh : VShape) (ss : Alts Cells),
    ∀ i, (i ∈ waveArith h x d a b y k cc c p ∨ i ∈ waveMoves h x d a b y k j m op r row col rot vd) → vShape i = some sh →
      VActs s l n h i sh act pop s1 →
      vScalar s1 l sh = .ok ss → vCount (mem s1 n) sh (newWave s1 l n i ss pop (actLit act)) ≤ 4 →
      ∃ t, exec i s = .next t ∧ SetsOut s1 l n i sh act pop t

/-- R50: a `mov` of LDQ-C whose queue is empty binds its destination to the entry still to come, and does not wait.

R50, R184: `vmov` that is no binding sets out as a wavefront; a `vmov` of LDQ-V whose queue is empty binds its
destination to the entry still to come, and does not wait.

R173, R186: `kpop` sends the number of one bits of the mask to s[D] with latency 6, `kfst` the least set position.
Rests on the model's choice of log 36: they read slices that a wavefront ahead of them has yet to reach. -/
def Obligations.VectorMovesAndCounts : Prop :=
  (∀ (s s1 : State) (l : Lane) (n : Nat) (h : Hd) (x : VExt) (d a : VReg) (act : Act) (pop : Option (Alts Cells)),
    (∀ sh ss, vShape (.vmov h x d a) = some sh → VActs s l n h (.vmov h x d a) sh act pop s1 → vScalar s1 l sh = .ok ss →
      (h.qp = false ∨ act ≠ .always ∨ x.msk ≠ 0 ∨ bindsV (mem s n) = false) →
      vCount (mem s1 n) sh (newWave s1 l n (.vmov h x d a) ss pop (actLit act)) ≤ 4 →
      ∃ t, exec (.vmov h x d a) s = .next t ∧ SetsOut s1 l n (.vmov h x d a) sh act pop t) ∧
    (curLane s = some l → l.who = .mem n → h.qp = true → memAct (mem s n) h = .always → x.msk = 0 →
      (mem s n).l.ldqV = [] → vPending (mem s n) d = false → (mem s n).l.bindV.length < 16 →
      ∃ t, exec (.vmov h x d a) s = .next t ∧ (mem t n).l.bindV = (mem s n).l.bindV ++ [(s.fresh, l.ln.addr)] ∧
        vPending (mem t n) d = true ∧ (mem t n).regs.v = (mem s n).regs.v ∧ t.dmem = s.dmem)) ∧
  (∀ (s : State) (l : Lane) (n : Nat) (h : Hd) (d a : SReg),
    curLane s = some l → l.who = .mem n → h.qp = true → memAct (mem s n) h = .always →
    (mem s n).l.ldqC = [] → (sCell (mem s n) d).pend = none → (mem s n).l.bindC.length < 16 →
    ∃ t, exec (.mov h d a) s = .next t ∧ (mem t n).l.bindC = (mem s n).l.bindC ++ [(s.fresh, l.ln.addr)] ∧
      (d ≠ 0 → (sCell (mem t n) d).pend = some s.fresh) ∧ (mem t n).ctl.frz = (mem s n).ctl.frz ∧ t.dmem = s.dmem) ∧
  (∀ (s s1 : State) (l : Lane) (n : Nat) (h : Hd) (x : VExt) (d : SReg) (a : KReg) (act : Act) (pop : Option (Alts Cells)) (sh : VShape),
    Fits s1 l d act →
    (vShape (.kpop h x d a) = some sh → VActs s l n h (.kpop h x d a) sh act pop s1 → exec (.kpop h x d a) s =
      .next (sends s1 l d (nat64 (maskAhead s1 l n (.kpop h x d a) sh).length) 6 act)) ∧
    (vShape (.kfst h x d a) = some sh → VActs s l n h (.kfst h x d a) sh act pop s1 → exec (.kfst h x d a) s =
      .next (sends s1 l d (nat64 (((maskAhead s1 l n (.kfst h x d a) sh).head?.map Prod.fst).getD 1024)) 6 act)))

namespace Sys2Proof.Claims

open Sys2Proof Sys2Proof.Machine

/-- A wavefront of the instruction sends to slice c of its destination one alternative, whose cell of a row is the new
value where the mask bit is 1 and what the destination held elsewhere (R172, R175). -/
def Gives (m : Member) (w : Wave) (x : VExt) (c row : Nat) (old : Word32) (g : Instr × Word32) : Prop :=
  ∀ sh, w.ins = g.1 → vShape g.1 = some sh →
    ∃ R, localSlice m w sh c = plain R ∧ cellAt R row = if (kSlice m x.msk c).getLsbD row then g.2 else old

/-- The value of a cell as an integer of a type: signed, width (R57). -/
def typed (sg : Bool) (w : Nat) (c : Word32) : Int := if sg then (BitVec.ofNat w c.toNat).toInt else ((c.toNat % 2 ^ w : Nat) : Int)

/-- An exact result as a cell of a type: saturated, or wrapped (R48, R57). -/
def fitted (sg sat : Bool) (w : Nat) (r : Int) : Word32 :=
  BitVec.ofInt 32 (
    if sat then (if sg then max (-(2 ^ (w - 1) : Int)) (min (2 ^ (w - 1) - 1) r) else max 0 (min (2 ^ w - 1) r))
    else if sg then (BitVec.ofInt w r).toInt else ((BitVec.ofInt w r).toNat : Int))

/-- The integer types of V (R179): code, signed, width. -/
def vTypes : List (Nat × Bool × Nat) := [(1, true, 16), (2, true, 32), (5, false, 16), (6, false, 32)]

/-- The mode of a V or X instruction: its own, or RMODE for code 5 (R60). -/
def modeOfWave (x : VExt) (w : Wave) : Mode := if x.rnd = 5 then modeOf w.rmode.toNat else modeOf x.rnd.toNat

/-- A fold of a reduction (R185): sum, maximum, minimum, and the two that pass over a NaN. -/
def folded (f : Fmt) (op : Nat) (mo : Mode) : List FVal → FVal
  | [] => if op = 0 then .fin false 0 0 else .inf (decide (op = 1 ∨ op = 3))
  | v :: r => r.foldl (fun acc u => match op with
      | 0 => decodeFp f false (roundTo f false mo (addNum mo acc u))
      | 1 => minMax true acc u
      | 2 => minMax false acc u
      | 3 => minMaxNumber true acc u
      | _ => minMaxNumber false acc u) v

end Sys2Proof.Claims

/-- R174, R177 to R180, R184, R186, R189, under R175's mask: what a wavefront sends to slice c of v[D] or k[D] from plain
slices. The moves, with F = 0: `vmov`, `vbc`, `viota`, `vins`, `vsel`. The integer instructions, for the four types
of 16 and 32 bits: the exact result, wrapped or with SAT saturated; the shifts and bit operations work on the w bits.
The floating-point instructions of V and the functions of X: the exact result rounded once into the format, in the
instruction's mode; sources of a format that flushes are flushed. The compares and the k operations: one bit. `vcvt`
and `vcvts`, unless stochastic: rounded, truncated to an integer, or wrapped, as the kind says; a conversion to FP32 of
a narrower format does not flush. -/
def Obligations.VectorCells : Prop :=
  ∀ (m : Member) (w : Wave) (h : Hd) (x : VExt) (d a b y : VReg) (s : SReg) (k j l : KReg) (cv : Cvt) (r0 : Fin 16) (c0 : Fin 64)
    (c row : Nat) (A B Y D S : Cells),
    h.qp = false → row < 16 → c < 64 → (vSlice m a c).alts = plain A → (vSlice m b c).alts = plain B →
    (vSlice m y c).alts = plain Y → (vSlice m d c).alts = plain D → w.ss = plain S → w.out = [] →
    let p := cellAt A row
    let q := cellAt B row
    let u := cellAt Y row
    let old := cellAt D row
    let kb (r : KReg) : Bool := (kSlice m r c).getLsbD row
    let kw (v : Bool) : Word32 := if v then 1 else 0
    let f := fpOf x.f.toNat
    let mo := modeOfWave x w
    let v (z : Word32) : FVal := decodeFp f true (z.toNat % 2 ^ f.width)
    let out (r : FVal) : Word32 := BitVec.ofNat 32 (roundTo f x.sat mo r)
    (x.f = 0 → ∀ g ∈ [(Instr.vmov h x d a, p), (.vbc h x d s, cellAt S 0), (.viota h x d, BitVec.ofNat 32 (64 * row + c)),
        (.vins h x d s r0 c0, if row = r0.val ∧ c = c0.val then cellAt S 0 else old)], Gives m w x c row old g) ∧
    Gives m w x c row old (.vsel h x d a b k, if kb k then p else q) ∧
    (∀ t ∈ vTypes, x.f.toNat % 8 = t.1 →
      let n (z : Word32) : Int := typed t.2.1 t.2.2 z
      let bits (z : Word32) : Nat := z.toNat % 2 ^ t.2.2
      let fit (r : Int) : Word32 := fitted t.2.1 x.sat t.2.2 r
      let cell (z : Nat) : Word32 := fitted t.2.1 false t.2.2 z
      ∀ g ∈ [(Instr.viadd h x d a b, fit (n p + n q)), (.visub h x d a b, fit (n p - n q)), (.vimul h x d a b, fit (n p * n q)),
          (.vimulh h x d a b, fit (n p * n q / 2 ^ t.2.2)), (.vimin h x d a b, fit (min (n p) (n q))),
          (.vimax h x d a b, fit (max (n p) (n q))), (.viabs h x d a, fit (n p).natAbs),
          (.viclamp h x d a b y, fit (min (max (n p) (n q)) (n u))),
          (.viand h x d a b, cell (bits p &&& bits q)), (.vior h x d a b, cell (bits p ||| bits q)),
          (.vixor h x d a b, cell (bits p ^^^ bits q)), (.vishl h x d a b, cell (bits p * 2 ^ (bits q % t.2.2))),
          (.vishr h x d a b, cell (bits p / 2 ^ (bits q % t.2.2))),
          (.visra h x d a b, fitted t.2.1 false t.2.2 ((BitVec.ofNat t.2.2 p.toNat).toInt / 2 ^ (bits q % t.2.2)))], Gives m w x c row old g) ∧
    (∀ t ∈ vTypes, x.f.toNat % 8 = t.1 → ∀ (cc : BitVec 4) (z : Bool),
      (cc.toNat, z) ∈ [(0, decide (typed t.2.1 t.2.2 p = typed t.2.1 t.2.2 q)), (1, decide (typed t.2.1 t.2.2 p ≠ typed t.2.1 t.2.2 q)),
        (2, decide (typed t.2.1 t.2.2 p < typed t.2.1 t.2.2 q)), (3, decide (typed t.2.1 t.2.2 q ≤ typed t.2.1 t.2.2 p)),
        (4, decide (typed false t.2.2 p < typed false t.2.2 q)), (5, decide (typed false t.2.2 q ≤ typed false t.2.2 p))] →
      Gives m w x c row (kw (kb k)) (.vicmp h x k a b cc, kw z)) ∧
    (∀ g ∈ [(Instr.vadd h x d a b, out (addNum mo (v p) (v q))), (.vsub h x d a b, out (addNum mo (v p) (v q).neg)),
        (.vmul h x d a b, out (mulNum (v p) (v q))), (.vfma h x d a b y, out (addNum mo (mulNum (v p) (v q)) (v u))),
        (.vfms h x d a b y, out (addNum mo (mulNum (v p) (v q)) (v u).neg)),
        (.vfnma h x d a b y, out (addNum mo (mulNum (v p) (v q)).neg (v u))),
        (.vmin h x d a b, out (minMax false (v p) (v q))), (.vmax h x d a b, out (minMax true (v p) (v q))),
        (.vminn h x d a b, out (minMaxNumber false (v p) (v q))), (.vmaxn h x d a b, out (minMaxNumber true (v p) (v q))),
        (.vabs h x d a, out (match v p with | .fin _ i e => .fin false i e | .inf _ => .inf false | .nan => .nan)),
        (.vneg h x d a, out (v p).neg),
        (.vclamp h x d a b y, out (minMax false (minMax true (v p) (v q)) (v u))), (.vrnd h x d a, out (integral mo (v p))),
        (.vldx2 h x d a b, out ((v p).scale q.toInt)),
        (.xexp2 h x d a, out (exp2Num (v p))), (.xlog2 h x d a, out (log2Num (v p))), (.xrcp h x d a, out (rcpNum (v p))),
        (.xrsqrt h x d a, out (rsqrtNum (v p))), (.xsqrt h x d a, out (sqrtNum (v p))), (.xdiv h x d a b, out (divNum (v p) (v q)))],
      Gives m w x c row old g) ∧
    (∀ (cc : BitVec 4) (z : Bool),
      (cc.toNat, z) ∈ [(0, eqNum (v p) (v q)), (1, !eqNum (v p) (v q)), (2, ltNum (v p) (v q)), (3, ltNum (v p) (v q) || eqNum (v p) (v q)),
        (4, ltNum (v q) (v p)), (5, ltNum (v q) (v p) || eqNum (v p) (v q)), (6, (v p).isNan || (v q).isNan),
        (7, !((v p).isNan || (v q).isNan))] →
      Gives m w x c row (kw (kb k)) (.vcmp h x k a b cc, kw z)) ∧
    (∀ g ∈ [(Instr.kand h x k j l, kw (kb j && kb l)), (.kor h x k j l, kw (kb j || kb l)), (.kxor h x k j l, kw (kb j != kb l)),
        (.knot h x k j, kw (!kb j)), (.kmov h x k j, kw (kb j))], Gives m w x c row (kw (kb k)) g) ∧
    (x.rnd ≠ 4 → ∀ (i : Instr) (sc : Int), (i, sc) ∈ [(Instr.vcvt h x d a cv, (0 : Int)), (.vcvts h x d a b cv, q.toInt)] →
      let tf := fpOf cv.tf.toNat
      let src (flush : Bool) : FVal := decodeFp f flush (p.toNat % 2 ^ f.width)
      (cv.kind = 0 → Gives m w x c row old (i, BitVec.ofNat 32 (roundTo tf x.sat mo ((src (decide (x.f = 0 ∨ cv.tf ≠ 0))).scale sc)))) ∧
      (cv.kind = 1 → Gives m w x c row old (i, BitVec.ofInt 32 (toInt cv.tty.toNat mo ((src true).scale sc)))) ∧
      (cv.kind = 2 → ∀ t ∈ vTypes, cv.sty.toNat = t.1 →
        Gives m w x c row old (i, BitVec.ofNat 32 (roundTo tf x.sat mo ((numInt (typed t.2.1 t.2.2 p)).scale sc)))) ∧
      (cv.kind = 3 → ∀ t ∈ vTypes, cv.sty.toNat = t.1 → ∀ o ∈ vTypes, cv.tty.toNat = o.1 →
        Gives m w x c row old (i, fitted o.2.1 x.sat o.2.2 (typed t.2.1 t.2.2 p))))

/-- R181, R182, R184, R185, R187, R188: what the instructions that move cells between rows or columns compute, from
single values. Within a slice: `vcbc`, `vcrot`, and the fold `vcred` over the rows whose mask bit is 1, row 0 first. From
whole registers: `vrbc`, `vrrot`, `vperm`, `vtrn`, the folds `vrred` and `vrscan` along a row over the masked-in
columns from column 0, `vpack` and `vunpk` of formats that are no MX format. To an s register: `vext`, and `vrred` over
every cell. `rtcnt` adds the masked-in values below 256. `vrope` turns the pair of cells of an even and the next column
by the angle P × F.
Rests on the model's choice of log 37. -/
def Obligations.VectorRows : Prop :=
  (∀ (m : Member) (w : Wave) (h : Hd) (x : VExt) (d a : VReg) (r0 : Fin 16) (rot : Rot) (op : BitVec 3) (c row : Nat) (A D S : Cells),
    h.qp = false → row < 16 → c < 64 → (vSlice m a c).alts = plain A → (vSlice m d c).alts = plain D → w.ss = plain S → w.out = [] →
    let f := fpOf x.f.toNat
    let old := cellAt D row
    let by_ := match rot with | .imm i => i.val % 16 | .reg _ => (cellAt S 0).toNat % 16
    Gives m w x c row old (.vcbc h x d a r0, cellAt A r0.val) ∧
    Gives m w x c row old (.vcrot h x d a rot, cellAt A ((row + 16 - by_) % 16)) ∧
    (op.toNat ≤ 4 → Gives m w x c row old (.vcred h x d a op, BitVec.ofNat 32 (roundTo f false .rne (folded f op.toNat (modeOfWave x w)
      (((List.range 16).filter fun r => (kSlice m x.msk c).getLsbD r).map fun r => decodeFp f true ((cellAt A r).toNat % 2 ^ f.width))))))) ∧
  (∀ (w : Wave) (h : Hd) (x : VExt) (d a b : VReg) (s : SReg) (r0 : Fin 16) (c0 : Fin 64) (rot : Rot) (op : BitVec 3) (cv : Cvt) (pt : Fin 32)
    (row col : Nat) (A B S : Cells),
    h.qp = false → row < 16 → col < 64 → gathered w 0 = plain A → gathered w 1 = plain B → w.ss = plain S → w.out = [] →
    let f := fpOf x.f.toNat
    let mo := modeOfWave x w
    let at_ (r c : Nat) : Word32 := cellAt A (64 * r + c)
    let by_ := match rot with | .imm i => i.val % 64 | .reg _ => (cellAt S 0).toNat % 64
    let inMask (r c : Nat) : Bool := (gathBits w c).getLsbD r
    let vals (r n : Nat) : List FVal := ((List.range n).filter fun c => inMask r c).map fun c => decodeFp f true ((at_ r c).toNat % 2 ^ f.width)
    let rowGives (i : Instr) (v : Word32) : Prop := ∀ sh, w.ins = i → vShape i = some sh →
      ∃ R, rowResult w sh = plain R ∧ cellAt R (64 * row + col) = v
    rowGives (.vrbc h x d a c0) (at_ row c0.val) ∧
    rowGives (.vrrot h x d a rot) (at_ row ((col + 64 - by_) % 64)) ∧
    rowGives (.vperm h x d a b) (at_ row ((cellAt B (64 * row + col)).toNat % 64)) ∧
    rowGives (.vtrn h x d a) (at_ (col % 16) (16 * (col / 16) + row)) ∧
    (op.toNat ≤ 4 →
      rowGives (.vrred h x (.v d) a op) (BitVec.ofNat 32 (roundTo f false .rne (folded f op.toNat mo (vals row 64)))) ∧
      rowGives (.vrscan h x d a op) (BitVec.ofNat 32 (roundTo f false .rne (folded f op.toNat mo (vals row (col + 1))))) ∧
      (w.ins = .vrred h x (.s s) a op → toSResult w = plain (nat64 (roundTo f false .rne (folded f op.toNat mo
        ((List.range 16).flatMap fun r => vals r 64)) % 2 ^ 32)))) ∧
    (w.ins = .vext h x s a r0 c0 → toSResult w = plain ((at_ r0.val c0.val).setWidth 64)) ∧
    (w.ins = .rtcnt h x a → countVals w =
      ((List.range 1024).filter fun k => inMask (k / 64) (k % 64) && decide ((cellAt A k).toNat < 256)).map fun k => (cellAt A k).toNat) ∧
    (∀ wd per : Nat, (wd, per) ∈ [(8, 4), (16, 2)] →
      (cv.kind = 0 → (fpOf x.f.toNat).width = wd → (∀ el, formatOf x.f.toNat ≠ .mx el) →
        rowGives (.vunpk h x d a pt cv) (BitVec.ofNat 32 (roundTo fp32 x.sat mo (decodeFp f false
          ((at_ row (64 / per * pt.val + col / per)).toNat / 2 ^ (wd * (col % per)) % 2 ^ wd))))) ∧
      (cv.kind = 0 → x.f = 0 → x.rnd ≠ 4 → (fpOf cv.tf.toNat).width = wd → (∀ el, formatOf cv.tf.toNat ≠ .mx el) →
        rowGives (.vpack h x d a b cv) (
          let n := 64 / per
          let el (i : Nat) : Nat := roundTo (fpOf cv.tf.toNat) x.sat mo (decodeFp fp32 true
            (if col < n then at_ row (per * col + i) else cellAt B (64 * row + (per * (col - n) + i))).toNat) % 2 ^ wd
          if 2 * n ≤ col then 0 else BitVec.ofNat 32 (((List.range per).map fun i => el i * 2 ^ (wd * i)).sum))))) ∧
  (∀ (w : Wave) (h : Hd) (x : VExt) (d a b y : VReg) (sh : VShape) (c row : Nat) (A0 A1 P F D0 D1 : Cells) (sn cs : FVal),
    w.ins = .vrope h x d a b y → vShape w.ins = some sh → w.out = [] → row < 16 → c < 64 → c % 2 = 1 →
    gathSlice w 0 (c - 1) = plain A0 → gathSlice w 0 c = plain A1 → gathSlice w 1 (c - 1) = plain P → gathSlice w 2 (c - 1) = plain F →
    gathSlice w gathD (c - 1) = plain D0 → gathSlice w gathD c = plain D1 →
    let v (z : Cells) : FVal := decodeFp fp32 true (cellAt z row).toNat
    let mo := modeOfWave x w
    let out (r : FVal) : Word32 := BitVec.ofNat 32 (roundTo fp32 x.sat mo r)
    (v A0).isNan = false → (v A1).isNan = false →
    sinCosNum (mulNum (numInt (cellAt P row).toInt) (v F)) = some (sn, cs) →
    ∃ E O, (pairWrites w sh c).map SliceWrite.res = [plain E, plain O] ∧
      cellAt E row = (if (gathBits w (c - 1)).getLsbD row then out (addNum mo (mulNum (v A0) cs) (mulNum (v A1) sn).neg) else cellAt D0 row) ∧
      cellAt O row = (if (gathBits w c).getLsbD row then out (addNum mo (mulNum (v A0) sn) (mulNum (v A1) cs)) else cellAt D1 row))

/-! ## The matrix column -/

namespace Sys2Proof.Claims

open Sys2Proof Sys2Proof.Machine

/-- An M instruction with needs x passes every check of its issue: its operands hold single values, its handle has
landed, its stamp is met, it raises no fault, its sub-arrays are free and awake, and its slots are full (R199, R202,
R204). -/
def MReady (s : State) (l : Lane) (n : Nat) (h : Hd) (st : SReg) (x : MNeeds) : Prop :=
  curLane s = some l ∧ l.who = .mem n ∧ waitClass s l.who h (stampRegs st ++ x.regs) = .ok true ∧
  (∃ v, readRegs s l.who (stampRegs st ++ x.regs) = .ok v) ∧ (∀ r, x.hnd = some r → hPend (hReg (mem s n) r) = false) ∧
  stampStop s n st = none ∧ x.fault = none ∧ x.poison = none ∧ (∀ k ∈ x.subs, (subOf (mem s n) k).busy ≤ (mem s n).ctl.gc) ∧
  (∀ k ∈ x.subs, (subOf (mem s n) k).asleep = false ∧ (subOf (mem s n) k).waking = none) ∧
  (∀ p ∈ x.slots, slotReady (mem s n) p.1 p.2 true = true)

/-- The same but for the checks of its issue, of which one raises the fault t. -/
def MFaults (s : State) (l : Lane) (n : Nat) (h : Hd) (st : SReg) (x : MNeeds) (t : Trap) : Prop :=
  curLane s = some l ∧ l.who = .mem n ∧ waitClass s l.who h (stampRegs st ++ x.regs) = .ok true ∧
  (∃ v, readRegs s l.who (stampRegs st ++ x.regs) = .ok v) ∧ (∀ r, x.hnd = some r → hPend (hReg (mem s n) r) = false) ∧
  stampStop s n st = none ∧ x.fault = some t

/-- The M instructions of the wait class, each with its needs (R211). -/
def mForms (s : State) (n : Nat) (h : Hd) (st : SReg) (fa fb : AReg) (hb : HReg) (tl sub : Fin 16) (nt : Fin 4) (sr : SReg)
    (idx : BitVec 16) (f64 : Bool) (rm : BitVec 3) (k : KReg) : List (Instr × MNeeds) :=
  let m := mem s n
  [(.mmac h st fa fb tl nt, mmacNeeds fa fb tl nt m), (.mmacb h st fa fb tl sub, mmacbNeeds fa fb tl sub m),
   (.mret h st tl nt, mretNeeds tl nt m), (.mload h st tl nt, mloadNeeds tl nt m), (.mzero h st tl nt, mzeroNeeds tl nt),
   (.mwake h st idx, MNeeds.plain 1 true), (.mmode h st f64 rm, MNeeds.plain 1 (decide (rm.toNat < 4))),
   (.sset h st fa idx, MNeeds.plain 1 (((descriptor s n idx.toNat).map descOk).getD false)), (.sadv h st fa, MNeeds.plain 1 true),
   (.aqk h st fa hb tl sr, aqkNeeds s n m fa hb sr), (.apv h st fa hb tl sr, apvNeeds s n m fa hb tl sr),
   (.amass h st hb tl k, amassNeeds m hb tl k)]

/-- What an M instruction never changes: s, v, k and h registers, the typed buffers and device memory; and its
occupancy, the reference point of its column. -/
def MLeaves (s t : State) (n : Nat) (l : Lane) (occ : Nat) : Prop :=
  (mem t n).regs.s = (mem s n).regs.s ∧ (mem t n).regs.v = (mem s n).regs.v ∧ (mem t n).regs.k = (mem s n).regs.k ∧
  (mem t n).regs.h = (mem s n).regs.h ∧ (mem t n).buf = (mem s n).buf ∧ t.dmem = s.dmem ∧
  tget 0 (mem t n).ctl.refs l.q.code = (mem s n).ctl.gc + occ

end Sys2Proof.Claims

/-- R153, R199, R202, R204: each M instruction of the wait class, `mmac`, `mmacb`, `mret`, `mload`, `mzero`, `mwake`, `mmode`,
`sset`, `sadv`, `aqk`, `apv` and `amass`, completes where it passes every check of its issue (and, for `amass`, L's queues have room):
it answers a next state with its column's reference point after its occupancy, and registers, buffers and device memory as before.

R199, R200, R206, R207: `mmac` and `mmacb` enter their occupancy with their streams and the buffers as they stand;
the accumulators change when it is over.

R153, R199, R204: an M instruction of the wait class whose qualifier is against it issues with its occupancy and does
nothing; one that a check of its issue turns away raises that check's fault.
Rests on the model's choices of log 55 and 56. -/
def Obligations.MatrixMultiplies : Prop :=
  (∀ (s : State) (l : Lane) (n : Nat) (h : Hd) (st : SReg) (fa fb : AReg) (hb : HReg) (tl sub : Fin 16) (nt : Fin 4) (sr : SReg)
    (idx : BitVec 16) (f64 : Bool) (rm : BitVec 3) (k : KReg), ∀ x ∈ mForms s n h st fa fb hb tl sub nt sr idx f64 rm k,
    (MReady s l n h st x.2 → (mem s n).l.lq.length < 32 → (mem s n).l.sq.length < 32 →
      ∃ t, exec x.1 s = .next t ∧ MLeaves s t n l x.2.occ) ∧
    (curLane s = some l → l.who = .mem n → waitClass s l.who h (stampRegs st ++ x.2.regs) = .ok false →
      exec x.1 s = .next (retire s l x.2.occ)) ∧
    (∀ t, MFaults s l n h st x.2 t → exec x.1 s = .next (laneFault s l t))) ∧
  ∀ (s : State) (l : Lane) (n : Nat) (h : Hd) (st : SReg) (fa fb : AReg) (tl sub : Fin 16) (nt : Fin 4),
    (MReady s l n h st (mmacNeeds fa fb tl nt (mem s n)) →
      let occ := sK (aReg (mem s n) fa) * stepCost (sFmt (aReg (mem s n) fa))
      ∃ t o, exec (.mmac h st fa fb tl nt) s = .next t ∧ MLeaves s t n l occ ∧
        (mem t n).mat.ops = (mem s n).mat.ops ++ [o] ∧ o.ins = .mmac h st fa fb tl nt ∧ o.start = (mem s n).ctl.gc ∧
        o.stop = (mem s n).ctl.gc + occ - 1 ∧ o.fa = aReg (mem s n) fa ∧ o.fb = aReg (mem s n) fb ∧
        o.wb = (mem s n).buf.wb ∧ o.ab = (mem s n).buf.ab ∧ (mem t n).mat.acc = (mem s n).mat.acc) ∧
    (MReady s l n h st (mmacbNeeds fa fb tl sub (mem s n)) →
      let occ := 2 * stepCost (sFmt (aReg (mem s n) fa))
      ∃ t o, exec (.mmacb h st fa fb tl sub) s = .next t ∧ MLeaves s t n l occ ∧
        (mem t n).mat.ops = (mem s n).mat.ops ++ [o] ∧ o.ins = .mmacb h st fa fb tl sub ∧ o.start = (mem s n).ctl.gc ∧
        o.stop = (mem s n).ctl.gc + occ - 1 ∧ o.fa = aReg (mem s n) fa ∧ o.fb = aReg (mem s n) fb ∧
        (mem t n).mat.acc = (mem s n).mat.acc ∧
        (subOf (mem t n) sub.val).busy = (mem s n).ctl.gc + 32 * stepCost (sFmt (aReg (mem s n) fa)))

/-- R79, R206: at the end of an `mmac` of one tile in FP32, the accumulator at row i and column j below the streams'
rows has become the loop of R79 over row i of A and row j of B, from the value it had. -/
def Obligations.MatrixProduct : Prop :=
  ∀ (x : Mat) (o : MatOp) (h : Hd) (st : SReg) (fa fb : AReg) (tl : Fin 16) (i j : Nat),
    o.ins = .mmac h st fa fb tl 0 → x.f64 = false → x.acc.length = 4 → i < sRows o.fa → j < sRows o.fb →
    tget 0 (accTile (macEnd x o) tl.val) (128 * i + j) =
      BitVec.ofNat 64 (((opRow o.ab o.fa i).zip (opRow o.wb o.fb j)).foldl
        (fun acc p => roundTo fp32 false (mMode x) (addNum (mMode x) (decodeFp fp32 false acc) (mulNum p.1 p.2)))
        (tget 0 (accTile x tl.val) (128 * i + j)).toNat)

/-- R192, R193, R200, R203, R208, R209: `mret` sends its tiles to CB, performed 15 group cycles after its occupancy;
`mload` loads and tags, `mzero` clears and tags the accumulators of its tiles; `mwake` wakes the sub-arrays it names;
`mmode` sets mode and rounding, and a change of mode clears accumulators and tags. -/
def Obligations.MatrixMoves : Prop :=
  ∀ (s : State) (l : Lane) (n : Nat) (h : Hd) (st : SReg) (tl : Fin 16) (nt : Fin 4) (f64 : Bool) (rm : BitVec 3) (mask : BitVec 16),
    let x := (mem s n).mat
    let occ := (nt.val + 1) * if x.f64 then 4 else 32
    (MReady s l n h st (mretNeeds tl nt (mem s n)) →
      ∃ t, exec (.mret h st tl nt) s = .next t ∧ MLeaves s t n l occ ∧ (mem t n).mat.acc = x.acc ∧ (mem t n).mat.tags = x.tags ∧
        (mem t n).mat.cbw = x.cbw ++ [((mem s n).ctl.gc + occ + 15,
          ((List.range (nt.val + 1)).map fun i => tl.val + i).flatMap (tileCells x))]) ∧
    (MReady s l n h st (mloadNeeds tl nt (mem s n)) → x.acc.length = 4 →
      ∃ t, exec (.mload h st tl nt) s = .next t ∧ MLeaves s t n l occ ∧
        ∀ i, i ≤ nt.val → tagOk (mem t n).mat (tl.val + i) = true ∧
          accTile (mem t n).mat (tl.val + i) = loadTile x (cbSeen (mem s n)) (tl.val + i)) ∧
    (MReady s l n h st (mzeroNeeds tl nt) →
      ∃ t, exec (.mzero h st tl nt) s = .next t ∧ MLeaves s t n l 1 ∧
        ∀ i, i ≤ nt.val → tagOk (mem t n).mat (tl.val + i) = true ∧ ∀ k, tget 0 (accTile (mem t n).mat (tl.val + i)) k = 0) ∧
    (MReady s l n h st (MNeeds.plain 1 true) →
      (∃ t, exec (.mwake h st mask) s = .next t ∧ MLeaves s t n l 1 ∧ (mem t n).mat.acc = x.acc ∧
        ∀ k, k < 16 → mask.getLsbD k = true → (subOf (mem s n) k).asleep = true → (subOf (mem s n) k).waking = none →
          (subOf (mem t n) k).waking = some (s.cal + 64)) ∧
      (rm.toNat < 4 → ∃ t, exec (.mmode h st f64 rm) s = .next t ∧ MLeaves s t n l 1 ∧ (mem t n).mat.f64 = f64 ∧
        (mem t n).mat.rm = rm ∧ (mem t n).mat.acc = (if f64 = x.f64 then x.acc else [[], [], [], []]) ∧
        (mem t n).mat.tags = if f64 = x.f64 then x.tags else []))

/-- R195, R210, R211: `sset` takes a descriptor of the image, and one that the image has not or that breaks a rule is
ILLEGAL; `sadv` advances base and scale base by their strides and changes no other field; `sget` sends the field of its
code to s[D] with latency 2, and codes 14 and 15 are ILLEGAL; with its qualifier against it, it writes nothing. Each of `sset`, `sadv` and `sget` completes. -/
def Obligations.Streams : Prop :=
  ∀ (s : State) (l : Lane) (n : Nat) (h : Hd) (st : SReg) (fa : AReg),
    (∀ (idx : BitVec 16) (v : BitVec 256), MReady s l n h st (MNeeds.plain 1 true) → descriptor s n idx.toNat = some v →
      descOk v = true → ∃ t, exec (.sset h st fa idx) s = .next t ∧ aReg (mem t n) fa = v ∧ MLeaves s t n l 1 ∧
        ∀ x, x ≠ fa → aReg (mem t n) x = aReg (mem s n) x) ∧
    (∀ idx : BitVec 16, MReady s l n h st (MNeeds.plain 1 true) → (∀ v, descriptor s n idx.toNat = some v → descOk v = false) →
      exec (.sset h st fa idx) s = .next (laneFault s l (trapOf .illegal))) ∧
    (MReady s l n h st (MNeeds.plain 1 true) → ∃ t, exec (.sadv h st fa) s = .next t ∧ MLeaves s t n l 1 ∧
      (let v := (aReg (mem s n) fa).toNat
       let u := (aReg (mem t n) fa).toNat
       let sadv := (BitVec.ofNat 16 (v / 2 ^ 216)).toInt
       u % 2 ^ 32 = (v + v / 2 ^ 184) % 2 ^ 32 ∧ u / 2 ^ 32 % 2 ^ 104 = v / 2 ^ 32 % 2 ^ 104 ∧
       ((u / 2 ^ 136 % 2 ^ 24 : Nat) : Int) = ((v / 2 ^ 136 % 2 ^ 24 : Nat) + sadv) % 2 ^ 24 ∧ u / 2 ^ 160 = v / 2 ^ 160)) ∧
    (∀ (code : BitVec 4) (d : SReg), l.who = .mem n →
      let v := aReg (mem s n) fa
      let f (hi lo : Nat) : Nat := v.toNat / 2 ^ lo % 2 ^ (hi - lo + 1)
      (∀ act : Act, Acts s l h act → needLanded s l.who [d] = .ok () → Fits s l d act → splitStamp s l st = .ok n →
        ∀ w, ([nat64 (f 31 0), nat64 (f 159 136), int64 (BitVec.ofNat 32 (f 215 184)).toInt, int64 (BitVec.ofNat 16 (f 231 216)).toInt,
          nat64 (f 135 112), nat64 (f 111 88), nat64 (f 183 160), nat64 (f 63 60), nat64 (16 * f 59 58 + f 57 54),
          nat64 (f 87 81 + 1), nat64 (f 80 74 + 1), nat64 (32 * (f 73 69 + 1)), nat64 (f 239 232), nat64 (f 53 53)] :
            List Word)[code.toNat]? = some w →
        exec (.sget h st fa code d) s = .next (sends s l d w 2 act)) ∧
      (code.toNat < 14 → curLane s = some l → qualAct s l.who h = .ok .never → needLanded s l.who [d] = .ok () →
        exec (.sget h st fa code d) s = .next (retire s l 1)) ∧
      (14 ≤ code.toNat → curLane s = some l → exec (.sget h st fa code d) s = .next (laneFault s l (trapOf .illegal))))

/-- What an `aqk` or `apv` holds of its page (R212, R213): the bytes of len elements of every valid slot's row, from the stream's
element offset on, as device memory holds them where nothing disturbs the page; a slot is valid by bit 0 of its metadata. -/
def Sys2Proof.Claims.PageRead (s : State) (n : Nat) (v : BitVec 256) (hd : BitVec 128) (base len : Nat) (o : MatOp) : Prop :=
  o.page.length = 64 ∧
  ((∀ i, i < 2048 → Undisturbed s (siteCtx s n) (hKeyIdx hd) (hBase hd + 32 * i)) → ∀ j, j < 64 →
    o.valid.getLsbD j = (byteAt s.dmem (hBase hd + 32768 + 12 * j + 8)).getLsbD 0 ∧
    o.page.getD j 0 = if o.valid.getLsbD j then
      let e := fmtWidth (sFmt v) / 8
      leNat (bytesAt s.dmem (hBase hd + base + 256 * j + v.toNat / 2 ^ 232 % 2 ^ 8 * e) (len * e)) else 0)

/-- R213 to R217: `aqk` tags its tile and `apv` keeps it, both within their occupancy with the page's valid bits and
rows as they stand in memory; `amass` is captured in both of L's queues with its probabilities, its handle and its mask; `apos` sends
the positions of the page's slots to every row of v[D], slot by slot in its columns, with latency 40. Each of `aqk`, `apv`, `amass`
and `apos` completes: it answers the next state that its clause gives. A poisoned chunk of the metadata gives `apos` a poison
alternative under an open slot, and is its terminal fault POISON_READ otherwise.

R214, R215: at the end of its occupancy an `aqk` has put into its tile, at row i of the stream and column j below 64,
the products of that row and the K row of slot j summed in order and scaled, minus infinity for an invalid slot, and 0 in
every other cell, and sends the cells of the stream's rows to CB; an `apv` has rescaled the rows of its stream and added to them, slot by slot, the products with the V
rows of the valid slots.
Rests on the model's choices of log 58 and 142. -/
def Obligations.Attention : Prop :=
  ∀ (s : State) (l : Lane) (n : Nat) (h : Hd) (st : SReg) (fa : AReg) (fb : HReg) (tl : Fin 16) (sr : SReg) (k : KReg) (d : VReg),
    (MReady s l n h st (aqkNeeds s n (mem s n) fa fb sr) →
      ∃ t o, exec (.aqk h st fa fb tl sr) s = .next t ∧ (mem t n).mat.ops = (mem s n).mat.ops ++ [o] ∧
        o.ins = .aqk h st fa fb tl sr ∧ PageRead s n (aReg (mem s n) fa) (hReg (mem s n) fb) 0 (sK (aReg (mem s n) fa)) o ∧ tagOk (mem t n).mat tl.val = true ∧
        (mem t n).mat.acc = (mem s n).mat.acc ∧ (mem t n).regs = (mem s n).regs ∧ t.dmem = s.dmem) ∧
    (MReady s l n h st (apvNeeds s n (mem s n) fa fb tl sr) →
      ∃ t o, exec (.apv h st fa fb tl sr) s = .next t ∧ (mem t n).mat.ops = (mem s n).mat.ops ++ [o] ∧
        o.ins = .apv h st fa fb tl sr ∧ PageRead s n (aReg (mem s n) fa) (hReg (mem s n) fb) 16384 128 o ∧ (mem t n).mat.tags = (mem s n).mat.tags ∧
        (mem t n).mat.acc = (mem s n).mat.acc ∧ (mem t n).regs = (mem s n).regs ∧ t.dmem = s.dmem) ∧
    (MReady s l n h st (amassNeeds (mem s n) fb tl k) → (mem s n).l.lq.length < 32 → (mem s n).l.sq.length < 32 →
      ∃ (t : State) (e : LEnt), exec (.amass h st fb tl k) s = .next t ∧ e ∈ (mem t n).l.lq ∧ e ∈ (mem t n).l.sq ∧
        e.cap.ins = .amass h st fb tl k ∧ e.begun = false ∧ e.cap.hs = [(fb, hSrcOf (mem s n) fb)] ∧ e.cap.msk = flatK (mem s n) k ∧
        e.cap.vs = [.now (plain (probTile (wordsOf 4 (tslice (cbSeen (mem s n)) (65536 * tl.val) 65536))))] ∧
        (mem t n).l.lq.length = (mem s n).l.lq.length + 1 ∧ (mem t n).l.sq.length = (mem s n).l.sq.length + 1 ∧
        (∀ x ∈ (mem s n).l.lq, x ∈ (mem t n).l.lq) ∧ (∀ x ∈ (mem s n).l.sq, x ∈ (mem t n).l.sq) ∧
        (mem t n).regs = (mem s n).regs ∧ t.dmem = s.dmem) ∧
    (∀ act : Act, curLane s = some l → splitStamp s l st = .ok n → memAct (mem s n) h = act → act ≠ .never →
      needV (mem s n) [d] = .ok () → hPend (hReg (mem s n) fb) = false → (mem s n).mat.f64 = false →
      pageFault s n (hReg (mem s n) fb) (fun _ => []) = none → (flatV (mem s n) d).length ≤ 3 →
      let hd := hReg (mem s n) fb
      let b := (pageRead s (groupAcc s n) hd 32768 768).1
      (∃ t p, exec (.apos h st fb d) s = .next t ∧ (mem t n).regs = (mem s n).regs ∧ t.dmem = s.dmem ∧
        (mem t n).fly.slw.map (fun x => (x.tgt, x.slice, x.res, x.lit, x.due)) =
          (mem s n).fly.slw.map (fun x => (x.tgt, x.slice, x.res, x.lit, x.due)) ++
          cols.map (fun c => (.v d, c, plain (sliceOf c p), actLit act, (mem s n).ctl.gc + 39)) ∧
        ∀ row col, row < 16 → col < 64 → cellAt p (64 * row + col) = BitVec.ofNat 32 (leNat ((b.drop (12 * col + 4)).take 4))) ∧
      ((∀ i, i < 24 → Undisturbed s (siteCtx s n) (hKeyIdx hd) (hBase hd + 32768 + 32 * i)) →
        b = bytesAt s.dmem (hBase hd + 32768) 768)) ∧
    (∀ act : Act, curLane s = some l → splitStamp s l st = .ok n → memAct (mem s n) h = act → act ≠ .never →
      needV (mem s n) [d] = .ok () → hPend (hReg (mem s n) fb) = false → (mem s n).mat.f64 = false →
      let hd := hReg (mem s n) fb
      handleFault hd = none → linesHeld s n hd [(32768, 768)] = none →
      ∀ t : Trap, linesPoison s hd [(32768, 768)] = some t →
        (act = .always → exec (.apos h st fb d) s = .next (laneFault s l t)) ∧
        (act ≠ .always → (flatV (mem s n) d).length ≤ 3 →
          ∃ u p, exec (.apos h st fb d) s = .next u ∧ (mem u n).regs = (mem s n).regs ∧ u.dmem = s.dmem ∧
            (mem u n).fly.slw.map (fun x => (x.tgt, x.slice, x.res, x.lit, x.due)) =
              (mem s n).fly.slw.map (fun x => (x.tgt, x.slice, x.res, x.lit, x.due)) ++
              cols.map (fun c => (.v d, c, [(0, .poison 4 true p)], actLit act, (mem s n).ctl.gc + 39)))) ∧
    (∀ (x : Member) (o : MatOp) (i j : Nat), x.mat.f64 = false → x.mat.acc.length = 4 → i < 128 → j < 128 →
      let mode := mMode x.mat
      let step (acc : Nat) (p : FVal × FVal) : Nat := roundTo fp32 false mode (addNum mode (decodeFp fp32 false acc) (mulNum p.1 p.2))
      let scale (v : Nat) : Nat :=
        if sr = 0 then v else roundTo fp32 false mode (mulNum (decodeFp fp32 false v) (decodeFp fp32 false o.scale.toNat))
      let row (k len : Nat) : List FVal := (List.range len).map (pageElem (sFmt o.fa) (o.page.getD k 0))
      let cell (y : Mat) : Word := tget 0 (accTile y tl.val) (128 * i + j)
      (o.ins = .aqk h st fa fb tl sr → cell (opEnd x o).mat =
        if i < sRows o.fa ∧ j < 64 then
          if o.valid.getLsbD j then nat64 (scale (((opRow o.ab o.fa i).zip (row j (sK o.fa))).foldl step 0)) else 0xff800000
        else 0) ∧
      (o.ins = .aqk h st fa fb tl sr → ∃ cells, (opEnd x o).mat.cbw = x.mat.cbw ++ [(o.stop + 16, cells)] ∧
        (i < sRows o.fa → j < 64 → numAt (overlayAll [] cells) (65536 * tl.val + 512 * i + 4 * j) 4 = (cell (opEnd x o).mat).toNat % 2 ^ 32) ∧
        ∀ c ∈ cells, 65536 * tl.val ≤ c.1 ∧ c.1 < 65536 * tl.val + 512 * sRows o.fa ∧ c.1 % 512 < 256) ∧
      (o.ins = .apv h st fa fb tl sr → sK o.fa = 64 → o.page.length = 64 → cell (opEnd x o).mat =
        if i < sRows o.fa then
          nat64 (((List.range 64).filter fun k => o.valid.getLsbD k).foldl
            (fun acc k => step acc ((opRow o.ab o.fa i).getD k .nan, (row k 128).getD j .nan)) (scale (cell x.mat).toNat))
        else cell x.mat))

/-! ## L -/

namespace Sys2Proof.Claims

open Sys2Proof Sys2Proof.Machine

/-- An instruction of L: what it captures of s, v and h registers and the mask, and its s destination (R219, R222). -/
structure LForm where
  i : Instr
  ss : List SReg
  vs : List VReg
  hs : List HReg
  k : KReg
  d : Option SReg

/-- Loads and prefetches (R226, R231): captured for each pairing, whatever their qualifier's slot. -/
def loadForms (h : Hd) (m : LMem) (w : BitVec 2) (sx : Bool) : List LForm :=
  [⟨.sld h m w sx, [m.o], [], lmH m, 0, none⟩, ⟨.vld h m w sx, [m.o], [], lmH m, m.msk, none⟩,
   ⟨.vldx h m w sx, [], [lmV m], lmH m, m.msk, none⟩, ⟨.pf h m, [m.o], [], lmH m, 0, none⟩]

/-- The accesses of the held class (R159, R226, R229, R230, R232, R235, R236). -/
def storeForms (h : Hd) (m : LMem) (w sz : BitVec 2) (r d a b : SReg) (v : VReg) (hn : HReg) (op : BitVec 4) (imm : BitVec 12)
    (row col : BitVec 4) (fv : Bool) (fn : BitVec 10) : List LForm :=
  [⟨.sst h m r w, [r, m.o], [], lmH m, 0, none⟩, ⟨.vst h m v w, [m.o], [v], lmH m, m.msk, none⟩,
   ⟨.vstx h m v w, [], [v, lmV m], lmH m, m.msk, none⟩, ⟨.atom h d hn a op r sz imm, [r, a], [], [hn], 0, some d⟩,
   ⟨.cas h d hn a r b sz imm, [r, b, a], [], [hn], 0, some d⟩, ⟨.mark h, [], [], [], 0, none⟩,
   ⟨.fence h sz, [], [], [], 0, none⟩, ⟨.zfill h m r, [r, m.o], [], lmH m, 0, none⟩,
   ⟨.pin h m r, [r, m.o], [], lmH m, 0, none⟩, ⟨.unpin h m r, [r, m.o], [], lmH m, 0, none⟩,
   ⟨.tfill h m v w, [m.o], [v], [], 0, none⟩, ⟨.tdrain h m w, [m.o], [], [], 0, none⟩,
   ⟨.rst h v a row col fv fn, [a], [v], [], 0, none⟩]

/-- The entry c holds what the form captures from the registers of a member (R219). -/
def Holds (m : Member) (f : LForm) (c : Cap) : Prop :=
  c.ins = f.i ∧ c.ss = f.ss.map (sSrc m) ∧ c.vs = f.vs.map (vSrcOf m) ∧ c.hs = f.hs.map (fun r => (r, hSrcOf m r)) ∧
  c.msk = flatK m f.k

/-- An L or E lane of a member at issue that reads no register with a write in flight where that is checked (R27). -/
def AtL (s : State) (l : Lane) (n : Nat) (ss : List SReg) (vs : List VReg) (k : KReg) : Prop :=
  curLane s = some l ∧ l.who = .mem n ∧ lHazard s l.who n ss vs k = .ok ()

end Sys2Proof.Claims

/-- R153, R159, R219, R220: a load or prefetch whose qualifier does not turn it off is captured in the load queue with
its operands as they stand; no register, buffer or memory changes; one turned off issues and does nothing.

R159 to R162, R219, R222: an access of the held class that depends on nothing open is captured in the store queue
(atomics, marks, fences and `tdrain` in both), its destination pending; under an open slot, or behind a held entry, it
enters the held-store buffer instead.
Rests on the model's choices of log 45. -/
def Obligations.AccessesCaptured : Prop :=
  (∀ (s : State) (l : Lane) (n : Nat) (h : Hd) (m : LMem) (w : BitVec 2) (sx : Bool),
    ∀ f ∈ loadForms h m w sx, AtL s l n f.ss f.vs f.k →
      (memAct (mem s n) h = .never → exec f.i s = .next (retire s l 1)) ∧
      (memAct (mem s n) h ≠ .never → (mem s n).l.lq.length < 32 →
        (let c := lCap s l n f.i f.ss f.vs f.hs f.k none
         actLit (memAct (mem s n) h) ≠ none ∨ capSplits c = true ∨ checkNow c = true ∨ f.i = .pf h m) →
        ∃ t c, exec f.i s = .next t ∧ Holds (mem s n) f c ∧ c.lit = actLit (memAct (mem s n) h) ∧
          (∃ e ∈ (mem t n).l.lq, e.cap = c ∧ e.begun = false) ∧ (mem t n).l.lq.length = (mem s n).l.lq.length + 1 ∧
          (mem t n).l.sq = (mem s n).l.sq ∧ (mem t n).regs = (mem s n).regs ∧ (mem t n).buf = (mem s n).buf ∧ t.dmem = s.dmem)) ∧
  (∀ (s : State) (l : Lane) (n : Nat) (h : Hd) (m : LMem) (w sz : BitVec 2) (r d a b : SReg) (v : VReg) (hn : HReg)
    (op : BitVec 4) (imm : BitVec 12) (row col : BitVec 4) (fv : Bool) (fn : BitVec 10),
    ∀ f ∈ storeForms h m w sz r d a b v hn op imm row col fv fn, AtL s l n f.ss f.vs f.k →
      let c := lCap s l n f.i f.ss f.vs f.hs f.k (actLit (memAct (mem s n) h))
      (memAct (mem s n) h = .never → exec f.i s = .next (retire s l 1)) ∧
      (memAct (mem s n) h = .always → capSplits c = false → (mem s n).grd.held = [] → checkNow c = true →
        (mem s n).l.lq.length < 32 → (mem s n).l.sq.length < 32 →
        ∃ t e, exec f.i s = .next t ∧ Holds (mem s n) f e.cap ∧ e.begun = false ∧ e ∈ (mem t n).l.sq ∧
          (mem t n).l.sq.length = (mem s n).l.sq.length + 1 ∧ ((lQueues f.i).1 = true → e ∈ (mem t n).l.lq) ∧
          ((lQueues f.i).1 = false → (mem t n).l.lq = (mem s n).l.lq) ∧ t.dmem = s.dmem ∧ (mem t n).buf = (mem s n).buf ∧
          (match f.d with
            | none => (mem t n).regs = (mem s n).regs
            | some x => e.cap.tok = some s.fresh ∧ (x ≠ 0 → (sCell (mem t n) x).pend = some s.fresh ∧
                (sCell (mem t n) x).alts = (sCell (mem s n) x).alts))) ∧
      (memAct (mem s n) h ≠ .never →
        (actLit (memAct (mem s n) h) ≠ none ∨ capSplits c = true ∨ ((mem s n).grd.held ≠ [] ∧ checkNow c = true)) →
        (mem s n).grd.held.length < 16 →
        ∃ t e, exec f.i s = .next t ∧ Holds (mem s n) f e ∧ e.lit = actLit (memAct (mem s n) h) ∧
          (mem t n).grd.held = (mem s n).grd.held ++ [e] ∧ (mem t n).l.sq = (mem s n).l.sq ∧ t.dmem = s.dmem))

/-- R35, R159, R233, R234: `xlat` leaves its handle register pending, to land at the end of tick u + 95, with its address
bound where it is itself pending; one that names a handle still pending waits in L, and so do both instructions under an
open slot. `hrel` clears a handle register with no `xlat` in flight, and leaves another to be cleared once its `xlat` has
landed. With their qualifier against them they do nothing. Both `xlat` and `hrel` complete. -/
def Obligations.HandleInstructions : Prop :=
  ∀ (s : State) (l : Lane) (n : Nat) (h : Hd) (hn : HReg) (o : SReg), curLane s = some l → l.who = .mem n →
    let free := tget 0 (mem s n).regs.hp hn.val = 0
    (memAct (mem s n) h = .always → AtL s l n [o] [] 0 → free → (mem s n).l.hrel.contains hn = false →
      srcSplits (sSrc (mem s n) o) = false →
      ∃ t x, exec (.xlat h hn o) s = .next t ∧ hPend (hReg (mem t n) hn) = true ∧
        (mem t n).fly.lands = (mem s n).fly.lands ++ [x] ∧ x.val = .xlat hn (sSrc (mem s n) o) s.cal false 0 ∧
        ((sCell (mem s n) o).pend = none → x.due = s.cal + 95) ∧ (∀ y, y ≠ hn → hReg (mem t n) y = hReg (mem s n) y) ∧
        (mem t n).regs.s = (mem s n).regs.s ∧ t.dmem = s.dmem) ∧
    (memAct (mem s n) h = .always → ¬ free → exec (.xlat h hn o) s = .next s) ∧
    (memAct (mem s n) h = .always → free →
      ∃ t, exec (.hrel h hn) s = .next t ∧ hReg (mem t n) hn = 0 ∧ (∀ x, x ≠ hn → hReg (mem t n) x = hReg (mem s n) x) ∧
        (mem t n).regs.s = (mem s n).regs.s ∧ t.dmem = s.dmem) ∧
    (memAct (mem s n) h = .always → ¬ free → ∃ t, exec (.hrel h hn) s = .next t ∧
      (mem t n).l.hrel = (mem s n).l.hrel ++ [hn] ∧ (mem t n).regs = (mem s n).regs ∧ t.dmem = s.dmem) ∧
    (memAct (mem s n) h = .never → ∀ i ∈ [Instr.xlat h hn o, .hrel h hn], exec i s = .next (retire s l 1)) ∧
    (∀ x : Lit, memAct (mem s n) h = .lit x →
      ∀ i ∈ [Instr.xlat h hn o, .hrel h hn], exec i s = .next (waitOn s (.mem n) (.litOpen x.1)))

/-! ## Engine commands -/

namespace Sys2Proof.Claims

open Sys2Proof Sys2Proof.Machine

/-- The engine commands that are queued (R245). -/
def commands (e : ECmd) (k : Copy) (g : Coll) (a b c d : SReg) (p : HReg) (f : Bool) (ln : Fin 32) : List Instr :=
  [.cpy e k, .cpyc e k a b c, .cfill e k, .tfetch e k a b, .kick e a b, .collAllReduce e g, .collReduceScatter e g,
   .collAllGather e g, .collAllToAll e g, .collBroadcast e g, .rmerge e p a f b c ln, .rtsnap e p a,
   .hvstKeep e p a f b c, .hvstMass e p a f b c, .hcomp e p, .htrunc e p a, .lkick e a b d, .esync e]

end Sys2Proof.Claims

/-- R245, R248, R253: an engine command that depends on nothing open enters its stream's queue with its operands as
they stand, behind the commands already there, and a `kick` alone leaves a chain open; behind a held entry, or with an
operand of several alternatives, it enters the held-store buffer.

R126, R253: `link` gives an open chain a continuation, or with zero closes it, and is ILLEGAL with no chain open; a
link word of a running chain names its next segment, zero its end, and is ILLEGAL in a lane.
Rests on the model's choices of log 61 and 64. -/
def Obligations.CommandsAndChains : Prop :=
  (∀ (s : State) (l : Lane) (n : Nat) (e : ECmd) (k : Copy) (g : Coll) (a b c d : SReg) (p : HReg) (f : Bool) (ln : Fin 32),
    ∀ i ∈ commands e k g a b c d p f ln, AtL s l n (cmdRegs i ++ cmdStamp i) [] 0 →
      (capSplits (eCap s l n i) = false → (mem s n).grd.held = [] → stampMissed s (eCap s l n i) = false →
        (streamOf (mem s n) e.eng).queue.length < 16 →
        ∃ t x, exec i s = .next t ∧ (streamOf (mem t n) e.eng).queue = (streamOf (mem s n) e.eng).queue ++ [x] ∧
          x.ins = i ∧ x.ss = (cmdRegs i ++ cmdStamp i).map (sSrc (mem s n)) ∧
          x.hs = (cmdHs i).map (fun r => (r, hSrcOf (mem s n) r)) ∧ (streamOf (mem t n) e.eng).open_ = isKick i ∧
          (∀ j, j ≠ e.eng → streamOf (mem t n) j = streamOf (mem s n) j) ∧ (mem t n).regs = (mem s n).regs ∧
          (mem t n).buf = (mem s n).buf ∧ t.dmem = s.dmem) ∧
      (capSplits (eCap s l n i) = true ∨ (mem s n).grd.held ≠ [] → (mem s n).grd.held.length < 16 →
        ∃ t x, exec i s = .next t ∧ (mem t n).grd.held = (mem s n).grd.held ++ [x] ∧ x.ins = i ∧
          streamOf (mem t n) e.eng = streamOf (mem s n) e.eng ∧ t.dmem = s.dmem) ∧
      (capSplits (eCap s l n i) = false → (mem s n).grd.held = [] → stampMissed s (eCap s l n i) = true →
        (streamOf (mem s n) e.eng).queue.length < 16 →
        exec i s = .next (laneFault s l (trapOf .scheduleMiss)))) ∧
  (∀ (s : State) (l : Lane) (n : Nat) (e : ECmd) (c : SReg) (next : BitVec 50),
    let x := streamOf (mem s n) e.eng
    (∀ v : Word, AtL s l n (c :: cmdStamp (.link e c)) [] 0 → capSplits (eCap s l n (.link e c)) = false →
      (mem s n).grd.held = [] → (sCell (mem s n) c).pend = none → (sCell (mem s n) c).alts = plain v →
      stampMissed s (eCap s l n (.link e c)) = false →
      (x.open_ = true → (v = 0 ∨ x.conts.length < 8) →
        ∃ t, exec (.link e c) s = .next t ∧ (mem t n).regs = (mem s n).regs ∧ t.dmem = s.dmem ∧
          (streamOf (mem t n) e.eng).open_ = decide (v ≠ 0) ∧
          (streamOf (mem t n) e.eng).conts = x.conts ++
            if v = 0 then [] else [((x.queue.filter fun c => isKick c.ins).length, v)]) ∧
      (x.open_ = false → ∃ y, exec (.link e c) s = .next (laneFault s l { trapOf .illegal with status := y }))) ∧
    (∀ f ch, s.cur = .chain n e.eng → x.chain = some ch → x.fly.find? (fun f => isKick f.cap.ins) = some f →
      (next ≠ 0 → ∃ t, exec (.linkWord next) s = .next t ∧
        ((streamOf (mem t n) e.eng).chain.map fun k => (k.next, k.entry)) = some (16 * next.toNat, 0) ∧ t.dmem = s.dmem) ∧
      (next = 0 → exec (.linkWord next) s = .next (putFly s n e.eng { f with ph := 4 }))) ∧
    (curLane s = some l → l.who = .mem n → exec (.linkWord next) s = .next (laneFault s l (trapOf .illegal))))

/-! ## What L performs -/

namespace Sys2Proof.Claims

open Sys2Proof Sys2Proof.Machine

/-- An entry that has not begun, unqualified, with single scalar operands and a handle that has landed (R219). -/
def Entry (e : LEnt) (i : Instr) (ss : List Word) (r : HReg) (hd : BitVec 128) : Prop :=
  e.begun = false ∧ e.req = [] ∧ e.cap.ins = i ∧ e.cap.ss = ss.map (fun v => .now (plain v)) ∧ e.cap.vs = [] ∧
  e.cap.hs = [(r, .now hd)] ∧ hPend hd = false ∧ e.cap.lit = none

/-- The entry is in neither queue any more, and the other entries are where they were (R219). -/
def Left (s t : State) (n : Nat) (e : LEnt) : Prop :=
  (mem t n).l.lq = (mem s n).l.lq.filter (fun x => x.cap.seq != e.cap.seq) ∧
  (mem t n).l.sq = (mem s n).l.sq.filter (fun x => x.cap.seq != e.cap.seq)

/-- The signed or unsigned value of an n-byte number (R227). -/
def extended (sx : Bool) (n v : Nat) : Word := if sx ∧ 2 ^ (8 * n - 1) ≤ v then int64 ((v : Int) - 2 ^ (8 * n)) else nat64 v

end Sys2Proof.Claims

/-- R9, R221, R224, R226, R227: an `sld` through a handle performs: LDQ-C takes the little-endian number at the
address, extended as the instruction says, and nothing is written.
Rests on the model's choices of log 44. -/
def Obligations.LoadPerforms : Prop :=
  ∀ (s : State) (n : Nat) (e : LEnt) (h : Hd) (m : LMem) (w : BitVec 2) (sx : Bool) (o : Word) (r : HReg) (hd : BitVec 128) (pa : Nat),
    headLoad (mem s n) = some e → Entry e (.sld h m w sx) [o] r hd → m.as = 0 →
    lmOff m o.toNat % 2 ^ w.toNat = 0 → hAddr hd .r (lmOff m o.toNat) (2 ^ w.toNat) = .ok pa →
    Undisturbed s (siteCtx s n) (hKeyIdx hd) pa → heldBefore (mem s n) e.cap.seq = false →
    (mem s n).l.ordC.head? = some e.cap.seq → (mem s n).l.bindC = [] → entries (mem s n).l.ldqC < 16 →
    ∃ t, exec (.lLoadPerform n 0) s = .next t ∧ Left s t n e ∧ t.dmem = s.dmem ∧ (mem t n).regs = (mem s n).regs ∧
      (mem t n).l.ldqC = (mem s n).l.ldqC ++ [plain (extended sx (2 ^ w.toNat) (numAt s.dmem pa (2 ^ w.toNat)))]

/-- R9, R226, R227, R431: an `sst` through a handle performs: the bytes of its register stand at the address, and every
other byte of device memory is as before.
Rests on the model's choices of log 44. -/
def Obligations.StorePerforms : Prop :=
  ∀ (s : State) (n : Nat) (e : LEnt) (h : Hd) (m : LMem) (w : BitVec 2) (x : SReg) (v o : Word) (r : HReg) (hd : BitVec 128) (pa : Nat),
    headStore (mem s n) = some e → Entry e (.sst h m x w) [v, o] r hd → m.as = 0 →
    lmOff m o.toNat % 2 ^ w.toNat = 0 → hAddr hd .w (lmOff m o.toNat) (2 ^ w.toNat) = .ok pa →
    Undisturbed s (siteCtx s n) (hKeyIdx hd) pa →
    ∃ t, exec (.lStorePerform n 0) s = .next t ∧ Left s t n e ∧ (mem t n).regs = (mem s n).regs ∧
      ∀ a, byteAt t.dmem a =
        if pa ≤ a ∧ a < pa + 2 ^ w.toNat then BitVec.ofNat 8 (v.toNat / 256 ^ (a - pa)) else byteAt s.dmem a

/-- R222, R229, R282: an `atom` performs as one step: the word at the address takes the result of its operation on what
it held, what it held is on its way to its destination, and no other byte changes; a `cas` writes only where the word is the one
compared.
Rests on the model's choices of log 14. -/
def Obligations.AtomicPerforms : Prop :=
  ∀ (s : State) (n : Nat) (e : LEnt) (h : Hd) (d x y z : SReg) (sz : BitVec 2) (imm : BitVec 12) (v nv o : Word) (r : HReg)
    (hd : BitVec 128) (pa tok : Nat),
    headBoth (mem s n) = some e → e.cap.tok = some tok → sz.toNat < 2 →
    let len := 4 * 2 ^ sz.toNat
    let off := (o.toNat + imm.toNat) % 2 ^ 64
    off % len = 0 → hAddr hd .a off len = .ok pa → Undisturbed s (siteCtx s n) (hKeyIdx hd) pa →
    let old := numAt s.dmem pa len
    let after (new : Option Nat) (t : State) : Prop :=
      (∀ x ∈ (mem t n).l.lq ++ (mem t n).l.sq, x.cap.seq ≠ e.cap.seq) ∧ (∀ a, (a < pa ∨ pa + len ≤ a) → byteAt t.dmem a = byteAt s.dmem a) ∧ numAt t.dmem pa len = new.getD old ∧
      (mem t n).regs = (mem s n).regs ∧ ∃ x : Land, (mem t n).fly.lands = (mem s n).fly.lands ++ [x] ∧ x.tok = tok ∧
        x.val = .answer (plain (nat64 old)) ∧ x.due ≤ s.cal
    (∀ op : BitVec 4, op.toNat ≤ 8 → Entry e (.atom h d r z op x sz imm) [v, o] r hd →
      ∃ t, exec (.atomicPerform n) s = .next t ∧ after (some (atomOp op.toNat len old (v.toNat % 2 ^ (8 * len)) % 2 ^ (8 * len))) t) ∧
    (Entry e (.cas h d r z x y sz imm) [v, nv, o] r hd →
      ∃ t, exec (.atomicPerform n) s = .next t ∧
        after (if old = v.toNat % 2 ^ (8 * len) then some (nv.toNat % 2 ^ (8 * len)) else none) t)

/-- R230, R290: a `mark`, and a `fence` whose member has nothing outstanding outside the module or whose scope is not
`.sys`, perform at both heads and change no register and no memory.

R42, R239, R240: a flag update of a member performs at both heads: an own flag takes the sum, the value or the
difference; a post that would pass the greatest value leaves it there and is a terminal fault FLAG_OVERFLOW, a decrement past zero
leaves zero and is FLAG_UNDERFLOW.
Rests on the model's choice of log 29: the member retires in the same event. -/
def Obligations.OrderingAndFlagsPerform : Prop :=
  (∀ (s : State) (n : Nat) (e : LEnt) (h : Hd) (sc : BitVec 2), headBoth (mem s n) = some e →
    (e.cap.ins = .mark h → ∃ t, exec (.markPerform n) s = .next t ∧ Left s t n e ∧ (mem t n).regs = (mem s n).regs ∧
      (mem t n).buf = (mem s n).buf ∧ t.dmem = s.dmem) ∧
    (e.cap.ins = .fence h sc → (sc ≠ 3 ∨ s.outs = []) → ∃ t, exec (.fencePerform n) s = .next t ∧ Left s t n e ∧
      (mem t n).regs = (mem s n).regs ∧ (mem t n).buf = (mem s n).buf ∧ t.dmem = s.dmem)) ∧
  (∀ (s : State) (n : Nat) (e : LEnt) (h : Hd) (f : FlagRef) (sc : BitVec 2) (v : FlagVal) (vals : List Word),
    headBoth (mem s n) = some e → f.fk = 0 → (sc ≠ 3 ∨ s.outs = []) → e.cap.ss = vals.map (fun v => .now (plain v)) →
    e.cap.vs = [] →
    let k : FlagKey := .own n f.fn.toNat
    let x := valOfField v vals
    let does (y : Word32) : Prop := ∃ t, exec (.flagUpdatePerform n) s = .next t ∧ Left s t n e ∧ flagVal t k = y ∧
      (mem t n).regs = (mem s n).regs ∧ t.dmem = s.dmem ∧ ∀ j, j ≠ k → flagVal t j = flagVal s j
    (e.cap.ins = .fset h f sc v → does x) ∧
    (e.cap.ins = .fpost h f sc v → (flagVal s k).toNat + x.toNat < 2 ^ 32 → does (flagVal s k + x)) ∧
    (e.cap.ins = .fdec h f sc v → x.toNat ≤ (flagVal s k).toNat → does (flagVal s k - x)) ∧
    (Unwatched s → (mem s n).ctl.trap = none → launchSites s (bindOf s n).launch = [n] →
      let ends (y : Word32) (code : Word) (P : State → Prop) : Prop := ∃ t, exec (.flagUpdatePerform n) s = .next t ∧ flagVal t k = y ∧
        (mem t n).ctl.life = .retired ∧ (mem t n).spr.cause = code ∧ P t
      (e.cap.ins = .fpost h f sc v → 2 ^ 32 ≤ (flagVal s k).toNat + x.toNat → ends 0xffffffff 0x08 fun t => (mem t n).spr.oflow = true) ∧
      (e.cap.ins = .fdec h f sc v → (flagVal s k).toNat < x.toNat → ends 0 0x07 fun t => (mem t n).spr.uflow = true)))

/-- R44, R235: `tfill` with every named slot empty writes its register there, sets them full and leaves; `tdrain` with every named slot full sets
them empty and leaves; device memory is as before. Both events, `tfillPerform` and `tdrainPerform`, complete. -/
def Obligations.TileSlots : Prop :=
  ∀ (s : State) (n : Nat) (e : LEnt) (h : Hd) (m : LMem) (x : VReg) (w : BitVec 2) (v : List Word × List Cells) (hd : BitVec 128),
    storeReady e.cap = .go v hd → spanOk e.cap.ins (some 0) e.cap.msk v.1 v.2 = true →
    let b := m.as.toNat
    let off := lmOff m (w0 v.1)
    let slots := if w = 1 then [off / 2048] else [off / 2048, off / 2048 + 1]
    let e' := if w = 1 then 2 else 4
    (headStore (mem s n) = some e → e.cap.ins = .tfill h m x w →
      (∀ k ∈ slots, slotReady (mem s n) b k false = true) →
      (∀ i, i < 32 * e' → rankOk (mem s n) b (off + 32 * i) 1 = true) →
      ∃ t, exec (.tfillPerform n) s = .next t ∧ Left s t n e ∧ t.dmem = s.dmem ∧ (mem t n).regs = (mem s n).regs ∧
        (∀ k ∈ slots, slotFull (mem t n) b k = true) ∧
        ((∀ i, i < 32 * e' → tget [] s.accs (bufLoc n b (off + 32 * i) / 32) = []) → off % 32 = 0 → 1 ≤ b →
          ∀ i, i < 1024 → numAt (bufMem (mem t n) b) (off + e' * i) e' = (cellAt (v.2.headD []) i).toNat % 256 ^ e')) ∧
    (headBoth (mem s n) = some e → e.cap.ins = .tdrain h m w →
      (∀ k ∈ slots, slotReady (mem s n) b k true = true) →
      ∃ t, exec (.tdrainPerform n) s = .next t ∧ Left s t n e ∧ t.dmem = s.dmem ∧ (mem t n).regs = (mem s n).regs ∧
        ∀ k ∈ slots, slotFull (mem t n) b k = false)

/-- Pins that a context has on a line (R306). -/
def Sys2Proof.Claims.pinsOn (s : State) (ctx pa : Nat) : Nat :=
  ((lineTag s pa).map fun t => ((t.pins.filter fun x => x.ctx == ctx).map Pin.count).sum).getD 0

/-- The tags of L2: canonical, no line twice in a set, and no pin entry that counts none. -/
def Sys2Proof.Claims.LinesOk (s : State) : Prop :=
  twf [] s.l2 = true ∧ ∀ k, ((tget [] s.l2 k).map Tag.tag).Nodup ∧ ∀ t ∈ tget [] s.l2 k, ∀ p ∈ t.pins, 1 ≤ p.count

/-- R232, R306 to R308: a `pin` that is granted delivers 0 to LDQ-C, one that is refused delivers 1; one that was
deferred does so in the same way when it may be granted; an `unpin` leaves. A grant adds one pin of the context to each line it names,
and so one for each to what counts against its quota at the line's slice; an `unpin` takes one away from each. A request past that
quota, or on a line of 255 pins, is refused. Both events, `pinPerform` and
`pinDeferredGrant`, complete.
Rests on the model's choices of log 48. -/
def Obligations.Pins : Prop :=
  ∀ (s : State) (n : Nat) (e : LEnt) (h : Hd) (m : LMem) (x : SReg) (v : List Word × List Cells) (hd : BitVec 128),
    headStore (mem s n) = some e → storeReady e.cap = .go v hd → spanOk e.cap.ins (some hd) e.cap.msk v.1 v.2 = true →
    hValid hd = true → hRead hd = true →
    (e.cap.ins = .pin h m x → (mem s n).l.ordC.head? = some e.cap.seq → (mem s n).l.bindC = [] → entries (mem s n).l.ldqC < 16 →
      ∀ i ∈ [Instr.pinPerform n, .pinDeferredGrant n false],
        (judgePins s (siteCtx s n) (pinLines hd (lmOff m (w1 v.1)) (w0 v.1)) = .granted →
          nextFetch s (pinLines hd (lmOff m (w1 v.1)) (w0 v.1)) e.left = none →
          ∃ t, exec i s = .next t ∧ Left s t n e ∧ (mem t n).l.ldqC = (mem s n).l.ldqC ++ [plain 0] ∧ t.dmem = s.dmem ∧
            let ctx := siteCtx s n
            let lines := pinLines hd (lmOff m (w1 v.1)) (w0 v.1)
            (LinesOk s → (∀ pa ∈ lines, (lineTag s pa).isSome = true) →
              (∀ c pa, pa < 2 ^ 38 → pinsOn t c pa = pinsOn s c pa + if c = ctx then lines.countP (fun l => l / 128 == pa / 128) else 0) ∧
              ∀ sl, pinsAt t ctx sl = pinsAt s ctx sl + lines.countP (fun l => sliceOfPa l == sl)) ∧
            ∀ pa, LinesOk s → lines = [pa] → lineTag s pa = none → pinsOn t ctx pa = 1) ∧
        (judgePins s (siteCtx s n) (pinLines hd (lmOff m (w1 v.1)) (w0 v.1)) = .refused → e.begun = false →
          ∃ t, exec i s = .next t ∧ Left s t n e ∧ (mem t n).l.ldqC = (mem s n).l.ldqC ++ [plain 1] ∧ t.l2 = s.l2 ∧
            t.dmem = s.dmem)) ∧
    (e.cap.ins = .unpin h m x → ∃ t, exec (.pinPerform n) s = .next t ∧ Left s t n e ∧ t.dmem = s.dmem ∧
      (mem t n).l.ldqC = (mem s n).l.ldqC ∧ (LinesOk s → ∀ c pa, pa < 2 ^ 38 → pinsOn t c pa = pinsOn s c pa -
        if c = siteCtx s n then (pinLines hd (lmOff m (w1 v.1)) (w0 v.1)).countP (fun l => l / 128 == pa / 128) else 0)) ∧
    ∀ (ctx pa : Nat) (lines : List Nat), pa ∈ lines →
      (min 15360 (quotaOf s ctx).pinq.toNat < pinsAt s ctx (sliceOfPa pa) + lines.countP (fun l => sliceOfPa l == sliceOfPa pa)) ∨
        255 ≤ ((lineTag s pa).map tagPins).getD 0 → judgePins s ctx lines = .refused

/-- R216, R236: the last chunk of an `rst` stands in the target's AB, its armed flag is incremented, and the entry
leaves; the update of one slot of an `amass` adds to the mass of that slot, and the next slot follows. Both events,
`rstPerform` and `amassUpdatePerform`, complete.
Rests on the model's choices of log 51 and 58. -/
def Obligations.RemoteStoresAndMass : Prop :=
  ∀ (s : State) (n : Nat) (e : LEnt) (h : Hd) (hd : BitVec 128),
    (∀ (r : VReg) (o : SReg) (row col : BitVec 4) (fn : BitVec 10) (v : List Word × List Cells) (k : Nat),
      headStore (mem s n) = some e → e.cap.ins = .rst h r o row col true fn → storeReady e.cap = .go v hd →
      spanOk e.cap.ins none e.cap.msk v.1 v.2 = true → reachable s n (rstSite e.cap.ins) = true → e.begun = true → e.left = [k] →
      rankOk (mem s (rstSite e.cap.ins)) 2 (w0 v.1 + 32 * k) 7 = true →
      tget false (mem s (rstSite e.cap.ins)).buf.armed fn.toNat = true →
      (flagVal s (.own (rstSite e.cap.ins) fn.toNat)).toNat + 1 < 2 ^ 32 → tget [] s.accs (bufLoc (rstSite e.cap.ins) 2 (w0 v.1 + 32 * k) / 32) = [] →
      ∃ t, exec (.rstPerform n) s = .next t ∧ Left s t n e ∧ t.dmem = s.dmem ∧
        flagVal t (.own (rstSite e.cap.ins) fn.toNat) = flagVal s (.own (rstSite e.cap.ins) fn.toNat) + 1 ∧
        ∀ i, i < 8 → numAt (mem t (rstSite e.cap.ins)).buf.ab (w0 v.1 + 32 * k + 4 * i) 4 =
          (cellAt (v.2.headD []) (8 * k + i)).toNat) ∧
    (∀ (st : SReg) (fb : HReg) (tl : Fin 16) (q : KReg) (p : Cells) (j : Nat) (rest : List Nat) (pa : Nat),
      headBoth (mem s n) = some e → e.cap.ins = .amass h st fb tl q → e.cap.ss = [] → e.cap.vs = [.now (plain p)] →
      e.cap.hs = [(fb, .now hd)] → hPend hd = false → hBig hd = false → e.req = [] → e.begun = true → e.left = j :: rest →
      hAddr hd .a (32768 + 12 * j) 4 = .ok pa → pa % 4 = 0 → Undisturbed s (siteCtx s n) (hKeyIdx hd) pa →
      ∃ t, exec (.amassUpdatePerform n) s = .next t ∧ numAt t.dmem pa 4 = massOf e.cap p j (numAt s.dmem pa 4) % 2 ^ 32 ∧
        (∀ a, (a < pa ∨ pa + 4 ≤ a) → byteAt t.dmem a = byteAt s.dmem a) ∧ (mem t n).regs = (mem s n).regs ∧
        (rest = [] → Left s t n e) ∧
        (rest ≠ [] → ∃ f ∈ (mem t n).l.lq, f.cap.seq = e.cap.seq ∧ f.left = rest))

/-- R162, R164, R326: the oldest held entry whose conditions have resolved for it enters L's queues, and one resolved
against it is discarded; the reissue of a recorded load lands its data in the register that waits; a refill that finds
the page translated lets L go on at the faulting entry.

R44, R387: a lookup core whose `lsend` waits delivers its tile once the slot is empty and no core of a lower number waits
for the same, and the slot is full; an engine stream takes a step of its oldest command that can take one. Each of the
four events completes.
Rests on the model's choices of log 50 and 72. -/
def Obligations.DeferredAndWaitingWork : Prop :=
  (∀ (s : State) (n : Nat),
    (∀ (c : Cap) (rest : List Cap), (mem s n).grd.held = c :: rest → heldResolved c = true →
      (heldHolds c = false → c.tok = none → (∀ h m r, c.ins ≠ .pin h m r) →
        ∃ t, exec (.heldEntryLeaves n) s = .next t ∧ (mem t n).grd.held = rest ∧ (mem t n).l = (mem s n).l ∧
          (mem t n).regs = (mem s n).regs ∧ t.dmem = s.dmem) ∧
      (heldHolds c = true → capPoison c = none → checkNow c = true → (lQueues c.ins).2 = true → (c.tok = none → ∀ h o d, c.ins ≠ .barj h o d) →
        heldRoom (mem s n) c.ins = true →
        ∃ t, exec (.heldEntryLeaves n) s = .next t ∧ (mem t n).grd.held = rest ∧ (∃ e ∈ (mem t n).l.sq, e.cap = c) ∧
          (mem t n).regs = (mem s n).regs ∧ t.dmem = s.dmem)) ∧
    (∀ (e : LEnt) (h : Hd) (m : LMem) (w : BitVec 2) (sx : Bool) (o : Word) (r : HReg) (hd : BitVec 128) (pa tok k : Nat),
      (mem s n).l.defer.find? (fun x => x.1.cap.seq == tok && x.2) = some (e, true) →
      Entry e (.sld h m w sx) [o] r hd → m.as = 0 → lmOff m o.toNat % 2 ^ w.toNat = 0 → e.cap.tok = some k →
      hAddr hd .r (lmOff m o.toNat) (2 ^ w.toNat) = .ok pa → Undisturbed s (siteCtx s n) (hKeyIdx hd) pa →
      ∃ t, exec (.deferredAccessReissue n tok) s = .next t ∧ t.dmem = s.dmem ∧
        (mem t n).l.defer = (mem s n).l.defer.filter (fun x => x.1.cap.seq != e.cap.seq) ∧
        ((∀ z ∈ (mem s n).fly.landed, z.1 ∉ waitingS (mem s n) k) →
        ∀ q, (sCell (mem s n) q).pend = some k → extended sx (2 ^ w.toNat) (numAt s.dmem pa (2 ^ w.toNat)) ≠ 0 →
          sCell (mem t n) q = { alts := plain (extended sx (2 ^ w.toNat) (numAt s.dmem pa (2 ^ w.toNat))), pend := none })) ∧
    (∀ (x : Replay) (e : LEnt), s.replays.find? (fun r => r.site == n && r.src == .l) = some x →
      ((mem s n).l.lq ++ (mem s n).l.sq).find? (fun e => e.cap.seq == x.seq) = some e → x.seq ∈ (mem s n).l.halts →
      hValid (translate s (siteCtx s n) (hVa (capHandle e.cap))) = true → migrating s (siteCtx s n) x.va.toNat = false →
      ∃ t, exec (.refill n .l) s = .next t ∧ (mem t n).l.halts = (mem s n).l.halts.filter (fun k => k != x.seq) ∧
        t.replays = s.replays.filter (fun y => y != x) ∧ t.dmem = s.dmem)) ∧
  (∀ (s : State) (n : Nat) (e : Fin 4) (f : Fly) (rest : List Fly),
    ((mem s n).ctl.life = .running → (streamOf (mem s n) e).fly = f :: rest → flyStep s n e f ≠ s →
      exec (.slotWaiterProceeds (.eng n e)) s = .next (flyStep s n e f)) ∧
    (∀ (k site slot : Nat) (l : QLane) (ls : List QLane),
      (lookupCore s k).send = some (site, slot) → slotReady (mem s site) 2 slot false = true →
      (∀ i, i < 64 → rankOk (mem s site) 2 (2048 * slot + 32 * i) 6 = true) →
      (∀ p ∈ s.lookups, p.1 < k → p.2.send ≠ some (site, slot)) → (lookupCore s k).fetch.lanes = l :: ls →
      ∃ t, exec (.slotWaiterProceeds (.lookup k)) s = .next t ∧ (lookupCore t k).send = none ∧ (lookupCore t k).work = none ∧
        slotFull (mem t site) 2 slot = true ∧ (mem t site).regs = (mem s site).regs ∧ t.dmem = s.dmem ∧
        ((∀ i, i < 64 → tget [] s.accs (bufLoc site 2 (2048 * slot + 32 * i) / 32) = []) →
          ∀ j, j < 2048 → byteAt (mem t site).buf.ab (2048 * slot + j) =
            ((lookupCore s k).ot ++ List.replicate 2048 0).getD j 0)))

/-! ## What the engines move and compute -/

namespace Sys2Proof.Claims

open Sys2Proof Sys2Proof.Machine

/-- A copy by its captured registers r (R254, R255, R257): source and destination space (0 global, 1 WB, 2 AB, 3 CB, 4 the pattern
of a fill), rows, and the offsets at which chunk c of row w is read and written. -/
def copySpec (i : Instr) (r : Nat → Nat) : Option (Nat × Nat × Nat × (Nat → Nat → Nat) × (Nat → Nat → Nat)) :=
  let routes : List (Nat × Nat) := [(0, 1), (0, 2), (2, 0), (3, 0), (0, 0)]
  let flat (o : Nat) (_ c : Nat) : Nat := o + 32 * c
  let rows (o stride : Nat) (w c : Nat) : Nat := o + w * stride + 32 * c
  match i with
  | .cpy _ k => (routes[k.pair.toNat]?).map fun p => (p.1, p.2, 1, flat (r 1), flat (r 0))
  | .cfill _ k => (([1, 2, 3, 0] : List Nat)[k.pair.toNat]?).map fun d => (4, d, 1, flat (r 1), flat (r 0))
  | .cpyc _ k _ _ _ => (routes[k.pair.toNat]?).map fun p => (p.1, p.2, r 3, rows (r 1) (r 5), rows (r 0) (r 4))
  | .tfetch _ k _ _ => (routes[k.pair.toNat]?).map fun p => (p.1, p.2, r 3, rows (r 1) (r 4), rows (r 0) (r 2))
  | _ => none

/-- Source handle, destination handle and FE of a copy (R254, R256). -/
def copyOf : Instr → Option Copy
  | .cpy _ k | .cfill _ k | .cpyc _ k _ _ _ | .tfetch _ k _ _ => some k
  | _ => none

/-- A chunk of a typed buffer that an agent of a rank may take now: not poisoned, no other access to it on record (R279, R300). -/
def BufQuiet (s : State) (n b off rank : Nat) : Prop :=
  rankOk (mem s n) b off rank = true ∧ tget false (mem s n).buf.bad (badKey b off) = false ∧ tget [] s.accs (bufLoc n b off / 32) = []

/-- A command at work between its small accesses, with nothing sent outside and its handles valid (R247). -/
def AtWork (f : Fly) (ph : Nat) : Prop :=
  f.ph = ph ∧ f.fail = none ∧ f.ops = [] ∧ f.req = [] ∧ ∀ p ∈ f.hs, hValid p.2 = true

/-- One step of the command leaves it as f' beside a state of which P holds. -/
def Works (s : State) (n : Nat) (e : Fin 4) (f f' : Fly) (P : State → Prop) : Prop :=
  ∃ u, flyStep s n e f = putFly u n e f' ∧ P u

/-- The order of R374's candidates: ascending mass, NaN above every number, equal masses by position. -/
def massBefore (x y : KvSlot) : Prop :=
  let a := decodeFp fp32 false x.mass
  let b := decodeFp fp32 false y.mass
  (a.isNan = false ∧ b.isNan = true) ∨ (a.isNan = false ∧ b.isNan = false ∧ ltNum a b = true) ∨
  (((a.isNan = true ∧ b.isNan = true) ∨ (a.isNan = false ∧ b.isNan = false ∧ eqNum a b = true)) ∧ x.pos < y.pos)

/-- A slot that `hvst` never removes (R374). -/
def kept (f : Fly) (x : KvSlot) : Bool :=
  x.flags.getLsbD 1 || x.flags.getLsbD 2 || decide ((BitVec.ofNat 32 (aptNum f 16 4)).toInt - ((regN f 1 % 2 ^ 32 : Nat) : Int) ≤ x.pos)

end Sys2Proof.Claims

/-- R254 to R260, R374 to R376, R398, R399: what a step of an engine's command moves or computes. A copy reads the chunks of its rows in
order from its source, or makes them of its pattern, and writes each where the rule puts it; an access to the context's space
reads or writes the bytes it names. An element of an `rmerge` becomes the sum of what it was and the copies in the order of
their owners. An `rtsnap` takes the 256 counters of its die in one step, which clears them, and then writes them. `hvst`, `hcomp` and
`htrunc` remove and keep the slots their rules name, with the metadata, the pages and the map that follow. A participant of a collective
gives the chunks of its source; a piece of a reduction is the loop of R399 over the ranks, and the other kinds give the pieces R398 names.
Rests on the model's choices of log 42 and 59. -/
def Obligations.EngineData : Prop :=
  (∀ (s : State) (n : Nat) (e : Fin 4) (f : Fly) (k : Copy) (src dst rn : Nat) (so do' : Nat → Nat → Nat) (at_ : Nat),
    copyOf f.cap.ins = some k → copySpec f.cap.ins (regN f) = some (src, dst, rn, so, do') →
    let per := regN f 2 / 32
    let total := if regN f 2 = 0 then 0 else rn * per
    let sh := flyH f k.sh
    let dh := flyH f k.dh
    let so := so (at_ / per) (at_ % per)
    let do_ := do' (at_ / per) (at_ % per)
    (AtWork f 1 → geoHandle (geoOf f) = none → geoOk f (geoOf f) = true →
      (∀ e k a b, f.cap.ins = .tfetch e k a b → judgePins s (siteCtx s n) (tfLines (geoOf f)) = .granted ∧
        nextFetch s (tfLines (geoOf f)) f.aux.tail = none) →
      ∃ t g, flyStep s n e f = t ∧ (findFly s n e f.idx = some f → findFly t n e f.idx = some g) ∧ g = { f with ph := 2, aux := [0, 0, total] } ∧
        t.dmem = s.dmem) ∧
    (AtWork f 2 → f.aux = [at_, at_, total] → at_ < total → f.wr = [] →
      let reads (b : List Byte) : Prop := Works s n e f { f with aux := [at_ + 1, at_, total], wr := [(at_, b)] } fun u =>
        u.dmem = s.dmem ∧ (mem u n).buf = (mem s n).buf
      (src = 4 → reads ((List.replicate 8 (leBytes 4 (regN f 1 % 2 ^ 32))).flatten)) ∧
      (src = 0 → Undisturbed s (siteCtx s n) (hKeyIdx sh) (hBase sh + so) → (hBase sh + so) % 32 = 0 →
        reads (bytesAt s.dmem (hBase sh + so) 32)) ∧
      (src = 2 ∨ src = 3 → k.fe = false → BufQuiet s n src so 0 → reads (bytesAt (bufMem (mem s n) src) so 32))) ∧
    (∀ b : List Byte, AtWork f 2 → f.aux = [at_ + 1, at_, total] → at_ < total → f.wr = [(at_, b)] → b.length = 32 → findFly s n e f.idx = some f →
      copyOverlaps f (geoOf f) (at_ + 1) total do_ = false →
      (dst = 0 → Undisturbed s (siteCtx s n) (hKeyIdx dh) (hBase dh + do_) → (hBase dh + do_) % 32 = 0 →
        Works s n e f { f with aux := [at_ + 1, at_ + 1, total], wr := [] } fun u => ∀ a, byteAt u.dmem a =
          if hBase dh + do_ ≤ a ∧ a < hBase dh + do_ + 32 then b.getD (a - (hBase dh + do_)) 0 else byteAt s.dmem a) ∧
      (1 ≤ dst → k.fe = false → (dst = 3 → cbDue (mem s n) do_ = false) → BufQuiet s n dst do_ (if e = 0 then 3 else 4) →
        do_ % 32 = 0 → Works s n e f { f with aux := [at_ + 1, at_ + 1, total], wr := [] } fun u => u.dmem = s.dmem ∧
          ∀ a, byteAt (bufMem (mem u n) dst) a =
            if do_ ≤ a ∧ a < do_ + 32 then b.getD (a - do_) 0 else byteAt (bufMem (mem s n) dst) a)) ∧
    (AtWork f 2 → f.aux = [total, total, total] → flyStep s n e f = putFly s n e { f with ph := donePh })) ∧
  (∀ (s : State) (n : Nat) (e : Fin 4) (f : Fly) (rest : List MicroOp) (pa va key : Nat), f.ph = 1 ∨ (∀ p ∈ f.hs, hValid p.2 = true) →
    f.fail = none → f.req = [] → opKey s n f va = some key → Undisturbed s (siteCtx s n) key pa →
    (∀ k, f.ops = .read pa va k :: rest → pa % 32 + k ≤ 32 →
      Works s n e f { f with ops := rest, got := setBytes f.got va (bytesAt s.dmem pa k) } fun u => u.dmem = s.dmem) ∧
    (∀ dst, f.ops = .move pa dst va :: rest → pa % 32 = 0 →
      Works s n e f { f with ops := .write dst va (bytesAt s.dmem pa 32) :: rest } fun u => u.dmem = s.dmem) ∧
    (∀ b : List Byte, f.ops = .write pa va b :: rest → pa % 32 + b.length ≤ 32 →
      Works s n e f { f with ops := rest } fun u => ∀ a, byteAt u.dmem a =
        if pa ≤ a ∧ a < pa + b.length then b.getD (a - pa) 0 else byteAt s.dmem a)) ∧
  (∀ (s : State) (n : Nat) (e : Fin 4) (f : Fly) (ec : ECmd) (dh : HReg) (d ct nc : SReg) (ty : Bool) (ln : Fin 32) (ans el c guess : Nat) (vas : List Nat),
    f.cap.ins = .rmerge ec dh d ty ct nc ln → AtWork f 3 → f.aux = ans :: el :: c :: guess :: vas → 4 * el < regN f 3 →
    (el % 8 ≠ 0 ∨ vas.length ≤ c) →
    let pa := hBase (flyH f dh) + regN f 0 + 4 * el
    pa % 4 = 0 → Undisturbed s (siteCtx s n) (hKeyIdx (flyH f dh)) pa →
    let sum := vas.foldl (fun acc v =>
      let x := numAt f.got (v + 4 * el) 4
      if ty then (acc + x) % 2 ^ 32 else roundTo fp32 false .rne (addNum .rne (decodeFp fp32 false acc) (decodeFp fp32 false x)))
      (numAt s.dmem pa 4)
    ∃ u g, flyStep s n e f = putFly u n e g ∧ g.ph = 3 ∧ g.aux.getD 1 0 = el + 1 ∧ g.fail = none ∧ g.cap = f.cap ∧ g.regs = f.regs ∧
      numAt u.dmem pa 4 = sum % 2 ^ 32 ∧ ∀ a, (a < pa ∨ pa + 4 ≤ a) → byteAt u.dmem a = byteAt s.dmem a) ∧
  (∀ (s : State) (n : Nat) (e : Fin 4) (f : Fly) (ec : ECmd) (dh : HReg) (d : SReg) (t0 : Nat), f.cap.ins = .rtsnap ec dh d → AtWork f 1 →
    f.aux = [t0] → t0 < s.cal →
    let h := flyH f dh
    let off := regN f 0
    handleBad h [.w] = none → off % 32 = 0 → off + 1024 ≤ hBytes h → windowOf (hBase h + off) = .dev →
    ∃ u ops, flyStep s n e f = putFly u n e { f with ph := 2, aux := [], ops := ops } ∧ ops.length = 32 ∧ u.dmem = s.dmem ∧
      (∀ j, tget 0 u.rtbank j = if j / 256 = dieOf n then 0 else tget 0 s.rtbank j) ∧
      ∀ i, i < 32 → ops[i]? = some (.write (hBase h + off + 32 * i) (hVa h + off + 32 * i)
        ((List.range 8).flatMap fun j => leBytes 4 (tget 0 s.rtbank (256 * dieOf n + 8 * i + j)).toNat))) ∧
  (∀ (f : Fly) (ec : ECmd) (p : HReg) (a w d : SReg) (dk : Bool),
    let cands := (validNow f).filter fun x => !kept f x
    let sv := survivors f
    (validNow f = (slotsNow f).filter fun x => x.flags.getLsbD 0) ∧
    (f.cap.ins = .hvstKeep ec p a dk w d → ∃ l : List KvSlot, l.Perm cands ∧ l.Pairwise (fun x y => ¬ massBefore y x) ∧
      removedNow f = l.take ((validNow f).length - regN f 0 % 2 ^ 32)) ∧
    (f.cap.ins = .hvstMass ec p a dk w d → ∀ x, x ∈ removedNow f ↔
      x ∈ cands ∧ ltNum (decodeFp fp32 false x.mass) (decodeFp fp32 false (regN f 0 % 2 ^ 32)) = true) ∧
    (f.cap.ins = .hcomp ec p → removedNow f = []) ∧
    sv.Perm ((validNow f).filter fun x => !(removedNow f).contains x) ∧ sv.Pairwise (fun x y => x.pos ≤ y.pos) ∧
    ((∃ dk, f.cap.ins = .hvstKeep ec p a dk w d ∨ f.cap.ins = .hvstMass ec p a dk w d) ∨ f.cap.ins = .hcomp ec p →
      mapNext f = (List.range ((sv.length + 63) / 64)).map fun b => aptNum f (32832 + 8 * (poolNow f - 1 - b)) 8) ∧
    (∀ x ∈ validNow f,
      let age := x.flags.toNat / 2 ^ 16
      let flags (age : Nat) : Nat := 65536 * age + x.flags.toNat / 2 % 4 * 2 + 1
      let bytes (mass age : Nat) : List Byte := leBytes 4 mass ++ leBytes 4 (BitVec.ofInt 32 x.pos).toNat ++ leBytes 4 (flags age)
      (f.cap.ins = .hcomp ec p → newMeta f x = bytes x.mass age) ∧
      (f.cap.ins = .hvstKeep ec p a dk w d ∨ f.cap.ins = .hvstMass ec p a dk w d → newMeta f x = bytes
        (if dk then roundTo fp32 false .rne (mulNum (decodeFp fp32 false x.mass) (decodeFp fp32 false (regN f 2 % 2 ^ 32))) else x.mass)
        (min 65535 (age + 1)))) ∧
    (f.cap.ins = .htrunc ec p a →
      let len := (BitVec.ofNat 32 (regN f 0)).toInt
      cutNow f = ((validNow f).filter fun x => decide (len ≤ x.pos)) ∧
      mapNext f = (pagesNow f).filter fun va => (validNow f).any fun x => x.page == va && decide (x.pos < len))) ∧
  (∀ (s : State) (n : Nat) (f : Fly) (ops : List MicroOp), buildOps s n f = .ok ops →
    ((∀ ec p a, f.cap.ins ≠ .htrunc ec p a) → ∀ i x b va c, (survivors f)[i]? = some x → b = i / 64 → (mapNext f)[b]? = some va → c < 16 →
      let o := (if c < 8 then 0 else 16384) + 32 * (c % 8)
      ∃ src dst, vaPiece s n (x.page + 256 * x.j + o) 32 .r = .ok src ∧ vaPiece s n (va + 256 * (i % 64) + o) 32 .w = .ok dst ∧
        MicroOp.move src dst (va + 256 * (i % 64) + o) ∈ ops) ∧
    (∀ ec p a, f.cap.ins = .htrunc ec p a → ∀ x ∈ cutNow f, ∃ pa, vaPiece s n (x.page + 32768 + 12 * x.j + 8) 4 .w = .ok pa ∧
      MicroOp.write pa (x.page + 32768 + 12 * x.j + 8) (leBytes 4 (x.flags &&& 0xffff0006).toNat) ∈ ops)) ∧
  (∀ (s : State) (n : Nat) (f : Fly) (kind r sent nth : Nat) (k : Coll) (g : Grp), collOf f.cap.ins = some (kind, k) → AtWork f 4 →
    f.aux = [r, sent, 0, 0, nth] → grpOf s n f = some g → grpDiffers s n f g = false → grpFits f k g = true → r < grpPieces g →
    BufQuiet s n 2 (regN f 1 + 32 * r) 0 →
    ∃ u c, flyStep s n 2 f = putFly u n 2 { f with aux := [r + 1, sent, 0, 0, nth] } ∧ u.collIn = s.collIn ++ [c] ∧ c.piece = r ∧
      c.rank = g.rank ∧ c.tag = g.tag ∧ c.nth = nth ∧ c.final = false ∧ c.data = bytesAt (mem s n).buf.ab (regN f 1 + 32 * r) 32) ∧
  (∀ (s : State) (id : Word32) (g : Grp) (nth q : Nat) (P : Nat → Nat → List Byte), g.nmod = 1 → g.self = 0 → g.switch = false →
    g.p = g.sites.length → 1 ≤ g.p → (∀ piece, finalAt s id g nth piece = none) →
    (∀ rank piece, rank < g.p → piece < g.ln / 32 → pieceAt s id g nth rank piece false = some (P rank piece)) → g.root < g.p → g.rank < g.p →
    let b := grpBlock g / 32
    1 ≤ b →
    let f := collFmt g.fmt
    let w := f.width / 8
    let el (x : List Byte) (j : Nat) : Nat := leNat ((x.drop (w * j)).take w)
    let val (x : Nat) : FVal := decodeFp f true x
    let joined (acc x : Nat) : Nat := roundTo f false .rne (match g.red with
      | 0 => addNum .rne (val acc) (val x)
      | 1 => minMax true (val acc) (val x)
      | _ => minMax false (val acc) (val x))
    let reduced (piece : Nat) : Prop := ∃ x, destPiece s id g nth q = some x ∧ x.length = 32 ∧ ∀ j, j < 32 / w → el x j =
      ((List.range (g.p - 1)).map (· + 1)).foldl (fun acc r => joined acc (el (P r piece) j)) (roundTo f false .rne (val (el (P 0 piece) j)))
    (g.kind = 0 → q < b → reduced q) ∧ (g.kind = 1 → q < b → reduced (g.rank * b + q)) ∧
    (g.kind = 2 → q / b < g.p → destPiece s id g nth q = some (P (q / b) (q % b))) ∧
    (g.kind = 3 → q / b < g.p → destPiece s id g nth q = some (P (q / b) (g.rank * b + q % b))) ∧
    (g.kind = 4 → q < b → destPiece s id g nth q = some (P g.root q)))

/-! ## What happens beside the lanes -/

namespace Sys2Proof.Claims

open Sys2Proof Sys2Proof.Machine

/-- An event of a member happens: it leaves a state of which P holds, and poison that then survives in a register is
dealt with (R164). -/
def LandsIn (i : Instr) (s : State) (n : Nat) (P : State → Prop) : Prop :=
  ∃ u, P u ∧ exec i s = .next (surviveAll 64 u n) ∧ (poisonS (mem u n) = none → poisonV (mem u n) = none → exec i s = .next u)

/-- An event happens and leaves a state of which P holds. -/
def Happens (i : Instr) (s : State) (P : State → Prop) : Prop := ∃ t, exec i s = .next t ∧ P t

/-- Registers of a member and device memory are as before. -/
def Keeps (s t : State) (n : Nat) : Prop := (mem t n).regs = (mem s n).regs ∧ t.dmem = s.dmem

/-- What a launch has become. -/
def Became (t : State) (id : Word32) (P : Launch → Prop) : Prop := ∃ y, findLaunch t id = some y ∧ P y

end Sys2Proof.Claims

/-- R20, R22: the next line of an agent that fetches is present once its L lanes and commands have room; a freeze or a
stall is over when its condition is.
Rests on the model's choices of log 22. -/
def Obligations.FetchAndFreezes : Prop :=
  ∀ (s : State) (n : Nat) (f : Fetch) (new : List QLane) (x : Hold),
    (fetches s (.mem n) = true → nextLine s (.mem n) = some (f, new) → roomFor (mem s n) new = true →
      Happens (.fetchLinePresent (.site n)) s fun t => (mem t n).ctl.fetch = f ∧ Keeps s t n) ∧
    (fetches s (.hnd n) = true → nextLine s (.hnd n) = some (f, new) → roomFor (mem s n) new = true →
      Happens (.fetchLinePresent (.handler n)) s fun t => (mem t n).ui.fetch = f ∧ Keeps s t n) ∧
    (fetches s (.lk n) = true → nextLine s (.lk n) = some (f, new) →
      Happens (.fetchLinePresent (.lookup n)) s fun t =>
        (lookupCore t n).fetch = f ∧ (lookupCore t n).s = (lookupCore s n).s ∧ t.dmem = s.dmem) ∧
    (n < 256 → lRuns (mem s n) = true → (mem s n).ctl.frz = some x → holdOver s n x = true →
      Happens (.freezeRelease n) s fun t => (mem t n).ctl.frz = none ∧ Keeps s t n) ∧
    ((lookupCore s n).hold = some x → holdOverL s n x = true →
      Happens (.freezeRelease (256 + n)) s fun t => (lookupCore t n).hold = none ∧ (lookupCore t n).s = (lookupCore s n).s ∧
        t.dmem = s.dmem)

/-- R16, R24, R25, R26, R31, R45, R151, R158, R187, R233, R268, R270, R382, R423: what lands at the end of a tick. A fixed-latency
result takes its place in the register (in the shadow for s56 to s63 of a handler); what `wrsr` sent in its special register,
each field as R45 has it; a timed value in every register that waits for it; a handle in its register; a counter sample in its landing; an addition in the routing-counter bank; and a
slot whose outcome is known becomes free and keeps it, while the registers lose the alternatives it rules out.
Rests on the model's choices of log 33 and 144. -/
def Obligations.ValuesLand : Prop :=
  ∀ (s : State) (n tok k : Nat) (x : SWrite) (y : Land) (v : Word),
    ((mem s n).ctl.fin = false → cycleRuns (mem s n) = true → (mem s n).fly.waves = [] → (mem s n).fly.slw = [] → (mem s n).fly.sw = [x] → x.due ≤ (mem s n).ctl.gc → x.reg ≠ 0 →
      (∀ z ∈ (mem s n).fly.landed, z.1 ≠ x.reg) →
      LandsIn (.fixedLatencyWrite (.site n)) s n fun u => (mem u n).fly.sw = [] ∧ u.dmem = s.dmem ∧
        sCell (mem u n) x.reg =
          { alts := landAlts (sCell (mem s n) x.reg).alts x.res x.lit x.out, pend := (sCell (mem s n) x.reg).pend }) ∧
    (∀ sn : Nat, (mem s n).ctl.fin = false → (mem s n).fly.waves = [] → (mem s n).fly.slw = [] → (mem s n).fly.sw = [] →
      (mem s n).fly.spr = [(sn, v)] →
      LandsIn (.fixedLatencyWrite (.site n)) s n fun u => u.dmem = s.dmem ∧ (mem u n).regs = (mem s n).regs ∧
        let p := (mem s n).spr
        let q := (mem u n).spr
        let lo := v.toNat % 2 ^ 32
        (if sn = 0x00 then q.uien = v.getLsbD 14 ∧ q.rmode.toNat = (if v.toNat / 2 ^ 11 % 8 < 4 then v.toNat / 2 ^ 11 % 8 else p.rmode.toNat) ∧
            q.oflow = (p.oflow && !v.getLsbD 8) ∧ q.slip = (p.slip && !v.getLsbD 7) ∧ q.uflow = (p.uflow && !v.getLsbD 6) ∧
            q.coll = (p.coll && !v.getLsbD 5)
          else q.uien = p.uien ∧ q.rmode = p.rmode ∧ q.oflow = p.oflow ∧ q.slip = p.slip ∧ q.uflow = p.uflow ∧ q.coll = p.coll) ∧
        q.rngKey.toNat = (if sn = 0x10 then p.rngKey.toNat / 2 ^ 32 * 2 ^ 32 + lo
          else if sn = 0x11 then lo * 2 ^ 32 + p.rngKey.toNat % 2 ^ 32 else p.rngKey.toNat) ∧
        (∀ k, k < 4 → q.rngCtr.toNat / 2 ^ (32 * k) % 2 ^ 32 =
          if sn = 0x12 + k then lo else p.rngCtr.toNat / 2 ^ (32 * k) % 2 ^ 32) ∧
        q.uiVector = (if sn = 0x18 then v else p.uiVector) ∧
        q.perfSel.toNat = (if sn = 0x20 then v.toNat % 512 else p.perfSel.toNat) ∧
        q.traceCtl.toNat = (if sn = 0x21 then v.toNat / 2 ^ 12 % 16 * 2 ^ 12 + v.toNat % 32 else p.traceCtl.toNat) ∧
        q.chkRaw = p.chkRaw ∧ q.cause = p.cause ∧ q.faultVa = p.faultVa ∧ q.faultInfo = p.faultInfo ∧ q.uiCause = p.uiCause) ∧
    (uiTimed (mem s n) = true → (mem s n).ui.fly = [x] → x.due ≤ (mem s n).ui.cyc → x.reg ≠ 0 →
      x.res = plain v →
      Happens (.fixedLatencyWrite (.handler n)) s fun t => (mem t n).ui.fly = [] ∧ t.dmem = s.dmem ∧
        (x.reg.val < 56 → (sCell (mem t n) x.reg).alts = plain v) ∧
        (56 ≤ x.reg.val → tget 0 (mem t n).regs.shadow (x.reg.val - 56) = v ∧ (mem t n).regs.s = (mem s n).regs.s)) ∧
    ((lookupCore s k).run = true → (lookupCore s k).hold = none → (lookupCore s k).halted = false → (lookupCore s k).lands = [] →
      (lookupCore s k).fly = [x] → x.due ≤ (lookupCore s k).cyc → x.res = plain v →
      Happens (.fixedLatencyWrite (.lookup k)) s fun t => (lookupCore t k).fly = [] ∧ t.dmem = s.dmem ∧
        tget 0 (lookupCore t k).s x.reg.val = v) ∧
    (landOf (mem s n) tok = some y → y.due ≤ s.cal → y.lit = none → y.out = [] → v ≠ 0 →
      (∀ z ∈ (mem s n).fly.landed, z.1 ∉ waitingS (mem s n) tok) →
      (y.val = .s (plain v) ∨ y.val = .answer (plain v) ∨ ∃ f, y.val = .flag f ∧ v = (flagVal s f).setWidth 64) →
      LandsIn (.pendingValueLands n tok) s n fun u => landOf (mem u n) tok = none ∧ u.dmem = s.dmem ∧
        ∀ q, (sCell (mem s n) q).pend = some tok → sCell (mem u n) q = { alts := plain v, pend := none }) ∧
    (∀ (r : HReg) (at_ : Nat) (gen : BitVec 16), (mem s n).fly.lands = [y] → y.due ≤ s.cal →
      y.val = .xlat r (.now (plain v)) at_ false gen →
      Happens (.xlatResult n r) s fun t => (mem t n).fly.lands = [] ∧ t.dmem = s.dmem ∧ (mem t n).regs.s = (mem s n).regs.s ∧
        (tget 0 (mem s n).regs.hp r.val = y.tok + 1 →
          hReg (mem t n) r = translate s (siteCtx s n) v.toNat ∧ tget 0 (mem t n).regs.hp r.val = 0)) ∧
    (∀ (ev : BitVec 9) (op : BitVec 2) (sites : Alts (List Nat)) (at_ : Nat), landOf (mem s n) tok = some y →
      y.val = .pcread ev op sites at_ → at_ ≤ s.cal →
      Happens (.pcreadSample n tok) s fun t => Keeps s t n ∧
        landOf (mem t n) tok = some { y with val := .s (mapAlts (combine s ev.toNat op.toNat) sites) }) ∧
    (∀ (g e : Nat), columnsRun (mem s n) = true → (mem s n).fly.rtc = [(g, [e])] → g ≤ (mem s n).ctl.gc →
      Happens (.rtcntBankUpdate n) s fun t => Keeps s t n ∧ (mem t n).fly.rtc = [] ∧ ∀ j, tget 0 t.rtbank j =
        if j = 256 * dieOf n + e ∧ tget 0 s.rtbank j ≠ 0xffffffff then tget 0 s.rtbank j + 1 else tget 0 s.rtbank j) ∧
    (∀ (q : QSlot) (o : Bool), slotOutcome s n (slotOf (mem s n) q) = some o →
      LandsIn (.guardResolution n q) s n fun u => slotOf (mem u n) q = { src := none, kept := o, due := none } ∧ u.dmem = s.dmem ∧
        (twf SCell.zero (mem s n).regs.s = true → ∀ r, r ≠ 0 →
          sCell (mem u n) r = { alts := resolveAlts q o (sCell (mem s n) r).alts, pend := (sCell (mem s n) r).pend })) ∧
    (isBound (mem s n) = true → traceOn s n 2 = true → (tget TraceSt.reset s.traceSt n).sampled = false → s.phase = .fin →
      s.cal % 2 ^ (10 + (mem s n).spr.traceCtl.toNat / 2 ^ 12 % 16) = 0 →
      Happens (.traceSample n) s fun t => (tget TraceSt.reset t.traceSt n).sampled = true ∧ mem t n = mem s n)

/-- R199 to R202: the end of an occupancy changes the accumulators and sets the slots it consumed empty; CB takes the
bytes of a write whose group cycle has come; a wake completes in its tick; a sub-array of no use for SLEEP group cycles
falls asleep.
Rests on the model's choices of log 56. -/
def Obligations.MatrixTicks : Prop :=
  ∀ (s : State) (n g : Nat) (k : Fin 16) (o : MatOp) (cells : List Host.Cell),
    (columnsRun (mem s n) = true → (mem s n).mat.cbw = [(g, cells)] → g ≤ (mem s n).ctl.gc →
      (∀ c ∈ cells, tget 0 (mem s n).buf.order (badKey 3 c.1) ≤ 2) →
      Happens (.mCbWrite n) s fun t => Keeps s t n ∧ (mem t n).mat.cbw = [] ∧ (mem t n).mat.acc = (mem s n).mat.acc ∧
        (mem t n).buf.wb = (mem s n).buf.wb ∧ (mem t n).buf.ab = (mem s n).buf.ab ∧
        (mem t n).buf.cb = overlayAll (mem s n).buf.cb cells) ∧
    (∀ (h : Hd) (st : SReg) (fa fb : AReg) (tl : Fin 16) (nt : Fin 4),
      columnsRun (mem s n) = true → (mem s n).mat.ops = [o] → o.ins = .mmac h st fa fb tl nt → o.stop ≤ (mem s n).ctl.gc →
      (∀ p ∈ o.rels, p.1 = 1 ∨ p.1 = 2) →
      Happens (.mOperandSlotsSetEmpty n) s fun t => Keeps s t n ∧ (mem t n).mat = macEnd { (mem s n).mat with ops := [] } o ∧
        ∀ p ∈ o.rels, slotFull (mem t n) p.1 p.2 = false) ∧
    (∀ w, (subOf (mem s n) k).waking = some w → w ≤ s.cal →
      Happens (.subarrayWakeComplete n k) s fun t => Keeps s t n ∧ (subOf (mem t n) k).asleep = false ∧
        (subOf (mem t n) k).waking = none ∧ ∀ j : Fin 16, j ≠ k → subOf (mem t n) j = subOf (mem s n) j) ∧
    (groupRuns (mem s n) = true → (mem s n).ctl.sleep ≠ 0 → (subOf (mem s n) k).asleep = false →
      (subOf (mem s n) k).idle + (mem s n).ctl.sleep ≤ (mem s n).ctl.gc →
      Happens (.subarraySleep n k) s fun t => Keeps s t n ∧ (subOf (mem t n) k).asleep = true ∧
        ∀ j : Fin 16, j ≠ k → subOf (mem t n) j = subOf (mem s n) j)

/-- R146, R149, R266, R269, R272, R408, R425: a handler is entered with the oldest request's cause; a member with nothing
in flight is parked; a record goes from its prologue to its kernel, from one kernel iteration to the next or to the epilogue, and from
its epilogue to the line after its `lrec`; a kernel iteration longer than LONGEST, or one that leaves a loop active that
it started, is the terminal fault ILLEGAL; a halted member with nothing left to do retires, and
its launch with the last of them; and a debugger stops, steps and resumes a member.
Rests on the model's choices of log 29, 67, 97 and 98. -/
def Obligations.MembersGoOn : Prop :=
  ∀ (s : State) (n : Nat) (r : RecRun) (st : List Level),
    (canEnter (mem s n) = true → lkEntryOk (updMem s n enterUi) n (mem s n).spr.uiVector.toNat = true →
      Happens (.uiEntry n) s fun t => Keeps s t n ∧ (mem t n).ui.active = true ∧
        (mem t n).spr.uiCause = (mem s n).ui.reqs.headD 0 ∧ (mem t n).ui.fetch.pc = (mem s n).spr.uiVector.toNat) ∧
    ((mem s n).ctl.life = .parking → canPark (mem s n) = true →
      Happens (.memberPark n) s fun t => Keeps s t n ∧ (mem t n).ctl.life = .parked) ∧
    (phaseOver (mem s n) = some (r, st) → groupRuns (mem s n) = true →
      let b := max r.zero r.fin
      let f := (mem s n).ctl.fetch
      b ≤ (mem s n).ctl.gc →
      (r.phase = .pro → Happens (.recordBoundary n) s fun t => Keeps s t n ∧ (mem t n).ctl.life = (mem s n).ctl.life ∧
        (f.steps = [r] → runRcd (mem t n) = some { nextStep r with zero := b } ∧ (nextStep r).phase = .ker ∧ (nextStep r).j = 0 ∧
          (mem t n).ctl.fetch.pc = r.ker.1) ∧
        ∀ x rest, f.steps = r :: x :: rest → runRcd (mem t n) = some { x with zero := b } ∧ (mem t n).ctl.fetch.lanes = f.lanes) ∧
      (r.phase = .ker → r.loopBad = false → (f.steps = [r] → ∀ x ∈ st, x.inner = false) → b ≤ r.zero + r.longest →
        r.yieldint = 0 → r.yieldAsked = false → (mem s n).ctl.dbg = .run →
        Happens (.recordBoundary n) s fun t => Keeps s t n ∧
          (f.steps = [r] → ∃ y, runRcd (mem t n) = some y ∧ y.zero = b ∧ (mem t n).ctl.fetch.pc = (extentOf y).1 ∧
            (r.j + 1 < r.n + r.stages - 1 → y.phase = .ker ∧ y.j = r.j + 1) ∧
            (r.n + r.stages - 1 ≤ r.j + 1 → y.phase = .epi)) ∧
          ∀ x rest, f.steps = r :: x :: rest → runRcd (mem t n) = some { x with zero := b } ∧ (mem t n).ctl.fetch.lanes = f.lanes) ∧
      (r.phase = .ker → r.loopBad = true ∨ r.zero + r.longest < b → Unwatched s → (mem s n).ctl.trap = none →
        launchSites s (bindOf s n).launch = [n] →
        Happens (.recordBoundary n) s fun t => (mem t n).spr.cause = nat64 (kindCode .illegal) ∧ (mem t n).ctl.life = .retired ∧
          (mem t n).regs = (mem s n).regs) ∧
      (r.phase = .epi → Happens (.recordBoundary n) s fun t => Keeps s t n ∧ (mem t n).ctl.fetch.rcd = none ∧
        (mem t n).ctl.fetch.pc = r.ret ∧ (mem t n).ctl.fetch.pres = b + 6)) ∧
    (runRcd (mem s n) = some r → r.phase = .ker → groupRuns (mem s n) = true → phaseOver (mem s n) = none →
      r.zero + r.longest ≤ (mem s n).ctl.gc → Unwatched s → (mem s n).ctl.trap = none → launchSites s (bindOf s n).launch = [n] →
      Happens (.recordLongestExceeded n) s fun t => (mem t n).spr.cause = nat64 (kindCode .illegal) ∧
        (mem t n).ctl.life = .retired ∧ (mem t n).regs = (mem s n).regs) ∧
    (canRetire (mem s n) = true → launchSites s (bindOf s n).launch = [n] →
      Happens (.memberRetire n) s fun t => (mem t n).ctl.life = .retired ∧ (mem t n).regs = (mem s n).regs ∧
        ∀ x, findLaunch s (bindOf s n).launch = some x → Became t (bindOf s n).launch fun y =>
          y.state = .ended ∧ y.status = 0 ∧ y.owed = true) ∧
    (breakOn s n = true → isBound (mem s n) = true → (mem s n).ctl.dbg = .run →
      Happens (.dbgStop n) s fun t => Keeps s t n ∧ (mem t n).ctl.dbg = .asked 2 0) ∧
    (∀ c, (mem s n).ctl.dbg = .stopped c →
      (Happens (.dbgStep n) s fun t => Keeps s t n ∧ (mem t n).ctl.dbg = .stepping) ∧
      (Happens (.dbgResume n) s fun t => (mem t n).regs = (mem s n).regs ∧ (mem t n).ctl.dbg = .run))

/-- R247 to R250, R258, R371, R373: what the engines do with their commands. A command starts when nothing holds it, and
takes its consume tokens; one that is done completes, posting its produce token; one that failed with PAGE or
STALE_HANDLE stops its stream, with a replayable record, until the stream restarts it; a chunk of a collective whose
pieces have come is written to its tile slot, which is then full; LOCK is taken where it is 0 and tried again where it
is not; and a Harvest command reads the count of readers again until there is none, and goes on then.
Rests on the model's choices of log 62, 66 and 61. -/
def Obligations.EngineCommands : Prop :=
  ∀ (s : State) (n : Nat) (e : Fin 4) (c : Cap) (f : Fly) (idx : BitVec 32),
    let x := streamOf (mem s n) e
    (stampDue s n e = none → s.phase ≠ .start → readyCmd (mem s n) e = some (c, false) → (∀ t, stampOf c = some t → t ≤ s.cal) →
      (cmdTokens c.ins = [] → Happens (.engineCommandStart n e) s fun t => Keeps s t n ∧ ∃ g : Fly,
        (streamOf (mem t n) e).fly = x.fly ++ [g] ∧ g.cap = c ∧ g.idx = x.idx ∧ g.fromChain = false ∧
        (streamOf (mem t n) e).idx = x.idx + 1 ∧ (streamOf (mem t n) e).queue = x.queue.tail) ∧
      (∀ k : FlagTok, cmdTokens c.ins = [k] → c.taken = 0 → c.since = none → flagVal s (tokKey n k) ≠ 0 →
        Happens (.engineCommandStart n e) s fun t => flagVal t (tokKey n k) = flagVal s (tokKey n k) - 1 ∧ Keeps s t n ∧
          (streamOf (mem t n) e).fly.length = x.fly.length + 1)) ∧
    (∀ (i : Nat) (d : ECmd), idx = BitVec.ofNat 32 i → findFly s n e idx = some f → mayComplete x f = true →
      unseen s (.eng n e) (clockOf s f.agent) = [] → cmdOf f.cap.ins = some d → d.ui = false → collOf f.cap.ins = none →
      (d.produce = none → Happens (.engineCommandComplete n e i) s fun t => Keeps s t n ∧
        (streamOf (mem t n) e).fly = x.fly.filter fun y => y.idx != f.idx) ∧
      (∀ k : FlagTok, d.produce = some k → (flagVal s (tokKey n k)).toNat + 1 < 2 ^ 32 →
        Happens (.engineCommandComplete n e i) s fun t => Keeps s t n ∧
          flagVal t (tokKey n k) = flagVal s (tokKey n k) + 1 ∧
          (streamOf (mem t n) e).fly = x.fly.filter fun y => y.idx != f.idx)) ∧
    (∀ (i detail va : Nat) (k : Kind), idx = BitVec.ofNat 32 i → findFly s n e idx = some f → lockOwed f = false →
      f.fail = some (k, detail, va) → x.stopped = none → k = .page ∨ k = .staleHandle →
      Happens (.engineCommandFail n e i) s fun t => (mem t n).regs = (mem s n).regs ∧
        (collOf f.cap.ins = none → t.dmem = s.dmem) ∧ (streamOf (mem t n) e).stopped = some f ∧
        (streamOf (mem t n) e).fly = x.fly.filter (fun y => y.idx != idx) ∧
        (∃ r, t.recs = s.recs ++ [r] ∧ r.replay = true ∧ r.cause.toNat = kindCode k) ∧ t.replays.length = s.replays.length + 1) ∧
    (x.stopped = some f → f.fromChain = false → (∀ next, f.cap.ins ≠ .linkWord next) →
      (s.replays.any fun r => r.site == n && r.src == .stream e) = false →
      Happens (.streamRestart n e) s fun t => Keeps s t n ∧ (streamOf (mem t n) e).stopped = none ∧
        ∃ g ∈ (streamOf (mem t n) e).fly, g.cap = f.cap ∧ g.regs = f.regs ∧ g.hs = f.hs ∧ g.idx = f.idx ∧ g.fail = none ∧ g.ph = 1) ∧
    (∀ (i chunk kind : Nat) (k : Coll) (g : Grp) (l : List (List Byte)) (u : State), idx = BitVec.ofNat 32 i →
      findFly s n 2 idx = some f → collOf f.cap.ins = some (kind, k) → grpOf s n f = some g → f.ph = 4 → f.fail = none →
      f.ops = [] → f.aux.getD 2 0 = 0 → (f.wr.any fun p => p.1 == chunk) = false → 2048 * chunk < grpDest g →
      destChunk s (bindOf s n).launch g (nthOf f) chunk = some l → k.dg = false →
      let off := regN f 3 + 2048 * chunk
      slotReady (mem s n) 2 (off / 2048) false = true →
      deliverPieces { engAcc s n 2 f with clk := joinClock (engAcc s n 2 f).clk (slotClock s n 2 (off / 2048)) } n off s 0 l = some u →
      Happens (.collChunkArrives n i chunk) s fun t => slotFull (mem t n) 2 (off / 2048) = true ∧
        (mem t n).buf.ab = (mem u n).buf.ab ∧ t.dmem = s.dmem) ∧
    ((streamOf (mem s n) 3).fly.find? (fun g => isHarvest g.cap.ins && g.ph == 10) = some f → f.fail = none → f.req = [] →
      f.aux = [] → f.wr = [] → n < 256 →
      let pa := hBase (aptOf f) + 4
      pa % 32 ≤ 28 → Undisturbed s (siteCtx s n) (hKeyIdx (aptOf f)) pa →
      (numAt s.dmem pa 4 = 0 → Happens (.harvestLock n) s fun t => numAt t.dmem pa 4 = holder n ∧
        (∃ g ∈ (streamOf (mem t n) 3).fly, g.idx = f.idx ∧ g.ph = 11) ∧
        ∀ a, (a < pa ∨ pa + 4 ≤ a) → byteAt t.dmem a = byteAt s.dmem a) ∧
      (numAt s.dmem pa 4 ≠ 0 → Happens (.harvestLock n) s fun t => Keeps s t n ∧
        ∃ g ∈ (streamOf (mem t n) 3).fly, g.idx = f.idx ∧ g.ph = 10 ∧ g.aux = [2, s.cal])) ∧
    ((streamOf (mem s n) 3).fly.find? (fun g => isHarvest g.cap.ins && g.ph == 17) = some f → f.ops = [] → f.fail = none → triedNow s f = false →
      let off := 8 + 4 * mapNow f
      let goes (P : Fly → Prop) : Prop := Happens (.harvestDrain n) s fun t => Keeps s t n ∧
        ∃ g ∈ (streamOf (mem t n) 3).fly, g.idx = f.idx ∧ P g
      (f.aux ≠ [1] → goes fun g => g.ph = 17 ∧ g.ops = aptReads f off 4 ∧ g.aux = [1]) ∧
      (f.aux = [1] → aptNum f off 4 = 0 → goes fun g => g.ph = 18 ∧ g.ops = []) ∧
      (f.aux = [1] → aptNum f off 4 ≠ 0 → goes fun g => g.ph = 17 ∧ g.ops = [] ∧ g.aux = [2, s.cal]))

/-! ## Launches -/

/-- R333 to R344: from a doorbell to T0. A doorbell moves its queue's tail; a launch that waits too long rises a class; the
firmware refuses a malformed record with cause 6, and arms the sites of a sound one; a bind turns its members' records into
members that load, or refuses the launch with cause 2; a member loads its arguments into s1 onward; and in T0 its group
cycle 0 begins.
Rests on the model's choices of log 74, 149, 77 and 35. -/
def Obligations.LaunchesBegin : Prop :=
  ∀ (s : State) (q : Nat) (l : Launch) (id : Word32) (n : Nat),
    (∀ (func idx : Nat) (tail : Word32), doorbellQueue s func idx = some q → s.flr.contains func = false →
      (queueOf s q).en = true → (tail - (queueOf s q).head).toNat ≤ 2 ^ (queueOf s q).logn.toNat →
      Happens (.doorbell func idx tail) s fun t => (queueOf t q).tail = tail ∧ (queueOf t q).head = (queueOf s q).head ∧
        t.dmem = s.dmem) ∧
    (∀ since, (queueOf s q).since = some since → hasRecord (queueOf s q) = true → since + 2 ^ 30 < s.cal → classOf (queueOf s q) < 7 →
      Happens (.launchClassRaise q) s fun t => classOf (queueOf t q) = classOf (queueOf s q) + 1) ∧
    (∀ p : Placement, s.bootStatus = 0xff → (queueOf s q).func.toNat = s.tenant → s.flr.contains (queueOf s q).func.toNat = false →
      p.resume = none → hasRecord (queueOf s q) = true →
      let w := queueOf s q
      let at_ := w.base.toNat * 4096 + 128 * (w.head.toNat % 2 ^ w.logn.toNat)
      windowOf at_ = .dev → anyDebug s = false → (∀ i, i < 4 → tget none s.dkey (at_ / 32 + i) = none) →
      let r := launchRec (bytesAt s.dmem at_ 128)
      let new := newLaunch q w r
      mayTake (raiseDue s) q = true →
      (r.sound = false → Happens (.launchSelect q p) s fun t => (queueOf t q).head = w.head + 1 ∧
        Became t new.id fun y => y.state = .ended ∧ y.status = 1 ∧ y.cause = 6 ∧ y.owed = true) ∧
      (∀ (img : List Byte) (origin : Nat) (p' : Placement) (copied : Bool) (u : State), recordCause s w r = none →
        imageFor (raiseDue s) r.ctx r.image p = (.ok (img, p', copied), u) →
        (if copied then classBad img r = false ∧ p'.watts ≤ s.powerCap else imageCause img r p' s.powerCap = none) → r.nargs = 0 → r.nflag = 0 → r.nbar = 0 →
        placeOrigin img p'.sites = some origin → (∀ k ∈ p'.sites, siteFree u k = true) → p'.imgPA % 32 = 0 →
        (∀ x ∈ u.launches, x.id ≠ new.id) → u.launches = s.launches → u.queues = (raiseDue s).queues →
        Happens (.launchSelect q p) s fun t => (queueOf t q).head = w.head + 1 ∧
          (Became t new.id fun y => y.state = .armed ∧ y.sites = p.sites ∧ y.t0 = p.t0 ∧ y.ctx = new.ctx) ∧
          ∀ k ∈ p.sites, (bindOf t k).state = 1 ∧ (bindOf t k).launch = new.id ∧ (bindOf t k).ctx = new.ctx)) ∧
    (findLaunch s id = some l → l.id = id → l.state = .armed → powerFits s l = false →
      exec (.bindGo id) s = .next { s with bindGo := id }) ∧
    (findLaunch s id = some l → l.id = id → l.state = .armed → l.areas = [] → l.bars = [] → l.graph = false → powerFits s l = true →
      (bindOk s l = true → numAt s.dmem ((bindOf s (l.sites.headD 0)).image.toNat + 6) 1 % 2 = 1 →
        Happens (.bindGo id) s fun t => (Became t id fun y => y.state = .bound) ∧ t.bindGo = id ∧
          ∀ k ∈ l.sites, (mem t k).ctl.life = .loading) ∧
      (bindOk s l = false → Happens (.bindGo id) s fun t => t.members = s.members ∧
        Became t id fun y => y.state = .ended ∧ y.status = 1 ∧ y.cause = 2 ∧ y.owed = true)) ∧
    ((mem s n).ctl.life = .loading → (bindOf s n).mode.getLsbD 5 = false → loadBad s n = false →
      Happens (.memberLoadComplete n true) s fun t => (mem t n).ctl.life = .loaded ∧ t.dmem = s.dmem ∧
        (mem t n).ctl.fetch.pc = numAt s.dmem ((bindOf s n).image.toNat + 12) 4 ∧
        ∀ i : Fin 64, 1 ≤ i.val → sCell (mem t n) i = { pend := none, alts := plain (
          if i.val ≤ (bindOf s n).nargs.toNat % 64 then nat64 (numAt s.dmem ((bindOf s n).args.toNat + 8 * (i.val - 1)) 8) else 0) }) ∧
    (findLaunch s id = some l → l.id = id → startsNow s l = true → l.areas = [] → (∀ k ∈ l.sites, (mem s k).ctl.life = .loaded) →
      Happens (.t0Start id) s fun t => (Became t id fun y => y.state = .running) ∧
        ∀ k ∈ l.sites, (mem t k).ctl.life = .running ∧ (mem t k).regs = (mem s k).regs ∧ (mem t k).ctl.gc = (mem s k).ctl.gc)

/-- R337, R347, R348, R351, R404, R436, R437: how launches end. The firmware kills one with status 3, the watchdog ends one
at its DEADLINE with WAIT_TIMEOUT; the completion word of an ended one is written where it asked; a reset of a function
leaves no launch of it and then returns its queues to reset; a power cap is clamped to its range, and a draw past it by
more than 5 %, or one that has not come back under it since, kills the newest bound launch; and tenants change once a switch is due and nothing of the old one is bound.
Rests on the model's choices of log 29, 87, 80, 89 and 155. -/
def Obligations.LaunchesEnd : Prop :=
  ∀ (s : State) (id : Word32) (l : Launch),
    (findLaunch s id = some l → l.id = id → l.state = .running →
      (Happens (.kill id) s fun t => (Became t id fun y => y.state = .ended ∧ y.status = 3 ∧ y.owed = true) ∧
        ∀ k ∈ l.sites, (mem t k).ctl.life = .retired) ∧
      (l.deadline ≤ s.cal → vigilArmed s 3 = false → Happens (.watchdogExpiry id) s fun t =>
        Became t id fun y => y.state = .ended ∧ y.status = 2 ∧ y.cause.toNat = kindCode .waitTimeout ∧ y.owed = true) ∧
      (s.cal < l.deadline → exec (.watchdogExpiry id) s = .next s)) ∧
    (∀ pa, findLaunch s id = some l → l.state = .ended → l.owed = true → launchWrites s id = [] → anyDebug s = false →
      tget none s.profiles l.func.toNat = none →
      l.doneVA ≠ 0 → l.doneVA.toNat % 32 ≤ 16 → ctxPa s l.ctx.toNat l.doneVA.toNat 16 .w = .ok pa → windowOf pa = .dev →
      pa % 32 = l.doneVA.toNat % 32 →
      Happens (.completionWord id) s fun t => findLaunch t id = none ∧ bytesAt t.dmem pa 16 =
        leBytes 4 l.id.toNat ++ leBytes 1 l.status.toNat ++ leBytes 1 l.cause.toNat ++ leBytes 2 0 ++ leBytes 8 l.endTick) ∧
    (∀ func : Nat, 1 ≤ func → func ≤ 126 →
      (s.flr.contains func = false → Happens (.functionLevelReset func) s fun t => t.flr.contains func = true ∧
        ∀ x ∈ t.launches, funcOf t x.ctx.toNat ≠ func) ∧
      (s.flr.contains func = true → Happens (.functionLevelReset func) s fun t => t.flr.contains func = false ∧
        t.launches = s.launches ∧
        ∀ q, (queueOf s q).func.toNat = func → (queueOf t q).head = 0 ∧ (queueOf t q).tail = 0)) ∧
    (∀ w, Happens (.powerCap w) s fun t => t.powerCap = if w < 1200 then 1200 else if 3800 < w then 3800 else w) ∧
    (∀ w, let past : Prop := s.powerCap * 1050 < w ∨ (s.overCap = true ∧ s.powerCap * 1000 ≤ w)
      (¬ past → exec (.powerOverdraw w) s = .next { s with overCap := false }) ∧
      (past → newestBound s = some l → exec (.powerOverdraw w) s = .next (killLaunch { s with overCap := true } l.id))) ∧
    (∀ (func : Nat) (x : TenantSave), func ≠ s.tenant → func ≤ 126 → boundOf s s.tenant = [] → switchDue s func = true →
      tget none s.tenantSaves func = some x →
      Happens (.tenantSwitch func) s fun t => t.tenant = func ∧ t.dflags = x.flags ∧ t.barriers = x.bars ∧ t.dmem = s.dmem)

/-- R367, R368, R406 to R414: a rebinding is kept until its boundary, and the switch there, while the launch runs, makes it the graph with its
generation one on; a pre-emption request is noted once; in TS a parked member's save begins, its hardware stream writes a
piece in a group cycle, and when every member is saved DONE is set; and a restored member runs its RESTORE block in T0.
Rests on the model's choices of log 82, 83 and 84. -/
def Obligations.GraphsAndSaves : Prop :=
  ∀ (s : State) (id : Word32) (l : Launch), findLaunch s id = some l → l.id = id →
    (∀ (g : Graph) (img : Nat) (a : Almanac), s.graph = some g → g.launch = id → l.state ≠ .ended →
      sameGraph g.alm (graphDesc s img) = true → solve s l img 1 g.areaWord.toNat = .ok a →
      Happens (.graphRebind id img) s fun t => t.members = s.members ∧ t.dmem = s.dmem ∧
        t.graph = some { g with next := some (a, s.cal + 65536) }) ∧
    (∀ (g : Graph) (a : Almanac) (after : Nat), s.graph = some g → g.launch = id → g.next = some (a, after) →
      boundaryAfter g after = s.cal → s.phase = .start →
      l.state = .running → l.preempt = none → anyDebug s = false →
      Happens (.graphRebindSwitch id) s fun t => ∃ h, t.graph = some h ∧ h.alm = a ∧ h.base = s.cal ∧ h.next = none ∧
        h.gen = (g.gen + 1) % 65536 ∧ h.launch = id) ∧
    (preemptIdle s = true → l.state = .running → l.preempt = none →
      Happens (.preemptRequest id) s fun t => t.members = s.members ∧ t.dmem = s.dmem ∧ preemptIdle t = false ∧
        Became t id fun y => y.preempt = some s.cal) ∧
    (∀ (n : Nat) (y : RecRun), l.sites = [n] → l.state = .running → l.ts = some s.cal → s.phase = .start →
      (mem s n).ctl.life = .parked → (mem s n).ctl.yrec = some y → y.save = (0, 0) →
      Happens (.saveStart id) s fun t => (Became t id fun x => x.state = .saving) ∧ Keeps s t n ∧ (mem t n).ctl.life = .saving ∧
        (mem t n).ctl.saveAt = some (mem s n).ctl.gc ∧ (mem t n).ctl.savePos = 0) ∧
    (∀ (n g : Nat), l.state = .saving → l.sites = [n] → (mem s n).ctl.life = .saving → (mem s n).ctl.saveAt = some g →
      (mem s n).ctl.savePos < (mem s n).ctl.saveN → g + (mem s n).ctl.savePos + 1 ≤ (mem s n).ctl.gc →
      Happens (.saveDone id) s fun t => (mem t n).regs = (mem s n).regs ∧ (mem t n).ctl.savePos = (mem s n).ctl.savePos + 1 ∧
        ((mem s n).ctl.savePos + 1 = (mem s n).ctl.saveN → (mem t n).ctl.life = .saved ∧ preemptIdle t = true ∧
          Became t id fun y => y.state = .saved ∧ y.sites = [] ∧ y.te = some s.cal)) ∧
    (∀ (n : Nat) (y : RecRun), startsNow s l = true → l.areas ≠ [] → l.sites = [n] → (mem s n).ctl.life = .loaded → s.graph = none →
      (mem s n).ctl.yrec = some y → y.restore ≠ (0, 0) →
      Happens (.restoreStart id) s fun t => (Became t id fun x => x.state = .running) ∧ Keeps s t n ∧ (mem t n).ctl.life = .restoring)

/-! ## The management core, the firmware and the outside -/

namespace Sys2Proof.Claims

open Sys2Proof Sys2Proof.Machine

/-- A sector of device memory with no access on record, no poison and no key (R279, R313, R431). -/
def Quiet (s : State) (pa : Nat) : Prop :=
  tget [] s.accs (pa / 32) = [] ∧ tget false s.dbad (pa / 32) = false ∧ tget none s.dkey (pa / 32) = none

/-- A service has ended: its request is gone, and own flag 1023 of its member is posted (R265). -/
def Served (s t : State) (r : SvcReq) : Prop :=
  (∀ x ∈ t.svcs, x.id ≠ r.id) ∧ flagVal t (.own r.site 1023) = flagVal s (.own r.site 1023) + 1

/-- A flit is for this module and well formed, its OPC as given (R391). -/
def Arrives (s : State) (f : Flit) (opc : BitVec 8) : Prop :=
  clocksStand s = false ∧ f.dmod = s.moduleId ∧ flitOk f = true ∧ f.opc = opc

/-- A request is for this module, well formed and granted (R391, R393). -/
def Accepts (s : State) (f : Flit) (opc : BitVec 8) : Prop := Arrives s f opc ∧ tget false s.grants f.smod.toNat = true

/-- The completion of a flit is sent back, in whole chunks, through the port that its ADDR selects (R391, R394). -/
def Replied (s t : State) (f : Flit) (data : List Byte) : Prop :=
  let up := upPorts s f.smod.toNat
  t.flitOut = s.flitOut ++ [(up[f.addr.toNat / 2 ^ 7 % 2 ^ 6 % up.length]?,
    { opc := 7, len := BitVec.ofNat 8 ((wholeChunks data).length / 32), smod := s.moduleId, dmod := f.smod, tag := f.tag
      addr := f.addr, sts := 0, zero := 0, data := wholeChunks data })]

/-- The host is answered. -/
def Answered (s t : State) (func : Nat) (data : List Byte) : Prop :=
  t.hostOut = s.hostOut ++ [{ func := func, data := data, ok := true, poisoned := false }]

/-- Every byte of device memory outside a stretch is as before. -/
def OnlyAt (s t : State) (pa n : Nat) : Prop := ∀ a, (a < pa ∨ pa + n ≤ a) → byteAt t.dmem a = byteAt s.dmem a

/-- What the bring-up leaves (R429): a step that fails is in BOOT_STATUS, and one of steps 1 to 3 holds the module in reset; the
firmware is measured unless step 1 or 2 failed. -/
def Boots (b : Boot) (t : State) : Prop :=
  (t.halted = decide (1 ≤ b.failStep ∧ b.failStep ≤ 3)) ∧ (t.halted = true → t.bootStatus.toNat = b.failStep % 256) ∧
  (b.failStep = 4 → t.bootStatus.toNat = b.status.val) ∧ (b.failStep = 0 → t.bootStatus = 0xff) ∧
  (t.halted = false → t.moduleId = b.moduleId) ∧ (b.failStep ≠ 1 → b.failStep ≠ 2 → t.measLog = b.stages ∧
    t.meas = b.stages.foldl (fun (m : BitVec 512) f => digest (leBytes 64 m.toNat ++ leBytes 64 f.digest.toNat)) 0)

/-- What a register or table entry holds after a management write of v (R309, R316, R329, R333, R342, R392 to R394,
R403, R406, R417, R421, R426, R427). -/
def Holds' (s t : State) (r : MgmtReg) (v : Nat) : Prop :=
  match r with
  | .context n => n < 4096 → (ctxOf t n).v = v.testBit 0 ∧ (ctxOf t n).root.toNat = v / 2 ^ 16 % 2 ^ 30 ∧
      (ctxOf t n).gen.toNat = v / 2 ^ 64 % 2 ^ 16 ∧ (ctxOf t n).key.toNat = v / 2 ^ 80 % 2 ^ 11 ∧
      (ctxOf t n).func.toNat = v / 2 ^ 91 % 2 ^ 7
  | .quota n => n < 256 → (tget Quota.reset t.quotas n).pinq.toNat = v / 2 ^ 48 % 2 ^ 16 ∧
      (tget Quota.reset t.quotas n).bsize.toNat = v / 2 ^ 32 % 2 ^ 16 ∧
      (tget Quota.reset t.quotas n).rate.toNat = v / 2 ^ 16 % 2 ^ 16 ∧ (tget Quota.reset t.quotas n).prio.toNat = v / 2 ^ 8 % 8
  | .quotaIndex c => c < 4096 → tget 0 t.qidx c = v % 256
  | .ring n k => n ≤ 127 → tget Ring.reset t.rings n = ringPart (tget Ring.reset s.rings n) k v
  | .ringHead n => n ≤ 127 → (tget Ring.reset t.rings n).head.toNat = v % 2 ^ 32 ∧
      (tget Ring.reset t.rings n).tail = (tget Ring.reset s.rings n).tail
  | .ringWeight k => k < 3 → (tget (([8, 4, 1] : List (BitVec 4)).getD k 1) t.weights k).toNat = v % 16
  | .queue n => n < 2304 → (queueOf t n).en = v.testBit 0 ∧ (queueOf t n).base.toNat = v / 2 ^ 12 % 2 ^ 34 ∧
      (queueOf t n).prio.toNat = v / 2 ^ 46 % 8
  | .bind n => n < 160 → (bindOf s n).state ≠ 2 → v / 2 ^ 496 % 256 < 2 → (bindOf t n).launch.toNat = v % 2 ^ 32 ∧
      (bindOf t n).ctx.toNat = v / 2 ^ 32 % 2 ^ 12 ∧ (bindOf t n).t0.toNat = v / 2 ^ 64 % 2 ^ 64 ∧
      (bindOf t n).state.toNat = v / 2 ^ 496 % 256
  | .saveArea n => n < 160 → (tget 0 t.saveArea n).toNat = v / 2 ^ 12 % 2 ^ 34
  | .waitLog n => n < 160 → (tget LogRing.reset t.waitLog n).en = v.testBit 6 ∧
      (tget LogRing.reset t.waitLog n).base.toNat = v / 2 ^ 12 % 2 ^ 34
  | .trace n => n < 160 → (tget LogRing.reset t.traceTab n).en = v.testBit 6 ∧
      (tget LogRing.reset t.traceTab n).base.toNat = v / 2 ^ 12 % 2 ^ 34
  | .moduleId => (∀ l ∈ s.launches, launchBound l = false) → t.moduleId.toNat = v % 2 ^ 16
  | .aperture n => n < 128 → apModule t (n * 2 ^ 38) = v / 2 ^ 16 % 2 ^ 16 ∧
      (tget 0 t.aperture n).getLsbD 0 = v.testBit 0
  | .grant n => n < 65536 → tget false t.grants n = v.testBit 0
  | .route n => n < 65536 → (tget 0 t.routes n).toNat = v % 2 ^ 12
  | .invVa => t.invVa.toNat = v % 2 ^ 38
  | .invCtl =>
      (v.testBit 0 = false → t.invCtl.toNat = v / 2 ^ 40 % 2 ^ 24 * 2 ^ 40 + v / 2 ^ 16 % 2 ^ 12 * 2 ^ 16 + s.invCtl.toNat / 2 % 2 * 2 ∧
        t.inval = s.inval) ∧
      (v.testBit 0 = true → s.inval = none → t.invCtl.getLsbD 1 = false ∧
        t.inval = some { ctx := v / 2 ^ 16 % 2 ^ 12, va := s.invVa, count := BitVec.ofNat 24 (v / 2 ^ 40), tick := s.cal, mark := s.fresh })
  | .preemptCtl => preemptIdle s = true → v.testBit 32 = false →
      t.preemptCtl.toNat = 2 ^ 33 + v % 2 ^ 32 ∧ t.launches = s.launches ∧ t.members = s.members
  | .vigilCtl => v.testBit 1 = false → v.testBit 5 = false → t.vigil.toNat % 2 = v % 2 ∧ t.vigil.toNat / 4 % 4 = v / 4 % 4 ∧
      vigilActive t = vigilActive s
  | .fairness q => q < 2304 → (queueOf t q).raised = v % 8
  | .profile f c moved => f < 127 → c < 4096 → (ctxOf s c).func.toNat = f → v % 16 = 0 → v < 2 ^ 64 →
      tget none t.profiles f = (if v = 0 then none else some { ctx := c, va := v }) ∧ (moved = true → v ≠ 0 → f ∈ t.moved)

end Sys2Proof.Claims

/-- R310, R312, R313, R322 to R324, R329 to R332: a request for invalidation raises the context's GEN, clears DONE, and
strikes every handle it covers; when all of it is over DONE is set, and the requests made meanwhile take effect one after the other. A page migrates by marking its leaf, copying the page
and pointing the leaf at the copy, or by putting the old leaf back. The reporting port writes the oldest record of a class.
A borrower's shortfall comes from its port's pool. A scrub counts a corrected error of a sector for its die and poisons an uncorrectable sector or chunk of a typed buffer.
Rests on the model's choices of log 107, 108, 109, 11 and 100. -/
def Obligations.TranslationIsManaged : Prop :=
  ∀ (s : State),
    (∀ (ctx : Nat) (va : BitVec 38) (count : BitVec 24), s.inval = none → ctx < 4096 →
      Happens (.invalidationRequest ctx va count) s fun t => t.dmem = s.dmem ∧ t.invCtl.getLsbD 1 = false ∧
        (ctxOf t ctx).gen = (ctxOf s ctx).gen + 1 ∧ t.inval = some { ctx := ctx, va := va, count := count, tick := s.cal, mark := s.fresh } ∧
        (∀ n, siteCtx s n ≠ ctx → mem t n = mem s n) ∧
        ∀ n (r : HReg), siteCtx s n = ctx → twf 0 (mem s n).regs.h = true →
          hReg (mem t n) r = strike { ctx := ctx, va := va, count := count, tick := s.cal, mark := s.fresh } (hReg (mem s n) r)) ∧
    (∀ r, s.inval = some r → invalOver s r = true →
      (s.invNext = [] → Happens .invalidationDone s fun t => t.inval = none ∧ t.invCtl.getLsbD 1 = true ∧ t.members = s.members ∧
        t.dmem = s.dmem ∧ ∀ g, t.mig = some g → g.ending = false) ∧
      (∀ (ctx : Nat) (va : BitVec 38) (count : BitVec 24) (rest : List (Nat × BitVec 38 × BitVec 24)), s.invNext = (ctx, va, count) :: rest →
        Happens .invalidationDone s fun t => t.invNext = rest ∧ (ctxOf t ctx).gen = (ctxOf s ctx).gen + 1 ∧ t.invCtl = s.invCtl ∧
          t.inval = some { ctx := ctx, va := va, count := count, tick := s.cal, mark := s.fresh })) ∧
    (∀ (r : Inval) (ctx : Nat) (va : BitVec 38) (count : BitVec 24), s.inval = some r → ctx < 4096 →
      Happens (.invalidationRequest ctx va count) s fun t => t.invNext = s.invNext ++ [(ctx, va, count)] ∧ t.inval = s.inval ∧
        t.invVa = va ∧ t.invCtl.getLsbD 1 = false ∧ t.ctxs = s.ctxs ∧ t.members = s.members ∧ t.dmem = s.dmem) ∧
    (s.inval = none →
      (∀ (ctx : Nat) (va : BitVec 54) (dst pa e base : Nat) (big r w a : Bool), s.mig = none →
        leafAt s ctx va.toNat = some (pa, e) → walk s ctx va.toNat = .ok base big r w a → dst ≠ base →
        dst % (if big then 2 ^ 29 else 2 ^ 16) = 0 → dst + (if big then 2 ^ 29 else 2 ^ 16) ≤ 2 ^ 46 →
        Happens (.pageMigration (.begin_ ctx va dst)) s fun t => numAt t.dmem pa 8 = migLeaf e ∧ t.inval.isSome = true ∧
          ∃ g, t.mig = some g ∧ g.leafPA = pa ∧ g.dst = dst ∧ g.copied = false ∧ g.failed = false) ∧
      (∀ g, s.mig = some g →
        (g.copied = false → g.failed = false →
          (∀ i, i < g.size / 32 → windowOf (g.leaf.toNat / 2 ^ 16 % 2 ^ 30 * 2 ^ 16 + 32 * i) = .dev ∧
            windowOf (g.dst + 32 * i) = .dev ∧ tget false s.dbad (g.leaf.toNat / 2 ^ 16 % 2 ^ 30 * 2 ^ 16 / 32 + i) = false) →
          Happens (.pageMigration .copy) s fun t => t.mig = some { g with copied := true }) ∧
        (g.copied = false → g.failed = false →
          Happens (.pageMigration .copyFails) s fun t => t.mig = some { g with failed := true } ∧ t.dmem = s.dmem) ∧
        (g.copied = true → g.failed = false → g.ending = false → unseen s (.device 0) [] = [] →
          Happens (.pageMigration .finish) s fun t => t.mig = some { g with ending := true } ∧ t.inval.isSome = true ∧
            numAt t.dmem g.leafPA 8 = movedLeaf g.leaf.toNat g.dst % 2 ^ 64) ∧
        (g.failed = true → g.ending = false →
          Happens (.pageMigration .finish) s fun t => t.mig = none ∧ numAt t.dmem g.leafPA 8 = g.leaf.toNat))) ∧
    (∀ (x : FaultRec) (rest : List FaultRec) (k : Nat), s.posted = false → s.recsVf = [] →
      ((k = 0 ∧ s.recs = x :: rest ∧ s.recsTerm = []) ∨ (k = 1 ∧ s.recsTerm = x :: rest ∧ s.recs = [])) →
      let r := tget Ring.reset s.rings k
      let at_ := r.base.toNat * 4096 + 32 * (r.tail.toNat % 2 ^ r.logn.toNat)
      r.en = true → ringFull r = false → windowOf at_ = .dev → anyDebug s = false →
      Happens .faultRecordPost s fun t => t.posted = true ∧ (tget Ring.reset t.rings k).tail = r.tail + 1 ∧
        bytesAt t.dmem at_ 32 = recBytes x ∧
        (if k = 0 then t.recs = rest else t.recsTerm = rest)) ∧
    (∀ (slice ctx cost : Nat) (site : Option Nat), nextBorrower s slice = some (ctx, cost, site) →
      16 * cost - bucketOf s slice ctx ≤ (portOf s slice).pool →
      Happens (.meteredRequestProceeds slice ctx) s fun t => bucketOf t slice ctx = 16 * cost ∧ t.dmem = s.dmem ∧
        (portOf t slice).pool = (portOf s slice).pool - (16 * cost - bucketOf s slice ctx)) ∧
    (∀ u, exec (.scrub u .clean) s = .next s) ∧
    (∀ k, k < 2 ^ 33 →
      (let d := sliceOfPa (32 * k) / 16
       d < 4 ∧ Happens (.scrub (.device k) .corrected) s fun t => t.dmem = s.dmem ∧ t.dbad = s.dbad ∧
        tget 0 t.corrected d = tget 0 s.corrected d + 1) ∧
      (Happens (.scrub (.device k) .uncorrectable) s fun t => tget false t.dbad k = true ∧ t.mgmtLog = s.mgmtLog ++ [(1, k)] ∧
        ∀ j, j ≠ k → tget false t.dbad j = tget false s.dbad j)) ∧
    (∀ n b c, n < 160 → 1 ≤ b → b ≤ 3 → 32 * c < bufSize b →
      Happens (.scrub (.buf n b c) .uncorrectable) s fun t => tget false (mem t n).buf.bad (badKey b (32 * c)) = true ∧
        t.dmem = s.dmem ∧ (mem t n).regs = (mem s n).regs)

/-- R265: the services of `svc`. Each that is performed ends with own flag 1023 posted: NOP alone; TIME after the Calendar
and the reference time stand in its block; LOG after the message stands in its function's log; MAP after its leaves are
written; UNMAP and PROTECT after their leaves are changed and their invalidation is done. A code outside the table is the
terminal fault TRAP, and ends its member at once.
Rests on the model's choices of log 102, 103, 104, 34 and 29. -/
def Obligations.Services : Prop :=
  ∀ (s : State) (req : Nat) (r : SvcReq),
    let asks (k : Nat) : Prop := svcAt s req (fun c => c.toNat == k) = some r
    ((flagVal s (.own r.site 1023)).toNat + 1 < 2 ^ 32 →
      (svcArg r 3 = 0 →
        (asks 0 → Happens (.svcNop req) s fun t => Served s t r ∧ t.dmem = s.dmem) ∧
        (∀ b, asks 5 → 1 ≤ svcArg r 1 → svcArg r 1 ≤ 256 →
          svcArg r 0 % hBytes (translate s r.ctx.toNat (svcArg r 0)) + svcArg r 1 ≤ hBytes (translate s r.ctx.toNat (svcArg r 0)) →
          ctxRead r.ctx.toNat (svcArg r 0) (svcArg r 1) s = (.ok b, s) →
          Happens (.svcLog req) s fun t => Served s t r ∧ t.funcLog = s.funcLog ++ [(funcOf s r.ctx.toNat, r.launch, b)] ∧
            t.dmem = s.dmem) ∧
        (∀ (frames tables : List Nat) (u : State), asks 1 → svcRangeOk r = true → permsOk r = true → svcArg r 1 ≤ frames.length →
          (frames.take (svcArg r 1)).all frameOk = true →
          mapPages ((ctxOf s r.ctx.toNat).root.toNat * 2 ^ 16) (svcArg r 2)
            (((List.range (svcArg r 1)).zip frames).map fun p => (svcArg r 0 + 65536 * p.1, p.2)) tables s = some u →
          Happens (.svcMap req frames tables) s fun t => Served s t r ∧ t.dmem = u.dmem) ∧
        (asks 2 → r.begun = true → s.inval = none → Happens (.svcUnmap req) s fun t => Served s t r ∧ t.dmem = s.dmem) ∧
        (asks 3 → r.begun = true → s.inval = none → Happens (.svcProtect req) s fun t => Served s t r ∧ t.dmem = s.dmem)) ∧
      (∀ pa, asks 4 → svcArg r 3 ≠ 0 → svcArg r 3 % 32 = 0 → pa % 32 = 0 → ctxPa s r.ctx.toNat (svcArg r 3) 32 .w = .ok pa →
        windowOf pa = .dev → anyDebug s = false →
        Happens (.svcTime req) s fun t => Served s t r ∧ numAt t.dmem pa 4 = 0 ∧ numAt t.dmem (pa + 8) 8 = s.cal % 2 ^ 64 ∧
          numAt t.dmem (pa + 16) 8 = Config.refTime s.cal % 2 ^ 64)) ∧
    (∀ pa e, r.begun = false → s.inval = none → svcRangeOk r = true → noBig s r = true → svcArg r 1 = 1 → svcArg r 3 = 0 →
      leafAt s r.ctx.toNat (svcArg r 0) = some (pa, e) →
      (asks 2 → Happens (.svcUnmap req) s fun t => numAt t.dmem pa 8 = 0 ∧ t.inval.isSome = true ∧
        ∃ x ∈ t.svcs, x.id = r.id ∧ x.begun = true) ∧
      (asks 3 → permsOk r = true → Happens (.svcProtect req) s fun t =>
        numAt t.dmem pa 8 = e - e / 8 % 8 * 8 + svcArg r 2 * 8 ∧ t.inval.isSome = true ∧
        ∃ x ∈ t.svcs, x.id = r.id ∧ x.begun = true)) ∧
    (svcAt s req (fun c => decide (5 < c.toNat)) = some r → r.lookup = none → (mem s r.site).ctl.trap = none → Unwatched s →
      launchSites s (bindOf s r.site).launch = [r.site] →
      Happens (.svcUnknownCode req) s fun t => (mem t r.site).spr.cause = nat64 (kindCode .trap) ∧
        (mem t r.site).ctl.life = .retired ∧ ∀ x ∈ t.svcs, x.id ≠ r.id)

/-- R8, R390, R423, R427 to R433: an armed Vigil trigger puts Vigil in force; its reset brings the module up again and keeps device
memory; the image is read while it is in force; a cold reset zeroes the Calendar and, where it reaches step 3's writing, device
memory; either measures the firmware, what a Vigil reset meets being a free value, and is held at a step that fails; a report holds its six fields and is signed; a key slot is written where no bound launch
names it; an alarm of level 1 is counted, one of level 2 zeroes keys, buffers and L2 and halts; the core clock changes
between launches only; and a link goes down and is trained again.
Rests on the model's choices of log 99, 115, 122, 123 and 111. -/
def Obligations.SecurityAndLinks : Prop :=
  ∀ (s : State),
    (s.vigil.toNat % 2 = 1 → vigilActive s = false →
      (∀ c : BitVec 8, c = 1 ∨ c = 2 → Happens (.vigilTrigger c) s fun t => vigilActive t = true ∧
        t.vigil.toNat / 256 = c.toNat ∧ t.vigilTv = s.cal ∧ t.members = s.members ∧ t.dmem = s.dmem) ∧
      (Happens .vigilTrig s fun t => vigilActive t = true ∧ t.vigil.toNat / 256 = 2 ∧ t.vigilTv = s.cal ∧ t.dmem = s.dmem)) ∧
    (vigilActive s = true → s.halted = false → Happens .vigilReset s fun t => t.cal = 0 ∧ t.members = [] ∧ t.launches = [] ∧
      vigilActive t = false ∧ (dirtySectors s = [] → t.dmem = s.dmem) ∧ Boots (Config.boot s.free) t) ∧
    (∀ off, vigilActive s = true → s.halted = false →
      exec (.vigilImageRead off) s = .next { s with vigilOut := imageWindow off 4096 (imageSections s) }) ∧
    (∀ b : Boot, Happens (.coldReset b) s fun t => t.cal = 0 ∧ t.members = [] ∧ t.launches = [] ∧
      t.dmem = (if 1 ≤ b.failStep ∧ b.failStep ≤ 3 then s.dmem else []) ∧ Boots b t) ∧
    (∀ func nonce, s.halted = false → vigilActive s = false → Happens (.attestationReport func nonce) s fun t =>
      ∃ r, (∀ x ∈ [leBytes 32 nonce.toNat, leBytes 64 s.meas.toNat, leBytes 2 s.moduleId.toNat, [0x4f, 0x4e, 0x58, 0x2d, 0x4a, 0x39, 0x41],
          s.measLog.flatMap fun f => leBytes 4 f.step.toNat ++ leBytes 4 f.version.toNat,
          disabledSites.flatMap fun n => leBytes 2 (n / 16 * 256 + n % 16)], x <:+: r) ∧
      t.mailbox = s.mailbox ++ [(func, r ++ ed448ph (leBytes 57 Config.identityKey.toNat) r)] ∧ t.dmem = s.dmem) ∧
    (∀ slot key, slot < 2048 → s.halted = false →
      (∀ l ∈ s.launches, launchBound l = true → (ctxOf s l.ctx.toNat).key.toNat ≠ slot) →
      Happens (.keySlotWrite slot key) s fun t => t.dmem = s.dmem ∧ ∀ k, tget 0 t.keys k = if k = slot then key else tget 0 s.keys k) ∧
    (Happens .alarmLevel1 s fun t => t.alarms = s.alarms + 1 ∧ t.mgmtLog = s.mgmtLog ++ [(3, s.cal)]) ∧
    (Happens .alarmLevel2 s fun t => t.halted = true ∧ t.keys = [] ∧ t.l2 = [] ∧ (dirtySectors s = [] → t.dmem = s.dmem) ∧
      ∀ n, (mem t n).buf.wb = [] ∧ (mem t n).buf.ab = [] ∧ (mem t n).buf.cb = [] ∧ (mem t n).regs = (mem s n).regs) ∧
    (∀ mhz stopped, ((∀ l ∈ s.launches, l.state = .ended) → Happens (.coreClockChange mhz stopped) s fun t => t.clockMhz = mhz) ∧
      ((∃ l ∈ s.launches, l.state ≠ .ended) → exec (.coreClockChange mhz stopped) s = .next s)) ∧
    (∀ port, port < 12 → tget false s.linkDown port = false → Happens (.linkDown port) s fun t => tget false t.linkDown port = true) ∧
    (∀ port, clocksStand s = false → Happens (.linkRetrain port) s fun t => tget false t.linkDown port = false ∧ t.dmem = s.dmem)

/-- R309, R316, R329, R333, R342, R392 to R394, R403, R406, R417, R421, R426, R427: a management write to a register or
table entry leaves it holding the fields written.
Rests on the model's choices of log 120 and 121. -/
def Obligations.ManagementWrites : Prop :=
  ∀ (s : State) (r : MgmtReg) (v : Nat), s.halted = false → Happens (.mgmtRegisterWrite r v) s fun t => Holds' s t r v

/-- R391, R393, R395, R397: a flit for this module that its grant map lets through is performed at the home and answered:
a read with the chunks it names, a write and a buffer store once they stand, an atomic with the old value, a flag add by
adding, a chunk of a collective by keeping its pieces for its group; a read or write that the map does not let through is
answered as rejected. A completion ends the request it answers.
Rests on the model's choices of log 112, 113, 110 and 114. -/
def Obligations.PeerFlits : Prop :=
  ∀ (s : State) (f : Flit),
    let a := f.addr.toNat
    let chunk := a / 32 * 32
    let len := f.data.length
    ((∀ i, i < f.len.toNat → Quiet s (chunk + 32 * i)) →
      (Accepts s f 1 → Happens (.flitRead f) s fun t => Replied s t f (bytesAt s.dmem chunk (32 * f.len.toNat)) ∧ t.dmem = s.dmem) ∧
      (Accepts s f 2 → Happens (.flitWrite f) s fun t =>
        Replied s t f [] ∧ bytesAt t.dmem chunk len = f.data ∧ OnlyAt s t chunk len)) ∧
    (∀ (op : BitVec 4) (sz : BitVec 2), Accepts s f 3 → op.toNat ≤ 8 → Quiet s a →
      let n := if sz = 3 then 8 else 4
      a % n = 0 →
      Happens (.flitAtomic f op sz) s fun t => Replied s t f (bytesAt s.dmem a n) ∧ OnlyAt s t a n ∧
        numAt t.dmem a n = atomOp op.toNat n (numAt s.dmem a n) (fieldIn f.data 0 n) % 2 ^ (8 * n)) ∧
    (∀ tag : Word32, flitTargets s f tag = true →
      let off := a / 32 % 2 ^ 16 * 32
      (Accepts s f 4 → off + len ≤ bufSize 2 →
        (∀ i, i < f.len.toNat → tget [] s.accs (bufLoc (flitSite f) 2 (off + 32 * i) / 32) = [] ∧
          rankOk (mem s (flitSite f)) 2 (off + 32 * i) 5 = true) →
        Happens (.flitBufferStore f tag) s fun t => Replied s t f [] ∧ bytesAt (mem t (flitSite f)).buf.ab off len = f.data ∧
          t.dmem = s.dmem) ∧
      (let k : FlagKey := .own (flitSite f) (a % 1024)
       Accepts s f 5 → (flagVal s k).toNat + fieldIn f.data 0 4 < 2 ^ 32 →
        Happens (.flitFlagAdd f tag) s fun t => Replied s t f [] ∧ t.dmem = s.dmem ∧
          (flagVal t k).toNat = (flagVal s k).toNat + fieldIn f.data 0 4)) ∧
    (∀ (tag : Word32) (c : CollData), Accepts s f 6 → pastNth s (tagLaunch s tag) tag c.nth = true →
      exec (.flitCollectiveChunk f tag c) s = .next (flitReply s f 0 [])) ∧
    (∀ (tag : Word32) (c : CollData), Accepts s f 6 → pastNth s (tagLaunch s tag) tag c.nth = false →
      Happens (.flitCollectiveChunk f tag c) s fun t => Replied s t f [] ∧ t.dmem = s.dmem ∧
        ∃ l : List CollIn, t.collIn = s.collIn ++ l ∧ l.length = max 1 f.len.toNat ∧
          ∀ (i : Nat) (x : CollIn), l[i]? = some x → x.data = (f.data.drop (32 * i)).take 32 ∧ x.tag = tag ∧ x.rank = c.rank ∧
            x.piece = c.chunk + i ∧ x.final = c.final ∧ x.form = [c.kind, c.red, c.fmt, c.ln] ∧ x.nth = c.nth ∧
            x.launch = tagLaunch s tag) ∧
    (∀ opc, Arrives s f opc → opc.toNat ≤ 6 → tget false s.grants f.smod.toNat = false →
      (opc = 1 → exec (.flitRead f) s = .next (flitReply s f 1 [])) ∧ (opc = 2 → exec (.flitWrite f) s = .next (flitReply s f 1 []))) ∧
    (∀ (r : OutReq) (g : Nat), Arrives s f 7 → (s.outs.find? fun r => !r.host && r.tag % 65536 == f.tag.toNat) = some r → r.who = .device g →
      exec (.flitCompletion f) s = .next { s with outs := s.outs.erase r })

/-- R289, R297, R334, R401, R402: the host reads and writes device memory, device flags and its doorbells; its atomics
return the old value; it reads configuration space whatever state the module is in; and the answer to a flushing read
makes the writes sent to the host before it visible.
Rests on the model's choices of log 110, 10 and 152. -/
def Obligations.HostAccesses : Prop :=
  ∀ (s : State) (func pa : Nat) (data : List Byte),
    (∀ off n, Happens (.hostRead func (.config off) n) s fun t => t.dmem = s.dmem ∧
      Answered s t func ((List.range n).map fun i => configByte s func (off + i))) ∧
    (onlyConfig s = false →
      (∀ n, 1 ≤ n → pa % 32 + n ≤ 32 → pa + n ≤ 2 ^ 38 → Quiet s pa →
        Happens (.hostRead func (.mem pa) n) s fun t => Answered s t func (bytesAt s.dmem pa n) ∧ t.dmem = s.dmem) ∧
      (∀ k, k < 4096 → Happens (.hostRead func (.deviceFlag k) 4) s fun t => t.dmem = s.dmem ∧
        Answered s t func (leBytes 4 (flagVal s (.dev k)).toNat)) ∧
      (s.flr.contains func = false →
        (1 ≤ data.length → pa % 32 + data.length ≤ 32 → pa + data.length ≤ 2 ^ 38 → Quiet s pa →
          Happens (.hostWrite func (.mem pa) data) s fun t => bytesAt t.dmem pa data.length = data ∧ OnlyAt s t pa data.length) ∧
        (∀ k, k < 4096 → data.length = 4 → Happens (.hostWrite func (.deviceFlag k) data) s fun t => t.dmem = s.dmem ∧
          (flagVal t (.dev k)).toNat = leNat data) ∧
        (∀ i q, i < 2048 → data.length = 4 → doorbellQueue s func i = some q → (queueOf s q).en = true →
          (BitVec.ofNat 32 (leNat data) - (queueOf s q).head).toNat ≤ 2 ^ (queueOf s q).logn.toNat →
          Happens (.hostWrite func (.bar (8 * i)) data) s fun t => (queueOf t q).tail.toNat = leNat data ∧ t.dmem = s.dmem) ∧
        (∀ (wide : Bool) (v cmp : Word),
          let n := if wide then 8 else 4
          let old := numAt s.dmem pa n
          pa % n = 0 → pa + n ≤ 2 ^ 38 → Quiet s pa →
          let does (op : BitVec 2) (new : Nat) : Prop := Happens (.hostAtomic func pa op wide v cmp) s fun t =>
            Answered s t func (bytesAt s.dmem pa n) ∧ numAt t.dmem pa n = new ∧ OnlyAt s t pa n
          does 0 ((old + v.toNat) % 2 ^ (8 * n)) ∧ does 1 (v.toNat % 2 ^ (8 * n)) ∧
          does 2 (if old = cmp.toNat % 2 ^ (8 * n) then v.toNat % 2 ^ (8 * n) else old)))) ∧
    (∀ (tag : Nat) (ok bad : Bool) (r : OutReq), clocksStand s = false →
      (s.outs.find? fun r => r.host && !r.write && r.tag % 16384 == tag) = some r → r.flush = true →
      exec (.pcieCompletion tag ok bad data) s = .next { s with
        outs := s.outs.filter fun x => x != r && !(x.host && x.write && decide (x.tag < r.tag)) })

/-! ## Encodings, steps, reset -/

namespace Sys2Proof.Claims

open Sys2Proof Sys2Proof.Machine

/-- A first lane or extension word as a numeral. -/
def reads (q : Queue) (ws : List Word32) (i : Instr) : Prop := decodeLane q ws = .ok i

/-- A short form of idle count n without a qualifier. -/
def short (n : BitVec 4) : Hd := { idle := n, long := false, gq := false, gn := false, qs := 0, qp := false }

/-- A long form of idle count n without a qualifier. -/
def long (n : BitVec 4) : Hd := { idle := n, long := true, gq := false, gn := false, qs := 0, qp := false }

/-- An instruction run as an actor: what exec answers for it, with the actor gone. -/
def Ran (o : Host.Outcome State Fault Refusal) (c : Cur) (i : Instr) (s : State) : Prop :=
  o = match exec i { s with cur := c } with
    | .next t => .next { t with cur := .none }
    | x => x

end Sys2Proof.Claims

namespace Sys2Proof.Claims

/-- Words of R134, R137, R172, R219, R244, R448 and of the worked programs of chapters 22, 23 and 25, as the manual
writes them out, for every queue. -/
def Words : Prop :=
  reads .c [0x001881E4] (.add (short 0) 4 3 (.imm 100)) ∧
  reads .c [0x081881E4, 0x90000000] (.add { long 0 with gq := true, qs := 2 } 4 3 (.imm 100)) ∧
  reads .c [0x0288BFFD] (.br (short 0) true 5 (-3)) ∧
  reads .c [0x09F02000, 0x0007FC00] (.li (long 0) 1 0xff800000) ∧
  reads .c [0x04A24800] (.qres (short 0) 1 9) ∧
  reads .c [0x04D02860] (.qstat (short 0) false 5 3) ∧
  reads .c [0x438000C0] (.fpost (short 4) { fk := 0, fn := 3, prow := 0, pcol := 0 } 0 (.reg 0)) ∧
  reads .c [0x0390_00C0] (.fwait (short 0) { fk := 0, fn := 3, prow := 0, pcol := 0 } 0 (.reg 0)) ∧
  reads .c [0x28106000, 0x04000000] (.add { long 2 with qp := true } 3 0 (.reg 0)) ∧
  reads .c [0x04100064] (.idle (short 0) 100) ∧
  reads .v [0x01829020] (.viadd (short 0) { msk := 0, f := 2, rnd := 5, sat := false } 5 4 1) ∧
  reads .v [0x0A60852A, 0x800A8000]
    (.viclamp { long 0 with gq := true } { msk := 0, f := 2, rnd := 5, sat := false } 1 1 9 10) ∧
  reads .x [0x00131400] (.xexp2 (short 0) { msk := 0, f := 0, rnd := 5, sat := false } 6 5) ∧
  reads .m [0x00112040] (.mmac (short 0) 0 1 2 0 1) ∧
  reads .m [0x081122C0, 0x00700000] (.mmac (long 0) 7 1 2 2 3) ∧
  reads .l [0x18300016, 0x00200000] (.sld (long 1) { msk := 0, as := 2, hn := 0, o := 1, imm := 0 } 2 true) ∧
  reads .l [0x08408002, 0x00200000] (.sst (long 0) { msk := 0, as := 2, hn := 0, o := 0, imm := 0 } 2 2) ∧
  reads .l [0x00A00000] (.mark (short 0)) ∧
  reads .e [0xB0100800, 0x80085111]
    (.cpy { idle := 11, long := false, eng := 0, st := 0, produce := some { dev := false, n := 2 }, c0 := none, c1 := none,
            c2 := none, ui := false } { do_ := 0, dh := 0, so := 6, sh := 1, pair := 1, fe := false, ln := 5 })

end Sys2Proof.Claims

/-- R112 to R124: words that the manual writes out decode to the instructions it writes beside them. -/
def Obligations.DecodeWords : Prop := Words

/-- R112 to R126: an instruction that breaks no rule of its encoding is what its own words decode to, with every
operand at every value the encoding admits. -/
def Obligations.RoundTrip : Prop :=
  ∀ (i : Instr) (q : Queue) (ws : List Word32), i.WellFormed → encode i = some (q, ws) → decodeLane q ws = .ok i

/-- R19, R20, R107, R108: a step runs the instruction that was decoded. The lanes fetched from a line are the instructions
of its words; the lane of a group that is due at a step runs, whether it is picked or stands first in the model's own
order, unless another due lane holds the group; so does a due lane of a handler or of a lookup core, and an event that
is picked; and a word of the opcode table placed at the fetch of the first line runs as the instruction it decodes to.
Rests on the model's choices of log 4, 5, 22, 35 and 21. -/
def Obligations.StepRunsDecoded : Prop :=
  (∀ (s : State) (w : Who) (g : Fetch) (x : LaneIns) (i : Instr),
    let pa := imgOf s w
    let ws := lineAt s pa g.pc
    (fetchOf s w).stop = false → (fetchOf s w).lanes.length < 56 → settle (fetchOf s w) = some g →
    (textOf s pa).1 ≤ g.pc → g.pc + 32 ≤ (textOf s pa).2 → g.pc % 32 = (textOf s pa).1 % 32 →
    lineBad ws = false → (g.needBlk = false ∨ lineBlk (ws.getD 0 0) = true) → g.fmt = none →
    x ∈ lineIns ws → x.ins = .ok i → queueOk w x.q = none →
    ∃ f new, nextLine s w = some (f, new) ∧ ∃ l ∈ new, l ∈ f.lanes ∧ l.q = x.q ∧ l.ins = some i ∧ l.addr = g.pc + 4 * x.lane) ∧
  (∀ (s : State) (n : Nat) (q : Queue) (l : QLane) (i : Instr),
    clocksStand s = false → s.phase = .issue → groupRuns (mem s n) = true → dueLane (mem s n) q = some l → l.ins = some i →
    saveBreach l = false →
    (dueQueues (mem s n) = [q] ∨ ∀ p ∈ dueQueues (mem s n), isStalled n (laneRun n p s) = false) →
    (queueTurn n q s = true → Ran (step { s with agenda := .lane n q :: s.agenda }) (.lane n q l.addr) i s) ∧
    (∀ pre post qs, s.agenda = [] → siteList s = pre ++ n :: post → (∀ k ∈ pre, dueQueues (mem s k) = [] ∧ (frozenCause (mem s k) = none ∨ (mem s k).ctl.low ≠ none)) →
      dueQueues (mem s n) = q :: qs → laneRun n q s ≠ .next s → Ran (step s) (.lane n q l.addr) i s)) ∧
  (∀ (s : State) (n : Nat) (l : QLane) (i : Instr) (rest : List Pick), clocksStand s = false → s.phase = .issue → l.ins = some i →
    (s.agenda = .agent (.handler n) :: rest → dueHandler (mem s n) = some l → (mem s n).ui.count < 256 →
      Ran (step s) (.handler n l.addr) i { s with agenda := rest }) ∧
    (s.agenda = .agent (.lookup n) :: rest → dueLookup (lookupCore s n) = some l →
      Ran (step s) (.lookup n l.addr) i { s with agenda := rest })) ∧
  (∀ (s : State) (i : Instr) (rest : List Pick), s.agenda = .ev i :: rest → mayPick { s with agenda := rest } i = true →
    Ran (step s) .none i { s with agenda := rest }) ∧
  (∀ (nbits w : Nat) (q : Queue) (i : Instr), decodeTable nbits w = some (q, i) →
    let s := State.reset.withFetchWord nbits w
    (∃ l, dueLane (mem s 0) q = some l ∧ l.ins = some i) ∧ Ran (step s) (.lane 0 q 132) i s)

/-- R17, R30, R45, R51, R427, R429, R436: what reset leaves: the Calendar at zero, device memory zero, no launch
and nothing bound, every register of s, v, k, h and a, every loop level, slot and special register of every site at its T0 value, every flag zero, no service pending, Vigil not
armed, and the module up.
Rests on the model's choices of log 1 and 2. -/
def Obligations.ResetValues : Prop :=
  let s := State.reset
  s.cal = 0 ∧ s.launches = [] ∧ s.queues = [] ∧ s.graph = none ∧ s.bootStatus = 0xff ∧ vigilActive s = false ∧
  clocksStand s = false ∧ s.powerCap = 3800 ∧ s.tenant = 0 ∧ s.outs = [] ∧ s.svcs = [] ∧ s.inval = none ∧
  (∀ a, byteAt s.dmem a = 0) ∧ (∀ k, flagVal s k = 0) ∧
  ∀ n, (mem s n).ctl.life = .free ∧ (bindOf s n).state = 0 ∧
    (∀ r, sCell (mem s n) r = { alts := plain 0, pend := none }) ∧
    (∀ (r : VReg) (c : Nat), vSlice (mem s n) r c = VAlts.zero) ∧ (∀ (k : KReg) (c : Nat), kSlice (mem s n) k c = 0xffff) ∧
    (∀ q, slotOpen (mem s n) q = false) ∧ (∀ r, hReg (mem s n) r = 0) ∧ (∀ b k, slotFull (mem s n) b k = false) ∧
    (∀ r, aReg (mem s n) r = 0) ∧ (mem s n).ctl.fetch.stack = [] ∧ (mem s n).ctl.fetch.steps = [] ∧
    (let p := (mem s n).spr
     p.rmode = 0 ∧ p.uien = false ∧ p.oflow = false ∧ p.slip = false ∧ p.uflow = false ∧ p.coll = false ∧ p.cause = 0 ∧ p.faultVa = 0 ∧
     p.faultInfo = 0 ∧ p.rngKey = 0 ∧ p.rngCtr = 0 ∧ p.uiVector = 0 ∧ p.uiCause = 0 ∧ p.perfSel = 0 ∧ p.traceCtl = 0) ∧
    (lookupCore s n).run = false

/-- Device memory of the reset state lists nothing out of order and nothing that reads as an unlisted byte does. The form
is the model's own (log 2). -/
def Obligations.ResetMemory : Prop := State.reset.MemWf

/-- Every step, whatever it runs, keeps device memory in its canonical form, so that two memories whose bytes agree are
equal. The form is the model's own (log 2). -/
def Obligations.StepKeepsMemory : Prop := ∀ s t : State, s.MemWf → step s = .next t → t.MemWf
end

