-- ==== Sys2Proof/Laws/Tab.lean ====
section
/-! SUPPORT. Laws of the sparse tables and of the memories held in them: what a read finds after a write, and
that writing keeps the canonical form. -/

namespace Sys2Proof.Laws

open Sys2Proof Sys2Proof.Machine

variable {α : Type}

/-- A read after an insertion at the same key. -/
@[simp] theorem tget_tins_same (d : α) (t : Tab α) (k : Nat) (a : α) : tget d (tins t k a) k = a := by
  induction t with
  | nil => simp [tins, tget]
  | cons p r ih =>
    obtain ⟨k', b⟩ := p
    simp only [tins]
    split
    · simp [tget]
    · split
      · simp [tget]
      · rename_i h1 h2
        have : k' ≠ k := fun h => h2 h.symm
        simp [tget, this, ih]

/-- A read of another key after an insertion. -/
theorem tget_tins_ne (d : α) (t : Tab α) {k k' : Nat} (a : α) (h : k' ≠ k) : tget d (tins t k a) k' = tget d t k' := by
  induction t with
  | nil => simp [tins, tget, h.symm]
  | cons p r ih =>
    obtain ⟨j, b⟩ := p
    simp only [tins]
    split
    · simp [tget, h.symm]
    · split
      · rename_i h2
        subst h2
        simp [tget, h.symm]
      · simp [tget, ih]

/-- A read after a removal of the same key. -/
@[simp] theorem tget_tdel_same (d : α) (t : Tab α) (k : Nat) : tget d (tdel t k) k = d := by
  induction t with
  | nil => rfl
  | cons p r ih =>
    obtain ⟨j, b⟩ := p
    by_cases h : j = k <;> simp [tdel, tget, h, ih]

/-- A read of another key after a removal. -/
theorem tget_tdel_ne (d : α) (t : Tab α) {k k' : Nat} (h : k' ≠ k) : tget d (tdel t k) k' = tget d t k' := by
  induction t with
  | nil => rfl
  | cons p r ih =>
    obtain ⟨j, b⟩ := p
    by_cases hj : j = k
    · subst hj
      simp [tdel, tget, ih, h.symm]
    · simp [tdel, tget, hj, ih]

variable [DecidableEq α]

/-- A read after a write of the same key. -/
@[simp] theorem tget_tput_same (d : α) (t : Tab α) (k : Nat) (a : α) : tget d (tput d t k a) k = a := by
  unfold tput
  split
  · rename_i h
    simp [h]
  · simp

/-- A read of another key after a write. -/
theorem tget_tput_ne (d : α) (t : Tab α) {k k' : Nat} (a : α) (h : k' ≠ k) : tget d (tput d t k a) k' = tget d t k' := by
  unfold tput
  split
  · exact tget_tdel_ne d t h
  · exact tget_tins_ne d t a h

/-- A read after a write. -/
theorem tget_tput (d : α) (t : Tab α) (k k' : Nat) (a : α) :
    tget d (tput d t k a) k' = if k' = k then a else tget d t k' := by
  split
  · rename_i h
    simp [h]
  · rename_i h
    exact tget_tput_ne d t a h

/-! ## The canonical form -/

/-- Every key of a table is at least a bound. -/
def keysFrom (n : Nat) (t : Tab α) : Prop := ∀ p ∈ t, n ≤ p.1

omit [DecidableEq α] in
theorem keysFrom_mono {m n : Nat} {t : Tab α} (h : keysFrom n t) (le : m ≤ n) : keysFrom m t :=
  fun p hp => Nat.le_trans le (h p hp)

/-- The canonical form, one entry at a time. -/
theorem twf_cons (d : α) (k : Nat) (a : α) (t : Tab α) :
    twf d ((k, a) :: t) = true ↔ a ≠ d ∧ keysFrom (k + 1) t ∧ twf d t = true := by
  induction t generalizing k a with
  | nil => simp [twf, keysFrom]
  | cons p r ih =>
    obtain ⟨j, b⟩ := p
    have e : twf d ((k, a) :: (j, b) :: r) = true ↔ (a ≠ d ∧ k < j) ∧ twf d ((j, b) :: r) = true := by
      simp [twf]
    rw [e]
    constructor
    · rintro ⟨⟨ha, hk⟩, hr⟩
      refine ⟨ha, ?_, hr⟩
      intro q hq
      rcases List.mem_cons.1 hq with rfl | hq
      · exact hk
      · have := ((ih j b).1 hr).2.1 q hq
        omega
    · rintro ⟨ha, hk, hr⟩
      exact ⟨⟨ha, hk (j, b) (List.mem_cons_self ..)⟩, hr⟩

omit [DecidableEq α] in
theorem keysFrom_tins {n : Nat} {t : Tab α} {k : Nat} (a : α) (h : keysFrom n t) (hk : n ≤ k) : keysFrom n (tins t k a) := by
  induction t with
  | nil => intro p hp; simp [tins] at hp; simp [hp, hk]
  | cons q r ih =>
    obtain ⟨j, b⟩ := q
    have hj : n ≤ j := h (j, b) (List.mem_cons_self ..)
    have hr : keysFrom n r := fun p hp => h p (List.mem_cons_of_mem _ hp)
    intro p hp
    simp only [tins] at hp
    split at hp
    · simp only [List.mem_cons] at hp
      rcases hp with rfl | rfl | hp
      · exact hk
      · exact hj
      · exact hr p hp
    · split at hp
      · simp only [List.mem_cons] at hp
        rcases hp with rfl | hp
        · exact hk
        · exact hr p hp
      · simp only [List.mem_cons] at hp
        rcases hp with rfl | hp
        · exact hj
        · exact ih hr p hp

omit [DecidableEq α] in
theorem keysFrom_tdel {n : Nat} {t : Tab α} (k : Nat) (h : keysFrom n t) : keysFrom n (tdel t k) := by
  induction t with
  | nil => exact h
  | cons q r ih =>
    obtain ⟨j, b⟩ := q
    have hr : keysFrom n r := fun p hp => h p (List.mem_cons_of_mem _ hp)
    by_cases hj : j = k
    · simpa [tdel, hj] using ih hr
    · intro p hp
      simp only [tdel, hj, if_false, List.mem_cons] at hp
      rcases hp with rfl | hp
      · exact h _ (List.mem_cons_self ..)
      · exact ih hr p hp

/-- Insertion keeps the canonical form. -/
theorem twf_tins (d : α) (t : Tab α) (k : Nat) (a : α) (ha : a ≠ d) (h : twf d t = true) : twf d (tins t k a) = true := by
  induction t with
  | nil => simp [tins, twf, ha]
  | cons q r ih =>
    obtain ⟨j, b⟩ := q
    obtain ⟨hb, hk, hr⟩ := (twf_cons d j b r).1 h
    simp only [tins]
    split
    · rename_i lt
      refine (twf_cons ..).2 ⟨ha, ?_, h⟩
      intro p hp
      rcases List.mem_cons.1 hp with rfl | hp
      · exact lt
      · have := hk p hp; omega
    · split
      · rename_i e
        subst e
        exact (twf_cons ..).2 ⟨ha, hk, hr⟩
      · refine (twf_cons ..).2 ⟨hb, keysFrom_tins a hk (by omega), ih hr⟩

/-- Removal keeps the canonical form. -/
theorem twf_tdel (d : α) (t : Tab α) (k : Nat) (h : twf d t = true) : twf d (tdel t k) = true := by
  induction t with
  | nil => exact h
  | cons q r ih =>
    obtain ⟨j, b⟩ := q
    obtain ⟨hb, hk, hr⟩ := (twf_cons d j b r).1 h
    by_cases e : j = k
    · simpa [tdel, e] using ih hr
    · simpa [tdel, e] using (twf_cons ..).2 ⟨hb, keysFrom_tdel k hk, ih hr⟩

/-- A write keeps the canonical form. -/
theorem twf_tput (d : α) (t : Tab α) (k : Nat) (a : α) (h : twf d t = true) : twf d (tput d t k a) = true := by
  unfold tput
  split
  · exact twf_tdel d t k h
  · rename_i ha
    exact twf_tins d t k a ha h

omit [DecidableEq α] in
theorem keysFrom_filter {n : Nat} {t : Tab α} (f : Nat × α → Bool) (h : keysFrom n t) : keysFrom n (t.filter f) :=
  fun p hp => h p (List.mem_filter.1 hp).1

/-- Keeping some entries keeps the canonical form. -/
theorem twf_filter (d : α) (t : Tab α) (f : Nat × α → Bool) (h : twf d t = true) : twf d (t.filter f) = true := by
  induction t with
  | nil => exact h
  | cons q r ih =>
    obtain ⟨j, b⟩ := q
    obtain ⟨hb, hk, hr⟩ := (twf_cons d j b r).1 h
    rw [List.filter_cons]
    split
    · exact (twf_cons ..).2 ⟨hb, keysFrom_filter f hk, ih hr⟩
    · exact ih hr

/-! ## Memory -/

/-- A byte read after a byte written. -/
theorem byteAt_setByte (m : Mem) (a a' : Nat) (b : Byte) :
    byteAt (setByte m a b) a' = if a' = a then b else byteAt m a' := tget_tput 0 m a a' b

/-- `setByte` keeps the canonical form of a memory. -/
theorem setByte_wf (m : Mem) (a : Nat) (b : Byte) (h : Memory.wf m) : Memory.wf (setByte m a b) := twf_tput 0 m a b h

/-- `setBytes` keeps the canonical form of a memory. -/
theorem setBytes_wf (b : List Byte) : ∀ (m : Mem) (a : Nat), Memory.wf m → Memory.wf (setBytes m a b) := by
  induction b with
  | nil => intro m a h; exact h
  | cons x r ih => intro m a h; exact ih _ _ (setByte_wf m a x h)

/-- `setNum` keeps the canonical form of a memory. -/
theorem setNum_wf (m : Mem) (a n v : Nat) (h : Memory.wf m) : Memory.wf (setNum m a n v) := setBytes_wf _ m a h

/-- Clearing a range keeps the canonical form of a memory. -/
theorem tclear_wf (m : Mem) (lo n : Nat) (h : Memory.wf m) : Memory.wf (tclear m lo n) := twf_filter 0 m _ h

/-- Bytes outside a run written are unchanged. -/
theorem byteAt_setBytes_outside (b : List Byte) :
    ∀ (m : Mem) (a a' : Nat), a' < a ∨ a + b.length ≤ a' → byteAt (setBytes m a b) a' = byteAt m a' := by
  induction b with
  | nil => intro m a a' _; rfl
  | cons x r ih =>
    intro m a a' h
    have h1 : a' < a + 1 ∨ a + 1 + r.length ≤ a' := by simp only [List.length_cons] at h; omega
    have h2 : a' ≠ a := by simp only [List.length_cons] at h; omega
    rw [setBytes, ih _ _ _ h1, byteAt_setByte, if_neg h2]

/-- A byte inside a run written is the run's. -/
theorem byteAt_setBytes_inside (b : List Byte) :
    ∀ (m : Mem) (a i : Nat) (h : i < b.length), byteAt (setBytes m a b) (a + i) = b[i] := by
  induction b with
  | nil => intro m a i h; simp at h
  | cons x r ih =>
    intro m a i h
    cases i with
    | zero =>
      rw [setBytes, byteAt_setBytes_outside r _ _ _ (by omega), byteAt_setByte]
      simp
    | succ i =>
      have := ih (setByte m a x) (a + 1) i (by simpa using h)
      rw [setBytes, show a + (i + 1) = a + 1 + i by omega, this]
      simp

/-- A run read where it was written. -/
theorem bytesAt_setBytes_same (m : Mem) (a : Nat) (b : List Byte) : bytesAt (setBytes m a b) a b.length = b := by
  apply List.ext_getElem
  · simp [bytesAt]
  · intro i h1 h2
    simp [bytesAt, byteAt_setBytes_inside b m a i h2]

/-- The number of a number's bytes. -/
theorem leNat_leBytes (n : Nat) : ∀ v, leNat (leBytes n v) = v % 256 ^ n := by
  induction n with
  | zero => intro v; simp [leBytes, leNat, Nat.mod_one]
  | succ n ih =>
    intro v
    have e : 256 ^ (n + 1) = 256 * 256 ^ n := by rw [Nat.pow_succ, Nat.mul_comm]
    rw [leBytes, leNat, ih, e, Nat.mod_mul, BitVec.toNat_ofNat]

end Sys2Proof.Laws
end

