-- ==== Sys2Proof/Laws/State.lean ====
section
/-! SUPPORT. What each update of the state leaves as it was, one lemma per field. -/

namespace Sys2Proof.Laws

open Sys2Proof Sys2Proof.Machine

/-! ## `setMem` -/

@[simp] theorem setMem_cal (s : State) (n : Nat) (m : Member) : (setMem s n m).cal = s.cal := rfl
@[simp] theorem setMem_lookups (s : State) (n : Nat) (m : Member) : (setMem s n m).lookups = s.lookups := rfl
@[simp] theorem setMem_dflags (s : State) (n : Nat) (m : Member) : (setMem s n m).dflags = s.dflags := rfl
@[simp] theorem setMem_dmem (s : State) (n : Nat) (m : Member) : (setMem s n m).dmem = s.dmem := rfl
@[simp] theorem setMem_dbad (s : State) (n : Nat) (m : Member) : (setMem s n m).dbad = s.dbad := rfl
@[simp] theorem setMem_dkey (s : State) (n : Nat) (m : Member) : (setMem s n m).dkey = s.dkey := rfl
@[simp] theorem setMem_l2 (s : State) (n : Nat) (m : Member) : (setMem s n m).l2 = s.l2 := rfl
@[simp] theorem setMem_ctxs (s : State) (n : Nat) (m : Member) : (setMem s n m).ctxs = s.ctxs := rfl
@[simp] theorem setMem_quotas (s : State) (n : Nat) (m : Member) : (setMem s n m).quotas = s.quotas := rfl
@[simp] theorem setMem_qidx (s : State) (n : Nat) (m : Member) : (setMem s n m).qidx = s.qidx := rfl
@[simp] theorem setMem_ports (s : State) (n : Nat) (m : Member) : (setMem s n m).ports = s.ports := rfl
@[simp] theorem setMem_invCtl (s : State) (n : Nat) (m : Member) : (setMem s n m).invCtl = s.invCtl := rfl
@[simp] theorem setMem_invVa (s : State) (n : Nat) (m : Member) : (setMem s n m).invVa = s.invVa := rfl
@[simp] theorem setMem_inval (s : State) (n : Nat) (m : Member) : (setMem s n m).inval = s.inval := rfl
@[simp] theorem setMem_invNext (s : State) (n : Nat) (m : Member) : (setMem s n m).invNext = s.invNext := rfl
@[simp] theorem setMem_rings (s : State) (n : Nat) (m : Member) : (setMem s n m).rings = s.rings := rfl
@[simp] theorem setMem_recs (s : State) (n : Nat) (m : Member) : (setMem s n m).recs = s.recs := rfl
@[simp] theorem setMem_recsTerm (s : State) (n : Nat) (m : Member) : (setMem s n m).recsTerm = s.recsTerm := rfl
@[simp] theorem setMem_recsVf (s : State) (n : Nat) (m : Member) : (setMem s n m).recsVf = s.recsVf := rfl
@[simp] theorem setMem_weights (s : State) (n : Nat) (m : Member) : (setMem s n m).weights = s.weights := rfl
@[simp] theorem setMem_posted (s : State) (n : Nat) (m : Member) : (setMem s n m).posted = s.posted := rfl
@[simp] theorem setMem_round (s : State) (n : Nat) (m : Member) : (setMem s n m).round = s.round := rfl
@[simp] theorem setMem_lastVf (s : State) (n : Nat) (m : Member) : (setMem s n m).lastVf = s.lastVf := rfl
@[simp] theorem setMem_queues (s : State) (n : Nat) (m : Member) : (setMem s n m).queues = s.queues := rfl
@[simp] theorem setMem_launches (s : State) (n : Nat) (m : Member) : (setMem s n m).launches = s.launches := rfl
@[simp] theorem setMem_copies (s : State) (n : Nat) (m : Member) : (setMem s n m).copies = s.copies := rfl
@[simp] theorem setMem_wrr (s : State) (n : Nat) (m : Member) : (setMem s n m).wrr = s.wrr := rfl
@[simp] theorem setMem_slotTable (s : State) (n : Nat) (m : Member) : (setMem s n m).slotTable = s.slotTable := rfl
@[simp] theorem setMem_saveArea (s : State) (n : Nat) (m : Member) : (setMem s n m).saveArea = s.saveArea := rfl
@[simp] theorem setMem_waitLog (s : State) (n : Nat) (m : Member) : (setMem s n m).waitLog = s.waitLog := rfl
@[simp] theorem setMem_waitSeq (s : State) (n : Nat) (m : Member) : (setMem s n m).waitSeq = s.waitSeq := rfl
@[simp] theorem setMem_traceTab (s : State) (n : Nat) (m : Member) : (setMem s n m).traceTab = s.traceTab := rfl
@[simp] theorem setMem_rose (s : State) (n : Nat) (m : Member) : (setMem s n m).rose = s.rose := rfl
@[simp] theorem setMem_waitPend (s : State) (n : Nat) (m : Member) : (setMem s n m).waitPend = s.waitPend := rfl
@[simp] theorem setMem_overCap (s : State) (n : Nat) (m : Member) : (setMem s n m).overCap = s.overCap := rfl
@[simp] theorem setMem_lockClk (s : State) (n : Nat) (m : Member) : (setMem s n m).lockClk = s.lockClk := rfl
@[simp] theorem setMem_fenced (s : State) (n : Nat) (m : Member) : (setMem s n m).fenced = s.fenced := rfl
@[simp] theorem setMem_traceSt (s : State) (n : Nat) (m : Member) : (setMem s n m).traceSt = s.traceSt := rfl
@[simp] theorem setMem_lastSet (s : State) (n : Nat) (m : Member) : (setMem s n m).lastSet = s.lastSet := rfl
@[simp] theorem setMem_dbgReason (s : State) (n : Nat) (m : Member) : (setMem s n m).dbgReason = s.dbgReason := rfl
@[simp] theorem setMem_preemptCtl (s : State) (n : Nat) (m : Member) : (setMem s n m).preemptCtl = s.preemptCtl := rfl
@[simp] theorem setMem_bindGo (s : State) (n : Nat) (m : Member) : (setMem s n m).bindGo = s.bindGo := rfl
@[simp] theorem setMem_killReg (s : State) (n : Nat) (m : Member) : (setMem s n m).killReg = s.killReg := rfl
@[simp] theorem setMem_barriers (s : State) (n : Nat) (m : Member) : (setMem s n m).barriers = s.barriers := rfl
@[simp] theorem setMem_graph (s : State) (n : Nat) (m : Member) : (setMem s n m).graph = s.graph := rfl
@[simp] theorem setMem_tenant (s : State) (n : Nat) (m : Member) : (setMem s n m).tenant = s.tenant := rfl
@[simp] theorem setMem_sliceAt (s : State) (n : Nat) (m : Member) : (setMem s n m).sliceAt = s.sliceAt := rfl
@[simp] theorem setMem_tenantSaves (s : State) (n : Nat) (m : Member) : (setMem s n m).tenantSaves = s.tenantSaves := rfl
@[simp] theorem setMem_rtbank (s : State) (n : Nat) (m : Member) : (setMem s n m).rtbank = s.rtbank := rfl
@[simp] theorem setMem_moduleId (s : State) (n : Nat) (m : Member) : (setMem s n m).moduleId = s.moduleId := rfl
@[simp] theorem setMem_aperture (s : State) (n : Nat) (m : Member) : (setMem s n m).aperture = s.aperture := rfl
@[simp] theorem setMem_grants (s : State) (n : Nat) (m : Member) : (setMem s n m).grants = s.grants := rfl
@[simp] theorem setMem_routes (s : State) (n : Nat) (m : Member) : (setMem s n m).routes = s.routes := rfl
@[simp] theorem setMem_linkDown (s : State) (n : Nat) (m : Member) : (setMem s n m).linkDown = s.linkDown := rfl
@[simp] theorem setMem_malformed (s : State) (n : Nat) (m : Member) : (setMem s n m).malformed = s.malformed := rfl
@[simp] theorem setMem_outs (s : State) (n : Nat) (m : Member) : (setMem s n m).outs = s.outs := rfl
@[simp] theorem setMem_flr (s : State) (n : Nat) (m : Member) : (setMem s n m).flr = s.flr := rfl
@[simp] theorem setMem_msix (s : State) (n : Nat) (m : Member) : (setMem s n m).msix = s.msix := rfl
@[simp] theorem setMem_collIn (s : State) (n : Nat) (m : Member) : (setMem s n m).collIn = s.collIn := rfl
@[simp] theorem setMem_collCount (s : State) (n : Nat) (m : Member) : (setMem s n m).collCount = s.collCount := rfl
@[simp] theorem setMem_keys (s : State) (n : Nat) (m : Member) : (setMem s n m).keys = s.keys := rfl
@[simp] theorem setMem_meas (s : State) (n : Nat) (m : Member) : (setMem s n m).meas = s.meas := rfl
@[simp] theorem setMem_measLog (s : State) (n : Nat) (m : Member) : (setMem s n m).measLog = s.measLog := rfl
@[simp] theorem setMem_bootStatus (s : State) (n : Nat) (m : Member) : (setMem s n m).bootStatus = s.bootStatus := rfl
@[simp] theorem setMem_halted (s : State) (n : Nat) (m : Member) : (setMem s n m).halted = s.halted := rfl
@[simp] theorem setMem_alarms (s : State) (n : Nat) (m : Member) : (setMem s n m).alarms = s.alarms := rfl
@[simp] theorem setMem_powerCap (s : State) (n : Nat) (m : Member) : (setMem s n m).powerCap = s.powerCap := rfl
@[simp] theorem setMem_clockMhz (s : State) (n : Nat) (m : Member) : (setMem s n m).clockMhz = s.clockMhz := rfl
@[simp] theorem setMem_vigil (s : State) (n : Nat) (m : Member) : (setMem s n m).vigil = s.vigil := rfl
@[simp] theorem setMem_vigilTv (s : State) (n : Nat) (m : Member) : (setMem s n m).vigilTv = s.vigilTv := rfl
@[simp] theorem setMem_vigilRec (s : State) (n : Nat) (m : Member) : (setMem s n m).vigilRec = s.vigilRec := rfl
@[simp] theorem setMem_vigilOut (s : State) (n : Nat) (m : Member) : (setMem s n m).vigilOut = s.vigilOut := rfl
@[simp] theorem setMem_profiles (s : State) (n : Nat) (m : Member) : (setMem s n m).profiles = s.profiles := rfl
@[simp] theorem setMem_funcLog (s : State) (n : Nat) (m : Member) : (setMem s n m).funcLog = s.funcLog := rfl
@[simp] theorem setMem_mgmtLog (s : State) (n : Nat) (m : Member) : (setMem s n m).mgmtLog = s.mgmtLog := rfl
@[simp] theorem setMem_mailbox (s : State) (n : Nat) (m : Member) : (setMem s n m).mailbox = s.mailbox := rfl
@[simp] theorem setMem_moved (s : State) (n : Nat) (m : Member) : (setMem s n m).moved = s.moved := rfl
@[simp] theorem setMem_hostOut (s : State) (n : Nat) (m : Member) : (setMem s n m).hostOut = s.hostOut := rfl
@[simp] theorem setMem_flitOut (s : State) (n : Nat) (m : Member) : (setMem s n m).flitOut = s.flitOut := rfl
@[simp] theorem setMem_svcs (s : State) (n : Nat) (m : Member) : (setMem s n m).svcs = s.svcs := rfl
@[simp] theorem setMem_mig (s : State) (n : Nat) (m : Member) : (setMem s n m).mig = s.mig := rfl
@[simp] theorem setMem_replays (s : State) (n : Nat) (m : Member) : (setMem s n m).replays = s.replays := rfl
@[simp] theorem setMem_corrected (s : State) (n : Nat) (m : Member) : (setMem s n m).corrected = s.corrected := rfl
@[simp] theorem setMem_nLaunch (s : State) (n : Nat) (m : Member) : (setMem s n m).nLaunch = s.nLaunch := rfl
@[simp] theorem setMem_phase (s : State) (n : Nat) (m : Member) : (setMem s n m).phase = s.phase := rfl
@[simp] theorem setMem_agenda (s : State) (n : Nat) (m : Member) : (setMem s n m).agenda = s.agenda := rfl
@[simp] theorem setMem_cur (s : State) (n : Nat) (m : Member) : (setMem s n m).cur = s.cur := rfl
@[simp] theorem setMem_free (s : State) (n : Nat) (m : Member) : (setMem s n m).free = s.free := rfl
@[simp] theorem setMem_fresh (s : State) (n : Nat) (m : Member) : (setMem s n m).fresh = s.fresh := rfl
@[simp] theorem setMem_incarn (s : State) (n : Nat) (m : Member) : (setMem s n m).incarn = s.incarn := rfl
@[simp] theorem setMem_clocks (s : State) (n : Nat) (m : Member) : (setMem s n m).clocks = s.clocks := rfl
@[simp] theorem setMem_flagClk (s : State) (n : Nat) (m : Member) : (setMem s n m).flagClk = s.flagClk := rfl
@[simp] theorem setMem_accs (s : State) (n : Nat) (m : Member) : (setMem s n m).accs = s.accs := rfl

/-! ## `updMem` -/

@[simp] theorem updMem_cal (s : State) (n : Nat) (f : Member → Member) : (updMem s n f).cal = s.cal := rfl
@[simp] theorem updMem_lookups (s : State) (n : Nat) (f : Member → Member) : (updMem s n f).lookups = s.lookups := rfl
@[simp] theorem updMem_dflags (s : State) (n : Nat) (f : Member → Member) : (updMem s n f).dflags = s.dflags := rfl
@[simp] theorem updMem_dmem (s : State) (n : Nat) (f : Member → Member) : (updMem s n f).dmem = s.dmem := rfl
@[simp] theorem updMem_dbad (s : State) (n : Nat) (f : Member → Member) : (updMem s n f).dbad = s.dbad := rfl
@[simp] theorem updMem_dkey (s : State) (n : Nat) (f : Member → Member) : (updMem s n f).dkey = s.dkey := rfl
@[simp] theorem updMem_l2 (s : State) (n : Nat) (f : Member → Member) : (updMem s n f).l2 = s.l2 := rfl
@[simp] theorem updMem_ctxs (s : State) (n : Nat) (f : Member → Member) : (updMem s n f).ctxs = s.ctxs := rfl
@[simp] theorem updMem_quotas (s : State) (n : Nat) (f : Member → Member) : (updMem s n f).quotas = s.quotas := rfl
@[simp] theorem updMem_qidx (s : State) (n : Nat) (f : Member → Member) : (updMem s n f).qidx = s.qidx := rfl
@[simp] theorem updMem_ports (s : State) (n : Nat) (f : Member → Member) : (updMem s n f).ports = s.ports := rfl
@[simp] theorem updMem_invCtl (s : State) (n : Nat) (f : Member → Member) : (updMem s n f).invCtl = s.invCtl := rfl
@[simp] theorem updMem_invVa (s : State) (n : Nat) (f : Member → Member) : (updMem s n f).invVa = s.invVa := rfl
@[simp] theorem updMem_inval (s : State) (n : Nat) (f : Member → Member) : (updMem s n f).inval = s.inval := rfl
@[simp] theorem updMem_invNext (s : State) (n : Nat) (f : Member → Member) : (updMem s n f).invNext = s.invNext := rfl
@[simp] theorem updMem_rings (s : State) (n : Nat) (f : Member → Member) : (updMem s n f).rings = s.rings := rfl
@[simp] theorem updMem_recs (s : State) (n : Nat) (f : Member → Member) : (updMem s n f).recs = s.recs := rfl
@[simp] theorem updMem_recsTerm (s : State) (n : Nat) (f : Member → Member) : (updMem s n f).recsTerm = s.recsTerm := rfl
@[simp] theorem updMem_recsVf (s : State) (n : Nat) (f : Member → Member) : (updMem s n f).recsVf = s.recsVf := rfl
@[simp] theorem updMem_weights (s : State) (n : Nat) (f : Member → Member) : (updMem s n f).weights = s.weights := rfl
@[simp] theorem updMem_posted (s : State) (n : Nat) (f : Member → Member) : (updMem s n f).posted = s.posted := rfl
@[simp] theorem updMem_round (s : State) (n : Nat) (f : Member → Member) : (updMem s n f).round = s.round := rfl
@[simp] theorem updMem_lastVf (s : State) (n : Nat) (f : Member → Member) : (updMem s n f).lastVf = s.lastVf := rfl
@[simp] theorem updMem_queues (s : State) (n : Nat) (f : Member → Member) : (updMem s n f).queues = s.queues := rfl
@[simp] theorem updMem_launches (s : State) (n : Nat) (f : Member → Member) : (updMem s n f).launches = s.launches := rfl
@[simp] theorem updMem_copies (s : State) (n : Nat) (f : Member → Member) : (updMem s n f).copies = s.copies := rfl
@[simp] theorem updMem_wrr (s : State) (n : Nat) (f : Member → Member) : (updMem s n f).wrr = s.wrr := rfl
@[simp] theorem updMem_slotTable (s : State) (n : Nat) (f : Member → Member) : (updMem s n f).slotTable = s.slotTable := rfl
@[simp] theorem updMem_saveArea (s : State) (n : Nat) (f : Member → Member) : (updMem s n f).saveArea = s.saveArea := rfl
@[simp] theorem updMem_waitLog (s : State) (n : Nat) (f : Member → Member) : (updMem s n f).waitLog = s.waitLog := rfl
@[simp] theorem updMem_waitSeq (s : State) (n : Nat) (f : Member → Member) : (updMem s n f).waitSeq = s.waitSeq := rfl
@[simp] theorem updMem_traceTab (s : State) (n : Nat) (f : Member → Member) : (updMem s n f).traceTab = s.traceTab := rfl
@[simp] theorem updMem_rose (s : State) (n : Nat) (f : Member → Member) : (updMem s n f).rose = s.rose := rfl
@[simp] theorem updMem_waitPend (s : State) (n : Nat) (f : Member → Member) : (updMem s n f).waitPend = s.waitPend := rfl
@[simp] theorem updMem_overCap (s : State) (n : Nat) (f : Member → Member) : (updMem s n f).overCap = s.overCap := rfl
@[simp] theorem updMem_lockClk (s : State) (n : Nat) (f : Member → Member) : (updMem s n f).lockClk = s.lockClk := rfl
@[simp] theorem updMem_fenced (s : State) (n : Nat) (f : Member → Member) : (updMem s n f).fenced = s.fenced := rfl
@[simp] theorem updMem_traceSt (s : State) (n : Nat) (f : Member → Member) : (updMem s n f).traceSt = s.traceSt := rfl
@[simp] theorem updMem_lastSet (s : State) (n : Nat) (f : Member → Member) : (updMem s n f).lastSet = s.lastSet := rfl
@[simp] theorem updMem_dbgReason (s : State) (n : Nat) (f : Member → Member) : (updMem s n f).dbgReason = s.dbgReason := rfl
@[simp] theorem updMem_preemptCtl (s : State) (n : Nat) (f : Member → Member) : (updMem s n f).preemptCtl = s.preemptCtl := rfl
@[simp] theorem updMem_bindGo (s : State) (n : Nat) (f : Member → Member) : (updMem s n f).bindGo = s.bindGo := rfl
@[simp] theorem updMem_killReg (s : State) (n : Nat) (f : Member → Member) : (updMem s n f).killReg = s.killReg := rfl
@[simp] theorem updMem_barriers (s : State) (n : Nat) (f : Member → Member) : (updMem s n f).barriers = s.barriers := rfl
@[simp] theorem updMem_graph (s : State) (n : Nat) (f : Member → Member) : (updMem s n f).graph = s.graph := rfl
@[simp] theorem updMem_tenant (s : State) (n : Nat) (f : Member → Member) : (updMem s n f).tenant = s.tenant := rfl
@[simp] theorem updMem_sliceAt (s : State) (n : Nat) (f : Member → Member) : (updMem s n f).sliceAt = s.sliceAt := rfl
@[simp] theorem updMem_tenantSaves (s : State) (n : Nat) (f : Member → Member) : (updMem s n f).tenantSaves = s.tenantSaves := rfl
@[simp] theorem updMem_rtbank (s : State) (n : Nat) (f : Member → Member) : (updMem s n f).rtbank = s.rtbank := rfl
@[simp] theorem updMem_moduleId (s : State) (n : Nat) (f : Member → Member) : (updMem s n f).moduleId = s.moduleId := rfl
@[simp] theorem updMem_aperture (s : State) (n : Nat) (f : Member → Member) : (updMem s n f).aperture = s.aperture := rfl
@[simp] theorem updMem_grants (s : State) (n : Nat) (f : Member → Member) : (updMem s n f).grants = s.grants := rfl
@[simp] theorem updMem_routes (s : State) (n : Nat) (f : Member → Member) : (updMem s n f).routes = s.routes := rfl
@[simp] theorem updMem_linkDown (s : State) (n : Nat) (f : Member → Member) : (updMem s n f).linkDown = s.linkDown := rfl
@[simp] theorem updMem_malformed (s : State) (n : Nat) (f : Member → Member) : (updMem s n f).malformed = s.malformed := rfl
@[simp] theorem updMem_outs (s : State) (n : Nat) (f : Member → Member) : (updMem s n f).outs = s.outs := rfl
@[simp] theorem updMem_flr (s : State) (n : Nat) (f : Member → Member) : (updMem s n f).flr = s.flr := rfl
@[simp] theorem updMem_msix (s : State) (n : Nat) (f : Member → Member) : (updMem s n f).msix = s.msix := rfl
@[simp] theorem updMem_collIn (s : State) (n : Nat) (f : Member → Member) : (updMem s n f).collIn = s.collIn := rfl
@[simp] theorem updMem_collCount (s : State) (n : Nat) (f : Member → Member) : (updMem s n f).collCount = s.collCount := rfl
@[simp] theorem updMem_keys (s : State) (n : Nat) (f : Member → Member) : (updMem s n f).keys = s.keys := rfl
@[simp] theorem updMem_meas (s : State) (n : Nat) (f : Member → Member) : (updMem s n f).meas = s.meas := rfl
@[simp] theorem updMem_measLog (s : State) (n : Nat) (f : Member → Member) : (updMem s n f).measLog = s.measLog := rfl
@[simp] theorem updMem_bootStatus (s : State) (n : Nat) (f : Member → Member) : (updMem s n f).bootStatus = s.bootStatus := rfl
@[simp] theorem updMem_halted (s : State) (n : Nat) (f : Member → Member) : (updMem s n f).halted = s.halted := rfl
@[simp] theorem updMem_alarms (s : State) (n : Nat) (f : Member → Member) : (updMem s n f).alarms = s.alarms := rfl
@[simp] theorem updMem_powerCap (s : State) (n : Nat) (f : Member → Member) : (updMem s n f).powerCap = s.powerCap := rfl
@[simp] theorem updMem_clockMhz (s : State) (n : Nat) (f : Member → Member) : (updMem s n f).clockMhz = s.clockMhz := rfl
@[simp] theorem updMem_vigil (s : State) (n : Nat) (f : Member → Member) : (updMem s n f).vigil = s.vigil := rfl
@[simp] theorem updMem_vigilTv (s : State) (n : Nat) (f : Member → Member) : (updMem s n f).vigilTv = s.vigilTv := rfl
@[simp] theorem updMem_vigilRec (s : State) (n : Nat) (f : Member → Member) : (updMem s n f).vigilRec = s.vigilRec := rfl
@[simp] theorem updMem_vigilOut (s : State) (n : Nat) (f : Member → Member) : (updMem s n f).vigilOut = s.vigilOut := rfl
@[simp] theorem updMem_profiles (s : State) (n : Nat) (f : Member → Member) : (updMem s n f).profiles = s.profiles := rfl
@[simp] theorem updMem_funcLog (s : State) (n : Nat) (f : Member → Member) : (updMem s n f).funcLog = s.funcLog := rfl
@[simp] theorem updMem_mgmtLog (s : State) (n : Nat) (f : Member → Member) : (updMem s n f).mgmtLog = s.mgmtLog := rfl
@[simp] theorem updMem_mailbox (s : State) (n : Nat) (f : Member → Member) : (updMem s n f).mailbox = s.mailbox := rfl
@[simp] theorem updMem_moved (s : State) (n : Nat) (f : Member → Member) : (updMem s n f).moved = s.moved := rfl
@[simp] theorem updMem_hostOut (s : State) (n : Nat) (f : Member → Member) : (updMem s n f).hostOut = s.hostOut := rfl
@[simp] theorem updMem_flitOut (s : State) (n : Nat) (f : Member → Member) : (updMem s n f).flitOut = s.flitOut := rfl
@[simp] theorem updMem_svcs (s : State) (n : Nat) (f : Member → Member) : (updMem s n f).svcs = s.svcs := rfl
@[simp] theorem updMem_mig (s : State) (n : Nat) (f : Member → Member) : (updMem s n f).mig = s.mig := rfl
@[simp] theorem updMem_replays (s : State) (n : Nat) (f : Member → Member) : (updMem s n f).replays = s.replays := rfl
@[simp] theorem updMem_corrected (s : State) (n : Nat) (f : Member → Member) : (updMem s n f).corrected = s.corrected := rfl
@[simp] theorem updMem_nLaunch (s : State) (n : Nat) (f : Member → Member) : (updMem s n f).nLaunch = s.nLaunch := rfl
@[simp] theorem updMem_phase (s : State) (n : Nat) (f : Member → Member) : (updMem s n f).phase = s.phase := rfl
@[simp] theorem updMem_agenda (s : State) (n : Nat) (f : Member → Member) : (updMem s n f).agenda = s.agenda := rfl
@[simp] theorem updMem_cur (s : State) (n : Nat) (f : Member → Member) : (updMem s n f).cur = s.cur := rfl
@[simp] theorem updMem_free (s : State) (n : Nat) (f : Member → Member) : (updMem s n f).free = s.free := rfl
@[simp] theorem updMem_fresh (s : State) (n : Nat) (f : Member → Member) : (updMem s n f).fresh = s.fresh := rfl
@[simp] theorem updMem_incarn (s : State) (n : Nat) (f : Member → Member) : (updMem s n f).incarn = s.incarn := rfl
@[simp] theorem updMem_clocks (s : State) (n : Nat) (f : Member → Member) : (updMem s n f).clocks = s.clocks := rfl
@[simp] theorem updMem_flagClk (s : State) (n : Nat) (f : Member → Member) : (updMem s n f).flagClk = s.flagClk := rfl
@[simp] theorem updMem_accs (s : State) (n : Nat) (f : Member → Member) : (updMem s n f).accs = s.accs := rfl

/-! ## `setLookup` -/

@[simp] theorem setLookup_cal (s : State) (n : Nat) (l : Lookup) : (setLookup s n l).cal = s.cal := rfl
@[simp] theorem setLookup_members (s : State) (n : Nat) (l : Lookup) : (setLookup s n l).members = s.members := rfl
@[simp] theorem setLookup_dflags (s : State) (n : Nat) (l : Lookup) : (setLookup s n l).dflags = s.dflags := rfl
@[simp] theorem setLookup_dmem (s : State) (n : Nat) (l : Lookup) : (setLookup s n l).dmem = s.dmem := rfl
@[simp] theorem setLookup_dbad (s : State) (n : Nat) (l : Lookup) : (setLookup s n l).dbad = s.dbad := rfl
@[simp] theorem setLookup_dkey (s : State) (n : Nat) (l : Lookup) : (setLookup s n l).dkey = s.dkey := rfl
@[simp] theorem setLookup_l2 (s : State) (n : Nat) (l : Lookup) : (setLookup s n l).l2 = s.l2 := rfl
@[simp] theorem setLookup_ctxs (s : State) (n : Nat) (l : Lookup) : (setLookup s n l).ctxs = s.ctxs := rfl
@[simp] theorem setLookup_quotas (s : State) (n : Nat) (l : Lookup) : (setLookup s n l).quotas = s.quotas := rfl
@[simp] theorem setLookup_qidx (s : State) (n : Nat) (l : Lookup) : (setLookup s n l).qidx = s.qidx := rfl
@[simp] theorem setLookup_ports (s : State) (n : Nat) (l : Lookup) : (setLookup s n l).ports = s.ports := rfl
@[simp] theorem setLookup_invCtl (s : State) (n : Nat) (l : Lookup) : (setLookup s n l).invCtl = s.invCtl := rfl
@[simp] theorem setLookup_invVa (s : State) (n : Nat) (l : Lookup) : (setLookup s n l).invVa = s.invVa := rfl
@[simp] theorem setLookup_inval (s : State) (n : Nat) (l : Lookup) : (setLookup s n l).inval = s.inval := rfl
@[simp] theorem setLookup_invNext (s : State) (n : Nat) (l : Lookup) : (setLookup s n l).invNext = s.invNext := rfl
@[simp] theorem setLookup_rings (s : State) (n : Nat) (l : Lookup) : (setLookup s n l).rings = s.rings := rfl
@[simp] theorem setLookup_recs (s : State) (n : Nat) (l : Lookup) : (setLookup s n l).recs = s.recs := rfl
@[simp] theorem setLookup_recsTerm (s : State) (n : Nat) (l : Lookup) : (setLookup s n l).recsTerm = s.recsTerm := rfl
@[simp] theorem setLookup_recsVf (s : State) (n : Nat) (l : Lookup) : (setLookup s n l).recsVf = s.recsVf := rfl
@[simp] theorem setLookup_weights (s : State) (n : Nat) (l : Lookup) : (setLookup s n l).weights = s.weights := rfl
@[simp] theorem setLookup_posted (s : State) (n : Nat) (l : Lookup) : (setLookup s n l).posted = s.posted := rfl
@[simp] theorem setLookup_round (s : State) (n : Nat) (l : Lookup) : (setLookup s n l).round = s.round := rfl
@[simp] theorem setLookup_lastVf (s : State) (n : Nat) (l : Lookup) : (setLookup s n l).lastVf = s.lastVf := rfl
@[simp] theorem setLookup_queues (s : State) (n : Nat) (l : Lookup) : (setLookup s n l).queues = s.queues := rfl
@[simp] theorem setLookup_launches (s : State) (n : Nat) (l : Lookup) : (setLookup s n l).launches = s.launches := rfl
@[simp] theorem setLookup_copies (s : State) (n : Nat) (l : Lookup) : (setLookup s n l).copies = s.copies := rfl
@[simp] theorem setLookup_wrr (s : State) (n : Nat) (l : Lookup) : (setLookup s n l).wrr = s.wrr := rfl
@[simp] theorem setLookup_slotTable (s : State) (n : Nat) (l : Lookup) : (setLookup s n l).slotTable = s.slotTable := rfl
@[simp] theorem setLookup_saveArea (s : State) (n : Nat) (l : Lookup) : (setLookup s n l).saveArea = s.saveArea := rfl
@[simp] theorem setLookup_waitLog (s : State) (n : Nat) (l : Lookup) : (setLookup s n l).waitLog = s.waitLog := rfl
@[simp] theorem setLookup_waitSeq (s : State) (n : Nat) (l : Lookup) : (setLookup s n l).waitSeq = s.waitSeq := rfl
@[simp] theorem setLookup_traceTab (s : State) (n : Nat) (l : Lookup) : (setLookup s n l).traceTab = s.traceTab := rfl
@[simp] theorem setLookup_rose (s : State) (n : Nat) (l : Lookup) : (setLookup s n l).rose = s.rose := rfl
@[simp] theorem setLookup_waitPend (s : State) (n : Nat) (l : Lookup) : (setLookup s n l).waitPend = s.waitPend := rfl
@[simp] theorem setLookup_overCap (s : State) (n : Nat) (l : Lookup) : (setLookup s n l).overCap = s.overCap := rfl
@[simp] theorem setLookup_lockClk (s : State) (n : Nat) (l : Lookup) : (setLookup s n l).lockClk = s.lockClk := rfl
@[simp] theorem setLookup_fenced (s : State) (n : Nat) (l : Lookup) : (setLookup s n l).fenced = s.fenced := rfl
@[simp] theorem setLookup_traceSt (s : State) (n : Nat) (l : Lookup) : (setLookup s n l).traceSt = s.traceSt := rfl
@[simp] theorem setLookup_lastSet (s : State) (n : Nat) (l : Lookup) : (setLookup s n l).lastSet = s.lastSet := rfl
@[simp] theorem setLookup_dbgReason (s : State) (n : Nat) (l : Lookup) : (setLookup s n l).dbgReason = s.dbgReason := rfl
@[simp] theorem setLookup_preemptCtl (s : State) (n : Nat) (l : Lookup) : (setLookup s n l).preemptCtl = s.preemptCtl := rfl
@[simp] theorem setLookup_bindGo (s : State) (n : Nat) (l : Lookup) : (setLookup s n l).bindGo = s.bindGo := rfl
@[simp] theorem setLookup_killReg (s : State) (n : Nat) (l : Lookup) : (setLookup s n l).killReg = s.killReg := rfl
@[simp] theorem setLookup_barriers (s : State) (n : Nat) (l : Lookup) : (setLookup s n l).barriers = s.barriers := rfl
@[simp] theorem setLookup_graph (s : State) (n : Nat) (l : Lookup) : (setLookup s n l).graph = s.graph := rfl
@[simp] theorem setLookup_tenant (s : State) (n : Nat) (l : Lookup) : (setLookup s n l).tenant = s.tenant := rfl
@[simp] theorem setLookup_sliceAt (s : State) (n : Nat) (l : Lookup) : (setLookup s n l).sliceAt = s.sliceAt := rfl
@[simp] theorem setLookup_tenantSaves (s : State) (n : Nat) (l : Lookup) : (setLookup s n l).tenantSaves = s.tenantSaves := rfl
@[simp] theorem setLookup_rtbank (s : State) (n : Nat) (l : Lookup) : (setLookup s n l).rtbank = s.rtbank := rfl
@[simp] theorem setLookup_moduleId (s : State) (n : Nat) (l : Lookup) : (setLookup s n l).moduleId = s.moduleId := rfl
@[simp] theorem setLookup_aperture (s : State) (n : Nat) (l : Lookup) : (setLookup s n l).aperture = s.aperture := rfl
@[simp] theorem setLookup_grants (s : State) (n : Nat) (l : Lookup) : (setLookup s n l).grants = s.grants := rfl
@[simp] theorem setLookup_routes (s : State) (n : Nat) (l : Lookup) : (setLookup s n l).routes = s.routes := rfl
@[simp] theorem setLookup_linkDown (s : State) (n : Nat) (l : Lookup) : (setLookup s n l).linkDown = s.linkDown := rfl
@[simp] theorem setLookup_malformed (s : State) (n : Nat) (l : Lookup) : (setLookup s n l).malformed = s.malformed := rfl
@[simp] theorem setLookup_outs (s : State) (n : Nat) (l : Lookup) : (setLookup s n l).outs = s.outs := rfl
@[simp] theorem setLookup_flr (s : State) (n : Nat) (l : Lookup) : (setLookup s n l).flr = s.flr := rfl
@[simp] theorem setLookup_msix (s : State) (n : Nat) (l : Lookup) : (setLookup s n l).msix = s.msix := rfl
@[simp] theorem setLookup_collIn (s : State) (n : Nat) (l : Lookup) : (setLookup s n l).collIn = s.collIn := rfl
@[simp] theorem setLookup_collCount (s : State) (n : Nat) (l : Lookup) : (setLookup s n l).collCount = s.collCount := rfl
@[simp] theorem setLookup_keys (s : State) (n : Nat) (l : Lookup) : (setLookup s n l).keys = s.keys := rfl
@[simp] theorem setLookup_meas (s : State) (n : Nat) (l : Lookup) : (setLookup s n l).meas = s.meas := rfl
@[simp] theorem setLookup_measLog (s : State) (n : Nat) (l : Lookup) : (setLookup s n l).measLog = s.measLog := rfl
@[simp] theorem setLookup_bootStatus (s : State) (n : Nat) (l : Lookup) : (setLookup s n l).bootStatus = s.bootStatus := rfl
@[simp] theorem setLookup_halted (s : State) (n : Nat) (l : Lookup) : (setLookup s n l).halted = s.halted := rfl
@[simp] theorem setLookup_alarms (s : State) (n : Nat) (l : Lookup) : (setLookup s n l).alarms = s.alarms := rfl
@[simp] theorem setLookup_powerCap (s : State) (n : Nat) (l : Lookup) : (setLookup s n l).powerCap = s.powerCap := rfl
@[simp] theorem setLookup_clockMhz (s : State) (n : Nat) (l : Lookup) : (setLookup s n l).clockMhz = s.clockMhz := rfl
@[simp] theorem setLookup_vigil (s : State) (n : Nat) (l : Lookup) : (setLookup s n l).vigil = s.vigil := rfl
@[simp] theorem setLookup_vigilTv (s : State) (n : Nat) (l : Lookup) : (setLookup s n l).vigilTv = s.vigilTv := rfl
@[simp] theorem setLookup_vigilRec (s : State) (n : Nat) (l : Lookup) : (setLookup s n l).vigilRec = s.vigilRec := rfl
@[simp] theorem setLookup_vigilOut (s : State) (n : Nat) (l : Lookup) : (setLookup s n l).vigilOut = s.vigilOut := rfl
@[simp] theorem setLookup_profiles (s : State) (n : Nat) (l : Lookup) : (setLookup s n l).profiles = s.profiles := rfl
@[simp] theorem setLookup_funcLog (s : State) (n : Nat) (l : Lookup) : (setLookup s n l).funcLog = s.funcLog := rfl
@[simp] theorem setLookup_mgmtLog (s : State) (n : Nat) (l : Lookup) : (setLookup s n l).mgmtLog = s.mgmtLog := rfl
@[simp] theorem setLookup_mailbox (s : State) (n : Nat) (l : Lookup) : (setLookup s n l).mailbox = s.mailbox := rfl
@[simp] theorem setLookup_moved (s : State) (n : Nat) (l : Lookup) : (setLookup s n l).moved = s.moved := rfl
@[simp] theorem setLookup_hostOut (s : State) (n : Nat) (l : Lookup) : (setLookup s n l).hostOut = s.hostOut := rfl
@[simp] theorem setLookup_flitOut (s : State) (n : Nat) (l : Lookup) : (setLookup s n l).flitOut = s.flitOut := rfl
@[simp] theorem setLookup_svcs (s : State) (n : Nat) (l : Lookup) : (setLookup s n l).svcs = s.svcs := rfl
@[simp] theorem setLookup_mig (s : State) (n : Nat) (l : Lookup) : (setLookup s n l).mig = s.mig := rfl
@[simp] theorem setLookup_replays (s : State) (n : Nat) (l : Lookup) : (setLookup s n l).replays = s.replays := rfl
@[simp] theorem setLookup_corrected (s : State) (n : Nat) (l : Lookup) : (setLookup s n l).corrected = s.corrected := rfl
@[simp] theorem setLookup_nLaunch (s : State) (n : Nat) (l : Lookup) : (setLookup s n l).nLaunch = s.nLaunch := rfl
@[simp] theorem setLookup_phase (s : State) (n : Nat) (l : Lookup) : (setLookup s n l).phase = s.phase := rfl
@[simp] theorem setLookup_agenda (s : State) (n : Nat) (l : Lookup) : (setLookup s n l).agenda = s.agenda := rfl
@[simp] theorem setLookup_cur (s : State) (n : Nat) (l : Lookup) : (setLookup s n l).cur = s.cur := rfl
@[simp] theorem setLookup_free (s : State) (n : Nat) (l : Lookup) : (setLookup s n l).free = s.free := rfl
@[simp] theorem setLookup_fresh (s : State) (n : Nat) (l : Lookup) : (setLookup s n l).fresh = s.fresh := rfl
@[simp] theorem setLookup_incarn (s : State) (n : Nat) (l : Lookup) : (setLookup s n l).incarn = s.incarn := rfl
@[simp] theorem setLookup_clocks (s : State) (n : Nat) (l : Lookup) : (setLookup s n l).clocks = s.clocks := rfl
@[simp] theorem setLookup_flagClk (s : State) (n : Nat) (l : Lookup) : (setLookup s n l).flagClk = s.flagClk := rfl
@[simp] theorem setLookup_accs (s : State) (n : Nat) (l : Lookup) : (setLookup s n l).accs = s.accs := rfl

/-! ## `updLaunch` -/

@[simp] theorem updLaunch_cal (s : State) (i : Word32) (f : Launch → Launch) : (updLaunch s i f).cal = s.cal := rfl
@[simp] theorem updLaunch_members (s : State) (i : Word32) (f : Launch → Launch) : (updLaunch s i f).members = s.members := rfl
@[simp] theorem updLaunch_lookups (s : State) (i : Word32) (f : Launch → Launch) : (updLaunch s i f).lookups = s.lookups := rfl
@[simp] theorem updLaunch_dflags (s : State) (i : Word32) (f : Launch → Launch) : (updLaunch s i f).dflags = s.dflags := rfl
@[simp] theorem updLaunch_dmem (s : State) (i : Word32) (f : Launch → Launch) : (updLaunch s i f).dmem = s.dmem := rfl
@[simp] theorem updLaunch_dbad (s : State) (i : Word32) (f : Launch → Launch) : (updLaunch s i f).dbad = s.dbad := rfl
@[simp] theorem updLaunch_dkey (s : State) (i : Word32) (f : Launch → Launch) : (updLaunch s i f).dkey = s.dkey := rfl
@[simp] theorem updLaunch_l2 (s : State) (i : Word32) (f : Launch → Launch) : (updLaunch s i f).l2 = s.l2 := rfl
@[simp] theorem updLaunch_ctxs (s : State) (i : Word32) (f : Launch → Launch) : (updLaunch s i f).ctxs = s.ctxs := rfl
@[simp] theorem updLaunch_quotas (s : State) (i : Word32) (f : Launch → Launch) : (updLaunch s i f).quotas = s.quotas := rfl
@[simp] theorem updLaunch_qidx (s : State) (i : Word32) (f : Launch → Launch) : (updLaunch s i f).qidx = s.qidx := rfl
@[simp] theorem updLaunch_ports (s : State) (i : Word32) (f : Launch → Launch) : (updLaunch s i f).ports = s.ports := rfl
@[simp] theorem updLaunch_invCtl (s : State) (i : Word32) (f : Launch → Launch) : (updLaunch s i f).invCtl = s.invCtl := rfl
@[simp] theorem updLaunch_invVa (s : State) (i : Word32) (f : Launch → Launch) : (updLaunch s i f).invVa = s.invVa := rfl
@[simp] theorem updLaunch_inval (s : State) (i : Word32) (f : Launch → Launch) : (updLaunch s i f).inval = s.inval := rfl
@[simp] theorem updLaunch_invNext (s : State) (i : Word32) (f : Launch → Launch) : (updLaunch s i f).invNext = s.invNext := rfl
@[simp] theorem updLaunch_rings (s : State) (i : Word32) (f : Launch → Launch) : (updLaunch s i f).rings = s.rings := rfl
@[simp] theorem updLaunch_recs (s : State) (i : Word32) (f : Launch → Launch) : (updLaunch s i f).recs = s.recs := rfl
@[simp] theorem updLaunch_recsTerm (s : State) (i : Word32) (f : Launch → Launch) : (updLaunch s i f).recsTerm = s.recsTerm := rfl
@[simp] theorem updLaunch_recsVf (s : State) (i : Word32) (f : Launch → Launch) : (updLaunch s i f).recsVf = s.recsVf := rfl
@[simp] theorem updLaunch_weights (s : State) (i : Word32) (f : Launch → Launch) : (updLaunch s i f).weights = s.weights := rfl
@[simp] theorem updLaunch_posted (s : State) (i : Word32) (f : Launch → Launch) : (updLaunch s i f).posted = s.posted := rfl
@[simp] theorem updLaunch_round (s : State) (i : Word32) (f : Launch → Launch) : (updLaunch s i f).round = s.round := rfl
@[simp] theorem updLaunch_lastVf (s : State) (i : Word32) (f : Launch → Launch) : (updLaunch s i f).lastVf = s.lastVf := rfl
@[simp] theorem updLaunch_queues (s : State) (i : Word32) (f : Launch → Launch) : (updLaunch s i f).queues = s.queues := rfl
@[simp] theorem updLaunch_copies (s : State) (i : Word32) (f : Launch → Launch) : (updLaunch s i f).copies = s.copies := rfl
@[simp] theorem updLaunch_wrr (s : State) (i : Word32) (f : Launch → Launch) : (updLaunch s i f).wrr = s.wrr := rfl
@[simp] theorem updLaunch_slotTable (s : State) (i : Word32) (f : Launch → Launch) : (updLaunch s i f).slotTable = s.slotTable := rfl
@[simp] theorem updLaunch_saveArea (s : State) (i : Word32) (f : Launch → Launch) : (updLaunch s i f).saveArea = s.saveArea := rfl
@[simp] theorem updLaunch_waitLog (s : State) (i : Word32) (f : Launch → Launch) : (updLaunch s i f).waitLog = s.waitLog := rfl
@[simp] theorem updLaunch_waitSeq (s : State) (i : Word32) (f : Launch → Launch) : (updLaunch s i f).waitSeq = s.waitSeq := rfl
@[simp] theorem updLaunch_traceTab (s : State) (i : Word32) (f : Launch → Launch) : (updLaunch s i f).traceTab = s.traceTab := rfl
@[simp] theorem updLaunch_rose (s : State) (i : Word32) (f : Launch → Launch) : (updLaunch s i f).rose = s.rose := rfl
@[simp] theorem updLaunch_waitPend (s : State) (i : Word32) (f : Launch → Launch) : (updLaunch s i f).waitPend = s.waitPend := rfl
@[simp] theorem updLaunch_overCap (s : State) (i : Word32) (f : Launch → Launch) : (updLaunch s i f).overCap = s.overCap := rfl
@[simp] theorem updLaunch_lockClk (s : State) (i : Word32) (f : Launch → Launch) : (updLaunch s i f).lockClk = s.lockClk := rfl
@[simp] theorem updLaunch_fenced (s : State) (i : Word32) (f : Launch → Launch) : (updLaunch s i f).fenced = s.fenced := rfl
@[simp] theorem updLaunch_traceSt (s : State) (i : Word32) (f : Launch → Launch) : (updLaunch s i f).traceSt = s.traceSt := rfl
@[simp] theorem updLaunch_lastSet (s : State) (i : Word32) (f : Launch → Launch) : (updLaunch s i f).lastSet = s.lastSet := rfl
@[simp] theorem updLaunch_dbgReason (s : State) (i : Word32) (f : Launch → Launch) : (updLaunch s i f).dbgReason = s.dbgReason := rfl
@[simp] theorem updLaunch_preemptCtl (s : State) (i : Word32) (f : Launch → Launch) : (updLaunch s i f).preemptCtl = s.preemptCtl := rfl
@[simp] theorem updLaunch_bindGo (s : State) (i : Word32) (f : Launch → Launch) : (updLaunch s i f).bindGo = s.bindGo := rfl
@[simp] theorem updLaunch_killReg (s : State) (i : Word32) (f : Launch → Launch) : (updLaunch s i f).killReg = s.killReg := rfl
@[simp] theorem updLaunch_barriers (s : State) (i : Word32) (f : Launch → Launch) : (updLaunch s i f).barriers = s.barriers := rfl
@[simp] theorem updLaunch_graph (s : State) (i : Word32) (f : Launch → Launch) : (updLaunch s i f).graph = s.graph := rfl
@[simp] theorem updLaunch_tenant (s : State) (i : Word32) (f : Launch → Launch) : (updLaunch s i f).tenant = s.tenant := rfl
@[simp] theorem updLaunch_sliceAt (s : State) (i : Word32) (f : Launch → Launch) : (updLaunch s i f).sliceAt = s.sliceAt := rfl
@[simp] theorem updLaunch_tenantSaves (s : State) (i : Word32) (f : Launch → Launch) : (updLaunch s i f).tenantSaves = s.tenantSaves := rfl
@[simp] theorem updLaunch_rtbank (s : State) (i : Word32) (f : Launch → Launch) : (updLaunch s i f).rtbank = s.rtbank := rfl
@[simp] theorem updLaunch_moduleId (s : State) (i : Word32) (f : Launch → Launch) : (updLaunch s i f).moduleId = s.moduleId := rfl
@[simp] theorem updLaunch_aperture (s : State) (i : Word32) (f : Launch → Launch) : (updLaunch s i f).aperture = s.aperture := rfl
@[simp] theorem updLaunch_grants (s : State) (i : Word32) (f : Launch → Launch) : (updLaunch s i f).grants = s.grants := rfl
@[simp] theorem updLaunch_routes (s : State) (i : Word32) (f : Launch → Launch) : (updLaunch s i f).routes = s.routes := rfl
@[simp] theorem updLaunch_linkDown (s : State) (i : Word32) (f : Launch → Launch) : (updLaunch s i f).linkDown = s.linkDown := rfl
@[simp] theorem updLaunch_malformed (s : State) (i : Word32) (f : Launch → Launch) : (updLaunch s i f).malformed = s.malformed := rfl
@[simp] theorem updLaunch_outs (s : State) (i : Word32) (f : Launch → Launch) : (updLaunch s i f).outs = s.outs := rfl
@[simp] theorem updLaunch_flr (s : State) (i : Word32) (f : Launch → Launch) : (updLaunch s i f).flr = s.flr := rfl
@[simp] theorem updLaunch_msix (s : State) (i : Word32) (f : Launch → Launch) : (updLaunch s i f).msix = s.msix := rfl
@[simp] theorem updLaunch_collIn (s : State) (i : Word32) (f : Launch → Launch) : (updLaunch s i f).collIn = s.collIn := rfl
@[simp] theorem updLaunch_collCount (s : State) (i : Word32) (f : Launch → Launch) : (updLaunch s i f).collCount = s.collCount := rfl
@[simp] theorem updLaunch_keys (s : State) (i : Word32) (f : Launch → Launch) : (updLaunch s i f).keys = s.keys := rfl
@[simp] theorem updLaunch_meas (s : State) (i : Word32) (f : Launch → Launch) : (updLaunch s i f).meas = s.meas := rfl
@[simp] theorem updLaunch_measLog (s : State) (i : Word32) (f : Launch → Launch) : (updLaunch s i f).measLog = s.measLog := rfl
@[simp] theorem updLaunch_bootStatus (s : State) (i : Word32) (f : Launch → Launch) : (updLaunch s i f).bootStatus = s.bootStatus := rfl
@[simp] theorem updLaunch_halted (s : State) (i : Word32) (f : Launch → Launch) : (updLaunch s i f).halted = s.halted := rfl
@[simp] theorem updLaunch_alarms (s : State) (i : Word32) (f : Launch → Launch) : (updLaunch s i f).alarms = s.alarms := rfl
@[simp] theorem updLaunch_powerCap (s : State) (i : Word32) (f : Launch → Launch) : (updLaunch s i f).powerCap = s.powerCap := rfl
@[simp] theorem updLaunch_clockMhz (s : State) (i : Word32) (f : Launch → Launch) : (updLaunch s i f).clockMhz = s.clockMhz := rfl
@[simp] theorem updLaunch_vigil (s : State) (i : Word32) (f : Launch → Launch) : (updLaunch s i f).vigil = s.vigil := rfl
@[simp] theorem updLaunch_vigilTv (s : State) (i : Word32) (f : Launch → Launch) : (updLaunch s i f).vigilTv = s.vigilTv := rfl
@[simp] theorem updLaunch_vigilRec (s : State) (i : Word32) (f : Launch → Launch) : (updLaunch s i f).vigilRec = s.vigilRec := rfl
@[simp] theorem updLaunch_vigilOut (s : State) (i : Word32) (f : Launch → Launch) : (updLaunch s i f).vigilOut = s.vigilOut := rfl
@[simp] theorem updLaunch_profiles (s : State) (i : Word32) (f : Launch → Launch) : (updLaunch s i f).profiles = s.profiles := rfl
@[simp] theorem updLaunch_funcLog (s : State) (i : Word32) (f : Launch → Launch) : (updLaunch s i f).funcLog = s.funcLog := rfl
@[simp] theorem updLaunch_mgmtLog (s : State) (i : Word32) (f : Launch → Launch) : (updLaunch s i f).mgmtLog = s.mgmtLog := rfl
@[simp] theorem updLaunch_mailbox (s : State) (i : Word32) (f : Launch → Launch) : (updLaunch s i f).mailbox = s.mailbox := rfl
@[simp] theorem updLaunch_moved (s : State) (i : Word32) (f : Launch → Launch) : (updLaunch s i f).moved = s.moved := rfl
@[simp] theorem updLaunch_hostOut (s : State) (i : Word32) (f : Launch → Launch) : (updLaunch s i f).hostOut = s.hostOut := rfl
@[simp] theorem updLaunch_flitOut (s : State) (i : Word32) (f : Launch → Launch) : (updLaunch s i f).flitOut = s.flitOut := rfl
@[simp] theorem updLaunch_svcs (s : State) (i : Word32) (f : Launch → Launch) : (updLaunch s i f).svcs = s.svcs := rfl
@[simp] theorem updLaunch_mig (s : State) (i : Word32) (f : Launch → Launch) : (updLaunch s i f).mig = s.mig := rfl
@[simp] theorem updLaunch_replays (s : State) (i : Word32) (f : Launch → Launch) : (updLaunch s i f).replays = s.replays := rfl
@[simp] theorem updLaunch_corrected (s : State) (i : Word32) (f : Launch → Launch) : (updLaunch s i f).corrected = s.corrected := rfl
@[simp] theorem updLaunch_nLaunch (s : State) (i : Word32) (f : Launch → Launch) : (updLaunch s i f).nLaunch = s.nLaunch := rfl
@[simp] theorem updLaunch_phase (s : State) (i : Word32) (f : Launch → Launch) : (updLaunch s i f).phase = s.phase := rfl
@[simp] theorem updLaunch_agenda (s : State) (i : Word32) (f : Launch → Launch) : (updLaunch s i f).agenda = s.agenda := rfl
@[simp] theorem updLaunch_cur (s : State) (i : Word32) (f : Launch → Launch) : (updLaunch s i f).cur = s.cur := rfl
@[simp] theorem updLaunch_free (s : State) (i : Word32) (f : Launch → Launch) : (updLaunch s i f).free = s.free := rfl
@[simp] theorem updLaunch_fresh (s : State) (i : Word32) (f : Launch → Launch) : (updLaunch s i f).fresh = s.fresh := rfl
@[simp] theorem updLaunch_incarn (s : State) (i : Word32) (f : Launch → Launch) : (updLaunch s i f).incarn = s.incarn := rfl
@[simp] theorem updLaunch_clocks (s : State) (i : Word32) (f : Launch → Launch) : (updLaunch s i f).clocks = s.clocks := rfl
@[simp] theorem updLaunch_flagClk (s : State) (i : Word32) (f : Launch → Launch) : (updLaunch s i f).flagClk = s.flagClk := rfl
@[simp] theorem updLaunch_accs (s : State) (i : Word32) (f : Launch → Launch) : (updLaunch s i f).accs = s.accs := rfl

/-! ## `setClock` -/

@[simp] theorem setClock_cal (s : State) (a : Nat) (c : Clock) : (setClock s a c).cal = s.cal := rfl
@[simp] theorem setClock_members (s : State) (a : Nat) (c : Clock) : (setClock s a c).members = s.members := rfl
@[simp] theorem setClock_lookups (s : State) (a : Nat) (c : Clock) : (setClock s a c).lookups = s.lookups := rfl
@[simp] theorem setClock_dflags (s : State) (a : Nat) (c : Clock) : (setClock s a c).dflags = s.dflags := rfl
@[simp] theorem setClock_dmem (s : State) (a : Nat) (c : Clock) : (setClock s a c).dmem = s.dmem := rfl
@[simp] theorem setClock_dbad (s : State) (a : Nat) (c : Clock) : (setClock s a c).dbad = s.dbad := rfl
@[simp] theorem setClock_dkey (s : State) (a : Nat) (c : Clock) : (setClock s a c).dkey = s.dkey := rfl
@[simp] theorem setClock_l2 (s : State) (a : Nat) (c : Clock) : (setClock s a c).l2 = s.l2 := rfl
@[simp] theorem setClock_ctxs (s : State) (a : Nat) (c : Clock) : (setClock s a c).ctxs = s.ctxs := rfl
@[simp] theorem setClock_quotas (s : State) (a : Nat) (c : Clock) : (setClock s a c).quotas = s.quotas := rfl
@[simp] theorem setClock_qidx (s : State) (a : Nat) (c : Clock) : (setClock s a c).qidx = s.qidx := rfl
@[simp] theorem setClock_ports (s : State) (a : Nat) (c : Clock) : (setClock s a c).ports = s.ports := rfl
@[simp] theorem setClock_invCtl (s : State) (a : Nat) (c : Clock) : (setClock s a c).invCtl = s.invCtl := rfl
@[simp] theorem setClock_invVa (s : State) (a : Nat) (c : Clock) : (setClock s a c).invVa = s.invVa := rfl
@[simp] theorem setClock_inval (s : State) (a : Nat) (c : Clock) : (setClock s a c).inval = s.inval := rfl
@[simp] theorem setClock_invNext (s : State) (a : Nat) (c : Clock) : (setClock s a c).invNext = s.invNext := rfl
@[simp] theorem setClock_rings (s : State) (a : Nat) (c : Clock) : (setClock s a c).rings = s.rings := rfl
@[simp] theorem setClock_recs (s : State) (a : Nat) (c : Clock) : (setClock s a c).recs = s.recs := rfl
@[simp] theorem setClock_recsTerm (s : State) (a : Nat) (c : Clock) : (setClock s a c).recsTerm = s.recsTerm := rfl
@[simp] theorem setClock_recsVf (s : State) (a : Nat) (c : Clock) : (setClock s a c).recsVf = s.recsVf := rfl
@[simp] theorem setClock_weights (s : State) (a : Nat) (c : Clock) : (setClock s a c).weights = s.weights := rfl
@[simp] theorem setClock_posted (s : State) (a : Nat) (c : Clock) : (setClock s a c).posted = s.posted := rfl
@[simp] theorem setClock_round (s : State) (a : Nat) (c : Clock) : (setClock s a c).round = s.round := rfl
@[simp] theorem setClock_lastVf (s : State) (a : Nat) (c : Clock) : (setClock s a c).lastVf = s.lastVf := rfl
@[simp] theorem setClock_queues (s : State) (a : Nat) (c : Clock) : (setClock s a c).queues = s.queues := rfl
@[simp] theorem setClock_launches (s : State) (a : Nat) (c : Clock) : (setClock s a c).launches = s.launches := rfl
@[simp] theorem setClock_copies (s : State) (a : Nat) (c : Clock) : (setClock s a c).copies = s.copies := rfl
@[simp] theorem setClock_wrr (s : State) (a : Nat) (c : Clock) : (setClock s a c).wrr = s.wrr := rfl
@[simp] theorem setClock_slotTable (s : State) (a : Nat) (c : Clock) : (setClock s a c).slotTable = s.slotTable := rfl
@[simp] theorem setClock_saveArea (s : State) (a : Nat) (c : Clock) : (setClock s a c).saveArea = s.saveArea := rfl
@[simp] theorem setClock_waitLog (s : State) (a : Nat) (c : Clock) : (setClock s a c).waitLog = s.waitLog := rfl
@[simp] theorem setClock_waitSeq (s : State) (a : Nat) (c : Clock) : (setClock s a c).waitSeq = s.waitSeq := rfl
@[simp] theorem setClock_traceTab (s : State) (a : Nat) (c : Clock) : (setClock s a c).traceTab = s.traceTab := rfl
@[simp] theorem setClock_rose (s : State) (a : Nat) (c : Clock) : (setClock s a c).rose = s.rose := rfl
@[simp] theorem setClock_waitPend (s : State) (a : Nat) (c : Clock) : (setClock s a c).waitPend = s.waitPend := rfl
@[simp] theorem setClock_overCap (s : State) (a : Nat) (c : Clock) : (setClock s a c).overCap = s.overCap := rfl
@[simp] theorem setClock_lockClk (s : State) (a : Nat) (c : Clock) : (setClock s a c).lockClk = s.lockClk := rfl
@[simp] theorem setClock_fenced (s : State) (a : Nat) (c : Clock) : (setClock s a c).fenced = s.fenced := rfl
@[simp] theorem setClock_traceSt (s : State) (a : Nat) (c : Clock) : (setClock s a c).traceSt = s.traceSt := rfl
@[simp] theorem setClock_lastSet (s : State) (a : Nat) (c : Clock) : (setClock s a c).lastSet = s.lastSet := rfl
@[simp] theorem setClock_dbgReason (s : State) (a : Nat) (c : Clock) : (setClock s a c).dbgReason = s.dbgReason := rfl
@[simp] theorem setClock_preemptCtl (s : State) (a : Nat) (c : Clock) : (setClock s a c).preemptCtl = s.preemptCtl := rfl
@[simp] theorem setClock_bindGo (s : State) (a : Nat) (c : Clock) : (setClock s a c).bindGo = s.bindGo := rfl
@[simp] theorem setClock_killReg (s : State) (a : Nat) (c : Clock) : (setClock s a c).killReg = s.killReg := rfl
@[simp] theorem setClock_barriers (s : State) (a : Nat) (c : Clock) : (setClock s a c).barriers = s.barriers := rfl
@[simp] theorem setClock_graph (s : State) (a : Nat) (c : Clock) : (setClock s a c).graph = s.graph := rfl
@[simp] theorem setClock_tenant (s : State) (a : Nat) (c : Clock) : (setClock s a c).tenant = s.tenant := rfl
@[simp] theorem setClock_sliceAt (s : State) (a : Nat) (c : Clock) : (setClock s a c).sliceAt = s.sliceAt := rfl
@[simp] theorem setClock_tenantSaves (s : State) (a : Nat) (c : Clock) : (setClock s a c).tenantSaves = s.tenantSaves := rfl
@[simp] theorem setClock_rtbank (s : State) (a : Nat) (c : Clock) : (setClock s a c).rtbank = s.rtbank := rfl
@[simp] theorem setClock_moduleId (s : State) (a : Nat) (c : Clock) : (setClock s a c).moduleId = s.moduleId := rfl
@[simp] theorem setClock_aperture (s : State) (a : Nat) (c : Clock) : (setClock s a c).aperture = s.aperture := rfl
@[simp] theorem setClock_grants (s : State) (a : Nat) (c : Clock) : (setClock s a c).grants = s.grants := rfl
@[simp] theorem setClock_routes (s : State) (a : Nat) (c : Clock) : (setClock s a c).routes = s.routes := rfl
@[simp] theorem setClock_linkDown (s : State) (a : Nat) (c : Clock) : (setClock s a c).linkDown = s.linkDown := rfl
@[simp] theorem setClock_malformed (s : State) (a : Nat) (c : Clock) : (setClock s a c).malformed = s.malformed := rfl
@[simp] theorem setClock_outs (s : State) (a : Nat) (c : Clock) : (setClock s a c).outs = s.outs := rfl
@[simp] theorem setClock_flr (s : State) (a : Nat) (c : Clock) : (setClock s a c).flr = s.flr := rfl
@[simp] theorem setClock_msix (s : State) (a : Nat) (c : Clock) : (setClock s a c).msix = s.msix := rfl
@[simp] theorem setClock_collIn (s : State) (a : Nat) (c : Clock) : (setClock s a c).collIn = s.collIn := rfl
@[simp] theorem setClock_collCount (s : State) (a : Nat) (c : Clock) : (setClock s a c).collCount = s.collCount := rfl
@[simp] theorem setClock_keys (s : State) (a : Nat) (c : Clock) : (setClock s a c).keys = s.keys := rfl
@[simp] theorem setClock_meas (s : State) (a : Nat) (c : Clock) : (setClock s a c).meas = s.meas := rfl
@[simp] theorem setClock_measLog (s : State) (a : Nat) (c : Clock) : (setClock s a c).measLog = s.measLog := rfl
@[simp] theorem setClock_bootStatus (s : State) (a : Nat) (c : Clock) : (setClock s a c).bootStatus = s.bootStatus := rfl
@[simp] theorem setClock_halted (s : State) (a : Nat) (c : Clock) : (setClock s a c).halted = s.halted := rfl
@[simp] theorem setClock_alarms (s : State) (a : Nat) (c : Clock) : (setClock s a c).alarms = s.alarms := rfl
@[simp] theorem setClock_powerCap (s : State) (a : Nat) (c : Clock) : (setClock s a c).powerCap = s.powerCap := rfl
@[simp] theorem setClock_clockMhz (s : State) (a : Nat) (c : Clock) : (setClock s a c).clockMhz = s.clockMhz := rfl
@[simp] theorem setClock_vigil (s : State) (a : Nat) (c : Clock) : (setClock s a c).vigil = s.vigil := rfl
@[simp] theorem setClock_vigilTv (s : State) (a : Nat) (c : Clock) : (setClock s a c).vigilTv = s.vigilTv := rfl
@[simp] theorem setClock_vigilRec (s : State) (a : Nat) (c : Clock) : (setClock s a c).vigilRec = s.vigilRec := rfl
@[simp] theorem setClock_vigilOut (s : State) (a : Nat) (c : Clock) : (setClock s a c).vigilOut = s.vigilOut := rfl
@[simp] theorem setClock_profiles (s : State) (a : Nat) (c : Clock) : (setClock s a c).profiles = s.profiles := rfl
@[simp] theorem setClock_funcLog (s : State) (a : Nat) (c : Clock) : (setClock s a c).funcLog = s.funcLog := rfl
@[simp] theorem setClock_mgmtLog (s : State) (a : Nat) (c : Clock) : (setClock s a c).mgmtLog = s.mgmtLog := rfl
@[simp] theorem setClock_mailbox (s : State) (a : Nat) (c : Clock) : (setClock s a c).mailbox = s.mailbox := rfl
@[simp] theorem setClock_moved (s : State) (a : Nat) (c : Clock) : (setClock s a c).moved = s.moved := rfl
@[simp] theorem setClock_hostOut (s : State) (a : Nat) (c : Clock) : (setClock s a c).hostOut = s.hostOut := rfl
@[simp] theorem setClock_flitOut (s : State) (a : Nat) (c : Clock) : (setClock s a c).flitOut = s.flitOut := rfl
@[simp] theorem setClock_svcs (s : State) (a : Nat) (c : Clock) : (setClock s a c).svcs = s.svcs := rfl
@[simp] theorem setClock_mig (s : State) (a : Nat) (c : Clock) : (setClock s a c).mig = s.mig := rfl
@[simp] theorem setClock_replays (s : State) (a : Nat) (c : Clock) : (setClock s a c).replays = s.replays := rfl
@[simp] theorem setClock_corrected (s : State) (a : Nat) (c : Clock) : (setClock s a c).corrected = s.corrected := rfl
@[simp] theorem setClock_nLaunch (s : State) (a : Nat) (c : Clock) : (setClock s a c).nLaunch = s.nLaunch := rfl
@[simp] theorem setClock_phase (s : State) (a : Nat) (c : Clock) : (setClock s a c).phase = s.phase := rfl
@[simp] theorem setClock_agenda (s : State) (a : Nat) (c : Clock) : (setClock s a c).agenda = s.agenda := rfl
@[simp] theorem setClock_cur (s : State) (a : Nat) (c : Clock) : (setClock s a c).cur = s.cur := rfl
@[simp] theorem setClock_free (s : State) (a : Nat) (c : Clock) : (setClock s a c).free = s.free := rfl
@[simp] theorem setClock_fresh (s : State) (a : Nat) (c : Clock) : (setClock s a c).fresh = s.fresh := rfl
@[simp] theorem setClock_incarn (s : State) (a : Nat) (c : Clock) : (setClock s a c).incarn = s.incarn := rfl
@[simp] theorem setClock_flagClk (s : State) (a : Nat) (c : Clock) : (setClock s a c).flagClk = s.flagClk := rfl
@[simp] theorem setClock_accs (s : State) (a : Nat) (c : Clock) : (setClock s a c).accs = s.accs := rfl

/-! ## `setPort` -/

@[simp] theorem setPort_cal (s : State) (n : Nat) (p : Port) : (setPort s n p).cal = s.cal := rfl
@[simp] theorem setPort_members (s : State) (n : Nat) (p : Port) : (setPort s n p).members = s.members := rfl
@[simp] theorem setPort_lookups (s : State) (n : Nat) (p : Port) : (setPort s n p).lookups = s.lookups := rfl
@[simp] theorem setPort_dflags (s : State) (n : Nat) (p : Port) : (setPort s n p).dflags = s.dflags := rfl
@[simp] theorem setPort_dmem (s : State) (n : Nat) (p : Port) : (setPort s n p).dmem = s.dmem := rfl
@[simp] theorem setPort_dbad (s : State) (n : Nat) (p : Port) : (setPort s n p).dbad = s.dbad := rfl
@[simp] theorem setPort_dkey (s : State) (n : Nat) (p : Port) : (setPort s n p).dkey = s.dkey := rfl
@[simp] theorem setPort_l2 (s : State) (n : Nat) (p : Port) : (setPort s n p).l2 = s.l2 := rfl
@[simp] theorem setPort_ctxs (s : State) (n : Nat) (p : Port) : (setPort s n p).ctxs = s.ctxs := rfl
@[simp] theorem setPort_quotas (s : State) (n : Nat) (p : Port) : (setPort s n p).quotas = s.quotas := rfl
@[simp] theorem setPort_qidx (s : State) (n : Nat) (p : Port) : (setPort s n p).qidx = s.qidx := rfl
@[simp] theorem setPort_invCtl (s : State) (n : Nat) (p : Port) : (setPort s n p).invCtl = s.invCtl := rfl
@[simp] theorem setPort_invVa (s : State) (n : Nat) (p : Port) : (setPort s n p).invVa = s.invVa := rfl
@[simp] theorem setPort_inval (s : State) (n : Nat) (p : Port) : (setPort s n p).inval = s.inval := rfl
@[simp] theorem setPort_invNext (s : State) (n : Nat) (p : Port) : (setPort s n p).invNext = s.invNext := rfl
@[simp] theorem setPort_rings (s : State) (n : Nat) (p : Port) : (setPort s n p).rings = s.rings := rfl
@[simp] theorem setPort_recs (s : State) (n : Nat) (p : Port) : (setPort s n p).recs = s.recs := rfl
@[simp] theorem setPort_recsTerm (s : State) (n : Nat) (p : Port) : (setPort s n p).recsTerm = s.recsTerm := rfl
@[simp] theorem setPort_recsVf (s : State) (n : Nat) (p : Port) : (setPort s n p).recsVf = s.recsVf := rfl
@[simp] theorem setPort_weights (s : State) (n : Nat) (p : Port) : (setPort s n p).weights = s.weights := rfl
@[simp] theorem setPort_posted (s : State) (n : Nat) (p : Port) : (setPort s n p).posted = s.posted := rfl
@[simp] theorem setPort_round (s : State) (n : Nat) (p : Port) : (setPort s n p).round = s.round := rfl
@[simp] theorem setPort_lastVf (s : State) (n : Nat) (p : Port) : (setPort s n p).lastVf = s.lastVf := rfl
@[simp] theorem setPort_queues (s : State) (n : Nat) (p : Port) : (setPort s n p).queues = s.queues := rfl
@[simp] theorem setPort_launches (s : State) (n : Nat) (p : Port) : (setPort s n p).launches = s.launches := rfl
@[simp] theorem setPort_copies (s : State) (n : Nat) (p : Port) : (setPort s n p).copies = s.copies := rfl
@[simp] theorem setPort_wrr (s : State) (n : Nat) (p : Port) : (setPort s n p).wrr = s.wrr := rfl
@[simp] theorem setPort_slotTable (s : State) (n : Nat) (p : Port) : (setPort s n p).slotTable = s.slotTable := rfl
@[simp] theorem setPort_saveArea (s : State) (n : Nat) (p : Port) : (setPort s n p).saveArea = s.saveArea := rfl
@[simp] theorem setPort_waitLog (s : State) (n : Nat) (p : Port) : (setPort s n p).waitLog = s.waitLog := rfl
@[simp] theorem setPort_waitSeq (s : State) (n : Nat) (p : Port) : (setPort s n p).waitSeq = s.waitSeq := rfl
@[simp] theorem setPort_traceTab (s : State) (n : Nat) (p : Port) : (setPort s n p).traceTab = s.traceTab := rfl
@[simp] theorem setPort_rose (s : State) (n : Nat) (p : Port) : (setPort s n p).rose = s.rose := rfl
@[simp] theorem setPort_waitPend (s : State) (n : Nat) (p : Port) : (setPort s n p).waitPend = s.waitPend := rfl
@[simp] theorem setPort_overCap (s : State) (n : Nat) (p : Port) : (setPort s n p).overCap = s.overCap := rfl
@[simp] theorem setPort_lockClk (s : State) (n : Nat) (p : Port) : (setPort s n p).lockClk = s.lockClk := rfl
@[simp] theorem setPort_fenced (s : State) (n : Nat) (p : Port) : (setPort s n p).fenced = s.fenced := rfl
@[simp] theorem setPort_traceSt (s : State) (n : Nat) (p : Port) : (setPort s n p).traceSt = s.traceSt := rfl
@[simp] theorem setPort_lastSet (s : State) (n : Nat) (p : Port) : (setPort s n p).lastSet = s.lastSet := rfl
@[simp] theorem setPort_dbgReason (s : State) (n : Nat) (p : Port) : (setPort s n p).dbgReason = s.dbgReason := rfl
@[simp] theorem setPort_preemptCtl (s : State) (n : Nat) (p : Port) : (setPort s n p).preemptCtl = s.preemptCtl := rfl
@[simp] theorem setPort_bindGo (s : State) (n : Nat) (p : Port) : (setPort s n p).bindGo = s.bindGo := rfl
@[simp] theorem setPort_killReg (s : State) (n : Nat) (p : Port) : (setPort s n p).killReg = s.killReg := rfl
@[simp] theorem setPort_barriers (s : State) (n : Nat) (p : Port) : (setPort s n p).barriers = s.barriers := rfl
@[simp] theorem setPort_graph (s : State) (n : Nat) (p : Port) : (setPort s n p).graph = s.graph := rfl
@[simp] theorem setPort_tenant (s : State) (n : Nat) (p : Port) : (setPort s n p).tenant = s.tenant := rfl
@[simp] theorem setPort_sliceAt (s : State) (n : Nat) (p : Port) : (setPort s n p).sliceAt = s.sliceAt := rfl
@[simp] theorem setPort_tenantSaves (s : State) (n : Nat) (p : Port) : (setPort s n p).tenantSaves = s.tenantSaves := rfl
@[simp] theorem setPort_rtbank (s : State) (n : Nat) (p : Port) : (setPort s n p).rtbank = s.rtbank := rfl
@[simp] theorem setPort_moduleId (s : State) (n : Nat) (p : Port) : (setPort s n p).moduleId = s.moduleId := rfl
@[simp] theorem setPort_aperture (s : State) (n : Nat) (p : Port) : (setPort s n p).aperture = s.aperture := rfl
@[simp] theorem setPort_grants (s : State) (n : Nat) (p : Port) : (setPort s n p).grants = s.grants := rfl
@[simp] theorem setPort_routes (s : State) (n : Nat) (p : Port) : (setPort s n p).routes = s.routes := rfl
@[simp] theorem setPort_linkDown (s : State) (n : Nat) (p : Port) : (setPort s n p).linkDown = s.linkDown := rfl
@[simp] theorem setPort_malformed (s : State) (n : Nat) (p : Port) : (setPort s n p).malformed = s.malformed := rfl
@[simp] theorem setPort_outs (s : State) (n : Nat) (p : Port) : (setPort s n p).outs = s.outs := rfl
@[simp] theorem setPort_flr (s : State) (n : Nat) (p : Port) : (setPort s n p).flr = s.flr := rfl
@[simp] theorem setPort_msix (s : State) (n : Nat) (p : Port) : (setPort s n p).msix = s.msix := rfl
@[simp] theorem setPort_collIn (s : State) (n : Nat) (p : Port) : (setPort s n p).collIn = s.collIn := rfl
@[simp] theorem setPort_collCount (s : State) (n : Nat) (p : Port) : (setPort s n p).collCount = s.collCount := rfl
@[simp] theorem setPort_keys (s : State) (n : Nat) (p : Port) : (setPort s n p).keys = s.keys := rfl
@[simp] theorem setPort_meas (s : State) (n : Nat) (p : Port) : (setPort s n p).meas = s.meas := rfl
@[simp] theorem setPort_measLog (s : State) (n : Nat) (p : Port) : (setPort s n p).measLog = s.measLog := rfl
@[simp] theorem setPort_bootStatus (s : State) (n : Nat) (p : Port) : (setPort s n p).bootStatus = s.bootStatus := rfl
@[simp] theorem setPort_halted (s : State) (n : Nat) (p : Port) : (setPort s n p).halted = s.halted := rfl
@[simp] theorem setPort_alarms (s : State) (n : Nat) (p : Port) : (setPort s n p).alarms = s.alarms := rfl
@[simp] theorem setPort_powerCap (s : State) (n : Nat) (p : Port) : (setPort s n p).powerCap = s.powerCap := rfl
@[simp] theorem setPort_clockMhz (s : State) (n : Nat) (p : Port) : (setPort s n p).clockMhz = s.clockMhz := rfl
@[simp] theorem setPort_vigil (s : State) (n : Nat) (p : Port) : (setPort s n p).vigil = s.vigil := rfl
@[simp] theorem setPort_vigilTv (s : State) (n : Nat) (p : Port) : (setPort s n p).vigilTv = s.vigilTv := rfl
@[simp] theorem setPort_vigilRec (s : State) (n : Nat) (p : Port) : (setPort s n p).vigilRec = s.vigilRec := rfl
@[simp] theorem setPort_vigilOut (s : State) (n : Nat) (p : Port) : (setPort s n p).vigilOut = s.vigilOut := rfl
@[simp] theorem setPort_profiles (s : State) (n : Nat) (p : Port) : (setPort s n p).profiles = s.profiles := rfl
@[simp] theorem setPort_funcLog (s : State) (n : Nat) (p : Port) : (setPort s n p).funcLog = s.funcLog := rfl
@[simp] theorem setPort_mgmtLog (s : State) (n : Nat) (p : Port) : (setPort s n p).mgmtLog = s.mgmtLog := rfl
@[simp] theorem setPort_mailbox (s : State) (n : Nat) (p : Port) : (setPort s n p).mailbox = s.mailbox := rfl
@[simp] theorem setPort_moved (s : State) (n : Nat) (p : Port) : (setPort s n p).moved = s.moved := rfl
@[simp] theorem setPort_hostOut (s : State) (n : Nat) (p : Port) : (setPort s n p).hostOut = s.hostOut := rfl
@[simp] theorem setPort_flitOut (s : State) (n : Nat) (p : Port) : (setPort s n p).flitOut = s.flitOut := rfl
@[simp] theorem setPort_svcs (s : State) (n : Nat) (p : Port) : (setPort s n p).svcs = s.svcs := rfl
@[simp] theorem setPort_mig (s : State) (n : Nat) (p : Port) : (setPort s n p).mig = s.mig := rfl
@[simp] theorem setPort_replays (s : State) (n : Nat) (p : Port) : (setPort s n p).replays = s.replays := rfl
@[simp] theorem setPort_corrected (s : State) (n : Nat) (p : Port) : (setPort s n p).corrected = s.corrected := rfl
@[simp] theorem setPort_nLaunch (s : State) (n : Nat) (p : Port) : (setPort s n p).nLaunch = s.nLaunch := rfl
@[simp] theorem setPort_phase (s : State) (n : Nat) (p : Port) : (setPort s n p).phase = s.phase := rfl
@[simp] theorem setPort_agenda (s : State) (n : Nat) (p : Port) : (setPort s n p).agenda = s.agenda := rfl
@[simp] theorem setPort_cur (s : State) (n : Nat) (p : Port) : (setPort s n p).cur = s.cur := rfl
@[simp] theorem setPort_free (s : State) (n : Nat) (p : Port) : (setPort s n p).free = s.free := rfl
@[simp] theorem setPort_fresh (s : State) (n : Nat) (p : Port) : (setPort s n p).fresh = s.fresh := rfl
@[simp] theorem setPort_incarn (s : State) (n : Nat) (p : Port) : (setPort s n p).incarn = s.incarn := rfl
@[simp] theorem setPort_clocks (s : State) (n : Nat) (p : Port) : (setPort s n p).clocks = s.clocks := rfl
@[simp] theorem setPort_flagClk (s : State) (n : Nat) (p : Port) : (setPort s n p).flagClk = s.flagClk := rfl
@[simp] theorem setPort_accs (s : State) (n : Nat) (p : Port) : (setPort s n p).accs = s.accs := rfl

/-! ## Members -/

@[simp] theorem countN_regs (m : Member) (e k : Nat) : (countN m e k).regs = m.regs := rfl
@[simp] theorem countN_fly (m : Member) (e k : Nat) : (countN m e k).fly = m.fly := rfl
@[simp] theorem countN_grd (m : Member) (e k : Nat) : (countN m e k).grd = m.grd := rfl
@[simp] theorem countN_l (m : Member) (e k : Nat) : (countN m e k).l = m.l := rfl
@[simp] theorem countN_mat (m : Member) (e k : Nat) : (countN m e k).mat = m.mat := rfl
@[simp] theorem countN_buf (m : Member) (e k : Nat) : (countN m e k).buf = m.buf := rfl
@[simp] theorem countN_eng (m : Member) (e k : Nat) : (countN m e k).eng = m.eng := rfl
@[simp] theorem countN_ui (m : Member) (e k : Nat) : (countN m e k).ui = m.ui := rfl
@[simp] theorem countN_spr (m : Member) (e k : Nat) : (countN m e k).spr = m.spr := rfl
@[simp] theorem countN_place (m : Member) (e k : Nat) : (countN m e k).place = m.place := rfl

@[simp] theorem count_regs (m : Member) (e : Nat) : (count m e).regs = m.regs := rfl
@[simp] theorem count_fly (m : Member) (e : Nat) : (count m e).fly = m.fly := rfl
@[simp] theorem count_grd (m : Member) (e : Nat) : (count m e).grd = m.grd := rfl
@[simp] theorem count_l (m : Member) (e : Nat) : (count m e).l = m.l := rfl
@[simp] theorem count_mat (m : Member) (e : Nat) : (count m e).mat = m.mat := rfl
@[simp] theorem count_buf (m : Member) (e : Nat) : (count m e).buf = m.buf := rfl
@[simp] theorem count_eng (m : Member) (e : Nat) : (count m e).eng = m.eng := rfl
@[simp] theorem count_ui (m : Member) (e : Nat) : (count m e).ui = m.ui := rfl
@[simp] theorem count_spr (m : Member) (e : Nat) : (count m e).spr = m.spr := rfl
@[simp] theorem count_place (m : Member) (e : Nat) : (count m e).place = m.place := rfl

/-- A member after it is replaced. -/
@[simp] theorem mem_setMem_same (s : State) (n : Nat) (m : Member) : mem (setMem s n m) n = m := tget_tput_same _ _ _ _

/-- Another member after one is replaced. -/
theorem mem_setMem_ne (s : State) {n k : Nat} (m : Member) (h : k ≠ n) : mem (setMem s n m) k = mem s k :=
  tget_tput_ne _ _ _ h

/-- A member after it is changed. -/
@[simp] theorem mem_updMem_same (s : State) (n : Nat) (f : Member → Member) : mem (updMem s n f) n = f (mem s n) :=
  mem_setMem_same ..

/-- Another member after one is changed. -/
theorem mem_updMem_ne (s : State) {n k : Nat} (f : Member → Member) (h : k ≠ n) : mem (updMem s n f) k = mem s k :=
  mem_setMem_ne _ _ h

/-- A lookup core after it is replaced. -/
@[simp] theorem lookupCore_setLookup_same (s : State) (n : Nat) (l : Lookup) : lookupCore (setLookup s n l) n = l :=
  tget_tput_same _ _ _ _

/-- Another lookup core after one is replaced. -/
theorem lookupCore_setLookup_ne (s : State) {n k : Nat} (l : Lookup) (h : k ≠ n) :
    lookupCore (setLookup s n l) k = lookupCore s k := tget_tput_ne _ _ _ h

/-- A member after a lookup core is replaced. -/
@[simp] theorem mem_setLookup (s : State) (n k : Nat) (l : Lookup) : mem (setLookup s n l) k = mem s k := rfl

/-- A lookup core after a member is replaced. -/
@[simp] theorem lookupCore_setMem (s : State) (n k : Nat) (m : Member) : lookupCore (setMem s n m) k = lookupCore s k := rfl

/-- A lookup core after a member is changed. -/
@[simp] theorem lookupCore_updMem (s : State) (n k : Nat) (f : Member → Member) :
    lookupCore (updMem s n f) k = lookupCore s k := rfl

/-- The clock of an agent after it is replaced. -/
@[simp] theorem clockOf_setClock_same (s : State) (a : Nat) (c : Clock) : clockOf (setClock s a c) a = c :=
  tget_tput_same _ _ _ _

/-- The clock of another agent after one is replaced. -/
theorem clockOf_setClock_ne (s : State) {a b : Nat} (c : Clock) (h : b ≠ a) : clockOf (setClock s a c) b = clockOf s b :=
  tget_tput_ne _ _ _ h

/-! ## Reset -/

/-- Every register of every member is at its T0 value in the reset state. -/
@[simp] theorem mem_reset (n : Nat) : mem State.reset n = Member.free := rfl

/-- Every lookup core is idle in the reset state. -/
@[simp] theorem lookupCore_reset (n : Nat) : lookupCore State.reset n = Lookup.idle := rfl

/-- Device memory of the reset state is in canonical form. -/
theorem reset_dmem_wf : Memory.wf State.reset.dmem := rfl

/-- The reset state keeps the form that every step keeps. -/
theorem reset_memWf : State.reset.MemWf := rfl

end Sys2Proof.Laws
end

