-- ==== Sys2Proof/Laws/Lockstep.lean ====
section
/-! SUPPORT. Issue: the three ways the meaning of a lane ends, what an issue leaves, and what the scalar operand
forms read and write. -/

namespace Sys2Proof.Laws

open Sys2Proof Sys2Proof.Machine

/-! ## The three ends of a lane -/

/-- A lane whose meaning acts issues with its occupancy. -/
theorem lockstep_ok {s s' : State} {l : Lane} {occ : Nat} {f : Lane → Except Stop (State × Nat)}
    (hl : curLane s = some l) (hf : f l = .ok (s', occ)) : lockstep s f = .next (retire s' l occ) := by
  simp [lockstep, hl, hf]

/-- A lane whose meaning waits stops its agent. -/
theorem lockstep_wait {s : State} {l : Lane} {h : Hold} {f : Lane → Except Stop (State × Nat)}
    (hl : curLane s = some l) (hf : f l = .error (.wait h)) : lockstep s f = .next (waitOn s l.who h) := by
  simp [lockstep, hl, hf]

/-- A lane whose meaning faults takes the fault. -/
theorem lockstep_trap {s : State} {l : Lane} {t : Trap} {f : Lane → Except Stop (State × Nat)}
    (hl : curLane s = some l) (hf : f l = .error (.trap t)) : lockstep s f = .next (laneFault s l t) := by
  simp [lockstep, hl, hf]

/-- A lane whose meaning stalls its queue alone leaves the state as it is. -/
theorem lockstep_stall {s : State} {l : Lane} {f : Lane → Except Stop (State × Nat)}
    (hl : curLane s = some l) (hf : f l = .error .stall) : lockstep s f = .next s := by
  simp [lockstep, hl, hf]

/-- With a lane to run, the meaning of a lane always answers a next state. -/
theorem lockstep_next {s : State} {l : Lane} (f : Lane → Except Stop (State × Nat)) (hl : curLane s = some l) :
    ∃ t, lockstep s f = .next t := by
  rcases h : f l with (h' | _ | t) | ⟨s', occ⟩
  · exact ⟨_, lockstep_wait hl h⟩
  · exact ⟨_, lockstep_stall hl h⟩
  · exact ⟨_, lockstep_trap hl h⟩
  · exact ⟨_, lockstep_ok hl h⟩

/-- Everything the meaning of a lane can answer. -/
theorem lockstep_cases {s t : State} {f : Lane → Except Stop (State × Nat)} (h : lockstep s f = .next t) :
    ∃ l, curLane s = some l ∧
      ((∃ w, f l = .error (.wait w) ∧ t = waitOn s l.who w) ∨
       (f l = .error .stall ∧ t = s) ∨
       (∃ x, f l = .error (.trap x) ∧ t = laneFault s l x) ∨
       (∃ s' occ, f l = .ok (s', occ) ∧ t = retire s' l occ)) := by
  unfold lockstep at h
  split at h
  · cases h
  · rename_i l hl
    refine ⟨l, hl, ?_⟩
    split at h <;> rename_i hf <;> cases h
    · exact .inl ⟨_, hf, rfl⟩
    · exact .inr (.inl ⟨hf, rfl⟩)
    · exact .inr (.inr (.inl ⟨_, hf, rfl⟩))
    · exact .inr (.inr (.inr ⟨_, _, hf, rfl⟩))

/-- An M lane that acts issues with its occupancy. -/
theorem mLane_go {s s' : State} {l : Lane} {occ : Nat} {f : Lane → MEnd}
    (hl : curLane s = some l) (hf : f l = .go s' occ) : mLane s f = .next (retire s' l occ) := by
  simp [mLane, hl, hf]

/-- With a lane to run, an M instruction always answers a next state. -/
theorem mLane_next {s : State} {l : Lane} (f : Lane → MEnd) (hl : curLane s = some l) : ∃ t, mLane s f = .next t := by
  rcases h : f l with ⟨s', occ⟩ | ⟨s', (h' | _ | t)⟩
  · exact ⟨_, mLane_go hl h⟩
  · exact ⟨waitOn s' l.who h', by simp [mLane, hl, h]⟩
  · exact ⟨s', by simp [mLane, hl, h]⟩
  · exact ⟨laneFault s' l t, by simp [mLane, hl, h]⟩

/-! ## Checks -/

@[simp] theorem require_true (k : Kind) : require true k = .ok () := rfl
@[simp] theorem require_false (k : Kind) : require false k = .error (.trap (trapOf k)) := rfl
@[simp] theorem waitUnless_true (h : Hold) : waitUnless true h = .ok () := rfl
@[simp] theorem waitUnless_false (h : Hold) : waitUnless false h = .error (.wait h) := rfl
@[simp] theorem memOnly_mem (n : Nat) (q : Queue) (x : QLane) : memOnly { who := .mem n, q := q, ln := x } = .ok n := rfl

/-- A lane of a member passes the check that it is one. -/
theorem memOnly_of {l : Lane} {n : Nat} (h : l.who = .mem n) : memOnly l = .ok n := by simp [memOnly, h]

/-! ## Alternatives -/

/-- Two plain values pair to one plain value. -/
@[simp] theorem pairWith_plain {α β γ : Type} (f : α → β → γ) (a : α) (b : β) :
    pairWith f (plain a) (plain b) = plain (f a b) := by
  have h : compatible 0#16 0#16 = true := by decide
  simp [pairWith, plain, List.filterMap_cons, h, conj, pairAV, derived]

@[simp] theorem mapAlts_plain {α β : Type} (f : α → β) (a : α) : mapAlts f (plain a) = plain (f a) := rfl
@[simp] theorem single_plain {α : Type} (a : α) : single (plain a) = some a := rfl
@[simp] theorem plain_length {α : Type} (a : α) : (plain a).length = 1 := rfl

/-- Plain sources pair to the list of their values. -/
theorem pairAll_plain {α : Type} (l : List α) : pairAll (l.map plain) = plain l := by
  have h : ∀ (l p : List α), (l.map plain).foldl (fun acc x => pairWith (fun vs v => vs ++ [v]) acc x) (plain p) =
      plain (p ++ l) := by
    intro l
    induction l with
    | nil => intro p; simp
    | cons a r ih => intro p; simp [ih]
  simpa [pairAll] using h l []

/-- An unqualified write leaves the results alone. -/
@[simp] theorem landAlts_none {α : Type} (d r : Alts α) : landAlts d r none [] = r := rfl

/-! ## s registers -/

/-- s0 reads zero whatever the member holds (R31). -/
@[simp] theorem sCell_zero (m : Member) : sCell m 0 = SCell.zero := rfl

/-- A write of s0 is discarded (R31). -/
@[simp] theorem setCell_zero (m : Member) (c : SCell) : setCell m 0 c = m := rfl

/-- A register after it is written. -/
theorem sCell_setCell_same (m : Member) (r : SReg) (c : SCell) (h : r ≠ 0) : sCell (setCell m r c) r = c := by
  have h' : r.val ≠ 0 := fun e => h (Fin.ext e)
  simp [sCell, setCell, h']

/-- Another register after one is written. -/
theorem sCell_setCell_ne (m : Member) {r x : SReg} (c : SCell) (h : x ≠ r) : sCell (setCell m r c) x = sCell m x := by
  have h' : x.val ≠ r.val := fun e => h (Fin.ext e)
  unfold sCell setCell
  by_cases hx : x.val = 0
  · simp [hx]
  · by_cases hr : r.val = 0
    · simp [hr]
    · simp [hx, hr, tget_tput_ne _ _ _ h']

end Sys2Proof.Laws
end

