-- ==== Sys2Proof/Laws/PerInstr.lean ====
section
/-! SUPPORT. Statements made per instruction. FormLength: how many words an instruction's encoding has (R112,
R113, R124, R126). -/

namespace Sys2Proof.Laws.FormLength

open Sys2Proof

/-- Words of an instruction of a queue: one lane or two, two lanes or four of an engine command, four of a link
word. -/
def words (i : Instr) : Nat :=
  match form i, eform i with
  | some f, _ => if f.hd.long then 2 else 1
  | none, some f => if f.e.long then 4 else 2
  | none, none => 4

/-- An instruction that has an encoding has it in its number of words. -/
def Statement (i : Instr) : Prop := ∀ q ws, encode i = some (q, ws) → ws.length = words i

/-- The number of words, for every instruction. -/
theorem length_eq (i : Instr) : Statement i := by
  intro q ws h
  unfold encode at h
  unfold words
  split at h
  · rename_i f hf
    rw [hf]
    cases h
    dsimp only
    split <;> rfl
  · rename_i hf
    rw [hf]
    split at h
    · rename_i f he
      rw [he]
      cases h
      dsimp only
      split <;> rfl
    · rename_i he
      rw [he]
      split at h
      · cases h
        rfl
      · cases h

theorem nop (h : Hd) : Statement (.nop h) := length_eq _
theorem add (h : Hd) (d a : SReg) (b : Src2) : Statement (.add h d a b) := length_eq _
theorem sub (h : Hd) (d a : SReg) (b : Src2) : Statement (.sub h d a b) := length_eq _
theorem mul (h : Hd) (d a : SReg) (b : Src2) : Statement (.mul h d a b) := length_eq _
theorem mulh (h : Hd) (d a : SReg) (b : Src2) : Statement (.mulh h d a b) := length_eq _
theorem mulhn (h : Hd) (d a : SReg) (b : Src2) : Statement (.mulhn h d a b) := length_eq _
theorem div (h : Hd) (d a : SReg) (b : Src2) : Statement (.div h d a b) := length_eq _
theorem divn (h : Hd) (d a : SReg) (b : Src2) : Statement (.divn h d a b) := length_eq _
theorem rem (h : Hd) (d a : SReg) (b : Src2) : Statement (.rem h d a b) := length_eq _
theorem remn (h : Hd) (d a : SReg) (b : Src2) : Statement (.remn h d a b) := length_eq _
theorem and_ (h : Hd) (d a : SReg) (b : Src2) : Statement (.and_ h d a b) := length_eq _
theorem or_ (h : Hd) (d a : SReg) (b : Src2) : Statement (.or_ h d a b) := length_eq _
theorem xor (h : Hd) (d a : SReg) (b : Src2) : Statement (.xor h d a b) := length_eq _
theorem andn (h : Hd) (d a : SReg) (b : Src2) : Statement (.andn h d a b) := length_eq _
theorem shl (h : Hd) (d a : SReg) (b : Src2) : Statement (.shl h d a b) := length_eq _
theorem shr (h : Hd) (d a : SReg) (b : Src2) : Statement (.shr h d a b) := length_eq _
theorem sra (h : Hd) (d a : SReg) (b : Src2) : Statement (.sra h d a b) := length_eq _
theorem rol (h : Hd) (d a : SReg) (b : Src2) : Statement (.rol h d a b) := length_eq _
theorem min (h : Hd) (d a : SReg) (b : Src2) : Statement (.min h d a b) := length_eq _
theorem max (h : Hd) (d a : SReg) (b : Src2) : Statement (.max h d a b) := length_eq _
theorem minn (h : Hd) (d a : SReg) (b : Src2) : Statement (.minn h d a b) := length_eq _
theorem maxn (h : Hd) (d a : SReg) (b : Src2) : Statement (.maxn h d a b) := length_eq _
theorem clz (h : Hd) (d a : SReg) : Statement (.clz h d a) := length_eq _
theorem ctz (h : Hd) (d a : SReg) : Statement (.ctz h d a) := length_eq _
theorem popc (h : Hd) (d a : SReg) : Statement (.popc h d a) := length_eq _
theorem sext (h : Hd) (d a : SReg) (w : BitVec 33) : Statement (.sext h d a w) := length_eq _
theorem zext (h : Hd) (d a : SReg) (w : BitVec 33) : Statement (.zext h d a w) := length_eq _
theorem bfx (h : Hd) (d a : SReg) (p : BitVec 6) (n : BitVec 7) : Statement (.bfx h d a p n) := length_eq _
theorem bfi (h : Hd) (d a : SReg) (p : BitVec 6) (n : BitVec 7) : Statement (.bfi h d a p n) := length_eq _
theorem cmp (h : Hd) (d a b : SReg) (cc : BitVec 4) : Statement (.cmp h d a b cc) := length_eq _
theorem sel (h : Hd) (d a b y : SReg) : Statement (.sel h d a b y) := length_eq _
theorem li (h : Hd) (d : SReg) (imm : BitVec 39) : Statement (.li h d imm) := length_eq _
theorem lih (h : Hd) (d : SReg) (imm : BitVec 32) : Statement (.lih h d imm) := length_eq _
theorem mov (h : Hd) (d a : SReg) : Statement (.mov h d a) := length_eq _
theorem lea (h : Hd) (d a b : SReg) (p : BitVec 6) : Statement (.lea h d a b p) := length_eq _
theorem crd (h : Hd) (d : SReg) (row col : BitVec 4) : Statement (.crd h d row col) := length_eq _
theorem br (h : Hd) (z : Bool) (a : SReg) (off : BitVec 39) : Statement (.br h z a off) := length_eq _
theorem jmp (h : Hd) (off : BitVec 46) : Statement (.jmp h off) := length_eq _
theorem jmpi (h : Hd) (a : SReg) : Statement (.jmpi h a) := length_eq _
theorem call (h : Hd) (d : SReg) (off : BitVec 39) : Statement (.call h d off) := length_eq _
theorem ret (h : Hd) (a : SReg) : Statement (.ret h a) := length_eq _
theorem loop (h : Hd) (lc : Fin 8) (trip : Trip) (len : BitVec 10) : Statement (.loop h lc trip len) := length_eq _
theorem loopn (h : Hd) (lc : Fin 8) (as : AReg) (len : BitVec 10) : Statement (.loopn h lc as len) := length_eq _
theorem loopc (h : Hd) (lc : Fin 8) (trip : Trip) (len : BitVec 10) : Statement (.loopc h lc trip len) := length_eq _
theorem loopd (h : Hd) (lc : Fin 8) (trip : Trip) (len : BitVec 10) : Statement (.loopd h lc trip len) := length_eq _
theorem lbrk (h : Hd) (lc : Fin 8) (a : SReg) : Statement (.lbrk h lc a) := length_eq _
theorem lrec (h : Hd) (id : BitVec 16) : Statement (.lrec h id) := length_eq _
theorem stg (h : Hd) (d : SReg) (stage : Fin 8) : Statement (.stg h d stage) := length_eq _
theorem fpost (h : Hd) (f : FlagRef) (sc : BitVec 2) (v : FlagVal) : Statement (.fpost h f sc v) := length_eq _
theorem fwait (h : Hd) (f : FlagRef) (sc : BitVec 2) (v : FlagVal) : Statement (.fwait h f sc v) := length_eq _
theorem fset (h : Hd) (f : FlagRef) (sc : BitVec 2) (v : FlagVal) : Statement (.fset h f sc v) := length_eq _
theorem fdec (h : Hd) (f : FlagRef) (sc : BitVec 2) (v : FlagVal) : Statement (.fdec h f sc v) := length_eq _
theorem fread (h : Hd) (f : FlagRef) (d : SReg) : Statement (.fread h f d) := length_eq _
theorem farm (h : Hd) (f : FlagRef) (sc : BitVec 2) (v : FlagVal) : Statement (.farm h f sc v) := length_eq _
theorem barj (h : Hd) (n : BitVec 12) (a : SReg) : Statement (.barj h n a) := length_eq _
theorem barw (h : Hd) (n : BitVec 12) (a : SReg) : Statement (.barw h n a) := length_eq _
theorem align (h : Hd) (n : BitVec 6) : Statement (.align h n) := length_eq _
theorem idle (h : Hd) (n1 : BitVec 20) : Statement (.idle h n1) := length_eq _
theorem idleColumn (h : Hd) (n1 : BitVec 20) (col : BitVec 2) : Statement (.idleColumn h n1 col) := length_eq _
theorem qopen (h : Hd) (q : QSlot) (a : SReg) : Statement (.qopen h q a) := length_eq _
theorem qopenf (h : Hd) (q : QSlot) (a : SReg) (fk : BitVec 2) (fn : BitVec 12) : Statement (.qopenf h q a fk fn) := length_eq _
theorem qres (h : Hd) (q : QSlot) (a : SReg) : Statement (.qres h q a) := length_eq _
theorem qwait (h : Hd) (q : QSlot) : Statement (.qwait h q) := length_eq _
theorem qpick (h : Hd) (vr : Bool) (d a : SReg) (gm : BitVec 16) : Statement (.qpick h vr d a gm) := length_eq _
theorem qstat (h : Hd) (vr : Bool) (d a : SReg) : Statement (.qstat h vr d a) := length_eq _
theorem trap (h : Hd) (code : BitVec 16) : Statement (.trap h code) := length_eq _
theorem svc (h : Hd) (code : BitVec 16) : Statement (.svc h code) := length_eq _
theorem halt (h : Hd) : Statement (.halt h) := length_eq _
theorem yield (h : Hd) : Statement (.yield h) := length_eq _
theorem rdsr (h : Hd) (d : SReg) (sn : BitVec 8) : Statement (.rdsr h d sn) := length_eq _
theorem wrsr (h : Hd) (a : SReg) (sn : BitVec 8) : Statement (.wrsr h a sn) := length_eq _
theorem brk (h : Hd) (code : BitVec 16) : Statement (.brk h code) := length_eq _
theorem uiret (h : Hd) : Statement (.uiret h) := length_eq _
theorem pcsel (h : Hd) (code : BitVec 16) : Statement (.pcsel h code) := length_eq _
theorem pcread (h : Hd) (d a : SReg) (op : BitVec 2) : Statement (.pcread h d a op) := length_eq _
theorem trmark (h : Hd) (code : BitVec 16) : Statement (.trmark h code) := length_eq _
theorem lidx (h : Hd) (d : SReg) (hn : HReg) (a : SReg) (op : BitVec 4) : Statement (.lidx h d hn a op) := length_eq _
theorem ldup (h : Hd) (d : SReg) : Statement (.ldup h d) := length_eq _
theorem lgat (h : Hd) (hn : HReg) (a : SReg) (op : BitVec 4) : Statement (.lgat h hn a op) := length_eq _
theorem lpool (h : Hd) (op : BitVec 4) : Statement (.lpool h op) := length_eq _
theorem lsend (h : Hd) (a : SReg) (prow pcol : BitVec 4) (slot : BitVec 11) : Statement (.lsend h a prow pcol slot) := length_eq _
theorem lscat (h : Hd) (hn : HReg) (a : SReg) (op : BitVec 4) : Statement (.lscat h hn a op) := length_eq _
theorem vadd (h : Hd) (x : VExt) (d a b : VReg) : Statement (.vadd h x d a b) := length_eq _
theorem vsub (h : Hd) (x : VExt) (d a b : VReg) : Statement (.vsub h x d a b) := length_eq _
theorem vmul (h : Hd) (x : VExt) (d a b : VReg) : Statement (.vmul h x d a b) := length_eq _
theorem vfma (h : Hd) (x : VExt) (d a b y : VReg) : Statement (.vfma h x d a b y) := length_eq _
theorem vfms (h : Hd) (x : VExt) (d a b y : VReg) : Statement (.vfms h x d a b y) := length_eq _
theorem vfnma (h : Hd) (x : VExt) (d a b y : VReg) : Statement (.vfnma h x d a b y) := length_eq _
theorem vmin (h : Hd) (x : VExt) (d a b : VReg) : Statement (.vmin h x d a b) := length_eq _
theorem vmax (h : Hd) (x : VExt) (d a b : VReg) : Statement (.vmax h x d a b) := length_eq _
theorem vminn (h : Hd) (x : VExt) (d a b : VReg) : Statement (.vminn h x d a b) := length_eq _
theorem vmaxn (h : Hd) (x : VExt) (d a b : VReg) : Statement (.vmaxn h x d a b) := length_eq _
theorem vabs (h : Hd) (x : VExt) (d a : VReg) : Statement (.vabs h x d a) := length_eq _
theorem vneg (h : Hd) (x : VExt) (d a : VReg) : Statement (.vneg h x d a) := length_eq _
theorem vcmp (h : Hd) (x : VExt) (d : KReg) (a b : VReg) (cc : BitVec 4) : Statement (.vcmp h x d a b cc) := length_eq _
theorem vsel (h : Hd) (x : VExt) (d a b : VReg) (y : KReg) : Statement (.vsel h x d a b y) := length_eq _
theorem vclamp (h : Hd) (x : VExt) (d a b y : VReg) : Statement (.vclamp h x d a b y) := length_eq _
theorem vldx2 (h : Hd) (x : VExt) (d a b : VReg) : Statement (.vldx2 h x d a b) := length_eq _
theorem vrnd (h : Hd) (x : VExt) (d a : VReg) : Statement (.vrnd h x d a) := length_eq _
theorem viadd (h : Hd) (x : VExt) (d a b : VReg) : Statement (.viadd h x d a b) := length_eq _
theorem visub (h : Hd) (x : VExt) (d a b : VReg) : Statement (.visub h x d a b) := length_eq _
theorem vimul (h : Hd) (x : VExt) (d a b : VReg) : Statement (.vimul h x d a b) := length_eq _
theorem vimulh (h : Hd) (x : VExt) (d a b : VReg) : Statement (.vimulh h x d a b) := length_eq _
theorem viand (h : Hd) (x : VExt) (d a b : VReg) : Statement (.viand h x d a b) := length_eq _
theorem vior (h : Hd) (x : VExt) (d a b : VReg) : Statement (.vior h x d a b) := length_eq _
theorem vixor (h : Hd) (x : VExt) (d a b : VReg) : Statement (.vixor h x d a b) := length_eq _
theorem vishl (h : Hd) (x : VExt) (d a b : VReg) : Statement (.vishl h x d a b) := length_eq _
theorem vishr (h : Hd) (x : VExt) (d a b : VReg) : Statement (.vishr h x d a b) := length_eq _
theorem visra (h : Hd) (x : VExt) (d a b : VReg) : Statement (.visra h x d a b) := length_eq _
theorem vimin (h : Hd) (x : VExt) (d a b : VReg) : Statement (.vimin h x d a b) := length_eq _
theorem vimax (h : Hd) (x : VExt) (d a b : VReg) : Statement (.vimax h x d a b) := length_eq _
theorem viabs (h : Hd) (x : VExt) (d a : VReg) : Statement (.viabs h x d a) := length_eq _
theorem vicmp (h : Hd) (x : VExt) (d : KReg) (a b : VReg) (cc : BitVec 4) : Statement (.vicmp h x d a b cc) := length_eq _
theorem viclamp (h : Hd) (x : VExt) (d a b y : VReg) : Statement (.viclamp h x d a b y) := length_eq _
theorem vcvt (h : Hd) (x : VExt) (d a : VReg) (k : Cvt) : Statement (.vcvt h x d a k) := length_eq _
theorem vcvts (h : Hd) (x : VExt) (d a b : VReg) (k : Cvt) : Statement (.vcvts h x d a b k) := length_eq _
theorem vpack (h : Hd) (x : VExt) (d a b : VReg) (k : Cvt) : Statement (.vpack h x d a b k) := length_eq _
theorem vunpk (h : Hd) (x : VExt) (d a : VReg) (p : Fin 32) (k : Cvt) : Statement (.vunpk h x d a p k) := length_eq _
theorem vmov (h : Hd) (x : VExt) (d a : VReg) : Statement (.vmov h x d a) := length_eq _
theorem vbc (h : Hd) (x : VExt) (d : VReg) (s : SReg) : Statement (.vbc h x d s) := length_eq _
theorem vrbc (h : Hd) (x : VExt) (d a : VReg) (col : Fin 64) : Statement (.vrbc h x d a col) := length_eq _
theorem vcbc (h : Hd) (x : VExt) (d a : VReg) (row : Fin 16) : Statement (.vcbc h x d a row) := length_eq _
theorem vrrot (h : Hd) (x : VExt) (d a : VReg) (n : Rot) : Statement (.vrrot h x d a n) := length_eq _
theorem vcrot (h : Hd) (x : VExt) (d a : VReg) (n : Rot) : Statement (.vcrot h x d a n) := length_eq _
theorem vrred (h : Hd) (x : VExt) (d : VDst) (a : VReg) (op : BitVec 3) : Statement (.vrred h x d a op) := length_eq _
theorem vcred (h : Hd) (x : VExt) (d a : VReg) (op : BitVec 3) : Statement (.vcred h x d a op) := length_eq _
theorem vrscan (h : Hd) (x : VExt) (d a : VReg) (op : BitVec 3) : Statement (.vrscan h x d a op) := length_eq _
theorem vperm (h : Hd) (x : VExt) (d a b : VReg) : Statement (.vperm h x d a b) := length_eq _
theorem vtrn (h : Hd) (x : VExt) (d a : VReg) : Statement (.vtrn h x d a) := length_eq _
theorem viota (h : Hd) (x : VExt) (d : VReg) : Statement (.viota h x d) := length_eq _
theorem vext (h : Hd) (x : VExt) (d : SReg) (a : VReg) (row : Fin 16) (col : Fin 64) : Statement (.vext h x d a row col) := length_eq _
theorem vins (h : Hd) (x : VExt) (d : VReg) (s : SReg) (row : Fin 16) (col : Fin 64) : Statement (.vins h x d s row col) := length_eq _
theorem kand (h : Hd) (x : VExt) (d a b : KReg) : Statement (.kand h x d a b) := length_eq _
theorem kor (h : Hd) (x : VExt) (d a b : KReg) : Statement (.kor h x d a b) := length_eq _
theorem kxor (h : Hd) (x : VExt) (d a b : KReg) : Statement (.kxor h x d a b) := length_eq _
theorem knot (h : Hd) (x : VExt) (d a : KReg) : Statement (.knot h x d a) := length_eq _
theorem kmov (h : Hd) (x : VExt) (d a : KReg) : Statement (.kmov h x d a) := length_eq _
theorem kpop (h : Hd) (x : VExt) (d : SReg) (a : KReg) : Statement (.kpop h x d a) := length_eq _
theorem kfst (h : Hd) (x : VExt) (d : SReg) (a : KReg) : Statement (.kfst h x d a) := length_eq _
theorem rtcnt (h : Hd) (x : VExt) (a : VReg) : Statement (.rtcnt h x a) := length_eq _
theorem vrope (h : Hd) (x : VExt) (d a b y : VReg) : Statement (.vrope h x d a b y) := length_eq _
theorem xexp2 (h : Hd) (x : VExt) (d a : VReg) : Statement (.xexp2 h x d a) := length_eq _
theorem xlog2 (h : Hd) (x : VExt) (d a : VReg) : Statement (.xlog2 h x d a) := length_eq _
theorem xrcp (h : Hd) (x : VExt) (d a : VReg) : Statement (.xrcp h x d a) := length_eq _
theorem xrsqrt (h : Hd) (x : VExt) (d a : VReg) : Statement (.xrsqrt h x d a) := length_eq _
theorem xsqrt (h : Hd) (x : VExt) (d a : VReg) : Statement (.xsqrt h x d a) := length_eq _
theorem xdiv (h : Hd) (x : VExt) (d a b : VReg) : Statement (.xdiv h x d a b) := length_eq _
theorem xrng (h : Hd) (x : VExt) (d : VReg) : Statement (.xrng h x d) := length_eq _
theorem mmac (h : Hd) (st : SReg) (fa fb : AReg) (tl : Fin 16) (nt : Fin 4) : Statement (.mmac h st fa fb tl nt) := length_eq _
theorem mmacb (h : Hd) (st : SReg) (fa fb : AReg) (tl : Fin 16) (sub : Fin 16) : Statement (.mmacb h st fa fb tl sub) := length_eq _
theorem mret (h : Hd) (st : SReg) (tl : Fin 16) (nt : Fin 4) : Statement (.mret h st tl nt) := length_eq _
theorem mload (h : Hd) (st : SReg) (tl : Fin 16) (nt : Fin 4) : Statement (.mload h st tl nt) := length_eq _
theorem mzero (h : Hd) (st : SReg) (tl : Fin 16) (nt : Fin 4) : Statement (.mzero h st tl nt) := length_eq _
theorem mwake (h : Hd) (st : SReg) (mask : BitVec 16) : Statement (.mwake h st mask) := length_eq _
theorem mmode (h : Hd) (st : SReg) (f64 : Bool) (rm : BitVec 3) : Statement (.mmode h st f64 rm) := length_eq _
theorem sset (h : Hd) (st : SReg) (fa : AReg) (idx : BitVec 16) : Statement (.sset h st fa idx) := length_eq _
theorem sadv (h : Hd) (st : SReg) (fa : AReg) : Statement (.sadv h st fa) := length_eq _
theorem sget (h : Hd) (st : SReg) (fa : AReg) (code : BitVec 4) (d : SReg) : Statement (.sget h st fa code d) := length_eq _
theorem aqk (h : Hd) (st : SReg) (fa : AReg) (fb : HReg) (tl : Fin 16) (s : SReg) : Statement (.aqk h st fa fb tl s) := length_eq _
theorem apv (h : Hd) (st : SReg) (fa : AReg) (fb : HReg) (tl : Fin 16) (s : SReg) : Statement (.apv h st fa fb tl s) := length_eq _
theorem amass (h : Hd) (st : SReg) (fb : HReg) (tl : Fin 16) (k : KReg) : Statement (.amass h st fb tl k) := length_eq _
theorem apos (h : Hd) (st : SReg) (fb : HReg) (d : VReg) : Statement (.apos h st fb d) := length_eq _
theorem vld (h : Hd) (m : LMem) (w : BitVec 2) (sx : Bool) : Statement (.vld h m w sx) := length_eq _
theorem vst (h : Hd) (m : LMem) (r : VReg) (w : BitVec 2) : Statement (.vst h m r w) := length_eq _
theorem sld (h : Hd) (m : LMem) (w : BitVec 2) (sx : Bool) : Statement (.sld h m w sx) := length_eq _
theorem sst (h : Hd) (m : LMem) (r : SReg) (w : BitVec 2) : Statement (.sst h m r w) := length_eq _
theorem vldx (h : Hd) (m : LMem) (w : BitVec 2) (sx : Bool) : Statement (.vldx h m w sx) := length_eq _
theorem vstx (h : Hd) (m : LMem) (r : VReg) (w : BitVec 2) : Statement (.vstx h m r w) := length_eq _
theorem atom (h : Hd) (d : SReg) (hn : HReg) (o : SReg) (op : BitVec 4) (v : SReg) (sz : BitVec 2) (imm : BitVec 12) : Statement (.atom h d hn o op v sz imm) := length_eq _
theorem cas (h : Hd) (d : SReg) (hn : HReg) (o : SReg) (v nv : SReg) (sz : BitVec 2) (imm : BitVec 12) : Statement (.cas h d hn o v nv sz imm) := length_eq _
theorem pf (h : Hd) (m : LMem) : Statement (.pf h m) := length_eq _
theorem mark (h : Hd) : Statement (.mark h) := length_eq _
theorem fence (h : Hd) (sc : BitVec 2) : Statement (.fence h sc) := length_eq _
theorem zfill (h : Hd) (m : LMem) (r : SReg) : Statement (.zfill h m r) := length_eq _
theorem pin (h : Hd) (m : LMem) (r : SReg) : Statement (.pin h m r) := length_eq _
theorem unpin (h : Hd) (m : LMem) (r : SReg) : Statement (.unpin h m r) := length_eq _
theorem xlat (h : Hd) (hn : HReg) (o : SReg) : Statement (.xlat h hn o) := length_eq _
theorem hrel (h : Hd) (hn : HReg) : Statement (.hrel h hn) := length_eq _
theorem tfill (h : Hd) (m : LMem) (r : VReg) (w : BitVec 2) : Statement (.tfill h m r w) := length_eq _
theorem tdrain (h : Hd) (m : LMem) (w : BitVec 2) : Statement (.tdrain h m w) := length_eq _
theorem rst (h : Hd) (r : VReg) (o : SReg) (prow pcol : BitVec 4) (fv : Bool) (fn : BitVec 10) : Statement (.rst h r o prow pcol fv fn) := length_eq _
theorem cpy (e : ECmd) (k : Copy) : Statement (.cpy e k) := length_eq _
theorem cpyc (e : ECmd) (k : Copy) (rn dst sst : SReg) : Statement (.cpyc e k rn dst sst) := length_eq _
theorem cfill (e : ECmd) (k : Copy) : Statement (.cfill e k) := length_eq _
theorem tfetch (e : ECmd) (k : Copy) (rn sst : SReg) : Statement (.tfetch e k rn sst) := length_eq _
theorem kick (e : ECmd) (c t : SReg) : Statement (.kick e c t) := length_eq _
theorem link (e : ECmd) (c : SReg) : Statement (.link e c) := length_eq _
theorem linkWord (next : BitVec 50) : Statement (.linkWord next) := length_eq _
theorem collAllReduce (e : ECmd) (k : Coll) : Statement (.collAllReduce e k) := length_eq _
theorem collReduceScatter (e : ECmd) (k : Coll) : Statement (.collReduceScatter e k) := length_eq _
theorem collAllGather (e : ECmd) (k : Coll) : Statement (.collAllGather e k) := length_eq _
theorem collAllToAll (e : ECmd) (k : Coll) : Statement (.collAllToAll e k) := length_eq _
theorem collBroadcast (e : ECmd) (k : Coll) : Statement (.collBroadcast e k) := length_eq _
theorem rmerge (e : ECmd) (dh : HReg) (do_ : SReg) (ty : Bool) (ct nc : SReg) (ln : Fin 32) : Statement (.rmerge e dh do_ ty ct nc ln) := length_eq _
theorem rtsnap (e : ECmd) (dh : HReg) (do_ : SReg) : Statement (.rtsnap e dh do_) := length_eq _
theorem hvstKeep (e : ECmd) (p : HReg) (k : SReg) (dk : Bool) (w d : SReg) : Statement (.hvstKeep e p k dk w d) := length_eq _
theorem hvstMass (e : ECmd) (p : HReg) (k : SReg) (dk : Bool) (w d : SReg) : Statement (.hvstMass e p k dk w d) := length_eq _
theorem hcomp (e : ECmd) (p : HReg) : Statement (.hcomp e p) := length_eq _
theorem htrunc (e : ECmd) (p : HReg) (l : SReg) : Statement (.htrunc e p l) := length_eq _
theorem lkick (e : ECmd) (lc pc ar : SReg) : Statement (.lkick e lc pc ar) := length_eq _
theorem esync (e : ECmd) : Statement (.esync e) := length_eq _
theorem fetchLinePresent (a : Agent) : Statement (.fetchLinePresent a) := length_eq _
theorem fixedLatencyWrite (a : Agent) : Statement (.fixedLatencyWrite a) := length_eq _
theorem pendingValueLands (site tok : Nat) : Statement (.pendingValueLands site tok) := length_eq _
theorem freezeRelease (site : Nat) : Statement (.freezeRelease site) := length_eq _
theorem recordBoundary (site : Nat) : Statement (.recordBoundary site) := length_eq _
theorem recordLongestExceeded (site : Nat) : Statement (.recordLongestExceeded site) := length_eq _
theorem guardResolution (site : Nat) (q : QSlot) : Statement (.guardResolution site q) := length_eq _
theorem deferredAccessReissue (site tok : Nat) : Statement (.deferredAccessReissue site tok) := length_eq _
theorem heldEntryLeaves (site : Nat) : Statement (.heldEntryLeaves site) := length_eq _
theorem lLoadPerform (site piece : Nat) : Statement (.lLoadPerform site piece) := length_eq _
theorem lStorePerform (site piece : Nat) : Statement (.lStorePerform site piece) := length_eq _
theorem atomicPerform (site : Nat) : Statement (.atomicPerform site) := length_eq _
theorem markPerform (site : Nat) : Statement (.markPerform site) := length_eq _
theorem fencePerform (site : Nat) : Statement (.fencePerform site) := length_eq _
theorem flagUpdatePerform (site : Nat) : Statement (.flagUpdatePerform site) := length_eq _
theorem amassUpdatePerform (site : Nat) : Statement (.amassUpdatePerform site) := length_eq _
theorem tfillPerform (site : Nat) : Statement (.tfillPerform site) := length_eq _
theorem tdrainPerform (site : Nat) : Statement (.tdrainPerform site) := length_eq _
theorem pinPerform (site : Nat) : Statement (.pinPerform site) := length_eq _
theorem pinDeferredGrant (site : Nat) (loader : Bool) : Statement (.pinDeferredGrant site loader) := length_eq _
theorem rstPerform (site : Nat) : Statement (.rstPerform site) := length_eq _
theorem xlatResult (site : Nat) (hn : HReg) : Statement (.xlatResult site hn) := length_eq _
theorem refill (site : Nat) (src : FaultSrc) : Statement (.refill site src) := length_eq _
theorem slotWaiterProceeds (w : Waiter) : Statement (.slotWaiterProceeds w) := length_eq _
theorem subarraySleep (site : Nat) (k : Fin 16) : Statement (.subarraySleep site k) := length_eq _
theorem subarrayWakeComplete (site : Nat) (k : Fin 16) : Statement (.subarrayWakeComplete site k) := length_eq _
theorem mCbWrite (site : Nat) : Statement (.mCbWrite site) := length_eq _
theorem rtcntBankUpdate (site : Nat) : Statement (.rtcntBankUpdate site) := length_eq _
theorem pcreadSample (site tok : Nat) : Statement (.pcreadSample site tok) := length_eq _
theorem uiEntry (site : Nat) : Statement (.uiEntry site) := length_eq _
theorem engineCommandStart (site : Nat) (eng : Fin 4) : Statement (.engineCommandStart site eng) := length_eq _
theorem engineCommandComplete (site : Nat) (eng : Fin 4) (idx : Nat) : Statement (.engineCommandComplete site eng idx) := length_eq _
theorem engineCommandFail (site : Nat) (eng : Fin 4) (idx : Nat) : Statement (.engineCommandFail site eng idx) := length_eq _
theorem streamRestart (site : Nat) (eng : Fin 4) : Statement (.streamRestart site eng) := length_eq _
theorem collChunkArrives (site idx chunk : Nat) : Statement (.collChunkArrives site idx chunk) := length_eq _
theorem harvestLock (site : Nat) : Statement (.harvestLock site) := length_eq _
theorem harvestDrain (site : Nat) : Statement (.harvestDrain site) := length_eq _
theorem memberRetire (site : Nat) : Statement (.memberRetire site) := length_eq _
theorem watchdogExpiry (launch : Word32) : Statement (.watchdogExpiry launch) := length_eq _
theorem kill (launch : Word32) : Statement (.kill launch) := length_eq _
theorem completionWord (launch : Word32) : Statement (.completionWord launch) := length_eq _
theorem doorbell (func idx : Nat) (tail : Word32) : Statement (.doorbell func idx tail) := length_eq _
theorem launchSelect (queue : Nat) (p : Placement) : Statement (.launchSelect queue p) := length_eq _
theorem bindGo (launch : Word32) : Statement (.bindGo launch) := length_eq _
theorem t0Start (launch : Word32) : Statement (.t0Start launch) := length_eq _
theorem tenantSwitch (func : Nat) : Statement (.tenantSwitch func) := length_eq _
theorem graphRebind (launch : Word32) (img : Nat) : Statement (.graphRebind launch img) := length_eq _
theorem graphRebindSwitch (launch : Word32) : Statement (.graphRebindSwitch launch) := length_eq _
theorem invalidationRequest (ctx : Nat) (va : BitVec 38) (count : BitVec 24) : Statement (.invalidationRequest ctx va count) := length_eq _
theorem invalidationDone : Statement (.invalidationDone) := length_eq _
theorem pageMigration (m : Migration) : Statement (.pageMigration m) := length_eq _
theorem faultRecordPost : Statement (.faultRecordPost) := length_eq _
theorem preemptRequest (launch : Word32) : Statement (.preemptRequest launch) := length_eq _
theorem memberPark (site : Nat) : Statement (.memberPark site) := length_eq _
theorem saveStart (launch : Word32) : Statement (.saveStart launch) := length_eq _
theorem saveDone (launch : Word32) : Statement (.saveDone launch) := length_eq _
theorem restoreStart (launch : Word32) : Statement (.restoreStart launch) := length_eq _
theorem traceSample (site : Nat) : Statement (.traceSample site) := length_eq _
theorem dbgStop (site : Nat) : Statement (.dbgStop site) := length_eq _
theorem dbgStep (site : Nat) : Statement (.dbgStep site) := length_eq _
theorem dbgResume (site : Nat) : Statement (.dbgResume site) := length_eq _
theorem vigilTrigger (cause : BitVec 8) : Statement (.vigilTrigger cause) := length_eq _
theorem vigilTrig : Statement (.vigilTrig) := length_eq _
theorem vigilReset : Statement .vigilReset := length_eq _
theorem vigilImageRead (off : Nat) : Statement (.vigilImageRead off) := length_eq _
theorem coldReset (b : Boot) : Statement (.coldReset b) := length_eq _
theorem attestationReport (func : Nat) (nonce : BitVec 256) : Statement (.attestationReport func nonce) := length_eq _
theorem keySlotWrite (slot : Nat) (key : BitVec 512) : Statement (.keySlotWrite slot key) := length_eq _
theorem alarmLevel1 : Statement (.alarmLevel1) := length_eq _
theorem alarmLevel2 : Statement (.alarmLevel2) := length_eq _
theorem powerCap (watts : Nat) : Statement (.powerCap watts) := length_eq _
theorem powerOverdraw (milliwatts : Nat) : Statement (.powerOverdraw milliwatts) := length_eq _
theorem linkDown (port : Nat) : Statement (.linkDown port) := length_eq _
theorem linkRetrain (port : Nat) : Statement (.linkRetrain port) := length_eq _
theorem flitRead (f : Flit) : Statement (.flitRead f) := length_eq _
theorem flitWrite (f : Flit) : Statement (.flitWrite f) := length_eq _
theorem flitAtomic (f : Flit) (op : BitVec 4) (sz : BitVec 2) : Statement (.flitAtomic f op sz) := length_eq _
theorem flitBufferStore (f : Flit) (tag : Word32) : Statement (.flitBufferStore f tag) := length_eq _
theorem flitFlagAdd (f : Flit) (tag : Word32) : Statement (.flitFlagAdd f tag) := length_eq _
theorem flitCollectiveChunk (f : Flit) (tag : Word32) (c : CollData) : Statement (.flitCollectiveChunk f tag c) := length_eq _
theorem flitCompletion (f : Flit) : Statement (.flitCompletion f) := length_eq _
theorem hostWrite (func : Nat) (t : HostTarget) (data : List Byte) : Statement (.hostWrite func t data) := length_eq _
theorem hostRead (func : Nat) (t : HostTarget) (n : Nat) : Statement (.hostRead func t n) := length_eq _
theorem functionLevelReset (func : Nat) : Statement (.functionLevelReset func) := length_eq _
theorem scrub (unit : Stored) (e : EccOutcome) : Statement (.scrub unit e) := length_eq _
theorem meteredRequestProceeds (slice ctx : Nat) : Statement (.meteredRequestProceeds slice ctx) := length_eq _
theorem svcNop (req : Nat) : Statement (.svcNop req) := length_eq _
theorem svcMap (req : Nat) (frames tables : List Nat) : Statement (.svcMap req frames tables) := length_eq _
theorem svcUnmap (req : Nat) : Statement (.svcUnmap req) := length_eq _
theorem svcProtect (req : Nat) : Statement (.svcProtect req) := length_eq _
theorem svcTime (req : Nat) : Statement (.svcTime req) := length_eq _
theorem svcLog (req : Nat) : Statement (.svcLog req) := length_eq _
theorem mgmtRegisterWrite (r : MgmtReg) (v : Nat) : Statement (.mgmtRegisterWrite r v) := length_eq _
theorem mOperandSlotsSetEmpty (site : Nat) : Statement (.mOperandSlotsSetEmpty site) := length_eq _
theorem pcieCompletion (tag : Nat) (ok : Bool) (poisoned : Bool) (data : List Byte) : Statement (.pcieCompletion tag ok poisoned data) := length_eq _
theorem hostAtomic (func : Nat) (addr : Nat) (op : BitVec 2) (wide : Bool) (v cmp : Word) : Statement (.hostAtomic func addr op wide v cmp) := length_eq _
theorem svcUnknownCode (req : Nat) : Statement (.svcUnknownCode req) := length_eq _
theorem coreClockChange (mhz : Nat) (stopped : Bool) : Statement (.coreClockChange mhz stopped) := length_eq _
theorem launchClassRaise (queue : Nat) : Statement (.launchClassRaise queue) := length_eq _
theorem memberLoadComplete (site : Nat) (ok : Bool) : Statement (.memberLoadComplete site ok) := length_eq _

end Sys2Proof.Laws.FormLength
end

