-- ==== Sys2Proof/Tests/Slice0.lean ====
section
/-! SUPPORT. Tests: ill-formed terms that the checks refuse, words of the manual, one-step results computed from the
manual by hand, and for each statement states and operands that meet its hypotheses. -/

namespace Sys2Proof.Tests

open Sys2Proof Sys2Proof.Machine Sys2Proof.Claims

set_option Elab.async false

/-! ## Ill-formed instructions, one for each check -/

def vx : VExt := { msk := 0, f := 0, rnd := 5, sat := false }
def ix : VExt := { msk := 0, f := 2, rnd := 5, sat := false }
def cv (tf : BitVec 4) (sty tty : BitVec 3) (kind : BitVec 2) : Cvt := { tf := tf, sty := sty, tty := tty, kind := kind }
def lm (as : BitVec 2) : LMem := { msk := 0, as := as, hn := 0, o := 0, imm := 0 }
def own (n : BitVec 12) : FlagRef := { fk := 0, fn := n, prow := 0, pcol := 0 }
def ec (e : Fin 4) : ECmd :=
  { idle := 0, long := false, eng := e, st := 0, produce := none, c0 := none, c1 := none, c2 := none, ui := false }
def cp (pair : BitVec 3) : Copy := { do_ := 0, dh := 0, so := 0, sh := 0, pair := pair, fe := false, ln := 0 }
def co (red fmt : BitVec 2) : Coll :=
  { red := red, fmt := fmt, dg := false, dh := 0, gr := 0, so := 0, ln := 0, do_ := 0, nf := 0, col := 0, row := 0 }

/-- A well-formed instruction of each queue. -/
theorem test_wf_good : (Instr.add (short 0) 1 2 (.imm 3)).WellFormed ∧ (Instr.vadd (short 0) vx 1 2 3).WellFormed ∧
    (Instr.xrcp (short 0) vx 1 2).WellFormed ∧ (Instr.mmac (short 0) 0 1 2 0 3).WellFormed ∧
    (Instr.vld (long 0) (lm 2) 0 false).WellFormed ∧ (Instr.esync (ec 3)).WellFormed := by decide +kernel

/-- R113 to R116: a form that does not exist, extension fields a short form cannot hold, a qualifier where none may be,
and a slot without one. -/
theorem test_wf_header : ¬(Instr.bfx (short 0) 1 2 0 8).WellFormed ∧ ¬(Instr.qopen (long 0) 1 2).WellFormed ∧
    ¬(Instr.add (short 0) 1 2 (.imm 128)).WellFormed ∧ ¬(Instr.add { long 0 with qs := 3 } 1 2 (.imm 3)).WellFormed ∧
    ¬(Instr.add { long 0 with qp := true } 1 2 (.imm 3)).WellFormed ∧
    ¬(Instr.qopenf { long 0 with gq := true } 1 2 0 5).WellFormed := by decide +kernel

/-- R130, R132, R133, R238, R242 to R244, R167, R170: limits of C. -/
theorem test_wf_c : ¬(Instr.sext (long 0) 1 2 65).WellFormed ∧ ¬(Instr.zext (long 0) 1 2 0).WellFormed ∧
    ¬(Instr.bfx (long 0) 1 2 60 5).WellFormed ∧ ¬(Instr.bfi (long 0) 1 2 0 0).WellFormed ∧
    ¬(Instr.cmp (long 0) 1 2 3 6).WellFormed ∧ ¬(Instr.fpost (long 0) (own 1024) 0 (.reg 0)).WellFormed ∧
    ¬(Instr.fpost (long 0) { own 1 with fk := 1 } 0 (.reg 0)).WellFormed ∧
    ¬(Instr.fset (long 0) { own 1 with fk := 2 } 1 (.reg 0)).WellFormed ∧
    ¬(Instr.fread (long 0) { own 1 with prow := 1 } 2).WellFormed ∧ ¬(Instr.farm (long 0) (own 1) 1 (.reg 0)).WellFormed ∧
    ¬(Instr.barj (short 0) 3 1).WellFormed ∧ ¬(Instr.barw (short 0) 3 1).WellFormed ∧ ¬(Instr.align (short 0) 41).WellFormed ∧
    ¬(Instr.idleColumn (long 0) 5 0).WellFormed ∧ ¬(Instr.qopenf (long 0) 1 2 2 5).WellFormed ∧
    ¬(Instr.qpick (long 0) false 1 2 3).WellFormed ∧ ¬(Instr.qstat (short 0) true 40 2).WellFormed ∧
    ¬(Instr.pcsel (short 0) 512).WellFormed ∧ ¬(Instr.lidx (short 0) 1 0 3 0).WellFormed ∧
    ¬(Instr.lgat (short 0) 0 2 2).WellFormed ∧ ¬(Instr.lpool (short 0) 3).WellFormed ∧
    ¬(Instr.lscat (short 0) 0 3 0).WellFormed := by decide +kernel

/-- R120, R121, R174 to R189: limits of V and X. -/
theorem test_wf_v : ¬(Instr.vadd (long 0) { vx with f := 3 } 1 2 3).WellFormed ∧
    ¬(Instr.vrnd (long 0) { vx with sat := true } 1 2).WellFormed ∧ ¬(Instr.vmin (long 0) { vx with rnd := 0 } 1 2 3).WellFormed ∧
    ¬(Instr.vcmp (long 0) vx 0 2 3 0).WellFormed ∧ ¬(Instr.viadd (long 0) { ix with f := 0 } 1 2 3).WellFormed ∧
    ¬(Instr.viand (long 0) { ix with sat := true } 1 2 3).WellFormed ∧ ¬(Instr.vicmp (long 0) ix 1 2 3 6).WellFormed ∧
    ¬(Instr.vcvt (long 0) vx 1 2 (cv 0 0 0 0)).WellFormed ∧ ¬(Instr.vcvts (long 0) vx 1 2 3 (cv 0 0 0 3)).WellFormed ∧
    ¬(Instr.vpack (long 0) vx 1 2 3 (cv 5 0 0 0)).WellFormed ∧ ¬(Instr.vunpk (long 0) { vx with f := 1 } 1 2 2 (cv 0 0 0 0)).WellFormed ∧
    ¬(Instr.vmov (long 0) ix 1 2).WellFormed ∧ ¬(Instr.vcrot (long 0) vx 1 2 (.imm 16)).WellFormed ∧
    ¬(Instr.vext (long 0) { vx with msk := 1 } 1 2 0 0).WellFormed ∧ ¬(Instr.vrred (long 0) { vx with f := 1 } (.s 1) 2 0).WellFormed ∧
    ¬(Instr.vcred (long 0) vx 1 2 5).WellFormed ∧ ¬(Instr.kand (short 0) vx 0 2 3).WellFormed ∧
    ¬(Instr.kpop (long 0) { vx with msk := 1 } 1 2).WellFormed ∧ ¬(Instr.rtcnt (long 0) vx 1).WellFormed ∧
    ¬(Instr.vrope (long 0) { vx with f := 1 } 1 2 3 4).WellFormed ∧ ¬(Instr.xexp2 (long 0) { vx with rnd := 4 } 1 2).WellFormed ∧
    ¬(Instr.xrng (long 0) { vx with rnd := 0 } 1).WellFormed := by decide +kernel

/-- R122, R123, R203 to R236: limits of M and L. -/
theorem test_wf_ml : ¬(Instr.mmac (short 0) 0 1 2 13 3).WellFormed ∧ ¬(Instr.mmode (short 0) 0 false 4).WellFormed ∧
    ¬(Instr.sget (short 0) 0 1 14 2).WellFormed ∧ ¬(Instr.sld (long 0) (lm 1) 2 false).WellFormed ∧
    ¬(Instr.sld (long 0) (lm 2) 3 true).WellFormed ∧ ¬(Instr.sst (long 0) { lm 2 with msk := 1 } 1 2).WellFormed ∧
    ¬(Instr.vld (long 0) (lm 2) 2 false).WellFormed ∧ ¬(Instr.vst (long 0) (lm 1) 1 0).WellFormed ∧
    ¬(Instr.pf (long 0) (lm 2)).WellFormed ∧ ¬(Instr.pin (long 0) (lm 2) 1).WellFormed ∧
    ¬(Instr.tfill (long 0) (lm 3) 1 0).WellFormed ∧ ¬(Instr.atom (long 0) 1 2 3 9 4 0 0).WellFormed ∧
    ¬(Instr.cas (long 0) 1 2 3 4 5 2 0).WellFormed ∧ ¬(Instr.rst (long 0) 1 2 0 0 false 5).WellFormed ∧
    ¬(Instr.vldx (long 0) { lm 2 with o := 32 } 0 false).WellFormed := by decide +kernel

/-- R124, R125: token and engine rules, and words 2 and 3 of a 64-bit command. -/
theorem test_wf_token : ¬(Instr.cpy (ec 1) (cp 0)).WellFormed ∧ ¬(Instr.rtsnap (ec 0) 1 2).WellFormed ∧
    ¬(Instr.esync { ec 0 with produce := some { dev := false, n := 1024 } }).WellFormed ∧
    ¬(Instr.esync { ec 0 with long := true, c1 := some { dev := false, n := 1 } }).WellFormed ∧
    ¬(Instr.esync { ec 0 with c0 := some { dev := false, n := 1 } }).WellFormed := by
  refine ⟨?_, ?_, ?_, ?_, ?_⟩ <;> decide

/-- R254: limits of the copy family. -/
theorem test_wf_copy : ¬(Instr.cpy (ec 1) (cp 5)).WellFormed ∧ ¬(Instr.cpyc (ec 0) { cp 0 with fe := true } 1 2 3).WellFormed ∧
    ¬(Instr.cfill (ec 0) { cp 0 with sh := 1 }).WellFormed ∧ ¬(Instr.tfetch (ec 0) (cp 0) 1 2).WellFormed := ⟨by decide, by decide, by decide, by decide⟩

/-- R258, R262, R263: limits of the other engine commands. -/
theorem test_wf_coll : ¬(Instr.collAllReduce { ec 2 with long := true } (co 3 0)).WellFormed ∧
    ¬(Instr.collAllGather { ec 2 with long := true } (co 1 0)).WellFormed ∧ ¬(Instr.hcomp (ec 2) 1).WellFormed ∧
    ¬(Instr.lkick (ec 1) 1 2 3).WellFormed := ⟨by decide, by decide, by decide, by decide⟩

/-- R255, R261: a destination operand that the Harvest form does not name. -/
theorem test_wf_harvest : ¬(Instr.hvstKeep { ec 3 with long := true } 1 2 false 3 4).WellFormed := by decide +kernel

/-! ## Words written out in the manual -/

/-- The words of Obligations.DecodeWords, one family each: C (chapter 05). -/
theorem test_decode_c : decodeLane .c [0x001881E4] = .ok (.add (short 0) 4 3 (.imm 100)) ∧
    decodeLane .c [0x0288BFFD] = .ok (.br (short 0) true 5 (-3)) := by decide +kernel

/-- Guards (chapter 06). -/
theorem test_decode_guard : decodeLane .c [0x04A24800] = .ok (.qres (short 0) 1 9) := by decide +kernel

/-- V (chapter 22): `viadd v5, v4, v1`. -/
theorem test_decode_v : decodeLane .v [0x01829020] = .ok (.viadd (short 0) ix 5 4 1) := by decide +kernel

/-- X (chapter 23): `xexp2 v6, v5`. -/
theorem test_decode_x : decodeLane .x [0x00131400] = .ok (.xexp2 (short 0) vx 6 5) := by decide +kernel

/-- M (chapter 08): `mmac a1, a2, cb:0, 2`. -/
theorem test_decode_m : decodeLane .m [0x00112040] = .ok (.mmac (short 0) 0 1 2 0 1) := by decide +kernel

/-- L (chapter 09): `sst.i32 s2, ab:buf`. -/
theorem test_decode_l : decodeLane .l [0x08408002, 0x00200000] =
    .ok (.sst (long 0) { msk := 0, as := 2, hn := 0, o := 0, imm := 0 } 2 2) := by decide +kernel

/-- E (chapter 25): `rtsnap h1+s0 on collective consume 3 produce 4`. -/
theorem test_decode_e : decodeLane .e [0x08D80001, 0x80100000, 0x800C0000, 0] =
    .ok (.rtsnap { ec 2 with long := true, produce := some { dev := false, n := 4 }, c0 := some { dev := false, n := 3 } } 1 0) := by decide +kernel

/-- An unassigned opcode, a nonzero zero field, and a lane without its extension word are rejected (R113, R116). -/
theorem test_decode_rejects : decodeLane .c [0x07F00000] = .error .unassigned ∧ decodeLane .c [0x00000001] = .error .zeroField ∧
    decodeLane .c [0x081881E4] = .error .continuation := by decide +kernel

/-- The table's numbering: the first word of `add s4, s3, 100` as a table word. -/
theorem test_table_word : decodeTableWord 32 0x001881E4 = some (.add (short 0) 4 3 (.imm 100)) := by decide +kernel

/-- R200 rule lines: `nop` in the form of the table runs as the first instruction. -/
theorem test_line : (lineIns [0x00000011, 0x001881E4, 0, 0, 0, 0, 0, 0]).map LaneIns.lane = [1] ∧
    lineBad [0x00000011, 0x001881E4, 0, 0, 0, 0, 0, 0] = false ∧ lineBad [0x00000071, 0, 0, 0, 0, 0, 0, 0] = true := by decide +kernel

/-! ## States for the witnesses -/

/-- A lane of a queue, the first of its line. -/
def lnOf (q : Queue) (i : Instr) : QLane :=
  { q := q, ins := some i, bad := none, addr := 132, pres := 0, stack := [], rcd := none, inst := 0, faddr := 128, idle := 0, out := false }

/-- A running member whose only fetched lane is an instruction. -/
def memOn (ln : QLane) : Member :=
  { Member.free with ctl := { Member.free.ctl with
      life := .running, fetch := { Fetch.none with pc := 160, lanes := [ln], line := some 128, stop := true, count := 1 } } }

/-- The state in which that lane of member 0 is at issue. -/
def onLane (ln : QLane) (f : Member → Member := id) : State :=
  { State.reset with members := [(0, f (memOn ln))], slotTable := [(0, { Bind.reset with launch := 1, state := 2 })]
                     phase := .issue, cur := .lane 0 ln.q 132 }

/-- The same for an instruction with nothing else to its lane. -/
def onMem (q : Queue) (i : Instr) (f : Member → Member := id) : State := onLane (lnOf q i) f

/-- The lane at issue there. -/
def laneM (q : Queue) (i : Instr) : Lane := { who := .mem 0, q := q, ln := lnOf q i }

/-- s registers of a member. -/
def withS (l : List (Nat × SCell)) (m : Member) : Member := { m with regs := { m.regs with s := l } }

/-- A register that holds one value. -/
def one (v : Word) : SCell := { alts := plain v, pend := none }

/-- A lookup core with an instruction at issue. -/
def onLookup (i : Instr) (f : Lookup → Lookup := id) : State :=
  { State.reset with lookups := [(0, f { Lookup.idle with run := true, site := 0, launch := 1, fetch := { Fetch.none with lanes := [lnOf .c i] } })]
                     members := [(0, memOn (lnOf .c i))], slotTable := [(0, { Bind.reset with launch := 1, state := 2 })]
                     phase := .issue, cur := .lookup 0 132 }

/-- The lane at issue there. -/
def laneK (i : Instr) : Lane := { who := .lk 0, q := .c, ln := lnOf .c i }

/-- A member whose handler has an instruction at issue. -/
def onHandler (i : Instr) (f : Member → Member := id) : State :=
  { State.reset with members := [(0, f { memOn (lnOf .c i) with ui := { Member.free.ui with
                       active := true, fetch := { Fetch.none with lanes := [lnOf .c i] } } })]
                     slotTable := [(0, { Bind.reset with launch := 1, state := 2 })], phase := .issue, cur := .handler 0 132 }

/-- The lane at issue there. -/
def laneH (i : Instr) : Lane := { who := .hnd 0, q := .c, ln := lnOf .c i }

/-- A destination of a member with frames to spare. -/
theorem fits {s : State} {l : Lane} {d : SReg} {n : Nat} (h : l.who = .mem n) (k : (mem s n).fly.sw = []) : Fits s l d .always := by
  unfold Fits
  rw [h]
  intro v lat
  show sBreadth (mem s n) _ ≤ 4
  simp [sBreadth, sent, k, beatsS, sortBy, insertBy, breadthOf, landAlts, resolveAll, actLit, plain]

/-! ## Witnesses: hypotheses of the statements hold somewhere -/

/-- Obligations.ScalarBinary: two operands. -/
theorem witness_ScalarBinary : let i : Instr := .add (short 0) 1 2 (.imm 7)
    let s := onMem .c i (withS [(2, one 40)])
    Acts s (laneM .c i) (short 0) .always ∧ Reads s (.mem 0) [1] [opA (short 0) 2, opB (.imm 7)] [40, 7] s ∧
    Fits s (laneM .c i) 1 .always :=
  ⟨⟨rfl, rfl, by decide⟩, ⟨rfl, _, rfl, rfl⟩, fits rfl rfl⟩

/-- Obligations.ScalarOther, a clause each: one source, the destination as a source, two and three sources, none. -/
theorem witness_ScalarOther : let i : Instr := .sel (long 0) 1 2 3 4
    let s := onMem .c i (withS [(1, one 9), (2, one 40), (3, one 5), (4, one 1)])
    Acts s (laneM .c i) (long 0) .always ∧ Reads s (.mem 0) [1] [opA (long 0) 2] [40] s ∧
    Reads s (.mem 0) [1] [.r 1, opA (long 0) 2] [9, 40] s ∧ Reads s (.mem 0) [1] [opA (long 0) 2, .r 3] [40, 5] s ∧
    Reads s (.mem 0) [1] [opA (long 0) 2, .r 3, .r 4] [40, 5, 1] s ∧ Reads s (.mem 0) [1] [.r 1] [9] s ∧
    needLanded s (.mem 0) [1] = .ok () ∧ Fits s (laneM .c i) 1 .always ∧ (0x22, 64) ∈ specials s (laneM .c i) ∧
    (∀ v, (0x07, v) ∉ specials s (laneM .c i)) ∧ (0x08, nat64 s.cal) ∈ specials s (laneK i) :=
  ⟨⟨rfl, rfl, by decide⟩, ⟨rfl, _, rfl, rfl⟩, ⟨rfl, _, rfl, rfl⟩, ⟨rfl, _, rfl, rfl⟩, ⟨rfl, _, rfl, rfl⟩, ⟨rfl, _, rfl, rfl⟩,
   rfl, fits rfl rfl, by simp [specials, laneM], by simp [specials, laneM], by simp [specials, laneK]⟩

/-- The same statement at a divisor of zero and at an amount of 64. -/
theorem witness_ScalarDivide : let i : Instr := .div (short 0) 1 2 (.reg 3)
    let s := onMem .c i (withS [(2, one 40), (4, one 64)])
    Acts s (laneM .c i) (short 0) .always ∧ Reads s (.mem 0) [1] [opA (short 0) 2, opB (.reg 3)] [40, 0] s ∧
    Reads s (.mem 0) [1] [opA (short 0) 2, opB (.reg 4)] [40, 64] s ∧ Reads s (.mem 0) [1] [opA (short 0) 2] [40] s ∧
    Fits s (laneM .c i) 1 .always :=
  ⟨⟨rfl, rfl, by decide⟩, ⟨rfl, _, rfl, rfl⟩, ⟨rfl, _, rfl, rfl⟩, ⟨rfl, _, rfl, rfl⟩, fits rfl rfl⟩

/-- A slot that is open on a device flag. -/
def openQ (m : Member) : Member := { m with grd := { m.grd with slots := [(1, { src := some (.flag true 7 1), kept := false, due := none })] } }

/-- Obligations.ScalarUnderGuards: a qualifier that is false, and sources of two alternatives each. -/
theorem witness_ScalarUnderGuards : let h : Hd := { long 0 with gq := true, qs := 1 }
    let i : Instr := .add h 1 2 (.reg 3)
    let two : SCell := { alts := [(4, .val 1), (8, .val 2)], pend := none }
    let s := onMem .c i
    let u := onMem .c (.add (long 0) 1 2 (.reg 3)) fun m => openQ (withS [(2, two), (3, two)] m)
    (curLane s = some (laneM .c i) ∧ qualAct s (.mem 0) h = .ok .never ∧
      needLanded s (.mem 0) (1 :: opdRegs [opA h 2, opB (.reg 3)]) = .ok () ∧ (takePop s (.mem 0) [opA h 2, opB (.reg 3)]).isOk = true) ∧
    (Acts u (laneM .c (.add (long 0) 1 2 (.reg 3))) (long 0) .always ∧
      readOpds u (.mem 0) [] [opA (long 0) 2, opB (.reg 3)] = .ok [two.alts, two.alts] ∧
      (∀ x ∈ two.alts, compatible 0 x.1 = true) ∧
      (writeS u (laneM .c (.add (long 0) 1 2 (.reg 3))) 1 [(4, .val 2), (8, .val 4)] 1 none).isOk = true) :=
  ⟨⟨rfl, rfl, rfl, by decide +kernel⟩, ⟨rfl, rfl, by decide⟩, by decide +kernel, by decide +kernel, by decide +kernel⟩

/-- Obligations.VectorMovesAndCounts: a `mov` that binds. -/
theorem witness_MovBinds : let h : Hd := { long 0 with qp := true }
    let i : Instr := .mov h 4 0
    let s := onMem .c i
    curLane s = some (laneM .c i) ∧ h.qp = true ∧ memAct (mem s 0) h = .always ∧ (mem s 0).l.ldqC = [] ∧
    (sCell (mem s 0) 4).pend = none ∧ (mem s 0).l.bindC.length < 16 :=
  ⟨rfl, rfl, rfl, rfl, rfl, by decide +kernel⟩

/-- An image of 64 lines of TEXT at address 0, as a placed program has it. -/
def imaged (s : State) : State :=
  { s with dmem := setBytes s.dmem 0 (leBytes 8 0 ++ leBytes 2 0 ++ leBytes 2 1 ++ leBytes 4 128 ++ List.replicate 48 0 ++
      leBytes 4 1 ++ leBytes 4 128 ++ leBytes 4 2048 ++ leBytes 4 0) }

/-- Obligations.Transfers and TransfersNotTakenOrTrapping: an offset to the line itself, a register target in TEXT at
its first and below its last byte, and one outside it and one misaligned. -/
theorem witness_Transfers : let i : Instr := .br (short 0) true 2 0
    let s := imaged (onMem .c i (withS [(3, one 128), (4, one 2144), (5, one 2176), (6, one 130)]))
    let l := laneM .c i
    Decided s l (short 0) [2] true ∧ readOne s l.who 2 = .ok 0 ∧ inExtent l.ln (offTarget l.ln 0) = true ∧
    textOf s (imgOf s l.who) = (128, 2176) ∧ Decided s l (short 0) [3] true ∧ readOne s l.who 3 = .ok 128 ∧
    inExtent l.ln 128 = true ∧ Decided s l (short 0) [4] true ∧ readOne s l.who 4 = .ok 2144 ∧
    Decided s l (short 0) [] true ∧ needLanded s l.who [1] = .ok () ∧ Fits s l 1 .always ∧
    Decided s l (short 0) [5] true ∧ readOne s l.who 5 = .ok 2176 ∧ Decided s l (short 0) [6] true ∧ readOne s l.who 6 = .ok 130 :=
  ⟨⟨rfl, rfl⟩, rfl, rfl, by decide +kernel, ⟨rfl, rfl⟩, rfl, rfl, ⟨rfl, rfl⟩, rfl, ⟨rfl, rfl⟩, rfl, fits rfl rfl,
   ⟨rfl, rfl⟩, rfl, ⟨rfl, rfl⟩, rfl⟩

/-- The same statements' clauses of a qualifier that is false. -/
theorem witness_TransfersNotTaken : let h : Hd := { long 0 with gq := true, qs := 1 }
    let i : Instr := .br h true 2 0
    let s := onMem .c i
    Decided s (laneM .c i) h [2] false ∧ Decided s (laneM .c i) h [] false ∧ needLanded s (.mem 0) [2] = .ok () :=
  ⟨⟨rfl, rfl⟩, ⟨rfl, rfl⟩, rfl⟩

/-- An image at address 0 with 16 lines of TEXT at 128, the loop levels 0 (temporal), 1 (cores) and 2 (dies) at 640,
and at 704 the record 5 of level 3 (temporal), 2 iterations, 1 stage, its extents inside TEXT. -/
def looped (s : State) : State :=
  { s with dmem := setBytes s.dmem 0 (leBytes 10 0 ++ leBytes 2 3 ++ leBytes 52 0 ++
      leBytes 4 1 ++ leBytes 4 128 ++ leBytes 8 512 ++ leBytes 4 3 ++ leBytes 4 640 ++ leBytes 8 32 ++
      leBytes 4 4 ++ leBytes 4 704 ++ leBytes 8 64 ++ leBytes 16 0 ++ leBytes 512 0 ++
      leBytes 8 0 ++ leBytes 8 0x101 ++ leBytes 8 0x202 ++ leBytes 8 3 ++ leBytes 32 0 ++
      leBytes 2 5 ++ leBytes 1 1 ++ leBytes 1 0 ++ leBytes 4 2 ++ leBytes 40 0 ++ leBytes 2 3 ++ leBytes 14 0) }

/-- Obligations.Loops: trip counts of zero and of 3 from a register and an immediate, for each kind of level. -/
theorem witness_Loops : let i : Instr := .loop (long 0) 0 (.reg 2) 4
    let s := looped (onMem .c i (withS [(2, one 3)]))
    let l := laneM .c i
    Decided s l (long 0) (tripRegs (.reg 2)) true ∧ tripOf s l.who (.reg 2) = .ok 3 ∧ Decided s l (long 0) [] true ∧
    tripOf s l.who (.imm 0) = .ok 0 ∧ bodyInside l.ln 5 = true ∧ inExtent l.ln (lineOf l.ln + 32 * 6) = true ∧
    levelRules s l 0 0 = true ∧ levelRules s l 1 1 = true ∧ levelRules s l 2 2 = true ∧
    spread s (whoSite s l.who) 1 (kindActive l.ln 2) 3 = (3, 0, 1) ∧ spread s (whoSite s l.who) 2 (kindActive l.ln 2) 3 = (3, 0, 1) ∧
    gangOf s 0 = [0] ∧ rankIn 0 (gangOf s 0) = 0 :=
  ⟨⟨rfl, rfl⟩, rfl, ⟨rfl, rfl⟩, rfl, rfl, rfl, by decide +kernel, by decide +kernel, by decide +kernel, by decide +kernel,
   by decide +kernel, by decide +kernel, by decide +kernel⟩

/-- Obligations.Loops: a row-pointer stream whose row holds 2 entries. -/
theorem witness_loopn : let i : Instr := .loopn (long 0) 0 1 4
    let s := looped (onMem .c i fun m => { m with regs := { m.regs with a := [(1, BitVec.ofNat 256 (2 * 2 ^ 58))] }
                                                  buf := { m.buf with ab := setNum (setNum [] 0 4 5) 4 4 7 } })
    Decided s (laneM .c i) (long 0) [] true ∧ (rowTrip (mem s 0) 1).map Prod.fst = .ok 2 ∧ levelRules s (laneM .c i) 0 0 = true :=
  ⟨⟨rfl, rfl⟩, by decide +kernel, by decide +kernel⟩

/-- A level whose body is the lines 128 to 192. -/
def level : Level := { lc := 2, kind := 0, first := 128, last := 192, iter := 0, left := some 1, stride := 1, inner := false }

/-- A record in its kernel iteration 1 of 2. -/
def rec1 : RecRun :=
  let r := recordRun State.reset 0 0 2 200 0 0
  { r with phase := .ker, j := 1, stages := 2, n := 2, longest := 100 }

/-- A lane of a member in a running record. -/
def inRec (r : RecRun) (i : Instr) : QLane := { lnOf .c i with rcd := some r }

/-- The lane at issue there. -/
def laneR (r : RecRun) (i : Instr) : Lane := { who := .mem 0, q := .c, ln := inRec r i }

/-- Obligations.TransfersNotTakenOrTrapping: targets outside the extent of the running record's phase. -/
theorem witness_TransfersOut : let i : Instr := .br (short 0) true 2 0
    let s := imaged (onLane (inRec rec1 i) (withS [(3, one 128)]))
    let l := laneR rec1 i
    Decided s l (short 0) [2] true ∧ readOne s l.who 2 = .ok 0 ∧ inExtent l.ln (offTarget l.ln 0) = false ∧
    Decided s l (short 0) [3] true ∧ readOne s l.who 3 = .ok 128 ∧ inExtent l.ln 128 = false ∧ Decided s l (short 0) [] true ∧
    needLanded s l.who [1] = .ok () ∧ Fits s l 1 .always :=
  ⟨⟨rfl, rfl⟩, rfl, by decide +kernel, ⟨rfl, rfl⟩, rfl, by decide +kernel, ⟨rfl, rfl⟩, rfl, fits rfl rfl⟩

/-- Obligations.LoopBreak: an active level of a hardware loop, its register zero and not; the running record's level 0;
an inactive level; a false qualifier; a handler; and `stg` in a SAVE and in a RESTORE block. -/
theorem witness_LoopBreak : let i : Instr := .lbrk (short 0) 2 3
    let ln := { lnOf .c i with stack := [level] }
    let s := onLane ln (withS [(3, one 1)])
    let l : Lane := { who := .mem 0, q := .c, ln := ln }
    let g : Hd := { long 0 with gq := true, qs := 1 }
    let j : Instr := .stg (short 0) 2 1
    let v : RecRun := { rec1 with phase := .save }
    let w : RecRun := { rec1 with phase := .restore }
    ((∀ n, l.who ≠ .hnd n) ∧ Decided s l (short 0) [3] true ∧ readOne s l.who 3 = .ok 1 ∧ Decided s l (short 0) [4] true ∧
      readOne s l.who 4 = .ok 0 ∧ l.ln.stack.find? (fun y => y.lc == 2) = some level ∧ inExtent l.ln (level.last + 32) = true ∧
      levelActive l.ln 2 = true ∧ levelActive l.ln 5 = false) ∧
    (Decided (onLane (inRec rec1 i) (withS [(3, one 1)])) (laneR rec1 i) (short 0) [3] true ∧
      levelActive (inRec rec1 i) 0 = true ∧ (inRec rec1 i).stack.find? (fun y => y.lc == 0) = none) ∧
    (let ln := { inRec rec1 i with stack := [level] }
     let s := onLane ln (withS [(3, one 1)])
     Decided s { who := .mem 0, q := .c, ln := ln } (short 0) [3] true ∧ readOne s (.mem 0) 3 = .ok 1 ∧
      ln.stack.find? (fun y => y.lc == 2) = some level ∧ levelActive ln 2 = true ∧ inExtent ln (level.last + 32) = false) ∧
    (Decided s l g [3] false ∧ curLane (onHandler i) = some (laneH i)) ∧
    (laneRcd (onLane (inRec v j)) (laneR v j) = some v ∧ Acts (onLane (inRec v j)) (laneR v j) (short 0) .always ∧
      needLanded (onLane (inRec v j)) (.mem 0) [2] = .ok () ∧ Fits (onLane (inRec v j)) (laneR v j) 2 .always) ∧
    (laneRcd (onLane (inRec w j)) (laneR w j) = some w ∧ Acts (onLane (inRec w j)) (laneR w j) (short 0) .always) :=
  ⟨⟨nofun, ⟨rfl, rfl⟩, rfl, ⟨rfl, rfl⟩, rfl, rfl, rfl, rfl, rfl⟩, ⟨⟨rfl, rfl⟩, rfl, rfl⟩,
   ⟨⟨rfl, rfl⟩, rfl, rfl, rfl, by decide +kernel⟩, ⟨⟨rfl, rfl⟩, rfl⟩,
   ⟨rfl, ⟨rfl, rfl, by decide⟩, rfl, fits rfl rfl⟩, ⟨rfl, ⟨rfl, rfl, by decide⟩⟩⟩

/-- Obligations.StagePredicates: in a running record, in a handler entered while it runs, and outside one. -/
theorem witness_StagePredicates : let i : Instr := .stg (short 0) 2 1
    let s := onLane (inRec rec1 i)
    let l := laneR rec1 i
    let h := onHandler i fun m => { m with ctl := { m.ctl with fetch := { m.ctl.fetch with steps := [rec1] } } }
    (laneRcd s l = some rec1 ∧ rec1.phase ≠ .save ∧ rec1.phase ≠ .restore ∧ Acts s l (short 0) .always ∧
      needLanded s l.who [2] = .ok () ∧ Fits s l 2 .always) ∧
    (laneRcd h (laneH i) = some rec1 ∧ Acts h (laneH i) (short 0) .always ∧ needLanded h (laneH i).who [2] = .ok () ∧
      Fits h (laneH i) 2 .always) ∧
    (curLane (onMem .c i) = some (laneM .c i) ∧ laneRcd (onMem .c i) (laneM .c i) = none) :=
  ⟨⟨rfl, by decide, by decide, ⟨rfl, rfl, by decide⟩, rfl, fits rfl rfl⟩,
   ⟨rfl, ⟨rfl, rfl, by decide⟩, rfl, fun _ => by decide +kernel⟩, ⟨rfl, rfl⟩⟩

/-- Obligations.RecordStarts: record 5 with two iterations. -/
theorem witness_RecordStarts : let i : Instr := .lrec (short 0) 5
    let s := looped (onMem .c i)
    let l := laneM .c i
    recordAt s (imgOf s l.who) 5 = some 704 ∧ Decided s l (short 0) (recordTrip s 704) true ∧ l.ln.rcd = none ∧
    numAt s.dmem (704 + 48) 2 = 3 ∧ levelRules s l 3 ((levelKind s (imgOf s l.who) 3).getD 3) = true ∧
    (readTrip' s 0 704 l.who).map Prod.fst = .ok 2 ∧ stageOf s 0 5 = none ∧
    (spread s 0 ((levelKind s (imgOf s l.who) 3).getD 3) (kindActive l.ln 2) 2).1 ≠ 0 :=
  ⟨by decide +kernel, ⟨rfl, by decide +kernel⟩, rfl, by decide +kernel, by decide +kernel, by decide +kernel, rfl, by decide +kernel⟩

/-- Obligations.Timing, for a member, for a handler and for a lookup core. -/
theorem witness_Timing : let i : Instr := .nop (short 0)
    curLane (onMem .c i) = some (laneM .c i) ∧ inert (onMem .c i) (.mem 0) (short 0) = .ok () ∧
    curLane (onHandler i) = some (laneH i) ∧ inert (onHandler i) (.hnd 0) (short 0) = .ok () ∧
    curLane (onLookup i) = some (laneK i) ∧ inert (onLookup i) (.lk 0) (short 0) = .ok () := ⟨rfl, rfl, rfl, rfl, rfl, rfl⟩

/-- Obligations.FlagUpdatesOfLookup: an update that sets out; and updates at a device flag that 5 may still be added to and
6 not, and at one that 5 may be taken from and 6 not. -/
theorem witness_FlagUpdatesOfLookup : let i : Instr := .fpost (short 0) { own 3 with fk := 1 } 1 (.reg 2)
    let s := { onLookup i (fun c => { c with s := [(2, 5)] }) with dflags := [(3, 0xfffffffa), (4, 5)] }
    curLane s = some (laneK i) ∧ needLanded s (.lk 0) (valRegs (.reg 2)) = .ok () ∧ readRegs s (.lk 0) (valRegs (.reg 2)) = .ok [plain 5] ∧
    (let p (v : Word32) (k : Nat) : LkPost := { ins := i, key := .dev k, val := v, clk := [] }
     let u (v : Word32) (k : Nat) : State := { onLookup i (fun c => { c with posts := [p v k] }) with dflags := [(3, 0xfffffffa), (4, 5)] }
     (∀ v k, (lookupCore (u v k) 0).posts = p v k :: [] ∧ (u v k).outs = [] ∧ (lookupCore (u v k) 0).ended = none) ∧
     (flagVal (u 5 3) (.dev 3)).toNat + 5 < 2 ^ 32 ∧ 2 ^ 32 ≤ (flagVal (u 6 3) (.dev 3)).toNat + 6 ∧
     5 ≤ (flagVal (u 5 4) (.dev 4)).toNat ∧ (flagVal (u 6 4) (.dev 4)).toNat < 6) :=
  ⟨rfl, rfl, rfl, fun _ _ => ⟨rfl, rfl, rfl⟩, by decide +kernel, by decide +kernel, by decide +kernel, by decide +kernel⟩

/-- Obligations.FlagAndBarrierWaits: satisfied and not, acting and not. -/
theorem witness_FlagAndBarrierWaits : let h : Hd := { long 0 with gq := true, qs := 1 }
    let i : Instr := .fwait (long 0) (own 3) 0 (.reg 2)
    let s := onMem .c i fun m => { withS [(2, one 5)] m with buf := { m.buf with flags := [(3, 5), (4, 4)] } }
    let b : Instr := .barw (short 0) 6 2
    let u := { onMem .c b (withS [(2, one 5)]) with dflags := [(7, 5), (9, 6)] }
    Decided (onMem .c (.fwait h (own 3) 0 (.reg 2))) (laneM .c (.fwait h (own 3) 0 (.reg 2))) h (valRegs (.reg 2)) false ∧
    Decided s (laneM .c i) (long 0) (valRegs (.reg 2)) true ∧ readRegs s (.mem 0) (valRegs (.reg 2)) = .ok [plain 5] ∧
    flagReach s 0 (flagKey 0 (own 3)) = true ∧ 5 ≤ (flagVal s (flagKey 0 (own 3))).toNat ∧
    (flagVal s (flagKey 0 (own 4))).toNat < 5 ∧ waitMet s (.mem 0) = none ∧
    Decided u (laneM .c b) (short 0) [2] true ∧ readOne u (.mem 0) 2 = .ok 5 ∧ (mem u 0).ctl.met = none ∧
    (flagVal u (.dev 7)).toNat % 2 ^ 30 = 5 ∧ (flagVal u (.dev 7)).toNat / 2 ^ 30 = 0 ∧ (flagVal u (.dev 9)).toNat % 2 ^ 30 ≠ 5 :=
  ⟨⟨rfl, rfl⟩, ⟨rfl, rfl⟩, rfl, by decide +kernel, by decide +kernel, by decide +kernel, rfl, ⟨rfl, rfl⟩, rfl, rfl, by decide +kernel,
   by decide +kernel, by decide +kernel⟩

/-- Obligations.FlagInstructions: captured updates, `barj`, an `fread` of a device flag, `farm`. -/
theorem witness_FlagInstructions : let i : Instr := .fpost (long 0) (own 3) 0 (.reg 2)
    let s := onMem .c i (withS [(2, one 5)])
    let l := laneM .c i
    (mem s 0).l.lq.length < 32 ∧ (mem s 0).l.sq.length < 32 ∧ HeldNow s l (long 0) [] (valRegs (.reg 2)) [5] ∧
    HeldNow s l (long 0) [4] [] [] ∧ Acts s l (long 0) .always ∧ needLanded s l.who [4] = .ok () ∧
    flagReach s (whoSite s l.who) (flagKey (whoSite s l.who) { own 3 with fk := 1 }) = true ∧
    LateFits s l 4 .always :=
  ⟨by decide +kernel, by decide +kernel, ⟨rfl, rfl, rfl, rfl, rfl⟩, ⟨rfl, rfl, rfl, rfl, rfl⟩, ⟨rfl, rfl, by decide⟩, rfl,
   by decide +kernel, show lateBreadth _ 4 (plain 0) none ≤ 4 by decide +kernel⟩

/-- Obligations.AlternativesPartition: a plain value, and one alternative for each outcome of slot 1. -/
theorem witness_AlternativesPartition : Partition (plain (5 : Word)) ∧ Partition ([(4, .val 1), (8, .val 2)] : Alts Word) ∧
    (∀ x ∈ plain (5 : Word), litAt x.1 1 = 0) ∧ under (fun _ => true) ([(4, .val 1), (8, .val 2)] : Alts Word) = [.val 1] :=
  ⟨⟨by decide +kernel, by decide +kernel⟩, ⟨by decide +kernel, by decide +kernel⟩, by decide +kernel, by decide +kernel⟩

/-- Obligations.GuardInstructions: a free slot, an open one, one that the program resolves, and alternatives to pick. -/
theorem witness_GuardInstructions : let i : Instr := .qopen (short 0) 1 2
    let s := onMem .c i
    let two : SCell := { alts := [(4, .val 1), (8, .val 2)], pend := none }
    let u := onMem .c i fun m => openQ (withS [(2, two), (3, one 7)] m)
    let p := onMem .c i fun m => { m with grd := { m.grd with slots := [(1, { src := some .prog, kept := false, due := none })] } }
    curLane s = some (laneM .c i) ∧ slotOpen (mem s 0) 1 = false ∧ (∃ x, readS s (.mem 0) 2 = .ok x) ∧ readOne s (.mem 0) 2 = .ok 0 ∧
    slotOpen (mem u 0) 1 = true ∧ (∃ x, readS u (.mem 0) 2 = .ok x) ∧ maskOk 12 = false ∧ needLanded u (.mem 0) [4] = .ok () ∧
    (slotOf (mem p 0) 1).src = some .prog ∧ readOne p (.mem 0) 3 = .ok 0 ∧ (slotOf (mem u 0) 1).src ≠ some .prog ∧
    maskOk 8 = true ∧ (mem u 0).spr.chkRaw = false ∧ needLanded u (.mem 0) [2, 4] = .ok () ∧
    two.alts.find? (fun x => compatible x.1 8) = some (8, .val 2) ∧ needV (mem u 0) [1, 2] = .ok () ∧ curLane u = some (laneM .c i) :=
  ⟨rfl, rfl, ⟨_, rfl⟩, rfl, by decide +kernel, ⟨_, rfl⟩, by decide +kernel, rfl, by decide +kernel, rfl, by decide +kernel,
   by decide +kernel, rfl, rfl, by decide +kernel, by decide +kernel, rfl⟩

/-- Obligations.SystemHeld: a member, and a lookup core; in a record for `yield`. -/
theorem witness_SystemHeld : let i : Instr := .wrsr (short 0) 2 0x11
    let ln := { lnOf .c i with rcd := some { rec1 with yieldint := 4 } }
    let r : RecRun := { rec1 with yieldint := 4 }
    let s := onLane ln fun m => { withS [(2, one 5)] m with ctl := { m.ctl with fetch := { m.ctl.fetch with steps := [r] } } }
    let l : Lane := { who := .mem 0, q := .c, ln := ln }
    runRcd (mem s 0) = some r ∧ r.phase = .ker ∧ r.yieldint ≠ 0 ∧ curLane s = some l ∧ sprWritable 0x11 = true ∧ HeldNow s l (short 0) [] [2] [5] ∧ HeldNow s l (short 0) [] [] [] ∧
    l.ln.rcd = some { rec1 with yieldint := 4 } ∧ curLane (onLookup (.halt (short 0))) = some (laneK (.halt (short 0))) :=
  ⟨rfl, rfl, by decide, rfl, by decide +kernel, ⟨rfl, rfl, rfl, rfl, rfl⟩, ⟨rfl, rfl, rfl, rfl, rfl⟩, rfl, rfl⟩

/-- Obligations.CallsHandlersAndCounters: `svc` of a member, `uiret` in a handler and outside, `pcread`. -/
theorem witness_CallsHandlersAndCounters : let i : Instr := .svc (short 0) 4
    let s := onMem .c i (withS [(1, one 1), (2, one 2), (3, one 3), (4, one 4)])
    let r : Instr := .uiret (short 0)
    HeldNow s (laneM .c i) (short 0) [] [1, 2, 3, 4] [1, 2, 3, 4] ∧ curLane (onHandler r) = some (laneH r) ∧
    curLane (onMem .c r) = some (laneM .c r) ∧ (∀ k, (laneM .c r).who ≠ .hnd k) ∧
    Acts (onMem .c (.pcread (short 0) 5 0 0)) (laneM .c (.pcread (short 0) 5 0 0)) (short 0) .always ∧
    needLanded (onMem .c (.pcread (short 0) 5 0 0)) (.mem 0) [5] = .ok () :=
  ⟨⟨rfl, rfl, rfl, rfl, rfl⟩, rfl, rfl, nofun, ⟨rfl, rfl, by decide⟩, rfl⟩

/-- Obligations.FaultEnds: a launch of one member. -/
theorem witness_FaultEnds : let s := onMem .c (.trap (short 0) 9)
    (laneM .c (.trap (short 0) 9)).who = .mem 0 ∧ (mem s 0).ctl.trap = none ∧ vigilArmed s 2 = false ∧
    launchSites s (bindOf s 0).launch = [0] ∧ drained (mem s 0) = true ∧ vigilActive s = false ∧
    (let x : Raised := { src := 0, q := 2, addr := 132, index := 0, tag := { loop := 0, iter := 0, stagep := 0 }, trap := trapOf .trap, tick := 0 }
     let busy (m : Member) : Member := { m with mat := { m.mat with cbw := [(9, [])] } }
     let t (b : Bool) (c : Nat) : State :=
       { onMem .c (.nop (short 0)) (fun m => (if b then busy else id) { m with ctl := { m.ctl with trap := some x } }) with cal := c }
     (∀ b, ∀ c ∈ [255, 256], vigilArmed (t b c) 2 = false ∧ vigilActive (t b c) = false ∧
       launchSites (t b c) (bindOf (t b c) 0).launch = [0]) ∧
     (mem (t true 0) 0).ctl.trap = some x ∧ drained (mem (t true 255) 0) = false ∧ 255 < x.tick + 256 ∧ x.tick + 256 ≤ (t true 256).cal ∧
     drained (mem (t false 0) 0) = true) :=
  ⟨rfl, rfl, by decide +kernel, by decide +kernel, by decide +kernel, by decide +kernel, by decide +kernel, rfl, by decide +kernel, by decide,
   by decide, by decide +kernel⟩

/-- A handle of the 64 KiB page at 65536 that may be read, written and used by atomics. -/
def page1 : BitVec 128 := 2 ^ 36 + 0x1c1

/-- Work of a lookup core through that handle. -/
def workOf (rows : List (List Byte)) (part : List Byte) : LkWork := { h := page1, rows := rows, part := part, put := 0, tag := none, ans := none }

/-- Obligations.LookupInstructions: `lidx` of four 32-bit elements up to the end of the page and of none, `ldup`, `lgat` of the
least and greatest row, `lpool`. -/
theorem witness_LookupInstructions :
    let f (c : Lookup) : Lookup := { c with s := [(2, 65520), (3, 4), (6, 65504), (7, 32), (8, 0), (9, 2048)], il := [0, 0] }
    let at_ (i : Instr) (regs : List SReg) (w : LkWork) : Prop :=
      AtLookup (onLookup i fun c => { f c with work := some w }) (laneK i) 0 (short 0) regs
    let c (w : LkWork) : Lookup := lookupCore (onLookup (.ldup (short 0) 4) fun c => { f c with work := some w }) 0
    at_ (.lidx (short 0) 4 1 2 0) [4, 2, 3] (workOf [] (List.replicate 16 0)) ∧
    lkS (c (workOf [] [])) 3 = 4 ∧ lkCheck page1 .r (lkS (c (workOf [] [])) 2) 16 = none ∧
    lkHandle (c (workOf [] [])) 1 = page1 ∧ lkS (c (workOf [] [])) 2 % 4 = 0 ∧
    at_ (.ldup (short 0) 4) [4] (workOf [] []) ∧ at_ (.lgat (short 0) 1 6 1) [6, 7] (workOf [[], []] []) ∧
    rowsFail { c (workOf [] []) with il := [0] } page1 .r true 65504 32 = none ∧
    rowsFail (c (workOf [] [])) page1 .r false 0 2048 = none ∧ (workOf [[], []] []).rows.length = (c (workOf [] [])).il.length ∧
    at_ (.lpool (short 0) 8) [] (workOf [] []) :=
  ⟨⟨rfl, rfl, rfl, rfl, rfl⟩, rfl, by decide +kernel, rfl, rfl, ⟨rfl, rfl, rfl, rfl, rfl⟩, ⟨rfl, rfl, rfl, rfl, rfl⟩,
   by decide +kernel, by decide +kernel, rfl, ⟨rfl, rfl, rfl, rfl, rfl⟩⟩

/-- The same statement's `lsend` to the last slot of AB of its kicker, to a site that it may not reach and to a slot
that AB has not; and `lscat` whose rows have been written. -/
theorem witness_LookupSends :
    let i : Instr := .lsend (short 0) 2 0 0 0
    let j : Instr := .lscat (short 0) 1 4 0
    let s := onLookup i fun c => { c with s := [(2, 1023)] }
    let o := onLookup i fun c => { c with s := [(2, 1024)] }
    let r : Instr := .lsend (long 0) 2 0 5 0
    let u := onLookup j fun c => { c with il := [3], ga := [List.replicate 64 1], grl := 64, work := some (workOf [[]] []) }
    AtLookup s (laneK i) 0 (short 0) [2] ∧ lkS (lookupCore s 0) 2 = 1023 ∧ reachable s 0 0 = true ∧
    AtLookup (onLookup r) (laneK r) 0 (long 0) [2] ∧ lkS (lookupCore (onLookup r) 0) 2 = 0 ∧ reachable (onLookup r) 0 5 = false ∧
    vigilArmed (onLookup r) 2 = false ∧ launchSites (onLookup r) (bindOf (onLookup r) 0).launch = [0] ∧
    AtLookup o (laneK i) 0 (short 0) [2] ∧ lkS (lookupCore o 0) 2 = 1024 ∧
    AtLookup u (laneK j) 0 (short 0) [4, 5] ∧ lkS (lookupCore u 0) 5 = 0 ∧
    rowsFail (lookupCore u 0) page1 .r false 0 64 = none ∧ rowsFail (lookupCore u 0) page1 .w false 0 64 = none ∧
    (lookupCore u 0).ga.length = (lookupCore u 0).il.length ∧
    (lookupCore u 0).il.length ≤ (lkWork (lookupCore u 0) page1).rows.length :=
  ⟨⟨rfl, rfl, rfl, rfl, rfl⟩, rfl, by decide +kernel, ⟨rfl, rfl, rfl, rfl, rfl⟩, rfl, by decide +kernel, by decide +kernel,
   by decide +kernel, ⟨rfl, rfl, rfl, rfl, rfl⟩, rfl, ⟨rfl, rfl, rfl, rfl, rfl⟩, rfl, by decide +kernel, by decide +kernel, rfl,
   by decide +kernel⟩

/-- A v register whose cells are all one number in every slice. -/
def vFull (r : Nat) (x : Word32) : Tab VAlts :=
  (List.range 64).map fun c => (64 * r + c, { alts := plain ((List.range 16).map fun k => (k, x)) })

/-- A V instruction at issue in group cycle 2 of a member with v5 all 9 and v6 all 3. -/
def onV (i : Instr) (f : Member → Member := id) : State :=
  onMem .v i fun m => f { m with regs := { m.regs with v := vFull 5 9 ++ vFull 6 3 } }

/-- An extension of an integer instruction without a mask. -/
def int32 : VExt := { msk := 0, f := 2, rnd := 5, sat := false }

/-- Obligations.VectorSetsOut: an instruction of two sources and one with an s destination. -/
theorem witness_VectorSetsOut :
    let i : Instr := .viadd (short 0) int32 4 5 6
    let j : Instr := .vext (short 0) int32 3 5 15 63
    (∃ sh ss, i ∈ waveArith (short 0) int32 4 5 6 0 0 0 { tf := 0, sty := 0, tty := 0, kind := 0 } 0 ∧ vShape i = some sh ∧
      VActs (onV i) (laneM .v i) 0 (short 0) i sh .always none (onV i) ∧ vScalar (onV i) (laneM .v i) sh = .ok ss ∧
      vCount (mem (onV i) 0) sh (newWave (onV i) (laneM .v i) 0 i ss none none) ≤ 4) ∧
    (∃ sh ss, vShape j = some sh ∧ VActs (onV j) (laneM .v j) 0 (short 0) j sh .always none (onV j) ∧
      vScalar (onV j) (laneM .v j) sh = .ok ss ∧ vCount (mem (onV j) 0) sh (newWave (onV j) (laneM .v j) 0 j ss none none) ≤ 4) :=
  ⟨⟨_, _, .tail _ (.tail _ (.tail _ (.tail _ (.tail _ (.tail _ (.tail _ (.tail _ (.tail _ (.tail _ (.tail _ (.tail _ (.tail _ (.tail _
      (.tail _ (.tail _ (.tail _ (.head _))))))))))))))))), rfl, ⟨rfl, rfl, rfl, by decide⟩, rfl, by decide +kernel⟩,
   ⟨_, _, rfl, ⟨rfl, rfl, rfl, by decide⟩, rfl, by decide +kernel⟩⟩

/-- Obligations.VectorMovesAndCounts: a `vmov` that is no binding, one that is, and `kpop` of a mask. -/
theorem witness_VectorMovesAndCounts :
    let i : Instr := .vmov (short 0) int32 4 5
    let h : Hd := { long 0 with qp := true }
    let b : Instr := .vmov h int32 4 0
    let c : Instr := .kpop (short 0) int32 3 2
    (∃ sh ss, vShape i = some sh ∧ VActs (onV i) (laneM .v i) 0 (short 0) i sh .always none (onV i) ∧
      vScalar (onV i) (laneM .v i) sh = .ok ss ∧ vCount (mem (onV i) 0) sh (newWave (onV i) (laneM .v i) 0 i ss none none) ≤ 4) ∧
    (curLane (onV b) = some (laneM .v b) ∧ memAct (mem (onV b) 0) h = .always ∧ (mem (onV b) 0).l.ldqV = [] ∧
      vPending (mem (onV b) 0) 4 = false ∧ (mem (onV b) 0).l.bindV.length < 16) ∧
    ∃ sh, vShape c = some sh ∧ VActs (onV c) (laneM .v c) 0 (short 0) c sh .always none (onV c) ∧ Fits (onV c) (laneM .v c) 3 .always :=
  ⟨⟨_, _, rfl, ⟨rfl, rfl, rfl, by decide⟩, rfl, by decide +kernel⟩, ⟨rfl, rfl, rfl, rfl, by decide⟩,
   ⟨_, rfl, ⟨rfl, rfl, rfl, by decide⟩, fits rfl rfl⟩⟩

/-- The wavefront of a V or X instruction at issue. -/
def waveOf (i : Instr) : Wave := newWave (onV i) (laneM .v i) 0 i (plain []) none none

/-- Obligations.VectorCells, at the last row and column, for an integer and a floating-point instruction. -/
theorem witness_VectorCells :
    ∀ i ∈ [Instr.viadd (short 0) int32 4 5 6, .vadd (short 0) { int32 with f := 0 } 4 5 6],
      let m := mem (onV i) 0
      let w := waveOf i
      ∃ A B D S : Cells, w.ins = i ∧ (vShape w.ins).isSome = true ∧ (vSlice m 5 63).alts = plain A ∧ (vSlice m 6 63).alts = plain B ∧
        (vSlice m 4 63).alts = plain D ∧ w.ss = plain S ∧ w.out = [] ∧ cellAt A 15 = 9 ∧ cellAt B 15 = 3 := by
  intro i hi
  refine ⟨(List.range 16).map (fun k => (k, 9)), (List.range 16).map (fun k => (k, 3)), [], [], ?_⟩
  rcases hi with _ | ⟨_, _ | ⟨_, hi⟩⟩
  · exact ⟨rfl, rfl, by decide +kernel, by decide +kernel, by decide +kernel, rfl, rfl, by decide +kernel, by decide +kernel⟩
  · exact ⟨rfl, rfl, by decide +kernel, by decide +kernel, by decide +kernel, rfl, rfl, by decide +kernel, by decide +kernel⟩
  · cases hi

/-- A wavefront that has gathered its sources whole. -/
def wholeOf (i : Instr) : Wave :=
  match vShape i with
  | some sh => gatherRest (mem (onV i) 0) 0 sh (waveOf i)
  | none => waveOf i

/-- The one cell array of a plain value. -/
def plainOf : Alts Cells → Option Cells
  | [(g, .val x)] => if g = 0 then some x else none
  | _ => none

/-- A plain value with a property of its cells. -/
theorem plain_of {α : Type} {a : Alts Cells} {p : Cells → α} {v : α} (h : (plainOf a).map p = some v) : ∃ x, a = plain x ∧ p x = v := by
  obtain ⟨x, hx, e⟩ := Option.map_eq_some_iff.mp h
  refine ⟨x, ?_, e⟩
  unfold plainOf at hx
  split at hx
  · split at hx <;> simp_all [plain]
  · cases hx

/-- Obligations.VectorRows: a register's 1,024 cells gathered, and a slice of the three sources of `vrope`. -/
theorem witness_VectorRows :
    let p : Instr := .vperm (short 0) int32 4 5 6
    let r : Instr := .vrope (short 0) { int32 with f := 0 } 4 5 6 6
    let w : Wave := { wholeOf r with ins := r }
    ((∃ A, gathered (wholeOf p) 0 = plain A ∧ cellAt A 1023 = 9) ∧ (∃ B, gathered (wholeOf p) 1 = plain B ∧ cellAt B 1023 = 3) ∧
      (wholeOf p).ss = plain [] ∧ (wholeOf p).out = []) ∧
    w.ins = r ∧ (vShape w.ins).isSome = true ∧ w.out = [] ∧
    (∀ c, c < 2 → ∃ A, gathSlice w 0 c = plain A ∧ (decodeFp fp32 true (cellAt A 0).toNat).isNan = false) ∧
    (∃ P, gathSlice w 1 0 = plain P ∧ cellAt P 0 = 3) ∧ (∃ F, gathSlice w 2 0 = plain F ∧ cellAt F 0 = 3) ∧
    (∀ c, c < 2 → ∃ D, gathSlice w gathD c = plain D ∧ cellAt D 0 = 0) ∧
    (sinCosNum (mulNum (numInt 3) (decodeFp fp32 true 3))).isSome = true := by
  refine ⟨⟨plain_of (by decide +kernel), plain_of (by decide +kernel), by decide +kernel, by decide +kernel⟩, rfl, rfl, by decide +kernel, ?_,
    plain_of (by decide +kernel), plain_of (by decide +kernel), ?_, by decide +kernel⟩
  · intro c hc
    rcases (by omega : c = 0 ∨ c = 1) with rfl | rfl <;> exact plain_of (by decide +kernel)
  · intro c hc
    rcases (by omega : c = 0 ∨ c = 1) with rfl | rfl <;> exact plain_of (by decide +kernel)

/-- A member ready for M: streams a0 of AB and a1 of WB, one row of 32 elements of FP8 at byte 0, their slots full, the
sub-arrays awake, CB tile 3 in its accumulator. -/
def onM (i : Instr) (f : Member → Member := id) : State :=
  onMem .m i fun m => f { m with
    regs := { m.regs with a := [(0, BitVec.ofNat 256 (3 * 2 ^ 60 + 2 * 2 ^ 58)), (1, BitVec.ofNat 256 (3 * 2 ^ 60 + 2 ^ 58))] }
    buf := { m.buf with wbFull := [(0, true)], abFull := [(0, true)] }
    mat := { m.mat with sub := (List.range 16).map (fun k => (k, { SubArray.t0 with asleep := false })), tags := [(3, 4)] } }

/-- Readiness checked field by field. -/
theorem ready {s : State} {l : Lane} {h : Hd} {st : SReg} {x : MNeeds} {v : List (Alts Word)} (a : curLane s = some l) (b : l.who = .mem 0)
    (c : waitClass s l.who h (stampRegs st ++ x.regs) = .ok true) (d : readRegs s l.who (stampRegs st ++ x.regs) = .ok v)
    (e : x.hnd.all (fun r => !hPend (hReg (mem s 0) r)) = true) (f : stampStop s 0 st = none) (g : x.fault = none)
    (k : x.subs.all (fun k => decide ((subOf (mem s 0) k).busy ≤ (mem s 0).ctl.gc) && !(subOf (mem s 0) k).asleep &&
      (subOf (mem s 0) k).waking.isNone) = true)
    (p : x.slots.all (fun p => slotReady (mem s 0) p.1 p.2 true) = true) (j : x.poison = none := by decide +kernel) :
    MReady s l 0 h st x := by
  simp only [List.all_eq_true, Bool.and_eq_true, decide_eq_true_eq, Bool.not_eq_true', Option.isNone_iff_eq_none] at k p
  refine ⟨a, b, c, ⟨v, d⟩, fun r hr => ?_, f, g, j, fun i hi => (k i hi).1.1, fun i hi => ⟨(k i hi).1.2, (k i hi).2⟩, p⟩
  rw [hr] at e
  simpa using e

/-- Obligations.MatrixMultiplies, with a stamp that is met and without a stamp; turned off; and tiles past the last. -/
theorem witness_MatrixMultiplies :
    let i : Instr := .mmac (short 0) 5 0 1 3 0
    let j : Instr := .mmacb (short 0) 0 0 1 3 15
    MReady (onM i) (laneM .m i) 0 (short 0) 5 (mmacNeeds 0 1 3 0 (mem (onM i) 0)) ∧
    MReady (onM j) (laneM .m j) 0 (short 0) 0 (mmacbNeeds 0 1 3 15 (mem (onM j) 0)) ∧
    (let g : Hd := { long 0 with gq := true, qs := 1 }
     let z : Instr := .mzero g 0 3 0
     curLane (onM z) = some (laneM .m z) ∧ waitClass (onM z) (.mem 0) g (stampRegs 0 ++ (mzeroNeeds 3 0).regs) = .ok false) ∧
    (let z : Instr := .mzero (short 0) 0 14 3
     MFaults (onM z) (laneM .m z) 0 (short 0) 0 (mzeroNeeds 14 3) (trapOf .illegal)) :=
  ⟨ready rfl rfl rfl rfl rfl (by decide +kernel) (by decide +kernel) (by decide +kernel) (by decide +kernel),
   ready rfl rfl rfl rfl rfl (by decide +kernel) (by decide +kernel) (by decide +kernel) (by decide +kernel),
   ⟨rfl, rfl⟩, ⟨rfl, rfl, rfl, ⟨_, rfl⟩, nofun, rfl, rfl⟩⟩

/-- Obligations.MatrixProduct, at the only row of each stream. -/
theorem witness_MatrixProduct :
    let i : Instr := .mmac (short 0) 0 0 1 3 0
    let m := mem (onM i) 0
    let o := newOp m i 132 64 (aReg m 0) (aReg m 1) []
    o.ins = i ∧ m.mat.f64 = false ∧ m.mat.acc.length = 4 ∧ 0 < sRows o.fa ∧ 0 < sRows o.fb :=
  ⟨rfl, rfl, rfl, by decide +kernel, by decide +kernel⟩

/-- Obligations.MatrixMoves: the last tile, and four tiles. -/
theorem witness_MatrixMoves :
    let i : Instr := .mret (short 0) 0 3 0
    let j : Instr := .mload (short 0) 0 12 3
    let z : Instr := .mzero (short 0) 0 15 0
    let w : Instr := .mwake (short 0) 0 1
    let asleep (m : Member) : Member := { m with mat := { m.mat with sub := [] } }
    MReady (onM i) (laneM .m i) 0 (short 0) 0 (mretNeeds 3 0 (mem (onM i) 0)) ∧
    MReady (onM j) (laneM .m j) 0 (short 0) 0 (mloadNeeds 12 3 (mem (onM j) 0)) ∧ (mem (onM j) 0).mat.acc.length = 4 ∧
    MReady (onM z) (laneM .m z) 0 (short 0) 0 (mzeroNeeds 15 0) ∧
    MReady (onM w asleep) (laneM .m w) 0 (short 0) 0 (MNeeds.plain 1 true) ∧
    (subOf (mem (onM w asleep) 0) 0).asleep = true ∧ (subOf (mem (onM w asleep) 0) 0).waking = none :=
  ⟨ready rfl rfl rfl rfl rfl rfl (by decide +kernel) (by decide +kernel) (by decide +kernel),
   ready rfl rfl rfl rfl rfl rfl (by decide +kernel) (by decide +kernel) (by decide +kernel), rfl,
   ready rfl rfl rfl rfl rfl rfl (by decide +kernel) (by decide +kernel) (by decide +kernel),
   ready rfl rfl rfl rfl rfl rfl rfl rfl rfl, rfl, rfl⟩

/-- An image whose section 7 at 640 holds one stream descriptor, of AB in FP8. -/
def streamed (s : State) : State :=
  { s with dmem := setBytes s.dmem 0 (leBytes 10 0 ++ leBytes 2 1 ++ leBytes 52 0 ++
      leBytes 4 7 ++ leBytes 4 640 ++ leBytes 4 32 ++ leBytes 4 1 ++ leBytes 560 0 ++ leBytes 32 (3 * 2 ^ 60 + 2 * 2 ^ 58)) }

/-- Obligations.Streams: `sset` of a descriptor and of none, `sadv`, `sget` of the last field, turned off, and of no field. -/
theorem witness_Streams :
    let i : Instr := .sset (short 0) 0 2 0
    let s := streamed (onM i)
    let g : Instr := .sget (short 0) 0 0 13 4
    let q : Hd := { long 0 with gq := true, qs := 1 }
    let o : Instr := .sget q 0 0 13 4
    let b : Instr := .sget (short 0) 0 0 14 4
    MReady s (laneM .m i) 0 (short 0) 0 (MNeeds.plain 1 true) ∧
    descriptor s 0 0 = some (BitVec.ofNat 256 (3 * 2 ^ 60 + 2 * 2 ^ 58)) ∧ descOk (BitVec.ofNat 256 (3 * 2 ^ 60 + 2 * 2 ^ 58)) = true ∧
    descriptor s 0 1 = none ∧ qualAct (onM o) (.mem 0) q = .ok .never ∧ curLane (onM o) = some (laneM .m o) ∧
    needLanded (onM o) (.mem 0) [4] = .ok () ∧ curLane (onM b) = some (laneM .m b) ∧
    Acts (onM g) (laneM .m g) (short 0) .always ∧ needLanded (onM g) (.mem 0) [4] = .ok () ∧ Fits (onM g) (laneM .m g) 4 .always ∧
    splitStamp (onM g) (laneM .m g) 0 = .ok 0 :=
  ⟨ready rfl rfl rfl rfl rfl rfl rfl rfl rfl, by decide +kernel, by decide +kernel, by decide +kernel, rfl, rfl, rfl, rfl,
   ⟨rfl, rfl, by decide⟩, rfl,
   fits rfl rfl, rfl⟩

/-- A member with an attention page in h1 whose metadata lines are pinned by its context. -/
def onPage (i : Instr) : State :=
  let s := onM i fun m => { m with regs := { m.regs with h := [(1, page1)], a := [(0, BitVec.ofNat 256 (3 * 2 ^ 60 + 2 * 2 ^ 58 + 2 ^ 69))] } }
  (List.range 6).foldl (fun s k =>
    let pa := 65536 + 32768 + 128 * k
    { s with l2 := tput [] s.l2 (setKey pa) [{ tag := tagOfPa pa, zero := false, valid := 0, dirty := 0, way := true,
                                               pins := [{ ctx := siteCtx s 0, launch := 1, count := 1 }] }] }) s

/-- Obligations.Attention: a page without a valid slot, its bytes undisturbed; occupancies that end. -/
theorem witness_Attention :
    let i : Instr := .aqk (short 0) 0 0 1 3 0
    let j : Instr := .apv (short 0) 0 0 1 3 0
    let a : Instr := .amass (short 0) 0 1 3 0
    let p : Instr := .apos (short 0) 0 1 4
    MReady (onPage i) (laneM .m i) 0 (short 0) 0 (aqkNeeds (onPage i) 0 (mem (onPage i) 0) 0 1 0) ∧
    MReady (onPage j) (laneM .m j) 0 (short 0) 0 (apvNeeds (onPage j) 0 (mem (onPage j) 0) 0 1 3 0) ∧
    MReady (onPage a) (laneM .m a) 0 (short 0) 0 (amassNeeds (mem (onPage a) 0) 1 3 0) ∧ (mem (onPage a) 0).l.lq.length < 32 ∧
    curLane (onPage p) = some (laneM .m p) ∧ splitStamp (onPage p) (laneM .m p) 0 = .ok 0 ∧ memAct (mem (onPage p) 0) (short 0) = .always ∧
    needV (mem (onPage p) 0) [4] = .ok () ∧ hPend (hReg (mem (onPage p) 0) 1) = false ∧ (mem (onPage p) 0).mat.f64 = false ∧
    pageFault (onPage p) 0 (hReg (mem (onPage p) 0) 1) (fun _ => []) = none ∧ (flatV (mem (onPage p) 0) 4).length ≤ 3 ∧
    (let u : State := { onPage p with quotas := [(0, { Quota.reset with bsize := 0 })] }
     ∀ i, i < 24 → Undisturbed u (siteCtx u 0) (hKeyIdx page1) (hBase page1 + 32768 + 32 * i)) ∧
    (let m := mem (onPage i) 0
     let o := newOp m i 132 64 (aReg m 0) (aReg m 1) []
     let o' : MatOp := { newOp m j 132 64 (BitVec.ofNat 256 (3 * 2 ^ 60 + 2 * 2 ^ 58 + 2 ^ 69)) (aReg m 1) [] with page := List.replicate 64 0 }
     m.mat.f64 = false ∧ m.mat.acc.length = 4 ∧ o.ins = i ∧ o'.ins = j ∧ sK o'.fa = 64 ∧ o'.page.length = 64) :=
  ⟨ready rfl rfl rfl rfl (by decide +kernel) rfl (by decide +kernel) (by decide +kernel) (by decide +kernel),
   ready rfl rfl rfl rfl (by decide +kernel) rfl (by decide +kernel) (by decide +kernel) (by decide +kernel),
   ready rfl rfl rfl rfl rfl rfl (by decide +kernel) rfl rfl, by decide +kernel, rfl, rfl, rfl, rfl, by decide +kernel, rfl,
   by decide +kernel, by decide +kernel,
   fun i hi => ⟨by revert i; decide +kernel, rfl, by revert i; decide +kernel, by revert i; decide +kernel, .inl rfl⟩,
   ⟨rfl, rfl, rfl, rfl, by decide +kernel, rfl⟩⟩

/-- An L access of h1 at the offset s3. -/
def lm1 : LMem := { msk := 0, as := 0, hn := 1, o := 3, imm := 0 }

/-- A member whose h1 is the page and whose s3 is an offset. -/
def paged (o : Word) (m : Member) : Member := withS [(2, one 5), (3, one o)] { m with regs := { m.regs with h := [(1, page1)] } }

/-- Obligations.AccessesCaptured: a load that acts and one that is turned off; a store that is captured, one under an
open slot, one turned off; an atomic with a destination. -/
theorem witness_AccessesCaptured :
    let g : Hd := { long 0 with gq := true, qs := 1 }
    let i : Instr := .sld (long 0) lm1 3 false
    let j : Instr := .sst (long 0) lm1 2 3
    let a : Instr := .atom (long 0) 4 1 3 0 2 1 0
    let f : LForm := ⟨i, [3], [], lmH lm1, 0, none⟩
    let k (i : Instr) : State := onMem .l i (paged 65528)
    let o (i : Instr) : State := onMem .l i fun m => openQ (paged 0 m)
    (f ∈ loadForms (long 0) lm1 3 false ∧ AtL (k i) (laneM .l i) 0 f.ss f.vs f.k ∧ memAct (mem (k i) 0) (long 0) ≠ .never ∧
      (mem (k i) 0).l.lq.length < 32 ∧ checkNow (lCap (k i) (laneM .l i) 0 i f.ss f.vs f.hs f.k none) = true) ∧
    (AtL (k (.sld g lm1 3 false)) (laneM .l (.sld g lm1 3 false)) 0 [3] [] 0 ∧ memAct (mem (k (.sld g lm1 3 false)) 0) g = .never) ∧
    (AtL (k j) (laneM .l j) 0 [2, 3] [] 0 ∧ memAct (mem (k j) 0) (long 0) = .always ∧ (mem (k j) 0).grd.held = [] ∧
      capSplits (lCap (k j) (laneM .l j) 0 j [2, 3] [] (lmH lm1) 0 none) = false ∧
      checkNow (lCap (k j) (laneM .l j) 0 j [2, 3] [] (lmH lm1) 0 none) = true) ∧
    (AtL (k a) (laneM .l a) 0 [2, 3] [] 0 ∧ checkNow (lCap (k a) (laneM .l a) 0 a [2, 3] [] [1] 0 none) = true) ∧
    (AtL (k (.sst g lm1 2 3)) (laneM .l (.sst g lm1 2 3)) 0 [2, 3] [] 0 ∧ memAct (mem (k (.sst g lm1 2 3)) 0) g = .never) ∧
    (AtL (o (.sst g lm1 2 3)) (laneM .l (.sst g lm1 2 3)) 0 [2, 3] [] 0 ∧ memAct (mem (o (.sst g lm1 2 3)) 0) g ≠ .never ∧
      actLit (memAct (mem (o (.sst g lm1 2 3)) 0) g) ≠ none ∧ (mem (o (.sst g lm1 2 3)) 0).grd.held.length < 16) :=
  ⟨⟨.head _, ⟨rfl, rfl, rfl⟩, by decide +kernel, by decide +kernel, by decide +kernel⟩, ⟨⟨rfl, rfl, rfl⟩, by decide +kernel⟩,
   ⟨⟨rfl, rfl, rfl⟩, rfl, rfl, by decide +kernel, by decide +kernel⟩, ⟨⟨rfl, rfl, rfl⟩, by decide +kernel⟩,
   ⟨⟨rfl, rfl, rfl⟩, by decide +kernel⟩, ⟨⟨rfl, rfl, rfl⟩, by decide +kernel, by decide +kernel, by decide +kernel⟩⟩

/-- Obligations.HandleInstructions: a handle register with no `xlat` in flight and one that is pending; a qualifier that
is false, and an open slot. -/
theorem witness_HandleInstructions :
    let i : Instr := .xlat (short 0) 1 3
    let j : Instr := .hrel (short 0) 1
    AtL (onMem .l i (paged 9)) (laneM .l i) 0 [3] [] 0 ∧ srcSplits (sSrc (mem (onMem .l i (paged 9)) 0) 3) = false ∧
    (sCell (mem (onMem .l i (paged 9)) 0) 3).pend = none ∧ memAct (mem (onMem .l i (paged 9)) 0) (short 0) = .always ∧
    (mem (onMem .l i (paged 9)) 0).l.hrel.contains 1 = false ∧
    curLane (onMem .l j (paged 9)) = some (laneM .l j) ∧ tget 0 (mem (onMem .l j (paged 9)) 0).regs.hp 1 = 0 ∧
    (let pend (m : Member) : Member := { paged 9 m with regs := { (paged 9 m).regs with hp := [(1, 5)] } }
     curLane (onMem .l i pend) = some (laneM .l i) ∧ tget 0 (mem (onMem .l i pend) 0).regs.hp 1 ≠ 0) ∧
    (let g : Hd := { long 0 with gq := true, qs := 1 }
     let k : Instr := .xlat g 1 3
     let o := onMem .l k fun m => openQ (paged 9 m)
     curLane (onMem .l k (paged 9)) = some (laneM .l k) ∧ memAct (mem (onMem .l k (paged 9)) 0) g = .never ∧
     curLane o = some (laneM .l k) ∧ ∃ x, memAct (mem o 0) g = .lit x) :=
  ⟨⟨rfl, rfl, rfl⟩, by decide +kernel, rfl, rfl, rfl, rfl, rfl, ⟨rfl, by decide⟩, ⟨rfl, rfl, rfl, ⟨_, rfl⟩⟩⟩

/-- An engine command of stream 0 without tokens, stamped with s4 or not at all. -/
def ecmd (st : SReg) : ECmd :=
  { idle := 0, long := false, eng := 0, st := st, produce := none, c0 := none, c1 := none, c2 := none, ui := false }

/-- Operands of a copy from h1 to h2. -/
def copyOf : Copy := { do_ := 3, dh := 2, so := 3, sh := 1, pair := 0, fe := false, ln := 2 }

/-- A member with an open chain that has used seven of its continuations. -/
def chained (m : Member) : Member := { m with eng := [(0, { Stream.t0 with open_ := true, conts := List.replicate 7 (0, 16) })] }

/-- Obligations.CommandsAndChains: a command that is queued, one behind a held entry, one whose stamp has passed, and
`link` with a chain open and with none. -/
theorem witness_CommandsAndChains :
    let i : Instr := .cpy (ecmd 0) copyOf
    let t : Instr := .cpy (ecmd 4) copyOf
    let k : Instr := .link (ecmd 0) 2
    let regs : List SReg := [3, 3, 2]
    let s (i : Instr) : State := onMem .e i (paged 0)
    let held (m : Member) : Member :=
      { paged 0 m with grd := { m.grd with held := [lCap (s i) (laneM .e i) 0 i [] [] [] 0 none] } }
    let late : State := { onMem .e t (fun m => withS [(2, one 5), (4, one 9)] m) with cal := 10 }
    i ∈ commands (ecmd 0) copyOf { red := 0, fmt := 0, dg := false, dh := 0, gr := 0, so := 0, ln := 0, do_ := 0, nf := 0, col := 0, row := 0 }
      0 0 0 0 0 false 0 ∧
    cmdRegs i ++ cmdStamp i = regs ++ [] ∧ AtL (s i) (laneM .e i) 0 [3, 3, 2] [] 0 ∧ capSplits (eCap (s i) (laneM .e i) 0 i) = false ∧
    (mem (s i) 0).grd.held = [] ∧ stampMissed (s i) (eCap (s i) (laneM .e i) 0 i) = false ∧ (streamOf (mem (s i) 0) 0).queue.length < 16 ∧
    AtL (onMem .e i held) (laneM .e i) 0 [3, 3, 2] [] 0 ∧ (mem (onMem .e i held) 0).grd.held ≠ [] ∧ (mem (onMem .e i held) 0).grd.held.length < 16 ∧
    AtL late (laneM .e t) 0 (cmdRegs t ++ cmdStamp t) [] 0 ∧ stampMissed late (eCap late (laneM .e t) 0 t) = true ∧
    capSplits (eCap late (laneM .e t) 0 t) = false ∧
    AtL (s k) (laneM .e k) 0 [2] [] 0 ∧ capSplits (eCap (s k) (laneM .e k) 0 k) = false ∧ (sCell (mem (s k) 0) 2).alts = plain 5 ∧
    (streamOf (mem (s k) 0) 0).open_ = false ∧ AtL (onMem .e k fun m => chained (paged 0 m)) (laneM .e k) 0 [2] [] 0 ∧
    (streamOf (mem (onMem .e k fun m => chained (paged 0 m)) 0) 0).open_ = true ∧
    (streamOf (mem (onMem .e k fun m => chained (paged 0 m)) 0) 0).conts.length < 8 :=
  ⟨.head _, rfl, ⟨rfl, rfl, rfl⟩, by decide +kernel, rfl, by decide +kernel, by decide +kernel, ⟨rfl, rfl, rfl⟩, by decide +kernel,
   by decide +kernel, ⟨rfl, rfl, rfl⟩, by decide +kernel, by decide +kernel, ⟨rfl, rfl, rfl⟩, by decide +kernel, rfl, rfl,
   ⟨rfl, rfl, rfl⟩, rfl, by decide +kernel⟩

/-- A captured instruction with single scalar operands and a handle in h1. -/
def capOf (i : Instr) (ss : List Word) (hd : BitVec 128 := page1) : Cap :=
  { ins := i, q := .l, addr := 132, seq := 4, ss := ss.map (fun v => .now (plain v)), vs := [], msk := 0, hs := [(1, .now hd)], lit := none,
    out := [], tok := none, tag := { loop := 0, iter := 0, stagep := 0 }, tick := 0, slipped := false, known := false, taken := 0,
    since := none, clk := [] }

/-- An entry of L's queues that has not begun. -/
def entOf (c : Cap) : LEnt := { cap := c, begun := false, pairs := [], left := [], buf := [], req := [], bad := [] }

/-- A running member with entries in its load queue and its store queue, of a context that is not metered. -/
def inL (lq sq : List LEnt) (f : Member → Member := id) : State :=
  let s := onMem .c (.nop (short 0)) fun m => f { m with l := { m.l with lq := lq, sq := sq } }
  { s with quotas := [(0, { Quota.reset with bsize := 0 })] }

/-- Obligations.LoadPerforms: the last two bytes of the page. -/
theorem witness_LoadPerforms :
    let i : Instr := .sld (short 0) lm1 1 true
    let e := entOf (capOf i [65534])
    let s := inL [e] [] fun m => { m with l := { m.l with ordC := [4] } }
    headLoad (mem s 0) = some e ∧ Entry e i [65534] 1 page1 ∧ lmOff lm1 65534 % 2 = 0 ∧ hAddr page1 .r (lmOff lm1 65534) 2 = .ok 131070 ∧
    Undisturbed s (siteCtx s 0) (hKeyIdx page1) 131070 ∧ heldBefore (mem s 0) 4 = false ∧ (mem s 0).l.ordC.head? = some 4 ∧
    (mem s 0).l.bindC = [] ∧ entries (mem s 0).l.ldqC < 16 :=
  ⟨rfl, ⟨rfl, rfl, rfl, rfl, rfl, rfl, by decide +kernel, rfl⟩, by decide +kernel, by decide +kernel,
   ⟨by decide +kernel, by decide +kernel, rfl, rfl, .inl rfl⟩, rfl, rfl, rfl, by decide⟩

/-- Obligations.StorePerforms: the first eight bytes of the page. -/
theorem witness_StorePerforms :
    let i : Instr := .sst (short 0) lm1 2 3
    let e := entOf (capOf i [5, 0])
    let s := inL [] [e]
    headStore (mem s 0) = some e ∧ Entry e i [5, 0] 1 page1 ∧ hAddr page1 .w (lmOff lm1 0) 8 = .ok 65536 ∧
    Undisturbed s (siteCtx s 0) (hKeyIdx page1) 65536 :=
  ⟨rfl, ⟨rfl, rfl, rfl, rfl, rfl, rfl, by decide +kernel, rfl⟩, by decide +kernel, ⟨by decide +kernel, by decide +kernel, rfl, rfl, .inl rfl⟩⟩

/-- Obligations.AtomicPerforms: the last operation of `atom` on a 64-bit word, and `cas` on a 32-bit word. -/
theorem witness_AtomicPerforms :
    let i : Instr := .atom (short 0) 4 1 3 8 2 1 8
    let j : Instr := .cas (short 0) 4 1 3 2 5 0 0
    let e := entOf { capOf i [5, 0] with tok := some 9 }
    let f := entOf { capOf j [5, 6, 4] with tok := some 9 }
    headBoth (mem (inL [e] [e]) 0) = some e ∧ Entry e i [5, 0] 1 page1 ∧ e.cap.tok = some 9 ∧ hAddr page1 .a 8 8 = .ok 65544 ∧
    Undisturbed (inL [e] [e]) (siteCtx (inL [e] [e]) 0) (hKeyIdx page1) 65544 ∧
    headBoth (mem (inL [f] [f]) 0) = some f ∧ Entry f j [5, 6, 4] 1 page1 ∧ hAddr page1 .a 4 4 = .ok 65540 ∧
    Undisturbed (inL [f] [f]) (siteCtx (inL [f] [f]) 0) (hKeyIdx page1) 65540 ∧
    (let w : State := { inL [e] [e] (withS [(4, { alts := plain 0, pend := some 9 })]) with dmem := setBytes [] 65544 [1] }
     (mem w 0).fly.landed = [] ∧ (sCell (mem w 0) 4).pend = some 9 ∧ numAt w.dmem 65544 8 ≠ 0) :=
  ⟨rfl, ⟨rfl, rfl, rfl, rfl, rfl, rfl, by decide +kernel, rfl⟩, rfl, by decide +kernel, ⟨by decide +kernel, by decide +kernel, rfl, rfl, .inl rfl⟩,
   rfl, ⟨rfl, rfl, rfl, rfl, rfl, rfl, by decide +kernel, rfl⟩, by decide +kernel, ⟨by decide +kernel, by decide +kernel, rfl, rfl, .inl rfl⟩,
   rfl, rfl, by decide +kernel⟩

/-- Obligations.OrderingAndFlagsPerform: a fence, a post of the greatest value that is left, and one more. -/
theorem witness_OrderingAndFlagsPerform :
    let f (i : Instr) (v : Word) : State := inL [entOf { capOf i [v] with hs := [] }] [entOf { capOf i [v] with hs := [] }] fun m =>
      { m with buf := { m.buf with flags := [(3, 0xfffffff0)] } }
    let i : Instr := .fpost (short 0) (own 3) 0 (.reg 2)
    let b : Instr := .fence (short 0) 3
    headBoth (mem (f b 0) 0) = some (entOf { capOf b [0] with hs := [] }) ∧ (f b 0).outs = [] ∧
    headBoth (mem (f i 15) 0) = some (entOf { capOf i [15] with hs := [] }) ∧ (own 3).fk = 0 ∧
    (flagVal (f i 15) (.own 0 3)).toNat + (valOfField (.reg 2) [15]).toNat < 2 ^ 32 ∧
    (valOfField (.reg 2) [15]).toNat ≤ (flagVal (f i 15) (.own 0 3)).toNat ∧
    2 ^ 32 ≤ (flagVal (f i 16) (.own 0 3)).toNat + (valOfField (.reg 2) [16]).toNat ∧ vigilArmed (f i 16) 2 = false ∧
    (mem (f i 16) 0).ctl.trap = none ∧ launchSites (f i 16) (bindOf (f i 16) 0).launch = [0] :=
  ⟨rfl, rfl, rfl, rfl, by decide +kernel, by decide +kernel, by decide +kernel, by decide +kernel, rfl, by decide +kernel⟩

/-- Obligations.TileSlots: the last slots of AB, empty for `tfill`, full for `tdrain`. -/
theorem witness_TileSlots :
    let a : LMem := { msk := 0, as := 2, hn := 0, o := 3, imm := 0 }
    let i : Instr := .tfill (short 0) a 4 0
    let j : Instr := .tdrain (short 0) a 1
    let c : Cap := { capOf i [2093056] with hs := [], vs := [.now (plain [])] }
    let d : Cap := { capOf j [2095104] with hs := [] }
    let s := inL [] [entOf c]
    let t := inL [entOf d] [entOf d] fun m => { m with buf := { m.buf with abFull := [(1023, true)] } }
    storeReady c = .go ([2093056], [[]]) 0 ∧ spanOk i (some 0) 0 [2093056] [[]] = true ∧ headStore (mem s 0) = some (entOf c) ∧
    slotReady (mem s 0) 2 1022 false = true ∧ slotReady (mem s 0) 2 1023 false = true ∧ lmOff a 2093056 / 2048 = 1022 ∧
    (∀ i, i < 128 → rankOk (mem s 0) 2 (2093056 + 32 * i) 1 = true) ∧
    storeReady d = .go ([2095104], []) 0 ∧ spanOk j (some 0) 0 [2095104] [] = true ∧ headBoth (mem t 0) = some (entOf d) ∧
    slotReady (mem t 0) 2 1023 true = true :=
  ⟨rfl, by decide +kernel, rfl, by decide +kernel, by decide +kernel, by decide +kernel, by decide +kernel, rfl, by decide +kernel, rfl,
   by decide +kernel⟩

/-- Obligations.Pins: granted, and refused for a context without a quota; `unpin`. -/
theorem witness_Pins :
    let i : Instr := .pin (short 0) lm1 2
    let u : Instr := .unpin (short 0) lm1 2
    let s := inL [] [entOf (capOf i [2, 0])] fun m => { m with l := { m.l with ordC := [4] } }
    let none_ : State := { s with quotas := [(0, { Quota.reset with pinq := 0 })] }
    let here : State := { s with l2 := (pinLines page1 (lmOff lm1 0) 2).map fun pa => (setKey pa,
      [{ tag := tagOfPa pa, zero := false, valid := 1, dirty := 0, way := true, pins := [] }]) }
    headStore (mem s 0) = some (entOf (capOf i [2, 0])) ∧ storeReady (capOf i [2, 0]) = .go ([2, 0], []) page1 ∧
    spanOk i (some page1) 0 [2, 0] [] = true ∧ hValid page1 = true ∧ hRead page1 = true ∧ (mem here 0).l.ordC.head? = some 4 ∧ headStore (mem here 0) = some (entOf (capOf i [2, 0])) ∧
    judgePins here (siteCtx here 0) (pinLines page1 (lmOff lm1 0) 2) = .granted ∧
    nextFetch here (pinLines page1 (lmOff lm1 0) 2) (entOf (capOf i [2, 0])).left = none ∧ (entOf (capOf i [2, 0])).begun = false ∧
    judgePins none_ (siteCtx none_ 0) (pinLines page1 (lmOff lm1 0) 2) = .refused ∧
    headStore (mem (inL [] [entOf (capOf u [2, 0])]) 0) = some (entOf (capOf u [2, 0])) ∧ spanOk u (some page1) 0 [2, 0] [] = true :=
  ⟨rfl, rfl, by decide +kernel, by decide +kernel, by decide +kernel, rfl, rfl, by decide +kernel, by decide +kernel, rfl,
   by decide +kernel, rfl, by decide +kernel⟩

/-- Context 0 with a page at address 0 that its tables map to 65536, readable, writable, for atomics. -/
def mapped (s : State) : State :=
  { s with ctxs := [(0, { func := 0, key := 0, gen := 0, root := 2, v := true })]
           dmem := setBytes (setBytes (setBytes s.dmem 0x20000 (leBytes 8 0x30001)) 0x30000 (leBytes 8 0x40001)) 0x40000 (leBytes 8 0x1003b) }

/-- An outcome of `exec` that is a next state with a property. -/
theorem nexts {o : Host.Outcome State Fault Refusal} {p : State → Bool}
    (h : (match o with | .next u => p u | _ => false) = true) : ∃ u, o = .next u ∧ p u = true := by
  cases o <;> simp_all

/-- An outcome of `exec` that is not the state given. -/
theorem differs {o : Host.Outcome State Fault Refusal} {s : State}
    (h : (match o with | .next u => decide (u = s) | _ => false) = false) : o ≠ .next s := by
  rintro rfl
  simp at h

/-- Obligations.RemoteStoresAndMass: the last chunk of an `rst`, and the last slot of an `amass`. -/
theorem witness_RemoteStoresAndMass :
    let i : Instr := .rst (short 0) 4 3 0 0 true 7
    let e : LEnt := { entOf { capOf i [0] with hs := [], vs := [.now (plain [])] } with begun := true, left := [127] }
    let s := inL [] [e] fun m => { m with buf := { m.buf with armed := [(7, true)] } }
    let a : Instr := .amass (short 0) 0 1 3 0
    let g : LEnt := { entOf { capOf a [] with vs := [.now (plain [])] } with begun := true, left := [63] }
    headStore (mem s 0) = some e ∧ storeReady e.cap = .go ([0], [[]]) 0 ∧ spanOk i none 0 [0] [[]] = true ∧ rstSite i = 0 ∧
    reachable s 0 0 = true ∧ rankOk (mem s 0) 2 4064 7 = true ∧ tget false (mem s 0).buf.armed 7 = true ∧
    (flagVal s (.own 0 7)).toNat + 1 < 2 ^ 32 ∧ tget [] s.accs (bufLoc 0 2 4064 / 32) = [] ∧
    headBoth (mem (inL [g] [g]) 0) = some g ∧ hPend page1 = false ∧ hBig page1 = false ∧ hAddr page1 .a (32768 + 12 * 63) 4 = .ok 99060 ∧
    Undisturbed (inL [g] [g]) (siteCtx (inL [g] [g]) 0) (hKeyIdx page1) 99060 :=
  ⟨rfl, rfl, by decide +kernel, rfl, by decide +kernel, by decide +kernel, rfl, by decide +kernel, rfl, rfl, by decide +kernel,
   by decide +kernel, by decide +kernel, ⟨by decide +kernel, by decide +kernel, rfl, rfl, .inl rfl⟩⟩

/-- Obligations.DeferredAndWaitingWork: held entries resolved for and against, a reissue, a refill. -/
theorem witness_DeferredAndWaitingWork :
    let i : Instr := .sst (short 0) lm1 2 3
    let held (o : Bool) : Cap := { capOf i [5, 0] with lit := some (1, true), out := [(1, o)] }
    let j : Instr := .sld (short 0) lm1 3 false
    let d : LEnt := entOf { capOf j [8] with tok := some 9 }
    let s := inL [] [] fun m => { m with l := { m.l with defer := [(d, true)] } }
    let x : Replay := { site := 0, src := .l, seq := 4, va := 0 }
    let u := mapped (inL [entOf (capOf j [8])] [] fun m => { m with l := { m.l with halts := [4] } })
    let r : State := { u with replays := [x] }
    (heldResolved (held true) = true ∧ heldHolds (held true) = true ∧ capPoison (held true) = none ∧ checkNow (held true) = true ∧
      (lQueues i).2 = true) ∧
    (heldResolved (held false) = true ∧ heldHolds (held false) = false ∧ (held false).tok = none) ∧
    (mem s 0).l.defer.find? (fun x => x.1.cap.seq == 4 && x.2) = some (d, true) ∧ Entry d j [8] 1 page1 ∧
    hAddr page1 .r (lmOff lm1 8) 8 = .ok 65544 ∧ Undisturbed s (siteCtx s 0) (hKeyIdx page1) 65544 ∧
    r.replays.find? (fun r => r.site == 0 && r.src == .l) = some x ∧
    ((mem r 0).l.lq ++ (mem r 0).l.sq).find? (fun e => e.cap.seq == x.seq) = some (entOf (capOf j [8])) ∧ x.seq ∈ (mem r 0).l.halts ∧
    hValid (translate r (siteCtx r 0) (hVa (capHandle (capOf j [8])))) = true ∧ migrating r (siteCtx r 0) x.va.toNat = false ∧
    (let w : State := { inL [] [] (withS [(4, { alts := plain 0, pend := some 9 })]) with dmem := setBytes [] 65544 [1] }
     (mem w 0).fly.landed = [] ∧ (sCell (mem w 0) 4).pend = some 9 ∧ extended false 8 (numAt w.dmem 65544 8) ≠ 0) :=
  ⟨⟨rfl, rfl, rfl, by decide +kernel, rfl⟩, ⟨rfl, rfl, rfl⟩, rfl, ⟨rfl, rfl, rfl, rfl, rfl, rfl, by decide +kernel, rfl⟩, by decide +kernel,
   ⟨by decide +kernel, by decide +kernel, rfl, rfl, .inl rfl⟩, rfl, rfl, .head _, by decide +kernel, rfl, rfl, rfl, by decide +kernel⟩

/-- A command in flight with its operands. -/
def flyOf (i : Instr) (regs : List Word) (ph : Nat) : Fly :=
  { cap := { capOf i regs with q := .e }, idx := 0, entry := 0, fromChain := false, regs := regs, hs := [(1, page1), (2, page1)], wr := [],
    ops := [], got := [], ph := ph, aux := [], fail := none, req := [], pages := [], agent := 7, undone := 0 }

/-- A member with a command in flight in a stream. -/
def flying (e : Nat) (f : Fly) (g : Stream → Stream := id) : State :=
  inL [] [] fun m => { m with eng := [(e, g { Stream.t0 with fly := [f] })] }

/-- The same statement's waiting commands and lookup cores. -/
theorem witness_WaitingWork :
    let f := { flyOf (.cpy (ecmd 0) copyOf) [0, 0, 32] 1 with ops := [.read 65536 0 4] }
    let i : Instr := .lsend (short 0) 2 0 0 0
    let s := onLookup i fun c => { c with send := some (0, 1023) }
    (mem (flying 0 f) 0).ctl.life = .running ∧ (streamOf (mem (flying 0 f) 0) 0).fly = [f] ∧
    flyStep (flying 0 f) 0 0 f ≠ flying 0 f ∧ (lookupCore s 0).send = some (0, 1023) ∧ slotReady (mem s 0) 2 1023 false = true ∧
    (∀ i, i < 64 → rankOk (mem s 0) 2 (2048 * 1023 + 32 * i) 6 = true) ∧ (∀ p ∈ s.lookups, p.1 < 0 → p.2.send ≠ some (0, 1023)) ∧
    (lookupCore s 0).fetch.lanes = [lnOf .c i] ∧ (∀ i, i < 64 → tget [] s.accs (bufLoc 0 2 (2048 * 1023 + 32 * i) / 32) = []) :=
  ⟨rfl, rfl, by decide +kernel, rfl, by decide +kernel, by decide +kernel, fun _ _ h => absurd h (Nat.not_lt_zero _), rfl, fun _ _ => rfl⟩

/-- Obligations.CommandsAndChains: a link word of a running chain. -/
theorem witness_LinkWord :
    let f := flyOf (.kick (ecmd 0) 2 0) [16, 0] 2
    let ch : Chain := { next := 0, argt := 0, kidx := 0, entry := 3, hs := [], cur := none }
    let s : State := { flying 0 f (fun x => { x with chain := some ch }) with cur := .chain 0 0 }
    s.cur = .chain 0 0 ∧ (streamOf (mem s 0) 0).chain = some ch ∧ (streamOf (mem s 0) 0).fly.find? (fun f => isKick f.cap.ins) = some f :=
  ⟨rfl, rfl, rfl⟩

/-- Obligations.FetchAndFreezes: the first and the last line of TEXT, for each agent; a stamp and a deadline that are over. -/
theorem witness_FetchAndFreezes :
    let g (pc : Nat) : Fetch := { Fetch.none with pc := pc, stop := false }
    let has (s : State) (w : Who) : Bool :=
      fetches s w && match nextLine s w with
        | some (_, new) => (match w with | .mem n => roomFor (mem s n) new | _ => true)
        | none => false
    let s (pc : Nat) : State := imaged (onMem .c (.nop (short 0)) fun m => { m with ctl := { m.ctl with fetch := g pc } })
    let h : State := imaged (onHandler (.nop (short 0)) fun m => { m with ui := { m.ui with fetch := g 128 } })
    let k : State := imaged (onLookup (.nop (short 0)) fun c => { c with fetch := g 128, hold := some (.stamp 0) })
    let z : State := onMem .c (.nop (short 0)) fun m => { m with ctl := { m.ctl with frz := some (.stamp 0) } }
    has (s 128) (.mem 0) = true ∧ has (s 2144) (.mem 0) = true ∧ has h (.hnd 0) = true ∧ has k (.lk 0) = true ∧
    (mem z 0).ctl.life ≠ .retired ∧ lRuns (mem z 0) = true ∧ (mem z 0).ctl.frz = some (.stamp 0) ∧ holdOver z 0 (.stamp 0) = true ∧
    (lookupCore k 0).hold = some (.stamp 0) ∧ holdOverL k 0 (.stamp 0) = true :=
  ⟨by decide +kernel, by decide +kernel, by decide +kernel, by decide +kernel, by decide, rfl, rfl, by decide +kernel, rfl, by decide +kernel⟩

/-- A write of 5 on its way. -/
def onWay (r : SReg) : SWrite := { reg := r, res := plain 5, lit := none, out := [], due := 0, q := .c, seq := 0, addr := 132 }

/-- A landing of this tick. -/
def landing (v : LandVal) : Land := { tok := 4, due := 0, val := v, lit := none, out := [], q := .c, addr := 132 }

/-- A member with landings. -/
def lands (l : List Land) (f : Member → Member := id) : State :=
  onMem .c (.nop (short 0)) fun m => f { m with fly := { m.fly with lands := l } }

/-- Obligations.ValuesLand. -/
theorem witness_ValuesLand :
    let nop : Instr := .nop (short 0)
    let s := onMem .c nop fun m => { m with fly := { m.fly with sw := [onWay 4] } }
    let h (r : SReg) : State := onHandler nop fun m => { m with ui := { m.ui with fly := [onWay r] } }
    let k : State := onLookup nop fun c => { c with fly := [onWay 4] }
    let c : State := onMem .c nop fun m => { m with fly := { m.fly with rtc := [(0, [255])] } }
    let q : State := onMem .c nop fun m => { m with grd := { m.grd with slots := [(1, { src := some (.reg (.now (plain 0))), kept := true, due := none })] } }
    let t : State := { onMem .c nop (fun m => { m with spr := { m.spr with traceCtl := 5 } }) with
      traceTab := [(0, { LogRing.reset with en := true })], phase := .fin }
    ((mem s 0).ctl.fin = false ∧ cycleRuns (mem s 0) = true ∧ (mem s 0).fly.waves = [] ∧ (mem s 0).fly.slw = [] ∧ (mem s 0).fly.spr = [] ∧
      (mem s 0).fly.sw = [onWay 4] ∧ (onWay 4).due ≤ (mem s 0).ctl.gc ∧ (mem s 0).fly.landed = []) ∧
    (∀ r : SReg, uiTimed (mem (h r) 0) = true ∧ (mem (h r) 0).ui.fly = [onWay r] ∧
      (onWay r).due ≤ (mem (h r) 0).ui.cyc) ∧
    ((lookupCore k 0).run = true ∧ (lookupCore k 0).hold = none ∧ (lookupCore k 0).halted = false ∧ (lookupCore k 0).lands = [] ∧
      (lookupCore k 0).fly = [onWay 4] ∧ (onWay 4).due ≤ (lookupCore k 0).cyc) ∧
    landOf (mem (lands [landing (.s (plain 5))]) 0) 4 = some (landing (.s (plain 5))) ∧
    (landOf (mem (lands [landing (.flag (.own 0 3))] fun m => { m with buf := { m.buf with flags := [(3, 6)] } }) 0) 4 =
      some (landing (.flag (.own 0 3))) ∧ (flagVal (lands [landing (.flag (.own 0 3))] fun m => { m with buf := { m.buf with flags := [(3, 6)] } })
        (.own 0 3)).setWidth 64 = (6 : Word)) ∧
    (mem (lands [landing (.xlat 1 (.now (plain 9)) 0 false 0)]) 0).fly.lands = [landing (.xlat 1 (.now (plain 9)) 0 false 0)] ∧
    landOf (mem (lands [landing (.pcread 3 0 (plain [0]) 0)]) 0) 4 = some (landing (.pcread 3 0 (plain [0]) 0)) ∧
    (columnsRun (mem c 0) = true ∧ (mem c 0).fly.rtc = [(0, [255])] ∧ 0 ≤ (mem c 0).ctl.gc) ∧
    (slotOutcome q 0 (slotOf (mem q 0) 1) = some false ∧ twf SCell.zero (mem q 0).regs.s = true) ∧
    (isBound (mem t 0) = true ∧ traceOn t 0 2 = true ∧ (tget TraceSt.reset t.traceSt 0).sampled = false ∧ t.phase = .fin ∧
      t.cal % 2 ^ (10 + (mem t 0).spr.traceCtl.toNat / 2 ^ 12 % 16) = 0) :=
  ⟨⟨rfl, rfl, rfl, rfl, rfl, rfl, by decide, rfl⟩, fun _ => ⟨rfl, rfl, by simp [onWay]⟩,
   ⟨rfl, rfl, rfl, rfl, rfl, by decide⟩, rfl, ⟨rfl, by decide +kernel⟩, rfl, rfl, ⟨rfl, rfl, by decide⟩, ⟨by decide +kernel, rfl⟩,
   ⟨rfl, by decide +kernel, rfl, rfl, by decide +kernel⟩⟩

/-- Obligations.MatrixTicks. -/
theorem witness_MatrixTicks :
    let i : Instr := .mmac (short 0) 0 0 1 3 0
    let o (m : Member) : MatOp := { newOp m i 132 0 (aReg m 0) (aReg m 1) [(1, 0), (2, 0)] with stop := 0 }
    let s := onM i fun m => { m with mat := { m.mat with ops := [o m], cbw := [(0, [(262140, 7)])] } }
    let w := onM i fun m => { m with mat := { m.mat with sub := [(15, { SubArray.t0 with waking := some 0 })] } }
    let z := onM i fun m => { m with ctl := { m.ctl with gc := 4096, sleep := 4096 } }
    (columnsRun (mem s 0) = true ∧ (mem s 0).mat.cbw = [(0, [(262140, 7)])] ∧ 0 ≤ (mem s 0).ctl.gc ∧
      tget 0 (mem s 0).buf.order (badKey 3 262140) ≤ 2) ∧
    (∃ o : MatOp, (mem s 0).mat.ops = [o] ∧ o.ins = i ∧ o.stop ≤ (mem s 0).ctl.gc ∧ o.rels = [(1, 0), (2, 0)]) ∧
    ((subOf (mem w 0) 15).waking = some 0 ∧ 0 ≤ w.cal) ∧
    (groupRuns (mem z 0) = true ∧ (mem z 0).ctl.sleep ≠ 0 ∧ (subOf (mem z 0) 15).asleep = false ∧
      (subOf (mem z 0) 15).idle + (mem z 0).ctl.sleep ≤ (mem z 0).ctl.gc) :=
  ⟨⟨rfl, rfl, by decide, by decide +kernel⟩, ⟨_, rfl, rfl, by decide, rfl⟩, ⟨rfl, by decide⟩, ⟨rfl, by decide, rfl, by decide +kernel⟩⟩

/-- A member at the end of the last line of a phase of a record. -/
def atEnd (r : RecRun) (line gc : Nat) : State :=
  onMem .c (.nop (short 0)) fun m => { m with ctl := { m.ctl with
    gc := gc, fetch := { Fetch.none with rcd := some r, steps := [r], line := some line } } }

/-- A member whose fetch has gone on to the next phase of its record. -/
def ahead (r : RecRun) (gc : Nat) : State :=
  onMem .c (.nop (short 0)) fun m => { m with ctl := { m.ctl with
    gc := gc, fetch := { Fetch.none with rcd := some (nextStep r), steps := [r, nextStep r] } } }

/-- Obligations.MembersGoOn. -/
theorem witness_MembersGoOn :
    let nop : Instr := .nop (short 0)
    let u := imaged (onMem .c nop fun m => { m with spr := { m.spr with uien := true, uiVector := 128 }, ui := { m.ui with reqs := [7] } })
    let u : State := { u with dmem := setBytes u.dmem 128 [1] }
    let life (x : Life) : State := onMem .c nop fun m => { m with ctl := { m.ctl with life := x, fetch := { m.ctl.fetch with lanes := [] } } }
    let dbg (x : DbgState) : State := onMem .c nop fun m => { m with ctl := { m.ctl with dbg := x } }
    let rp : RecRun := { rec1 with phase := .pro, pro := (160, 192), j := 0 }
    let rk : RecRun := { rec1 with ker := (224, 224) }
    let re : RecRun := { rec1 with phase := .epi, epi := (256, 256) }
    let rb : RecRun := { rk with loopBad := true }
    let rl : RecRun := { rk with fin := 101 }
    let over_ (s : State) (r : RecRun) : Prop := phaseOver (mem s 0) = some (r, []) ∧ groupRuns (mem s 0) = true ∧
      max r.zero r.fin ≤ (mem s 0).ctl.gc
    let quiet (s : State) : Prop := vigilArmed s 2 = false ∧ (mem s 0).ctl.trap = none ∧ launchSites s (bindOf s 0).launch = [0]
    let b : State := { onMem .c nop with slotTable := [(0, { Bind.reset with launch := 1, state := 2, mode := 4 })] }
    (canEnter (mem u 0) = true ∧ lkEntryOk (updMem u 0 enterUi) 0 (mem u 0).spr.uiVector.toNat = true) ∧
    ((mem (life .parking) 0).ctl.life = .parking ∧ canPark (mem (life .parking) 0) = true) ∧
    (over_ (atEnd rp 192 9) rp ∧ (mem (atEnd rp 192 9) 0).ctl.fetch.steps = [rp] ∧ over_ (ahead rp 9) rp ∧
      (mem (ahead rp 9) 0).ctl.fetch.steps = [rp, nextStep rp]) ∧
    (over_ (atEnd rk 224 100) rk ∧ rk.loopBad = false ∧ max rk.zero rk.fin ≤ rk.zero + rk.longest ∧ rk.yieldint = 0 ∧
      rk.yieldAsked = false ∧ (mem (atEnd rk 224 100) 0).ctl.dbg = .run ∧ over_ (ahead rk 100) rk ∧
      (mem (ahead rk 100) 0).ctl.fetch.steps = [rk, nextStep rk]) ∧
    (over_ (atEnd rb 224 9) rb ∧ rb.loopBad = true ∧ quiet (atEnd rb 224 9)) ∧
    (over_ (atEnd rl 224 101) rl ∧ rl.zero + rl.longest < max rl.zero rl.fin ∧ quiet (atEnd rl 224 101)) ∧
    over_ (atEnd re 256 9) re ∧
    (runRcd (mem (atEnd rk 160 100) 0) = some rk ∧ groupRuns (mem (atEnd rk 160 100) 0) = true ∧ phaseOver (mem (atEnd rk 160 100) 0) = none ∧
      rk.zero + rk.longest ≤ (mem (atEnd rk 160 100) 0).ctl.gc ∧ quiet (atEnd rk 160 100)) ∧
    (canRetire (mem (life .halted) 0) = true ∧ launchSites (life .halted) (bindOf (life .halted) 0).launch = [0]) ∧
    (breakOn b 0 = true ∧ isBound (mem b 0) = true ∧ (mem b 0).ctl.dbg = .run) ∧ (mem (dbg (.stopped 2)) 0).ctl.dbg = .stopped 2 :=
  ⟨⟨by decide +kernel, by decide +kernel⟩, ⟨rfl, by decide +kernel⟩,
   ⟨⟨by decide +kernel, rfl, by decide +kernel⟩, rfl, ⟨by decide +kernel, rfl, by decide +kernel⟩, rfl⟩,
   ⟨⟨by decide +kernel, rfl, by decide +kernel⟩, rfl, by decide +kernel, rfl, rfl, rfl, ⟨by decide +kernel, rfl, by decide +kernel⟩, rfl⟩,
   ⟨⟨by decide +kernel, rfl, by decide +kernel⟩, rfl, by decide +kernel, rfl, by decide +kernel⟩,
   ⟨⟨by decide +kernel, rfl, by decide +kernel⟩, by decide +kernel, by decide +kernel, rfl, by decide +kernel⟩,
   ⟨by decide +kernel, rfl, by decide +kernel⟩,
   ⟨rfl, rfl, by decide +kernel, by decide +kernel, by decide +kernel, rfl, by decide +kernel⟩,
   ⟨by decide +kernel, by decide +kernel⟩, ⟨by decide +kernel, rfl, rfl⟩, rfl⟩

/-- Of three sites of a die one is enabled. -/
theorem enabled_site : ∃ n, n < 3 ∧ siteEnabled n = true := by
  have h0 : ∀ a b : Fin 40, ∃ n : Fin 3, n.val ≠ dieSite 0 a.val ∧ n.val ≠ dieSite 0 (if b.val = a.val then (b.val + 1) % 40 else b.val) := by
    decide +kernel
  have h1 : ∀ d : Fin 3, ∀ a b : Fin 40, 3 ≤ dieSite (d.val + 1) a.val ∧
      3 ≤ dieSite (d.val + 1) (if b.val = a.val then (b.val + 1) % 40 else b.val) := by decide +kernel
  obtain ⟨n, ha, hb⟩ := h0 (Config.disabledPick (Fin.ofNat 8 0)) (Config.disabledPick (Fin.ofNat 8 1))
  have p1 := h1 0 (Config.disabledPick (Fin.ofNat 8 2)) (Config.disabledPick (Fin.ofNat 8 3))
  have p2 := h1 1 (Config.disabledPick (Fin.ofNat 8 4)) (Config.disabledPick (Fin.ofNat 8 5))
  have p3 := h1 2 (Config.disabledPick (Fin.ofNat 8 6)) (Config.disabledPick (Fin.ofNat 8 7))
  have k : n.val ∉ disabledSites := by
    show n.val ∉ [_, _, _, _, _, _, _, _]
    simp only [List.mem_cons, List.not_mem_nil, or_false, not_or]
    exact ⟨ha, hb, fun e => absurd (e ▸ p1.1) (by omega), fun e => absurd (e ▸ p1.2) (by omega), fun e => absurd (e ▸ p2.1) (by omega),
      fun e => absurd (e ▸ p2.2) (by omega), fun e => absurd (e ▸ p3.1) (by omega), fun e => absurd (e ▸ p3.2) (by omega)⟩
  exact ⟨n, n.isLt, by simp [siteEnabled, k]; omega⟩
/-- Obligations.EngineCommands: a command that starts, with a token and without. -/
theorem witness_EngineStarts :
    let c : Cap := { capOf (.cpy (ecmd 0) copyOf) [0, 0, 32] with hs := [(2, .now page1), (1, .now page1)] }
    let k : FlagTok := { dev := false, n := 2 }
    let d : Cap := { c with ins := .cpy { ecmd 0 with c0 := some k } copyOf }
    let s (c : Cap) : State := inL [] [] fun m => { m with eng := [(0, { Stream.t0 with queue := [c] })], buf := { m.buf with flags := [(2, 1)] } }
    stampDue (s c) 0 0 = none ∧ (s c).phase ≠ .start ∧ readyCmd (mem (s c) 0) 0 = some (c, false) ∧ stampOf c = none ∧ cmdTokens c.ins = [] ∧
    stampDue (s d) 0 0 = none ∧ readyCmd (mem (s d) 0) 0 = some (d, false) ∧ stampOf d = none ∧ cmdTokens d.ins = [k] ∧ d.taken = 0 ∧
    d.since = none ∧ flagVal (s d) (tokKey 0 k) ≠ 0 :=
  ⟨rfl, by decide, rfl, rfl, rfl, rfl, rfl, rfl, rfl, rfl, rfl, by decide +kernel⟩

/-- The same statement's commands that complete, fail and start again. -/
theorem witness_EngineEnds :
    let k : FlagTok := { dev := false, n := 2 }
    let f := flyOf (.cpy (ecmd 0) copyOf) [0, 0, 32] donePh
    let g := flyOf (.cpy { ecmd 0 with produce := some k } copyOf) [0, 0, 32] donePh
    let b : Fly := { f with ph := 1, fail := some (.page, 0, 0) }
    let s : State := { flying 0 g with members := (flying 0 g).members.map fun p => (p.1, { p.2 with buf := { p.2.buf with flags := [(2, 0xfffffffe)] } }) }
    let r : State := flying 0 f fun x => { x with fly := [], stopped := some b }
    findFly (flying 0 f) 0 0 0 = some f ∧ mayComplete (streamOf (mem (flying 0 f) 0) 0) f = true ∧ unseen (flying 0 f) (.eng 0 0) (clockOf (flying 0 f) f.agent) = [] ∧
    collOf f.cap.ins = none ∧ cmdOf f.cap.ins = some (ecmd 0) ∧ (ecmd 0).ui = false ∧ (ecmd 0).produce = none ∧
    findFly s 0 0 0 = some g ∧ mayComplete (streamOf (mem s 0) 0) g = true ∧ (flagVal s (tokKey 0 k)).toNat + 1 < 2 ^ 32 ∧
    findFly (flying 0 b) 0 0 0 = some b ∧ lockOwed b = false ∧ (streamOf (mem (flying 0 b) 0) 0).stopped = none ∧
    (streamOf (mem r 0) 0).stopped = some b ∧ (r.replays.any fun x => x.site == 0 && x.src == .stream 0) = false :=
  ⟨rfl, by decide +kernel, rfl, rfl, rfl, rfl, rfl, rfl, by decide +kernel, by decide +kernel, rfl, rfl, rfl, rfl, rfl⟩

/-- The same statement's chunk of a broadcast of one participant. -/
theorem witness_CollChunk :
    let k : Coll := { red := 0, fmt := 0, dg := false, dh := 1, gr := 0, so := 0, ln := 0, do_ := 0, nf := 0, col := 0, row := 0 }
    let f : Fly := { flyOf (.collBroadcast { ecmd 0 with eng := 2 } k) [0, 0, 2048, 2095104, 0] 4 with
      got := setBytes [] 0 (leBytes 2 1 ++ leBytes 1 1 ++ leBytes 1 1 ++ leBytes 4 0 ++ leBytes 4 5 ++ leBytes 52 0 ++ leBytes 4 0) }
    let c (i : Nat) : CollIn := { launch := 1, tag := 5, nth := 0, rank := 0, piece := i, final := false, data := List.replicate 32 9, form := [4, 0, 0, 2048] }
    let s : State := { flying 2 f with collIn := (List.range 64).map c }
    findFly s 0 2 0 = some f ∧ collOf f.cap.ins = some (4, k) ∧ f.aux.getD 2 0 = 0 ∧
    ∃ g l, grpOf s 0 f = some g ∧ 2048 * 0 < grpDest g ∧ destChunk s (bindOf s 0).launch g (nthOf f) 0 = some l ∧
      slotReady (mem s 0) 2 ((regN f 3 + 2048 * 0) / 2048) false = true ∧
      (deliverPieces { engAcc s 0 2 f with clk := joinClock (engAcc s 0 2 f).clk (slotClock s 0 2 ((regN f 3 + 2048 * 0) / 2048)) } 0
        (regN f 3 + 2048 * 0) s 0 l).isSome = true :=
  ⟨rfl, rfl, rfl,
   { nmod := 1, self := 0, root := 0, tag := 5, switch := false, mods := [0], sites := [0], p := 1, rank := 0, kind := 4, red := 0, fmt := 0, ln := 2048 },
   List.replicate 64 (List.replicate 32 9), by decide +kernel, by decide +kernel, by decide +kernel, by decide +kernel, by decide +kernel⟩

/-- The same statement's Harvest command that takes LOCK, and one that drains. -/
theorem witness_Harvest :
    let i : Instr := .hcomp { ecmd 0 with eng := 3 } 1
    let f := flyOf i [] 10
    let d := flyOf i [] 17
    let e : Fly := { d with aux := [1] }
    let h : Fly := { e with got := setBytes [] 8 [1] }
    let held (s : State) (a : Nat) : State := { s with dmem := setBytes s.dmem a [1] }
    let found (x : Fly) : Prop := (streamOf (mem (flying 3 x) 0) 3).fly.find? (fun g => isHarvest g.cap.ins && g.ph == 17) = some x
    (∀ s ∈ [flying 3 f, held (flying 3 f) 65540], (streamOf (mem s 0) 3).fly.find? (fun g => isHarvest g.cap.ins && g.ph == 10) = some f) ∧
    hBase (aptOf f) + 4 = 65540 ∧ 65540 % 32 ≤ 28 ∧ Undisturbed (flying 3 f) (siteCtx (flying 3 f) 0) (hKeyIdx (aptOf f)) 65540 ∧
    numAt (flying 3 f).dmem 65540 4 = 0 ∧ numAt (held (flying 3 f) 65540).dmem 65540 4 ≠ 0 ∧
    found d ∧ found e ∧ found h ∧
    d.aux ≠ [1] ∧ e.aux = [1] ∧ aptNum e (8 + 4 * mapNow e) 4 = 0 ∧ h.aux = [1] ∧ aptNum h (8 + 4 * mapNow h) 4 ≠ 0 :=
  ⟨(fun s hs => by
     rcases hs with _ | ⟨_, _ | ⟨_, hs⟩⟩
     · rfl
     · rfl
     · cases hs),
   by decide +kernel, by decide, ⟨by decide +kernel, by decide +kernel, rfl, rfl, .inl rfl⟩, by decide +kernel,
   by decide +kernel,
   rfl, rfl, rfl, by decide, rfl, by decide +kernel, rfl, by decide +kernel⟩


/-- A launch of one member on a site. -/
def launchOn (n : Nat) (st : LaunchState) : Launch :=
  { id := 1, queue := 0, ctx := 0, func := 0, graph := false, mode := 0, imgVA := 0, doneVA := 0, watchdog := 2 ^ 40, sleep := 4096, barrierVA := 0, bars := []
    sites := [n], coords := [0], rows := 1, cols := 1, state := st, t0 := 0, deadline := 0, status := 1, cause := 0, endTick := 0, owed := true
    order := 0, preempt := none, ts := none, te := none, kept := [], areas := [], clk := [], watts := 0, counts := [] }

/-- An image for a gang given as a list, at virtual address 4096. -/
def listImage (s : State) : State :=
  let s := mapped s
  { s with dmem := setBytes s.dmem 69632 (leBytes 4 0x39584e4f ++ leBytes 2 1 ++ leBytes 2 0 ++ leBytes 2 0x8000 ++ leBytes 2 5 ++ leBytes 52 0 ++
      leBytes 4 1 ++ leBytes 4 160 ++ leBytes 4 32 ++ leBytes 4 0 ++ leBytes 4 3 ++ leBytes 4 192 ++ leBytes 8 0 ++
      leBytes 4 4 ++ leBytes 4 192 ++ leBytes 8 0 ++ leBytes 4 6 ++ leBytes 4 192 ++ leBytes 8 0 ++
      leBytes 4 12 ++ leBytes 4 192 ++ leBytes 4 2 ++ leBytes 4 1 ++ leBytes 32 1) }

/-- A queue whose head record, at 4096, waits. -/
def waiting (rec_ : List Byte) (w : WorkQueue) : State :=
  let s := listImage State.reset
  { s with queues := [(0, { w with base := 1, en := true, tail := 1 })], dmem := setBytes s.dmem 4096 rec_ }

/-- A launch record with the image at 4096; only its first two bytes and IMAGE are not zero. -/
def rec0 (ctx : Nat) : List Byte := leBytes 8 ctx ++ leBytes 8 4096 ++ leBytes 112 0

/-- Obligations.LaunchesBegin: a doorbell that fills its queue, a raise, a record of a context number out of range. -/
theorem witness_LaunchesBegin :
    let s := waiting (rec0 4096) WorkQueue.reset
    let u := { waiting (rec0 0) { WorkQueue.reset with since := some 0, prio := 6 } with cal := 2 ^ 30 + 1 }
    doorbellQueue s 0 0 = some 0 ∧ s.flr.contains 0 = false ∧ (queueOf s 0).en = true ∧ (64 - (queueOf s 0).head).toNat ≤ 2 ^ (queueOf s 0).logn.toNat ∧
    (queueOf u 0).since = some 0 ∧ hasRecord (queueOf u 0) = true ∧ 0 + 2 ^ 30 < u.cal ∧ classOf (queueOf u 0) < 7 ∧
    s.bootStatus = 0xff ∧ (queueOf s 0).func.toNat = s.tenant ∧ hasRecord (queueOf s 0) = true ∧
    windowOf ((queueOf s 0).base.toNat * 4096 + 128 * ((queueOf s 0).head.toNat % 2 ^ (queueOf s 0).logn.toNat)) = .dev ∧
    (launchRec (bytesAt s.dmem 4096 128)).sound = false ∧ mayTake (raiseDue s) 0 = true ∧ anyDebug s = false :=
  ⟨by decide +kernel, rfl, rfl, by decide +kernel, rfl, rfl, by decide +kernel, by decide +kernel, rfl, rfl, rfl, by decide +kernel,
   by decide +kernel, by decide +kernel, rfl⟩

/-- A queue with a sound record. -/
def queued : State := waiting (rec0 0) WorkQueue.reset

/-- The image that it names. -/
def queuedImage : List Byte := bytesAt queued.dmem 69632 194

/-- A placement on a site. -/
def on (n : Nat) : Placement := { sites := [n], imgPA := 131072, argPA := 0, t0 := 131072, sleep := none, watts := 1200, resume := none }

/-- The same statement's launch that is placed: its record and its image pass every check. -/
theorem witness_LaunchImage : let r := launchRec (bytesAt queued.dmem 4096 128)
    recordCause queued (queueOf queued 0) r = none ∧ mayTake (raiseDue queued) 0 = true ∧ queued.queues = (raiseDue queued).queues ∧
    r.nargs = 0 ∧ r.nflag = 0 ∧ r.nbar = 0 ∧ queued.launches = [] ∧
    ∀ n, n < 3 → imageCause queuedImage r (on n) queued.powerCap = none ∧ placeOrigin queuedImage (on n).sites = some n ∧ (on n).imgPA % 32 = 0 := by
  decide +kernel

/-- The same record's image, read for each placement: no copy of it is kept. -/
theorem witness_LaunchImageRead : ∀ n, n < 3 → imageFor (raiseDue queued) (launchRec (bytesAt queued.dmem 4096 128)).ctx
    (launchRec (bytesAt queued.dmem 4096 128)).image (on n) = (.ok (queuedImage, on n, false), queued) := by
  intro n hn
  rcases (by omega : n = 0 ∨ n = 1 ∨ n = 2) with rfl | rfl | rfl <;> decide +kernel

/-- Its site is free. -/
theorem witness_LaunchSite : ∃ n, n < 3 ∧ siteFree queued n = true :=
  enabled_site.imp fun n h => ⟨h.1, by simp only [siteFree, h.2]; rfl⟩

/-- A member that a bind finds, or that loads or waits for T0. -/
def placed (n : Nat) (st : LaunchState) (life : Life) (t0 : Nat) : State :=
  let s := listImage State.reset
  { s with launches := [launchOn n st], slotTable := [(n, { Bind.reset with launch := 1, state := 1, t0 := BitVec.ofNat 64 t0, image := 69632, nargs := 63 })]
           members := [(n, { Member.free with ctl := { Member.free.ctl with life := life } })], dmem := setBytes s.dmem 69638 [1], phase := .start }

/-- A bind of one member. -/
theorem bindOk_one {s : State} {l : Launch} {n : Nat} (ha : armedSites s l.id = [n]) (hc : l.coords.length = 1) (hs : l.sites = [n])
    (he : siteEnabled n = true) (ho : heldByOther s l.id n = false) (ht : s.cal + 65536 ≤ (bindOf s n).t0.toNat) : bindOk s l = true := by
  simp [bindOk, ha, hc, hs, he, ho, ht]

/-- The same statement's binds, loads and T0. -/
theorem witness_LaunchBinds :
    (∃ n, findLaunch (placed n .armed .free 65536) 1 = some (launchOn n .armed) ∧ bindOk (placed n .armed .free 65536) (launchOn n .armed) = true ∧
      numAt (placed n .armed .free 65536).dmem ((bindOf (placed n .armed .free 65536) n).image.toNat + 6) 1 % 2 = 1) ∧
    bindOk (placed 0 .armed .free 65535) (launchOn 0 .armed) = false ∧
    ((mem (placed 0 .bound .loading 0) 0).ctl.life = .loading ∧ (bindOf (placed 0 .bound .loading 0) 0).mode.getLsbD 5 = false ∧
      loadBad (placed 0 .bound .loading 0) 0 = false) ∧
    (findLaunch (placed 0 .bound .loaded 0) 1 = some (launchOn 0 .bound) ∧ startsNow (placed 0 .bound .loaded 0) (launchOn 0 .bound) = true ∧
      (mem (placed 0 .bound .loaded 0) 0).ctl.life = .loaded) := by
  refine ⟨?_, ?_, ⟨rfl, rfl, by decide +kernel⟩, rfl, rfl, rfl⟩
  · obtain ⟨n, hn, hs⟩ := enabled_site
    refine ⟨n, rfl, ?_, ?_⟩
    · rcases (by omega : n = 0 ∨ n = 1 ∨ n = 2) with rfl | rfl | rfl <;>
        exact bindOk_one rfl rfl rfl hs (by decide +kernel) (by decide +kernel)
    · rcases (by omega : n = 0 ∨ n = 1 ∨ n = 2) with rfl | rfl | rfl <;> decide +kernel
  · have k : decide ((placed 0 .armed .free 65535).cal + 65536 ≤
        (bindOf (placed 0 .armed .free 65535) ((armedSites (placed 0 .armed .free 65535) (launchOn 0 .armed).id).headD 0)).t0.toNat) = false := by
      decide +kernel
    simp only [bindOk, k, Bool.and_false]

/-- One member on site 0 of a launch, and the launch as given. -/
def owned (l : Launch) (f : Member → Member := id) : State :=
  { mapped (onMem .c (.nop (short 0)) f) with launches := [l], phase := .start }

/-- Obligations.FaultEnds: the launch that a fault ends. -/
theorem witness_FaultEndsLaunch : let s := owned (launchOn 0 .running)
    findLaunch s (bindOf s 0).launch = some (launchOn 0 .running) ∧ (mem s 0).ctl.trap = none ∧ vigilArmed s 2 = false ∧
    launchSites s (bindOf s 0).launch = [0] := ⟨rfl, rfl, by decide +kernel, by decide +kernel⟩

/-- Obligations.LaunchesEnd. -/
theorem witness_LaunchesEnd :
    let l := launchOn 0 .running
    let s := owned l
    let t := { owned { l with deadline := 1 } with cal := 0 }
    let e : Launch := { launchOn 0 .ended with doneVA := 16 }
    let u : State := { owned (launchOn 0 .ended) with
      launches := [], queues := [(5, { WorkQueue.reset with func := 126, en := true, tail := 1 })], tenantSaves := [(126, some { heads := [], flags := [(3, 4)], bars := [] })] }
    findLaunch s 1 = some l ∧ l.deadline ≤ s.cal ∧ vigilArmed s 3 = false ∧ (t.cal < ({ l with deadline := 1 } : Launch).deadline) ∧
    findLaunch (owned e) 1 = some e ∧ launchWrites (owned e) 1 = [] ∧ anyDebug (owned e) = false ∧ e.doneVA ≠ 0 ∧ e.doneVA.toNat % 32 ≤ 16 ∧
    ctxPa (owned e) 0 16 16 .w = .ok 65552 ∧ windowOf 65552 = .dev ∧ 65552 % 32 = e.doneVA.toNat % 32 ∧
    s.flr.contains 126 = false ∧ ({ s with flr := [126] } : State).flr.contains 126 = true ∧
    s.powerCap * 1050 < 3990001 ∧ newestBound s = some l ∧ 126 ≠ u.tenant ∧ boundOf u u.tenant = [] ∧ switchDue u 126 = true ∧
    tget none u.tenantSaves 126 = some { heads := [], flags := [(3, 4)], bars := [] } :=
  ⟨rfl, by decide, by decide +kernel, by decide, rfl, rfl, by decide +kernel, by decide, by decide, by decide +kernel, by decide +kernel, by decide,
   rfl, rfl, by decide +kernel, rfl, by decide, rfl, by decide +kernel, rfl⟩

/-- An image at 8192 with one record and a graph of one stage that feeds itself. -/
def graphed (s : State) : State :=
  { s with dmem := setBytes s.dmem 8192 (leBytes 10 0 ++ leBytes 2 2 ++ leBytes 52 0 ++
      leBytes 4 4 ++ leBytes 4 128 ++ leBytes 4 64 ++ leBytes 4 1 ++ leBytes 4 10 ++ leBytes 4 192 ++ leBytes 4 80 ++ leBytes 4 1 ++ leBytes 32 0 ++
      leBytes 2 5 ++ leBytes 1 1 ++ leBytes 21 0 ++ leBytes 4 1 ++ leBytes 36 0 ++
      leBytes 2 1 ++ leBytes 2 1 ++ leBytes 28 0 ++ leBytes 32 (5 + 2 ^ 16) ++ leBytes 16 (2 ^ 16 + 2 ^ 32 + 32 * 2 ^ 64 + 2 ^ 96)) }

/-- The graph that it solves to, bound to launch 1, a rebind to itself pending at a tick. -/
def boundGraph (s : State) (at_ : Nat) : Graph :=
  let a : Almanac := match solve s (launchOn 0 .running) 8192 1 0 with
    | .ok a => a
    | .error _ => { stages := [], edges := [], firings := [], period := 0 }
  { launch := 1, alm := a, next := some (a, at_), base := 0, n0 := 0, gen := 65535, areaWord := 0 }

/-- Obligations.GraphsAndSaves: a rebind, its switch, and a request of pre-emption. -/
theorem witness_GraphRebinds :
    let s := graphed (owned (launchOn 0 .running))
    let t : State := { s with graph := some (boundGraph s 0) }
    findLaunch t 1 = some (launchOn 0 .running) ∧ (boundGraph s 0).launch = 1 ∧ sameGraph (boundGraph s 0).alm (graphDesc t 8192) = true ∧
    (match solve t (launchOn 0 .running) 8192 1 (boundGraph s 0).areaWord.toNat with | .ok _ => true | .error _ => false) = true ∧
    (boundGraph s 0).next = some ((boundGraph s 0).alm, 0) ∧ 0 = t.cal ∧ t.phase = .start ∧ preemptIdle t = true ∧ (launchOn 0 .running).preempt = none ∧
    anyDebug t = false ∧ (launchOn 0 .running).state = .running :=
  ⟨rfl, rfl, by decide +kernel, by decide +kernel, by simp only [boundGraph], rfl, rfl, by decide +kernel, rfl,
   by decide +kernel, rfl⟩

/-- The same statement's saves and restores: the first piece of a save, its last, a restore with a RESTORE block. -/
theorem witness_Saves :
    let ctl (x : Life) (f : Ctl → Ctl) (m : Member) : Member := { m with ctl := f { m.ctl with life := x, yrec := some { rec1 with save := (0, 0), restore := (160, 192) } } }
    let p : Launch := { launchOn 0 .running with ts := some 0 }
    let s := owned p (ctl .parked id)
    let v := owned (launchOn 0 .saving) (ctl .saving fun c => { c with saveAt := some 0, saveN := 3, savePos := 2, gc := 3 })
    let r : Launch := { launchOn 0 .bound with areas := [4096] }
    let t := owned r (ctl .loaded id)
    (findLaunch s 1 = some p ∧ p.ts = some s.cal ∧ s.phase = .start ∧ (mem s 0).ctl.life = .parked ∧
      (mem s 0).ctl.yrec = some { rec1 with save := (0, 0), restore := (160, 192) }) ∧
    (findLaunch v 1 = some (launchOn 0 .saving) ∧ (mem v 0).ctl.life = .saving ∧ (mem v 0).ctl.saveAt = some 0 ∧
      (mem v 0).ctl.savePos < (mem v 0).ctl.saveN ∧ 0 + (mem v 0).ctl.savePos + 1 ≤ (mem v 0).ctl.gc ∧
      (mem v 0).ctl.savePos + 1 = (mem v 0).ctl.saveN) ∧
    (findLaunch t 1 = some r ∧ startsNow t r = true ∧ r.areas ≠ [] ∧ (mem t 0).ctl.life = .loaded ∧ t.graph = none ∧
      (mem t 0).ctl.yrec = some { rec1 with save := (0, 0), restore := (160, 192) }) :=
  ⟨⟨rfl, rfl, rfl, rfl, rfl⟩, ⟨rfl, rfl, rfl, by decide, by decide, rfl⟩, ⟨rfl, rfl, by decide, rfl, rfl, rfl⟩⟩

/-- Context 0 mapped, and nothing else since reset. -/
def mapped0 : State := mapped State.reset

/-- Obligations.TranslationIsManaged. -/
theorem witness_TranslationIsManaged :
    let r : Inval := { ctx := 0, va := 0, count := 1, tick := 0, mark := 0 }
    let s := mapped0
    let v : State := { s with inval := some r }
    let g : Mig := { ctx := 0, va := 0, leafPA := 0x40000, leaf := 0x1003b, dst := 0x80000, size := 65536, copied := false, failed := false, ending := false }
    let x : FaultRec := { ctx := 0, func := 0, launch := 1, src := 0, cause := 1, deferred := false, replay := true, status := 0, index := 0, loop := 0,
                          stagep := 0, addr := 0 }
    let p : State := { s with recs := [x], rings := [(0, { Ring.reset with en := true, tail := 63 })] }
    let b : State := { s with ports := [(3, { Port.reset with bucket := [(0, some 16)], pool := 48, waiting := [(0, 4, none)] })] }
    (s.inval = none ∧ siteCtx s 0 = 0 ∧ twf 0 (mem s 0).regs.h = true) ∧ (v.inval = some r ∧ invalOver v r = true ∧ v.invNext = [] ∧
      ({ v with invNext := [(1, 0, 1)] } : State).invNext = (1, 0, 1) :: [] ∧ invalOver { v with invNext := [(1, 0, 1)] } r = true) ∧
    (s.mig = none ∧ leafAt s 0 0 = some (0x40000, 0x1003b) ∧ walk s 0 0 = .ok 65536 false true true true ∧ 0x80000 ≠ 65536 ∧
      0x80000 % 2 ^ 16 = 0 ∧ 0x80000 + 2 ^ 16 ≤ 2 ^ 46) ∧
    (({ s with mig := some g } : State).mig = some g ∧
      ∀ i, i < g.size / 32 → windowOf (g.leaf.toNat / 2 ^ 16 % 2 ^ 30 * 2 ^ 16 + 32 * i) = .dev ∧ windowOf (g.dst + 32 * i) = .dev ∧
        tget false s.dbad (g.leaf.toNat / 2 ^ 16 % 2 ^ 30 * 2 ^ 16 / 32 + i) = false) ∧
    (unseen s (.device 0) [] = [] ∧ ({ g with copied := true } : Mig).ending = false ∧ ({ g with failed := true } : Mig).ending = false) ∧
    (p.posted = false ∧ p.recsVf = [] ∧ p.recs = x :: [] ∧ p.recsTerm = [] ∧ (tget Ring.reset p.rings 0).en = true ∧
      ringFull (tget Ring.reset p.rings 0) = false ∧ windowOf 0 = .dev ∧ (tget Ring.reset p.rings 0).base = 0 ∧ anyDebug p = false) ∧
    (nextBorrower b 3 = some (0, 4, none) ∧ 16 * 4 - bucketOf b 3 0 ≤ (portOf b 3).pool) :=
  ⟨⟨rfl, rfl, rfl⟩, ⟨rfl, by decide +kernel, rfl, rfl, by decide +kernel⟩,
   ⟨rfl, by decide +kernel, by decide +kernel, by decide, by decide, by decide⟩,
   ⟨rfl, fun i hi => ⟨by revert i; decide +kernel, by revert i; decide +kernel, rfl⟩⟩, ⟨rfl, rfl, rfl⟩,
   ⟨rfl, rfl, rfl, rfl, rfl, by decide +kernel, by decide +kernel, rfl, rfl⟩, ⟨by decide +kernel, by decide +kernel⟩⟩

/-- A service request of the member at site 0. -/
def svcOf (code : BitVec 16) (args : List Word) (begun : Bool) : SvcReq :=
  { id := 9, site := 0, lookup := none, code := code, args := args, ctx := 0, launch := 1, addr := 132, lt := { loop := 0, iter := 0, stagep := 0 }, begun := begun }

/-- The module with that request, its context mapped. -/
def asked (r : SvcReq) : State := { owned (launchOn 0 .running) with svcs := [r] }

/-- Obligations.Services: NOP, LOG of the last bytes of a page, TIME, and a code outside the table. -/
theorem witness_Services :
    let n := svcOf 0 [0, 0, 0, 0] false
    let l := svcOf 5 [65280, 256, 0, 0] false
    let t := svcOf 4 [0, 0, 0, 65504] false
    let u := svcOf 6 [0, 0, 0, 0] false
    let asks (r : SvcReq) (k : Nat) : Bool := svcAt (asked r) 9 (fun c => c.toNat == k) == some r
    (flagVal (asked n) (.own 0 1023)).toNat + 1 < 2 ^ 32 ∧ svcArg n 3 = 0 ∧ asks n 0 = true ∧
    asks l 5 = true ∧ 1 ≤ svcArg l 1 ∧ svcArg l 1 ≤ 256 ∧ svcArg l 0 % hBytes (translate (asked l) 0 (svcArg l 0)) + svcArg l 1 ≤ hBytes (translate (asked l) 0 (svcArg l 0)) ∧
    ctxRead 0 (svcArg l 0) (svcArg l 1) (asked l) = (.ok (List.replicate 256 0), asked l) ∧
    asks t 4 = true ∧ svcArg t 3 ≠ 0 ∧ svcArg t 3 % 32 = 0 ∧ ctxPa (asked t) 0 (svcArg t 3) 32 .w = .ok 131040 ∧ 131040 % 32 = 0 ∧
    windowOf 131040 = .dev ∧ anyDebug (asked t) = false ∧ (mem (asked u) 0).ctl.trap = none ∧ svcAt (asked u) 9 (fun c => decide (5 < c.toNat)) = some u ∧ u.lookup = none ∧ vigilArmed (asked u) 2 = false ∧
    launchSites (asked u) (bindOf (asked u) 0).launch = [0] :=
  ⟨by decide +kernel, rfl, by decide +kernel, by decide +kernel, by decide +kernel, by decide +kernel, by decide +kernel, by decide +kernel,
   by decide +kernel, by decide, by decide +kernel, by decide +kernel, by decide, by decide +kernel, by decide +kernel, rfl, rfl, rfl,
   by decide +kernel, by decide +kernel⟩

/-- The same statement's MAP, UNMAP and PROTECT. -/
theorem witness_ServicesOfPages :
    let m := svcOf 1 [65536, 1, 7, 0] false
    let p (code : BitVec 16) (b : Bool) : SvcReq := svcOf code [0, 1, 1, 0] b
    let asks (r : SvcReq) (k : Nat) : Bool := svcAt (asked r) 9 (fun c => c.toNat == k) == some r
    asks m 1 = true ∧ svcRangeOk m = true ∧ permsOk m = true ∧ ([0x80000] : List Nat).all frameOk = true ∧
    (mapPages ((ctxOf (asked m) 0).root.toNat * 2 ^ 16) 7 [(65536, 0x80000)] [] (asked m)).isSome = true ∧
    asks (p 2 true) 2 = true ∧ asks (p 3 true) 3 = true ∧ (asked (p 2 true)).inval = none ∧ asks (p 2 false) 2 = true ∧ asks (p 3 false) 3 = true ∧
    svcRangeOk (p 2 false) = true ∧ noBig (asked (p 2 false)) (p 2 false) = true ∧ noBig (asked (p 3 false)) (p 3 false) = true ∧
    permsOk (p 3 false) = true ∧ svcArg (p 3 false) 1 = 1 ∧ leafAt (asked (p 3 false)) 0 0 = some (0x40000, 0x1003b) :=
  ⟨by decide +kernel, by decide +kernel, by decide +kernel, by decide +kernel, by decide +kernel, by decide +kernel, by decide +kernel, rfl,
   by decide +kernel, by decide +kernel, by decide +kernel, by decide +kernel, by decide +kernel, by decide +kernel, rfl, by decide +kernel⟩

/-- Obligations.SecurityAndLinks and ManagementWrites. -/
theorem witness_SecurityAndLinks :
    let s : State := { State.reset with vigil := 1 }
    let a : State := { State.reset with vigil := 0x211 }
    let l := launchOn 0 .running
    s.vigil.toNat % 2 = 1 ∧ vigilActive s = false ∧ vigilActive a = true ∧ a.halted = false ∧ dirtySectors a = [] ∧
    (∀ l' ∈ (owned l).launches, launchBound l' = true → (ctxOf (owned l) l'.ctx.toNat).key.toNat ≠ 2047) ∧
    (∀ l' ∈ s.launches, l'.state = .ended) ∧ (∃ l' ∈ (owned l).launches, l'.state ≠ .ended) ∧ tget false s.linkDown 11 = false ∧
    clocksStand s = false ∧ (bindOf s 159).state ≠ 2 ∧ (∀ l' ∈ s.launches, launchBound l' = false) := by
  refine ⟨by decide, by decide, by decide, rfl, rfl, ?_, nofun, ⟨_, .head _, by decide⟩, rfl, by decide +kernel, by decide, nofun⟩
  decide +kernel

/-- A flit of module 3 for this one, whose grant map lets it through. -/
def flitOf (opc : BitVec 8) (addr : BitVec 40) (data : List Byte) : Flit :=
  { opc := opc, len := BitVec.ofNat 8 (data.length / 32), smod := 3, dmod := 0, tag := 5, addr := addr, sts := 0, zero := 0, data := data }

/-- The module that grants it, with a collective under way at site 0 and a request of its own outside. -/
def granting : State :=
  let s := owned (launchOn 0 .running)
  let r : OutReq := { tag := 5, who := .device 0, seq := 0, piece := 0, host := false, write := false, atomic := false, flush := false, pa := 0, n := 4
                      data := [], op := 0, port := 0, va := 0, lt := { loop := 0, iter := 0, stagep := 0 }, launch := 1, agent := 0
                      stamp := 0, dmod := 0, func := 0 }
  { s with grants := [(3, true)], outs := [r], collCount := [(9, 1)] }

/-- Obligations.PeerFlits: whole sectors, the last bytes of AB, a flag one below its greatest value, a module without a
grant, and a completion. -/
theorem witness_PeerFlits :
    let s := granting
    let d := List.replicate 32 (1 : Byte)
    let r : Flit := { flitOf 1 65504 [] with len := 1 }
    let b := flitOf 4 2097120 d
    let g := flitOf 5 7 (leBytes 4 0xffffffff ++ List.replicate 28 0)
    let u : State := { s with grants := [] }
    Accepts s r 1 ∧ Accepts s (flitOf 2 65504 d) 2 ∧ (∀ i, i < r.len.toNat → Quiet s (65504 / 32 * 32 + 32 * i)) ∧
    Accepts s (flitOf 3 65504 d) 3 ∧ Quiet s 65504 ∧ 65504 % 8 = 0 ∧ flitTargets s b 9 = true ∧ flitSite b = 0 ∧
    2097120 / 32 % 2 ^ 16 * 32 + b.data.length ≤ bufSize 2 ∧
    (∀ i, i < b.len.toNat → tget [] s.accs (bufLoc 0 2 (2097120 + 32 * i) / 32) = [] ∧ rankOk (mem s 0) 2 (2097120 + 32 * i) 5 = true) ∧
    Accepts s b 4 ∧ Accepts s g 5 ∧ flitTargets s g 9 = true ∧
    (flagVal s (.own 0 7)).toNat + fieldIn g.data 0 4 < 2 ^ 32 ∧ Accepts s (flitOf 6 0 d) 6 ∧ isBound (mem s 0) = true ∧
    Arrives u r 1 ∧ tget false u.grants 3 = false ∧ Arrives s (flitOf 7 0 d) 7 ∧
    ((s.outs.find? fun r => !r.host && r.tag % 65536 == (flitOf 7 0 d).tag.toNat).map OutReq.who) = some (.device 0) :=
  ⟨⟨⟨by decide +kernel, rfl, by decide +kernel, rfl⟩, rfl⟩, ⟨⟨by decide +kernel, rfl, by decide +kernel, rfl⟩, rfl⟩, fun _ _ => ⟨rfl, rfl, rfl⟩,
   ⟨⟨by decide +kernel, rfl, by decide +kernel, rfl⟩, rfl⟩, ⟨rfl, rfl, rfl⟩, by decide, by decide +kernel, by decide +kernel, by decide +kernel,
   fun i hi => ⟨rfl, by revert i; decide +kernel⟩, ⟨⟨by decide +kernel, rfl, by decide +kernel, rfl⟩, rfl⟩,
   ⟨⟨by decide +kernel, rfl, by decide +kernel, rfl⟩, rfl⟩, by decide +kernel, by decide +kernel,
   ⟨⟨by decide +kernel, rfl, by decide +kernel, rfl⟩, rfl⟩, rfl, ⟨by decide +kernel, rfl, by decide +kernel, rfl⟩, rfl,
   ⟨by decide +kernel, rfl, by decide +kernel, rfl⟩, rfl⟩

/-- Obligations.HostAccesses: the last sector of device memory, a doorbell of its function's first queue, an answered read. -/
theorem witness_HostAccesses :
    let s : State := { State.reset with queues := [(0, { WorkQueue.reset with en := true })] }
    let r : OutReq := { tag := 5, who := .l 0, seq := 0, piece := 0, host := true, write := false, atomic := false, flush := true, pa := 0, n := 4
                        data := [], op := 0, port := 0, va := 0, lt := { loop := 0, iter := 0, stagep := 0 }, launch := 1, agent := 0, stamp := 0, dmod := 0, func := 0 }
    let o : State := { s with outs := [r] }
    onlyConfig s = false ∧ (2 ^ 38 - 32) % 32 + 32 ≤ 32 ∧ 2 ^ 38 - 32 + 32 ≤ 2 ^ 38 ∧ Quiet s (2 ^ 38 - 32) ∧ s.flr.contains 0 = false ∧
    doorbellQueue s 0 0 = some 0 ∧ (queueOf s 0).en = true ∧
    (BitVec.ofNat 32 (leNat [1, 0, 0, 0]) - (queueOf s 0).head).toNat ≤ 2 ^ (queueOf s 0).logn.toNat ∧ clocksStand o = false ∧
    (o.outs.find? fun r => r.host && !r.write && r.tag % 16384 == 5) = some r ∧ r.flush = true :=
  ⟨by decide +kernel, by decide, by decide, ⟨rfl, rfl, rfl⟩, rfl, by decide +kernel, rfl, by decide +kernel, by decide +kernel, rfl, rfl⟩

/-- Obligations.RoundTrip: the least and the greatest literal of an `add`. -/
theorem witness_RoundTrip :
    (Instr.add (long 3) 63 63 (.imm (BitVec.ofInt 33 (-512)))).WellFormed ∧ (encode (.add (long 3) 63 63 (.imm (BitVec.ofInt 33 (-512))))).isSome = true ∧
    (Instr.add (long 3) 63 63 (.imm 511)).WellFormed ∧ (encode (.add (long 3) 63 63 (.imm 511))).isSome = true :=
  ⟨by decide +kernel, by decide +kernel, by decide +kernel, by decide +kernel⟩

/-- A line at the first and at the last line of TEXT whose only lane is `add s4, s3, 100`. -/
def withLine (s : State) (pc : Nat) : State := let t := imaged s; { t with dmem := setBytes t.dmem pc (leBytes 4 0x11 ++ leBytes 4 0x001881e4) }
/-- Obligations.StepRunsDecoded: a fetched line. -/
theorem witness_StepFetches : ∀ pc ∈ [128, 2144],
    let s := withLine (onMem .c (.nop (short 0)) fun m => { m with ctl := { m.ctl with fetch := { Fetch.none with pc := pc, stop := false } } }) pc
    let ws := lineAt s (imgOf s (.mem 0)) pc
    (fetchOf s (.mem 0)).stop = false ∧ (fetchOf s (.mem 0)).lanes.length < 56 ∧ settle (fetchOf s (.mem 0)) = some (fetchOf s (.mem 0)) ∧
    (textOf s (imgOf s (.mem 0))).1 ≤ pc ∧ pc + 32 ≤ (textOf s (imgOf s (.mem 0))).2 ∧ pc % 32 = (textOf s (imgOf s (.mem 0))).1 % 32 ∧
    lineBad ws = false ∧ lineBlk (ws.getD 0 0) = true ∧ (fetchOf s (.mem 0)).fmt = none ∧ queueOk (.mem 0) .c = none ∧
    (lineIns ws).map (fun x => (x.lane, x.q, x.ins.toOption)) = [(1, .c, some (.add (short 0) 4 3 (.imm 100)))] := by
  decide +kernel

/-- The same statement's lanes: of a group, picked and first in order, of a handler, of a lookup core; and an event. -/
theorem witness_StepLanes :
    let i : Instr := .add (short 0) 4 3 (.imm 100)
    let s := { onMem .c i with agenda := [] }
    let h : State := { onHandler i (fun m => { m with ctl := { m.ctl with frz := some .ui } }) with agenda := [.agent (.handler 0)] }
    let k : State := { onLookup i with agenda := [.agent (.lookup 0)] }
    clocksStand s = false ∧ s.phase = .issue ∧ groupRuns (mem s 0) = true ∧ dueLane (mem s 0) .c = some (lnOf .c i) ∧ saveBreach (lnOf .c i) = false ∧
    dueQueues (mem s 0) = [.c] ∧ s.agenda = [] ∧ siteList s = [] ++ 0 :: [] ∧ queueTurn 0 .c s = true ∧ laneRun 0 .c s ≠ .next s ∧
    isStalled 0 (laneRun 0 .c s) = false ∧
    (clocksStand h = false ∧ h.phase = .issue ∧ dueHandler (mem h 0) = some (lnOf .c i) ∧ (mem h 0).ui.count < 256) ∧
    (clocksStand k = false ∧ k.phase = .issue ∧ dueLookup (lookupCore k 0) = some (lnOf .c i)) ∧
    mayPick State.reset .alarmLevel1 = true ∧ decodeTable 32 0x001881e4 = some (.c, i) :=
  ⟨by decide +kernel, rfl, rfl, by decide +kernel, rfl, by decide +kernel, rfl, rfl, by decide +kernel, differs (by decide +kernel),
   by decide +kernel, ⟨by decide +kernel, rfl, by decide +kernel, by decide⟩,
   ⟨by decide +kernel, rfl, by decide +kernel⟩, by decide +kernel, by decide +kernel⟩

/-- Obligations.StepKeepsMemory: a step that stores to a memory in its form. -/
theorem witness_StepKeepsMemory :
    let s : State := { State.reset with agenda := [.ev (.hostWrite 0 (.mem 64) [1, 2])] }
    Memory.wf s.dmem = true ∧ ∃ t, step s = .next t ∧ (numAt t.dmem 64 2 == 0x0201 && Memory.wf t.dmem) = true :=
  ⟨rfl, nexts (p := fun t => numAt t.dmem 64 2 == 0x0201 && Memory.wf t.dmem) (by decide +kernel)⟩

/-! ## One step, its result worked out by hand -/

/-- s4 of member 0 as the first write in flight has it. -/
def sent (o : Host.Outcome State Fault Refusal) : Option Word :=
  match o with
  | .next t => ((mem t 0).fly.sw.head?.map SWrite.res).bind single
  | _ => none

/-- R129: a sum wraps. -/
theorem test_add_wraps : sent (exec (.add (short 0) 4 2 (.reg 3)) (onMem .c (.add (short 0) 4 2 (.reg 3))
    (withS [(2, one 0xffffffffffffffff), (3, one 2)]))) = some 1 := by decide +kernel

/-- R131: a division by zero gives all ones, the remainder the dividend. -/
theorem test_div_zero : sent (exec (.div (short 0) 4 2 (.reg 3)) (onMem .c (.div (short 0) 4 2 (.reg 3)) (withS [(2, one 7)]))) =
    some 0xffffffffffffffff := by decide +kernel
theorem test_rem_zero : sent (exec (.rem (short 0) 4 2 (.reg 3)) (onMem .c (.rem (short 0) 4 2 (.reg 3)) (withS [(2, one 7)]))) =
    some 7 := by decide +kernel

/-- R131: the least number divided by -1 is itself, the remainder 0. -/
theorem test_div_least : sent (exec (.div (short 0) 4 2 (.reg 3)) (onMem .c (.div (short 0) 4 2 (.reg 3))
    (withS [(2, one 0x8000000000000000), (3, one 0xffffffffffffffff)]))) = some 0x8000000000000000 := by decide +kernel

/-- R130: an arithmetic shift keeps the sign. -/
theorem test_sra_sign : sent (exec (.sra (short 0) 4 2 (.reg 3)) (onMem .c (.sra (short 0) 4 2 (.reg 3))
    (withS [(2, one 0x8000000000000000), (3, one 63)]))) = some 0xffffffffffffffff := by decide +kernel

/-- R31: a write to s0 is no write. -/
theorem test_s0_discards : (match exec (.add (short 0) 0 2 (.reg 3)) (onMem .c (.add (short 0) 0 2 (.reg 3)) (withS [(2, one 7)])) with
    | .next t => (mem t 0).fly.sw.isEmpty
    | _ => false) = true := by decide +kernel

/-- R134: `add s4, s3, 100` as the manual writes it, run as the first instruction after reset. -/
theorem test_first_instruction : sent (step (State.reset.withFetchWord 32 0x001881e4)) = some 100 := by decide +kernel

/-- FIPS 202, SHAKE256 of the empty message. -/
theorem test_shake256_empty : (shake256 64 []).take 8 = [0x46, 0xb9, 0xdd, 0x2b, 0x0b, 0xa8, 0x8d, 0x13] := by decide +kernel

/-- FIPS 197, C.3: AES-256 of the block 00 11 … ff under the key 00 01 … 1f, and back. -/
def aesBlock : List Byte := (List.range 16).map fun i => BitVec.ofNat 8 (17 * i)
def aesKey : List Byte := (List.range 32).map (BitVec.ofNat 8)
theorem test_aes256 : aesSeal (roundKeys aesKey) aesBlock =
    [0x8e, 0xa2, 0xb7, 0xca, 0x51, 0x67, 0x45, 0xbf, 0xea, 0xfc, 0x49, 0x90, 0x4b, 0x49, 0x60, 0x89] := by decide +kernel
theorem test_aes256_back : aesOpen (roundKeys aesKey) (aesSeal (roundKeys aesKey) aesBlock) = aesBlock := by decide +kernel

/-- The page of `apos` with an uncorrectable chunk of its metadata. -/
def poisonedPage (h : Hd) (f : Member → Member := id) : State :=
  let u := onPage (.apos h 0 1 4)
  { u with members := u.members.map fun p => (p.1, f p.2), dbad := [(3072, true)], quotas := [(0, { Quota.reset with bsize := 0 })] }

/-- Obligations.Attention: undisturbed metadata, and a poisoned chunk of it, under no slot and under an open one. -/
theorem witness_AttentionPoison :
    let g : Hd := { long 0 with gq := true, qs := 1 }
    let u : State := { poisonedPage (short 0) with dbad := [] }
    (∀ i, i < 24 → Undisturbed u (siteCtx u 0) (hKeyIdx page1) (hBase page1 + 32768 + 32 * i)) ∧ handleFault page1 = none ∧
    ∀ h ∈ [short 0, g],
      let s := poisonedPage h (if h.gq then openQ else id)
      (∃ t, linesPoison s page1 [(32768, 768)] = some t) ∧ linesHeld s 0 page1 [(32768, 768)] = none ∧
      curLane s = some (laneM .m (.apos h 0 1 4)) ∧ splitStamp s (laneM .m (.apos h 0 1 4)) 0 = .ok 0 ∧
      (h.gq = false → memAct (mem s 0) h = .always) ∧ (h.gq = true → ∃ x, memAct (mem s 0) h = .lit x) ∧
      needV (mem s 0) [4] = .ok () ∧ (mem s 0).mat.f64 = false ∧ hPend (hReg (mem s 0) 1) = false ∧ (flatV (mem s 0) 4).length ≤ 3 := by
  refine ⟨fun i hi => ⟨by revert i; decide +kernel, rfl, rfl, rfl, .inl rfl⟩, by decide +kernel, fun h hh => ?_⟩
  rcases hh with _ | ⟨_, _ | ⟨_, hh⟩⟩
  · exact ⟨Option.isSome_iff_exists.mp (by decide +kernel), by decide +kernel, rfl, rfl, fun _ => rfl, nofun, rfl, rfl, by decide +kernel, by decide +kernel⟩
  · exact ⟨Option.isSome_iff_exists.mp (by decide +kernel), by decide +kernel, rfl, rfl, nofun, fun _ => ⟨_, rfl⟩, rfl, rfl, by decide +kernel, by decide +kernel⟩
  · cases hh

/-- A tag of a resident line with its pins. -/
def tagWith (pa : Nat) (pins : List Pin) : Tag := { tag := tagOfPa pa, zero := false, valid := 1, dirty := 0, way := true, pins := pins }

/-- The module with two lines in L2. -/
def twoLines (a b : Nat) (s : State) (pins : List Pin) : State := { s with l2 := [(setKey a, [tagWith a pins]), (setKey b, [tagWith b pins])] }

/-- Its tags are as the statement needs them. -/
theorem twoLines_ok {a b : Nat} {s : State} {pins : List Pin} (h : twf [] (twoLines a b s pins).l2 = true) (p : ∀ x ∈ pins, 1 ≤ x.count) :
    LinesOk (twoLines a b s pins) := by
  refine ⟨h, fun k => ?_⟩
  have e : tget [] (twoLines a b s pins).l2 k = [] ∨ (∃ c, tget [] (twoLines a b s pins).l2 k = [tagWith c pins]) := by
    simp only [twoLines, tget]
    repeat' split
    all_goals first | exact .inl rfl | exact .inr ⟨_, rfl⟩
  rcases e with e | ⟨c, e⟩ <;> rw [e]
  · exact ⟨.nil, nofun⟩
  · refine ⟨by simp, fun t ht q hq => ?_⟩
    rw [List.mem_singleton.mp ht] at hq
    exact p q hq

/-- Obligations.Pins: the lines of a request held with no pin of another, and full; one line with no tag. -/
theorem witness_PinsCounted :
    let i : Instr := .pin (short 0) lm1 2
    let s := inL [] [entOf (capOf i [2, 0])] fun m => { m with l := { m.l with ordC := [4] } }
    let lines := pinLines page1 (lmOff lm1 0) 2
    let full : State := twoLines 65536 65664 s [{ ctx := 0, launch := 1, count := 255 }]
    lines = [65536, 65664] ∧ LinesOk (twoLines 65536 65664 s []) ∧ LinesOk full ∧
    (∀ pa ∈ lines, (lineTag (twoLines 65536 65664 s []) pa).isSome = true) ∧ judgePins (twoLines 65536 65664 s []) 0 lines = .granted ∧
    255 ≤ ((lineTag full 65536).map tagPins).getD 0 ∧
    min 15360 (quotaOf { s with quotas := [(0, { Quota.reset with pinq := 0 })] } 0).pinq.toNat <
      pinsAt s 0 (sliceOfPa 65536) + lines.countP (fun l => sliceOfPa l == sliceOfPa 65536) ∧
    LinesOk s ∧ pinLines page1 (lmOff lm1 0) 1 = [65536] ∧ lineTag s 65536 = none :=
  ⟨by decide +kernel, twoLines_ok rfl nofun, twoLines_ok rfl (by decide), by decide +kernel, by decide +kernel, by decide +kernel, by decide +kernel,
   ⟨rfl, fun _ => ⟨.nil, nofun⟩⟩, by decide +kernel, rfl⟩
/-- A copy of one chunk along a route, at a phase. -/
def copying (pair : BitVec 3) (ph : Nat) (aux : List Nat) (wr : List (Nat × List Byte)) : Fly :=
  { flyOf (.cpy (ecmd 0) { copyOf with pair := pair }) [0, 0, 32] ph with aux := aux, wr := wr }

/-- A chunk of sevens. -/
def sevens : List Byte := List.replicate 32 7

/-- A command on the tests' page between its small accesses. -/
theorem atWork {f : Fly} {ph : Nat} (a : f.ph = ph) (b : f.fail = none) (c : f.ops = []) (d : f.req = []) (h : f.hs = [(1, page1), (2, page1)]) :
    AtWork f ph := by
  have v : hValid page1 = true := by decide +kernel
  refine ⟨a, b, c, d, ?_⟩
  rw [h]
  exact List.forall_mem_cons.mpr ⟨v, List.forall_mem_cons.mpr ⟨v, nofun⟩⟩

/-- Obligations.EngineData: a copy of one chunk begins, reads and writes on each side, and ends. -/
theorem witness_Copies :
    let r (p : BitVec 3) := copying p 2 [0, 0, 1] []
    let w (p : BitVec 3) := copying p 2 [1, 0, 1] [(0, sevens)]
    let fill := { flyOf (.cfill (ecmd 0) copyOf) [0, 5, 32] 2 with aux := [0, 0, 1] }
    (∃ so do', copySpec (r 0).cap.ins (regN (r 0)) = some (0, 1, 1, so, do') ∧ so 0 0 = 0 ∧ do' 0 0 = 0) ∧
    (∃ so do', copySpec (r 2).cap.ins (regN (r 2)) = some (2, 0, 1, so, do') ∧ so 0 0 = 0 ∧ do' 0 0 = 0) ∧
    (∃ so do', copySpec fill.cap.ins (regN fill) = some (4, 1, 1, so, do') ∧ do' 0 0 = 0) ∧
    Claims.copyOf fill.cap.ins = some copyOf ∧
    (∀ p, AtWork (r p) 2 ∧ AtWork (w p) 2 ∧ AtWork (copying p 1 [] []) 1 ∧ AtWork (copying p 2 [1, 1, 1] []) 2) ∧ AtWork fill 2 ∧
    geoHandle (geoOf (copying 0 1 [] [])) = none ∧ geoOk (copying 0 1 [] []) (geoOf (copying 0 1 [] [])) = true ∧
    Undisturbed (flying 0 (r 0)) (siteCtx (flying 0 (r 0)) 0) (hKeyIdx page1) 65536 ∧ hBase (flyH (r 0) 1) + 0 = 65536 ∧
    BufQuiet (flying 0 (r 2)) 0 2 0 0 ∧ BufQuiet (flying 0 (w 0)) 0 1 0 3 ∧ sevens.length = 32 ∧
    (∀ p ∈ [0, 2], findFly (flying 0 (w p)) 0 0 (w p).idx = some (w p) ∧ copyOverlaps (w p) (geoOf (w p)) 1 1 0 = false) := by
  refine ⟨⟨_, _, rfl, rfl, rfl⟩, ⟨_, _, rfl, rfl, rfl⟩, ⟨_, _, rfl, rfl⟩, rfl,
    fun p => ⟨atWork rfl rfl rfl rfl rfl, atWork rfl rfl rfl rfl rfl, atWork rfl rfl rfl rfl rfl,
      atWork rfl rfl rfl rfl rfl⟩, atWork rfl rfl rfl rfl rfl, by decide +kernel, by decide +kernel,
    ⟨by decide +kernel, rfl, rfl, rfl, .inl rfl⟩, by decide +kernel, ⟨by decide +kernel, rfl, rfl⟩, ⟨by decide +kernel, rfl, rfl⟩, rfl, by decide +kernel⟩

/-- The same statement's small accesses, element of a merge, snapshot and pins of a `tfetch`. -/
theorem witness_EngineAccesses :
    let f (op : MicroOp) : Fly := { copying 0 1 [0, 0, 1] [] with ops := [op] }
    let tf : Fly := flyOf (.tfetch (ecmd 0) copyOf 5 6) [0, 0, 32, 1, 0] 1
    let s := twoLines 65536 65664 (flying 0 tf) []
    let m : Fly := { flyOf (.rmerge (ecmd 0) 1 2 true 3 4 5) [0, 0, 0, 32] 3 with aux := [0, 0, 0, 0] }
    let c : Fly := { flyOf (.rtsnap (ecmd 0) 1 2) [0] 1 with aux := [0] }
    (∀ op ∈ [.read 65536 0 32, .move 65536 65536 0, .write 65536 0 sevens], (f op).ph = 1 ∧ (f op).fail = none ∧ (f op).req = [] ∧
      (opKey (flying 0 (f op)) 0 (f op) 0).isSome = true) ∧
    Undisturbed (flying 0 c) (siteCtx (flying 0 c) 0) ((opKey (flying 0 (f (.read 65536 0 32))) 0 (f (.read 65536 0 32)) 0).getD 0) 65536 ∧
    AtWork tf 1 ∧ geoHandle (geoOf tf) = none ∧ geoOk tf (geoOf tf) = true ∧ judgePins s (siteCtx s 0) (tfLines (geoOf tf)) = .granted ∧
    nextFetch s (tfLines (geoOf tf)) tf.aux.tail = none ∧
    AtWork m 3 ∧ 4 * 0 < regN m 3 ∧ hBase (flyH m 1) + regN m 0 + 4 * 0 = 65536 ∧
    AtWork c 1 ∧ handleBad (flyH c 1) [.w] = none ∧ regN c 0 + 1024 ≤ hBytes (flyH c 1) ∧ windowOf (hBase (flyH c 1) + regN c 0) = .dev ∧
    0 < ({ flying 0 c with cal := 1 } : State).cal :=
  ⟨by decide +kernel, ⟨by decide +kernel, rfl, rfl, rfl, .inl rfl⟩, atWork rfl rfl rfl rfl rfl, by decide +kernel, by decide +kernel, by decide +kernel, by decide +kernel,
   atWork rfl rfl rfl rfl rfl, by decide +kernel, by decide +kernel, atWork rfl rfl rfl rfl rfl, by decide +kernel, by decide +kernel,
   by decide +kernel, by decide⟩

/-- The mapped context with two pages more, at 65536 and 131072. -/
def mapped3 (s : State) : State :=
  let t := mapped s
  { t with dmem := setBytes (setBytes t.dmem 0x40008 (leBytes 8 0x7003b)) 0x40010 (leBytes 8 0x8003b) }

/-- A Harvest command that has read its table: a page of one slot that holds the token of position 5, and a page in the pool. -/
def harvesting (i : Instr) (regs : List Word) : Fly :=
  { flyOf i regs 14 with got := setBytes (setBytes (setBytes (setBytes (setBytes [] 16 [100, 0, 0, 0, 1, 0, 0, 0, 1]) 64 (leBytes 8 65536)) 32832 (leBytes 8 131072))
      98308 (leBytes 4 5)) 98312 (leBytes 4 1) }

/-- What does not fail answers. -/
theorem okOf {α β : Type} {x : Except α β} (h : x.toBool = true) : ∃ a, x = .ok a := by
  cases x with
  | error => cases h
  | ok a => exact ⟨a, rfl⟩

/-- The same statement's Harvest commands: a slot that survives, one that a `hvst` removes, one that a `htrunc` clears. -/
theorem witness_HarvestData :
    let h := harvesting (.hcomp (ecmd 0) 1) []
    let k := harvesting (.hvstKeep (ecmd 0) 1 2 false 3 4) [0, 0, 0]
    let m := harvesting (.hvstMass (ecmd 0) 1 2 true 3 4) [0, 0, 0]
    let t := harvesting (.htrunc (ecmd 0) 1 2) [3]
    let s (f : Fly) := mapped3 (flying 3 f)
    (∃ ops, buildOps (s h) 0 h = .ok ops) ∧ (survivors h).length = 1 ∧ mapNext h = [131072] ∧ (validNow m).length = 1 ∧
    (removedNow k).length = 1 ∧ (∃ ops, buildOps (s t) 0 t = .ok ops) ∧ (cutNow t).length = 1 :=
  ⟨okOf (by decide +kernel), by decide +kernel, by decide +kernel, by decide +kernel, by decide +kernel, okOf (by decide +kernel), by decide +kernel⟩

/-- Pieces that two participants of a module have given. -/
def gathered : State :=
  { State.reset with collIn := [(0, 0), (0, 1), (1, 0), (1, 1)].map fun p =>
      { launch := 1, tag := 9, nth := 0, rank := p.1, piece := p.2, final := false, data := List.replicate 32 (BitVec.ofNat 8 (p.1 + p.2)), form := [] } }

/-- Their group. -/
def groupOf (kind : Nat) : Grp :=
  { nmod := 1, self := 0, root := 0, tag := 9, switch := false, mods := [0], sites := [0, 1], p := 2, rank := 0, kind := kind, red := 0, fmt := 0, ln := 64 }

/-- The same statement's collectives: a participant that has a piece to give, and a group whose pieces are all there. -/
theorem witness_Collectives :
    let i : Instr := .collAllGather { ecmd 0 with eng := 2 } (co 0 0)
    let f : Fly := { flyOf i [512, 0, 2048, 0, 0] 4 with aux := [0, 0, 0, 0, 0], got := setBytes [] 512 [1, 0, 1, 1, 0, 0, 0, 0, 9] }
    let s : State := { flying 2 f with launches := [launchOn 0 .running] }
    (collOf i).map Prod.fst = some 2 ∧ AtWork f 4 ∧ (∃ g, grpOf s 0 f = some g ∧ grpDiffers s 0 f g = false ∧ grpFits f (co 0 0) g = true ∧ 0 < grpPieces g) ∧
    BufQuiet s 0 2 (regN f 1 + 32 * 0) 0 ∧
    ∀ kind, let g := groupOf kind
      g.p = g.sites.length ∧ (∀ piece, finalAt gathered 1 g 0 piece = none) ∧
      (∀ rank piece, rank < g.p → piece < g.ln / 32 →
        pieceAt gathered 1 g 0 rank piece false = some (List.replicate 32 (BitVec.ofNat 8 (rank + piece)))) ∧
      g.root < g.p ∧ g.rank < g.p ∧ 1 ≤ grpBlock g / 32 := by
  refine ⟨rfl, atWork rfl rfl rfl rfl rfl, ⟨_, rfl, by decide +kernel, by decide +kernel, by decide +kernel⟩, ⟨by decide +kernel, rfl, rfl⟩, fun kind => ⟨rfl, ?_, ?_, Nat.zero_lt_two, Nat.zero_lt_two, ?_⟩⟩
  · intro piece; simp [finalAt, gathered, groupOf]
  · have h : ∀ r < 2, ∀ p < 2, pieceAt gathered 1 (groupOf 0) 0 r p false = some (List.replicate 32 (BitVec.ofNat 8 (r + p))) := by decide +kernel
    rw [show pieceAt gathered 1 (groupOf kind) = pieceAt gathered 1 (groupOf 0) from rfl]
    exact fun r p hr hp => h r hr p (by simpa [groupOf] using hp)
  · show 1 ≤ (if kind = 1 ∨ kind = 3 then 64 / 2 else 64) / 32
    by_cases c : kind = 1 ∨ kind = 3 <;> simp [c]

/-- Obligations.DeferredAndWaitingWork: there is room for the held entry. -/
theorem witness_HeldRoom : let s : State := inL [] [] fun m =>
      { m with grd := { m.grd with held := [{ capOf (.sst (short 0) lm1 2 3) [5, 0] with lit := some (1, true), out := [(1, true)] }] } }
    heldRoom (mem s 0) (.sst (short 0) lm1 2 3) = true ∧ (mem s 0).grd.held.length = 1 := ⟨by decide +kernel, rfl⟩

/-- Obligations.ValuesLand: a value on its way to a special register. -/
theorem witness_SprLands : ∀ sn : Nat, ∀ v : Word,
    let s := onMem .c (.nop (short 0)) fun m => { m with fly := { m.fly with spr := [(sn, v)] } }
    (mem s 0).ctl.fin = false ∧ (mem s 0).fly.waves = [] ∧ (mem s 0).fly.slw = [] ∧ (mem s 0).fly.sw = [] ∧ (mem s 0).fly.spr = [(sn, v)] :=
  fun _ _ => ⟨rfl, rfl, rfl, rfl, rfl⟩

/-- Obligations.LaunchesBegin: a launch within the power cap and one past it; the sectors of a record under no key. -/
theorem witness_PowerFits :
    let big : Launch := { launchOn 0 .armed with watts := 3801 }
    powerFits (placed 0 .armed .free 65536) (launchOn 0 .armed) = true ∧ powerFits (owned big) big = false ∧ findLaunch (owned big) 1 = some big ∧
    (launchOn 0 .armed).areas = [] ∧ (launchOn 0 .armed).bars = [] ∧ ∀ i, i < 4 → tget none queued.dkey (4096 / 32 + i) = none :=
  ⟨by decide +kernel, by decide +kernel, rfl, rfl, rfl, fun _ _ => rfl⟩

/-- Obligations.LaunchesEnd: a draw that has not come back; no profile of the function. -/
theorem witness_OverCap : let s : State := { owned (launchOn 0 .running) with overCap := true }
    s.overCap = true ∧ s.powerCap * 1000 ≤ 3800000 ∧ ¬ (s.powerCap * 1050 < 3800000) ∧ newestBound s = some (launchOn 0 .running) ∧
    tget none s.profiles 0 = none := ⟨rfl, by decide, by decide, rfl, rfl⟩

/-- Obligations.PeerFlits: a chunk of an occurrence that is over, and one of an occurrence to come. -/
theorem witness_PeerChunks : let s : State := { granting with collCount := [(9, 1)] }
    Accepts s (flitOf 6 0 (List.replicate 32 1)) 6 ∧ tagLaunch s 9 = 1 ∧ pastNth s (tagLaunch s 9) 9 0 = true ∧ pastNth s (tagLaunch s 9) 9 1 = false :=
  ⟨⟨⟨by decide +kernel, rfl, by decide +kernel, rfl⟩, rfl⟩, by decide +kernel, by decide +kernel, by decide +kernel⟩

/-- Obligations.SecurityAndLinks: the hardware as it stands at a report, and with Vigil in force and its clocks running. -/
theorem witness_Standing : State.reset.halted = false ∧ vigilActive State.reset = false ∧
    (let a : State := { State.reset with vigil := 0x211 }; vigilActive a = true ∧ a.halted = false) := ⟨rfl, by decide, by decide, rfl⟩

/-- Obligations.Harvest: the drain's read has not been tried in this tick. -/
theorem witness_HarvestDrain : let d := flyOf (.hcomp { ecmd 0 with eng := 3 } 1) [] 17
    triedNow (flying 3 d) d = false ∧ triedNow (flying 3 { d with aux := [1] }) { d with aux := [1] } = false ∧ d.ops = [] ∧ d.fail = none :=
  ⟨rfl, rfl, rfl, rfl⟩


end Sys2Proof.Tests
end

