-- ==== Sys2Proof/Proofs/DeviceAccess.lean ====
section
/-! SUPPORT. Reads and writes of a chunk of device memory at its home: what an undisturbed access finds and leaves, and what
any access keeps of a member. -/

namespace Sys2Proof.Proofs

open Sys2Proof Sys2Proof.Machine Sys2Proof.Laws Sys2Proof.Claims

/-! ## Bytes -/

@[simp] theorem length_bytesAt (m : Mem) (a n : Nat) : (bytesAt m a n).length = n := by simp [bytesAt]

@[simp] theorem length_leBytes (n : Nat) : ∀ v, (leBytes n v).length = n := by
  induction n with
  | zero => intro v; rfl
  | succ n ih => intro v; simp [leBytes, ih]

@[simp] theorem getElem_bytesAt (m : Mem) (a n i : Nat) (h : i < (bytesAt m a n).length) : (bytesAt m a n)[i] = byteAt m (a + i) := by
  simp [bytesAt]

/-- Byte i of a little-endian number (R9). -/
@[simp] theorem getElem_leBytes (n : Nat) : ∀ (v i : Nat) (h : i < (leBytes n v).length), (leBytes n v)[i] = BitVec.ofNat 8 (v / 256 ^ i) := by
  induction n with
  | zero => intro v i h; simp at h
  | succ n ih =>
    intro v i h
    cases i with
    | zero => simp [leBytes]
    | succ i => simp [leBytes, ih, Nat.pow_succ, Nat.div_div_eq_div_mul, Nat.mul_comm]

/-- Bytes cut out of a run read. -/
theorem take_drop_bytesAt (m : Mem) (a : Nat) {k n len : Nat} (h : k + n ≤ len) :
    ((bytesAt m a len).drop k).take n = bytesAt m (a + k) n := by
  apply List.ext_getElem
  · simp; omega
  · intro i _ _
    simp [Nat.add_assoc]

/-- A byte after a run is written. -/
theorem byteAt_setBytes (m : Mem) (a : Nat) (b : List Byte) (x : Nat) :
    byteAt (setBytes m a b) x = if h : a ≤ x ∧ x < a + b.length then b[x - a]'(by omega) else byteAt m x := by
  split
  · rename_i h
    obtain ⟨i, rfl⟩ := Nat.exists_eq_add_of_le h.1
    simp [byteAt_setBytes_inside b m a i (by omega)]
  · exact byteAt_setBytes_outside b m a x (by omega)

/-- A run written back with some of its bytes replaced: only those bytes change (R9, R431). -/
theorem byteAt_setBytes_patch (m : Mem) (a k len : Nat) (b : List Byte) (h : k + b.length ≤ len) (x : Nat) :
    byteAt (setBytes m a ((bytesAt m a len).take k ++ b ++ (bytesAt m a len).drop (k + b.length))) x =
      byteAt (setBytes m (a + k) b) x := by
  rw [byteAt_setBytes, byteAt_setBytes]
  have hk : min k len = k := by omega
  split
  · rename_i hx
    rw [List.getElem_append]
    split
    · rename_i h1
      rw [List.getElem_append]
      simp only [List.length_append, List.length_take, length_bytesAt, hk] at h1 ⊢
      split
      · rw [dif_neg (by omega)]
        simp only [List.getElem_take, getElem_bytesAt]
        congr 1; omega
      · rw [dif_pos (by omega)]
        congr 1; omega
    · rename_i h1
      simp only [List.length_append, List.length_take, length_bytesAt, hk] at h1
      rw [dif_neg (by omega)]
      simp only [List.getElem_drop, getElem_bytesAt, List.length_append, List.length_take, length_bytesAt, hk]
      congr 1; omega
  · rename_i hx
    simp only [List.length_append, List.length_take, length_bytesAt, List.length_drop] at hx
    rw [dif_neg (by omega)]

/-! ## What an access keeps of the members -/

/-- Nothing of a member has changed but its performance counters (R420). -/
def CountsOnly (s t : State) : Prop :=
  ∀ j, ∃ p, mem t j = { mem s j with ctl := { (mem s j).ctl with perf := p } }

theorem CountsOnly.refl (s : State) : CountsOnly s s := fun j => ⟨(mem s j).ctl.perf, rfl⟩

theorem CountsOnly.trans {s t u : State} (h : CountsOnly s t) (k : CountsOnly t u) : CountsOnly s u := by
  intro j
  obtain ⟨p, hp⟩ := h j
  obtain ⟨q, hq⟩ := k j
  exact ⟨q, by rw [hq, hp]⟩

/-- A step that leaves the list of members alone. -/
theorem CountsOnly.of_members {s t : State} (h : t.members = s.members) : CountsOnly s t := by
  intro j
  exact ⟨(mem s j).ctl.perf, by simp only [mem, h]⟩

theorem CountsOnly.l {s t : State} (h : CountsOnly s t) (j : Nat) : (mem t j).l = (mem s j).l := by
  obtain ⟨p, hp⟩ := h j; rw [hp]

theorem CountsOnly.regs {s t : State} (h : CountsOnly s t) (j : Nat) : (mem t j).regs = (mem s j).regs := by
  obtain ⟨p, hp⟩ := h j; rw [hp]

theorem CountsOnly.fly {s t : State} (h : CountsOnly s t) (j : Nat) : (mem t j).fly = (mem s j).fly := by
  obtain ⟨p, hp⟩ := h j; rw [hp]

theorem CountsOnly.buf {s t : State} (h : CountsOnly s t) (j : Nat) : (mem t j).buf = (mem s j).buf := by
  obtain ⟨p, hp⟩ := h j; rw [hp]

/-- An event counted for a member. -/
theorem countsOnly_updMem_countN (s : State) (n ev k : Nat) : CountsOnly s (updMem s n fun m => countN m ev k) := by
  intro j
  by_cases h : j = n
  · subst h; exact ⟨_, mem_updMem_same ..⟩
  · exact ⟨(mem s j).ctl.perf, mem_updMem_ne s _ h⟩

theorem countsOnly_countHit (s : State) (site : Option Nat) (h : Hit) : CountsOnly s (countHit s site h) := by
  cases site with
  | none => exact .refl s
  | some n => cases h <;> exact countsOnly_updMem_countN s n _ 1

theorem freeBytes_members (s : State) (l : List (Nat × Nat)) (loc : Nat) (b : List Byte) : (freeBytes s l loc b).2.members = s.members := by
  unfold freeBytes; split <;> rfl

@[simp] theorem freeBytes_dmem (s : State) (l : List (Nat × Nat)) (loc : Nat) (b : List Byte) : (freeBytes s l loc b).2.dmem = s.dmem := by
  unfold freeBytes; split <;> rfl

@[simp] theorem freeBytes_nil (s : State) (loc : Nat) (b : List Byte) : freeBytes s [] loc b = (b, s) := rfl

@[simp] theorem countHit_dmem (s : State) (site : Option Nat) (h : Hit) : (countHit s site h).dmem = s.dmem := by cases site <;> rfl
@[simp] theorem countHit_dbad (s : State) (site : Option Nat) (h : Hit) : (countHit s site h).dbad = s.dbad := by cases site <;> rfl
@[simp] theorem countHit_dkey (s : State) (site : Option Nat) (h : Hit) : (countHit s site h).dkey = s.dkey := by cases site <;> rfl
@[simp] theorem countHit_keys (s : State) (site : Option Nat) (h : Hit) : (countHit s site h).keys = s.keys := by cases site <;> rfl
@[simp] theorem countHit_accs (s : State) (site : Option Nat) (h : Hit) : (countHit s site h).accs = s.accs := by cases site <;> rfl

@[simp] theorem l2Touch_members (s : State) (pa : Nat) (w : Bool) : (l2Touch s pa w).1.members = s.members := rfl
@[simp] theorem l2Touch_dmem (s : State) (pa : Nat) (w : Bool) : (l2Touch s pa w).1.dmem = s.dmem := rfl
@[simp] theorem l2Touch_dbad (s : State) (pa : Nat) (w : Bool) : (l2Touch s pa w).1.dbad = s.dbad := rfl
@[simp] theorem l2Touch_dkey (s : State) (pa : Nat) (w : Bool) : (l2Touch s pa w).1.dkey = s.dkey := rfl
@[simp] theorem l2Touch_keys (s : State) (pa : Nat) (w : Bool) : (l2Touch s pa w).1.keys = s.keys := rfl
@[simp] theorem l2Touch_accs (s : State) (pa : Nat) (w : Bool) : (l2Touch s pa w).1.accs = s.accs := rfl

@[simp] theorem stampAcc_members (s : State) (a : Acc) : (stampAcc s a).2.2.members = s.members := rfl
@[simp] theorem stampAcc_dmem (s : State) (a : Acc) : (stampAcc s a).2.2.dmem = s.dmem := rfl
@[simp] theorem stampAcc_dbad (s : State) (a : Acc) : (stampAcc s a).2.2.dbad = s.dbad := rfl
@[simp] theorem stampAcc_dkey (s : State) (a : Acc) : (stampAcc s a).2.2.dkey = s.dkey := rfl
@[simp] theorem stampAcc_keys (s : State) (a : Acc) : (stampAcc s a).2.2.keys = s.keys := rfl
@[simp] theorem stampAcc_accs (s : State) (a : Acc) : (stampAcc s a).2.2.accs = s.accs := rfl

@[simp] theorem noteAccess_members (s : State) (c : Clock) (r : AccRec) (k : Bool) : (noteAccess s c r k).members = s.members := rfl
@[simp] theorem noteAccess_dmem (s : State) (c : Clock) (r : AccRec) (k : Bool) : (noteAccess s c r k).dmem = s.dmem := rfl

/-! ## An access no other access is on record for (R279, R280) -/

theorem racers_of_quiet {s : State} {a : Acc} {w : Bool} {c : Clock} {pa n : Nat} (h : tget [] s.accs (pa / 32) = []) :
    racers s a w c pa n = [] := by simp [racers, h]

theorem undefBytes_of_quiet {s : State} {a : Acc} {w : Bool} {c : Clock} {pa n : Nat} (h : tget [] s.accs (pa / 32) = []) :
    undefBytes s a w c pa n = [] := by simp [undefBytes, openRaces, racers_of_quiet h, h]

theorem debugHit_of_quiet {s : State} {a : Acc} {w : Bool} {pa n : Nat} (h : tget [] s.accs (pa / 32) = []) :
    debugHit s a pa n w = none := by simp [debugHit, h]

/-- A context without a bucket pays nothing (R310). -/
theorem pay_unmetered {s : State} {a : Acc} (pa cost : Nat) (h : (quotaOf s a.ctx).bsize = 0) : pay s a pa cost = (true, s) := by
  simp [pay, h]

/-- A sector under the reader's key, or under none, is read as it stands (R432). -/
theorem sectorAs_of_key {s : State} {key : BitVec 512} {pa : Nat}
    (h : tget none s.dkey (pa / 32) = none ∨ tget none s.dkey (pa / 32) = some key) :
    sectorAs s key pa = bytesAt s.dmem (pa / 32 * 32) 32 := by
  unfold sectorAs
  cases hz : zeroTag s pa
  · rcases h with h | h <;> simp [h]
  · simp

/-- Where the bytes of an aligned access of a power of two stand in their sector. -/
theorem within_sector {pa w : Nat} (hw : w ≤ 5) (h : pa % 2 ^ w = 0) : pa % 32 + 2 ^ w ≤ 32 := by
  have e : 32 = 2 ^ w * 2 ^ (5 - w) := by rw [← Nat.pow_add, Nat.add_sub_cancel' hw]
  rw [e, Nat.mod_mul, h, Nat.zero_add, ← Nat.mul_succ]
  exact Nat.mul_le_mul_left _ (Nat.mod_lt _ (Nat.two_pow_pos _))

/-- A request has reached its slice: its agent's clock, the tags of its set and the counter of what it met have moved. -/
def reached (s : State) (a : Acc) (pa : Nat) (write : Bool) : State :=
  let p := l2Touch (stampAcc s a).2.2 pa write
  countHit p.1 a.site p.2

theorem countsOnly_reached (s : State) (a : Acc) (pa : Nat) (w : Bool) : CountsOnly s (reached s a pa w) :=
  (CountsOnly.of_members (by simp)).trans (countsOnly_countHit _ _ _)

@[simp] theorem reached_dmem (s : State) (a : Acc) (pa : Nat) (w : Bool) : (reached s a pa w).dmem = s.dmem := by simp [reached]
@[simp] theorem reached_dbad (s : State) (a : Acc) (pa : Nat) (w : Bool) : (reached s a pa w).dbad = s.dbad := by simp [reached]
@[simp] theorem reached_dkey (s : State) (a : Acc) (pa : Nat) (w : Bool) : (reached s a pa w).dkey = s.dkey := by simp [reached]
@[simp] theorem reached_keys (s : State) (a : Acc) (pa : Nat) (w : Bool) : (reached s a pa w).keys = s.keys := by simp [reached]
@[simp] theorem reached_accs (s : State) (a : Acc) (pa : Nat) (w : Bool) : (reached s a pa w).accs = s.accs := by simp [reached]

/-- A read of an unpoisoned chunk finds the bytes that stand there, and changes no memory. -/
theorem devRead_quiet {s : State} {a : Acc} {key pa n : Nat} (hb : tget false s.dbad (pa / 32) = false)
    (hq : tget [] s.accs (pa / 32) = []) (hk : tget none s.dkey (pa / 32) = none ∨ tget none s.dkey (pa / 32) = some (keyOf s key))
    (hn : pa % 32 + n ≤ 32) :
    ∃ t, devRead s a key pa n = (some (bytesAt s.dmem pa n), t) ∧ t.dmem = s.dmem ∧ CountsOnly s t := by
  let u := reached s a pa false
  have hbytes : keyedBytes u (keyOf u key) pa n = bytesAt s.dmem pa n := by
    rw [keyedBytes, sectorAs_of_key (by simpa [u, keyOf] using hk), take_drop_bytesAt _ _ hn, Nat.div_add_mod', reached_dmem]
  have hund : undefBytes u a false (stampAcc s a).1 pa n = [] := undefBytes_of_quiet (by simpa [u] using hq)
  have hbad : tget false u.dbad (pa / 32) = false := by simpa [u] using hb
  refine ⟨noteAccess u (stampAcc s a).1 (accRec u a (stampAcc s a).1 (stampAcc s a).2.1 pa n false) (anyDebug u), ?_,
    reached_dmem .., (countsOnly_reached s a pa false).trans (.of_members rfl)⟩
  have h : devRead s a key pa n = if tget false u.dbad (pa / 32) then (none, u) else
      let f := freeBytes u (undefBytes u a false (stampAcc s a).1 pa n) pa (keyedBytes u (keyOf u key) pa n)
      (some f.1, noteAccess f.2 (stampAcc s a).1 (accRec f.2 a (stampAcc s a).1 (stampAcc s a).2.1 pa n false) (anyDebug f.2)) := rfl
  rw [h, hbad, hund, hbytes]
  rfl

/-- What a write of a chunk leaves of the members, and the sector it puts. -/
theorem devPut_keeps (s : State) (a : Acc) (key pa : Nat) (b : List Byte) :
    CountsOnly s (devPut s a key pa b) ∧ (tget [] s.accs (pa / 32) = [] → (devPut s a key pa b).dmem = setBytes s.dmem (pa / 32 * 32)
      ((sectorAs s (keyOf s key) pa).take (pa % 32) ++ b ++ (sectorAs s (keyOf s key) pa).drop (pa % 32 + b.length))) := by
  let s1 := (stampAcc s a).2.2
  let s2 := if zeroTag s1 pa && !a.zero then
      { s1 with dkey := [0, 1, 2, 3].foldl (fun t i => tput none t (pa / 128 * 4 + i) (some (keyOf s1 key))) s1.dkey } else s1
  let p := if a.zero then (s2, zeroHit s2 pa) else l2Touch s2 pa true
  let u := countHit p.1 a.site p.2
  let f := freeBytes u (undefBytes u a true (stampAcc s a).1 pa b.length) pa b
  have h2 : s2.members = s.members ∧ s2.dmem = s.dmem ∧ s2.accs = s.accs := by
    simp only [s2]; split <;> exact ⟨rfl, rfl, rfl⟩
  have hp : p.1.members = s.members ∧ p.1.dmem = s.dmem ∧ p.1.accs = s.accs := by
    simp only [p]; split <;> exact h2
  have hm : (devPut s a key pa b).members = f.2.members := rfl
  have hd : (devPut s a key pa b).dmem = setBytes f.2.dmem (pa / 32 * 32)
      ((sectorAs s (keyOf s key) pa).take (pa % 32) ++ f.1 ++ (sectorAs s (keyOf s key) pa).drop (pa % 32 + b.length)) := rfl
  constructor
  · exact ((CountsOnly.of_members hp.1).trans (countsOnly_countHit p.1 a.site p.2)).trans (.of_members (hm.trans (freeBytes_members ..)))
  · intro hq
    have hf : f = (b, u) := by
      simp only [f]
      rw [undefBytes_of_quiet (by simpa [u, hp] using hq), freeBytes_nil]
    rw [hd, hf]
    simp [u, hp]

/-- A write of a chunk changes its bytes and no other byte of device memory (R9, R431). -/
theorem devPut_quiet {s : State} {a : Acc} {key pa : Nat} {b : List Byte} (hq : tget [] s.accs (pa / 32) = [])
    (hk : tget none s.dkey (pa / 32) = none ∨ tget none s.dkey (pa / 32) = some (keyOf s key)) (hn : pa % 32 + b.length ≤ 32) (x : Nat) :
    byteAt (devPut s a key pa b).dmem x = byteAt (setBytes s.dmem pa b) x := by
  rw [(devPut_keeps s a key pa b).2 hq, sectorAs_of_key hk, byteAt_setBytes_patch _ _ _ _ _ hn, Nat.div_add_mod']

theorem noteUnlock_members (s : State) (a : Acc) (pa : Nat) (b : List Byte) : (noteUnlock s a pa b).members = s.members := by
  unfold noteUnlock; split <;> rfl

@[simp] theorem noteUnlock_dmem (s : State) (a : Acc) (pa : Nat) (b : List Byte) : (noteUnlock s a pa b).dmem = s.dmem := by
  unfold noteUnlock; split <;> rfl

/-- An undisturbed read through a physical address (R276). -/
theorem readPa_undisturbed {s : State} {a : Acc} {key pa n : Nat} (req : OutReq) (h : Undisturbed s a.ctx key pa) (hn : pa % 32 + n ≤ 32) :
    ∃ t, readPa s a key pa n req = (.data (bytesAt s.dmem pa n), t) ∧ t.dmem = s.dmem ∧ CountsOnly s t := by
  obtain ⟨hw, hm, hb, hq, hk⟩ := h
  obtain ⟨t, ht, hd, hc⟩ := devRead_quiet (a := a) hb hq hk hn
  exact ⟨t, by simp [readPa, hw, debugHit_of_quiet hq, pay_unmetered _ _ hm, ht], hd, hc⟩

/-- An undisturbed write through a physical address (R276). -/
theorem writePa_undisturbed {s : State} {a : Acc} {key pa : Nat} {b : List Byte} (req : OutReq) (paid : Bool)
    (h : Undisturbed s a.ctx key pa) (hn : pa % 32 + b.length ≤ 32) :
    ∃ t, writePa s a key pa b req paid = (.done, t) ∧ CountsOnly s t ∧ ∀ x, byteAt t.dmem x = byteAt (setBytes s.dmem pa b) x := by
  obtain ⟨hw, hm, -, hq, hk⟩ := h
  refine ⟨noteUnlock (devPut s a key pa b) a pa b, ?_, ?_, ?_⟩
  · cases paid <;> simp [writePa, hw, debugHit_of_quiet hq, pay_unmetered _ _ hm]
  · exact (devPut_keeps s a key pa b).1.trans (.of_members (noteUnlock_members ..))
  · simpa using devPut_quiet hq hk hn

end Sys2Proof.Proofs
end

