-- ==== Sys2Proof/Proofs/ScalarAccess.lean ====
section
/-! SUPPORT and PROOFS. An entry of L with one pairing and one piece begins, performs through its handle, and is over: the scalar load and
the scalar store. -/

namespace Sys2Proof.Proofs

open Sys2Proof Sys2Proof.Machine Sys2Proof.Laws Sys2Proof.Claims

/-! ## Captured operands -/

/-- Operands captured with single values have landed. -/
theorem srcNow_plain {α : Type} (l : List α) : srcNow (l.map fun v => Src.now (plain v)) = some (l.map plain) := by
  induction l with
  | nil => rfl
  | cons x r ih => simp [srcNow, ih]

/-- The one pairing of an entry with single operands. -/
theorem entPairs_of_entry {e : LEnt} {i : Instr} {ss : List Word} {r : HReg} {hd : BitVec 128} (h : Entry e i ss r hd) :
    entPairs e.cap = some (plain (ss, [])) := by
  obtain ⟨-, -, -, hss, hvs, -⟩ := h
  rw [entPairs, hss, hvs, srcNow_plain]
  change some (pairWith Prod.mk (pairAll (ss.map plain)) (plain [])) = _
  rw [pairAll_plain, pairWith_plain]

theorem entHandle_of_entry {e : LEnt} {i : Instr} {ss : List Word} {r : HReg} {hd : BitVec 128} (h : Entry e i ss r hd) :
    entHandle e.cap = some hd := by
  obtain ⟨-, -, -, -, -, hh, hp, -⟩ := h
  simp [entHandle, hh, hp]

/-! ## Addresses -/

/-- When the checks of R35, R224 and R225 pass. -/
theorem hAddr_eq_ok {hd : BitVec 128} {p : Perm} {off n pa : Nat} :
    hAddr hd p off n = .ok pa ↔ hValid hd = true ∧ off + n ≤ hBytes hd ∧ hHas hd p = true ∧ pa = hBase hd + off := by
  unfold hAddr
  by_cases hv : hValid hd = true
  · by_cases hl : hBytes hd < off + n
    · simp [hv, hl]
    · by_cases hp : hHas hd p = true
      · simp [hv, hl, Nat.le_of_not_lt hl, hp, eq_comm]
      · simp [hv, hl, hp]
  · simp [hv]

/-- A physical address is aligned as the offset is: a page's base is a multiple of 64 KiB. -/
theorem hAddr_aligned {hd : BitVec 128} {p : Perm} {off n pa w : Nat} (hw : w ≤ 16) (ha : off % 2 ^ w = 0)
    (h : hAddr hd p off n = .ok pa) : pa % 2 ^ w = 0 := by
  obtain ⟨-, -, -, rfl⟩ := hAddr_eq_ok.1 h
  have hb : 2 ^ w ∣ hBase hd := Dvd.dvd.mul_left (pow_dvd_pow 2 hw) _
  exact Nat.mod_eq_zero_of_dvd (Nat.dvd_add hb (Nat.dvd_of_mod_eq_zero ha))

/-! ## An access of one piece -/

/-- The instruction, with these scalar operands, makes one access of n bytes at an offset of its handle's page, which must be aligned
to n (R224, R226). -/
def OneAccess (i : Instr) (ss : List Word) (off n : Nat) : Prop :=
  spaceOf i = 0 ∧ (∀ msk, piecesOf i msk ss [] = [⟨off, n, 0⟩] ∧ spanOf i msk ss [] = ([(off, n)], n)) ∧
  ∀ hd, spaceBytes i (some hd) = if hd = 0 then none else some (hBytes hd)

theorem oneAccess_sld {m : LMem} (h : m.as = 0) (hd : Hd) (w : BitVec 2) (sx : Bool) (o : Word) :
    OneAccess (.sld hd m w sx) [o] (lmOff m o.toNat) (2 ^ w.toNat) := by
  have hs : spaceOf (.sld hd m w sx) = 0 := by simp [spaceOf, h]
  exact ⟨hs, fun _ => ⟨rfl, rfl⟩, fun _ => by simp [spaceBytes, hs]⟩

theorem oneAccess_sst {m : LMem} (h : m.as = 0) (hd : Hd) (x : SReg) (w : BitVec 2) (v o : Word) :
    OneAccess (.sst hd m x w) [v, o] (lmOff m o.toNat) (2 ^ w.toNat) := by
  have hs : spaceOf (.sst hd m x w) = 0 := by simp [spaceOf, h]
  exact ⟨hs, fun _ => ⟨rfl, rfl⟩, fun _ => by simp [spaceBytes, hs]⟩

/-- The entry begun: its one piece is still to perform. -/
def begunOne (e : LEnt) (ss : List Word) : LEnt := { e with begun := true, pairs := plain ⟨0, ss, []⟩, bad := [], left := [0] }

@[simp] theorem begunOne_cap (e : LEnt) (ss : List Word) : (begunOne e ss).cap = e.cap := rfl

section
variable {c : Cap} {ss : List Word} {off n pa : Nat} {hd : BitVec 128} (ho : OneAccess c.ins ss off n) (hal : off % n = 0)
  (ha : hAddr hd (permOf c.ins) off n = .ok pa)
include ho hal ha

/-- An aligned access within a page that the handle permits meets no fault (R223 to R225). -/
theorem pairFault_one (no : Nat) : pairFault c hd ⟨no, ss, []⟩ = none := by
  obtain ⟨hsp, hps, hb⟩ := ho
  obtain ⟨hv, hl, hp, -⟩ := hAddr_eq_ok.1 ha
  have hne : hd ≠ 0 := by rintro rfl; simp [hValid] at hv
  have hbytes : spaceBytes c.ins (some hd) = some (hBytes hd) := by rw [hb, if_neg hne]
  have hok : spanOk c.ins (some hd) c.msk ss [] = true := by simp [spanOk, (hps c.msk).2, hbytes, hal, hl]
  simp [pairFault, hok, hv, hp]

theorem wantedFault_one : wantedFault c hd (numbered (plain (ss, []))) = none := by
  simp [wantedFault, numbered, plain, pairFault_one ho hal ha]

end

/-- The entry begins with its one piece. -/
theorem beginEnt_one {e : LEnt} {ss : List Word} {off n pa : Nat} {hd : BitVec 128} (ho : OneAccess e.cap.ins ss off n) (hal : off % n = 0)
    (ha : hAddr hd (permOf e.cap.ins) off n = .ok pa) : beginEnt e hd (numbered (plain (ss, []))) = begunOne e ss := by
  have h := pairFault_one ho hal ha 0
  simp [beginEnt, begunOne, numbered, plain, h, ho.2.1 e.cap.msk]

/-- Its piece. -/
theorem pieceOf_begunOne {e : LEnt} {ss : List Word} {off n : Nat} (ho : OneAccess e.cap.ins ss off n) :
    pieceOf (begunOne e ss) 0 = some (0, ⟨0, ss, []⟩, ⟨off, n, 0⟩) := by
  simp [pieceOf, pairOf, begunOne, plain, ho.2.1 e.cap.msk]

/-! ## Loads (R221, R227) -/

/-- The entry of a load whose one piece has read the bytes b. -/
def readOne (e : LEnt) (ss : List Word) (b : List Byte) : LEnt := { begunOne e ss with left := [], buf := setBytes e.buf 0 b }

/-- An undisturbed load of one piece reads the bytes at its address, and nothing of it is left to perform. -/
theorem loadPiece_begunOne {s : State} {n : Nat} {e : LEnt} {ss : List Word} {off k pa : Nat} {hd : BitVec 128}
    (ho : OneAccess e.cap.ins ss off k) (hh : entHandle e.cap = some hd) (ha : hAddr hd (permOf e.cap.ins) off k = .ok pa)
    (hu : Undisturbed s (siteCtx s n) (hKeyIdx hd) pa) (hk : pa % 32 + k ≤ 32) :
    ∃ t, loadPiece s n (begunOne e ss) 0 = (.ent (readOne e ss (bytesAt s.dmem pa k)), t) ∧ t.dmem = s.dmem ∧ CountsOnly s t := by
  obtain ⟨t, ht, hd', hc⟩ := readPa_undisturbed (a := lAcc s n 1 e.cap) (reqOf (.l n) e.cap.seq 0 pa k false []) hu hk
  have hread : readPiece s n (lAcc s n 1 e.cap) e.cap 0 ⟨off, k, 0⟩ = (.data (bytesAt s.dmem pa k), t) := by
    simp [readPiece, ho.1, hh, ha, ht]
  have hleft : (begunOne e ss).left.contains 0 = true := rfl
  refine ⟨countBytes t n k, ?_, hd', hc.trans (countsOnly_updMem_countN t n 0x043 k)⟩
  simp only [loadPiece, hleft, if_true, pieceOf_begunOne ho, begunOne_cap, hread]
  rfl

/-- What an entry with one pairing and no poison delivers (R165). -/
theorem loadGroup_one {α : Type} {e : LEnt} {v : Pairing} (hp : e.pairs = plain v) (hb : e.bad = []) (f : Nat → α) :
    loadGroup e f = plain (f v.no) := by
  simp [loadGroup, hp, hb, plain]

/-- The number a scalar load delivers from the bytes it has read (R9, R227). -/
theorem scalarOf_setBytes (buf m : Mem) (pa : Nat) (w : BitVec 2) (sx : Bool) :
    scalarOf (setBytes buf 0 (bytesAt m pa (2 ^ w.toNat))) w sx 0 = extended sx (2 ^ w.toNat) (numAt m pa (2 ^ w.toNat)) := by
  have h : bytesAt (setBytes buf 0 (bytesAt m pa (2 ^ w.toNat))) 0 (2 ^ w.toNat) = bytesAt m pa (2 ^ w.toNat) := by
    simpa using bytesAt_setBytes_same buf 0 (bytesAt m pa (2 ^ w.toNat))
  simp only [scalarOf, extended, numAt, Nat.mul_zero, h, int64, nat64, Bool.and_eq_true, decide_eq_true_eq]
  congr

/-- A scalar load that has performed, with no move bound to its delivery, leaves L's queues and stands in LDQ-C (R221). -/
theorem finishLoad_sld (cal : Nat) (m : Member) {e : LEnt} {h : Hd} {x : LMem} {w : BitVec 2} {sx : Bool} {v : Pairing}
    (hi : e.cap.ins = .sld h x w sx) (hp : e.pairs = plain v) (hb : e.bad = []) (hbind : m.l.bindC = []) :
    (finishLoad cal m e).regs = m.regs ∧ (finishLoad cal m e).l.lq = m.l.lq.filter (fun x => x.cap.seq != e.cap.seq) ∧
      (finishLoad cal m e).l.sq = m.l.sq.filter (fun x => x.cap.seq != e.cap.seq) ∧
      (finishLoad cal m e).l.ldqC = m.l.ldqC ++ [plain (scalarOf e.buf w sx v.no)] := by
  have hbind' : (dropEnt m e).l.bindC = [] := hbind
  simp only [finishLoad, hi, deliverC, hbind', loadGroup_one hp hb]
  exact ⟨rfl, rfl, rfl, rfl⟩

/-- An entry with nothing left to perform and no request outside is over. -/
theorem endPiece_over {s : State} {n : Nat} {a : Acc} {e e' : LEnt} {piece : Nat} {fin : LEnt → Member → Member} (hl : e'.left = [])
    (hr : e'.req = []) : endPiece s n a e piece fin (.ent e') = updMem s n (fin e') := by
  simp [endPiece, hl, hr]

/-- The head of the load queue has not begun, and it may: its one piece performs undisturbed, and the load is over. -/
theorem loadPerform_one {s : State} {n : Nat} {e : LEnt} {ss : List Word} {off k pa : Nat} {hd : BitVec 128}
    (hhead : headLoad (mem s n) = some e) (hbeg : e.begun = false) (hreq : e.req = []) (hps : entPairs e.cap = some (plain (ss, [])))
    (hh : entHandle e.cap = some hd) (hheld : heldBefore (mem s n) e.cap.seq = false) (hroom : loadRoom (mem s n) e 1 = true)
    (hpf : ∀ h m, e.cap.ins ≠ .pf h m) (ho : OneAccess e.cap.ins ss off k) (hal : off % k = 0)
    (ha : hAddr hd (permOf e.cap.ins) off k = .ok pa) (hu : Undisturbed s (siteCtx s n) (hKeyIdx hd) pa) (hk : pa % 32 + k ≤ 32) :
    ∃ t, loadPerform n 0 s = updMem t n (fun m => finishLoad t.cal m (readOne e ss (bytesAt s.dmem pa k))) ∧ t.dmem = s.dmem ∧
      CountsOnly s t := by
  obtain ⟨t, ht, hdm, hc⟩ := loadPiece_begunOne (ss := ss) ho hh ha hu hk
  refine ⟨t, ?_, hdm, hc⟩
  have hl : (plain (ss, ([] : List Cells))).length = 1 := rfl
  simp only [loadPerform, hhead, hbeg, hps, hh, hheld, hl, hroom, wantedFault_one ho hal ha, beginEnt_one ho hal ha, ht]
  simp [endPiece_over (e' := readOne e ss (bytesAt s.dmem pa k)) rfl hreq]

/-- Settles O32: the head entry begins with one piece, reads its bytes undisturbed, and delivers their number. -/
theorem loadPerforms : Obligations.LoadPerforms := by
  unfold Obligations.LoadPerforms
  intro s n e h m w sx o r hd pa hhead hent has hal ha hu hheld hturn hbind hroom
  have hps := entPairs_of_entry hent
  have hh := entHandle_of_entry hent
  obtain ⟨hbeg, hreq, hins, -⟩ := hent
  have ho : OneAccess e.cap.ins [o] (lmOff m o.toNat) (2 ^ w.toNat) := hins ▸ oneAccess_sld has h w sx o
  have hk : pa % 32 + 2 ^ w.toNat ≤ 32 := within_sector (by omega) (hAddr_aligned (by omega) hal ha)
  have hlr : loadRoom (mem s n) e 1 = true := by simp [loadRoom, hins, turnC, hturn, ldqRoom, hbind]; omega
  obtain ⟨t, ht, hdm, hc⟩ := loadPerform_one hhead hbeg hreq hps hh hheld hlr (by rw [hins]; nofun) ho hal (by rw [hins]; exact ha) hu hk
  obtain ⟨hregs, hlq, hsq, hldq⟩ := finishLoad_sld t.cal (mem t n) (e := readOne e [o] (bytesAt s.dmem pa (2 ^ w.toNat)))
    hins rfl rfl (by rw [hc.l, hbind])
  refine ⟨_, congrArg Host.Outcome.next ht, ⟨?_, ?_⟩, hdm, ?_, ?_⟩ <;> rw [mem_updMem_same]
  · rw [hlq, hc.l]; rfl
  · rw [hsq, hc.l]; rfl
  · rw [hregs, hc.regs]
  · rw [hldq, hc.l]
    exact congrArg (fun v => _ ++ [plain v]) (scalarOf_setBytes ..)

/-! ## Stores (R226, R227) -/

/-- One run of a piece is written undisturbed through the handle: its bytes change, and no other byte of device memory (R278). -/
theorem writePiece_undisturbed {s : State} {n : Nat} {a : Acc} {c : Cap} {p : Piece} {b : List Byte} {pa : Nat} {hd : BitVec 128} (piece : Nat)
    (hsp : spaceOf c.ins = 0) (hh : entHandle c = some hd) (ha : hAddr hd (permOf c.ins) p.off b.length = .ok pa)
    (hu : Undisturbed s a.ctx (hKeyIdx hd) pa) (hk : pa % 32 + b.length ≤ 32) :
    ∃ t, writePiece s n a c piece p [(p.off, b)] = (.done, t) ∧ CountsOnly s t ∧ ∀ x, byteAt t.dmem x = byteAt (setBytes s.dmem pa b) x := by
  obtain ⟨t, ht, hc, hx⟩ := writePa_undisturbed (a := runAcc a p p.off)
    { reqOf (.l n) c.seq piece pa b.length true b with va := entVa c p.off, lt := c.tag } false hu hk
  have hrun : writeRun s n (runAcc a p p.off) c piece p.off b false = (.done, t) := by simp only [writeRun, hsp, hh, Option.getD_some, ha, ht]
  have hclash : runClash s a c p [(p.off, b)] = none := by
    obtain ⟨hw, -, -, hq, -⟩ := hu
    simp [runClash, hsp, hh, ha, hw, debugHit_of_quiet hq]
  exact ⟨t, by simp only [writePiece, hclash, writeRuns, hrun], hc, hx⟩

/-- The store begun with its one piece written: nothing of it is left to perform. -/
def wroteOne (e : LEnt) (ss : List Word) : LEnt := { begunOne e ss with left := [] }

/-- An undisturbed scalar store writes the bytes of its register at its address, and no other byte of device memory. -/
theorem storePiece_begunOne {s : State} {n : Nat} {e : LEnt} {h : Hd} {m : LMem} {x : SReg} {w : BitVec 2} {v o : Word} {off pa : Nat}
    {hd : BitVec 128} (hi : e.cap.ins = .sst h m x w) (ho : OneAccess e.cap.ins [v, o] off (2 ^ w.toNat)) (hh : entHandle e.cap = some hd)
    (ha : hAddr hd .w off (2 ^ w.toNat) = .ok pa) (hu : Undisturbed s (siteCtx s n) (hKeyIdx hd) pa) (hk : pa % 32 + 2 ^ w.toNat ≤ 32) :
    ∃ t, storePiece s n (begunOne e [v, o]) 0 = (.ent (wroteOne e [v, o]), t) ∧ CountsOnly s t ∧
      ∀ a, byteAt t.dmem a = byteAt (setBytes s.dmem pa (leBytes (2 ^ w.toNat) v.toNat)) a := by
  let b := leBytes (2 ^ w.toNat) v.toNat
  let p : Piece := ⟨off, 2 ^ w.toNat, 0⟩
  have hb : b.length = 2 ^ w.toNat := length_leBytes ..
  obtain ⟨t, ht, hc, hx⟩ := writePiece_undisturbed (a := storeAcc s n e.cap) (p := p) (b := b) 0 ho.1 hh (by rw [hb, hi]; exact ha) hu
    (by rw [hb]; exact hk)
  refine ⟨countBytes t n (2 ^ w.toNat), ?_, hc.trans (countsOnly_updMem_countN t n 0x043 (2 ^ w.toNat)), hx⟩
  have hbytes : joinRuns (pieceBytes e.cap ⟨0, [v, o], []⟩ p) = [(off, b)] := by simp [pieceBytes, hi, joinRuns, p, b, w0]
  have hleft : ((begunOne e [v, o]).left.contains 0 && pieceTurn (begunOne e [v, o]) 0) = true := by simp [pieceTurn, hi, begunOne]
  have hzero : afterZero (countBytes t n (2 ^ w.toNat)) e.cap p = countBytes t n (2 ^ w.toNat) := by simp [afterZero, hi]
  simp only [storePiece, hleft, if_true, pieceOf_begunOne ho, begunOne_cap]
  rw [hbytes, ht]
  exact Prod.ext rfl hzero

/-- The head of the store queue has not begun: its one piece performs undisturbed, and the store is over. -/
theorem storePerform_sst {s : State} {n : Nat} {e : LEnt} {h : Hd} {m : LMem} {x : SReg} {w : BitVec 2} {v o : Word} {off pa : Nat}
    {hd : BitVec 128} (hhead : headStore (mem s n) = some e) (hbeg : e.begun = false) (hreq : e.req = [])
    (hps : entPairs e.cap = some (plain ([v, o], []))) (hh : entHandle e.cap = some hd) (hi : e.cap.ins = .sst h m x w)
    (ho : OneAccess e.cap.ins [v, o] off (2 ^ w.toNat)) (hal : off % 2 ^ w.toNat = 0) (ha : hAddr hd .w off (2 ^ w.toNat) = .ok pa)
    (hu : Undisturbed s (siteCtx s n) (hKeyIdx hd) pa) (hk : pa % 32 + 2 ^ w.toNat ≤ 32) :
    ∃ t, storePerform n 0 s = updMem t n (fun m => count (dropEnt m (wroteOne e [v, o])) 0x041) ∧ CountsOnly s t ∧
      ∀ a, byteAt t.dmem a = byteAt (setBytes s.dmem pa (leBytes (2 ^ w.toNat) v.toNat)) a := by
  obtain ⟨t, ht, hc, hx⟩ := storePiece_begunOne hi ho hh ha hu hk
  refine ⟨t, ?_, hc, hx⟩
  have hready : storeReady e.cap = .go ([v, o], []) hd := by simp [storeReady, onePair, hps, plain, hh]
  have ha' : hAddr hd (permOf e.cap.ins) off (2 ^ w.toNat) = .ok pa := by rw [hi]; exact ha
  have hone : ([(0, .val ([v, o], []))] : Alts (List Word × List Cells)) = plain ([v, o], []) := rfl
  have hwant : wantedFault { e.cap with lit := none } hd (numbered (plain ([v, o], []))) = none := wantedFault_one ho hal ha'
  simp only [hi] at hwant
  simp only [storePerform, hhead, hi, hbeg, hready, hone, hwant, beginEnt_one ho hal ha', ht]
  simp [endPiece_over (e' := wroteOne e [v, o]) rfl hreq]

/-- Settles O33: the head entry begins with one piece and writes the bytes of its register undisturbed. -/
theorem storePerforms : Obligations.StorePerforms := by
  unfold Obligations.StorePerforms
  intro s n e h m w x v o r hd pa hhead hent has hal ha hu
  have hps := entPairs_of_entry hent
  have hh := entHandle_of_entry hent
  obtain ⟨hbeg, hreq, hins, -⟩ := hent
  have ho : OneAccess e.cap.ins [v, o] (lmOff m o.toNat) (2 ^ w.toNat) := hins ▸ oneAccess_sst has h x w v o
  have hk : pa % 32 + 2 ^ w.toNat ≤ 32 := within_sector (by omega) (hAddr_aligned (by omega) hal ha)
  obtain ⟨t, ht, hc, hx⟩ := storePerform_sst hhead hbeg hreq hps hh hins ho hal ha hu hk
  refine ⟨_, congrArg Host.Outcome.next ht, ⟨?_, ?_⟩, ?_, fun a => ?_⟩
  · rw [mem_updMem_same, ← hc.l]; rfl
  · rw [mem_updMem_same, ← hc.l]; rfl
  · rw [mem_updMem_same, ← hc.regs]; rfl
  · rw [updMem_dmem, hx, byteAt_setBytes]
    simp only [length_leBytes, getElem_leBytes]
    rfl

end Sys2Proof.Proofs
end

