-- ==== Sys2Proof/Proofs/LinkState.lean ====
section
/-! SUPPORT. Which links are down is changed by link events alone (R390): the end of a launch, a fault, and an answer from outside
leave it. -/

namespace Sys2Proof.Proofs

open Sys2Proof Sys2Proof.Machine Sys2Proof.Laws

/-- What every step of a fold keeps, the fold keeps. -/
theorem foldl_keeps {α β γ : Type} (g : β → γ) {f : β → α → β} (h : ∀ b a, g (f b a) = g b) (l : List α) (b : β) :
    g (l.foldl f b) = g b := by
  induction l generalizing b with
  | nil => rfl
  | cons a r ih => exact (ih (f b a)).trans (h b a)

/-! ## The end of a launch (R348) -/

@[simp] theorem waitRec_linkDown (s : State) (n : Nat) (t : WaitTimer) (u : LastSet) (g : LoopTag) :
    (waitRec s n t u g).linkDown = s.linkDown := by
  unfold waitRec; split <;> rfl

@[simp] theorem cutWaits_linkDown (s : State) (id : Word32) (sites : List Nat) : (cutWaits s id sites).linkDown = s.linkDown := by
  unfold cutWaits
  rw [foldl_keeps State.linkDown, foldl_keeps State.linkDown]
  · intro s n
    rw [foldl_keeps State.linkDown, foldl_keeps State.linkDown] <;> exact fun _ _ => waitRec_linkDown ..
  · intro s p
    split
    · exact waitRec_linkDown ..
    · rfl

@[simp] theorem setFlag_linkDown (s : State) (k : FlagKey) (v : Word32) (a b : BitVec 16) : (setFlag s k v a b).linkDown = s.linkDown := by
  cases k <;> rfl

@[simp] theorem breakBarriers_linkDown (s : State) (sites : List Nat) : (breakBarriers s sites).linkDown = s.linkDown := by
  unfold breakBarriers
  apply foldl_keeps State.linkDown
  intro s p
  split
  · rfl
  · split
    · have h := setFlag_linkDown s (.dev (p.1 + 1)) (breakWord (flagVal s (.dev (p.1 + 1))) 1) (srcId 5 0 0) 0
      generalize setFlag s (.dev (p.1 + 1)) (breakWord (flagVal s (.dev (p.1 + 1))) 1) (srcId 5 0 0) 0 = u at h ⊢
      exact h
    · rfl

@[simp] theorem spoilSaves_linkDown (s : State) (sites : List Nat) : (spoilSaves s sites).linkDown = s.linkDown := by
  unfold spoilSaves
  apply foldl_keeps State.linkDown
  intro s n
  dsimp only
  split <;> rfl

@[simp] theorem preemptDone_linkDown (s : State) (id : Word32) : (preemptDone s id).linkDown = s.linkDown := by
  unfold preemptDone; split <;> rfl

@[simp] theorem endLaunch_linkDown (s : State) (id : Word32) (sites : List Nat) (status cause : Nat) :
    (endLaunch s id sites status cause).linkDown = s.linkDown := by
  let u := sites.foldl (fun s n => updMem s n endMember) (cutWaits (spoilSaves (tallyEvents s id sites) sites) id sites)
  let v := releasePins (endLookups u id) id
  have hu : u.linkDown = s.linkDown := by
    simp only [u]
    rw [foldl_keeps State.linkDown (f := fun s n => updMem s n endMember) (fun _ _ => rfl), cutWaits_linkDown, spoilSaves_linkDown]
    rfl
  have hv : (if status = 0 then v else breakBarriers v sites).linkDown = s.linkDown := by
    split
    · exact hu
    · exact (breakBarriers_linkDown v sites).trans hu
  unfold endLaunch
  rw [preemptDone_linkDown]
  exact hv

/-! ## Faults and answers (R47, R393) -/

@[simp] theorem postRec_linkDown (s : State) (r : FaultRec) : (postRec s r).linkDown = s.linkDown := by
  unfold postRec; split <;> rfl

/-- A recorded fault puts Vigil in force or ends a launch (R348, R427). -/
theorem vigilOrEnd_linkDown (s : State) (r : Option FaultRec) (id : Word32) (sites : List Nat) (c : Nat) :
    (if vigilArmed s 2 then vigilFire s 3 r else endLaunch s id sites 2 c).linkDown = s.linkDown := by
  split
  · rfl
  · exact endLaunch_linkDown ..

@[simp] theorem takeRaised_linkDown (s : State) (n : Nat) (x : Raised) : (takeRaised s n x).linkDown = s.linkDown := by
  unfold takeRaised
  split
  · rfl
  · exact (vigilOrEnd_linkDown ..).trans (postRec_linkDown ..)

@[simp] theorem takeFault_linkDown (s : State) (n k sub q addr i : Nat) (tag : LoopTag) (t : Trap) :
    (takeFault s n k sub q addr i tag t).linkDown = s.linkDown := takeRaised_linkDown ..

/-- A link error reaches L (R393). -/
theorem answerL_linkError_linkDown (s : State) (n seq piece : Nat) : (answerL s n seq piece .linkError).linkDown = s.linkDown := by
  unfold answerL
  split
  · rfl
  · split
    case h_5 =>
      dsimp only
      split
      · rfl
      · exact takeFault_linkDown ..
    all_goals contradiction

theorem answerEng_linkError_linkDown (s : State) (n : Nat) (e : Fin 4) (idx : BitVec 32) (piece va : Nat) :
    (answerEng s n e idx piece va .linkError).linkDown = s.linkDown := by
  unfold answerEng
  split
  · rfl
  · split <;> rfl

theorem rejectEng_linkDown (s : State) (n : Nat) (e : Fin 4) (idx : BitVec 32) (va : Nat) (x : Answer) :
    (rejectEng s n e idx va x).linkDown = s.linkDown := by
  unfold rejectEng
  split
  · rfl
  · split <;> rfl

theorem answerLk_linkDown (s : State) (k tag : Nat) (x : Option (List Byte)) (kind : Kind) :
    (answerLk s k tag x kind).linkDown = s.linkDown := by
  unfold answerLk
  dsimp only
  split
  · split
    · cases x <;> rfl
    · rfl
  · rfl

/-- A link error reaches its requester: L, a stream, a lookup core, or the device. -/
theorem answerOut_linkError_linkDown (s : State) (r : OutReq) : (answerOut s r .linkError).linkDown = s.linkDown := by
  unfold answerOut answerTo
  dsimp only
  split
  · rfl
  · split
    · split
      · split
        · exact takeFault_linkDown ..
        · rfl
      · exact answerL_linkError_linkDown ..
    · split
      · exact rejectEng_linkDown ..
      · exact answerEng_linkError_linkDown ..
    · split
      · rfl
      · exact answerLk_linkDown ..
    · rfl

theorem linkErrors_linkDown (port : Nat) (l : List OutReq) : ∀ s, (linkErrors port l s).linkDown = s.linkDown := by
  induction l with
  | nil => intro s; rfl
  | cons r rest ih =>
    intro s
    unfold linkErrors
    split
    · exact ih s
    · dsimp only
      rw [ih]
      split
      · exact answerOut_linkError_linkDown ..
      · rfl

end Sys2Proof.Proofs
end

