-- ==== Sys2Proof/Proofs/Security.lean ====
section
/-! SUPPORT and PROOF. Vigil, resets and the bring-up, attestation, keys, alarms, clock changes and links (R8, R390, R427 to R433). -/

namespace Sys2Proof.Proofs

open Sys2Proof Sys2Proof.Machine Sys2Proof.Laws Sys2Proof.Claims

/-! ## Vigil (R427) -/

/-- VIGIL_CTL after a trigger: its low byte has ACTIVE set, its high byte holds the cause. -/
theorem vigilFire_toNat (s : State) {cause : Nat} (r : Option FaultRec) (h : cause < 256) :
    (vigilFire s cause r).vigil.toNat = (s.vigil.toNat % 256 ||| 16) + cause * 256 := by
  have hlow : s.vigil.toNat % 256 ||| 16 < 2 ^ 8 := Nat.or_lt_two_pow (Nat.mod_lt _ (by decide)) (by decide)
  have hor : (s.vigil.toNat % 256 ||| 16 ||| cause * 256) = (s.vigil.toNat % 256 ||| 16) + cause * 256 := by
    rw [Nat.or_comm, Nat.add_comm, Nat.mul_comm cause 256]
    exact (Nat.two_pow_add_eq_or_of_lt hlow cause).symm
  simp only [vigilFire, BitVec.toNat_ofNat, hor]
  exact Nat.mod_eq_of_lt (by omega)

/-- After a trigger Vigil is in force, with its cause. -/
theorem vigilFire_active (s : State) {cause : Nat} (r : Option FaultRec) (h : cause < 256) :
    vigilActive (vigilFire s cause r) = true ∧ (vigilFire s cause r).vigil.toNat / 256 = cause := by
  have hlow : s.vigil.toNat % 256 ||| 16 < 2 ^ 8 := Nat.or_lt_two_pow (Nat.mod_lt _ (by decide)) (by decide)
  have hbit : (s.vigil.toNat % 256 ||| 16) / 16 % 2 = 1 := by
    have := Nat.testBit_or (s.vigil.toNat % 256) 16 4
    simp [Nat.testBit_eq_decide_div_mod_eq] at this
    simpa using this
  rw [vigilActive, vigilFire_toNat s r h]
  constructor
  · simp only [bits]; simp; omega
  · omega

/-- Vigil is not in force while VIGIL_CTL is zero. -/
theorem vigilActive_of_zero {t : State} (h : t.vigil = 0) : vigilActive t = false := by simp [vigilActive, bits, h]

/-- An armed trigger fires where Vigil is not in force. -/
theorem vigilAsk_armed {s : State} (cause : Nat) (harm : s.vigil.toNat % 2 = 1) (hoff : vigilActive s = false) :
    vigilAsk s cause = vigilFire s cause none := by
  simp [vigilAsk, bits, harm, hoff]

theorem vigilTrigger_fires {s : State} (harm : s.vigil.toNat % 2 = 1) (hoff : vigilActive s = false) {c : BitVec 8} (hc : c = 1 ∨ c = 2) :
    Happens (.vigilTrigger c) s fun t => vigilActive t = true ∧ t.vigil.toNat / 256 = c.toNat ∧ t.vigilTv = s.cal ∧
      t.members = s.members ∧ t.dmem = s.dmem := by
  obtain ⟨hact, hcause⟩ := vigilFire_active s none c.isLt
  have hif : (if c = 1 ∨ c = 2 then vigilAsk s c.toNat else s) = vigilFire s c.toNat none := by rw [if_pos hc, vigilAsk_armed _ harm hoff]
  exact ⟨_, congrArg Host.Outcome.next hif, hact, hcause, rfl, rfl, rfl⟩

theorem vigilTrig_fires {s : State} (harm : s.vigil.toNat % 2 = 1) (hoff : vigilActive s = false) :
    Happens .vigilTrig s fun t => vigilActive t = true ∧ t.vigil.toNat / 256 = 2 ∧ t.vigilTv = s.cal ∧ t.dmem = s.dmem := by
  obtain ⟨hact, hcause⟩ := vigilFire_active s (cause := 2) none (by decide)
  exact ⟨_, congrArg Host.Outcome.next (vigilAsk_armed 2 harm hoff), hact, hcause, rfl, rfl⟩

/-- The image is read while Vigil is in force. -/
theorem vigilImageRead_active {s : State} (off : Nat) (hon : vigilActive s = true) (hrun : s.halted = false) :
    exec (.vigilImageRead off) s = .next { s with vigilOut := imageWindow off 4096 (imageSections s) } :=
  congrArg Host.Outcome.next (by rw [if_neg (by simp [hrun]), if_pos hon])

/-! ## Resets and the bring-up (R428, R429) -/

@[simp] theorem bringUp_cal (b : Boot) (t : State) : (bringUp b t).cal = t.cal := by
  unfold bringUp; dsimp only; split <;> split <;> rfl
@[simp] theorem bringUp_members (b : Boot) (t : State) : (bringUp b t).members = t.members := by
  unfold bringUp; dsimp only; split <;> split <;> rfl
@[simp] theorem bringUp_launches (b : Boot) (t : State) : (bringUp b t).launches = t.launches := by
  unfold bringUp; dsimp only; split <;> split <;> rfl
@[simp] theorem bringUp_vigil (b : Boot) (t : State) : (bringUp b t).vigil = t.vigil := by
  unfold bringUp; dsimp only; split <;> split <;> rfl
@[simp] theorem bringUp_dmem (b : Boot) (t : State) : (bringUp b t).dmem = t.dmem := by
  unfold bringUp; dsimp only; split <;> split <;> rfl

/-- What the bring-up leaves of a module whose clocks do not stand still. -/
theorem boots_bringUp (b : Boot) {t : State} (h : t.halted = false) : Boots b (bringUp b t) := by
  have hs : b.status.val % 256 = b.status.val := Nat.mod_eq_of_lt (by omega)
  unfold bringUp
  dsimp only
  by_cases hm : b.failStep = 1 ∨ b.failStep = 2
  · have hr : 1 ≤ b.failStep ∧ b.failStep ≤ 3 := by omega
    rw [if_pos hm, if_pos hr]
    refine ⟨by simp [hr], fun _ => by simp, fun h => by omega, fun h => by omega, nofun, fun h1 h2 => absurd hm (by omega)⟩
  · rw [if_neg hm]
    by_cases hr : 1 ≤ b.failStep ∧ b.failStep ≤ 3
    · rw [if_pos hr]
      exact ⟨by simp [hr], fun _ => by simp, fun h => by omega, fun h => by omega, nofun, fun _ _ => ⟨rfl, rfl⟩⟩
    · rw [if_neg hr]
      refine ⟨by simp [hr, h], fun h' => absurd h' (by simp [h]), fun h4 => by simp [h4, hs], fun h0 => by simp [h0], fun _ => rfl,
        fun _ _ => ⟨rfl, rfl⟩⟩

/-- Nothing is lost where L2 held no write alone (R303). -/
theorem loseDirty_dmem {s : State} (h : dirtySectors s = []) : (loseDirty s).dmem = s.dmem := by simp [loseDirty, h]

/-- The Vigil reset brings the module up again, and keeps device memory but for what only L2 held (R428). -/
theorem vigilReset_boots {s : State} (hon : vigilActive s = true) (hrun : s.halted = false) :
    Happens .vigilReset s fun t => t.cal = 0 ∧ t.members = [] ∧ t.launches = [] ∧ vigilActive t = false ∧
      (dirtySectors s = [] → t.dmem = s.dmem) ∧ Boots (Config.boot s.free) t := by
  have hif : resetVigil s = bringUp (Config.boot s.free) (afterReset (loseDirty { s with free := s.free + 1 }) _ _ _) :=
    if_neg (by simp [hon, hrun])
  refine ⟨_, congrArg Host.Outcome.next hif, bringUp_cal .., bringUp_members .., bringUp_launches .., ?_, fun hclean => ?_, boots_bringUp _ rfl⟩
  · exact vigilActive_of_zero (bringUp_vigil ..)
  · rw [bringUp_dmem]
    exact loseDirty_dmem (s := { s with free := s.free + 1 }) hclean

/-- The cold reset brings the module up, with device memory zeroed where step 3 is done (R429). -/
theorem coldReset_boots (s : State) (b : Boot) :
    Happens (.coldReset b) s fun t => t.cal = 0 ∧ t.members = [] ∧ t.launches = [] ∧
      t.dmem = (if 1 ≤ b.failStep ∧ b.failStep ≤ 3 then s.dmem else []) ∧ Boots b t := by
  refine ⟨_, rfl, ?_⟩
  split
  · exact ⟨bringUp_cal .., bringUp_members .., bringUp_launches .., bringUp_dmem .., boots_bringUp _ rfl⟩
  · exact ⟨bringUp_cal .., bringUp_members .., bringUp_launches .., bringUp_dmem .., boots_bringUp _ rfl⟩

/-! ## Attestation (R430) -/

theorem insertBy_perm {α : Type} (lt : α → α → Bool) (x : α) (l : List α) : (insertBy lt x l).Perm (x :: l) := by
  induction l with
  | nil => exact .refl _
  | cons y r ih =>
    unfold insertBy
    split
    · exact .refl _
    · exact (ih.cons y).trans (.swap x y r)

/-- Sorting keeps the elements. -/
theorem sortBy_perm {α : Type} (lt : α → α → Bool) (l : List α) : (sortBy lt l).Perm l := by
  have h : ∀ (l p : List α), (l.foldl (fun a x => insertBy lt x a) p).Perm (l ++ p) := by
    intro l
    induction l with
    | nil => intro p; exact .refl _
    | cons x r ih =>
      intro p
      exact (ih _).trans (((insertBy_perm lt x p).append_left r).trans List.perm_middle)
  simpa [sortBy] using h l []

/-- Every field of the report stands in it as one run of bytes. -/
theorem reportField_in_report (s : State) (nonce : BitVec 256) {x : List Byte} (h : x ∈ reportFields s nonce) : x <:+: report s nonce := by
  obtain ⟨i, hi⟩ := List.mem_iff_getElem?.1 h
  have hin := (sortBy_perm (byKey fun x : List Byte × Nat => Config.reportTurn x.2) (reportFields s nonce).zipIdx).mem_iff.2
    (List.mk_mem_zipIdx_iff_getElem?.2 hi)
  have hx : x <:+: Config.reportFill i ++ x := (List.suffix_append _ _).isInfix
  have hfield : Config.reportFill i ++ x <:+: _ :=
    List.infix_of_mem_flatten (List.mem_map_of_mem (f := fun x => Config.reportFill x.2 ++ x.1) hin)
  exact (hx.trans hfield).trans (List.prefix_append _ _).isInfix

/-- The report is put in the mailbox with its signature, and holds every field (R430). -/
theorem attestationReport_signed {s : State} (func : Nat) (nonce : BitVec 256) (hrun : s.halted = false) (hoff : vigilActive s = false) :
    Happens (.attestationReport func nonce) s fun t => ∃ r, (∀ x ∈ reportFields s nonce, x <:+: r) ∧
      t.mailbox = s.mailbox ++ [(func, r ++ ed448ph (leBytes 57 Config.identityKey.toNat) r)] ∧ t.dmem = s.dmem :=
  ⟨_, congrArg Host.Outcome.next (if_neg (by simp [hrun, hoff])), report s nonce, fun _ => reportField_in_report s nonce, rfl, rfl⟩

/-! ## Keys and alarms (R432, R433) -/

/-- A key slot that no bound launch names takes its key. -/
theorem keySlotWrite_free {s : State} {slot : Nat} (key : BitVec 512) (hslot : slot < 2048) (hrun : s.halted = false)
    (hfree : ∀ l ∈ s.launches, launchBound l = true → (ctxOf s l.ctx.toNat).key.toNat ≠ slot) :
    Happens (.keySlotWrite slot key) s fun t => t.dmem = s.dmem ∧ ∀ k, tget 0 t.keys k = if k = slot then key else tget 0 s.keys k := by
  have hany : (s.launches.any fun l => launchBound l && (ctxOf s l.ctx.toNat).key.toNat == slot) = false := by
    simpa using hfree
  exact ⟨_, congrArg Host.Outcome.next (if_neg (by simp [hrun, hany, hslot])), rfl, fun k => tget_tput 0 s.keys slot k key⟩

/-- The typed buffers of a member zeroed. -/
def zeroBuffers (m : Member) : Member := { m with buf := { m.buf with wb := [], ab := [], cb := [], bad := [] } }

/-- What a change of every listed member makes of each of them: a member that is not listed is as if unbound. -/
theorem tget_mapSnd {α : Type} (d : α) (f : α → α) (t : Tab α) (k : Nat) :
    tget d (t.map fun p => (p.1, f p.2)) k = f (tget d t k) ∨ (tget d (t.map fun p => (p.1, f p.2)) k = d ∧ tget d t k = d) := by
  induction t with
  | nil => exact .inr ⟨rfl, rfl⟩
  | cons p r ih =>
    obtain ⟨j, a⟩ := p
    by_cases h : j = k
    · exact .inl (by simp [tget, h])
    · simpa [tget, h] using ih

/-- A member after an alarm of level 2: its registers stand, its buffers are zero. -/
theorem alarmLevel2_member {s t : State} (h : t.members = s.members.map fun p => (p.1, zeroBuffers p.2)) (n : Nat) :
    (mem t n).buf.wb = [] ∧ (mem t n).buf.ab = [] ∧ (mem t n).buf.cb = [] ∧ (mem t n).regs = (mem s n).regs := by
  unfold mem
  rw [h]
  rcases tget_mapSnd Member.free zeroBuffers s.members n with e | ⟨e, e'⟩
  · rw [e]; exact ⟨rfl, rfl, rfl, rfl⟩
  · rw [e, e']; exact ⟨rfl, rfl, rfl, rfl⟩

theorem alarmLevel2_zeroes (s : State) :
    Happens .alarmLevel2 s fun t => t.halted = true ∧ t.keys = [] ∧ t.l2 = [] ∧ (dirtySectors s = [] → t.dmem = s.dmem) ∧
      ∀ n, (mem t n).buf.wb = [] ∧ (mem t n).buf.ab = [] ∧ (mem t n).buf.cb = [] ∧ (mem t n).regs = (mem s n).regs :=
  ⟨_, rfl, rfl, rfl, rfl, loseDirty_dmem, alarmLevel2_member rfl⟩

/-! ## The core clock (R8, R423) -/

theorem tracePut_clockMhz (s : State) (n tick : Nat) (bind : Bool) (b : List Byte) : (tracePut s n tick bind b).clockMhz = s.clockMhz := by
  unfold tracePut traceRaw
  dsimp only
  split <;> rfl

theorem traceAfter_clockMhz (s : State) (n tick : Nat) (bind : Bool) (b : List Byte) : (traceAfter s n tick bind b).clockMhz = s.clockMhz := by
  have h : (if (tget TraceSt.reset s.traceSt n).lost then tracePut s n tick false (timeBase s 3 1 tick) else s).clockMhz = s.clockMhz := by
    split
    · exact tracePut_clockMhz ..
    · rfl
  unfold traceAfter
  dsimp only
  generalize (if (tget TraceSt.reset s.traceSt n).lost then tracePut s n tick false (timeBase s 3 1 tick) else s) = u at h ⊢
  split
  · exact h
  · exact (tracePut_clockMhz ..).trans h

/-- Between launches the clock changes, whatever the trace rings take (R8). -/
theorem coreClockChange_idle {s : State} (mhz : Nat) (stopped : Bool) (h : ∀ l ∈ s.launches, l.state = .ended) :
    Happens (.coreClockChange mhz stopped) s fun t => t.clockMhz = mhz := by
  have hany : (s.launches.any fun l => l.state != .ended) = false := by simpa using h
  refine ⟨_, congrArg Host.Outcome.next (if_neg (by simp [hany])), ?_⟩
  exact foldl_keeps State.clockMhz (fun s n => traceAfter_clockMhz s n s.cal false _) _ _

/-- While a launch has not ended the clock does not change (R8). -/
theorem coreClockChange_busy {s : State} (mhz : Nat) (stopped : Bool) (h : ∃ l ∈ s.launches, l.state ≠ .ended) :
    exec (.coreClockChange mhz stopped) s = .next s := by
  have hany : (s.launches.any fun l => l.state != .ended) = true := by simpa using h
  exact congrArg Host.Outcome.next (if_pos hany)

/-! ## Links (R390) -/

/-- A port goes down, whatever becomes of the requests sent through it. -/
theorem linkDown_takes {s : State} {port : Nat} (hp : port < 12) (hup : tget false s.linkDown port = false) :
    Happens (.linkDown port) s fun t => tget false t.linkDown port = true := by
  refine ⟨_, congrArg Host.Outcome.next (if_neg (by simp [hup, hp])), ?_⟩
  dsimp only
  rw [linkErrors_linkDown]
  exact tget_tput_same false s.linkDown port true

theorem linkRetrain_takes {s : State} (port : Nat) (hclk : clocksStand s = false) :
    Happens (.linkRetrain port) s fun t => tget false t.linkDown port = false ∧ t.dmem = s.dmem :=
  ⟨_, congrArg Host.Outcome.next (if_neg (by simp [hclk])), tget_tput_same false s.linkDown port false, rfl⟩

/-- Settles O51, clause by clause. -/
theorem securityAndLinks : Obligations.SecurityAndLinks := by
  unfold Obligations.SecurityAndLinks
  intro s
  exact ⟨fun harm hoff => ⟨fun _ => vigilTrigger_fires harm hoff, vigilTrig_fires harm hoff⟩, vigilReset_boots, vigilImageRead_active,
    coldReset_boots s, attestationReport_signed, fun _ => keySlotWrite_free, ⟨_, rfl, rfl, rfl⟩, alarmLevel2_zeroes s,
    fun mhz stopped => ⟨coreClockChange_idle mhz stopped, coreClockChange_busy mhz stopped⟩, fun _ => linkDown_takes, linkRetrain_takes⟩

end Sys2Proof.Proofs
end

