-- ==== Sys2Proof/Proofs/TabRows.lean ====
section
/-! SUPPORT. What a read finds in a table built from a function, cut out of another, or put together row by row. -/

namespace Sys2Proof.Proofs

open Sys2Proof Sys2Proof.Machine Sys2Proof.Laws Sys2Proof.Claims

/-! ## Tables built from functions and from other tables -/

section
variable {α : Type} (d : α)

theorem tget_append_of_absent_left {t u : Tab α} {k : Nat} (h : ∀ p ∈ t, p.1 ≠ k) : tget d (t ++ u) k = tget d u k := by
  induction t with
  | nil => rfl
  | cons p r ih =>
    obtain ⟨hp, hr⟩ := List.forall_mem_cons.1 h
    simpa [tget, hp] using ih hr

theorem tget_of_absent {t : Tab α} {k : Nat} (h : ∀ p ∈ t, p.1 ≠ k) : tget d t k = d := by
  simpa [tget] using tget_append_of_absent_left d (u := []) h

theorem tget_append_of_absent_right {t u : Tab α} {k : Nat} (h : ∀ p ∈ u, p.1 ≠ k) : tget d (t ++ u) k = tget d t k := by
  induction t with
  | nil => exact tget_of_absent d h
  | cons p r ih => simp only [List.cons_append, tget, ih]

/-- The table of a function at the keys of a list. -/
theorem tget_tofn [DecidableEq α] (f : Nat → α) {ks : List Nat} {k : Nat} (h : k ∈ ks) : tget d (tofn d ks f) k = f k := by
  have hcons (j : Nat) (r : List Nat) : tofn d (j :: r) f = if f j = d then tofn d r f else (j, f j) :: tofn d r f := by
    simp only [tofn, List.filterMap_cons]
    split <;> split <;> simp_all
  have hout (r : List Nat) (hr : k ∉ r) : tget d (tofn d r f) k = d := by
    refine tget_of_absent d fun p hp e => hr ?_
    simp only [tofn, List.mem_filterMap] at hp
    obtain ⟨j, hj, hjp⟩ := hp
    split at hjp
    · cases hjp
    · cases hjp; exact e ▸ hj
  induction ks with
  | nil => cases h
  | cons j r ih =>
    rw [hcons]
    by_cases hr : k ∈ r
    · by_cases hj : j = k
      · subst hj; split
        · exact ih hr
        · simp [tget]
      · split
        · exact ih hr
        · simp [tget, hj, ih hr]
    · obtain rfl : k = j := (List.mem_cons.1 h).resolve_right hr
      split
      · rename_i e; rw [hout r hr, e]
      · simp [tget]

/-- A stretch of a table, renumbered from zero. -/
theorem tget_tslice (t : Tab α) (lo : Nat) {n j : Nat} (h : j < n) : tget d (tslice t lo n) j = tget d t (lo + j) := by
  induction t with
  | nil => rfl
  | cons p r ih =>
    obtain ⟨k, a⟩ := p
    simp only [tslice, List.filterMap_cons] at ih ⊢
    by_cases hk : lo ≤ k ∧ k < lo + n
    · have e : k - lo = j ↔ k = lo + j := by omega
      simp [hk, tget, ih, e]
    · have e : k ≠ lo + j := by omega
      simp [hk, tget, ih, e]

/-- Rows of w columns each, put together into one table: row i begins at key w * i. -/
theorem tget_rows {w : Nat} {rows : Nat → Tab α} (hw : ∀ i, ∀ p ∈ rows i, p.1 < w) {n i j : Nat} (hi : i < n) (hj : j < w) :
    tget d ((List.range n).flatMap fun i => (rows i).map fun p => (w * i + p.1, p.2)) (w * i + j) = tget d (rows i) j := by
  have hother : ∀ i', i' ≠ i → ∀ p ∈ (rows i').map fun p => (w * i' + p.1, p.2), p.1 ≠ w * i + j := by
    intro i' hne p hp he
    obtain ⟨q, hq, rfl⟩ := List.mem_map.1 hp
    have hdiv : ∀ a b, b < w → (w * a + b) / w = a := fun a b hb => by
      rw [Nat.mul_add_div (by omega), Nat.div_eq_of_lt hb, Nat.add_zero]
    exact hne ((hdiv i' q.1 (hw i' q hq)).symm.trans ((congrArg (· / w) he).trans (hdiv i j hj)))
  have hrow : ∀ t : Tab α, tget d (t.map fun p => (w * i + p.1, p.2)) (w * i + j) = tget d t j := by
    intro t
    induction t with
    | nil => rfl
    | cons p r ih => simp [tget, ih]
  induction n with
  | zero => omega
  | succ n ih =>
    rw [List.range_succ, List.flatMap_append, List.flatMap_singleton]
    by_cases hn : i = n
    · subst hn
      rw [tget_append_of_absent_left, hrow]
      intro p hp
      obtain ⟨i', hi', hp'⟩ := List.mem_flatMap.1 hp
      exact hother i' (by have := List.mem_range.1 hi'; omega) p hp'
    · rw [tget_append_of_absent_right d (hother n (Ne.symm hn)), ih (by omega)]

end

theorem lt_of_mem_tslice {α : Type} {t : Tab α} {lo n : Nat} {p : Nat × α} (h : p ∈ tslice t lo n) : p.1 < n := by
  obtain ⟨q, -, hq⟩ := List.mem_filterMap.1 h
  split at hq
  · cases hq; dsimp only; omega
  · cases hq

theorem mem_of_mem_tofn {α : Type} [DecidableEq α] {d : α} {ks : List Nat} {f : Nat → α} {p : Nat × α} (h : p ∈ tofn d ks f) :
    p.1 ∈ ks := by
  obtain ⟨k, hk, hkp⟩ := List.mem_filterMap.1 h
  dsimp only at hkp
  split at hkp
  · cases hkp
  · cases hkp; exact hk

end Sys2Proof.Proofs
end

