-- ==== Sys2Proof/Proofs/MatrixTiles.lean ====
section
/-! SUPPORT and PROOF. What an accumulator tile holds at the end of a matrix multiply (R79, R206). -/

namespace Sys2Proof.Proofs

open Sys2Proof Sys2Proof.Machine Sys2Proof.Laws Sys2Proof.Claims

/-- A cell of a tile with a block of its cells changed. -/
theorem tget_mapTile {w i j : Nat} (r0 c0 na nb : Nat) (f : Nat → Nat → Word → Word) (t : Tab Word) (hi : i < w) (hj : j < w) :
    tget 0 (mapTile w r0 c0 na nb f t) (w * i + j) =
      if (r0 ≤ i ∧ i < r0 + na) ∧ c0 ≤ j ∧ j < c0 + nb then f (i - r0) (j - c0) (tget 0 t (w * i + j)) else tget 0 t (w * i + j) := by
  unfold mapTile
  rw [tget_rows _ _ hi hj]
  · by_cases hr : r0 ≤ i ∧ i < r0 + na
    · simp only [hr, if_true, true_and, tget_tofn (0 : Word) _ (List.mem_range.2 hj), tget_tslice 0 t _ hj]
    · simp only [hr, if_false, false_and, tget_tslice 0 t _ hj]
  · intro i p hp
    dsimp only at hp
    split at hp
    · exact List.mem_range.1 (mem_of_mem_tofn hp)
    · exact lt_of_mem_tslice hp

/-- A cell of a tile once rows of A have been accumulated against rows of B: the loop of R79. -/
theorem tget_macTile {f : Fmt} {mode : Mode} {w i j : Nat} {a b : List (List FVal)} (t : Tab Word) (hi : i < w) (hj : j < w)
    (ha : i < a.length) (hb : j < b.length) :
    tget 0 (macTile f mode w 0 0 a b t) (w * i + j) =
      BitVec.ofNat 64 (dotAcc f mode (tget 0 t (w * i + j)).toNat a[i] b[j]) := by
  rw [macTile, tget_mapTile _ _ _ _ _ _ hi hj, if_pos (by omega)]
  simp [ha, hb]

/-- A tile of a stream has at most 128 rows (R195). -/
theorem sRows_le (v : BitVec 256) : sRows v ≤ 128 := by
  have : sField v 87 81 < 128 := Nat.mod_lt _ (by decide)
  exact this

theorem accTile_setAcc {x : Mat} (tl : Nat) (t : Tab Word) (h : x.acc.length = 4) : accTile (setAcc x tl t) tl = t := by
  have : tl % 4 < x.acc.length := by omega
  simp [accTile, setAcc, this]

/-- The end of an `mmac` of one tile replaces the accumulator of that tile. -/
theorem macEnd_oneTile {x : Mat} {o : MatOp} {h : Hd} {st : SReg} {fa fb : AReg} {tl : Fin 16} (hins : o.ins = .mmac h st fa fb tl 0) :
    macEnd x o = setAcc x tl.val (macTile (mFmt x) (mMode x) (mSide x) 0 0 ((List.range (sRows o.fa)).map (opRow o.ab o.fa))
      ((List.range (sRows o.fb)).map (opRow o.wb o.fb)) (accTile x tl.val)) := by
  simp [macEnd, hins]

/-- Settles O25: the one tile's accumulator is replaced, cell by cell, by what R79's loop over the two rows makes of it. -/
theorem matrixProduct : Obligations.MatrixProduct := by
  unfold Obligations.MatrixProduct
  intro x o h st fa fb tl i j hins hmode hacc hi hj
  have hA := sRows_le o.fa
  have hB := sRows_le o.fb
  have hside : mSide x = 128 := by simp [mSide, hmode]
  have hfmt : mFmt x = fp32 := by simp [mFmt, hmode]
  rw [macEnd_oneTile hins, accTile_setAcc _ _ hacc, hside, hfmt,
    tget_macTile _ (by omega) (by omega) (by simpa using hi) (by simpa using hj), List.getElem_map, List.getElem_map,
    List.getElem_range, List.getElem_range]
  rfl

end Sys2Proof.Proofs
end

