-- ==== Sys2Proof/Proofs/VectorCells.lean ====
section
/-! SUPPORT and PROOF. The cells that a wavefront whose cells stand alone sends to a slice of its destination (R172, R175, R177 to
R180, R184, R186, R189). -/

namespace Sys2Proof.Proofs

open Sys2Proof Sys2Proof.Machine Sys2Proof.Laws Sys2Proof.Claims

/-! ## Cells of a slice -/

theorem cellAt_mkSlice (f : Nat → Word32) {r : Nat} (h : r < 16) : cellAt (mkSlice f) r = f r := tget_tofn 0 f (List.mem_range.2 h)

/-- The cell that stands for a bit (R186). -/
def bitWord (b : Bool) : Word32 := if b then 1 else 0

theorem bitWord_and (s t : Bool) : bitWord s &&& bitWord t = bitWord (s && t) := by cases s <;> cases t <;> rfl
theorem bitWord_or (s t : Bool) : bitWord s ||| bitWord t = bitWord (s || t) := by cases s <;> cases t <;> rfl
theorem bitWord_xor (s t : Bool) : bitWord s ^^^ bitWord t = bitWord (s != t) := by cases s <;> cases t <;> rfl
theorem bitWord_not (s : Bool) : 1 - bitWord s = bitWord (!s) := by cases s <;> rfl

theorem cellAt_bitCells (b : BitVec 16) {r : Nat} (h : r < 16) : cellAt (bitCells b) r = bitWord (b.getLsbD r) :=
  cellAt_mkSlice _ h

/-- A mask of ones has every bit. -/
theorem fullMask_bit : ∀ {r : Nat}, r < 16 → (0xffff : BitVec 16).getLsbD r = true := by decide

/-- The mask takes new cells where its bit is 1 and the destination's elsewhere (R175). -/
theorem cellAt_maskCells (msk : BitVec 16) (d x : Cells) {r : Nat} (h : r < 16) :
    cellAt (maskCells msk d x) r = if msk.getLsbD r then cellAt x r else cellAt d r := by
  unfold maskCells
  split
  · rename_i hall
    rw [hall, fullMask_bit h, if_pos rfl]
  · exact cellAt_mkSlice _ h

/-- The result of a slice whose operands hold one value each. -/
theorem localSlice_plain {m : Member} {w : Wave} {sh : VShape} {c : Nat} {L : List Cells} {d S : Cells} (hmoves : sh.moves = .cell)
    (hsrc : sh.src.map (srcSlice m w c) = L.map plain) (hdst : dstSlice m sh c = plain d) (hss : w.ss = plain S) (hout : w.out = []) :
    localSlice m w sh c = plain (maskCells (kSlice m sh.msk c) d (mkSlice fun r =>
      cellFn w.ins (waveEnv w) r c (cellAt (L.getD 0 []) r) (cellAt (L.getD 1 []) r) (cellAt (L.getD 2 []) r) (cellAt S 0) (cellAt d r))) := by
  have hlen : sh.src.length = L.length := by simpa using congrArg List.length hsrc
  have hops : dstSlice m sh c :: (sh.src.map (srcSlice m w c) ++ [resolveAll w.out w.ss]) = (d :: (L ++ [S])).map plain := by
    rw [hdst, hsrc, hss, hout]
    simp [resolveAll]
  have hlast : (d :: (L ++ [S])).getLastD [] = S := by simp [List.getLastD]
  unfold localSlice
  rw [hops, pairAll_plain, mapAlts_plain, hlen, hmoves]
  simp only [hlast]
  rcases L with _ | ⟨a, _ | ⟨b, _ | ⟨y, r⟩⟩⟩ <;> simp

/-- What a wavefront sends to a slice, from the one value that each operand holds. -/
theorem gives_of_plain {m : Member} {w : Wave} {x : VExt} {c row : Nat} {sh : VShape} {i : Instr} {v old : Word32} {L : List Cells}
    {d S : Cells} (hrow : row < 16) (hsh : vShape i = some sh) (hmoves : sh.moves = .cell) (hmsk : sh.msk = x.msk)
    (hsrc : sh.src.map (srcSlice m w c) = L.map plain) (hdst : dstSlice m sh c = plain d) (hss : w.ss = plain S) (hout : w.out = [])
    (hold : (kSlice m x.msk c).getLsbD row = false → cellAt d row = old)
    (hv : cellFn i (waveEnv w) row c (cellAt (L.getD 0 []) row) (cellAt (L.getD 1 []) row) (cellAt (L.getD 2 []) row) (cellAt S 0)
      (cellAt d row) = v) : Gives m w x c row old (i, v) := by
  intro sh' hins hsh'
  obtain rfl : sh = sh' := Option.some.inj (hsh.symm.trans hsh')
  refine ⟨_, localSlice_plain hmoves hsrc hdst hss hout, ?_⟩
  rw [cellAt_maskCells _ _ _ hrow, cellAt_mkSlice _ hrow, hins, hv, hmsk]
  cases hb : (kSlice m x.msk c).getLsbD row
  · exact hold hb
  · rfl

/-! ## The operands of a slice -/

/-- The operands of a wavefront whose field A names a register: in slice c each holds one value, and the qualifiers' outcomes are none. -/
structure PlainOperands (m : Member) (w : Wave) (h : Hd) (c row : Nat) (d a b y : VReg) (A B Y D S : Cells) : Prop where
  noPop : h.qp = false
  row_lt : row < 16
  a_eq : (vSlice m a c).alts = plain A
  b_eq : (vSlice m b c).alts = plain B
  y_eq : (vSlice m y c).alts = plain Y
  d_eq : (vSlice m d c).alts = plain D
  s_eq : w.ss = plain S
  out_eq : w.out = []

namespace PlainOperands

variable {m : Member} {w : Wave} {h : Hd} {x : VExt} {c row : Nat} {d a b y : VReg} {k : KReg} {A B Y D S : Cells}
  {i : Instr} {v : Word32} {sr : Option SReg} {lat : Nat} (P : PlainOperands m w h c row d a b y A B Y D S)
include P

theorem srcSlice_a : srcSlice m w c (srcA h a) = plain A := by
  rw [show srcA h a = .v a by simp [srcA, P.noPop]]
  exact P.a_eq

theorem srcSlice_b : srcSlice m w c (.v b) = plain B := P.b_eq

theorem srcSlice_y : srcSlice m w c (.v y) = plain Y := P.y_eq

/-- The destination is read where the instruction or the mask needs it: under an all-ones mask its cells are not looked at (R175). -/
theorem dstSlice_v {sh : VShape} (hd : sh.dst = .v d) :
    ∃ d', dstSlice m sh c = plain d' ∧ (sh.usesD = true → d' = D) ∧
      ((kSlice m sh.msk c).getLsbD row = false → cellAt d' row = cellAt D row) := by
  have hdst : dstSlice m sh c = if sh.usesD ∨ sh.msk.val ≠ 0 then (vSlice m d c).alts else plain [] := by simp only [dstSlice, hd]
  by_cases hu : sh.usesD ∨ sh.msk.val ≠ 0
  · exact ⟨D, by rw [hdst, if_pos hu, P.d_eq], fun _ => rfl, fun _ => rfl⟩
  · obtain ⟨huses, hk⟩ := not_or.1 hu
    refine ⟨[], by rw [hdst, if_neg hu], fun h => absurd h huses, fun hb => ?_⟩
    rw [show kSlice m sh.msk c = 0xffff from if_pos (not_not.1 hk), fullMask_bit P.row_lt] at hb
    cases hb

/-- A destination in v, from any sources. -/
theorem gives_v {src : List VSrc} {usesD : Bool} (L : List Cells)
    (hsh : vShape i = some ⟨src, sr, .v d, lat, x.msk, usesD, .cell⟩) (hsrc : src.map (srcSlice m w c) = L.map plain)
    (hv : ∀ z, (usesD = true → z = cellAt D row) → cellFn i (waveEnv w) row c (cellAt (L.getD 0 []) row) (cellAt (L.getD 1 []) row)
      (cellAt (L.getD 2 []) row) (cellAt S 0) z = v) : Gives m w x c row (cellAt D row) (i, v) := by
  obtain ⟨d', hdst, huses, hkeep⟩ := P.dstSlice_v (sh := ⟨src, sr, .v d, lat, x.msk, usesD, .cell⟩) rfl
  exact gives_of_plain P.row_lt hsh rfl rfl hsrc hdst P.s_eq P.out_eq hkeep (hv _ fun hu => congrArg (cellAt · row) (huses hu))

/-- A destination in k, from any sources: what stands elsewhere is the bit that the register held (R175, R186). -/
theorem gives_k {src : List VSrc} (L : List Cells)
    (hsh : vShape i = some ⟨src, sr, .k k, lat, x.msk, false, .cell⟩) (hsrc : src.map (srcSlice m w c) = L.map plain)
    (hv : ∀ z, cellFn i (waveEnv w) row c (cellAt (L.getD 0 []) row) (cellAt (L.getD 1 []) row)
      (cellAt (L.getD 2 []) row) (cellAt S 0) z = v) : Gives m w x c row (bitWord ((kSlice m k c).getLsbD row)) (i, v) :=
  gives_of_plain P.row_lt hsh rfl rfl hsrc rfl P.s_eq P.out_eq (fun _ => cellAt_bitCells _ P.row_lt) (hv _)

/-- No source in v. -/
theorem gives_v0
    (hsh : vShape i = some ⟨[], sr, .v d, lat, x.msk, false, .cell⟩)
    (hv : ∀ p q u z, cellFn i (waveEnv w) row c p q u (cellAt S 0) z = v) : Gives m w x c row (cellAt D row) (i, v) :=
  P.gives_v [] hsh rfl fun z _ => hv _ _ _ z

/-- One source in v. -/
theorem gives_v1
    (hsh : vShape i = some ⟨[srcA h a], sr, .v d, lat, x.msk, false, .cell⟩)
    (hv : ∀ q u z, cellFn i (waveEnv w) row c (cellAt A row) q u (cellAt S 0) z = v) : Gives m w x c row (cellAt D row) (i, v) :=
  P.gives_v [A] hsh (by simp [P.srcSlice_a]) fun z _ => hv _ _ z

/-- Two sources in v. -/
theorem gives_v2
    (hsh : vShape i = some ⟨[srcA h a, .v b], sr, .v d, lat, x.msk, false, .cell⟩)
    (hv : ∀ u z, cellFn i (waveEnv w) row c (cellAt A row) (cellAt B row) u (cellAt S 0) z = v) :
    Gives m w x c row (cellAt D row) (i, v) :=
  P.gives_v [A, B] hsh (by simp [P.srcSlice_a, P.srcSlice_b]) fun z _ => hv _ z

/-- Three sources in v. -/
theorem gives_v3
    (hsh : vShape i = some ⟨[srcA h a, .v b, .v y], sr, .v d, lat, x.msk, false, .cell⟩)
    (hv : ∀ z, cellFn i (waveEnv w) row c (cellAt A row) (cellAt B row) (cellAt Y row) (cellAt S 0) z = v) :
    Gives m w x c row (cellAt D row) (i, v) :=
  P.gives_v [A, B, Y] hsh (by simp [P.srcSlice_a, P.srcSlice_b, P.srcSlice_y]) fun z _ => hv z

/-- A compare: two sources in v, a destination in k. -/
theorem gives_compare {t : Bool}
    (hsh : vShape i = some ⟨[srcA h a, .v b], sr, .k k, lat, x.msk, false, .cell⟩)
    (hv : ∀ u z, cellFn i (waveEnv w) row c (cellAt A row) (cellAt B row) u (cellAt S 0) z = bitWord t) :
    Gives m w x c row (bitWord ((kSlice m k c).getLsbD row)) (i, bitWord t) :=
  P.gives_k [A, B] hsh (by simp [P.srcSlice_a, P.srcSlice_b]) fun z => hv _ z

/-- One source in k: the cell is 0 or 1 as its bit. -/
theorem gives_k1 {j : KReg}
    (hsh : vShape i = some ⟨[.k j], sr, .k k, lat, x.msk, false, .cell⟩)
    (hv : ∀ q u z, cellFn i (waveEnv w) row c (bitWord ((kSlice m j c).getLsbD row)) q u (cellAt S 0) z = v) :
    Gives m w x c row (bitWord ((kSlice m k c).getLsbD row)) (i, v) :=
  P.gives_k [bitCells (kSlice m j c)] hsh rfl fun z => by simpa [cellAt_bitCells _ P.row_lt] using hv _ _ z

/-- Two sources in k. -/
theorem gives_k2 {j l : KReg}
    (hsh : vShape i = some ⟨[.k j, .k l], sr, .k k, lat, x.msk, false, .cell⟩)
    (hv : ∀ u z, cellFn i (waveEnv w) row c (bitWord ((kSlice m j c).getLsbD row)) (bitWord ((kSlice m l c).getLsbD row))
      u (cellAt S 0) z = v) :
    Gives m w x c row (bitWord ((kSlice m k c).getLsbD row)) (i, v) :=
  P.gives_k [bitCells (kSlice m j c), bitCells (kSlice m l c)] hsh rfl fun z => by simpa [cellAt_bitCells _ P.row_lt] using hv _ z

/-- `vins` keeps what its destination held but for one cell (R184). -/
theorem gives_insert {s : SReg} {r0 : Fin 16} {c0 : Fin 64} :
    Gives m w x c row (cellAt D row) (.vins h x d s r0 c0, if row = r0.val ∧ c = c0.val then cellAt S 0 else cellAt D row) :=
  P.gives_v [] rfl rfl fun z hz => by rw [← hz rfl]; rfl

/-- `vsel` takes a cell of A where the bit of k is 1, of B elsewhere (R184). -/
theorem gives_select :
    Gives m w x c row (cellAt D row) (.vsel h x d a b k, if (kSlice m k c).getLsbD row then cellAt A row else cellAt B row) := by
  refine P.gives_v [A, B, bitCells (kSlice m k c)] rfl (by simp [P.srcSlice_a, P.srcSlice_b]; rfl) fun z _ => ?_
  have hcell : cellFn (.vsel h x d a b k) (waveEnv w) row c (cellAt A row) (cellAt B row) (cellAt (bitCells (kSlice m k c)) row)
      (cellAt S 0) z = if cellAt (bitCells (kSlice m k c)) row = 0 then cellAt B row else cellAt A row := rfl
  refine hcell.trans ?_
  rw [cellAt_bitCells _ P.row_lt]
  cases (kSlice m k c).getLsbD row <;> rfl

end PlainOperands

/-! ## Integers of a type (R48, R57, R59, R179) -/

/-- The four types of V, by their codes. -/
theorem code_of_mem_vTypes {t : Nat × Bool × Nat} (h : t ∈ vTypes) : t.2.1 = typeSigned t.1 ∧ t.2.2 = typeWidth t.1 := by
  simp only [vTypes, List.mem_cons, List.not_mem_nil, or_false] at h
  rcases h with rfl | rfl | rfl | rfl <;> exact ⟨rfl, rfl⟩

theorem typeWidth_pos (t : Nat) : 0 < typeWidth t := by simp [typeWidth]

/-- The type that the F field of an integer instruction names is signed (R59). -/
abbrev xSigned (x : VExt) : Bool := typeSigned (x.f.toNat % 8)

/-- The width of the type that the F field of an integer instruction names (R59). -/
abbrev xWidth (x : VExt) : Nat := typeWidth (x.f.toNat % 8)

/-- `WrapTo` is the reading of the low bits. -/
theorem wrapTo_eq (t : Nat) (r : Int) : wrapTo t r =
    if typeSigned t then (BitVec.ofInt (typeWidth t) r).toInt else ((BitVec.ofInt (typeWidth t) r).toNat : Int) := by
  obtain ⟨n, hn⟩ : ∃ n, typeWidth t = n + 1 := ⟨typeWidth t - 1, by have := typeWidth_pos t; omega⟩
  have hpow : (2 : Int) ^ (n + 1) = 2 * 2 ^ n := Int.pow_succ' ..
  have hpos : (0 : Int) < 2 ^ n := by positivity
  have hlt : r % 2 ^ (n + 1) < 2 ^ (n + 1) := Int.emod_lt_of_pos _ (by omega)
  have hnn : 0 ≤ r % 2 ^ (n + 1) := Int.emod_nonneg _ (by omega)
  cases hs : typeSigned t
  · simp [wrapTo, hs, hn, BitVec.toNat_ofInt, hnn]
  · simp only [wrapTo, typeRange, hs, hn, true_and, if_true, Nat.add_sub_cancel, BitVec.toInt_ofInt, Int.bmod]
    push_cast
    split <;> split <;> omega

/-- A result wrapped, or saturated, to a type and held in a cell. -/
theorem cellOf_fitted (t : Nat) (sat : Bool) (r : Int) :
    cellOf (if sat then satTo t r else wrapTo t r) = fitted (typeSigned t) sat (typeWidth t) r := by
  unfold cellOf fitted
  cases sat
  · simp [wrapTo_eq]
  · cases hs : typeSigned t <;> simp [satTo, typeRange, hs]

/-- The value of a cell read as a type. -/
theorem intOf_eq_typed (t : Nat) (z : Word32) : intOf t z.toNat = typed (typeSigned t) (typeWidth t) z := by
  simp [intOf, typed, wrapTo_eq, BitVec.ofInt_natCast]

/-- An integer instruction: the exact result, wrapped or saturated. -/
theorem iOp_eq_fitted (x : VExt) (g : Int → Int → Int → Int) (p q u : Word32) :
    iOp x g p q u = fitted (xSigned x) x.sat (xWidth x) (g (typed (xSigned x) (xWidth x) p) (typed (xSigned x) (xWidth x) q)
      (typed (xSigned x) (xWidth x) u)) := by
  simp [iOp, intOf_eq_typed, cellOf_fitted]

/-- An instruction on the w bits of its operands. -/
theorem bitOp_eq_fitted (x : VExt) (g : Nat → Nat → Nat → Nat) (p q : Word32) :
    bitOp x g p q = fitted (xSigned x) false (xWidth x) (g (xWidth x) (p.toNat % 2 ^ xWidth x) (q.toNat % 2 ^ xWidth x) : Nat) :=
  cellOf_fitted _ false _

/-- A wrapped result depends on its low bits alone. -/
theorem fitted_congr {sg : Bool} {w : Nat} {r r' : Int} (h : BitVec.ofInt w r = BitVec.ofInt w r') :
    fitted sg false w r = fitted sg false w r' := by simp [fitted, h]

/-- The arithmetic shift of w bits: up to a multiple of 2^w the value as a signed integer, divided (R179). -/
theorem sraBits_eq {w : Nat} (hw : 0 < w) (p n : Nat) :
    BitVec.ofInt w (sraBits w (p % 2 ^ w) n : Nat) = BitVec.ofInt w ((BitVec.ofNat w p).toInt / 2 ^ n) := by
  obtain ⟨k, rfl⟩ : ∃ k, w = k + 1 := ⟨w - 1, by omega⟩
  have hpow : 2 ^ (k + 1) = 2 * 2 ^ k := Nat.pow_succ'
  rw [BitVec.toInt_eq_toNat_cond, BitVec.toNat_ofNat]
  generalize p % 2 ^ (k + 1) = r
  by_cases hneg : 2 ^ k ≤ r
  · have hsum : ((r + (2 ^ n - 1) * 2 ^ (k + 1) : Nat) : Int) = (r - (2 ^ (k + 1) : Nat)) + (2 ^ (k + 1) : Nat) * 2 ^ n := by
      push_cast [Nat.one_le_two_pow]
      ring
    rw [sraBits, Nat.add_sub_cancel, if_pos hneg, if_neg (by omega), Int.natCast_ediv, hsum, Nat.cast_pow 2 n, Nat.cast_ofNat,
      Int.add_mul_ediv_right _ _ (by positivity)]
    exact BitVec.eq_of_toNat_eq (by simp only [BitVec.toNat_ofInt, Int.add_emod_right])
  · rw [sraBits, Nat.add_sub_cancel, if_neg hneg, if_pos (by omega)]
    simp

namespace PlainOperands

variable {m : Member} {w : Wave} {h : Hd} {x : VExt} {c row : Nat} {d a b y : VReg} {A B Y D S : Cells} {i : Instr} {lat : Nat}
  (P : PlainOperands m w h c row d a b y A B Y D S)
include P

/-- An integer instruction of one source sends the exact result, wrapped or saturated. -/
theorem gives_iOp1 (g : Int → Int)
    (hsh : vShape i = some ⟨[srcA h a], none, .v d, lat, x.msk, false, .cell⟩)
    (hfn : ∀ q u z, cellFn i (waveEnv w) row c (cellAt A row) q u (cellAt S 0) z = iOp x (fun p _ _ => g p) (cellAt A row) q u) :
    Gives m w x c row (cellAt D row)
      (i, fitted (xSigned x) x.sat (xWidth x) (g (typed (xSigned x) (xWidth x) (cellAt A row)))) :=
  P.gives_v1 hsh fun q u z => (hfn q u z).trans (iOp_eq_fitted ..)

/-- Of two sources. -/
theorem gives_iOp2 (g : Int → Int → Int)
    (hsh : vShape i = some ⟨[srcA h a, .v b], none, .v d, lat, x.msk, false, .cell⟩)
    (hfn : ∀ u z, cellFn i (waveEnv w) row c (cellAt A row) (cellAt B row) u (cellAt S 0) z =
      iOp x (fun p q _ => g p q) (cellAt A row) (cellAt B row) u) :
    Gives m w x c row (cellAt D row) (i, fitted (xSigned x) x.sat (xWidth x)
      (g (typed (xSigned x) (xWidth x) (cellAt A row)) (typed (xSigned x) (xWidth x) (cellAt B row)))) :=
  P.gives_v2 hsh fun u z => (hfn u z).trans (iOp_eq_fitted ..)

/-- Of three sources. -/
theorem gives_iOp3 (g : Int → Int → Int → Int)
    (hsh : vShape i = some ⟨[srcA h a, .v b, .v y], none, .v d, lat, x.msk, false, .cell⟩)
    (hfn : ∀ z, cellFn i (waveEnv w) row c (cellAt A row) (cellAt B row) (cellAt Y row) (cellAt S 0) z =
      iOp x g (cellAt A row) (cellAt B row) (cellAt Y row)) :
    Gives m w x c row (cellAt D row) (i, fitted (xSigned x) x.sat (xWidth x) (g (typed (xSigned x) (xWidth x) (cellAt A row))
      (typed (xSigned x) (xWidth x) (cellAt B row)) (typed (xSigned x) (xWidth x) (cellAt Y row)))) :=
  P.gives_v3 hsh fun z => (hfn z).trans (iOp_eq_fitted ..)

/-- An instruction on the w bits of two sources sends their result, extended as the type requires. -/
theorem gives_bitOp (g : Nat → Nat → Nat → Nat)
    (hsh : vShape i = some ⟨[srcA h a, .v b], none, .v d, lat, x.msk, false, .cell⟩)
    (hfn : ∀ u z, cellFn i (waveEnv w) row c (cellAt A row) (cellAt B row) u (cellAt S 0) z = bitOp x g (cellAt A row) (cellAt B row)) :
    Gives m w x c row (cellAt D row) (i, fitted (xSigned x) false (xWidth x)
      (g (xWidth x) ((cellAt A row).toNat % 2 ^ xWidth x) ((cellAt B row).toNat % 2 ^ xWidth x) : Nat)) :=
  P.gives_v2 hsh fun u z => (hfn u z).trans (bitOp_eq_fitted ..)

/-- The arithmetic shift right sends its first source as a signed integer, divided (R179). -/
theorem gives_sra :
    Gives m w x c row (cellAt D row) (.visra h x d a b, fitted (xSigned x) false (xWidth x)
      ((BitVec.ofNat (xWidth x) (cellAt A row).toNat).toInt / 2 ^ ((cellAt B row).toNat % 2 ^ xWidth x % xWidth x))) := by
  rw [← fitted_congr (sraBits_eq (typeWidth_pos _) _ _)]
  exact P.gives_bitOp (fun w p q => sraBits w p (q % w)) rfl fun _ _ => rfl

end PlainOperands

/-- The conditions of `vicmp` (R118): both readings of the bits. -/
theorem iCond_eq (t : Nat) {cc : Nat} {z : Bool} {p q : Word32}
    (h : let n := typed (typeSigned t) (typeWidth t); let u := typed false (typeWidth t)
      (cc, z) ∈ [(0, decide (n p = n q)), (1, decide (n p ≠ n q)), (2, decide (n p < n q)), (3, decide (n q ≤ n p)),
        (4, decide (u p < u q)), (5, decide (u q ≤ u p))]) : iCond t cc p q = z := by
  simp only [List.mem_cons, Prod.mk.injEq, List.not_mem_nil, or_false] at h
  rcases h with ⟨rfl, rfl⟩ | ⟨rfl, rfl⟩ | ⟨rfl, rfl⟩ | ⟨rfl, rfl⟩ | ⟨rfl, rfl⟩ | ⟨rfl, rfl⟩ <;> simp only [iCond, intOf_eq_typed]
  · exact beq_eq_decide ..
  · simp [bne, beq_eq_decide]
  · exact decide_eq_decide.2 Int.ofNat_lt.symm
  · exact decide_eq_decide.2 Int.ofNat_le.symm

/-- The conditions of `vcmp` (R178). -/
theorem fCond_eq {cc : Nat} {z : Bool} {p q : FVal}
    (h : (cc, z) ∈ [(0, eqNum p q), (1, !eqNum p q), (2, ltNum p q), (3, ltNum p q || eqNum p q), (4, ltNum q p),
      (5, ltNum q p || eqNum p q), (6, p.isNan || q.isNan), (7, !(p.isNan || q.isNan))]) : fCond cc p q = z := by
  simp only [List.mem_cons, Prod.mk.injEq, List.not_mem_nil, or_false] at h
  rcases h with ⟨rfl, rfl⟩ | ⟨rfl, rfl⟩ | ⟨rfl, rfl⟩ | ⟨rfl, rfl⟩ | ⟨rfl, rfl⟩ | ⟨rfl, rfl⟩ | ⟨rfl, rfl⟩ | ⟨rfl, rfl⟩ <;> rfl

/-! ## Conversions (R70, R75, R180) -/

namespace PlainOperands

variable {m : Member} {w : Wave} {h : Hd} {x : VExt} {c row : Nat} {d a b y : VReg} {A B Y D S : Cells} {cv : Cvt} {i : Instr} {sc : Int}
  {v : Word32} (P : PlainOperands m w h c row d a b y A B Y D S)
include P

/-- `vcvt` and `vcvts` send the converted value of their source, scaled by 0 or by the integer in B. -/
theorem gives_convert
    (hi : (i, sc) ∈ [(Instr.vcvt h x d a cv, (0 : Int)), (.vcvts h x d a b cv, (cellAt B row).toInt)])
    (hv : BitVec.ofInt 32 (cvtVal x cv (waveEnv w) (16 * c + row) (cellAt A row).toNat sc) = v) :
    Gives m w x c row (cellAt D row) (i, v) := by
  simp only [List.mem_cons, Prod.mk.injEq, List.not_mem_nil, or_false] at hi
  rcases hi with ⟨rfl, rfl⟩ | ⟨rfl, rfl⟩
  · exact P.gives_v1 rfl fun _ _ _ => hv
  · exact P.gives_v2 rfl fun _ _ => hv

end PlainOperands

section
variable {x : VExt} {cv : Cvt} (e : CEnv) (j n : Nat) (sc : Int)

/-- A value converted between formats, unless stochastic; one to FP32 of a narrower format does not flush (R70). -/
theorem cvtVal_float (hk : cv.kind = 0) (hr : x.rnd ≠ 4) : cvtVal x cv e j n sc = roundTo (fpOf cv.tf.toNat) x.sat (rndMode x.rnd e)
    ((decodeFp (fpOf x.f.toNat) (decide (x.f = 0 ∨ cv.tf ≠ 0)) (n % 2 ^ (fpOf x.f.toNat).width)).scale sc) := by
  have hflush : (!widening x.f.toNat cv.tf.toNat) = decide (x.f = 0 ∨ cv.tf ≠ 0) := by
    generalize x.f = f, cv.tf = g
    revert f g
    decide
  simp only [cvtVal, cvtMode, hk, hflush, if_neg hr]
  rfl

theorem cvtVal_toInt (hk : cv.kind = 1) : cvtVal x cv e j n sc = toInt cv.tty.toNat (rndMode x.rnd e)
    ((decodeFp (fpOf x.f.toNat) true (n % 2 ^ (fpOf x.f.toNat).width)).scale sc) := by
  simp [cvtVal, hk]

theorem cvtVal_ofInt (hk : cv.kind = 2) : cvtVal x cv e j n sc =
    roundTo (fpOf cv.tf.toNat) x.sat (rndMode x.rnd e) ((numInt (intOf cv.sty.toNat n)).scale sc) := by
  simp [cvtVal, hk]

theorem cvtVal_int (hk : cv.kind = 3) : cvtVal x cv e j n sc =
    if x.sat then satTo cv.tty.toNat (intOf cv.sty.toNat n) else wrapTo cv.tty.toNat (intOf cv.sty.toNat n) := by
  simp [cvtVal, hk]

end

/-- Settles O22: each instruction's cell function, under the mask, from the one value that each operand holds. -/
theorem vectorCells : Obligations.VectorCells := by
  unfold Obligations.VectorCells
  intro m w h x d a b y s k j l cv r0 c0 c row A B Y D S hqp hrow _ ha hb hy hd hs hout p q u old kb kw f mo v out
  have P : PlainOperands m w h c row d a b y A B Y D S := ⟨hqp, hrow, ha, hb, hy, hd, hs, hout⟩
  refine ⟨fun _ => ?moves, ?select, ?integers, ?integerCompares, ?floats, ?compares, ?masks, ?conversions⟩
  case moves =>
    simp only [List.forall_mem_cons, List.not_mem_nil, false_implies, implies_true, and_true]
    exact ⟨P.gives_v1 rfl fun _ _ _ => rfl, P.gives_v0 rfl fun _ _ _ _ => rfl, P.gives_v0 rfl fun _ _ _ _ => rfl, P.gives_insert⟩
  case select => exact P.gives_select
  case integers =>
    intro t ht hcode
    obtain ⟨hsg, hwd⟩ := code_of_mem_vTypes ht
    rw [hsg, hwd, ← hcode]
    simp only [List.forall_mem_cons, List.not_mem_nil, false_implies, implies_true, and_true]
    exact ⟨P.gives_iOp2 (· + ·) rfl fun _ _ => rfl, P.gives_iOp2 (· - ·) rfl fun _ _ => rfl, P.gives_iOp2 (· * ·) rfl fun _ _ => rfl,
      P.gives_iOp2 (fun p q => p * q / 2 ^ typeWidth _) rfl fun _ _ => rfl, P.gives_iOp2 min rfl fun _ _ => rfl,
      P.gives_iOp2 max rfl fun _ _ => rfl, P.gives_iOp1 (fun p => p.natAbs) rfl fun _ _ _ => rfl,
      P.gives_iOp3 (fun p q r => min (max p q) r) rfl fun _ => rfl,
      P.gives_bitOp (fun _ p q => p &&& q) rfl fun _ _ => rfl, P.gives_bitOp (fun _ p q => p ||| q) rfl fun _ _ => rfl,
      P.gives_bitOp (fun _ p q => p ^^^ q) rfl fun _ _ => rfl, P.gives_bitOp (fun w p q => p * 2 ^ (q % w)) rfl fun _ _ => rfl,
      P.gives_bitOp (fun w p q => p / 2 ^ (q % w)) rfl fun _ _ => rfl, P.gives_sra⟩
  case integerCompares =>
    intro t ht hcode cc z hz
    obtain ⟨hsg, hwd⟩ := code_of_mem_vTypes ht
    rw [hsg, hwd, ← hcode] at hz
    exact P.gives_compare rfl fun _ _ => congrArg bitWord (iCond_eq _ hz)
  case floats =>
    -- each is `fOp` of its exact operation, rounded once in the wavefront's mode; `vabs` alone writes its cases out
    simp only [List.forall_mem_cons, List.not_mem_nil, false_implies, implies_true, and_true]
    exact ⟨P.gives_v2 rfl fun _ _ => rfl, P.gives_v2 rfl fun _ _ => rfl, P.gives_v2 rfl fun _ _ => rfl, P.gives_v3 rfl fun _ => rfl,
      P.gives_v3 rfl fun _ => rfl, P.gives_v3 rfl fun _ => rfl, P.gives_v2 rfl fun _ _ => rfl, P.gives_v2 rfl fun _ _ => rfl,
      P.gives_v2 rfl fun _ _ => rfl, P.gives_v2 rfl fun _ _ => rfl,
      P.gives_v1 rfl fun _ _ _ => by show out (absVal (v p)) = out _; cases v p <;> rfl, P.gives_v1 rfl fun _ _ _ => rfl,
      P.gives_v3 rfl fun _ => rfl, P.gives_v1 rfl fun _ _ _ => rfl, P.gives_v2 rfl fun _ _ => rfl, P.gives_v1 rfl fun _ _ _ => rfl,
      P.gives_v1 rfl fun _ _ _ => rfl, P.gives_v1 rfl fun _ _ _ => rfl, P.gives_v1 rfl fun _ _ _ => rfl, P.gives_v1 rfl fun _ _ _ => rfl,
      P.gives_v2 rfl fun _ _ => rfl⟩
  case compares =>
    intro cc z hz
    exact P.gives_compare rfl fun _ _ => congrArg bitWord (fCond_eq hz)
  case masks =>
    simp only [List.forall_mem_cons, List.not_mem_nil, false_implies, implies_true, and_true]
    exact ⟨P.gives_k2 rfl fun _ _ => bitWord_and .., P.gives_k2 rfl fun _ _ => bitWord_or .., P.gives_k2 rfl fun _ _ => bitWord_xor ..,
      P.gives_k1 rfl fun _ _ _ => bitWord_not .., P.gives_k1 rfl fun _ _ _ => rfl⟩
  case conversions =>
    intro hr i sc hi tf src
    refine ⟨fun hk => P.gives_convert hi ?_, fun hk => P.gives_convert hi ?_, fun hk t ht hsty => P.gives_convert hi ?_,
      fun hk t ht hsty o ho htty => P.gives_convert hi ?_⟩
    · rw [cvtVal_float _ _ _ _ hk hr]; exact BitVec.ofInt_natCast ..
    · rw [cvtVal_toInt _ _ _ _ hk]; rfl
    · obtain ⟨hsg, hwd⟩ := code_of_mem_vTypes ht
      rw [cvtVal_ofInt _ _ _ _ hk, intOf_eq_typed, hsg, hwd, ← hsty]; exact BitVec.ofInt_natCast ..
    · obtain ⟨hsg, hwd⟩ := code_of_mem_vTypes ht
      obtain ⟨hsg', hwd'⟩ := code_of_mem_vTypes ho
      rw [cvtVal_int _ _ _ _ hk, intOf_eq_typed, hsg, hwd, hsg', hwd', ← hsty, ← htty]; exact cellOf_fitted ..

end Sys2Proof.Proofs
end

