-- ==== Sys2Proof/Proofs/PackedFields.lean ====
section
/-! SUPPORT. Fields packed into a word, and the fields read back out of it (R112 to R124). -/

namespace Sys2Proof.Proofs

open Sys2Proof

/-! ## Fields of a packed word (R112) -/

@[simp] theorem width_nil : width [] = 0 := by simp [width]
@[simp] theorem width_cons (w v : Nat) (r : List (Nat × Nat)) : width ((w, v) :: r) = w + width r := by simp [width]

theorem pack_lt (l : List (Nat × Nat)) : pack l < 2 ^ width l := by
  induction l with
  | nil => simp [pack]
  | cons f r ih =>
    obtain ⟨w, v⟩ := f
    have hv : v % 2 ^ w + 1 ≤ 2 ^ w := Nat.mod_lt _ (Nat.two_pow_pos w)
    calc v % 2 ^ w * 2 ^ width r + pack r
      _ < (v % 2 ^ w + 1) * 2 ^ width r := by rw [Nat.succ_mul]; omega
      _ ≤ 2 ^ w * 2 ^ width r := Nat.mul_le_mul_right _ hv
      _ = 2 ^ width ((w, v) :: r) := (Nat.pow_add ..).symm

section
variable {hi lo w : Nat} {v : Nat} {r : List (Nat × Nat)}

/-- Bits below a field are those of the fields after it. -/
@[simp] theorem bits_pack_tail (h : hi < width r) (hlo : lo ≤ hi) : bits (pack ((w, v) :: r)) hi lo = bits (pack r) hi lo := by
  obtain ⟨k, hk⟩ := Nat.exists_eq_add_of_lt h
  have hw : 2 ^ width r = 2 ^ lo * (2 ^ (hi - lo + 1) * 2 ^ k) := by
    rw [← Nat.pow_add, ← Nat.pow_add]; congr 1; omega
  simp only [bits, pack]
  rw [hw, Nat.mul_left_comm, Nat.mul_add_div (Nat.two_pow_pos lo), Nat.mul_left_comm, Nat.mul_add_mod]

/-- Bits within a field are those of its value. -/
@[simp] theorem bits_pack_head (hlo : width r ≤ lo) (hhi : hi < width r + w) (h : lo ≤ hi) :
    bits (pack ((w, v) :: r)) hi lo = bits v (hi - width r) (lo - width r) := by
  obtain ⟨a, rfl⟩ := Nat.exists_eq_add_of_le hlo
  obtain ⟨b, rfl⟩ := Nat.exists_eq_add_of_le h
  have hdiv : (v % 2 ^ w * 2 ^ width r + pack r) / 2 ^ (width r + a) = v % 2 ^ w / 2 ^ a := by
    rw [Nat.pow_add, ← Nat.div_div_eq_div_mul, Nat.mul_comm, Nat.mul_add_div (Nat.two_pow_pos _), Nat.div_eq_of_lt (pack_lt r),
      Nat.add_zero]
  simp only [bits, pack]
  rw [hdiv, show width r + a + b - (width r + a) = b by omega, show width r + a - width r = a by omega,
    show width r + a + b - width r - a = b by omega, ← Nat.mod_mul_right_div_self, ← Nat.mod_mul_right_div_self, ← Nat.pow_add,
    Nat.mod_mod_of_dvd _ (Nat.pow_dvd_pow 2 (by omega))]

@[simp] theorem fin_pack_tail {k : Nat} [NeZero k] (h : hi < width r) (hlo : lo ≤ hi) :
    fin k (pack ((w, v) :: r)) hi lo = fin k (pack r) hi lo := congrArg (Fin.ofNat k) (bits_pack_tail h hlo)

@[simp] theorem fin_pack_head {k : Nat} [NeZero k] (hlo : width r ≤ lo) (hhi : hi < width r + w) (h : lo ≤ hi) :
    fin k (pack ((w, v) :: r)) hi lo = fin k v (hi - width r) (lo - width r) := congrArg (Fin.ofNat k) (bits_pack_head hlo hhi h)

@[simp] theorem flag_pack_tail (h : hi < width r) : flag (pack ((w, v) :: r)) hi = flag (pack r) hi :=
  congrArg (· == 1) (bits_pack_tail h (Nat.le_refl hi))

@[simp] theorem flag_pack_head (hlo : width r ≤ lo) (hhi : lo < width r + w) :
    flag (pack ((w, v) :: r)) lo = flag v (lo - width r) := congrArg (· == 1) (bits_pack_head hlo hhi (Nat.le_refl lo))

end

/-! ## Whole fields -/

theorem bits_zero_lo (n hi : Nat) : bits n hi 0 = n % 2 ^ (hi + 1) := by simp [bits]

/-- A register number is read back from a field that holds its count (R116). -/
@[simp] theorem fin_val {k : Nat} [NeZero k] (d : Fin k) {hi : Nat} (h : k ≤ 2 ^ (hi + 1)) : fin k d.val hi 0 = d := by
  rw [fin, bits_zero_lo, Nat.mod_eq_of_lt (by omega)]
  exact Fin.ofNat_val_eq_self d

/-- A number of `w` bits is read back from a field that is wide enough. -/
@[simp] theorem ofNat_bits_toNat {w : Nat} (v : BitVec w) {hi : Nat} (h : w ≤ hi + 1) : BitVec.ofNat w (bits v.toNat hi 0) = v := by
  have hv : v.toNat < 2 ^ (hi + 1) := v.isLt.trans_le (Nat.pow_le_pow_right (by omega) h)
  rw [bits_zero_lo, Nat.mod_eq_of_lt hv, BitVec.ofNat_toNat, BitVec.setWidth_eq]

@[simp] theorem flag_bit (b : Bool) : flag (bit b) 0 = b := by cases b <;> rfl

/-- A number that stands in two fields, cut at bit `hi + 1`, is put together again. -/
theorem ofNat_low_add_high {w : Nat} (v : BitVec w) {hi hi' : Nat} (h : w ≤ (hi + 1) + (hi' + 1)) :
    BitVec.ofNat w (bits v.toNat hi 0 + bits (v.toNat / 2 ^ (hi + 1)) hi' 0 * 2 ^ (hi + 1)) = v := by
  have hv : v.toNat < 2 ^ (hi + 1) * 2 ^ (hi' + 1) := by
    rw [← Nat.pow_add]; exact v.isLt.trans_le (Nat.pow_le_pow_right (by omega) h)
  rw [bits_zero_lo, bits_zero_lo, Nat.mod_eq_of_lt (a := v.toNat / _) (Nat.div_lt_of_lt_mul hv), Nat.mod_add_div',
    BitVec.ofNat_toNat, BitVec.setWidth_eq]

@[simp] theorem bits_zero (hi lo : Nat) : bits 0 hi lo = 0 := by simp [bits]
@[simp] theorem flag_zero (i : Nat) : flag 0 i = false := by simp [flag, bits]
@[simp] theorem flag_one : flag 1 0 = true := rfl

end Sys2Proof.Proofs
end

