-- ==== Sys2Proof/Proofs/RoundTrip.lean ====
section
/-! SUPPORT and PROOF. The words of a well-formed instruction decode to it (R112 to R126), and the words of the manual with them. -/

namespace Sys2Proof.Proofs

open Sys2Proof Sys2Proof.Machine Sys2Proof.Claims

/-! ## Register fields that several instructions share (R117, R120) -/

section
variable (op : Nat) (h : Hd) (d a b : SReg) (y p n cc : Nat)

@[simp] theorem crReg_hd : (crReg op h d a b y p n cc).hd = h := rfl
@[simp] theorem crReg_d : fin 64 (pack (crReg op h d a b y p n cc).o) 18 13 = d := by simp [crReg]
@[simp] theorem crReg_a : fin 64 (pack (crReg op h d a b y p n cc).o) 12 7 = a := by simp [crReg]
@[simp] theorem crReg_b : fin 64 (pack (crReg op h d a b y p n cc).o) 6 1 = b := by simp [crReg]

variable (v : BitVec 33)

@[simp] theorem crImm_hd : (crImm op h d a v).hd = h := rfl
@[simp] theorem crImm_d : fin 64 (pack (crImm op h d a v).o) 18 13 = d := by simp [crImm]
@[simp] theorem crImm_a : fin 64 (pack (crImm op h d a v).o) 12 7 = a := by simp [crImm]

variable (s : Src2)

@[simp] theorem crBin_hd : (crBin op h d a s).hd = h := by cases s <;> rfl
@[simp] theorem crBin_d : fin 64 (pack (crBin op h d a s).o) 18 13 = d := by cases s <;> simp [crBin]
@[simp] theorem crBin_a : fin 64 (pack (crBin op h d a s).o) 12 7 = a := by cases s <;> simp [crBin]

end

section
variable (q : Queue) (op : Nat) (h : Hd) (e : VExt) (o : List (Nat × Nat)) (is : Nat)

@[simp] theorem vrForm_hd : (vrForm q op h e o is).hd = h := rfl
@[simp] theorem vrForm_o : (vrForm q op h e o is).o = o := rfl
@[simp] theorem readV_vrForm : readV (pack (vrForm q op h e o is).x) = e := by simp [readV, vrForm]

variable {k : Nat} [NeZero k] (d a b y : Nat)

@[simp] theorem vrO_d : fin k (pack (vrO d a b y)) 19 15 = fin k d 4 0 := by simp [vrO]
@[simp] theorem vrO_a : fin k (pack (vrO d a b y)) 14 10 = fin k a 4 0 := by simp [vrO]
@[simp] theorem vrO_b : fin k (pack (vrO d a b y)) 9 5 = fin k b 4 0 := by simp [vrO]
@[simp] theorem vrO_y : fin k (pack (vrO d a b y)) 4 0 = fin k y 4 0 := by simp [vrO]
@[simp] theorem vrS_d : fin k (pack (vrS d a b)) 19 15 = fin k d 4 0 := by simp [vrS]
@[simp] theorem vrS_a : fin k (pack (vrS d a b)) 14 10 = fin k a 4 0 := by simp [vrS]
@[simp] theorem vrS_s : fin k (pack (vrS d a b)) 9 4 = fin k b 5 0 := by simp [vrS]

/-- Bits of the field IS (R120). -/
@[simp] theorem vrForm_is {hi lo : Nat} (hhi : hi < 14) (hlo : lo ≤ hi) : bits (pack (vrForm q op h e o is).x) hi lo = bits is hi lo := by
  simp only [vrForm]
  iterate 4 rw [bits_pack_tail (by simp; omega) hlo]
  exact bits_pack_head (Nat.zero_le lo) (by simpa using hhi) hlo

@[simp] theorem fin_vrForm_is {hi lo : Nat} (hhi : hi < 14) (hlo : lo ≤ hi) : fin k (pack (vrForm q op h e o is).x) hi lo = fin k is hi lo :=
  congrArg (Fin.ofNat k) (vrForm_is q op h e o is hhi hlo)

@[simp] theorem flag_vrForm_is {i : Nat} (hi : i < 14) : flag (pack (vrForm q op h e o is).x) i = flag is i :=
  congrArg (· == 1) (vrForm_is q op h e o is hi (Nat.le_refl i))

end

/-! ## Operands that several instructions share -/

@[simp] theorem readSrc2_crBin (op : Nat) (h : Hd) (d a : SReg) (b : Src2) :
    readSrc2 (pack (crBin op h d a b).o) (pack (crBin op h d a b).x) = b := by
  cases b with
  | reg b => simp [readSrc2, crBin, crReg]
  | imm v => simpa [readSrc2, crBin, crImm] using ofNat_low_add_high v (hi := 6) (hi' := 25) (by omega)

@[simp] theorem readImm_crImm (op : Nat) (h : Hd) (d a : SReg) (v : BitVec 33) :
    readImm (pack (crImm op h d a v).o) (pack (crImm op h d a v).x) = v := by
  simpa [readImm, crImm] using ofNat_low_add_high v (hi := 6) (hi' := 25) (by omega)

@[simp] theorem readTrip_clForm (op : Nat) (h : Hd) (lc : Fin 8) (t : Trip) (len : BitVec 10) :
    readTrip (pack (clForm op h lc t len).o) (pack (clForm op h lc t len).x) = t := by
  cases t with
  | reg t => simp [readTrip, clForm]
  | imm v => simpa [readTrip, clForm] using ofNat_low_add_high v (hi := 5) (hi' := 25) (by omega)

@[simp] theorem readFlag_cfForm (op : Nat) (h : Hd) (f : FlagRef) (a sc iv imm : Nat) :
    readFlag (pack (cfForm op h f a sc iv imm).o) (pack (cfForm op h f a sc iv imm).x) = f := by
  simp [readFlag, cfForm]

@[simp] theorem readFlag_cfVal (op : Nat) (h : Hd) (f : FlagRef) (sc : BitVec 2) (v : FlagVal) :
    readFlag (pack (cfVal op h f sc v).o) (pack (cfVal op h f sc v).x) = f := by
  cases v <;> simp [cfVal]

@[simp] theorem readVal_cfVal (op : Nat) (h : Hd) (f : FlagRef) (sc : BitVec 2) (v : FlagVal) :
    readVal (pack (cfVal op h f sc v).o) (pack (cfVal op h f sc v).x) = v := by
  cases v <;> simp [readVal, cfVal, cfForm]

@[simp] theorem readCvt_vrForm (q : Queue) (op : Nat) (h : Hd) (e : VExt) (o : List (Nat × Nat)) (k : Cvt) :
    readCvt (pack (vrForm q op h e o k.is).x) = k := by
  simp [readCvt, Cvt.is]

@[simp] theorem readLM_lmForm (op : Nat) (h : Hd) (m : LMem) (r w : Nat) :
    readLM (pack (lmForm op h m r w).o) (pack (lmForm op h m r w).x) = m := by
  simp [readLM, lmForm]

/-! ## Numbers of a field that hold several values -/

theorem bit_mul_four_add (b : Bool) (w : BitVec 2) : bit b * 4 + w.toNat = pack [(1, bit b), (2, w.toNat)] := by
  cases b <;> simp [pack, bit] <;> omega

theorem rowCol_eq_pack (row : Fin 16) (col : Fin 64) : row.val * 1024 + col.val * 16 = pack [(4, row.val), (6, col.val), (4, 0)] := by
  simp [pack]; omega

theorem fold_eq_pack (op : BitVec 3) : op.toNat * 128 = pack [(3, op.toNat), (1, 0), (6, 0)] := by simp [pack]; omega

theorem foldScalar_eq_pack (op : BitVec 3) : op.toNat * 128 + 64 = pack [(3, op.toNat), (1, 1), (6, 0)] := by simp [pack]; omega

@[simp] theorem flag_val_six (n : Fin 64) : flag n.val 6 = false := by simp [flag, bits]; omega
@[simp] theorem flag_sixtyFour_six : flag 64 6 = true := rfl

/-! ## An instruction is read back from its fields -/

/-- The fields of an instruction fill its words, and what the decoder reads of them is the instruction (R112 to R123). -/
structure ReadBack (i : Instr) (f : Form) : Prop where
  op_lt : f.op < 128
  width_o : width f.o = 20
  width_x : width f.x = 26
  short : ∀ o, shortX i o = readShortX f.q f.op o
  read : readIns f.q f.hd f.op (pack f.o) (pack f.x) = some i

/-- An instruction whose form is `f` and which the decoder makes of the fields by `R`. -/
theorem ReadBack.of {i : Instr} {f g : Form} {R : Nat → Nat → Instr} (hg : form i = some g) (hf : form i = some f)
    (hr : ∀ o x, readIns f.q f.hd f.op o x = some (R o x)) (hR : R (pack f.o) (pack f.x) = i)
    (hop : f.op < 128 := by exact Nat.le_of_ble_eq_true rfl) (ho : width f.o = 20 := by exact Nat.eq_of_beq_eq_true rfl)
    (hx : width f.x = 26 := by exact Nat.eq_of_beq_eq_true rfl)
    (hs : ∀ o, shortX i o = readShortX f.q f.op o := by intro; rfl) : ReadBack i g := by
  obtain rfl : f = g := Option.some.inj (hf.symm.trans hg)
  exact ⟨hop, ho, hx, hs, hR ▸ hr _ _⟩

/-- A well-formed instruction of a queue of lanes breaks no rule of its header, its registers and its own. -/
theorem check_form {i : Instr} {f : Form} (hf : form i = some f) (hc : check i = none) :
    checkHd i f = none ∧ checkVReg i = none ∧ checkOwn i = none := by
  simpa [check, hf, Option.or_eq_none_iff] using hc

/-- A well-formed `idle` of a column names one (R244). -/
theorem idleColumn_bits_ne_zero {h : Hd} {n1 : BitVec 20} {col : BitVec 2} (hc : check (.idleColumn h n1 col) = none) :
    bits col.toNat 1 0 ≠ 0 := by
  obtain ⟨-, -, hown⟩ := check_form rfl hc
  have hcol : col ≠ 0 := by rintro rfl; cases hown
  rw [bits_zero_lo]
  bv_omega

/-- Every instruction of a queue of lanes, by the places of its fields in its format. -/
theorem readBack {i : Instr} {f : Form} (hf : form i = some f) (hc : check i = none) : ReadBack i f := by
  cases i with
  | add _ _ _ b | sub _ _ _ b | mul _ _ _ b | mulh _ _ _ b | mulhn _ _ _ b | div _ _ _ b | divn _ _ _ b | rem _ _ _ b
  | remn _ _ _ b | and_ _ _ _ b | or_ _ _ _ b | xor _ _ _ b | andn _ _ _ b | shl _ _ _ b | shr _ _ _ b | sra _ _ _ b
  | rol _ _ _ b | min _ _ _ b | max _ _ _ b | minn _ _ _ b | maxn _ _ _ b =>
    cases b <;> exact .of hf rfl (fun _ _ => rfl) (by simp only [crBin_hd, crBin_d, crBin_a, readSrc2_crBin])
  | clz | ctz | popc | mov => exact .of hf rfl (fun _ _ => rfl) (by simp only [crReg_hd, crReg_d, crReg_a])
  | bfx | bfi | cmp | sel | lea => exact .of hf rfl (fun _ _ => rfl) (by simp [crReg])
  | sext _ _ _ w | zext _ _ _ w => exact .of hf rfl (fun _ _ => rfl) (by simp only [crImm_hd, crImm_d, crImm_a, readImm_crImm])
  | li _ _ imm => exact .of hf rfl (fun _ _ => rfl) (by simpa using ofNat_low_add_high imm (hi := 12) (hi' := 25) (by omega))
  | lih _ _ imm => exact .of hf rfl (fun _ _ => rfl) (by simpa using ofNat_low_add_high imm (hi := 12) (hi' := 18) (by omega))
  | br _ _ _ off | call _ _ off =>
    exact .of hf rfl (fun _ _ => rfl) (by simpa using ofNat_low_add_high off (hi := 12) (hi' := 25) (by omega))
  | jmp _ off => exact .of hf rfl (fun _ _ => rfl) (by simpa using ofNat_low_add_high off (hi := 19) (hi' := 25) (by omega))
  | nop | halt | yield | uiret => exact .of hf rfl (fun _ _ => rfl) rfl
  | crd | jmpi | ret | loopn | lbrk | lrec | stg | align | trap | svc | brk | pcsel | trmark | rdsr | wrsr | pcread =>
    exact .of hf rfl (fun _ _ => rfl) (by simp [c0Form])
  | loop _ _ t | loopc _ _ t | loopd _ _ t =>
    cases t <;> exact .of hf rfl (fun _ _ => rfl) (by rw [readTrip_clForm]; simp [clForm])
  | fpost _ _ _ v | fwait _ _ _ v | fset _ _ _ v | fdec _ _ _ v | farm _ _ _ v =>
    cases v <;> exact .of hf rfl (fun _ _ => rfl) (by rw [readFlag_cfVal, readVal_cfVal]; simp [cfVal, cfForm])
  | fread => exact .of hf rfl (fun _ _ => rfl) (by rw [readFlag_cfForm]; simp [cfForm])
  | barj | barw => exact .of hf rfl (fun _ _ => rfl) (by simp [cfForm])
  | idle => exact .of hf rfl (fun _ _ => rfl) (by simp)
  | idleColumn => exact .of hf rfl (fun _ _ => rfl) (by simp [idleColumn_bits_ne_zero hc])
  | qopen | qopenf | qres | qwait | qpick | qstat => exact .of hf rfl (fun _ _ => rfl) (by simp [cqForm])
  | lidx | ldup | lgat | lpool | lsend | lscat => exact .of hf rfl (fun _ _ => rfl) (by simp [lkForm])
  | vadd | vsub | vmul | vmin | vmax | vminn | vmaxn | vldx2 | viadd | visub | vimul | vimulh | viand | vior | vixor | vishl
  | vishr | visra | vimin | vimax | vperm | kand | kor | kxor | vfma | vfms | vfnma | vclamp | viclamp | vsel | vrope
  | vabs | vneg | vrnd | viabs | vmov | vtrn | knot | kmov | vbc | viota | kpop | kfst | rtcnt
  | vcmp | vicmp | vrbc | vcbc | vcvt | vcvts | vpack | vunpk =>
    exact .of hf rfl (fun _ _ => rfl) (by simp)
  | vrrot _ _ _ _ n | vcrot _ _ _ _ n => cases n <;> exact .of hf rfl (fun _ _ => rfl) (by simp [readRot])
  | vrred _ _ d _ op =>
    cases d with
    | v d => exact .of hf rfl (fun _ _ => rfl) (by simp [fold_eq_pack op])
    | s d => exact .of hf rfl (fun _ _ => rfl) (by simp [foldScalar_eq_pack op])
  | vcred _ _ _ _ op | vrscan _ _ _ _ op => exact .of hf rfl (fun _ _ => rfl) (by simp [fold_eq_pack op])
  | vext _ _ _ _ row col | vins _ _ _ _ row col => exact .of hf rfl (fun _ _ => rfl) (by simp [rowCol_eq_pack row col])
  | xdiv | xexp2 | xlog2 | xrcp | xrsqrt | xsqrt | xrng =>
    exact .of hf rfl (fun _ _ => rfl) (by simp) (hs := fun _ => show 0 * 2 ^ 18 + 5 * 2 ^ 15 = 5 * 2 ^ 15 by decide)
  | mmac | mmacb | mret | mload | mzero | mwake | mmode | sset | sadv | sget | aqk | apv | amass | apos =>
    exact .of hf rfl (fun _ _ => rfl) (by simp [mfForm])
  | vst | sst | vstx | pf | zfill | pin | unpin | tfill | tdrain =>
    exact .of hf rfl (fun _ _ => rfl) (by rw [readLM_lmForm]; simp [lmForm])
  | vld _ _ w sx | sld _ _ w sx | vldx _ _ w sx =>
    exact .of hf rfl (fun _ _ => rfl) (by rw [readLM_lmForm]; simp [lmForm, bit_mul_four_add sx w])
  | mark | fence | xlat | hrel => exact .of hf rfl (fun _ _ => rfl) (by simp [lxForm])
  | atom | cas | rst => exact .of hf rfl (fun _ _ => rfl) (by simp)
  | _ => cases hf

/-! ## Lanes of an instruction (R112 to R115) -/

theorem toNat_lane_pack {l : List (Nat × Nat)} (h : width l = 32) : (lane (pack l)).toNat = pack l := by
  rw [lane, BitVec.toNat_ofNat, Nat.mod_eq_of_lt (h ▸ pack_lt l)]

theorem bits_pack_all {l : List (Nat × Nat)} {hi : Nat} (h : width l = hi + 1) : bits (pack l) hi 0 = pack l := by
  rw [bits_zero_lo, Nat.mod_eq_of_lt (h ▸ pack_lt l)]

section
variable {f : Form} (ho : width f.o = 20)
include ho

theorem toNat_firstLane : (lane (firstLane f)).toNat = firstLane f := toNat_lane_pack (by simp [ho])

theorem firstLane_idle : bits (firstLane f) 31 28 = f.hd.idle.toNat := by
  have := f.hd.idle.isLt
  simp only [firstLane, List.cons_append, List.nil_append]
  rw [bits_pack_head (by simp [ho]) (by simp [ho]) (by omega)]
  simp [ho, bits_zero_lo]; omega

theorem firstLane_long : flag (firstLane f) 27 = f.hd.long := by simp [firstLane, ho]

theorem firstLane_o : bits (firstLane f) 19 0 = pack f.o := by simp [firstLane, ho, bits_pack_all]

theorem firstLane_op (hop : f.op < 128) : bits (firstLane f) 26 20 = f.op := by
  simp [firstLane, ho, bits_zero_lo]
  omega

theorem readHd_short (h : f.hd.long = false) (hgq : f.hd.gq = false) (hgn : f.hd.gn = false) (hqs : f.hd.qs = 0) (hqp : f.hd.qp = false) :
    readHd (firstLane f) none = f.hd := by
  obtain ⟨q, op, ⟨idle, long, gq, gn, qs, qp⟩, o, x⟩ := f
  dsimp only at h hgq hgn hqs hqp
  subst h hgq hgn hqs hqp
  simp [readHd, firstLane_idle ho]
  rfl

variable (hx : width f.x = 26)

omit ho in
include hx in
theorem toNat_extLane : (lane (extLane f)).toNat = extLane f := toNat_lane_pack (by simp [hx])

omit ho in
include hx in
theorem extLane_x : bits (extLane f) 25 0 = pack f.x := by simp [extLane, hx, bits_pack_all]

include hx in
theorem readHd_long (h : f.hd.long = true) : readHd (firstLane f) (some (extLane f)) = f.hd := by
  obtain ⟨q, op, ⟨idle, long, gq, gn, qs, qp⟩, o, x⟩ := f
  obtain rfl : long = true := h
  simp [readHd, firstLane_idle ho, extLane, hx]

end

/-- A short form holds nothing in its header, and its extension bits are those that its lane stands for (R114, R115). -/
theorem checkHd_short {i : Instr} {f : Form} (hl : f.hd.long = false) (hc : checkHd i f = none) :
    f.hd.gq = false ∧ f.hd.gn = false ∧ f.hd.qp = false ∧ f.hd.qs = 0 ∧ pack f.x = shortX i (pack f.o) := by
  simp only [checkHd, hl, Bool.false_eq_true, if_false, true_and] at hc
  split at hc
  · contradiction
  split at hc
  · contradiction
  · rename_i h
    simpa using h

/-- A well-formed candidate whose encoding is the words read is the instruction. -/
theorem accept_encode {i : Instr} {q : Queue} {ws : List Word32} (hc : check i = none) (he : encode i = some (q, ws)) :
    accept (some i) q ws = .ok i := by
  simp [accept, hc, he]

theorem decodeLane_one {q : Queue} (hq : q ≠ .e ∧ q ≠ .chain) {w : Word32} (h : flag w.toNat 27 = false) :
    decodeLane q [w] = accept (readIns q (readHd w.toNat none) (bits w.toNat 26 20) (bits w.toNat 19 0)
      (readShortX q (bits w.toNat 26 20) (bits w.toNat 19 0))) q [w] := by
  cases q <;> simp_all [decodeLane]

theorem decodeLane_two {q : Queue} (hq : q ≠ .e ∧ q ≠ .chain) {w e : Word32} (h : flag w.toNat 27 = true) :
    decodeLane q [w, e] = accept (readIns q (readHd w.toNat (some e.toNat)) (bits w.toNat 26 20) (bits w.toNat 19 0)
      (bits e.toNat 25 0)) q [w, e] := by
  cases q <;> simp_all [decodeLane]

theorem ReadBack.queue {i : Instr} {f : Form} (r : ReadBack i f) : f.q ≠ .e ∧ f.q ≠ .chain := by
  have := r.read
  constructor <;> intro h <;> simp [h, readIns] at this

/-- An instruction of a queue of lanes is what its words decode to. -/
theorem decodeLane_encode_form {i : Instr} {f : Form} (hf : form i = some f) (hc : check i = none) {q : Queue} {ws : List Word32}
    (he : encode i = some (q, ws)) : decodeLane q ws = .ok i := by
  have hq := (readBack hf hc).queue
  obtain ⟨hop, ho, hx, hs, hread⟩ := readBack hf hc
  obtain ⟨hhd, -, -⟩ := check_form hf hc
  have hacc := accept_encode hc he
  have hlong := firstLane_long ho
  simp only [encode, hf, Option.some.injEq, Prod.mk.injEq] at he
  obtain ⟨rfl, rfl⟩ := he
  rw [← toNat_firstLane ho] at hlong
  cases hl : f.hd.long with
  | true =>
    rw [hl] at hlong
    simp only [hl, if_true] at hacc ⊢
    rw [decodeLane_two hq hlong, toNat_firstLane ho, toNat_extLane hx, readHd_long ho hx hl, firstLane_op ho hop, firstLane_o ho,
      extLane_x hx, hread, hacc]
  | false =>
    obtain ⟨hgq, hgn, hqp, hqs, hpx⟩ := checkHd_short hl hhd
    rw [hl] at hlong
    simp only [hl, Bool.false_eq_true, if_false] at hacc ⊢
    rw [decodeLane_one hq hlong, toNat_firstLane ho, readHd_short ho hl hgq hgn hqs hqp, firstLane_op ho hop, firstLane_o ho,
      ← hs, ← hpx, hread, hacc]

/-! ## Payloads of engine commands (R251 to R263) -/

section
variable (k : Copy) (rn dst sst : Nat)

@[simp] theorem readCopy_copyP : readCopy (pack (copyP k rn dst sst)) = k := by simp [readCopy, copyP]
@[simp] theorem copyP_rn : fin 64 (pack (copyP k rn dst sst)) 35 30 = fin 64 rn 5 0 := by simp [copyP]
@[simp] theorem copyP_dst : fin 64 (pack (copyP k rn dst sst)) 41 36 = fin 64 dst 5 0 := by simp [copyP]
@[simp] theorem copyP_sst : fin 64 (pack (copyP k rn dst sst)) 47 42 = fin 64 sst 5 0 := by simp [copyP]

end

section
variable (kind : Nat) (k : Coll)

@[simp] theorem readColl_collP : readColl (pack (collP kind k)) = k := by simp [readColl, collP]
@[simp] theorem collP_kind : bits (pack (collP kind k)) 2 0 = kind % 8 :=
  (show _ = bits kind 2 0 by simp [collP]).trans (bits_zero_lo kind 2)

end

/-- The fields of a command fill its payload, and what the decoder reads of it is the command (R251 to R263). -/
structure CmdReadBack (i : Instr) (f : EForm) : Prop where
  op_lt : f.op < 127
  width_p : width f.p = 51
  read : readCmd f.e f.op (pack f.p) = some i

theorem CmdReadBack.of {i : Instr} {f g : EForm} (hg : eform i = some g) (hf : eform i = some f)
    (hr : readCmd f.e f.op (pack f.p) = some i) (hop : f.op < 127 := by exact Nat.le_of_ble_eq_true rfl)
    (hp : width f.p = 51 := by simp [copyP, collP, hvstP]) : CmdReadBack i g := by
  obtain rfl : f = g := Option.some.inj (hf.symm.trans hg)
  exact ⟨hop, hp, hr⟩

/-- Every engine command, by the places of its fields in its payload. -/
theorem cmdReadBack {i : Instr} {f : EForm} (hf : eform i = some f) : CmdReadBack i f := by
  cases i with
  | cpy | cfill | cpyc | tfetch | kick | link | collAllReduce | collReduceScatter | collAllGather | collAllToAll | collBroadcast
  | rmerge | hcomp | htrunc | lkick | rtsnap | esync => exact .of hf rfl (by simp [readCmd])
  | hvstKeep | hvstMass => exact .of hf rfl (by simp [readCmd, hvstP])
  | _ => cases hf

/-! ## The words of an engine command (R124) -/

section
variable (t u : Option FlagTok) (x : Nat)

@[simp] theorem width_token : width (tokFields t ++ [(18, x)]) = 32 := by cases t <;> rfl
@[simp] theorem width_tokens : width (tokFields t ++ tokFields u ++ [(4, x)]) = 32 := by cases t <;> cases u <;> rfl

@[simp] theorem readTok_token : readTok (pack (tokFields t ++ [(18, x)])) 31 = t := by
  cases t <;> simp [readTok, tokFields]

@[simp] theorem readTok_tokens_first : readTok (pack (tokFields t ++ tokFields u ++ [(4, x)])) 31 = t := by
  cases t <;> cases u <;> simp [readTok, tokFields]

@[simp] theorem readTok_tokens_second : readTok (pack (tokFields t ++ tokFields u ++ [(4, x)])) 17 = u := by
  cases t <;> cases u <;> simp [readTok, tokFields]

/-- The payload bits after a token. -/
theorem bits_token {hi lo : Nat} (h : hi < 18) (hlo : lo ≤ hi) : bits (pack (tokFields t ++ [(18, x)])) hi lo = bits x hi lo := by
  have hhead : bits (pack [(18, x)]) hi lo = bits x hi lo := bits_pack_head (Nat.zero_le lo) (by simpa using h) hlo
  cases t <;> simp only [tokFields, List.cons_append, List.nil_append] <;>
    iterate 3 rw [bits_pack_tail (by simp; omega) hlo]
  all_goals exact hhead

@[simp] theorem bits_tokens : bits (pack (tokFields t ++ tokFields u ++ [(4, x)])) 3 0 = bits x 3 0 := by
  cases t <;> cases u <;> simp [tokFields]

@[simp] theorem readTok_zero (v : Nat) : readTok 0 v = none := by simp [readTok]

end

section
variable {f : EForm} (hp : width f.p = 51)

theorem payload_eq : payload f = bit f.e.ui * 2 ^ width f.p + pack f.p := by
  cases h : f.e.ui <;> simp [payload, pack, bit, h]

include hp

theorem payload_lt : payload f < 2 ^ 52 := by
  simpa [payload, hp] using pack_lt ((1, bit f.e.ui) :: f.p)

/-- The bit UI, P[51] (R249). -/
theorem flag_payload : flag (payload f / 2 ^ 34) 17 = f.e.ui := by
  have := pack_lt f.p
  rw [payload_eq, hp]
  rw [hp] at this
  cases f.e.ui <;> simp [flag, bits, bit] <;> omega

/-- The payload is put together from its four words (R124). -/
theorem payload_words : bits (payload f) 11 0 + bits (payload f / 2 ^ 12) 17 0 * 2 ^ 12 + bits (payload f / 2 ^ 30) 3 0 * 2 ^ 30 +
    bits (payload f / 2 ^ 34) 16 0 * 2 ^ 34 = pack f.p := by
  have := pack_lt f.p
  rw [payload_eq, hp]
  rw [hp] at this
  cases f.e.ui <;> simp [bits, bit] <;> omega

end

/-- The four words of a command (R124). -/
def cmdWord0 (f : EForm) : Nat :=
  pack [(4, f.e.idle.toNat), (1, bit f.e.long), (7, f.op), (2, f.e.eng.val), (6, f.e.st.val), (12, payload f)]
def cmdWord1 (f : EForm) : Nat := pack (tokFields f.e.produce ++ [(18, payload f / 2 ^ 12)])
def cmdWord2 (f : EForm) : Nat := pack (tokFields f.e.c0 ++ tokFields f.e.c1 ++ [(4, payload f / 2 ^ 30)])
def cmdWord3 (f : EForm) : Nat := pack (tokFields f.e.c2 ++ [(18, payload f / 2 ^ 34)])

theorem eWords_eq (f : EForm) : eWords f = [cmdWord0 f, cmdWord1 f, cmdWord2 f, cmdWord3 f] := rfl

section
variable (f : EForm)

@[simp] theorem toNat_cmdWord0 : (lane (cmdWord0 f)).toNat = cmdWord0 f := toNat_lane_pack rfl
@[simp] theorem toNat_cmdWord1 : (lane (cmdWord1 f)).toNat = cmdWord1 f := toNat_lane_pack (width_token ..)
@[simp] theorem toNat_cmdWord2 : (lane (cmdWord2 f)).toNat = cmdWord2 f := toNat_lane_pack (width_tokens ..)
@[simp] theorem toNat_cmdWord3 : (lane (cmdWord3 f)).toNat = cmdWord3 f := toNat_lane_pack (width_token ..)

@[simp] theorem cmdWord0_long : flag (cmdWord0 f) 27 = f.e.long := by simp [cmdWord0]

variable {f}

theorem cmdWord0_op (hop : f.op < 127) : bits (cmdWord0 f) 26 20 = f.op := by
  rw [show bits (cmdWord0 f) 26 20 = bits f.op 6 0 by simp [cmdWord0], bits_zero_lo]
  omega

/-- A command is not taken for a link word (R126). -/
theorem cmdWord0_not_link (hop : f.op < 127) : bits (cmdWord0 f) 27 20 ≠ 0xff := by
  have := cmdWord0_op hop
  simp only [bits] at this ⊢
  omega

theorem cmdWord0_idle : BitVec.ofNat 4 (bits (cmdWord0 f) 31 28) = f.e.idle := by simp [cmdWord0]
theorem cmdWord0_eng : fin 4 (cmdWord0 f) 19 18 = f.e.eng := by simp [cmdWord0]
theorem cmdWord0_st : fin 64 (cmdWord0 f) 17 12 = f.e.st := by simp [cmdWord0]

theorem readE_long (hp : width f.p = 51) (hl : f.e.long = true) :
    readE true (cmdWord0 f) (cmdWord1 f) (cmdWord2 f) (cmdWord3 f) = f.e := by
  have hui : flag (cmdWord3 f) 17 = f.e.ui := by
    rw [← flag_payload hp]
    exact congrArg (· == 1) (bits_token f.e.c2 _ (by omega) (by omega))
  rw [readE, cmdWord0_idle, cmdWord0_eng, cmdWord0_st, hui, ← hl]
  simp only [cmdWord1, cmdWord2, cmdWord3, readTok_token, readTok_tokens_first, readTok_tokens_second]

theorem readPayload_long (hp : width f.p = 51) :
    readPayload (cmdWord0 f) (cmdWord1 f) (cmdWord2 f) (cmdWord3 f) = pack f.p := by
  have h0 : bits (cmdWord0 f) 11 0 = bits (payload f) 11 0 := by simp [cmdWord0]
  rw [readPayload, ← payload_words hp, h0, cmdWord1, cmdWord2, cmdWord3, bits_token _ _ (by omega) (by omega), bits_tokens,
    bits_token _ _ (by omega) (by omega)]

/-- A 64-bit command holds no consume token, and its payload fits its first two words (R124). -/
theorem checkShortE_short (hl : f.e.long = false) (hc : checkShortE f = none) :
    f.e.c0 = none ∧ f.e.c1 = none ∧ f.e.c2 = none ∧ payload f < 2 ^ 30 := by
  simpa [checkShortE, hl] using hc

theorem readE_short (hp : width f.p = 51) (hl : f.e.long = false) (hc : checkShortE f = none) :
    readE false (cmdWord0 f) (cmdWord1 f) 0 0 = f.e := by
  obtain ⟨h0, h1, h2, hlt⟩ := checkShortE_short hl hc
  have hui : f.e.ui = false := by rw [← flag_payload hp, Nat.div_eq_of_lt (by omega)]; rfl
  rw [readE, cmdWord0_idle, cmdWord0_eng, cmdWord0_st]
  obtain ⟨op, ⟨idle, long, eng, st, produce, c0, c1, c2, ui⟩, p⟩ := f
  dsimp only at hl h0 h1 h2 hui
  subst hl h0 h1 h2 hui
  simp [cmdWord1]

theorem readPayload_short (hp : width f.p = 51) (hl : f.e.long = false) (hc : checkShortE f = none) :
    readPayload (cmdWord0 f) (cmdWord1 f) 0 0 = pack f.p := by
  obtain ⟨-, -, -, hlt⟩ := checkShortE_short hl hc
  have h0 : bits (cmdWord0 f) 11 0 = bits (payload f) 11 0 := by simp [cmdWord0]
  rw [readPayload, ← payload_words hp, h0, cmdWord1, bits_token _ _ (by omega) (by omega),
    Nat.div_eq_of_lt hlt, Nat.div_eq_of_lt (b := 2 ^ 34) (by omega)]

end

/-- A well-formed engine command is what its words decode to. -/
theorem decodeLane_encode_eform {i : Instr} {f : EForm} (hn : form i = none) (hf : eform i = some f) (hc : check i = none)
    {q : Queue} {ws : List Word32} (he : encode i = some (q, ws)) : decodeLane q ws = .ok i := by
  obtain ⟨hop, hp, hread⟩ := cmdReadBack hf
  have hshort : checkShortE f = none := by
    have : (checkShortE f).or (checkOwn i) = none := by simpa [check, hn, hf] using hc
    exact (Option.or_eq_none_iff.1 this).1
  have hacc := accept_encode hc he
  simp only [encode, hn, hf, eWords_eq, Option.some.injEq, Prod.mk.injEq] at he
  obtain ⟨rfl, rfl⟩ := he
  cases hl : f.e.long with
  | true =>
    simp only [hl, if_true] at hacc ⊢
    simp only [decodeLane, List.map, toNat_cmdWord0, toNat_cmdWord1, toNat_cmdWord2, toNat_cmdWord3, cmdWord0_not_link hop, if_false,
      cmdWord0_long, hl, readE_long hp hl, readPayload_long hp, cmdWord0_op hop, hread]
    exact hacc
  | false =>
    simp only [hl, Bool.false_eq_true, if_false] at hacc ⊢
    simp only [decodeLane, List.map, List.take, toNat_cmdWord0, toNat_cmdWord1, cmdWord0_not_link hop, if_false, cmdWord0_long, hl,
      readE_short hp hl hshort, readPayload_short hp hl hshort, cmdWord0_op hop, hread]
    exact hacc

/-- A link word is what its words decode to (R126). -/
theorem decodeLane_linkWords (next : BitVec 50) : decodeLane .chain ((linkWords next).map lane) = .ok (.linkWord next) := by
  have hn := next.isLt
  have h0 : bits (lane (0xff * 2 ^ 20)).toNat 27 20 = 0xff := by decide
  have hnext : BitVec.ofNat 50 ((lane (next.toNat % 2 ^ 32)).toNat + bits (lane (next.toNat / 2 ^ 32)).toNat 17 0 * 2 ^ 32) = next := by
    apply BitVec.eq_of_toNat_eq
    simp only [lane, BitVec.toNat_ofNat, bits]
    omega
  simp only [linkWords, List.map, decodeLane, h0, if_true, hnext]
  exact accept_encode rfl rfl

/-- Settles O56: each field of a form is read back from its place in the words. -/
theorem roundTrip : Obligations.RoundTrip := by
  unfold Obligations.RoundTrip
  intro i q ws hc he
  cases hf : form i with
  | some f => exact decodeLane_encode_form hf hc he
  | none =>
    cases hg : eform i with
    | some f => exact decodeLane_encode_eform hf hg hc he
    | none =>
      simp only [encode, hf, hg] at he
      split at he
      · cases he
        exact decodeLane_linkWords _
      · cases he

/-- The words of a well-formed instruction read as it. -/
theorem reads_of_encode {q : Queue} {ws : List Word32} {i : Instr} (hc : i.WellFormed) (he : encode i = some (q, ws)) : reads q ws i :=
  roundTrip i q ws hc he

/-- Settles O55: each word is the encoding of the instruction beside it, which breaks no rule. -/
theorem decodeWords : Obligations.DecodeWords := by
  unfold Obligations.DecodeWords Words
  and_intros <;> exact reads_of_encode (by decide) rfl

end Sys2Proof.Proofs
end

