-- ==== Sys2Proof/Proofs/StreamPush.lean ====
section
/-! SUPPORT and PROOF. Engine commands on their way into their stream, and the links of a chain (R126, R245, R248, R253). -/

namespace Sys2Proof.Proofs

open Sys2Proof Sys2Proof.Machine Sys2Proof.Laws Sys2Proof.Claims

/-! ## Meanings in steps -/

@[simp] theorem ok_bind {ε α β : Type} (a : α) (f : α → Except ε β) : (Except.ok a >>= f) = f a := rfl
@[simp] theorem error_bind {ε α β : Type} (x : ε) (f : α → Except ε β) : (Except.error x >>= f) = .error x := rfl

/-! ## Streams of a member -/

section
variable (m : Member) (e : Fin 4) (x : Stream)

@[simp] theorem streamOf_setStream_same : streamOf (setStream m e x) e = x := tget_tput_same ..

theorem streamOf_setStream_ne {j : Fin 4} (h : j ≠ e) : streamOf (setStream m e x) j = streamOf m j :=
  tget_tput_ne _ _ _ fun hv => h (Fin.ext hv)

@[simp] theorem setStream_regs : (setStream m e x).regs = m.regs := rfl
@[simp] theorem setStream_buf : (setStream m e x).buf = m.buf := rfl
@[simp] theorem setStream_grd : (setStream m e x).grd = m.grd := rfl

end

@[simp] theorem mem_updStream_same (s : State) (n : Nat) (e : Fin 4) (f : Stream → Stream) :
    mem (updStream s n e f) n = setStream (mem s n) e (f (streamOf (mem s n) e)) := mem_updMem_same ..

@[simp] theorem updStream_dmem (s : State) (n : Nat) (e : Fin 4) (f : Stream → Stream) : (updStream s n e f).dmem = s.dmem := rfl

/-- What a request for the user-level interrupt leaves (R272): registers, memory, and of a stream all but the requests that it holds. -/
theorem raiseUi_keeps (s : State) (n : Nat) (e : Fin 4) (w : BitVec 64) :
    (raiseUi s n e w).dmem = s.dmem ∧ (mem (raiseUi s n e w) n).regs = (mem s n).regs ∧
    (streamOf (mem (raiseUi s n e w) n) e).open_ = (streamOf (mem s n) e).open_ ∧
    (streamOf (mem (raiseUi s n e w) n) e).conts = (streamOf (mem s n) e).conts := by
  refine ⟨rfl, ?_⟩
  rw [raiseUi, mem_updMem_same]
  split
  · exact ⟨rfl, rfl, rfl⟩
  · simp

/-! ## A lane of a member that issues -/

section
variable {s : State} {l : Lane} {n : Nat} (h : l.who = .mem n) (occ : Nat)
include h

theorem mem_retire : mem (retire s l occ) n = count (leaveQueue l occ (mem s n)) (0x20 + l.q.code) := by
  simp [retire, h]

theorem retire_dmem : (retire s l occ).dmem = s.dmem := by simp [retire, h]

theorem retire_regs : (mem (retire s l occ) n).regs = (mem s n).regs := by rw [mem_retire h]; rfl
theorem retire_buf : (mem (retire s l occ) n).buf = (mem s n).buf := by rw [mem_retire h]; rfl
theorem retire_grd : (mem (retire s l occ) n).grd = (mem s n).grd := by rw [mem_retire h]; rfl
theorem retire_streamOf (e : Fin 4) : streamOf (mem (retire s l occ) n) e = streamOf (mem s n) e := by rw [mem_retire h]; rfl

end

/-! ## Commands (R245, R248) -/

/-- A command on its way into its stream: pushed, or held. -/
theorem exec_command {e : ECmd} {k : Copy} {g : Coll} {a b c d : SReg} {p : HReg} {f : Bool} {ln : Fin 32} {i : Instr}
    (hi : i ∈ commands e k g a b c d p f ln) (s : State) : exec i s = pushE e i s := by
  simp only [commands, List.mem_cons, List.not_mem_nil, or_false] at hi
  rcases hi with rfl | rfl | rfl | rfl | rfl | rfl | rfl | rfl | rfl | rfl | rfl | rfl | rfl | rfl | rfl | rfl | rfl | rfl <;> rfl

/-- A stream after a command has entered its queue. -/
def withCmd (c : Cap) (x : Stream) : Stream :=
  { x with queue := x.queue ++ [{ c with known := (stampOf c).isSome }], open_ := isKick c.ins }

theorem effPush_ok {s : State} {n : Nat} {e : Fin 4} {c : Cap} {v : List Word} (hroom : (streamOf (mem s n) e).queue.length < 16)
    (hstamp : stampMissed s c = false) : effPush n e s c v = .ok (updStream s n e (withCmd c)) := by
  simp [effPush, hroom, hstamp]
  rfl

theorem effPush_missed {s : State} {n : Nat} {e : Fin 4} {c : Cap} {v : List Word} (hroom : (streamOf (mem s n) e).queue.length < 16)
    (hstamp : stampMissed s c = true) : effPush n e s c v = .error (.trap (trapOf .scheduleMiss)) := by
  simp [effPush, hroom, hstamp]

/-- A member whose next capture takes the next place in the order of capture (R160). -/
def withNextSeq (m : Member) : Member := { m with ctl := { m.ctl with seq := m.ctl.seq + 1 } }

/-- A member after an entry without a destination has entered its held-store buffer (R162). -/
def withHeld (c : Cap) (m : Member) : Member :=
  count { m with grd := { m.grd with held := m.grd.held ++ [c] }, ctl := { m.ctl with seq := m.ctl.seq + 1 } } 0x092

theorem holdCap_ok {s : State} {n : Nat} {w : Who} {c : Cap} (hroom : (mem s n).grd.held.length < 16) :
    holdCap s n w c none = .ok (updMem s n (withHeld c)) := by
  simp [holdCap, Nat.not_le.2 hroom]
  rfl

@[simp] theorem withNextSeq_regs (m : Member) : (withNextSeq m).regs = m.regs := rfl
@[simp] theorem withNextSeq_buf (m : Member) : (withNextSeq m).buf = m.buf := rfl
@[simp] theorem streamOf_withNextSeq (m : Member) (e : Fin 4) : streamOf (withNextSeq m) e = streamOf m e := rfl
@[simp] theorem withHeld_held (c : Cap) (m : Member) : (withHeld c m).grd.held = m.grd.held ++ [c] := rfl
@[simp] theorem streamOf_withHeld (c : Cap) (m : Member) (e : Fin 4) : streamOf (withHeld c m) e = streamOf m e := rfl

section
variable {s : State} {l : Lane} {n : Nat} {e : ECmd} {i : Instr} (hat : AtL s l n (cmdRegs i ++ cmdStamp i) [] 0)
include hat

theorem pushE_pushed (hs : capSplits (eCap s l n i) = false) (hh : (mem s n).grd.held = [])
    (hm : stampMissed s (eCap s l n i) = false) (hroom : (streamOf (mem s n) e.eng).queue.length < 16) :
    pushE e i s = .next (retire (updMem (updStream s n e.eng (withCmd (eCap s l n i))) n withNextSeq) l 1) := by
  obtain ⟨hl, hw, hz⟩ := hat
  apply lockstep_ok hl
  simp [memOnly_of hw, hz, hs, hh, effPush_ok hroom hm]
  rfl

theorem pushE_missed (hs : capSplits (eCap s l n i) = false) (hh : (mem s n).grd.held = [])
    (hm : stampMissed s (eCap s l n i) = true) (hroom : (streamOf (mem s n) e.eng).queue.length < 16) :
    pushE e i s = .next (laneFault s l (trapOf .scheduleMiss)) := by
  obtain ⟨hl, hw, hz⟩ := hat
  apply lockstep_trap hl
  simp [memOnly_of hw, hz, hs, hh, effPush_missed hroom hm]

theorem pushE_held (hs : capSplits (eCap s l n i) = true ∨ (mem s n).grd.held ≠ []) (hroom : (mem s n).grd.held.length < 16) :
    pushE e i s = .next (retire (updMem s n (withHeld (eCap s l n i))) l 1) := by
  obtain ⟨hl, hw, hz⟩ := hat
  apply lockstep_ok hl
  simp [memOnly_of hw, hz, hs, holdCap_ok hroom]

end

/-! ## Links (R126, R253) -/

/-- A stream with an open chain after a `link` of v: a continuation, or the chain's end. -/
def withLink (v : Word) (x : Stream) : Stream :=
  if v = 0 then { x with open_ := false } else { x with conts := x.conts ++ [((x.queue.filter fun c => isKick c.ins).length, v)] }

theorem withLink_open {v : Word} {x : Stream} (h : x.open_ = true) : (withLink v x).open_ = decide (v ≠ 0) := by
  rw [withLink]
  split
  · rename_i hv
    rw [hv]
    rfl
  · rename_i hv
    exact h.trans (decide_eq_true hv).symm

theorem withLink_conts (v : Word) (x : Stream) : (withLink v x).conts =
    x.conts ++ if v = 0 then [] else [((x.queue.filter fun c => isKick c.ins).length, v)] := by
  unfold withLink; split <;> simp

section
variable {s : State} {n : Nat} {e : Fin 4} {ui : Bool} {p : Cap} {v : Word}

/-- The request that a `link` with UI makes leaves what the `link` did to the stream (R253). -/
theorem effLink_open (ho : (streamOf (mem s n) e).open_ = true) (hv : v = 0 ∨ (streamOf (mem s n) e).conts.length < 8) :
    ∃ t, effLink n e ui s p [v] = .ok t ∧ t.dmem = s.dmem ∧ (mem t n).regs = (mem s n).regs ∧
      (streamOf (mem t n) e).open_ = (withLink v (streamOf (mem s n) e)).open_ ∧
      (streamOf (mem t n) e).conts = (withLink v (streamOf (mem s n) e)).conts := by
  let u := updStream s n e (withLink v)
  have hroom : (v == 0 || decide ((streamOf (mem s n) e).conts.length < 8)) = true := by simpa using hv
  have hok : effLink n e ui s p [v] =
      .ok (if ui then raiseUi u n e (uiWord e.val (streamOf (mem s n) e).idx.toNat) else u) := by
    simp only [effLink, ho, List.headD_cons, hroom]
    rfl
  have hu : mem u n = setStream (mem s n) e (withLink v (streamOf (mem s n) e)) := mem_updStream_same ..
  refine ⟨_, hok, ?_⟩
  cases ui with
  | false => simp [hu]; rfl
  | true =>
    obtain ⟨hd, hr, ho, hc⟩ := raiseUi_keeps u n e (uiWord e.val (streamOf (mem s n) e).idx.toNat)
    simp [hd, hr, ho, hc, hu]; rfl

theorem effLink_closed (ho : (streamOf (mem s n) e).open_ = false) :
    effLink n e ui s p [v] = .error (.trap { trapOf .illegal with status := 0x600 + kindCode .illegal }) := by
  simp [effLink, ho]

end

section
variable {s : State} {l : Lane} {n : Nat} {e : ECmd} {c : SReg} {v : Word} (hat : AtL s l n (c :: cmdStamp (.link e c)) [] 0)
  (hs : capSplits (eCap s l n (.link e c)) = false) (hh : (mem s n).grd.held = []) (hp : (sCell (mem s n) c).pend = none)
  (ha : (sCell (mem s n) c).alts = plain v) (hm : stampMissed s (eCap s l n (.link e c)) = false)
include hat hs hh hp ha hm

/-- A `link` that waits for nothing takes effect at its push (R253). -/
theorem execLink_effect {r : Except Stop State} (hr : effLink n e.eng e.ui s (eCap s l n (.link e c)) [v] = r) :
    exec (.link e c) s = lockstep s fun _ => r.map fun t => (t, 1) := by
  obtain ⟨hl, hw, hz⟩ := hat
  have hv : valOf (plain v) = v := rfl
  show execLink e c s = _
  simp only [execLink, lockstep, hl]
  simp [memOnly_of hw, hz, hs, hh, hp, ha, hm, hv, hr]
  cases r <;> rfl

theorem link_open (ho : (streamOf (mem s n) e.eng).open_ = true) (hv : v = 0 ∨ (streamOf (mem s n) e.eng).conts.length < 8) :
    ∃ t, exec (.link e c) s = .next t ∧ (mem t n).regs = (mem s n).regs ∧ t.dmem = s.dmem ∧
      (streamOf (mem t n) e.eng).open_ = decide (v ≠ 0) ∧
      (streamOf (mem t n) e.eng).conts = (streamOf (mem s n) e.eng).conts ++
        if v = 0 then [] else [(((streamOf (mem s n) e.eng).queue.filter fun c => isKick c.ins).length, v)] := by
  obtain ⟨u, hu, hd, hreg, hopen, hconts⟩ := effLink_open (ui := e.ui) (p := eCap s l n (.link e c)) ho hv
  have ⟨hl, hw, _⟩ := hat
  refine ⟨retire u l 1, ?_, ?_, ?_, ?_, ?_⟩
  · rw [execLink_effect hat hs hh hp ha hm hu]
    exact lockstep_ok hl rfl
  · rw [retire_regs hw, hreg]
  · rw [retire_dmem hw, hd]
  · rw [retire_streamOf hw, hopen, withLink_open ho]
  · rw [retire_streamOf hw, hconts, withLink_conts]

theorem link_closed (ho : (streamOf (mem s n) e.eng).open_ = false) :
    exec (.link e c) s = .next (laneFault s l { trapOf .illegal with status := 0x600 + kindCode .illegal }) := by
  have ⟨hl, _, _⟩ := hat
  rw [execLink_effect hat hs hh hp ha hm (effLink_closed ho)]
  exact lockstep_trap hl rfl

end

/-! ## Link words (R126) -/

section
variable {s : State} {n : Nat} {e : Fin 4} {next : BitVec 50} {f : Fly} {ch : Chain} (hc : s.cur = .chain n e)
  (hx : (streamOf (mem s n) e).chain = some ch) (hf : (streamOf (mem s n) e).fly.find? (fun f => isKick f.cap.ins) = some f)
include hc hx hf

theorem linkWord_next (hn : next ≠ 0) : exec (.linkWord next) s =
    .next (updStream s n e fun x => { x with chain := some { ch with next := next.toNat * 16, entry := 0 } }) := by
  show execLinkWord next s = _
  simp only [execLinkWord, hc, followLink, hx, hf, if_neg hn]

theorem linkWord_end : exec (.linkWord 0) s = .next (putFly s n e { f with ph := 4 }) := by
  show execLinkWord 0 s = _
  simp [execLinkWord, hc, followLink, hx, hf]

end

theorem linkWord_lane {s : State} {l : Lane} {next : BitVec 50} (hl : curLane s = some l) :
    exec (.linkWord next) s = .next (laneFault s l (trapOf .illegal)) := by
  have hnot : ∀ n e, s.cur ≠ .chain n e := by
    intro n e h
    simp [curLane, h] at hl
  show execLinkWord next s = _
  unfold execLinkWord
  split
  · rename_i n e h
    exact absurd h (hnot n e)
  · exact lockstep_trap hl rfl

/-- Settles O31: what a push, a hold, a `link` and a link word do, each from its own equation. -/
theorem commandsAndChains : Obligations.CommandsAndChains := by
  unfold Obligations.CommandsAndChains
  refine ⟨?commands, ?links⟩
  case commands =>
    intro s l n e k g a b c d p f ln i hi hat
    rw [exec_command hi]
    have ⟨_, hw, _⟩ := hat
    refine ⟨fun hs hh hm hroom => ?_, fun hs hroom => ?_, pushE_missed hat⟩
    · refine ⟨_, { eCap s l n i with known := (stampOf (eCap s l n i)).isSome }, pushE_pushed hat hs hh hm hroom, ?_⟩
      simp only [retire_streamOf hw, retire_regs hw, retire_buf hw, retire_dmem hw, mem_updMem_same, mem_updStream_same,
        streamOf_withNextSeq, streamOf_setStream_same]
      exact ⟨rfl, rfl, rfl, rfl, rfl, fun j hj => streamOf_setStream_ne _ _ _ hj, rfl, rfl, rfl⟩
    · refine ⟨_, eCap s l n i, pushE_held hat hs hroom, ?_⟩
      simp only [retire_streamOf hw, retire_grd hw, retire_dmem hw, mem_updMem_same, streamOf_withHeld, withHeld_held]
      exact ⟨trivial, rfl, trivial, rfl⟩
  case links =>
    intro s l n e c next
    refine ⟨fun v hat hs hh hp ha hm => ⟨link_open hat hs hh hp ha hm, fun ho => ⟨_, link_closed hat hs hh hp ha hm ho⟩⟩,
      fun f ch hc hx hf => ⟨fun hn => ⟨_, linkWord_next hc hx hf hn, ?_⟩, ?_⟩, fun hl _ => linkWord_lane hl⟩
    · simp [Nat.mul_comm]
    · rintro rfl
      exact linkWord_end hc hx hf

end Sys2Proof.Proofs
end

