-- ==== Sys2Proof/Proofs/ScalarIssue.lean ====
section
/-! SUPPORT. How an instruction that computes a scalar register issues: its write, and the three ways its operands and its
qualifier let it go on (R129, R153 to R157). -/

namespace Sys2Proof.Proofs

open Sys2Proof Sys2Proof.Machine Sys2Proof.Laws Sys2Proof.Claims

variable {s s1 s' : State} {l : Lane} {h : Hd} {d : SReg} {ops : List Opd} {act : Act}

/-! ## The write of the destination (R25, R157) -/

/-- A destination with room takes a single value on its way. -/
theorem writeS_fits (hf : Fits s l d act) (v : Word) (lat : Nat) :
    writeS s l d (plain v) lat (actLit act) = .ok (wrote s l d v lat act) := by
  have hd : d.val = 0 ↔ d = 0 := Fin.val_eq_zero_iff
  unfold Fits at hf
  unfold writeS wrote
  rcases l with ⟨n | n | n, q, ln⟩
  · have hle : ¬4 < sBreadth (mem s n) (sent s ⟨.mem n, q, ln⟩ d v lat act) := Nat.not_lt.2 (hf v lat)
    simp only [sent] at hle
    simp only [hd, if_neg hle, ← apply_ite Except.ok]
    rfl
  · have hone : (d.val < 56 && decide ((sCell (mem s n) d).alts.length > 1)) = false := by
      simpa using hf
    simp only [hd, hone, Bool.false_eq_true, if_false, ← apply_ite Except.ok]
    rfl
  · simp only [hd, ← apply_ite Except.ok]
    rfl

/-! ## Issue (R129, R153) -/

/-- An instruction that may act, on single values, sends its result to its destination. -/
theorem scalarOp_acts {vals : List Word} (hact : Acts s l h act) (hr : Reads s l.who [d] ops vals s1) (hf : Fits s1 l d act)
    (lat : Nat) (f : List Word → Word) : scalarOp s l h d ops lat f = .ok (wrote s1 l d (f vals) lat act, 1) := by
  obtain ⟨-, hq, hne⟩ := hact
  obtain ⟨hn, p, hp, ho⟩ := hr
  have hn' : needLanded s l.who (d :: opdRegs ops) = .ok () := hn
  simp [scalarOp, hq, hne, hn', hp, ho, pairAll_plain, writeS_fits hf]

/-- One whose qualifier is against it makes its pop and does nothing else (R153). -/
theorem scalarOp_never {p : Alts Word} (hq : qualAct s l.who h = .ok .never) (hp : takePop s l.who ops = .ok (p, s1))
    (lat : Nat) (f : List Word → Word) : scalarOp s l h d ops lat f = .ok (s1, 1) := by
  simp [scalarOp, hq, hp]

/-- One that may act, on whatever alternatives its sources hold, writes one result for each pairing (R154, R155). -/
theorem scalarOp_pairs {p : Alts Word} {srcs : List (Alts Word)} {lat : Nat} {f : List Word → Word} (hact : Acts s l h act)
    (hn : needLanded s l.who (d :: opdRegs ops) = .ok ()) (hp : takePop s l.who ops = .ok (p, s1))
    (ho : readOpds s1 l.who p ops = .ok srcs) (hw : writeS s1 l d (mapAlts f (pairAll srcs)) lat (actLit act) = .ok s') :
    scalarOp s l h d ops lat f = .ok (s', 1) := by
  obtain ⟨-, hq, hne⟩ := hact
  simp [scalarOp, hq, hne, hn, hp, ho, hw]

/-- An instruction that computes its destination sends it, with its latency and an occupancy of 1. -/
theorem exec_scalarOp {i : Instr} {vals : List Word} {lat : Nat} {f : List Word → Word} (hact : Acts s l h act)
    (hr : Reads s l.who [d] ops vals s1) (hf : Fits s1 l d act) (hi : exec i s = lockstep s fun l => scalarOp s l h d ops lat f) :
    exec i s = .next (sends s1 l d (f vals) lat act) :=
  hi.trans (lockstep_ok hact.1 (scalarOp_acts hact hr hf lat f))

end Sys2Proof.Proofs
end

