-- ==== Sys2Proof/Proofs/ScalarValues.lean ====
section
/-! SUPPORT and PROOF. What the two-operand scalar instructions and the bit counts compute, as integers and numbers, and the same
instructions under a qualifier that is against them or over several alternatives (R130, R131, R153 to R155). -/

namespace Sys2Proof.Proofs

open Sys2Proof Sys2Proof.Machine Sys2Proof.Laws Sys2Proof.Claims
/-! ## Arithmetic (R130, R131) -/

section
variable (x y : Word)

theorem add_eq_int64 : x + y = int64 (x.toInt + y.toInt) := by simp [int64, BitVec.ofInt_add]

theorem sub_eq_int64 : x - y = int64 (x.toInt - y.toInt) :=
  BitVec.eq_of_toInt_eq (by simp [int64, BitVec.toInt_sub, BitVec.toInt_ofInt])

theorem mul_eq_int64 : x * y = int64 (x.toInt * y.toInt) := by simp [int64, BitVec.ofInt_mul]

theorem mulHigh_eq_int64 : mulHigh x y = int64 (x.toInt * y.toInt / 2 ^ 64) := by
  have hwide : x.signExtend 128 * y.signExtend 128 = BitVec.ofInt 128 (x.toInt * y.toInt) := by
    simp [BitVec.ofInt_mul, ← BitVec.toInt_signExtend_of_le (x := x) (v := 128), ← BitVec.toInt_signExtend_of_le (x := y) (v := 128)]
  apply BitVec.eq_of_toNat_eq
  simp only [mulHigh, hwide, int64, BitVec.toNat_setWidth, BitVec.toNat_ushiftRight, BitVec.toNat_ofInt, Nat.shiftRight_eq_div_pow]
  omega

theorem mulHighN_eq_nat64 : mulHighN x y = nat64 (x.toNat * y.toNat / 2 ^ 64) := by
  have hlt : x.toNat * y.toNat < 2 ^ 128 := (Nat.mul_lt_mul'' x.isLt y.isLt).trans_eq (by norm_num)
  apply BitVec.eq_of_toNat_eq
  simp only [mulHighN, nat64, BitVec.toNat_setWidth, BitVec.toNat_ushiftRight, BitVec.toNat_mul, BitVec.toNat_ofNat,
    Nat.shiftRight_eq_div_pow, Nat.mod_eq_of_lt (Nat.lt_trans x.isLt (by decide : 2 ^ 64 < 2 ^ 128)),
    Nat.mod_eq_of_lt (Nat.lt_trans y.isLt (by decide : 2 ^ 64 < 2 ^ 128)), Nat.mod_eq_of_lt hlt]

theorem allOnes_eq_int64 : BitVec.allOnes 64 = int64 (-1) := rfl

theorem divS_eq : divS x y = if y = 0 then int64 (-1) else int64 (x.toInt.tdiv y.toInt) := by
  have hdiv : x.sdiv y = int64 (x.toInt.tdiv y.toInt) :=
    BitVec.eq_of_toInt_eq (by rw [BitVec.toInt_sdiv, int64, BitVec.toInt_ofInt])
  rw [divS, allOnes_eq_int64, hdiv]

theorem divU_eq : divU x y = if y = 0 then int64 (-1) else nat64 (x.toNat / y.toNat) := by
  rw [divU, allOnes_eq_int64, BitVec.udiv_def, nat64]

theorem remS_eq : remS x y = if y = 0 then x else int64 (x.toInt.tmod y.toInt) := by
  rw [remS, int64, ← BitVec.toInt_srem, BitVec.ofInt_toInt]

theorem remU_eq : remU x y = if y = 0 then x else nat64 (x.toNat % y.toNat) := by
  rw [remU, BitVec.umod_def, nat64]

theorem slt_ite (a b : Word) : (if x.slt y then a else b) = if x.toInt < y.toInt then a else b := by
  simp [BitVec.slt_eq_decide]

theorem ult_ite (a b : Word) : (if x.ult y then a else b) = if x.toNat < y.toNat then a else b := by
  simp [BitVec.ult_eq_decide]

/-! ## Shifts (R130) -/

variable (k : Nat)

theorem shiftLeft_eq_nat64 : x <<< k = nat64 (x.toNat * 2 ^ k) :=
  BitVec.eq_of_toNat_eq (by simp [nat64, Nat.shiftLeft_eq])

theorem ushiftRight_eq_nat64 : x >>> k = nat64 (x.toNat / 2 ^ k) := by
  have hlt : x.toNat / 2 ^ k < 2 ^ 64 := Nat.lt_of_le_of_lt (Nat.div_le_self ..) x.isLt
  apply BitVec.eq_of_toNat_eq
  simp only [nat64, BitVec.toNat_ushiftRight, Nat.shiftRight_eq_div_pow, BitVec.toNat_ofNat, Nat.mod_eq_of_lt hlt]

theorem sshiftRight_eq_int64 : x.sshiftRight k = int64 (x.toInt / 2 ^ k) := by
  rw [int64, ← BitVec.ofInt_toInt (x := x.sshiftRight k), BitVec.toInt_sshiftRight, Int.shiftRight_eq_div_pow]
  simp

/-- A rotation is the sum of what is shifted out at either end: no bit comes from both. -/
theorem rotateLeft_eq_nat64 (hk : k < 64) : x.rotateLeft k = nat64 (x.toNat * 2 ^ k + x.toNat / 2 ^ (64 - k)) := by
  have hdisj : x <<< k &&& x >>> (64 - k) = 0#64 := by
    apply BitVec.eq_of_getLsbD_eq
    intro i hi
    by_cases h : i < k
    · simp [h]
    · have hout : x.getLsbD (64 - k + i) = false := BitVec.getLsbD_of_ge _ _ (by omega)
      simp [hout]
  rw [BitVec.rotateLeft_def, Nat.mod_eq_of_lt hk, ← BitVec.add_eq_or_of_and_eq_zero _ _ hdisj, shiftLeft_eq_nat64,
    ushiftRight_eq_nat64, nat64, nat64, nat64, BitVec.ofNat_add]

end

/-! ## Bit counts (R130) -/

/-- A run of numbers that pass a test ends at the first that does not. -/
theorem length_takeWhile_range {n k : Nat} {p : Nat → Bool} (hk : k ≤ n) (hpass : ∀ i < k, p i = true)
    (hstop : k < n → p k = false) : ((List.range n).takeWhile p).length = k := by
  obtain ⟨m, rfl⟩ := Nat.exists_eq_add_of_le hk
  have hpre : ∀ i ∈ List.range k, p i = true := fun i hi => hpass i (List.mem_range.1 hi)
  have hrest : ((List.range m).map (k + ·)).takeWhile p = [] := by
    cases m with
    | zero => rfl
    | succ m => simp [List.range_succ_eq_map, hstop (by omega)]
  rw [List.range_add, List.takeWhile_append_of_pos hpre, hrest, List.append_nil, List.length_range]

theorem countLz_eq (x : Word) : countLz x = nat64 ((List.range 64).takeWhile fun i => !x.getLsbD (63 - i)).length := by
  unfold countLz
  split
  · rename_i h
    rw [length_takeWhile_range (k := 64) (Nat.le_refl _) (by simp [h]) (by omega)]
    rfl
  · rename_i h
    have hx : x.toNat ≠ 0 := fun e => h (BitVec.eq_of_toNat_eq e)
    have htop : x.toNat.log2 < 64 := (Nat.log2_lt hx).2 x.isLt
    rw [length_takeWhile_range (k := 63 - x.toNat.log2) (by omega), nat64]
    · intro i hi
      have hlt : x.toNat < 2 ^ (63 - i) := (Nat.log2_lt hx).1 (by omega)
      simp [BitVec.getLsbD, Nat.testBit_lt_two_pow hlt]
    · intro _
      have hbit : 63 - (63 - x.toNat.log2) = x.toNat.log2 := by omega
      simp [BitVec.getLsbD, hbit, Nat.testBit_log2 hx]

/-- The lowest one bit of a word, alone. -/
theorem and_neg_eq_two_pow {x : Word} {t : Nat} (hbit : x.getLsbD t = true) (hlow : ∀ i < t, x.getLsbD i = false) :
    (x &&& -x).toNat = 2 ^ t := by
  have ht : t < 64 := by
    by_contra h
    simp [BitVec.getLsbD_of_ge x t (by omega)] at hbit
  apply Nat.eq_of_testBit_eq
  intro i
  rw [Nat.testBit_two_pow, BitVec.testBit_toNat, BitVec.getLsbD_and, BitVec.getLsbD_neg]
  rcases Nat.lt_trichotomy i t with h | rfl | h
  · simp [hlow i h, Nat.ne_of_gt h]
  · have hno : ¬∃ j < i, x.getLsbD j = true := by simpa using hlow
    rw [hbit, decide_eq_false hno]
    simp
  · have hex : ∃ j < i, x.getLsbD j = true := ⟨t, h, hbit⟩
    by_cases hi : i < 64
    · simp [hex, hi, Nat.ne_of_lt h]
    · simp [BitVec.getLsbD_of_ge x i (by omega), Nat.ne_of_lt h]

theorem countTz_eq (x : Word) : countTz x = nat64 ((List.range 64).takeWhile fun i => !x.getLsbD i).length := by
  unfold countTz
  split
  · rename_i h
    rw [length_takeWhile_range (k := 64) (Nat.le_refl _) (by simp [h]) (by omega)]
    rfl
  · rename_i h
    have hex : ∃ i, x.getLsbD i = true := by
      by_contra hno
      exact h (BitVec.eq_of_getLsbD_eq fun i _ => by simpa using fun e => hno ⟨i, e⟩)
    have hlow : ∀ i < Nat.find hex, x.getLsbD i = false := fun i hi => by simpa using Nat.find_min hex hi
    have ht : Nat.find hex < 64 := BitVec.lt_of_getLsbD (Nat.find_spec hex)
    rw [length_takeWhile_range (k := Nat.find hex) (by omega), and_neg_eq_two_pow (Nat.find_spec hex) hlow, Nat.log2_two_pow, nat64]
    · intro i hi
      simp [hlow i hi]
    · intro _
      simp [Nat.find_spec hex]

theorem countOnes_eq (x : Word) : countOnes x = nat64 ((List.range 64).filter fun i => x.getLsbD i).length := by
  rw [countOnes, List.countP_eq_length_filter, nat64]


/-! ## Several alternatives (R154, R155) -/

/-- The first source of a pairing, with its alternatives as they stand. -/
theorem pairWith_plain_nil {x : Alts Word} (hx : ∀ u ∈ x, compatible 0 u.1 = true) :
    pairWith (fun vs v => vs ++ [v]) (plain []) x = x.map fun u => (u.1, derived (fun v => [v]) u.2) := by
  simp only [pairWith, plain, List.flatMap_cons, List.flatMap_nil, List.append_nil]
  rw [← List.filterMap_eq_map]
  refine List.filterMap_congr fun u hu => ?_
  have hu' : compatible 0#16 u.1 = true := hx u hu
  simp [hu', conj, pairAV]

/-- Two sources under a function of two values pair as R48 pairs them. -/
theorem mapAlts_pairAll_two {x : Alts Word} (hx : ∀ u ∈ x, compatible 0 u.1 = true) (f : Word → Word → Word) (y : Alts Word) :
    mapAlts (fn2 f) (pairAll [x, y]) = pairWith f x y := by
  simp only [pairAll, List.foldl_cons, List.foldl_nil, pairWith_plain_nil hx]
  simp only [pairWith, mapAlts, List.map_flatMap, List.flatMap_map, List.map_filterMap]
  congr 1
  funext u
  congr 1
  funext v
  rcases u with ⟨g, a | _⟩ <;> rcases v with ⟨g', b | _⟩ <;> simp only <;> split <;> rfl

/-! ## The instructions -/

section
variable {s s1 : State} {l : Lane} {h : Hd} {d : SReg} {ops : List Opd} {act : Act} {x y v : Word} {i : Instr} {lat : Nat}
  (hact : Acts s l h act) (hf : Fits s1 l d act)
include hact hf

/-- An instruction of two sources, by the function of them that it computes. -/
theorem exec_binary {f : Word → Word → Word} (hr : Reads s l.who [d] ops [x, y] s1)
    (hi : exec i s = lockstep s fun l => scalarOp s l h d ops lat (fn2 f)) (hv : f x y = v) :
    exec i s = .next (sends s1 l d v lat act) :=
  hv ▸ exec_scalarOp hact hr hf hi

/-- An instruction of one source. -/
theorem exec_unary {f : Word → Word} (hr : Reads s l.who [d] ops [x] s1)
    (hi : exec i s = lockstep s fun l => scalarOp s l h d ops lat (fn1 f)) (hv : f x = v) :
    exec i s = .next (sends s1 l d v lat act) :=
  hv ▸ exec_scalarOp hact hr hf hi

end

/-- Settles O1: each instruction issues as any of its form does, with the value of its function. -/
theorem scalarBinary : Obligations.ScalarBinary := by
  unfold Obligations.ScalarBinary
  refine ⟨fun s s1 l h d a b x y act hact hr hf => ?binary, fun s s1 l h d a b x y act hact hr hf => ?shifts,
    fun s s1 l h d a x act hact hr hf => ?counts⟩
  case binary =>
    exact ⟨exec_binary hact hf hr rfl (add_eq_int64 x y), exec_binary hact hf hr rfl (sub_eq_int64 x y),
      exec_binary hact hf hr rfl (mul_eq_int64 x y), exec_binary hact hf hr rfl (mulHigh_eq_int64 x y),
      exec_binary hact hf hr rfl (mulHighN_eq_nat64 x y), exec_binary hact hf hr rfl rfl, exec_binary hact hf hr rfl rfl,
      exec_binary hact hf hr rfl rfl, exec_binary hact hf hr rfl rfl, exec_binary hact hf hr rfl (slt_ite x y x y),
      exec_binary hact hf hr rfl (slt_ite x y y x), exec_binary hact hf hr rfl (ult_ite x y x y),
      exec_binary hact hf hr rfl (ult_ite x y y x), exec_binary hact hf hr rfl (divS_eq x y), exec_binary hact hf hr rfl (divU_eq x y),
      exec_binary hact hf hr rfl (remS_eq x y), exec_binary hact hf hr rfl (remU_eq x y)⟩
  case shifts =>
    have hk : shamt y < 64 := Nat.mod_lt _ (by decide)
    exact ⟨exec_binary hact hf hr rfl (shiftLeft_eq_nat64 x (shamt y)), exec_binary hact hf hr rfl (ushiftRight_eq_nat64 x (shamt y)),
      exec_binary hact hf hr rfl (sshiftRight_eq_int64 x (shamt y)), exec_binary hact hf hr rfl (rotateLeft_eq_nat64 x (shamt y) hk)⟩
  case counts =>
    exact ⟨exec_unary hact hf hr rfl (countLz_eq x), exec_unary hact hf hr rfl (countTz_eq x),
      exec_unary hact hf hr rfl (countOnes_eq x)⟩

/-- Settles O3: an instruction that its qualifier is against only pops, and `add` of several alternatives writes the pairing of R48. -/
theorem scalarUnderGuards : Obligations.ScalarUnderGuards := by
  unfold Obligations.ScalarUnderGuards
  refine ⟨fun s s1 l h d a b p hl hq _ hp i hi => ?never, fun s s' s1 l h d a b p x y act hact hn hp ho hx hw => ?pairs⟩
  case never =>
    have hnever : ∀ lat f, lockstep s (fun l => scalarOp s l h d [opA h a, opB b] lat f) = .next (retire s1 l 1) :=
      fun lat f => lockstep_ok hl (scalarOp_never hq hp lat f)
    simp only [List.mem_cons, List.not_mem_nil, or_false] at hi
    rcases hi with rfl | rfl | rfl | rfl | rfl | rfl | rfl | rfl | rfl | rfl | rfl | rfl | rfl | rfl | rfl | rfl | rfl | rfl | rfl |
      rfl | rfl <;> exact hnever ..
  case pairs =>
    refine lockstep_ok hact.1 (scalarOp_pairs hact hn hp ho ?_)
    rw [mapAlts_pairAll_two hx, ← hw]
    congr 1
    unfold pairWith
    congr 1
    funext u
    congr 1
    funext v
    rcases u with ⟨g, m | _⟩ <;> rcases v with ⟨g', n | _⟩ <;> simp only [pairAV, derived, conj, add_eq_int64]

end Sys2Proof.Proofs
end

