-- ==== Sys2Proof/Proofs/Transfers.lean ====
section
/-! SUPPORT and PROOF. Control transfers: where they go, where they are not taken, and where they are ILLEGAL (R136, R137, R139,
R149). -/

namespace Sys2Proof.Proofs

open Sys2Proof Sys2Proof.Machine Sys2Proof.Laws Sys2Proof.Claims

section
variable {s : State} {l : Lane} {h : Hd} {a : SReg} {v : Word} {target : Nat} {stack : List Level}

/-! ## Where a transfer goes (R136, R137, R149) -/

/-- The fetch state of an agent that transfers control. -/
theorem jumpTo_inside (hin : inExtent l.ln target = true) :
    jumpTo s l target stack =
      .ok (setFetch s l.who (transferTo (fetchOf s l.who) l.ln (cycleOf s l.who) target stack l.ln.rcd)) := by
  simp [jumpTo, hin]

/-- A transfer out of the extent of the running record's phase is ILLEGAL (R149). -/
theorem jumpTo_outside (hout : inExtent l.ln target = false) : jumpTo s l target stack = illegal := by
  simp [jumpTo, hout, illegal]

/-- A lane that transfers control and issues. -/
theorem retire_transfer :
    retire (setFetch s l.who (transferTo (fetchOf s l.who) l.ln (cycleOf s l.who) target stack l.ln.rcd)) l 1 = jumped s l target stack :=
  rfl

theorem regTarget_outside
    (hout : v.toNat % 32 ≠ 0 ∨ v.toNat < (textOf s (imgOf s l.who)).1 ∨ (textOf s (imgOf s l.who)).2 ≤ v.toNat) :
    regTarget s l.who v = illegal := by
  have hno : ¬(v.toNat % 32 = 0 ∧ (textOf s (imgOf s l.who)).1 ≤ v.toNat ∧ v.toNat < (textOf s (imgOf s l.who)).2) := by omega
  simp [regTarget, hno, illegal]

/-- The target in a register is its value, or ILLEGAL. -/
theorem regTarget_cases (s : State) (w : Who) (v : Word) : regTarget s w v = .ok v.toNat ∨ regTarget s w v = illegal := by
  by_cases hin : v.toNat % 32 = 0 ∧ (textOf s (imgOf s w)).1 ≤ v.toNat ∧ v.toNat < (textOf s (imgOf s w)).2
  · exact .inl (by simp [regTarget, hin])
  · exact .inr (by simp [regTarget, hin, illegal])

/-! ## Transfers that are not taken (R139) -/

theorem br_never (hd : Decided s l h [a] false) (z : Bool) (o : BitVec 39) : exec (.br h z a o) s = .next (retire s l 1) :=
  lockstep_ok hd.1 (by simp [hd.2])

theorem jumpReg_never (hd : Decided s l h [a] false) : jumpReg h a s = .next (retire s l 1) :=
  lockstep_ok hd.1 (by simp [hd.2])

theorem jmp_never (hd : Decided s l h [] false) (p : BitVec 46) : exec (.jmp h p) s = .next (retire s l 1) :=
  lockstep_ok hd.1 (by simp [hd.2])

theorem call_never (hd : Decided s l h [] false) (o : BitVec 39) : exec (.call h a o) s = .next (retire s l 1) :=
  lockstep_ok hd.1 (by simp [hd.2])

/-! ## Targets that are ILLEGAL (R137, R149) -/

theorem jumpReg_illegal (hd : Decided s l h [a] true) (hv : Machine.readOne s l.who a = .ok v)
    (hbad : v.toNat % 32 ≠ 0 ∨ v.toNat < (textOf s (imgOf s l.who)).1 ∨ (textOf s (imgOf s l.who)).2 ≤ v.toNat ∨
      inExtent l.ln v.toNat = false) : jumpReg h a s = .next (laneFault s l (trapOf .illegal)) := by
  refine lockstep_trap hd.1 ?_
  rcases hbad with hbad | hbad | hbad | hout
  · simp [hd.2, hv, regTarget_outside (.inl hbad), illegal]
  · simp [hd.2, hv, regTarget_outside (.inr (.inl hbad)), illegal]
  · simp [hd.2, hv, regTarget_outside (.inr (.inr hbad)), illegal]
  · rcases regTarget_cases s l.who v with ht | ht
    · simp [hd.2, hv, ht, jumpTo_outside hout, illegal]
    · simp [hd.2, hv, ht, illegal]

theorem br_illegal (hd : Decided s l h [a] true) (hv : Machine.readOne s l.who a = .ok v) {z : Bool} (hz : v = 0 ↔ z = true)
    {o : BitVec 39} (hout : inExtent l.ln (offTarget l.ln o.toInt) = false) :
    exec (.br h z a o) s = .next (laneFault s l (trapOf .illegal)) := by
  have htaken : (v == 0#64) = z := by
    rw [Bool.eq_iff_iff, beq_iff_eq]
    exact hz
  exact lockstep_trap hd.1 (by simp [hd.2, hv, htaken, jumpTo_outside hout, illegal])

theorem jmp_illegal (hd : Decided s l h [] true) {p : BitVec 46} (hout : inExtent l.ln (offTarget l.ln p.toInt) = false) :
    exec (.jmp h p) s = .next (laneFault s l (trapOf .illegal)) :=
  lockstep_trap hd.1 (by simp [hd.2, jumpTo_outside hout, illegal])

theorem call_illegal (hd : Decided s l h [] true) (hn : needLanded s l.who [a] = .ok ()) (hf : Fits s l a .always) {o : BitVec 39}
    (hout : inExtent l.ln (offTarget l.ln o.toInt) = false) : exec (.call h a o) s = .next (laneFault s l (trapOf .illegal)) := by
  have hw : writeS s l a (plain (BitVec.ofNat 64 (lineOf l.ln + 32))) 1 none =
      .ok (wrote s l a (BitVec.ofNat 64 (lineOf l.ln + 32)) 1 .always) :=
    writeS_fits hf _ 1
  exact lockstep_trap hd.1 (by simp [hd.2, hn, hw, jumpTo_outside hout, illegal])

end

/-- Settles O5, from what each transfer does where it is not taken and where its target is ILLEGAL. -/
theorem transfersNotTakenOrTrapping : Obligations.TransfersNotTakenOrTrapping := by
  unfold Obligations.TransfersNotTakenOrTrapping
  refine ⟨fun s l h a z o p => ⟨fun hd i hi => ?_, fun hd => ⟨jmp_never hd p, fun _ => call_never hd o⟩⟩,
    fun s l h a v hd hv hbad => ⟨jumpReg_illegal hd hv hbad, jumpReg_illegal hd hv hbad⟩,
    fun s l h a z o p v => ⟨fun hd hv hz => br_illegal hd hv hz, fun hd => jmp_illegal hd, fun hd hn hf => call_illegal hd hn hf⟩⟩
  simp only [List.mem_cons, List.not_mem_nil, or_false] at hi
  rcases hi with rfl | rfl | rfl
  · exact br_never hd z o
  · exact jumpReg_never hd
  · exact jumpReg_never hd

end Sys2Proof.Proofs
end

