-- ==== Sys2Proof/Proofs/HardwareLoops.lean ====
section
/-! SUPPORT and PROOF. Hardware loops and their breaks, and the stage predicates of the running record (R140 to R149). -/

namespace Sys2Proof.Proofs

open Sys2Proof Sys2Proof.Machine Sys2Proof.Laws Sys2Proof.Claims

/-! ## Hardware loops (R140 to R143) -/

/-- What a loop instruction with a body of len + 1 lines leaves (R141): past its body where no iteration falls to its agent, else with
the loop active at its first. -/
def entered (u : State) (l : Lane) (lc : Fin 8) (kind len n i g : Nat) : State :=
  if n = 0 then jumped u l (lineOf l.ln + 32 * (len + 2)) l.ln.stack
  else retire (setFetch u l.who (activate (fetchOf u l.who) l.ln lc kind i g (n - 1))) l 1

/-- A loop of no iteration transfers past its body; another becomes active. -/
theorem lockstep_enterLoop {s u : State} {l : Lane} {f : Lane → Except Stop (State × Nat)} {lc : Fin 8} {kind len n i g : Nat}
    (hl : curLane s = some l) (hf : f l = enterLoop u l lc kind (len + 1) n i g)
    (hin : inExtent l.ln (lineOf l.ln + 32 * (len + 2)) = true) :
    lockstep s f = .next (entered u l lc kind len n i g) := by
  unfold entered
  by_cases hn : n = 0
  · rw [if_pos hn, ← retire_transfer]
    exact lockstep_ok hl (by rw [hf]; simp [enterLoop, hn, jumpTo_inside hin])
  · rw [if_neg hn]
    exact lockstep_ok hl (by rw [hf]; simp [enterLoop, hn])

/-- A loop on a trip count, its rules kept, enters with its agent's share of the iterations (R140, R143). -/
theorem countedLoop_enters {s : State} {l : Lane} {h : Hd} {lc : Fin 8} {trip : Trip} {len : BitVec 10} {kind T n i g : Nat}
    (hd : Decided s l h (tripRegs trip) true) (ht : tripOf s l.who trip = .ok T) (hbody : bodyInside l.ln (len.toNat + 1) = true)
    (hin : inExtent l.ln (lineOf l.ln + 32 * (len.toNat + 2)) = true) (hrules : levelRules s l lc kind = true)
    (hs : spread s (whoSite s l.who) kind (kindActive l.ln 2) T = (n, i, g)) :
    countedLoop h lc trip len kind s = .next (entered s l lc kind len.toNat n i g) :=
  lockstep_enterLoop hd.1 (by simp [hd.2, hrules, hbody, ht, hs]) hin

theorem loopn_enters {s : State} {l : Lane} {h : Hd} {lc : Fin 8} {len : BitVec 10} {as : AReg} {n T : Nat} {m : Member}
    (hw : l.who = .mem n) (hd : Decided s l h [] true) (ht : rowTrip (mem s n) as = .ok (T, m)) (hrules : levelRules s l lc 0 = true)
    (hbody : bodyInside l.ln (len.toNat + 1) = true) (hin : inExtent l.ln (lineOf l.ln + 32 * (len.toNat + 2)) = true) :
    exec (.loopn h lc as len) s = .next (entered (setMem s n m) l lc 0 len.toNat T 0 1) := by
  obtain ⟨hl, hact⟩ := hd
  rw [hw] at hact
  exact lockstep_enterLoop hl (by simp [hact, hrules, hbody, hw, ht]) hin

/-- A temporal loop is not shared out. -/
theorem spread_temporal (s : State) (n : Nat) (b : Bool) (T : Nat) : spread s n 0 b T = (T, 0, 1) := by simp [spread]

/-- The numbers below T of residue m, counted. -/
theorem length_filter_mod {T m G : Nat} (hm : m < G) : ((List.range T).filter fun i => i % G = m).length = (T + G - 1 - m) / G := by
  have hcount : ((List.range T).filter fun i => i % G = m).length = Nat.count (fun i => i ≡ m [MOD G]) T := by
    simp [← List.countP_eq_length_filter, Nat.count, Nat.ModEq, Nat.mod_eq_of_lt hm]
  have hr : T % G < G := Nat.mod_lt _ (by omega)
  have hsplit : T + G - 1 - m = T % G + (G - 1 - m) + G * (T / G) := by
    have := Nat.mod_add_div T G
    omega
  rw [hcount, Nat.count_modEq_card T (by omega) m, Nat.mod_eq_of_lt hm, hsplit, Nat.add_mul_div_left _ _ (by omega), Nat.add_comm]
  congr 1
  split
  · exact (Nat.div_eq_of_lt_le (by omega) (by omega)).symm
  · exact (Nat.div_eq_of_lt (by omega)).symm

/-- A `loopc` at top level is shared over the gang, every G-th iteration to a member (R143). -/
theorem spread_gang {s : State} {n m G : Nat} (hG : (gangOf s n).length = G) (hm : rankIn n (gangOf s n) = m) (hlt : m < G) (T : Nat) :
    spread s n 1 false T = (((List.range T).filter fun i => i % G = m).length, m, G) := by
  rw [length_filter_mod hlt]
  simp [spread, hG, hm]

/-- Settles O6, loop by loop. -/
theorem loops : Obligations.Loops := by
  unfold Obligations.Loops
  refine ⟨fun s l h lc len => ⟨fun trip T hd ht hbody hin => ⟨?temporal, ?cores, ?dies⟩, ?rows⟩,
    fun s n m G T hG hm hlt => spread_gang hG hm hlt T⟩
  case temporal => exact fun hr => countedLoop_enters hd ht hbody hin hr (spread_temporal ..)
  case cores => exact fun n i g hr hs => countedLoop_enters hd ht hbody hin hr hs
  case dies => exact fun n i g hr hs => countedLoop_enters hd ht hbody hin hr hs
  case rows => exact fun as n T m hw hd ht hr hbody hin => loopn_enters hw hd ht hr hbody hin

/-! ## `lbrk` (R145) -/

section
variable {s : State} {l : Lane} {h : Hd} {lc : Fin 8} {a : SReg} {v : Word} {x : Level}

/-- A level that stands among the active loops is active. -/
theorem levelActive_of_find {ln : QLane} (hx : ln.stack.find? (fun y => y.lc == lc) = some x) : levelActive ln lc = true := by
  have hany : ln.stack.any (fun y => y.lc == lc) = true :=
    List.any_eq_true.2 ⟨x, List.mem_of_find?_eq_some hx, List.find?_some (p := fun y : Level => y.lc == lc) hx⟩
  simp [levelActive, hany]

theorem lbrk_handler (hl : curLane s = some l) (hw : ∃ n, l.who = .hnd n) :
    exec (.lbrk h lc a) s = .next (laneFault s l (trapOf .illegal)) := by
  obtain ⟨n, hn⟩ := hw
  exact lockstep_trap hl (by simp [hn])

/-! In a member and in a lookup core `lbrk` goes by the state of its level. -/

variable (hw : ∀ n, l.who ≠ .hnd n)
include hw

theorem lbrk_inactive {act : Bool} (hd : Decided s l h [a] act) (hoff : levelActive l.ln lc = false) :
    exec (.lbrk h lc a) s = .next (laneFault s l (trapOf .illegal)) :=
  lockstep_trap hd.1 (by simp [hd.2, hoff])

theorem lbrk_never (hd : Decided s l h [a] false) (hon : levelActive l.ln lc = true) : exec (.lbrk h lc a) s = .next (retire s l 1) :=
  lockstep_ok hd.1 (by simp [hd.2, hon])

theorem lbrk_zero (hd : Decided s l h [a] true) (hv : Machine.readOne s l.who a = .ok 0) (hon : levelActive l.ln lc = true) :
    exec (.lbrk h lc a) s = .next (retire s l 1) :=
  lockstep_ok hd.1 (by simp [hd.2, hon, hv])

variable (hd : Decided s l h [a] true) (hv : Machine.readOne s l.who a = .ok v) (hv0 : v ≠ 0#64)
include hd hv hv0

theorem lbrk_jumps (hx : l.ln.stack.find? (fun y => y.lc == lc) = some x) (hin : inExtent l.ln (x.last + 32) = true) :
    exec (.lbrk h lc a) s = .next (jumped s l (x.last + 32) (endLevel lc l.ln.stack)) := by
  rw [← retire_transfer]
  exact lockstep_ok hd.1 (by simp [hd.2, levelActive_of_find hx, hv, hv0, hx, jumpTo_inside hin])

theorem lbrk_outside (hx : l.ln.stack.find? (fun y => y.lc == lc) = some x) (hout : inExtent l.ln (x.last + 32) = false) :
    exec (.lbrk h lc a) s = .next (laneFault s l (trapOf .illegal)) :=
  lockstep_trap hd.1 (by
    simp [hd.2, levelActive_of_find hx, hv, hv0, hx, jumpTo_outside hout, illegal])

/-- A break of the running record's level (log 154). -/
theorem lbrk_record (hon : levelActive l.ln lc = true) (hx : l.ln.stack.find? (fun y => y.lc == lc) = none) :
    exec (.lbrk h lc a) s = .next (laneFault s l (trapOf .illegal)) :=
  lockstep_trap hd.1 (by simp [hd.2, hon, hv, hv0, hx, illegal])

end

/-! ## `stg` (R148) -/

section
variable {s : State} {l : Lane} {h : Hd} {d : SReg} {r : RecRun} {act : Act}

/-- A literal is a source that any agent reads. -/
theorem reads_literal (hn : needLanded s l.who [d] = .ok ()) (v : Word) : Reads s l.who [d] [.k v] [v] s :=
  ⟨hn, plain 0, rfl, rfl⟩

theorem stg_sends (hr : laneRcd s l = some r) (hact : Acts s l h act) (hn : needLanded s l.who [d] = .ok ()) (hf : Fits s l d act)
    (st : Fin 8) : exec (.stg h d st) s = .next (sends s l d (if stagePred r st.val then 1 else 0) 1 act) :=
  lockstep_ok hact.1 (by
    simp only [hr]
    exact scalarOp_acts hact (reads_literal hn _) hf 1 (fn1 id))

theorem stg_outside (hl : curLane s = some l) (hr : laneRcd s l = none) (st : Fin 8) :
    exec (.stg h d st) s = .next (laneFault s l (trapOf .illegal)) :=
  lockstep_trap hl (by simp [hr, illegal])

/-- While a SAVE or RESTORE block runs no predicate is true (log 135). -/
theorem stagePred_block (hp : r.phase = .save ∨ r.phase = .restore) (st : Nat) : stagePred r st = false := by
  rcases hp with hp | hp <;> simp [stagePred, hp]

theorem stagePred_iff (st : Nat) :
    stagePred r st = true ↔ r.phase = .ker ∧ st < r.stages ∧ st ≤ r.j ∧ r.j < r.n + st := by
  simp [stagePred, and_assoc]

end

/-- Settles O7: `lbrk` by the state of its level, then `stg` of a SAVE or RESTORE block. -/
theorem loopBreak : Obligations.LoopBreak := by
  unfold Obligations.LoopBreak
  intro s l h lc a v x
  refine ⟨fun hw hd hv => ⟨fun hx hin => ?inside, fun hx _ hout hv0 => lbrk_outside hw hd hv hv0 hx hout, ?zero,
    fun hon hv0 hx => lbrk_record hw hd hv hv0 hon hx, lbrk_inactive hw hd⟩, lbrk_never, lbrk_handler, ?block⟩
  case inside =>
    split
    · rename_i h0
      exact lbrk_zero hw hd (h0 ▸ hv) (levelActive_of_find hx)
    · rename_i hv0
      exact lbrk_jumps hw hd hv hv0 hx hin
  case zero =>
    rintro hon rfl
    exact lbrk_zero hw hd hv hon
  case block =>
    intro r act d st hr hp hact hn hf
    rw [stg_sends hr hact hn hf, stagePred_block hp]
    rfl

/-- Settles O8, from the rule of `stg` and R147's formula. -/
theorem stagePredicates : Obligations.StagePredicates := by
  unfold Obligations.StagePredicates
  intro s l h d st
  refine ⟨fun r act hr _ _ hact hn hf => ?_, fun hl hr => stg_outside hl hr st⟩
  simp only [stg_sends hr hact hn hf, stagePred_iff]

end Sys2Proof.Proofs
end

