-- ==== Sys2Proof/Proofs/FlagWaits.lean ====
section
/-! SUPPORT and PROOF. `fwait` and `barw`: when they go on, and what they leave (R139, R241, R242). -/

namespace Sys2Proof.Proofs

open Sys2Proof Sys2Proof.Machine Sys2Proof.Laws Sys2Proof.Claims

/-- A check that passes. -/
theorem require_bind {α : Type} {b : Bool} {k : Kind} {f : Unit → Except Stop α} (hb : b = true) : (require b k >>= f) = f () := by
  simp [hb]

/-- The value of a single alternative. -/
@[simp] theorem valOf_plain (v : Word) : valOf (plain v) = v := rfl

variable {s : State} {l : Lane} {h : Hd}

/-! ## `fwait` (R241) -/

/-- The agents that `fwait` accepts, and the flags it accepts of a lookup core (R273, R382). -/
def fwaitTakes (f : FlagRef) : Who → Bool
  | .hnd _ => false
  | .lk _ => decide (f.fk.toNat ≤ 1)
  | .mem _ => true

section
variable {f : FlagRef} {sc : BitVec 2} {v : FlagVal} {vals : List Word} (hw : fwaitTakes f l.who = true)
include hw

theorem fwait_never (hd : Decided s l h (valRegs v) false) : exec (.fwait h f sc v) s = .next (retire s l 1) :=
  lockstep_ok hd.1 ((require_bind hw).trans (by simp [hd.2]))

variable (hd : Decided s l h (valRegs v) true) (hr : readRegs s l.who (valRegs v) = .ok (vals.map plain))
  (hreach : flagReach s (whoSite s l.who) (flagKey (whoSite s l.who) f) = true)
include hd hr hreach

/-- A wait that is satisfied, now or at the flag's home, acquires and goes on. -/
theorem fwait_goes
    (hmet : (valOfField v vals).toNat ≤ (flagVal s (flagKey (whoSite s l.who) f)).toNat ∨ waitMet s l.who ≠ none) :
    exec (.fwait h f sc v) s = .next (retire (acquireDone s l.who (flagKey (whoSite s l.who) f)) l 1) := by
  have hmet' : (waitMet s l.who).isSome = true ∨ (valOfField v vals).toNat ≤ (flagVal s (flagKey (whoSite s l.who) f)).toNat :=
    hmet.symm.imp_left Option.isSome_iff_ne_none.2
  refine lockstep_ok hd.1 ((require_bind hw).trans ?_)
  simp [hd.2, hr, hreach, hmet', Function.comp_def]

/-- A wait that is not satisfied stops its agent. -/
theorem fwait_waits (hlow : (flagVal s (flagKey (whoSite s l.who) f)).toNat < (valOfField v vals).toNat)
    (hunmet : waitMet s l.who = none) :
    exec (.fwait h f sc v) s = .next (waitOn s l.who (.flagWait (flagKey (whoSite s l.who) f) (valOfField v vals).toNat)) := by
  refine lockstep_wait hd.1 ((require_bind hw).trans ?_)
  simp [hd.2, hr, hreach, hunmet, Nat.not_le.2 hlow, Function.comp_def]

end

/-! ## What a lane of a member leaves of its registers' writes in flight -/

section
variable {n : Nat} (hw : l.who = .mem n)
include hw

theorem retire_fly (occ : Nat) : (mem (retire s l occ) n).fly = (mem s n).fly := by rw [mem_retire hw]; rfl

theorem wrote_dmem (d : SReg) (v : Word) (lat : Nat) (act : Act) : (wrote s l d v lat act).dmem = s.dmem := by
  unfold wrote
  rw [hw]
  split <;> rfl

/-- A write on its way follows those in flight, but for s0 (R31). -/
theorem wrote_sw (d : SReg) (v : Word) (lat : Nat) (act : Act) :
    (mem (wrote s l d v lat act) n).fly.sw = (mem s n).fly.sw ++ if d = 0 then [] else [sent s l d v lat act] := by
  unfold wrote
  rw [hw]
  split
  · rw [List.append_nil]
    rfl
  · exact congrArg (fun m => m.fly.sw) (mem_updMem_same ..)

/-- An acquire uses up what satisfied its wait, and leaves the rest of its member. -/
theorem mem_acquireDone (k : FlagKey) :
    mem (acquireDone s l.who k) n = { mem s n with ctl := { (mem s n).ctl with met := none } } := by
  rw [hw]
  exact mem_updMem_same ..

theorem acquireDone_dmem (k : FlagKey) : (acquireDone s l.who k).dmem = s.dmem := by
  rw [hw]
  rfl

theorem sent_acquireDone (k : FlagKey) (d : SReg) (v : Word) (lat : Nat) (act : Act) :
    sent (acquireDone s l.who k) l d v lat act = sent s l d v lat act := by
  have hm := mem_acquireDone (s := s) hw k
  have hcycle : cycleOf (acquireDone s l.who k) l.who = cycleOf s l.who := by
    rw [hw] at hm ⊢
    simp only [cycleOf, hm]
  have hfresh : (acquireDone s l.who k).fresh = s.fresh := by
    rw [hw]
    rfl
  simp only [sent, hcycle, hfresh]

/-- The breadth of a destination does not hang on what its agent has learnt. -/
theorem fits_acquireDone {d : SReg} {act : Act} (hf : Fits s l d act) (k : FlagKey) : Fits (acquireDone s l.who k) l d act := by
  have hm := mem_acquireDone (s := s) hw k
  have hs := sent_acquireDone (s := s) hw k d
  unfold Fits at hf ⊢
  simp only [hs]
  rw [hw] at hf ⊢
  rw [hw] at hm
  simp only [hm]
  exact hf

end

/-! ## `barw` (R242) -/

section
variable {n : Nat} {o : BitVec 12} {a : SReg} {v : Word} (hw : l.who = .mem n) (ho : o.toNat % 2 = 0)

include hw ho

theorem barw_never (hd : Decided s l h [a] false) : exec (.barw h o a) s = .next (retire s l 1) := by
  obtain ⟨hl, hc⟩ := hd
  rw [hw] at hc
  exact lockstep_ok hl (by simp [memOnly_of hw, hw, ho, hc])

variable (hd : Decided s l h [a] true) (hv : Machine.readOne s l.who a = .ok v) (hunmet : (mem s n).ctl.met = none)
include hd hv hunmet

theorem barw_waits (hphase : (flagVal s (.dev (o.toNat + 1))).toNat % 2 ^ 30 = v.toNat % 2 ^ 30)
    (hstatus : (flagVal s (.dev (o.toNat + 1))).toNat / 2 ^ 30 = 0) :
    exec (.barw h o a) s = .next (waitOn s l.who (.barWait o.toNat (v.toNat % 2 ^ 30))) := by
  obtain ⟨hl, hc⟩ := hd
  have hmet : waitMet s l.who = none := by rw [hw]; exact hunmet
  have hno : meets (.dev (o.toNat + 1)) (flagVal s (.dev (o.toNat + 1))) (.barWait o.toNat (v.toNat % 2 ^ 30)) = false := by
    simp [-Nat.reducePow, meets, hphase, hstatus]
  exact lockstep_wait hl (by simp [-Nat.reducePow, memOnly_of hw, ho, hc, hv, hmet, hno])

/-- A wait that is over writes the barrier's status in the next cycle. -/
theorem barw_goes (hf : Fits s l a .always)
    (hover : (flagVal s (.dev (o.toNat + 1))).toNat % 2 ^ 30 ≠ v.toNat % 2 ^ 30 ∨
      (flagVal s (.dev (o.toNat + 1))).toNat / 2 ^ 30 ≠ 0) :
    exec (.barw h o a) s = .next (sends (acquireDone s l.who (.dev (o.toNat + 1))) l a
      (nat64 ((flagVal s (.dev (o.toNat + 1))).toNat / 2 ^ 30)) 1 .always) := by
  obtain ⟨hl, hc⟩ := hd
  have hmet : waitMet s l.who = none := by rw [hw]; exact hunmet
  have hyes : meets (.dev (o.toNat + 1)) (flagVal s (.dev (o.toNat + 1))) (.barWait o.toNat (v.toNat % 2 ^ 30)) = true := by
    simpa [-Nat.reducePow, -Nat.div_eq_zero_iff, meets] using hover
  have hwrite : writeS (acquireDone s l.who (.dev (o.toNat + 1))) l a
      (plain (BitVec.ofNat 64 ((flagVal s (.dev (o.toNat + 1))).toNat / 2 ^ 30))) 1 none =
      .ok (wrote (acquireDone s l.who (.dev (o.toNat + 1))) l a _ 1 .always) :=
    writeS_fits (fits_acquireDone hw hf _) _ 1
  exact lockstep_ok hl (by simp [-Nat.reducePow, memOnly_of hw, ho, hc, hv, hmet, hyes, hwrite, nat64])

end

/-- Settles O12: the rules of `fwait`, then those of `barw`. -/
theorem flagAndBarrierWaits : Obligations.FlagAndBarrierWaits := by
  unfold Obligations.FlagAndBarrierWaits
  refine ⟨fun s l h f sc v vals hw => ?fwait, fun s l n h o a v hw ho => ?barw⟩
  case fwait =>
    have hw' : fwaitTakes f l.who = true := by
      rcases l with ⟨n | n | n, q, ln⟩
      · rfl
      · exact hw.elim
      · exact decide_eq_true hw
    exact ⟨fwait_never hw', fun hd hr hreach => ⟨fwait_goes hw' hd hr hreach, fwait_waits hw' hd hr hreach⟩⟩
  case barw =>
    refine ⟨barw_never hw ho, fun hd hv hunmet hf => ⟨fun hover => ?_, barw_waits hw ho hd hv hunmet⟩⟩
    refine ⟨_, sent s l a _ 1 .always, barw_goes hw ho hd hv hunmet hf hover, ?_, rfl, rfl, ?_, ?_⟩
    · rw [sends, retire_dmem hw, wrote_dmem hw, acquireDone_dmem hw]
    · simp [sent, hw, cycleOf]
    · rw [sends, retire_fly hw, wrote_sw hw, sent_acquireDone hw, mem_acquireDone hw]

end Sys2Proof.Proofs
end

