-- ==== Sys2Proof/Proofs/LaunchEnd.lean ====
section
/-! SUPPORT. What the end of a launch and a terminal fault leave of a member (R47, R348), and what a barrier it takes part in
changes of the members (R242, R350). -/

namespace Sys2Proof.Proofs

open Sys2Proof Sys2Proof.Machine Sys2Proof.Laws Sys2Proof.Claims

/-! ## Flags written at their homes (R241, R242) -/

/-- Of the members nothing has changed but what satisfied a wait; the launches and the bind records stand. -/
structure Noted (s t : State) : Prop where
  members : ∀ j, ∃ x, mem t j = { mem s j with ctl := { (mem s j).ctl with met := x } }
  launches : t.launches = s.launches
  slotTable : t.slotTable = s.slotTable

theorem Noted.of_eq {s t : State} (hm : t.members = s.members) (hl : t.launches = s.launches) (hs : t.slotTable = s.slotTable) :
    Noted s t :=
  ⟨fun j => ⟨(mem s j).ctl.met, by simp only [mem, hm]⟩, hl, hs⟩

theorem Noted.refl (s : State) : Noted s s := .of_eq rfl rfl rfl

theorem Noted.trans {s t u : State} (h : Noted s t) (k : Noted t u) : Noted s u := by
  refine ⟨fun j => ?_, k.launches.trans h.launches, k.slotTable.trans h.slotTable⟩
  obtain ⟨x, hx⟩ := h.members j
  obtain ⟨y, hy⟩ := k.members j
  exact ⟨y, by rw [hy, hx]⟩

/-- A fold of such steps is one. -/
theorem Noted.foldl {α : Type} {f : State → α → State} (h : ∀ s a, Noted s (f s a)) (l : List α) (s : State) :
    Noted s (l.foldl f s) := by
  induction l generalizing s with
  | nil => exact .refl s
  | cons a r ih => exact (h s a).trans (ih (f s a))

theorem Noted.regs {s t : State} (h : Noted s t) (j : Nat) : (mem t j).regs = (mem s j).regs := by
  obtain ⟨x, hx⟩ := h.members j; rw [hx]

theorem Noted.spr {s t : State} (h : Noted s t) (j : Nat) : (mem t j).spr = (mem s j).spr := by
  obtain ⟨x, hx⟩ := h.members j; rw [hx]

theorem Noted.life {s t : State} (h : Noted s t) (j : Nat) : (mem t j).ctl.life = (mem s j).ctl.life := by
  obtain ⟨x, hx⟩ := h.members j; rw [hx]

/-- A device flag written. -/
theorem noted_setFlag (s : State) (n : Nat) (v : Word32) (a b : BitVec 16) : Noted s (setFlag s (.dev n) v a b) := by
  refine ⟨fun j => ?_, rfl, rfl⟩
  rcases tget_mapSnd Member.free (fun m => { m with ctl := { m.ctl with met := metBy s.cal (.dev n) v ⟨a, b⟩ m.ctl.frz m.ctl.met } })
    s.members j with h | ⟨ht, hs⟩
  · exact ⟨_, h⟩
  · exact ⟨(mem s j).ctl.met, ht.trans hs.symm⟩

theorem noted_breakBarriers (s : State) (sites : List Nat) : Noted s (breakBarriers s sites) := by
  unfold breakBarriers
  refine Noted.foldl (fun s p => ?_) _ _
  split
  · exact .refl s
  · split
    · have h := noted_setFlag s (p.1 + 1) (breakWord (flagVal s (.dev (p.1 + 1))) 1) (srcId 5 0 0) 0
      generalize setFlag s (.dev (p.1 + 1)) (breakWord (flagVal s (.dev (p.1 + 1))) 1) (srcId 5 0 0) 0 = u at h ⊢
      exact h.trans (.of_eq rfl rfl rfl)
    · exact .refl s

@[simp] theorem postRec_members (s : State) (r : FaultRec) : (postRec s r).members = s.members := by unfold postRec; split <;> rfl
@[simp] theorem postRec_launches (s : State) (r : FaultRec) : (postRec s r).launches = s.launches := by unfold postRec; split <;> rfl
@[simp] theorem postRec_slotTable (s : State) (r : FaultRec) : (postRec s r).slotTable = s.slotTable := by unfold postRec; split <;> rfl
@[simp] theorem postRec_vigil (s : State) (r : FaultRec) : (postRec s r).vigil = s.vigil := by unfold postRec; split <;> rfl

theorem noted_postRec (s : State) (r : FaultRec) : Noted s (postRec s r) := .of_eq (by simp) (by simp) (by simp)

theorem noted_setBarrier (s : State) (n : Nat) (b : Option Barrier) : Noted s (setBarrier s n b) := .of_eq rfl rfl rfl

theorem noted_settleBarrier (s : State) (n : Nat) (a : BitVec 16) : Noted s (settleBarrier s n a) := by
  unfold settleBarrier
  split
  · exact .refl s
  · dsimp only
    split
    · exact .refl s
    · split
      · exact ((noted_setFlag ..).trans (noted_setFlag ..)).trans (noted_setBarrier ..)
      · split
        · exact (noted_setFlag ..).trans (noted_postRec ..)
        · exact .refl s

theorem noted_withdraw (s : State) (n site : Nat) : Noted s (withdraw s n site) := by
  unfold withdraw
  split
  · exact .refl s
  · split
    · exact .refl s
    · dsimp only
      split
      · exact ((noted_setBarrier ..).trans (noted_settleBarrier ..)).trans (noted_setBarrier ..)
      · exact (noted_setBarrier ..).trans (noted_settleBarrier ..)

/-- A member's participations withdrawn (R350). -/
theorem noted_withdrawAll (s : State) (site : Nat) : Noted s (withdrawAll s site) := Noted.foldl (fun s n => noted_withdraw s n site) _ _

/-! ## The end of a launch (R348) -/

/-- The launch of an identity after it is changed. -/
theorem findLaunch_updLaunch (s : State) (id : Word32) {f : Launch → Launch} (hf : ∀ l, (f l).id = l.id) :
    findLaunch (updLaunch s id f) id = (findLaunch s id).map f := by
  unfold findLaunch updLaunch
  dsimp only
  induction s.launches with
  | nil => rfl
  | cons x r ih =>
    by_cases h : x.id = id
    · simp [h, hf]
    · simp [h, ih]

/-- The sites of a launch hang on the launches and the bind records alone. -/
theorem launchSites_congr {s t : State} (hl : t.launches = s.launches) (hs : t.slotTable = s.slotTable) (id : Word32) :
    launchSites t id = launchSites s id := by simp only [launchSites, findLaunch, hl, hs]

theorem Noted.launchSites {s t : State} (h : Noted s t) (id : Word32) : launchSites t id = launchSites s id :=
  launchSites_congr h.launches h.slotTable id

theorem waitRec_launches (s : State) (n : Nat) (t : WaitTimer) (u : LastSet) (g : LoopTag) :
    (waitRec s n t u g).launches = s.launches := by unfold waitRec; split <;> rfl
theorem waitRec_members (s : State) (n : Nat) (t : WaitTimer) (u : LastSet) (g : LoopTag) :
    (waitRec s n t u g).members = s.members := by unfold waitRec; split <;> rfl

/-- What the waits that are logged leave, they leave when a launch cuts them short. -/
theorem cutWaits_keeps {α : Type} (g : State → α) (h : ∀ s n t u k, g (waitRec s n t u k) = g s) (s : State) (id : Word32)
    (sites : List Nat) : g (cutWaits s id sites) = g s := by
  unfold cutWaits
  rw [foldl_keeps g, foldl_keeps g]
  · intro s n
    rw [foldl_keeps g, foldl_keeps g] <;> exact fun _ _ => h ..
  · intro s p
    split
    · exact h ..
    · rfl

theorem spoilSaves_launches (s : State) (sites : List Nat) : (spoilSaves s sites).launches = s.launches := by
  unfold spoilSaves
  refine foldl_keeps State.launches (fun s n => ?_) _ _
  dsimp only
  split <;> rfl

theorem spoilSaves_members (s : State) (sites : List Nat) : (spoilSaves s sites).members = s.members := by
  unfold spoilSaves
  refine foldl_keeps State.members (fun s n => ?_) _ _
  dsimp only
  split <;> rfl

/-- What the end of its launch leaves of a member: its registers, and that it issues nothing more. -/
structure Outlives (s t : State) (n : Nat) : Prop where
  regs : (mem t n).regs = (mem s n).regs
  spr : (mem t n).spr = (mem s n).spr
  life : (mem t n).ctl.life = .retired

theorem Outlives.noted {s t u : State} {n : Nat} (h : Outlives s t n) (k : Noted t u) : Outlives s u n :=
  ⟨(k.regs n).trans h.regs, (k.spr n).trans h.spr, (k.life n).trans h.life⟩

theorem mem_updMem_endMember (s : State) (k n : Nat) :
    mem (updMem s k endMember) n = if n = k then endMember (mem s n) else mem s n := by
  split
  · rename_i h
    rw [h, mem_updMem_same]
  · rename_i h
    exact mem_updMem_ne s _ h

/-- The members of a launch that ends, one after the other. -/
theorem outlives_foldl_endMember (s : State) {sites : List Nat} {n : Nat} (hn : n ∈ sites) :
    Outlives s (sites.foldl (fun s n => updMem s n endMember) s) n := by
  let f := fun (s : State) k => updMem s k endMember
  have hregs : ∀ s k, (mem (f s k) n).regs = (mem s n).regs := by
    intro s k
    simp only [f, mem_updMem_endMember]
    split <;> rfl
  have hspr : ∀ s k, (mem (f s k) n).spr = (mem s n).spr := by
    intro s k
    simp only [f, mem_updMem_endMember]
    split <;> rfl
  have hlife : ∀ (l : List Nat) (s : State), n ∈ l ∨ (mem s n).ctl.life = .retired → (mem (l.foldl f s) n).ctl.life = .retired := by
    intro l
    induction l with
    | nil => intro s h; simpa using h
    | cons k r ih =>
      intro s h
      refine ih (f s k) ?_
      by_cases hk : n = k
      · exact .inr (by simp only [f, mem_updMem_endMember, if_pos hk]; rfl)
      · simpa [f, mem_updMem_endMember, hk] using h
  exact ⟨foldl_keeps (fun s => (mem s n).regs) hregs sites s,
    foldl_keeps (fun s => (mem s n).spr) hspr sites s, hlife sites s (.inl hn)⟩

/-- The state in which a launch that ends has lost its members, and its own record is still to change. -/
def unmanned (s : State) (id : Word32) (sites : List Nat) : State :=
  sites.foldl (fun s n => updMem s n endMember) (cutWaits (spoilSaves (tallyEvents s id sites) sites) id sites)

theorem outlives_unmanned (s : State) (id : Word32) {sites : List Nat} {n : Nat} (hn : n ∈ sites) :
    Outlives s (unmanned s id sites) n := by
  have hm : (cutWaits (spoilSaves (tallyEvents s id sites) sites) id sites).members = s.members := by
    rw [cutWaits_keeps State.members waitRec_members, spoilSaves_members]
    rfl
  have he : mem (cutWaits (spoilSaves (tallyEvents s id sites) sites) id sites) n = mem s n := by simp only [mem, hm]
  have h := outlives_foldl_endMember (cutWaits (spoilSaves (tallyEvents s id sites) sites) id sites) hn
  exact ⟨h.regs.trans (by rw [he]), h.spr.trans (by rw [he]), h.life⟩

theorem unmanned_launches (s : State) (id : Word32) (sites : List Nat) :
    (unmanned s id sites).launches = (tallyEvents s id sites).launches := by
  unfold unmanned
  rw [foldl_keeps State.launches (f := fun s n => updMem s n endMember) (fun _ _ => rfl), cutWaits_keeps State.launches waitRec_launches,
    spoilSaves_launches]

/-- A change of a launch's record that closes it with a completion status. -/
def Closes (status : Nat) (f : Launch → Launch) : Prop :=
  ∀ l, (f l).id = l.id ∧ (f l).state = .ended ∧ (f l).status = BitVec.ofNat 8 status ∧ (f l).owed = true

theorem preemptDone_members (s : State) (id : Word32) : (preemptDone s id).members = s.members := by unfold preemptDone; split <;> rfl
theorem preemptDone_launches (s : State) (id : Word32) : (preemptDone s id).launches = s.launches := by unfold preemptDone; split <;> rfl

/-- What else the end of a launch releases leaves its members and its record (R306, R350, R379). -/
theorem noted_released (s : State) (id : Word32) (sites : List Nat) (status : Nat) :
    Noted s (if status = 0 then releasePins (endLookups s id) id else breakBarriers (releasePins (endLookups s id) id) sites) := by
  have h : Noted s (releasePins (endLookups s id) id) := .of_eq rfl rfl rfl
  split
  · exact h
  · exact h.trans (noted_breakBarriers ..)

/-- The end of a launch: its members stop, what they held is released, and its record is closed. -/
theorem endLaunch_form (s : State) (id : Word32) (sites : List Nat) (status cause : Nat) :
    ∃ u w f, Noted (unmanned s id sites) u ∧ w.members = u.members ∧ w.launches = u.launches ∧ Closes status f ∧
      endLaunch s id sites status cause = preemptDone (updLaunch w id f) id := by
  refine ⟨_, _, _, noted_released (unmanned s id sites) id sites status, ?_, ?_, ?_, rfl⟩
  · rfl
  · rfl
  · exact fun l => ⟨rfl, rfl, rfl, rfl⟩

/-- A member of a launch that ends. -/
theorem endLaunch_outlives (s : State) (id : Word32) {sites : List Nat} {n : Nat} (hn : n ∈ sites) (status cause : Nat) :
    Outlives s (endLaunch s id sites status cause) n := by
  obtain ⟨u, w, f, hu, hm, -, -, he⟩ := endLaunch_form s id sites status cause
  have hmem : mem (endLaunch s id sites status cause) n = mem u n := by
    simp only [he, mem, preemptDone_members, ← hm]
    rfl
  have h := (outlives_unmanned s id hn).noted hu
  exact ⟨by rw [hmem, h.regs], by rw [hmem, h.spr], by rw [hmem, h.life]⟩

theorem findLaunch_tallyEvents (s : State) (id : Word32) (sites : List Nat) {x : Launch} (hx : findLaunch s id = some x) :
    ∃ y, findLaunch (tallyEvents s id sites) id = some y := by
  unfold tallyEvents
  rw [findLaunch_updLaunch s id, hx]
  · exact ⟨_, rfl⟩
  · exact fun _ => rfl

/-- The record of a launch that ends. -/
theorem endLaunch_became (s : State) (id : Word32) (sites : List Nat) (status cause : Nat) {x : Launch} (hx : findLaunch s id = some x) :
    Became (endLaunch s id sites status cause) id fun y => y.state = .ended ∧ y.status = BitVec.ofNat 8 status ∧ y.owed = true := by
  obtain ⟨u, w, f, hu, -, hl, hf, he⟩ := endLaunch_form s id sites status cause
  obtain ⟨y, hy⟩ := findLaunch_tallyEvents s id sites hx
  have hw : findLaunch w id = some y := by
    rw [← hy]
    simp only [findLaunch, hl, hu.launches, unmanned_launches]
  refine ⟨f y, ?_, (hf y).2⟩
  calc findLaunch (endLaunch s id sites status cause) id
    _ = findLaunch (updLaunch w id f) id := by simp only [he, findLaunch, preemptDone_launches]
    _ = (findLaunch w id).map f := findLaunch_updLaunch w id fun l => (hf l).1
    _ = some (f y) := by rw [hw, Option.map_some]

/-! ## A terminal fault (R47, R348) -/

/-- A member whose fault is recorded, before its launch ends. -/
def faulted (s : State) (n : Nat) (x : Raised) : State :=
  updMem s n fun m => faultRegs { m with ctl := { m.ctl with trap := none } } x.trap x.q x.addr

/-- A fault is recorded; then Vigil is put in force, or the launch ends. -/
theorem takeRaised_eq (s : State) (n : Nat) (x : Raised) (hoff : vigilActive s = false) :
    ∃ r, let u := postRec (faulted s n x) r
      takeRaised s n x = if vigilArmed u 2 then vigilFire u 3 (some r) else
        let sites := launchSites u (bindOf u n).launch
        endLaunch u (bindOf u n).launch (if sites.contains n then sites else n :: sites) 2 (kindCode x.trap.kind) :=
  ⟨_, if_neg (by simpa [vigilActive] using hoff)⟩

/-- A recorded fault, Vigil apart, ends a launch of one member. -/
theorem takeRaised_single {s : State} {n : Nat} (hu : Unwatched s) (hs : launchSites s (bindOf s n).launch = [n]) (x : Raised) :
    ∃ r, takeRaised s n x = endLaunch (postRec (faulted s n x) r) (bindOf s n).launch [n] 2 (kindCode x.trap.kind) := by
  obtain ⟨r, hr⟩ := takeRaised_eq s n x hu.1
  have harm : vigilArmed (postRec (faulted s n x) r) 2 = false := by
    rw [← hu.2]
    simp only [vigilArmed, postRec_vigil]
    rfl
  have hbind : bindOf (postRec (faulted s n x) r) n = bindOf s n := by
    simp only [bindOf, postRec_slotTable]
    rfl
  have hsites : launchSites (postRec (faulted s n x) r) (bindOf s n).launch = [n] :=
    (launchSites_congr (postRec_launches ..) (postRec_slotTable ..) _).trans hs
  refine ⟨r, hr.trans ?_⟩
  simp [harm, hbind, hsites]

/-- What a terminal fault leaves of a member: CAUSE names its kind, its launch has ended, and its registers stand. -/
structure Faulted (s t : State) (n : Nat) (k : Kind) : Prop where
  cause : (mem t n).spr.cause = nat64 (kindCode k)
  life : (mem t n).ctl.life = .retired
  regs : (mem t n).regs = (mem s n).regs

/-- A terminal fault of a launch of one member, Vigil apart. -/
theorem takeRaised_faulted {s : State} {n : Nat} (hu : Unwatched s) (hs : launchSites s (bindOf s n).launch = [n]) {x : Raised}
    (hx : x.trap.deferred = false) : Faulted s (takeRaised s n x) n x.trap.kind := by
  obtain ⟨r, hr⟩ := takeRaised_single hu hs x
  have hm : mem (postRec (faulted s n x) r) n =
      faultRegs { mem s n with ctl := { (mem s n).ctl with trap := none } } x.trap x.q x.addr := by
    rw [mem, postRec_members]
    exact mem_updMem_same ..
  have h := endLaunch_outlives (postRec (faulted s n x) r) (bindOf s n).launch (List.mem_singleton_self n) 2 (kindCode x.trap.kind)
  rw [hr]
  refine ⟨?_, h.life, ?_⟩
  · rw [h.spr, hm, faultRegs, hx]
    rfl
  · rw [h.regs, hm]
    rfl

theorem takeFault_faulted {s : State} {n : Nat} (hu : Unwatched s) (ht : (mem s n).ctl.trap = none)
    (hs : launchSites s (bindOf s n).launch = [n]) (kind sub q addr index : Nat) (tag : LoopTag) (k : Kind) :
    Faulted s (takeFault s n kind sub q addr index tag (trapOf k)) n k := by
  rw [takeFault, ht, Option.getD_none]
  exact takeRaised_faulted hu hs rfl

end Sys2Proof.Proofs
end

