-- ==== Sys2Proof/Proofs/MembersGoOn.lean ====
section
/-! SUPPORT and PROOF. How a member goes on by itself: handler entry, parking, record boundaries, retirement and the debugger
(R146, R149, R266, R269, R272, R408, R425). -/

namespace Sys2Proof.Proofs

open Sys2Proof Sys2Proof.Machine Sys2Proof.Laws Sys2Proof.Claims

section
variable {s : State} {n : Nat}

/-! ## Handler entry (R272) -/

/-- A request that a stream held comes into the list: nothing else of the handler changes. -/
theorem takeHeldUi_keeps (m : Member) :
    (takeHeldUi m).regs = m.regs ∧ (takeHeldUi m).spr = m.spr ∧ (takeHeldUi m).ui.active = m.ui.active ∧
      (takeHeldUi m).ui.fetch = m.ui.fetch := by
  unfold takeHeldUi
  split <;> exact ⟨rfl, rfl, rfl, rfl⟩

/-- The handler's control column fetches from UI_VECTOR, with the cause of the oldest request. -/
theorem enterUi_enters (m : Member) :
    (enterUi m).regs = m.regs ∧ (enterUi m).ui.active = true ∧ (enterUi m).spr.uiCause = m.ui.reqs.headD 0 ∧
      (enterUi m).ui.fetch.pc = m.spr.uiVector.toNat := by
  unfold enterUi
  dsimp only
  obtain ⟨hregs, hspr, hactive, hfetch⟩ := takeHeldUi_keeps _
  rw [hregs, hspr, hactive, hfetch]
  exact ⟨rfl, rfl, rfl, rfl⟩

theorem uiEntry_enters (hcan : canEnter (mem s n) = true)
    (hok : lkEntryOk (updMem s n enterUi) n (mem s n).spr.uiVector.toNat = true) : exec (.uiEntry n) s = .next (updMem s n enterUi) :=
  congrArg Host.Outcome.next (by simp [hcan, hok])

/-! ## Parking (R408) -/

theorem memberPark_parks (hlife : (mem s n).ctl.life = .parking) (hcan : canPark (mem s n) = true) :
    Happens (.memberPark n) s fun t => Keeps s t n ∧ (mem t n).ctl.life = .parked := by
  let u := updMem s n fun m => { m with ctl := { m.ctl with life := .parked } }
  have hm : mem u n = { mem s n with ctl := { (mem s n).ctl with life := .parked } } := mem_updMem_same ..
  have hu : (parkStep n s).members = u.members ∧ (parkStep n s).dmem = s.dmem := by
    simp only [parkStep, hlife, hcan, Bool.not_true, Bool.false_eq_true, if_false]
    split
    · exact ⟨rfl, rfl⟩
    · split <;> exact ⟨rfl, rfl⟩
  have ht : mem (parkStep n s) n = mem u n := by simp only [mem, hu.1]
  exact ⟨_, rfl, ⟨by rw [ht, hm], hu.2⟩, by rw [ht, hm]⟩

/-- A fetch state put in place keeps registers and memory, and everything of the member but its fetch. -/
theorem mem_setFetch (f : Fetch) : mem (setFetch s (.mem n) f) n = { mem s n with ctl := { (mem s n).ctl with fetch := f } } :=
  mem_updMem_same ..

theorem keeps_setFetch (s : State) (n : Nat) (f : Fetch) : Keeps s (setFetch s (.mem n) f) n := ⟨by rw [mem_setFetch], rfl⟩

/-! ## Record boundaries (R146, R149) -/

section
variable {r : RecRun}

theorem nextStep_pro (h : r.phase = .pro) : (nextStep r).phase = .ker ∧ (nextStep r).j = 0 ∧ extentOf (nextStep r) = r.ker := by
  simp [nextStep, h, extentOf]

/-- After a kernel iteration comes the next, or the epilogue (R146). -/
theorem nextStep_ker (h : r.phase = .ker) :
    (r.j + 1 < r.n + r.stages - 1 → (nextStep r).phase = .ker ∧ (nextStep r).j = r.j + 1) ∧
    (r.n + r.stages - 1 ≤ r.j + 1 → (nextStep r).phase = .epi) := by
  constructor
  · intro hj
    simp [nextStep, h, hj]
  · intro hj
    simp [nextStep, h, Nat.not_lt.2 hj]

variable {f : Fetch} {b : Nat} {st : List Level}

/-- Fetch at the boundary of the last phase it has begun: the phase after it begins there. -/
theorem passBoundary_last (hs : f.steps = [r]) :
    (passBoundary f r b st).steps = [{ nextStep r with zero := b }] ∧ (passBoundary f r b st).pc = (extentOf (nextStep r)).1 := by
  simp [passBoundary, hs, stepRecord]

/-- Fetch that has gone on beyond the boundary: the phase fetched next begins there. -/
theorem passBoundary_ahead {x : RecRun} {rest : List RecRun} (hs : f.steps = r :: x :: rest) :
    (passBoundary f r b st).steps = { x with zero := b } :: rest ∧ (passBoundary f r b st).lanes = f.lanes := by
  simp [passBoundary, hs]

end

/-- The member has passed the boundary of a phase that fetch goes on from. -/
def passed (s : State) (n : Nat) (r : RecRun) (st : List Level) : State :=
  setFetch s (.mem n) (passBoundary (mem s n).ctl.fetch r (max r.zero r.fin) st)

section
variable {r : RecRun} {st : List Level}

theorem keeps_passed : Keeps s (passed s n r st) n := keeps_setFetch ..

theorem passed_life : (mem (passed s n r st) n).ctl.life = (mem s n).ctl.life := by rw [passed, mem_setFetch]

theorem passed_last (hs : (mem s n).ctl.fetch.steps = [r]) :
    runRcd (mem (passed s n r st) n) = some { nextStep r with zero := max r.zero r.fin } ∧
      (mem (passed s n r st) n).ctl.fetch.pc = (extentOf (nextStep r)).1 := by
  obtain ⟨hsteps, hpc⟩ := passBoundary_last (b := max r.zero r.fin) (st := st) hs
  rw [runRcd, passed, mem_setFetch]
  exact ⟨by rw [hsteps]; rfl, hpc⟩

theorem passed_ahead (x : RecRun) (rest : List RecRun) (hs : (mem s n).ctl.fetch.steps = r :: x :: rest) :
    runRcd (mem (passed s n r st) n) = some { x with zero := max r.zero r.fin } ∧
      (mem (passed s n r st) n).ctl.fetch.lanes = (mem s n).ctl.fetch.lanes := by
  obtain ⟨hsteps, hlanes⟩ := passBoundary_ahead (b := max r.zero r.fin) (st := st) hs
  rw [runRcd, passed, mem_setFetch]
  exact ⟨by rw [hsteps]; rfl, hlanes⟩

end

/-- The phase that is over is the first of those fetch has begun. -/
theorem phaseOver_steps {m : Member} {r : RecRun} {st : List Level} (hp : phaseOver m = some (r, st)) :
    ∃ rest, m.ctl.fetch.steps = r :: rest := by
  unfold phaseOver at hp
  dsimp only at hp
  split at hp
  · cases hp
  · rename_i x rest hsteps
    refine ⟨rest, ?_⟩
    split at hp
    · cases hp
    · split at hp
      · cases hp
        exact hsteps
      · obtain ⟨y, -, hy⟩ := Option.map_eq_some_iff.1 hp
        cases hy
        exact hsteps

/-- No stop is asked for. -/
theorem stopAsked_run (hrun : (mem s n).ctl.dbg = .run) : stopAsked s n = s := by simp [stopAsked, hrun]

section
variable {r : RecRun} {st : List Level} (hp : phaseOver (mem s n) = some (r, st)) (hg : groupRuns (mem s n) = true)
  (hb : max r.zero r.fin ≤ (mem s n).ctl.gc)
include hp hg hb

theorem boundaryStep_pro (hph : r.phase = .pro) : boundaryStep n s = passed s n r st := by
  simp [boundaryStep, hp, hg, Nat.not_lt.2 hb, hph, passed, setFetch]

theorem boundaryStep_epi (hph : r.phase = .epi) :
    boundaryStep n s = setFetch s (.mem n) (leaveRecord (mem s n).ctl.fetch r (max r.zero r.fin) st) := by
  simp [boundaryStep, hp, hg, Nat.not_lt.2 hb, hph, setFetch]

/-- A kernel iteration that is no yield point and that no debugger ends. -/
theorem boundaryStep_ker (hph : r.phase = .ker) (hbad : r.loopBad = false)
    (hinner : (mem s n).ctl.fetch.steps = [r] → ∀ x ∈ st, x.inner = false) (hlong : max r.zero r.fin ≤ r.zero + r.longest)
    (hint : r.yieldint = 0) (hask : r.yieldAsked = false) (hrun : (mem s n).ctl.dbg = .run) :
    boundaryStep n s = passed s n r st := by
  obtain ⟨rest, hsteps⟩ := phaseOver_steps hp
  have hloop : ((mem s n).ctl.fetch.steps.length == 1 && st.any Level.inner) = false := by
    cases rest with
    | nil => simpa using fun _ => hinner hsteps
    | cons x rest => simp [hsteps]
  have hok : ¬((r.loopBad || ((mem s n).ctl.fetch.steps.length == 1 && st.any Level.inner)) = true ∨
      r.zero + r.longest < max r.zero r.fin) := by
    rw [hbad, hloop]
    exact not_or.2 ⟨Bool.false_ne_true, Nat.not_lt.2 hlong⟩
  have hno : ∀ q, yieldPoint (mem s n) r q = false := fun q => by simp [yieldPoint, hint, hask]
  simp only [boundaryStep, hp, hg, hph, hno, Bool.false_eq_true, if_false]
  rw [if_neg (by simp [Nat.not_lt.2 hb]), if_neg hok]
  exact stopAsked_run (s := setFetch s (.mem n) _) (by rw [mem_setFetch, hrun])

/-- A kernel iteration that leaves a loop of its own active, or that was longer than LONGEST (R149). -/
theorem boundaryStep_breach (hph : r.phase = .ker) (hbreach : r.loopBad = true ∨ r.zero + r.longest < max r.zero r.fin) :
    boundaryStep n s = recordFault s n r := by
  have hor : (r.loopBad || ((mem s n).ctl.fetch.steps.length == 1 && st.any Level.inner)) = true ∨
      r.zero + r.longest < max r.zero r.fin :=
    hbreach.imp_left fun h => by rw [h, Bool.true_or]
  simp only [boundaryStep, hp, hg, hph]
  rw [if_neg (by simp [Nat.not_lt.2 hb]), if_pos hor]

end

/-! ## Iterations longer than LONGEST (R149) -/

theorem longestStep_breach {r : RecRun} (hr : runRcd (mem s n) = some r) (hph : r.phase = .ker) (hg : groupRuns (mem s n) = true)
    (hp : phaseOver (mem s n) = none) (hlate : r.zero + r.longest ≤ (mem s n).ctl.gc) : longestStep n s = recordFault s n r := by
  simp [longestStep, hr, hph, hg, hp, hlate]

/-- A record's fault is ILLEGAL, and ends a launch of one member. -/
theorem recordFault_faulted (hu : Unwatched s) (ht : (mem s n).ctl.trap = none) (hs : launchSites s (bindOf s n).launch = [n])
    (r : RecRun) : Faulted s (recordFault s n r) n .illegal := takeFault_faulted hu ht hs ..

/-! ## Retirement (R266) -/

/-- A member that has retired. -/
def retiredMember (m : Member) : Member := { m with ctl := { m.ctl with life := .retired, frz := none, alignTo := none } }

/-- The state in which a member has retired and its participations are withdrawn, its launch still to end. -/
def withdrawn (s : State) (n : Nat) : State := withdrawAll (updMem s n retiredMember) n

theorem mem_withdrawn (s : State) (n : Nat) :
    (mem (withdrawn s n) n).regs = (mem s n).regs ∧ (mem (withdrawn s n) n).ctl.life = .retired := by
  have hw := noted_withdrawAll (updMem s n retiredMember) n
  rw [withdrawn, hw.regs, hw.life, mem_updMem_same]
  exact ⟨rfl, rfl⟩

/-- The one member of a launch retires, and its launch ends. -/
theorem retireStep_single (hcan : canRetire (mem s n) = true) (hs : launchSites s (bindOf s n).launch = [n]) :
    retireStep n s = endLaunch (withdrawn s n) (bindOf s n).launch [n] 0 0 := by
  have hsites : launchSites (withdrawn s n) (bindOf s n).launch = [n] := ((noted_withdrawAll ..).launchSites _).trans hs
  have hstep : retireStep n s = _ := if_neg (by simp [hcan])
  rw [hstep]
  change (if (launchSites (withdrawn s n) (bindOf s n).launch).all _ then
    endLaunch (withdrawn s n) (bindOf s n).launch (launchSites (withdrawn s n) (bindOf s n).launch) 0 0 else _) = _
  rw [hsites]
  refine if_pos ?_
  simp only [List.all_cons, List.all_nil, Bool.and_true]
  split
  · rfl
  · rename_i hlife
    exact absurd (mem_withdrawn s n).2 hlife

theorem memberRetire_retires (hcan : canRetire (mem s n) = true) (hs : launchSites s (bindOf s n).launch = [n]) :
    Happens (.memberRetire n) s fun t => (mem t n).ctl.life = .retired ∧ (mem t n).regs = (mem s n).regs ∧
      ∀ x, findLaunch s (bindOf s n).launch = some x → Became t (bindOf s n).launch fun y =>
        y.state = .ended ∧ y.status = 0 ∧ y.owed = true := by
  refine ⟨_, congrArg Host.Outcome.next (retireStep_single hcan hs), ?_⟩
  have h := endLaunch_outlives (withdrawn s n) (bindOf s n).launch (List.mem_singleton_self n) 0 0
  refine ⟨h.life, h.regs.trans (mem_withdrawn s n).1, fun x hx => endLaunch_became _ _ [n] 0 0 (x := x) ?_⟩
  rw [findLaunch, withdrawn, (noted_withdrawAll ..).launches]
  exact hx

/-! ## The debugger (R269, R425) -/

theorem dbgStop_asks (hon : breakOn s n = true) (hbound : isBound (mem s n) = true) (hrun : (mem s n).ctl.dbg = .run) :
    Happens (.dbgStop n) s fun t => Keeps s t n ∧ (mem t n).ctl.dbg = .asked 2 0 := by
  refine ⟨updMem s n fun m => { m with ctl := { m.ctl with dbg := .asked 2 0 } }, congrArg Host.Outcome.next ?_, ⟨?_, rfl⟩, ?_⟩
  · simp [hon, hbound, hrun]
  · rw [mem_updMem_same]
  · rw [mem_updMem_same]

theorem dbgStep_steps {c : BitVec 4} (hstop : (mem s n).ctl.dbg = .stopped c) :
    Happens (.dbgStep n) s fun t => Keeps s t n ∧ (mem t n).ctl.dbg = .stepping := by
  refine ⟨updMem s n fun m => runOn m .stepping, congrArg Host.Outcome.next ?_, ⟨?_, rfl⟩, ?_⟩
  · simp [hstop]
  · rw [mem_updMem_same]; rfl
  · rw [mem_updMem_same]; rfl

theorem tracePut_members (s : State) (n tick : Nat) (bind : Bool) (b : List Byte) : (tracePut s n tick bind b).members = s.members := by
  unfold tracePut traceRaw
  dsimp only
  split <;> rfl

theorem traceAfter_members (s : State) (n tick : Nat) (bind : Bool) (b : List Byte) : (traceAfter s n tick bind b).members = s.members := by
  simp [traceAfter, apply_ite State.members, tracePut_members]

theorem traceRec_members (s : State) (n type tick : Nat) (loop : BitVec 16) (i st : Nat) (b : List Byte) :
    (traceRec s n type tick loop i st b).members = s.members := by
  simp [traceRec, apply_ite State.members, tracePut_members, traceAfter_members]

theorem dbgResume_resumes {c : BitVec 4} (hstop : (mem s n).ctl.dbg = .stopped c) :
    Happens (.dbgResume n) s fun t => (mem t n).regs = (mem s n).regs ∧ (mem t n).ctl.dbg = .run := by
  let u := updMem s n fun m => runOn m .run
  have hu : mem u n = runOn (mem s n) .run := mem_updMem_same ..
  obtain ⟨t, ht, hm⟩ : ∃ t, exec (.dbgResume n) s = .next t ∧ t.members = u.members := by
    refine ⟨_, rfl, ?_⟩
    simp only [hstop]
    split
    · exact traceRec_members ..
    · rfl
  have hmem : mem t n = runOn (mem s n) .run := by
    rw [← hu]
    simp only [mem, hm]
  exact ⟨t, ht, by rw [hmem]; rfl, by rw [hmem]; rfl⟩

end

/-- Settles O44, event by event. -/
theorem membersGoOn : Obligations.MembersGoOn := by
  unfold Obligations.MembersGoOn
  intro s n r st
  refine ⟨fun hcan hok => ?entry, memberPark_parks, fun hp hg => ?boundary, fun hr hph hg hp hlate hu ht hs => ?longest,
    memberRetire_retires, dbgStop_asks, fun c hstop => ⟨dbgStep_steps hstop, dbgResume_resumes hstop⟩⟩
  case entry =>
    obtain ⟨hregs, hactive, hcause, hpc⟩ := enterUi_enters (mem s n)
    rw [← mem_updMem_same s n enterUi] at hregs hactive hcause hpc
    exact ⟨_, uiEntry_enters hcan hok, ⟨hregs, rfl⟩, hactive, hcause, hpc⟩
  case boundary =>
    dsimp only
    intro hb
    refine ⟨fun hph => ?pro, fun hph hbad hinner hlong hint hask hrun => ?ker, fun hph hbreach hu ht hs => ?breach, fun hph => ?epi⟩
    case pro =>
      obtain ⟨hker, hj, hext⟩ := nextStep_pro hph
      refine ⟨_, congrArg Host.Outcome.next (boundaryStep_pro hp hg hb hph), keeps_passed, passed_life, fun hs => ?_, passed_ahead⟩
      obtain ⟨hrun, hpc⟩ := passed_last (st := st) hs
      exact ⟨hrun, hker, hj, by rw [hpc, hext]⟩
    case ker =>
      refine ⟨_, congrArg Host.Outcome.next (boundaryStep_ker hp hg hb hph hbad hinner hlong hint hask hrun), keeps_passed, fun hs => ?_,
        passed_ahead⟩
      obtain ⟨hnow, hpc⟩ := passed_last (st := st) hs
      exact ⟨_, hnow, rfl, hpc, nextStep_ker hph⟩
    case breach =>
      have h := recordFault_faulted hu ht hs r
      rw [← boundaryStep_breach hp hg hb hph hbreach] at h
      exact ⟨_, rfl, h.cause, h.life, h.regs⟩
    case epi =>
      refine ⟨_, congrArg Host.Outcome.next (boundaryStep_epi hp hg hb hph), keeps_setFetch .., ?_⟩
      rw [mem_setFetch]
      exact ⟨rfl, rfl, rfl⟩
  case longest =>
    have h := recordFault_faulted hu ht hs r
    rw [← longestStep_breach hr hph hg hp hlate] at h
    exact ⟨_, rfl, h.cause, h.life, h.regs⟩

end Sys2Proof.Proofs
end

