-- ==== Sys2Proof/Proofs/LQueues.lean ====
section
/-! SUPPORT. The queues of L: what an instruction that enters them leaves of its member, and what the issue of a lane and a
register's claim leave (R26, R219, R222). -/

namespace Sys2Proof.Proofs

open Sys2Proof Sys2Proof.Machine Sys2Proof.Laws Sys2Proof.Claims

/-! ## Entries in the order of capture (R283) -/

/-- The entry as which a captured instruction enters L's queues: nothing of it has begun. -/
def freshEnt (c : Cap) : LEnt := { cap := c, begun := false, pairs := [], left := [], buf := [], req := [], bad := [] }

theorem mem_insertEnt_self (e : LEnt) (q : List LEnt) : e ∈ insertEnt e q := by
  induction q with
  | nil => exact .head _
  | cons x r ih =>
    rw [insertEnt]
    split
    · exact .head _
    · exact .tail _ ih

theorem length_insertEnt (e : LEnt) (q : List LEnt) : (insertEnt e q).length = q.length + 1 := by
  induction q with
  | nil => rfl
  | cons x r ih =>
    rw [insertEnt]
    split
    · rfl
    · simp [ih]

section
variable (m : Member) (c : Cap)

@[simp] theorem pushL_regs : (pushL m c).regs = m.regs := rfl
@[simp] theorem pushL_buf : (pushL m c).buf = m.buf := rfl
@[simp] theorem pushL_gc : (pushL m c).ctl.gc = m.ctl.gc := rfl

end

section
variable {m : Member} {c : Cap}

theorem pushL_lq (h : (lQueues c.ins).1 = true) : (pushL m c).l.lq = insertEnt (freshEnt c) m.l.lq := if_pos h
theorem pushL_lq_other (h : (lQueues c.ins).1 = false) : (pushL m c).l.lq = m.l.lq := if_neg (by simp [h])
theorem pushL_sq (h : (lQueues c.ins).2 = true) : (pushL m c).l.sq = insertEnt (freshEnt c) m.l.sq := if_pos h
theorem pushL_sq_other (h : (lQueues c.ins).2 = false) : (pushL m c).l.sq = m.l.sq := if_neg (by simp [h])

end

/-- Two queues with room take any instruction. -/
theorem lRoom_of {m : Member} (hlq : m.l.lq.length < 32) (hsq : m.l.sq.length < 32) (i : Instr) : lRoom m i = true := by
  simp [lRoom, hlq, hsq]

/-- An instruction that does not enter the store queue needs no room there. -/
theorem lRoom_load {m : Member} (hlq : m.l.lq.length < 32) {i : Instr} (h : (lQueues i).2 = false) : lRoom m i = true := by
  simp [lRoom, hlq, h]

/-! ## Claims of registers (R26) -/

section
variable (m : Member) (r : SReg) (c : SCell)

@[simp] theorem setCell_l : (setCell m r c).l = m.l := by unfold setCell; split <;> rfl
@[simp] theorem setCell_buf : (setCell m r c).buf = m.buf := by unfold setCell; split <;> rfl
@[simp] theorem setCell_grd : (setCell m r c).grd = m.grd := by unfold setCell; split <;> rfl

end

@[simp] theorem markS_dmem (s : State) (w : Who) (d : SReg) (k : Nat) : (markS s w d k).dmem = s.dmem := by
  cases w with
  | mem n => rfl
  | hnd n => rfl
  | lk n => unfold markS; dsimp only; split <;> rfl

/-! ## The issue of any agent's lane -/

/-- What a change of one member keeps of it, it keeps of every member. -/
theorem updMem_keeps {β : Type} (g : Member → β) {f : Member → Member} (hf : ∀ m, g (f m) = g m) (s : State) (n j : Nat) :
    g (mem (updMem s n f) j) = g (mem s j) := by
  by_cases h : j = n
  · rw [h, mem_updMem_same, hf]
  · rw [mem_updMem_ne s f h]

/-- A lane that issues leaves what neither its queue nor its counters hold of every member. -/
theorem retire_keeps {β : Type} (g : Member → β) (hg : ∀ m ctl ui, g { m with ctl := ctl, ui := ui } = g m) (s : State) (l : Lane)
    (occ j : Nat) : g (mem (retire s l occ) j) = g (mem s j) := by
  unfold retire
  split
  · exact updMem_keeps g (fun m => hg m _ m.ui) ..
  · exact updMem_keeps g (fun m => hg m m.ctl _) ..
  · rfl

theorem retire_dmem_any (s : State) (l : Lane) (occ : Nat) : (retire s l occ).dmem = s.dmem := by unfold retire; split <;> rfl

theorem retire_flagVal (s : State) (l : Lane) (occ : Nat) (k : FlagKey) : flagVal (retire s l occ) k = flagVal s k := by
  cases k with
  | own site n => exact congrArg (fun b => tget 0 b.flags n) (retire_keeps (fun m => m.buf) (fun _ _ _ => rfl) s l occ site)
  | dev n => unfold retire; split <;> rfl

end Sys2Proof.Proofs
end

