-- ==== Sys2Proof/Proofs/FlagCapture.lean ====
section
/-! SUPPORT and PROOF. Flag updates and `barj` on their way into L's queues, `fread` of a flag away from its agent, and `farm` (R159,
R222, R237 to R240). -/

namespace Sys2Proof.Proofs

open Sys2Proof Sys2Proof.Machine Sys2Proof.Laws Sys2Proof.Claims

variable {s : State} {l : Lane} {n : Nat} {h : Hd} {i : Instr} {vals : List Word}

/-! ## Instructions of the held class that act at once (R159, R161) -/

/-- What is captured of an instruction of the held class on single values, its destination not yet pending. -/
def capNow (s : State) (l : Lane) (i : Instr) (vals : List Word) : Cap :=
  { capAt s l i with ss := vals.map fun v => .now (plain v) }

theorem whoSite_of (hw : l.who = .mem n ∨ l.who = .hnd n) : whoSite s l.who = n := by
  rcases hw with hw | hw <;> rw [hw] <;> rfl

theorem capNow_seq (hw : l.who = .mem n ∨ l.who = .hnd n) : (capNow s l i vals).seq = orderOf (mem s n) i := by
  rw [← whoSite_of (s := s) hw]
  rfl

/-- Single values depend on nothing open. -/
@[simp] theorem splits_map_plain (vals : List Word) : (vals.map plain).any splits = false := by simp [splits]

/-- With nothing open and nothing held before it, the effect of the instruction is made now. -/
theorem heldC_now {d : Option SReg} {regs : List SReg} {eff : State → Cap → List Word → Except Stop State} {u : State}
    (hw : l.who = .mem n ∨ l.who = .hnd n) (hh : HeldNow s l h d.toList regs vals)
    (he : eff s (capNow s l i vals) vals = .ok u) : heldC s l h i d regs eff = .ok (u, 1) := by
  obtain ⟨-, hq, hn, hr, hheld⟩ := hh
  have hvals : (vals.map plain).map valOf = vals := by simp [Function.comp_def]
  have hcap : ({ capAt s l i with ss := (vals.map plain).map .now, lit := none } : Cap) = capNow s l i vals := by
    rw [List.map_map]
    rfl
  rcases l with ⟨w, q, ln⟩
  rcases hw with hw | hw <;> obtain rfl : w = _ := hw
  all_goals
    dsimp only at hheld
    simp only [heldC, hq, hn, hr, ok_bind, actLit, hcap, hvals, splits_map_plain, hheld]
    simp [he]

/-- An update enters both queues where they have room (R239). -/
theorem effUpdate_ok (hlq : (mem s n).l.lq.length < 32) (hsq : (mem s n).l.sq.length < 32) (c : Cap) (v : List Word) :
    effUpdate n s c v = .ok (updMem s n fun m => pushL m c) := by
  simp [effUpdate, lRoom_of hlq hsq]

/-! ## Flag updates and `barj` (R222, R239, R242) -/

section
variable (hw : l.who = .mem n ∨ l.who = .hnd n) (hlq : (mem s n).l.lq.length < 32) (hsq : (mem s n).l.sq.length < 32)
include hw hlq hsq

theorem flagUpdate_captured {f : FlagRef} {v : FlagVal} (hh : HeldNow s l h [] (valRegs v) vals) :
    flagUpdate h i f v s = .next (retire (updMem s n fun m => pushL m (capNow s l i vals)) l 1) := by
  refine lockstep_ok hh.1 ?_
  have hheld := heldC_now (d := none) (i := i) hw hh (effUpdate_ok hlq hsq _ vals)
  rcases l with ⟨w, q, ln⟩
  rcases hw with hw | hw <;> obtain rfl : w = _ := hw <;> exact hheld

theorem flagUpdate_is_captured {f : FlagRef} {v : FlagVal} (hh : HeldNow s l h [] (valRegs v) vals) :
    ∃ t, flagUpdate h i f v s = .next t ∧ Captured s l n i vals t :=
  ⟨_, flagUpdate_captured hw hlq hsq hh, capNow s l i vals, rfl, rfl, rfl, capNow_seq hw, rfl, rfl⟩

end

/-- A destination with room for a late value may be written by its agent (R273). -/
theorem plainDest_of_lateFits {d : SReg} {act : Act} (hf : LateFits s l d act) : plainDest s l.who d = .ok () := by
  rcases l with ⟨w, q, ln⟩
  cases w with
  | mem n => rfl
  | hnd n =>
    have hone : d.val < 56 → (sCell (mem s n) d).alts.length ≤ 1 := hf
    have hb : (decide (56 ≤ d.val) || decide ((sCell (mem s n) d).alts.length ≤ 1)) = true := by
      simpa [or_iff_not_imp_left] using hone
    simp only [plainDest, hb, require_true]
  | lk n => rfl

/-- `barj` enters both queues, and its destination waits for the token that it brings. -/
theorem barj_captured {o : BitVec 12} {d : SReg} (hw : l.who = .mem n ∨ l.who = .hnd n) (hlq : (mem s n).l.lq.length < 32)
    (hsq : (mem s n).l.sq.length < 32) (hh : HeldNow s l h [d] [] []) (ho : o.toNat % 2 = 0) (hf : LateFits s l d .always) :
    exec (.barj h o d) s = .next (retire
      (markS { updMem s n (fun m => pushL m { capNow s l (.barj h o d) [] with tok := some s.fresh }) with fresh := s.fresh + 1 } l.who d
        s.fresh) l 1) := by
  refine lockstep_ok hh.1 ?_
  have heff : effBarj l.who n d s (capNow s l (.barj h o d) []) [] = .ok (markS
      { updMem s n (fun m => pushL m { capNow s l (.barj h o d) [] with tok := some s.fresh }) with fresh := s.fresh + 1 } l.who d
        s.fresh) := by
    simp [effBarj, capNow, capAt, effUpdate_ok hlq hsq]
  have hheld := heldC_now (d := some d) hw hh heff
  have hd := plainDest_of_lateFits hf
  rcases l with ⟨w, q, ln⟩
  rcases hw with hw | hw <;> obtain rfl : w = _ := hw
  all_goals
    dsimp only at hd hheld
    simp [ho, hd, hheld]

/-! ## `fread` of a device or peer flag (R238, R240) -/

/-- A destination with room for a late value holds no more than its frames. -/
theorem lateCount_le {d : SReg} {act : Act} (hf : LateFits s l d act) : lateCount s l.who d (plain 0) (actLit act) ≤ 4 := by
  rcases l with ⟨w, q, ln⟩
  cases w with
  | mem n => exact hf
  | hnd n => exact Nat.one_le_ofNat
  | lk n => exact Nat.one_le_ofNat

theorem fread_lands {f : FlagRef} {d : SReg} {act : Act} (hact : Acts s l h act) (hfk : f.fk ≠ 0) (hlk : ∀ k, l.who = .lk k → f.fk = 1)
    (hn : needLanded s l.who [d] = .ok ()) (hreach : flagReach s (whoSite s l.who) (flagKey (whoSite s l.who) f) = true)
    (hf : LateFits s l d act) :
    exec (.fread h f d) s = .next (retire (schedule s l d 0 (.flag (flagKey (whoSite s l.who) f)) (actLit act)) l 1) := by
  obtain ⟨hl, hq, hne⟩ := hact
  refine lockstep_ok hl ?_
  dsimp only
  rw [if_neg hfk]
  refine (require_bind ?takes).trans ?_
  case takes =>
    split
    · exact decide_eq_true (hlk _ ‹_›)
    · rfl
  · simp only [hq, hne, hn, plainDest_of_lateFits hf, hreach, ok_bind, require_true, if_false, if_neg (Nat.not_lt.2 (lateCount_le hf))]

/-! ## `farm` (R237) -/

/-- A member one of whose flags has been armed or disarmed. -/
def withArmed (f : FlagRef) (on : Bool) (m : Member) : Member :=
  { m with buf := { m.buf with armed := tput false m.buf.armed f.fn.toNat on } }

theorem farm_arms {f : FlagRef} {sc : BitVec 2} {v : FlagVal} (hw : l.who = .mem n ∨ l.who = .hnd n)
    (hh : HeldNow s l h [] (valRegs v) vals) :
    exec (.farm h f sc v) s = .next (retire (updMem s n (withArmed f (valOfField v vals != 0))) l 1) := by
  refine lockstep_ok hh.1 ?_
  have hheld := heldC_now (d := none) (i := .farm h f sc v) (eff := effFarm n f v) hw hh rfl
  rcases l with ⟨w, q, ln⟩
  rcases hw with hw | hw <;> obtain rfl : w = _ := hw <;> exact hheld

theorem withArmed_flagVal (f : FlagRef) (on : Bool) (s : State) (n : Nat) (k : FlagKey) :
    flagVal (updMem s n (withArmed f on)) k = flagVal s k := by
  cases k with
  | own site j => exact congrArg (fun t => tget 0 t j) (updMem_keeps (fun m => m.buf.flags) (f := withArmed f on) (fun _ => rfl) s n site)
  | dev j => rfl

/-- Settles O13: what the held class does with nothing open, then `fread` and `farm`. -/
theorem flagInstructions : Obligations.FlagInstructions := by
  unfold Obligations.FlagInstructions
  refine ⟨fun s l n h f sc v o d vals hw hlq hsq => ⟨fun hh i hi => ?update, fun hh ho hf => ?barj⟩,
    fun s l h f d sc v => ⟨fun act hact hfk hlk hn hreach hf => fread_lands hact hfk hlk hn hreach hf, fun n vals hw hh => ?farm⟩⟩
  case update =>
    have hexec : exec i s = flagUpdate h i f v s := by
      simp only [List.mem_cons, List.not_mem_nil, or_false] at hi
      rcases hi with rfl | rfl | rfl <;> rfl
    rw [hexec]
    exact flagUpdate_is_captured hw hlq hsq hh
  case barj =>
    exact ⟨{ capNow s l (.barj h o d) [] with tok := some s.fresh }, rfl, capNow_seq (vals := []) hw, rfl, barj_captured hw hlq hsq hh ho hf⟩
  case farm =>
    refine ⟨_, farm_arms hw hh, retire_dmem_any .., ?_, fun k => ?_, fun j => ?_⟩
    · rw [retire_keeps (fun m => m.regs) (fun _ _ _ => rfl), mem_updMem_same]
      rfl
    · rw [retire_flagVal, withArmed_flagVal]
    · rw [retire_keeps (fun m => m.buf) (fun _ _ _ => rfl), mem_updMem_same]
      simp [withArmed, tget_tput, bne, beq_eq_decide]

end Sys2Proof.Proofs
end

