-- ==== Sys2Proof/Proofs/AccessCapture.lean ====
section
/-! SUPPORT and PROOF. Loads and accesses of the held class at their issue: into L's queues, into the held-store buffer, or turned off
(R153, R159 to R162, R219, R222). -/

namespace Sys2Proof.Proofs

open Sys2Proof Sys2Proof.Machine Sys2Proof.Laws Sys2Proof.Claims

variable {s : State} {l : Lane} {n : Nat} {h : Hd} {i : Instr} {d : Option SReg} {ss : List SReg} {vs : List VReg} {hs : List HReg} {k : KReg}

/-! ## The instructions -/

/-- Loads and prefetches issue as loads, and enter the load queue alone. -/
theorem exec_loadForm {m : LMem} {w : BitVec 2} {sx : Bool} {f : LForm} (hf : f ∈ loadForms h m w sx) (s : State) :
    exec f.i s = lockstep s (fun l => loadL s l h f.i f.ss f.vs f.hs f.k) ∧ lQueues f.i = (true, false) := by
  simp only [loadForms, List.mem_cons, List.not_mem_nil, or_false] at hf
  rcases hf with rfl | rfl | rfl | rfl <;> exact ⟨rfl, rfl⟩

/-- Accesses of the held class issue as such, and enter the store queue. -/
theorem exec_storeForm {m : LMem} {w sz : BitVec 2} {r d a b : SReg} {v : VReg} {hn : HReg} {op : BitVec 4} {imm : BitVec 12} {row col : BitVec 4}
    {fv : Bool} {fn : BitVec 10} {f : LForm} (hf : f ∈ storeForms h m w sz r d a b v hn op imm row col fv fn) (s : State) :
    exec f.i s = lockstep s (fun l => storeL s l h f.i f.d f.ss f.vs f.hs f.k) ∧ (lQueues f.i).2 = true := by
  simp only [storeForms, List.mem_cons, List.not_mem_nil, or_false] at hf
  rcases hf with rfl | rfl | rfl | rfl | rfl | rfl | rfl | rfl | rfl | rfl | rfl | rfl | rfl <;> exact ⟨rfl, rfl⟩

/-! ## What enters the queues -/

/-- A member whose load data queue LDQ-C keeps a place for what the entry delivers (R50, R232). -/
def withOrder (i : Instr) (seq : Nat) (m : Member) : Member :=
  { m with l := { m.l with ordC := if orderC i then m.l.ordC ++ [seq] else m.l.ordC } }

/-- An entry under its literal. -/
def underLit (act : Act) (c : Cap) : Cap := { c with lit := actLit act }

theorem loadL_storeL_never (hw : l.who = .mem n) (hact : memAct (mem s n) h = .never) :
    loadL s l h i ss vs hs k = .ok (s, 1) ∧ storeL s l h i d ss vs hs k = .ok (s, 1) := by
  simp [loadL, storeL, memOnly_of hw, hact]

section
variable (hat : AtL s l n ss vs k) (hact : memAct (mem s n) h ≠ .never)
include hat hact

/-- A load whose qualifier does not turn it off enters the load queue under its literal (R159, R219). -/
theorem loadL_captured (hq : lQueues i = (true, false)) (hroom : (mem s n).l.lq.length < 32)
    (hchk : actLit (memAct (mem s n) h) ≠ none ∨ capSplits (lCap s l n i ss vs hs k none) = true ∨
      checkNow (lCap s l n i ss vs hs k none) = true ∨ ∃ m, i = .pf h m) :
    loadL s l h i ss vs hs k = .ok (enterL s n (underLit (memAct (mem s n) h) (lCap s l n i ss vs hs k none)), 1) := by
  obtain ⟨-, hw, hz⟩ := hat
  have hr : lRoom (mem s n) i = true := lRoom_load hroom (by rw [hq])
  unfold loadL
  rw [memOnly_of hw, ok_bind]
  split
  · exact absurd ‹_› hact
  · rcases hchk with hc | hc | hc | ⟨m, rfl⟩
    · simp [hz, hr, Option.isSome_iff_ne_none.2 hc, underLit]
    · simp [hz, hr, hc, underLit]
    · simp [hz, hr, hc, underLit]
    · simp [hz, hr, underLit]

end

/-! ## Destinations of atomics (R222) -/

/-- An entry that brings its destination's value under a token. -/
def withTok (d : Option SReg) (tok : Nat) (c : Cap) : Cap :=
  match d with
  | none => c
  | some _ => { c with tok := some tok }

/-- A member whose destination waits for a token. -/
def withPend (d : Option SReg) (tok : Nat) (m : Member) : Member :=
  match d with
  | none => m
  | some r => setCell m r { sCell m r with pend := some tok }

@[simp] theorem withPend_l (d : Option SReg) (tok : Nat) (m : Member) : (withPend d tok m).l = m.l := by cases d <;> simp [withPend]
@[simp] theorem withPend_buf (d : Option SReg) (tok : Nat) (m : Member) : (withPend d tok m).buf = m.buf := by cases d <;> simp [withPend]
@[simp] theorem withPend_grd (d : Option SReg) (tok : Nat) (m : Member) : (withPend d tok m).grd = m.grd := by cases d <;> simp [withPend]

theorem sCell_congr {m m' : Member} (hm : m'.regs = m.regs) (x : SReg) : sCell m' x = sCell m x := by simp only [sCell, hm]

theorem withPend_pending {m m' : Member} {x : SReg} (hm : m'.regs = m.regs) (tok : Nat) (hx : x ≠ 0) :
    (sCell (withPend (some x) tok m') x).pend = some tok ∧ (sCell (withPend (some x) tok m') x).alts = (sCell m x).alts := by
  rw [withPend, sCell_setCell_same _ _ _ hx, sCell_congr hm]
  exact ⟨rfl, rfl⟩

/-- A state whose agent's destination waits for the next token. -/
def withClaim (s : State) (w : Who) (d : Option SReg) : State :=
  match d with
  | none => s
  | some r => markS { s with fresh := s.fresh + 1 } w r s.fresh

@[simp] theorem withClaim_dmem (s : State) (w : Who) (d : Option SReg) : (withClaim s w d).dmem = s.dmem := by cases d <;> simp [withClaim]

@[simp] theorem mem_withClaim (s : State) (n : Nat) (d : Option SReg) : mem (withClaim s (.mem n) d) n = withPend d s.fresh (mem s n) := by
  cases d with
  | none => rfl
  | some r => exact mem_updMem_same ..

/-! ## The held class (R159 to R162) -/

/-- The entry of an access of the held class, without its destination's token. -/
def storeCap (s : State) (l : Lane) (n : Nat) (h : Hd) (f : LForm) : Cap := lCap s l n f.i f.ss f.vs f.hs f.k (actLit (memAct (mem s n) h))

theorem storeCap_holds (s : State) (l : Lane) (n : Nat) (h : Hd) (f : LForm) (tok : Nat) :
    Holds (mem s n) f (withTok f.d tok (storeCap s l n h f)) ∧
    (withTok f.d tok (storeCap s l n h f)).lit = actLit (memAct (mem s n) h) := by
  unfold storeCap
  cases f.d <;> exact ⟨⟨rfl, rfl, rfl, rfl, rfl⟩, rfl⟩

/-- The access has entered L's queues. -/
def queued (s : State) (l : Lane) (n : Nat) (h : Hd) (f : LForm) : State :=
  let c := storeCap s l n h f
  let s' := updMem s n (withOrder f.i c.seq)
  match f.d with
  | none => updMem s' n fun m => pushL m c
  | some r => markS (updMem { s' with fresh := s'.fresh + 1 } n fun m => pushL m { c with tok := some s.fresh }) l.who r s.fresh

theorem queued_dmem (s : State) (l : Lane) (n : Nat) (h : Hd) (f : LForm) : (queued s l n h f).dmem = s.dmem := by
  unfold queued
  cases f.d <;> simp

theorem mem_queued (hw : l.who = .mem n) (f : LForm) : mem (queued s l n h f) n =
    withPend f.d s.fresh (pushL (withOrder f.i (storeCap s l n h f).seq (mem s n)) (withTok f.d s.fresh (storeCap s l n h f))) := by
  unfold queued
  rw [hw]
  cases f.d with
  | none => simp [withPend, withTok]
  | some r =>
    dsimp only [markS]
    rw [mem_updMem_same, mem_updMem_same]
    exact congrArg (fun m => withPend (some r) s.fresh (pushL m _)) (mem_updMem_same s n _)

/-- The access has entered the held-store buffer. -/
def heldBack (s : State) (l : Lane) (n : Nat) (h : Hd) (f : LForm) : State :=
  let c := storeCap s l n h f
  updMem (withClaim (updMem s n (withOrder f.i c.seq)) l.who f.d) n (withHeld (withTok f.d s.fresh c))

theorem heldBack_dmem (s : State) (l : Lane) (n : Nat) (h : Hd) (f : LForm) : (heldBack s l n h f).dmem = s.dmem := by
  simp [heldBack]

theorem mem_heldBack (hw : l.who = .mem n) (f : LForm) : mem (heldBack s l n h f) n =
    withHeld (withTok f.d s.fresh (storeCap s l n h f)) (withPend f.d s.fresh (withOrder f.i (storeCap s l n h f).seq (mem s n))) := by
  rw [heldBack, hw, mem_updMem_same, mem_withClaim, mem_updMem_same]
  rfl

/-- The held-store buffer takes an entry where it has room, and its destination is pending from there on (R160, R162). -/
theorem holdCap_claims {w : Who} {c : Cap} (hroom : (mem s n).grd.held.length < 16) :
    holdCap s n w c d = .ok (updMem (withClaim s w d) n (withHeld (withTok d s.fresh c))) := by
  cases d <;> simp [holdCap, Nat.not_le.2 hroom] <;> rfl

section
variable {f : LForm} (hat : AtL s l n f.ss f.vs f.k)
include hat

/-- An access that depends on nothing open, with nothing held before it, enters its queues. -/
theorem storeL_queued (hact : memAct (mem s n) h = .always) (hs : capSplits (storeCap s l n h f) = false) (hheld : (mem s n).grd.held = [])
    (hchk : checkNow (storeCap s l n h f) = true) (hlq : (mem s n).l.lq.length < 32) (hsq : (mem s n).l.sq.length < 32) :
    storeL s l h f.i f.d f.ss f.vs f.hs f.k = .ok (queued s l n h f, 1) := by
  obtain ⟨-, hw, hz⟩ := hat
  have hlit : actLit (memAct (mem s n) h) = none := by rw [hact]; rfl
  rw [storeCap, hlit] at hs hchk
  unfold storeL
  rw [memOnly_of hw, ok_bind]
  split
  · cases hact.symm.trans ‹_›
  · simp only [hz, hs, hchk, hheld, lRoom_of hlq hsq, hlit, ok_bind, queued, storeCap]
    cases f.d <;> rfl

/-- One under an open slot, or behind a held entry, enters the held-store buffer. -/
theorem storeL_held (hact : memAct (mem s n) h ≠ .never)
    (hopen : actLit (memAct (mem s n) h) ≠ none ∨ capSplits (storeCap s l n h f) = true ∨
      ((mem s n).grd.held ≠ [] ∧ checkNow (storeCap s l n h f) = true))
    (hroom : (mem s n).grd.held.length < 16) : storeL s l h f.i f.d f.ss f.vs f.hs f.k = .ok (heldBack s l n h f, 1) := by
  obtain ⟨-, hw, hz⟩ := hat
  have hreq : ((actLit (memAct (mem s n) h)).isSome || capSplits (storeCap s l n h f) || checkNow (storeCap s l n h f)) = true := by
    rcases hopen with ho | ho | ⟨-, hc⟩
    · simp [Option.isSome_iff_ne_none.2 ho]
    · simp [ho]
    · simp [hc]
  have hbuf : ((actLit (memAct (mem s n) h)).isSome || capSplits (storeCap s l n h f) || (mem s n).grd.held != []) = true := by
    rcases hopen with ho | ho | ⟨hne, -⟩
    · simp [Option.isSome_iff_ne_none.2 ho]
    · simp [ho]
    · simp [hne]
  have hroom' : (mem (updMem s n (withOrder f.i (storeCap s l n h f).seq)) n).grd.held.length < 16 := by
    rw [mem_updMem_same]
    exact hroom
  have hhold := holdCap_claims (w := l.who) (c := storeCap s l n h f) (d := f.d) hroom'
  simp only [storeCap] at hreq hbuf
  unfold storeL
  rw [memOnly_of hw, ok_bind]
  split
  · exact absurd ‹_› hact
  · simp only [hz, ok_bind, hreq, hbuf, require_true, if_true]
    exact congrArg (fun r => r >>= fun u => Except.ok (u, 1)) hhold

end

/-- Settles O29: each form as its class issues, then what its queue or the held-store buffer holds. -/
theorem accessesCaptured : Obligations.AccessesCaptured := by
  unfold Obligations.AccessesCaptured
  refine ⟨fun s l n h m w sx f hf hat => ?load, fun s l n h m w sz r d a b v hn op imm row col fv fn f hf hat => ?store⟩
  case load =>
    obtain ⟨hexec, hq⟩ := exec_loadForm hf s
    have ⟨hl, hw, _⟩ := hat
    refine ⟨fun hact => hexec.trans (lockstep_ok hl (loadL_storeL_never (d := none) hw hact).1), fun hact hroom hchk => ?_⟩
    have hgo := loadL_captured hat hact hq hroom (hchk.imp_right (.imp_right (.imp_right fun h => ⟨_, h⟩)))
    refine ⟨_, underLit (memAct (mem s n) h) (lCap s l n f.i f.ss f.vs f.hs f.k none), hexec.trans (lockstep_ok hl hgo),
      ⟨rfl, rfl, rfl, rfl, rfl⟩, rfl, ?_⟩
    have hlq : (lQueues (underLit (memAct (mem s n) h) (lCap s l n f.i f.ss f.vs f.hs f.k none)).ins).1 = true := congrArg Prod.fst hq
    have hsq : (lQueues (underLit (memAct (mem s n) h) (lCap s l n f.i f.ss f.vs f.hs f.k none)).ins).2 = false := congrArg Prod.snd hq
    rw [retire_keeps (fun m => m.l) (fun _ _ _ => rfl), retire_keeps (fun m => m.regs) (fun _ _ _ => rfl),
      retire_keeps (fun m => m.buf) (fun _ _ _ => rfl), retire_dmem hw, enterL, mem_updMem_same, pushL_lq hlq, pushL_sq_other hsq]
    exact ⟨⟨_, mem_insertEnt_self .., rfl, rfl⟩, length_insertEnt .., rfl, rfl, rfl, rfl⟩
  case store =>
    obtain ⟨hexec, hq⟩ := exec_storeForm hf s
    have ⟨hl, hw, _⟩ := hat
    refine ⟨fun hact => hexec.trans (lockstep_ok hl (loadL_storeL_never hw hact).2), fun hact hs hheld hchk hlq hsq => ?queued,
      fun hact hopen hroom => ?held⟩
    case queued =>
      obtain ⟨hholds, -⟩ := storeCap_holds s l n h f s.fresh
      have hins : (withTok f.d s.fresh (storeCap s l n h f)).ins = f.i := hholds.1
      refine ⟨_, freshEnt (withTok f.d s.fresh (storeCap s l n h f)),
        hexec.trans (lockstep_ok hl (storeL_queued hat hact hs hheld hchk hlq hsq)), hholds, rfl, ?_⟩
      rw [retire_keeps (fun m => m.l) (fun _ _ _ => rfl), retire_dmem hw, queued_dmem, retire_buf hw, mem_queued hw, withPend_l,
        withPend_buf, pushL_sq (by rw [hins, hq])]
      refine ⟨mem_insertEnt_self .., length_insertEnt .., fun hlq => ?_, fun hlq => ?_, rfl, rfl, ?_⟩
      · rw [pushL_lq (by rw [hins, hlq])]
        exact mem_insertEnt_self ..
      · rw [pushL_lq_other (by rw [hins, hlq])]
        rfl
      · have hregs := (retire_regs hw 1).trans (congrArg Member.regs (mem_queued (s := s) (h := h) hw f))
        split
        · rename_i hd
          rw [hregs, hd]
          rfl
        · rename_i x hd
          rw [sCell_congr hregs, hd]
          exact ⟨rfl, withPend_pending rfl s.fresh⟩
    case held =>
      obtain ⟨hholds, hlit⟩ := storeCap_holds s l n h f s.fresh
      refine ⟨_, withTok f.d s.fresh (storeCap s l n h f), hexec.trans (lockstep_ok hl (storeL_held hat hact hopen hroom)), hholds, hlit, ?_⟩
      rw [retire_keeps (fun m => m.l) (fun _ _ _ => rfl), retire_grd hw, retire_dmem hw, heldBack_dmem, mem_heldBack hw]
      simp [withHeld, withOrder]

end Sys2Proof.Proofs
end

