-- ==== Sys2Proof/Proofs/GuardSlots.lean ====
section
/-! SUPPORT and PROOF. Guard slots opened, resolved and waited for, and the alternatives that `qpick` takes and `qstat` describes (R151,
R166 to R171). -/

namespace Sys2Proof.Proofs

open Sys2Proof Sys2Proof.Machine Sys2Proof.Laws Sys2Proof.Claims

/-! ## Slots of a member -/

theorem slotOf_congr {m m' : Member} (h : m'.grd = m.grd) (q : QSlot) : slotOf m' q = slotOf m q := by simp only [slotOf, h]

@[simp] theorem slotOf_setSlot_same (m : Member) (q : QSlot) (x : Slot) : slotOf (setSlot m q x) q = x := tget_tput_same ..

/-- A state in which a slot has been opened on a source (R167). -/
def slotOpened (s : State) (n : Nat) (q : QSlot) (x : QSrc) (due : Option Bool) : State :=
  updMem s n fun m => count (setSlot m q { src := some x, kept := (slotOf m q).kept, due := due }) 0x090

variable {s : State} {l : Lane} {n : Nat} {h : Hd} {q : QSlot} {a d : SReg}

theorem openSlot_free (hq : slotOpen (mem s n) q = false) (x : QSrc) (due : Option Bool) :
    openSlot s n q x due = .ok (slotOpened s n q x due) := by
  simp [openSlot, hq]
  rfl

theorem openSlot_reopen (hq : slotOpen (mem s n) q = true) (x : QSrc) (due : Option Bool) :
    openSlot s n q x due = .error (.trap (trapOf .guardReopen)) := by
  simp [openSlot, hq]

/-- What the opening of a slot leaves once its lane has issued. -/
theorem slotOpened_slot (hw : l.who = .mem n) (x : QSrc) (due : Option Bool) :
    slotOf (mem (retire (slotOpened s n q x due) l 1) n) q = { src := some x, kept := (slotOf (mem s n) q).kept, due := due } := by
  rw [slotOf_congr (retire_grd hw 1), slotOpened, mem_updMem_same]
  exact slotOf_setSlot_same ..

theorem slotOpened_regs (hw : l.who = .mem n) (x : QSrc) (due : Option Bool) :
    (mem (retire (slotOpened s n q x due) l 1) n).regs = (mem s n).regs := by
  rw [retire_regs hw, slotOpened, mem_updMem_same]
  rfl

/-- What a slot opens on: the program where no register is named, else the register as it stands (R151). -/
theorem bindSrc_eq (m : Member) (a : SReg) : bindSrc m a = if a = 0 then .prog else
    match (sCell m a).pend with
    | some k => .reg (.tok k)
    | none => .reg (.now (sCell m a).alts) :=
  if_congr Fin.val_eq_zero_iff rfl rfl

/-! ## Slot instructions (R151, R167 to R169) -/

section
variable (hl : curLane s = some l) (hw : l.who = .mem n)
include hl hw

theorem slots_qualified (hg : h.gq = true) (fk : BitVec 2) (fn : BitVec 12) {i : Instr}
    (hi : i ∈ [Instr.qopen h q a, .qopenf h q a fk fn, .qres h q a, .qwait h q]) :
    exec i s = .next (laneFault s l (trapOf .illegal)) := by
  simp only [List.mem_cons, List.not_mem_nil, or_false] at hi
  rcases hi with rfl | rfl | rfl | rfl <;> exact lockstep_trap hl (by simp [memOnly_of hw, hg])

theorem qopenf_badFlag {fk : BitVec 2} {fn : BitVec 12} (hbad : 1 < fk.toNat ∨ (fk = 0 ∧ 1024 ≤ fn.toNat)) :
    exec (.qopenf h q a fk fn) s = .next (laneFault s l (trapOf .illegal)) := by
  refine lockstep_trap hl ?_
  have hno : (!h.gq && decide (fk.toNat ≤ 1) && (fk != 0 || decide (fn.toNat < 1024))) = false := by
    rcases hbad with hb | ⟨rfl, hb⟩
    · simp [Nat.not_le.2 hb]
    · simp [Nat.not_lt.2 hb]
  simp only [memOnly_of hw, ok_bind, hno, require_false, error_bind]

theorem qres_illegal (hsrc : (slotOf (mem s n) q).src ≠ some .prog) :
    exec (.qres h q a) s = .next (laneFault s l (trapOf .illegal)) :=
  lockstep_trap hl (by simp [memOnly_of hw, beq_eq_false_iff_ne.2 hsrc])

variable (hg : h.gq = false)
include hg

theorem qopen_opens (hq : slotOpen (mem s n) q = false) {x : Alts Word} (hr : readS s l.who a = .ok x) :
    exec (.qopen h q a) s = .next (retire (slotOpened s n q (bindSrc (mem s n) a) none) l 1) :=
  lockstep_ok hl (by simp [memOnly_of hw, hg, hr, openSlot_free hq])

theorem qopen_reopens (hq : slotOpen (mem s n) q = true) {x : Alts Word} (hr : readS s l.who a = .ok x) :
    exec (.qopen h q a) s = .next (laneFault s l (trapOf .guardReopen)) :=
  lockstep_trap hl (by simp [memOnly_of hw, hg, hr, openSlot_reopen hq])

/-- The resolution of a slot is due within the cycle (R168). -/
theorem qres_resolves (hsrc : (slotOf (mem s n) q).src = some .prog) {v : Word} (hv : Machine.readOne s l.who a = .ok v) :
    exec (.qres h q a) s =
      .next (retire (updMem s n fun m => setSlot m q { slotOf m q with due := some (v != 0) }) l 1) :=
  lockstep_ok hl (by simp [memOnly_of hw, hg, hsrc, hv])

theorem qwait_goes (hq : slotOpen (mem s n) q = false) : exec (.qwait h q) s = .next (retire s l 1) :=
  lockstep_ok hl (by simp [memOnly_of hw, hg, hq])

theorem qwait_waits (hq : slotOpen (mem s n) q = true) : exec (.qwait h q) s = .next (waitOn s l.who (.slotOpen q)) :=
  lockstep_wait hl (by simp [memOnly_of hw, hg, hq])

section
variable {fk : BitVec 2} {fn : BitVec 12} {v : Word} (hfk : fk.toNat ≤ 1) (hfn : fk = 0 → fn.toNat < 1024)
  (hv : Machine.readOne s l.who a = .ok v)
include hfk hfn hv

theorem qopenf_opens (hq : slotOpen (mem s n) q = false) :
    exec (.qopenf h q a fk fn) s = .next (retire (slotOpened s n q (.flag (fk == 1) fn.toNat (v.setWidth 32))
      (if v.setWidth 32 = (0 : Word32) then some true else none)) l 1) := by
  refine lockstep_ok hl ?_
  have hok : (!h.gq && decide (fk.toNat ≤ 1) && (fk != 0 || decide (fn.toNat < 1024))) = true := by
    simpa [hg, hfk, or_iff_not_imp_left] using hfn
  simp only [memOnly_of hw, hok, hv, openSlot_free hq, require_true, ok_bind]

theorem qopenf_reopens (hq : slotOpen (mem s n) q = true) :
    exec (.qopenf h q a fk fn) s = .next (laneFault s l (trapOf .guardReopen)) := by
  refine lockstep_trap hl ?_
  have hok : (!h.gq && decide (fk.toNat ≤ 1) && (fk != 0 || decide (fn.toNat < 1024))) = true := by
    simpa [hg, hfk, or_iff_not_imp_left] using hfn
  simp only [memOnly_of hw, hok, hv, openSlot_reopen hq, require_true, ok_bind, error_bind]

end

end

/-! ## Reads without the check for writes in flight (R27, R467) -/

section
variable (hraw : (mem s n).spr.chkRaw = false)
include hraw

theorem readS_unchecked (a : SReg) : readS s (.mem n) a = .ok (sCell (mem s n) a).alts := by simp [readS, rawCheck, hraw]

theorem flatHazard_unchecked (x : VTgt) : flatHazard (mem s n) x = .ok () := by simp [flatHazard, hraw]

end

/-! ## Fields of v registers -/

theorem vOfField_val (e : VReg) : vOfField (Fin.ofNat 64 e.val) = e := by
  apply Fin.ext
  simp [vOfField]

theorem vField_lt (e : VReg) : (Fin.ofNat 64 e.val).val < 32 := by
  simp
  omega

/-! ## Alternatives and their masks (R36, R170, R171) -/

/-- The alternative that a mask does not contradict, alone. -/
theorem pickAlt_value {α : Type} {gm g : BitVec 16} {al : Alts α} {v : α} (hf : al.find? (fun x => compatible x.1 gm) = some (g, .val v)) :
    pickAlt gm al = plain v := by
  simp only [pickAlt, hf]
  rfl

theorem frameMask_lt {α : Type} (al : Alts α) (i : Nat) : frameMask al i < 2 ^ 16 := by
  unfold frameMask
  split
  · exact BitVec.isLt _
  · decide

/-- The guard masks of the frames of s alternatives, in 16 bits each. -/
def maskWord {α : Type} (al : Alts α) : Word := BitVec.ofNat 64 (((List.range 4).map fun i => frameMask al i * 2 ^ (16 * i)).sum)

theorem sum_four_fields (f : Nat → Nat) (b : Nat) : ((List.range 4).map fun i => f i * b ^ (16 * i)).sum =
    f 0 + b ^ 16 * (f 1 + b ^ 16 * (f 2 + b ^ 16 * f 3)) := by
  simp only [List.range_succ, List.range_zero, List.nil_append, List.cons_append, List.map_cons, List.map_nil, List.sum_cons, List.sum_nil]
  ring

theorem maskWord_frame {α : Type} (al : Alts α) {i : Nat} (hi : i < 4) : (maskWord al).toNat / 2 ^ (16 * i) % 2 ^ 16 = frameMask al i := by
  have h0 := frameMask_lt al 0
  have h1 := frameMask_lt al 1
  have h2 := frameMask_lt al 2
  have h3 := frameMask_lt al 3
  have hlt : frameMask al 0 + 2 ^ 16 * (frameMask al 1 + 2 ^ 16 * (frameMask al 2 + 2 ^ 16 * frameMask al 3)) < 2 ^ 64 := by omega
  rw [maskWord, sum_four_fields _ 2, BitVec.toNat_ofNat, Nat.mod_eq_of_lt hlt]
  interval_cases i <;> omega

/-- The cells that `qstat` writes: a mask in each of the first four columns of row 0, zero elsewhere. -/
def frameCells {α : Type} (al : Alts α) : Cells := tofn 0 [0, 1, 2, 3] fun i => BitVec.ofNat 32 (frameMask al i)

theorem cellAt_frameCells {α : Type} (al : Alts α) (i : Nat) :
    cellAt (frameCells al) i = if i < 4 then BitVec.ofNat 32 (frameMask al i) else 0 := by
  have hmem : i ∈ [0, 1, 2, 3] ↔ i < 4 := by
    simp
    omega
  by_cases hi : i < 4
  · rw [if_pos hi]
    exact tget_tofn 0 _ (hmem.2 hi)
  · rw [if_neg hi]
    exact tget_of_absent 0 fun p hp hk => hi (hmem.1 (hk ▸ mem_of_mem_tofn hp))

/-! ## `qpick` and `qstat` -/

section
variable (hl : curLane s = some l) (hw : l.who = .mem n)
include hl hw

theorem qpick_illegal {gm : BitVec 16} (hbad : h.gq = true ∨ maskOk gm = false) (vr : Bool) :
    exec (.qpick h vr d a gm) s = .next (laneFault s l (trapOf .illegal)) :=
  lockstep_trap hl (by rcases hbad with hb | hb <;> simp [memOnly_of hw, hb])

theorem qstat_illegal (hg : h.gq = true) (vr : Bool) : exec (.qstat h vr d a) s = .next (laneFault s l (trapOf .illegal)) :=
  lockstep_trap hl (by simp [memOnly_of hw, hg])

variable (hg : h.gq = false) (hraw : (mem s n).spr.chkRaw = false)
include hg hraw

theorem qpick_sends {gm g : BitVec 16} {v : Word} (hm : maskOk gm = true) (hfit : Fits s l d .always)
    (hn : needLanded s l.who [a, d] = .ok ()) (hf : (sCell (mem s n) a).alts.find? (fun x => compatible x.1 gm) = some (g, .val v)) :
    exec (.qpick h false d a gm) s = .next (sends s l d v 1 .always) := by
  have hwrite : writeS s l d (plain v) 1 none = .ok (wrote s l d v 1 .always) := writeS_fits hfit v 1
  rw [hw] at hn
  exact lockstep_ok hl (by simp [memOnly_of hw, hw, hg, hm, hn, readS_unchecked hraw, pickAlt_value hf, hwrite])

theorem qstat_sends (hn : needLanded s l.who [d] = .ok ()) (hfit : Fits s l d .always) :
    exec (.qstat h false d a) s = .next (sends s l d (maskWord (sCell (mem s n) a).alts) 1 .always) := by
  have hwrite := writeS_fits hfit (maskWord (sCell (mem s n) a).alts) 1
  rw [hw] at hn
  refine lockstep_ok hl ?_
  simp only [memOnly_of hw, hw, hg, hn, readS_unchecked hraw, ok_bind, Bool.not_false, Bool.true_or, Bool.and_true, require_true]
  exact congrArg (fun r => r >>= fun u => Except.ok (u, 1)) hwrite

theorem qpick_writesV {gm : BitVec 16} (hm : maskOk gm = true) {e b : VReg} (hn : needV (mem s n) [b, e] = .ok ()) :
    exec (.qpick h true (Fin.ofNat 64 e.val) (Fin.ofNat 64 b.val) gm) s =
      .next (retire (writeAllV s l n e (pickAlt gm (flatV (mem s n) b)) 4 none) l 1) := by
  refine lockstep_ok hl ?_
  have hok : (!h.gq && maskOk gm && (!true || decide ((Fin.ofNat 64 e.val).val < 32 ∧ (Fin.ofNat 64 b.val).val < 32))) = true := by
    simp only [hg, hm, vField_lt]
    rfl
  simp only [memOnly_of hw, ok_bind, hok, require_true, if_true, vOfField_val, hn, flatHazard_unchecked hraw]

theorem qstat_writesV {e b : VReg} (hn : needV (mem s n) [e] = .ok ()) :
    exec (.qstat h true (Fin.ofNat 64 e.val) (Fin.ofNat 64 b.val)) s =
      .next (retire (writeAllV s l n e (plain (frameCells (flatV (mem s n) b))) 4 none) l 1) := by
  refine lockstep_ok hl ?_
  have hok : (!h.gq && (!true || decide ((Fin.ofNat 64 e.val).val < 32 ∧ (Fin.ofNat 64 b.val).val < 32))) = true := by
    simp only [hg, vField_lt]
    rfl
  simp only [memOnly_of hw, ok_bind, hok, require_true, if_true, vOfField_val, hn, flatHazard_unchecked hraw]
  rfl

end

/-- What a write of every slice leaves once its lane has issued. -/
theorem writeAllV_leaves (hw : l.who = .mem n) (e : VReg) (res : Alts Cells) :
    (mem (retire (writeAllV s l n e res 4 none) l 1) n).regs = (mem s n).regs ∧
    (mem (retire (writeAllV s l n e res 4 none) l 1) n).fly.slw = (mem s n).fly.slw ++ cols.map fun c =>
      { tgt := .v e, slice := c, res := mapAlts (sliceOf c) res, lit := none, out := [], due := (mem s n).ctl.gc + 3, q := l.q,
        seq := s.fresh, addr := l.ln.addr, keep := 0 } := by
  rw [retire_regs hw, retire_fly hw, writeAllV, mem_updMem_same]
  exact ⟨rfl, rfl⟩

/-- What a result sent to an s register leaves of the writes in flight. -/
theorem sends_sw (hw : l.who = .mem n) (v : Word) :
    (sent s l d v 1 .always).due = (mem s n).ctl.gc ∧
    (mem (sends s l d v 1 .always) n).fly.sw = (mem s n).fly.sw ++ if d = 0 then [] else [sent s l d v 1 .always] := by
  rw [sends, retire_fly hw, wrote_sw hw]
  simp [sent, hw, cycleOf]

/-- Settles O15: the slots first, then `qpick` and `qstat`. -/
theorem guardInstructions : Obligations.GuardInstructions := by
  unfold Obligations.GuardInstructions
  refine ⟨fun s l n h q a hl hw => ⟨fun hg fk fn i hi => slots_qualified hl hw hg fk fn hi, fun _ fk fn hbad => qopenf_badFlag hl hw hbad,
    fun hg hq => ⟨?opens, ?opensFlag, qwait_goes hl hw hg hq⟩, fun hg hq => ⟨?reopens, ?reopensFlag, qwait_waits hl hw hg hq⟩,
    ?resolves, qres_illegal hl hw⟩, fun s l n h d a gm hl hw => ⟨qpick_illegal hl hw, qstat_illegal hl hw, fun hg hraw =>
      ⟨?picks, ?stats, fun hm e b hn => ?picksV, fun e b hn => ?statsV⟩⟩⟩
  case opens =>
    rintro ⟨x, hr⟩
    refine ⟨_, qopen_opens hl hw hg hq hr, slotOpened_regs hw .., ?_⟩
    rw [slotOpened_slot hw, bindSrc_eq]
    exact ⟨rfl, rfl, rfl⟩
  case opensFlag =>
    intro fk fn v hfk hfn hv
    refine ⟨_, qopenf_opens hl hw hg hfk hfn hv hq, ?_⟩
    rw [slotOpened_slot hw]
    exact ⟨rfl, rfl⟩
  case reopens =>
    rintro ⟨x, hr⟩
    exact qopen_reopens hl hw hg hq hr
  case reopensFlag => exact fun fk fn v hfk hfn hv => qopenf_reopens hl hw hg hfk hfn hv hq
  case resolves =>
    intro hg hsrc v hv
    refine ⟨_, qres_resolves hl hw hg hsrc hv, ?_⟩
    rw [slotOf_congr (retire_grd hw 1), mem_updMem_same, slotOf_setSlot_same]
    exact ⟨by simp [bne, beq_eq_decide], hsrc⟩
  case picks =>
    intro hm g v hfit hn hf
    obtain ⟨hdue, hsw⟩ := sends_sw (s := s) (d := d) hw v
    exact ⟨_, _, qpick_sends hl hw hg hraw hm hfit hn hf, rfl, rfl, rfl, hdue, hsw⟩
  case stats =>
    intro hn hfit
    obtain ⟨hdue, hsw⟩ := sends_sw (s := s) (d := d) hw (maskWord (sCell (mem s n) a).alts)
    exact ⟨_, _, _, qstat_sends hl hw hg hraw hn hfit, rfl, rfl, hdue, hsw, fun i hi => maskWord_frame _ hi⟩
  case picksV => exact ⟨_, qpick_writesV hl hw hg hraw hm hn, writeAllV_leaves hw e _⟩
  case statsV =>
    obtain ⟨hregs, hslw⟩ := writeAllV_leaves (s := s) hw e (plain (frameCells (flatV (mem s n) b)))
    exact ⟨_, qstat_writesV hl hw hg hraw hn, hregs, _, hslw, fun i _ => cellAt_frameCells _ i⟩

end Sys2Proof.Proofs
end

