-- ==== Sys2Proof/Proofs/MatrixIssue.lean ====
section
/-! SUPPORT and PROOF. M instructions of the wait class at their issue: when they act, do nothing or fault, and what none of them
changes (R153, R199 to R207). -/

namespace Sys2Proof.Proofs

open Sys2Proof Sys2Proof.Machine Sys2Proof.Laws Sys2Proof.Claims

variable {s : State} {l : Lane} {n : Nat} {h : Hd} {st : SReg} {f : Nat → Member → MNeeds} {eff : State → Nat → Except Stop State}

/-! ## The three ends of an issue -/

/-- A member whose next M instruction has no slip noted (R204). -/
def withoutSlip (m : Member) : Member := { m with ctl := { m.ctl with slipped := false } }

/-- Sub-arrays that are awake need no wake (R202). -/
theorem startWake_awake {cal : Nat} {m : Member} {subs : List Nat} (h : ∀ k ∈ subs, (subOf m k).asleep = false) :
    subs.foldl (startWake cal) m = m := by
  induction subs with
  | nil => rfl
  | cons k r ih =>
    obtain ⟨hk, hr⟩ := List.forall_mem_cons.1 h
    have hone : startWake cal m k = m := by simp [startWake, hk]
    rw [List.foldl_cons, hone, ih hr]

/-- Operands in full slots, on sub-arrays none of which is waking, wait for nothing. -/
theorem mWaits_none {m : Member} {x : MNeeds} (hslots : ∀ p ∈ x.slots, slotReady m p.1 p.2 true = true)
    (hsubs : ∀ k ∈ x.subs, (subOf m k).waking = none) : mWaits m x = none := by
  have hfind : x.slots.find? (fun p => !slotReady m p.1 p.2 true) = none := by
    simpa [List.find?_eq_none] using hslots
  have hwake : x.subs.filterMap (fun k => (subOf m k).waking) = [] := by
    simpa [List.filterMap_eq_nil_iff] using hsubs
  simp [mWaits, hfind, hwake]

/-- One that passes every check acts, on its member as it stands (R202). -/
theorem mIssue_ready (hr : MReady s l n h st (f n (mem s n))) {u : State} (he : eff (setMem s n (mem s n)) n = .ok u) :
    mIssue s l h st f eff = .go (updMem u n withoutSlip) (f n (mem s n)).occ := by
  obtain ⟨-, hw, hc, ⟨v, hv⟩, hh, hst, hf, hp, hbusy, hsub, hslot⟩ := hr
  have hmine : (updMem s n fun m => (f n (mem s n)).subs.foldl (startWake s.cal) m) = setMem s n (mem s n) := by
    rw [updMem, startWake_awake fun k hk => (hsub k hk).1]
  have hwait : mWaits (mem (setMem s n (mem s n)) n) (f n (mem s n)) = none := by
    rw [mem_setMem_same]
    exact mWaits_none hslot fun k hk => (hsub k hk).2
  have hfree : ((f n (mem s n)).subs.any fun k => decide ((mem s n).ctl.gc < (subOf (mem s n) k).busy)) = false := by
    simpa using hbusy
  have hnext : mIssue.next st eff s n (f n (mem s n)) = .go (updMem u n withoutSlip) (f n (mem s n)).occ := by
    simp only [mIssue.next, hst, hf, hfree, hmine, hwait, hp, he]
    rfl
  simp only [mIssue, memOnly_of hw, hc, hv]
  cases hx : (f n (mem s n)).hnd with
  | none => exact hnext
  | some r => simpa [hh r hx] using hnext

/-- One whose qualifier is against it issues with its occupancy and does nothing else (R153). -/
theorem mIssue_never (hw : l.who = .mem n) (hc : waitClass s l.who h (stampRegs st ++ (f n (mem s n)).regs) = .ok false) :
    mIssue s l h st f eff = .go s (f n (mem s n)).occ := by
  simp only [mIssue, memOnly_of hw, hc]

/-- One that a check of its issue turns away raises that check's fault (R199, R204). -/
theorem mIssue_faults {t : Trap} (hf : MFaults s l n h st (f n (mem s n)) t) : mIssue s l h st f eff = .stop s (.trap t) := by
  obtain ⟨-, hw, hc, ⟨v, hv⟩, hh, hst, hx⟩ := hf
  have hnext : mIssue.next st eff s n (f n (mem s n)) = .stop s (.trap t) := by simp only [mIssue.next, hst, hx]
  simp only [mIssue, memOnly_of hw, hc, hv]
  cases hr : (f n (mem s n)).hnd with
  | none => exact hnext
  | some r => simpa [hh r hr] using hnext

/-! ## What no M instruction changes -/

/-- The registers, buffers and group cycle of a member. -/
def mParts (m : Member) := (m.regs.s, m.regs.v, m.regs.k, m.regs.h, m.buf, m.ctl.gc)

/-- What an M instruction leaves as it was: those parts of its member, and device memory. -/
def mView (n : Nat) (s : State) := (mParts (mem s n), s.dmem)

theorem mView_updMem {g : Member → Member} (hg : ∀ m, mParts (g m) = mParts m) (s : State) (n : Nat) :
    mView n (updMem s n g) = mView n s := by
  rw [mView, mem_updMem_same, hg]
  rfl

theorem mView_setMem (s : State) (n : Nat) : mView n (setMem s n (mem s n)) = mView n s := mView_updMem (g := id) (fun _ => rfl) s n

theorem mView_of_countsOnly {s t : State} (hc : CountsOnly s t) (hd : t.dmem = s.dmem) (n : Nat) : mView n t = mView n s := by
  obtain ⟨p, hp⟩ := hc n
  rw [mView, hp, hd]
  rfl

@[simp] theorem mParts_useSubs (m : Member) (ks : List Nat) (last : Nat) : mParts (useSubs m ks last) = mParts m := by
  refine foldl_keeps mParts (fun m k => ?_) ks m
  rfl

@[simp] theorem mParts_startWakes (cal : Nat) (m : Member) (ks : List Nat) : mParts (ks.foldl (startWake cal) m) = mParts m :=
  foldl_keeps mParts (fun m k => by unfold startWake; dsimp only; split <;> rfl) ks m

@[simp] theorem mView_learnSlots (s : State) (n : Nat) (sl : List (Nat × Nat)) : mView n (learnSlots s n sl) = mView n s := by
  refine foldl_keeps (mView n) (fun s p => ?_) sl s
  rfl

/-! ## Reads of a page (R213) -/

theorem mView_payNow (n : Nat) (s : State) (a : Acc) (pa cost : Nat) : mView n (payNow s a pa cost) = mView n s := by
  unfold payNow
  split <;> rfl

theorem mView_devRead (n : Nat) (s : State) (a : Acc) (key pa k : Nat) : mView n (devRead s a key pa k).2 = mView n s := by
  let u := reached s a pa false
  let f := freeBytes u (undefBytes u a false (stampAcc s a).1 pa k) pa (keyedBytes u (keyOf u key) pa k)
  have hu : mView n u = mView n s := mView_of_countsOnly (countsOnly_reached s a pa false) (reached_dmem ..) n
  have hread : devRead s a key pa k = if tget false u.dbad (pa / 32) then (none, u) else
      (some f.1, noteAccess f.2 (stampAcc s a).1 (accRec f.2 a (stampAcc s a).1 (stampAcc s a).2.1 pa k false) (anyDebug f.2)) := rfl
  rw [hread]
  split
  · exact hu
  · refine Eq.trans ?_ hu
    exact mView_of_countsOnly (.of_members (freeBytes_members ..)) (freeBytes_dmem ..) n

theorem mView_pageRead (n : Nat) (s : State) (a : Acc) (hb : BitVec 128) (off k : Nat) : mView n (pageRead s a hb off k).2 = mView n s := by
  refine foldl_keeps (fun r : List Byte × State => mView n r.2) (fun r p => ?_) _ ([], s)
  have hread := (mView_devRead n (payNow r.2 a (hBase hb + p.off) 1) a (hKeyIdx hb) (hBase hb + p.off) p.n).trans (mView_payNow n ..)
  split <;> (rename_i hd; rw [hd] at hread; exact hread)

theorem mView_readRows (n : Nat) (s : State) (a : Acc) (hb : BitVec 128) (v : BitVec 256) (base k : Nat) (valid : BitVec 64) :
    mView n (readRows s a hb v base k valid).2 = mView n s := by
  refine foldl_keeps (fun r : List Nat × State => mView n r.2) (fun r j => ?_) _ ([], s)
  dsimp only
  split
  · exact mView_pageRead ..
  · rfl

theorem mView_attStart (s : State) (n : Nat) (i : Instr) (addr : Nat) (fa : AReg) (fb : HReg) (sr : SReg) (occ base len : Nat) :
    mView n (attStart s n i addr fa fb sr occ base len) = mView n s := by
  unfold attStart
  dsimp only
  rw [mView_updMem, mView_readRows, mView_pageRead, mView_learnSlots]
  intro m
  rw [mParts_useSubs]
  rfl

/-! ## The instructions -/

/-- An M instruction with needs x issues by f and eff; its effect is made wherever L's queues have room, and leaves what no M
instruction changes. -/
structure IssuesAs (s : State) (n : Nat) (h : Hd) (st : SReg) (i : Instr) (x : MNeeds) (f : Nat → Member → MNeeds)
    (eff : Lane → State → Nat → Except Stop State) : Prop where
  exec_eq : exec i s = mLane s fun l => mIssue s l h st f (eff l)
  needs : f n (mem s n) = x
  acts : ∀ (l : Lane) (s' : State), (mem s' n).l.lq.length < 32 → (mem s' n).l.sq.length < 32 →
    ∃ u, eff l s' n = .ok u ∧ mView n u = mView n s'

section
variable {i : Instr} {x : MNeeds} {eff : Lane → State → Nat → Except Stop State} (hi : IssuesAs s n h st i x f eff)
include hi

theorem IssuesAs.ready (hr : MReady s l n h st x) {u : State} (he : eff l (setMem s n (mem s n)) n = .ok u) :
    exec i s = .next (retire (updMem u n withoutSlip) l x.occ) := by
  obtain ⟨hexec, rfl, -⟩ := hi
  exact hexec.trans (mLane_go hr.1 (mIssue_ready hr he))

theorem IssuesAs.never (hl : curLane s = some l) (hw : l.who = .mem n) (hc : waitClass s l.who h (stampRegs st ++ x.regs) = .ok false) :
    exec i s = .next (retire s l x.occ) := by
  obtain ⟨hexec, rfl, -⟩ := hi
  exact hexec.trans (mLane_go hl (mIssue_never hw hc))

theorem IssuesAs.faults {t : Trap} (hf : MFaults s l n h st x t) : exec i s = .next (laneFault s l t) := by
  obtain ⟨hexec, rfl, -⟩ := hi
  refine hexec.trans ?_
  simp only [mLane, hf.1, mIssue_faults hf]

end

/-- What an M instruction leaves once it has issued, from what its effect leaves. -/
theorem mLeaves_of_mView (hw : l.who = .mem n) {u : State} (hu : mView n u = mView n s) (occ : Nat) :
    MLeaves s (retire (updMem u n withoutSlip) l occ) n l occ := by
  have hu' : mView n (updMem u n withoutSlip) = mView n s := (mView_updMem (g := withoutSlip) (fun _ => rfl) u n).trans hu
  simp only [mView, mParts, Prod.mk.injEq] at hu'
  obtain ⟨⟨hs, hv, hk, hh, hb, hgc⟩, hd⟩ := hu'
  rw [MLeaves, retire_regs hw, retire_buf hw, retire_dmem hw, mem_retire hw, ← hgc]
  exact ⟨hs, hv, hk, hh, hb, hd, tget_tput_same ..⟩

theorem mParts_setA (m : Member) (a : AReg) (v : BitVec 256) : mParts (setA m a v) = mParts m := rfl

/-- An effect on its member alone acts, and leaves those parts where the change of the member does. -/
theorem updMem_acts {g : Member → Member} (hg : ∀ m, mParts (g m) = mParts m) (s : State) (n : Nat) :
    ∃ u, (Except.ok (updMem s n g) : Except Stop State) = .ok u ∧ mView n u = mView n s := ⟨_, rfl, mView_updMem hg s n⟩

/-- Every M instruction of the wait class issues by its needs and an effect that leaves what none of them changes. -/
theorem mForms_issue {fa fb : AReg} {hb : HReg} {tl sub : Fin 16} {nt : Fin 4} {sr : SReg} {idx : BitVec 16} {f64 : Bool} {rm : BitVec 3}
    {k : KReg} {x : Instr × MNeeds} (hx : x ∈ mForms s n h st fa fb hb tl sub nt sr idx f64 rm k) :
    ∃ f eff, IssuesAs s n h st x.1 x.2 f eff := by
  simp only [mForms, List.mem_cons, List.not_mem_nil, or_false] at hx
  rcases hx with rfl | rfl | rfl | rfl | rfl | rfl | rfl | rfl | rfl | rfl | rfl | rfl <;>
    refine ⟨_, _, rfl, rfl, fun l s' hlq hsq => ?_⟩
  · -- `mmac`
    refine ⟨_, rfl, ?_⟩
    rw [mView_updMem, mView_learnSlots]
    exact fun m => mParts_useSubs ..
  · -- `mmacb`
    refine ⟨_, rfl, ?_⟩
    rw [mView_updMem, mView_learnSlots]
    exact fun m => rfl
  iterate 3 -- `mret`, `mload` and `mzero`
    refine updMem_acts (fun m => ?_) s' n
    exact mParts_useSubs ..
  · -- `mwake`
    refine updMem_acts (fun m => ?_) s' n
    exact (mParts_useSubs ..).trans (mParts_startWakes ..)
  · -- `mmode`
    refine updMem_acts (fun m => ?_) s' n
    rfl
  iterate 2 -- `sset` and `sadv`
    refine updMem_acts (fun m => ?_) s' n
    exact mParts_setA ..
  · -- `aqk`
    refine ⟨_, rfl, ?_⟩
    rw [mView_updMem, mView_attStart]
    exact fun m => rfl
  · -- `apv`
    exact ⟨_, rfl, mView_attStart ..⟩
  · -- `amass`
    simp only [lRoom_of hlq hsq, waitUnless_true, ok_bind]
    refine updMem_acts (fun m => ?_) s' n
    rfl

/-! ## `mmac` and `mmacb` (R206, R207) -/

@[simp] theorem useSubs_ops (m : Member) (ks : List Nat) (last : Nat) : (useSubs m ks last).mat.ops = m.mat.ops := by
  refine foldl_keeps (fun m => m.mat.ops) (fun m k => ?_) ks m
  rfl

@[simp] theorem useSubs_acc (m : Member) (ks : List Nat) (last : Nat) : (useSubs m ks last).mat.acc = m.mat.acc := by
  refine foldl_keeps (fun m => m.mat.acc) (fun m k => ?_) ks m
  rfl

@[simp] theorem subOf_setSub_same (m : Member) (k : Nat) (x : SubArray) : subOf (setSub m k x) k = x := tget_tput_same ..

theorem mem_learnSlots (s : State) (n : Nat) (sl : List (Nat × Nat)) : mem (learnSlots s n sl) n = mem s n := by
  refine foldl_keeps (fun s => mem s n) (fun s p => ?_) sl s
  rfl

/-- The matrix array once the instruction has issued, as its effect leaves it. -/
theorem issued_mat (hw : l.who = .mem n) (u : State) (occ : Nat) :
    (mem (retire (updMem u n withoutSlip) l occ) n).mat = (mem u n).mat := by
  rw [mem_retire hw, mem_updMem_same]
  rfl

/-- An operation that starts now, on its streams and the buffers as they stand. -/
def StartsNow (m : Member) (i : Instr) (occ : Nat) (fa fb : AReg) (o : MatOp) : Prop :=
  o.ins = i ∧ o.start = m.ctl.gc ∧ o.stop = m.ctl.gc + occ - 1 ∧ o.fa = aReg m fa ∧ o.fb = aReg m fb ∧ o.wb = m.buf.wb ∧ o.ab = m.buf.ab

theorem startsNow_newOp (m : Member) (i : Instr) (addr occ : Nat) (fa fb : AReg) (rels : List (Nat × Nat)) :
    StartsNow m i occ fa fb (newOp m i addr occ (aReg m fa) (aReg m fb) rels) := ⟨rfl, rfl, rfl, rfl, rfl, rfl, rfl⟩

theorem mmac_starts {fa fb : AReg} {tl : Fin 16} {nt : Fin 4} (hr : MReady s l n h st (mmacNeeds fa fb tl nt (mem s n))) :
    ∃ t, exec (.mmac h st fa fb tl nt) s = .next t ∧ MLeaves s t n l (mmacNeeds fa fb tl nt (mem s n)).occ ∧
      ∃ o, StartsNow (mem s n) (.mmac h st fa fb tl nt) (mmacNeeds fa fb tl nt (mem s n)).occ fa fb o ∧
      (mem t n).mat.ops = (mem s n).mat.ops ++ [o] ∧ (mem t n).mat.acc = (mem s n).mat.acc := by
  have ⟨hl, hw, _⟩ := hr
  refine ⟨_, mLane_go hl (mIssue_ready (f := fun _ m => mmacNeeds fa fb tl nt m) hr rfl), mLeaves_of_mView hw ?leaves _, ?work⟩
  case leaves =>
    rw [mView_updMem, mView_learnSlots, mView_setMem]
    exact fun m => mParts_useSubs ..
  case work =>
    rw [issued_mat hw, mem_updMem_same, mem_learnSlots, mem_setMem_same]
    exact ⟨_, startsNow_newOp .., useSubs_ops .., useSubs_acc ..⟩

/-- `mmacb` keeps its one sub-array busy for 32 steps. -/
theorem mmacb_starts {fa fb : AReg} {tl sub : Fin 16} (hr : MReady s l n h st (mmacbNeeds fa fb tl sub (mem s n))) :
    ∃ t, exec (.mmacb h st fa fb tl sub) s = .next t ∧ MLeaves s t n l (mmacbNeeds fa fb tl sub (mem s n)).occ ∧
      ∃ o, StartsNow (mem s n) (.mmacb h st fa fb tl sub) (mmacbNeeds fa fb tl sub (mem s n)).occ fa fb o ∧
      (mem t n).mat.ops = (mem s n).mat.ops ++ [o] ∧ (mem t n).mat.acc = (mem s n).mat.acc ∧
      (subOf (mem t n) sub.val).busy = (mem s n).ctl.gc + 32 * stepCost (sFmt (aReg (mem s n) fa)) := by
  have ⟨hl, hw, _⟩ := hr
  refine ⟨_, mLane_go hl (mIssue_ready (f := fun _ m => mmacbNeeds fa fb tl sub m) hr rfl), mLeaves_of_mView hw ?leaves _, ?work⟩
  case leaves =>
    rw [mView_updMem, mView_learnSlots, mView_setMem]
    exact fun m => rfl
  case work =>
    rw [subOf, issued_mat hw, mem_updMem_same, mem_learnSlots, mem_setMem_same]
    exact ⟨_, startsNow_newOp .., rfl, rfl, congrArg SubArray.busy (subOf_setSub_same ..)⟩

/-- Settles O24: every form by its needs and its effect, then `mmac` and `mmacb` by what starts. -/
theorem matrixMultiplies : Obligations.MatrixMultiplies := by
  unfold Obligations.MatrixMultiplies
  refine ⟨fun s l n h st fa fb hb tl sub nt sr idx f64 rm k x hx => ?forms,
    fun s l n h st fa fb tl sub nt => ⟨fun hr => ?mmac, fun hr => ?mmacb⟩⟩
  case forms =>
    obtain ⟨f, eff, hi⟩ := mForms_issue hx
    refine ⟨fun hr hlq hsq => ?_, fun hl hw hc => hi.never hl hw hc, fun t hf => hi.faults hf⟩
    have ⟨_, hw, _⟩ := hr
    obtain ⟨u, hu, hview⟩ := hi.acts l (setMem s n (mem s n)) (by rwa [mem_setMem_same]) (by rwa [mem_setMem_same])
    exact ⟨_, hi.ready hr hu, mLeaves_of_mView hw (hview.trans (mView_setMem ..)) _⟩
  case mmac =>
    obtain ⟨t, hexec, hleaves, o, ⟨hins, hstart, hstop, hfa, hfb, hwb, hab⟩, hops, hacc⟩ := mmac_starts hr
    exact ⟨t, o, hexec, hleaves, hops, hins, hstart, hstop, hfa, hfb, hwb, hab, hacc⟩
  case mmacb =>
    obtain ⟨t, hexec, hleaves, o, ⟨hins, hstart, hstop, hfa, hfb, -, -⟩, hops, hacc, hbusy⟩ := mmacb_starts hr
    exact ⟨t, o, hexec, hleaves, hops, hins, hstart, hstop, hfa, hfb, hacc, hbusy⟩

end Sys2Proof.Proofs
end

