-- ==== Sys2Proof/Proofs/VectorIssue.lean ====
section
/-! SUPPORT and PROOF. The issue of a V or X instruction: its wavefront sets out with what stands at issue, its s destination
becomes pending, and nothing else of its member's registers changes (R172, R173, R175, R190). -/

namespace Sys2Proof.Proofs

open Sys2Proof Sys2Proof.Machine Sys2Proof.Laws Sys2Proof.Claims

variable {s s1 : State} {l : Lane} {n : Nat} {h : Hd} {i : Instr} {sh : VShape} {act : Act} {pop : Option (Alts Cells)} {ss : Alts Cells}

/-! ## What gathering leaves of a wavefront -/

/-- Reading ahead fills in what a wavefront gathers, and leaves what it set out with. -/
theorem gatherAhead_gathers (sh : VShape) : ∀ (k gc : Nat) (m : Member) (w : Wave),
    ∃ g full, gatherAhead sh k gc m w = { w with gath := g, full := full }
  | 0, _, _, w => ⟨w.gath, w.full, rfl⟩
  | k + 1, gc, _, w => gatherAhead_gathers sh k (gc + 1) _ (gather _ sh (gc - w.t) w)

theorem gatherRest_gathers (m : Member) (gc : Nat) (sh : VShape) (w : Wave) :
    ∃ g full, gatherRest m gc sh w = { w with gath := g, full := full } := by
  unfold gatherRest
  split
  · exact ⟨w.gath, w.full, rfl⟩
  · exact gatherAhead_gathers ..

/-- A wavefront that sets out joins the others, whether or not it gathers its sources at once, and draws its blocks. -/
theorem launchWave_appends (m : Member) (sh : VShape) (w : Wave) (blocks : Nat) :
    ∃ g full, launchWave m sh w blocks = { m with
      fly := { m.fly with waves := m.fly.waves ++ [{ w with gath := g, full := full }] }
      spr := { m.spr with rngCtr := m.spr.rngCtr + BitVec.ofNat 128 blocks } } := by
  unfold launchWave
  by_cases he : sh.moves = .early
  · obtain ⟨g, full, hw⟩ := gatherRest_gathers m m.ctl.gc sh w
    exact ⟨g, full, by simp only [if_pos he, hw]⟩
  · exact ⟨w.gath, w.full, by simp only [if_neg he]⟩

/-! ## A destination in s (R173) -/

/-- What a pending s destination leaves of a member: its wavefronts, special registers, v and k registers and group cycle. -/
def waveParts (m : Member) := (m.fly.waves, m.spr, m.regs.v, m.regs.k, m.ctl.gc)

theorem waveParts_setCell (m : Member) (d : SReg) (c : SCell) : waveParts (setCell m d c) = waveParts m := by
  unfold setCell
  split <;> rfl

section
variable (hw : l.who = .mem n) (d : SReg) (due : Nat) (v : LandVal) (lit : Option Lit)
include hw

/-- A value on its way makes its destination pending and joins those that will land. -/
theorem mem_schedule : mem (schedule s l d due v lit) n =
    let m := setCell (mem s n) d { sCell (mem s n) d with pend := some s.fresh }
    { m with fly := { m.fly with lands := m.fly.lands ++
      [{ tok := s.fresh, due := due, val := v, lit := lit, out := [], q := l.q, addr := l.ln.addr }] } } := by
  simp only [schedule, markS, hw, mem_updMem_same]
  rfl

theorem schedule_waveParts : waveParts (mem (schedule s l d due v lit) n) = waveParts (mem s n) := by
  rw [mem_schedule hw]
  exact waveParts_setCell ..

theorem schedule_dmem : (schedule s l d due v lit).dmem = s.dmem := by
  simp only [schedule, markS, hw]
  rfl

theorem schedule_pends (hd : d ≠ 0) : (sCell (mem (schedule s l d due v lit) n) d).pend = some s.fresh := by
  rw [mem_schedule hw]
  exact congrArg SCell.pend (sCell_setCell_same _ _ _ hd)

end

/-! ## The issue -/

/-- The state in which the wavefront of an instruction has set out. -/
def waveOut (s : State) (l : Lane) (n : Nat) (i : Instr) (sh : VShape) (ss : Alts Cells) (pop : Option (Alts Cells)) (act : Act) : State :=
  let w := newWave s l n i ss pop (actLit act)
  updMem { s with fresh := s.fresh + 1 } n fun m => noteBreadth (launchWave m sh w (drawBlocks i)) (vCount (mem s n) sh w)

/-- The same state with the instruction's s destination, where it has one, pending (R173). -/
def issuedV (s : State) (l : Lane) (n : Nat) (i : Instr) (sh : VShape) (ss : Alts Cells) (pop : Option (Alts Cells)) (act : Act) : State :=
  match sh.dst with
  | .s d => schedule (waveOut s l n i sh ss pop act) l d (s.cal + 71) (.wave s.fresh) (actLit act)
  | _ => waveOut s l n i sh ss pop act

/-- An instruction that passes its checks, acts, and has room for its alternatives sets out, with an occupancy of 1. -/
theorem vIssue_acts (hsh : vShape i = some sh) (hact : VActs s l n h i sh act pop s1) (hss : vScalar s1 l sh = .ok ss)
    (hroom : vCount (mem s1 n) sh (newWave s1 l n i ss pop (actLit act)) ≤ 4) :
    vIssue s l h i = .ok (issuedV s1 l n i sh ss pop act, 1) := by
  obtain ⟨-, hw, hready, hne⟩ := hact
  simp only [vIssue, memOnly_of hw, hsh, hready, hss, ok_bind, if_neg hne, if_neg (Nat.not_lt.2 hroom)]
  rfl

/-- A lane that leaves its queue moves the queue's reference point past its occupancy (R19). -/
theorem refs_leaveQueue (l : Lane) (occ e : Nat) (m : Member) :
    tget 0 (count (leaveQueue l occ m) e).ctl.refs l.q.code = m.ctl.gc + occ := tget_tput_same ..

section
variable (hw : l.who = .mem n)
include hw

theorem issuedV_waveParts : waveParts (mem (issuedV s l n i sh ss pop act) n) = waveParts (mem (waveOut s l n i sh ss pop act) n) := by
  unfold issuedV
  split
  · exact schedule_waveParts hw ..
  · rfl

theorem issuedV_dmem : (issuedV s l n i sh ss pop act).dmem = s.dmem := by
  unfold issuedV
  split
  · exact schedule_dmem hw ..
  · rfl

theorem issuedV_pends {d : SReg} (hdst : sh.dst = .s d) (hd : d ≠ 0) :
    (sCell (mem (issuedV s l n i sh ss pop act) n) d).pend.isSome = true := by
  simp only [issuedV, hdst, schedule_pends hw _ _ _ _ hd, Option.isSome_some]

/-- Once the instruction has issued, its wavefront is on its way with what stood at issue. -/
theorem setsOut_of_issued (hss : vScalar s l sh = .ok ss) :
    SetsOut s l n i sh act pop (retire (issuedV s l n i sh ss pop act) l 1) := by
  obtain ⟨g, full, hlaunch⟩ := launchWave_appends (mem s n) sh (newWave s l n i ss pop (actLit act)) (drawBlocks i)
  have hparts := issuedV_waveParts (s := s) (i := i) (sh := sh) (ss := ss) (pop := pop) (act := act) hw
  have hout : waveParts (mem (waveOut s l n i sh ss pop act) n) = waveParts (launchWave (mem s n) sh
      (newWave s l n i ss pop (actLit act)) (drawBlocks i)) := by
    rw [waveOut, mem_updMem_same]
    rfl
  rw [hout, hlaunch] at hparts
  simp only [waveParts, Prod.mk.injEq] at hparts
  obtain ⟨hwaves, hspr, hv, hk, hgc⟩ := hparts
  refine ⟨{ newWave s l n i ss pop (actLit act) with gath := g, full := full }, ss, hss, ?_⟩
  rw [mem_retire hw, retire_dmem hw, issuedV_dmem hw]
  refine ⟨hwaves, rfl, rfl, rfl, rfl, rfl, rfl, rfl, congrArg (·.rngCtr) hspr, hv, hk, rfl, ?_, fun d hdst hd => issuedV_pends hw hdst hd⟩
  rw [← hgc]
  exact refs_leaveQueue ..

end

/-- Every one of these instructions issues as V and X do. -/
theorem exec_eq_vIssue {x : VExt} {d a b y : VReg} {k j m : KReg} {cc : BitVec 4} {c : Cvt} {op : BitVec 3} {r : SReg} {row : Fin 16}
    {col : Fin 64} {rot : Rot} {vd : VDst} {p : Fin 32}
    (hi : i ∈ waveArith h x d a b y k cc c p ∨ i ∈ waveMoves h x d a b y k j m op r row col rot vd) (s : State) :
    exec i s = lockstep s fun l => vIssue s l h i := by
  rcases hi with hi | hi <;>
    exact (List.map_inj_left (f := fun i => exec i s) (g := fun i => lockstep s fun l => vIssue s l h i)).1 rfl i hi

/-- Settles O20: every form issues alike, and its issue leaves the wavefront on its way. -/
theorem vectorSetsOut : Obligations.VectorSetsOut := by
  unfold Obligations.VectorSetsOut
  intro s s1 l n h x d a b y k j m cc c op r row col rot vd p act pop sh ss i hi hsh hact hss hroom
  have ⟨hl, hw, _⟩ := hact
  exact ⟨_, (exec_eq_vIssue hi s).trans (lockstep_ok hl (vIssue_acts hsh hact hss hroom)), setsOut_of_issued hw hss⟩

end Sys2Proof.Proofs
end

