-- ==== Sys2Proof/Proofs/VectorRows.lean ====
section
/-! SUPPORT and PROOF. What the instructions that move or fold cells compute, from the one value that each operand holds (R181, R182,
R184, R185, R187, R188). -/

namespace Sys2Proof.Proofs

open Sys2Proof Sys2Proof.Machine Sys2Proof.Laws Sys2Proof.Claims

/-! ## Cells of a register -/

section
variable {row col : Nat} (hrow : row < 16) (hcol : col < 64)
include hrow hcol

theorem cellAt_mkReg (f : Nat → Nat → Word32) : cellAt (mkReg f) (64 * row + col) = f row col := by
  have hdiv : (64 * row + col) / 64 = row := by omega
  have hmod : (64 * row + col) % 64 = col := by omega
  rw [cellAt, mkReg, tget_tofn 0 _ (List.mem_range.2 (by omega)), hdiv, hmod]

theorem cellAt_ofRows (f : Nat → List Word32) : cellAt (ofRows f) (64 * row + col) = (f row).getD col 0 := by
  rw [ofRows, cellAt_mkReg hrow hcol]
  simp [List.getD, hrow]

/-- A register put together from its slices holds what they hold. -/
theorem cellAt_ofSlices (g : Nat → Cells) : cellAt (ofSlices (cols.map g)) (64 * row + col) = cellAt (g col) row := by
  have hzip : (cols.map g).zipIdx = (List.range 64).map fun c => (g c, c) := by
    rw [List.zipIdx_eq_zip_range', List.length_map, List.map_prod_right_eq_zip, ← List.range_eq_range']
    rfl
  have hrows : ofSlices (cols.map g) = (List.range 16).flatMap fun r =>
      (tofn 0 (List.range 64) fun c => cellAt (g c) r).map fun p => (64 * r + p.1, p.2) := by
    simp only [ofSlices, hzip, tofn, List.filterMap_map, List.map_filterMap]
    refine List.flatMap_congr fun r _ => List.filterMap_congr fun c _ => ?_
    dsimp only [Function.comp_apply]
    split <;> rfl
  rw [cellAt, hrows, tget_rows 0 (fun r p hp => List.mem_range.1 (mem_of_mem_tofn hp)) hrow hcol,
    tget_tofn 0 _ (List.mem_range.2 hcol)]

/-- The gathered mask has a cell of 1 where the bit of its column's slice is 1. -/
theorem gathMask_bit (w : Wave) : (cellAt (gathMask w) (64 * row + col) != 0) = (gathBits w col).getLsbD row := by
  rw [gathMask, cellAt_ofSlices hrow hcol, cellAt_bitCells _ hrow]
  cases (gathBits w col).getLsbD row <;> rfl

end

/-! ## Folds (R185) -/

/-- The values that a fold takes in: those of the masked-in cells, in order. -/
def masked (f : Fmt) (l : List (Bool × Word32)) : List FVal := (l.filter Prod.fst).map fun p => cellF f p.2

theorem masked_map (f : Fmt) (ks : List Nat) (b : Nat → Bool) (v : Nat → Word32) :
    masked f (ks.map fun k => (b k, v k)) = (ks.filter b).map fun k => cellF f (v k) := by
  simp [masked, List.filter_map, Function.comp_def]

theorem masked_flatMap (f : Fmt) (ks : List Nat) (g : Nat → List (Bool × Word32)) :
    masked f (ks.flatMap g) = ks.flatMap fun k => masked f (g k) := by
  simp [masked, List.filter_flatMap, List.map_flatMap]

section
variable (f : Fmt) (op : Nat) (mo : Mode)

/-- One cell of a fold: masked out, it is passed over. -/
def foldCell (acc : Option FVal) (p : Bool × Word32) : Option FVal := if p.1 then foldStep f op mo acc (cellF f p.2) else acc

theorem foldl_foldCell (l : List (Bool × Word32)) (acc : Option FVal) :
    l.foldl (foldCell f op mo) acc = (masked f l).foldl (foldStep f op mo) acc := by
  rw [masked, List.foldl_map, List.foldl_filter]
  rfl

theorem foldStep_some (v u : FVal) : foldStep f op mo (some v) u = some (folded f op mo [v, u]) := by
  rcases op with _ | _ | _ | _ | op <;> rfl

theorem folded_cons_cons (v u : FVal) (vs : List FVal) : folded f op mo (v :: u :: vs) = folded f op mo (folded f op mo [v, u] :: vs) := rfl

theorem foldl_foldStep (v : FVal) (vs : List FVal) : vs.foldl (foldStep f op mo) (some v) = some (folded f op mo (v :: vs)) := by
  induction vs generalizing v with
  | nil => rfl
  | cons u r ih => rw [List.foldl_cons, foldStep_some, ih, ← folded_cons_cons]

/-- What a fold ends with, no contribution included. -/
theorem foldEnd_eq_folded (vs : List FVal) :
    foldEnd f op (vs.foldl (foldStep f op mo) none) = BitVec.ofNat 32 (roundTo f false .rne (folded f op mo vs)) := by
  cases vs with
  | nil =>
    simp only [List.foldl_nil, foldEnd, outF, folded]
    split <;> simp_all
  | cons v r =>
    rw [List.foldl_cons, foldStep, foldl_foldStep]
    rfl

/-- A running fold holds at each cell the fold of the cells up to it. -/
theorem scanCells_getD (acc : Option FVal) (l : List (Bool × Word32)) {k : Nat} (hk : k < l.length) :
    (scanCells f mo op acc l).getD k 0 = foldEnd f op ((l.take (k + 1)).foldl (foldCell f op mo) acc) := by
  induction l generalizing acc k with
  | nil => cases hk
  | cons p r ih =>
    cases k with
    | zero => rfl
    | succ k => exact ih _ (Nat.lt_of_succ_lt_succ hk)

theorem foldCells_eq_folded (x : VExt) (e : CEnv) (l : List (Bool × Word32)) : foldCells x e op l =
    BitVec.ofNat 32 (roundTo (fpOf x.f.toNat) false .rne (folded (fpOf x.f.toNat) op (rndMode x.rnd e) (masked (fpOf x.f.toNat) l))) := by
  rw [← foldEnd_eq_folded, ← foldl_foldCell]
  rfl

theorem scanCells_eq_folded (l : List (Bool × Word32)) {k : Nat} (hk : k < l.length) :
    (scanCells f mo op none l).getD k 0 = BitVec.ofNat 32 (roundTo f false .rne (folded f op mo (masked f (l.take (k + 1))))) := by
  rw [scanCells_getD f op mo none l hk, foldl_foldCell, foldEnd_eq_folded]

end

/-- The masked-in values of the first n columns of a row. -/
def rowVals (w : Wave) (f : Fmt) (a : Cells) (r n : Nat) : List FVal :=
  ((List.range n).filter fun c => (gathBits w c).getLsbD r).map fun c => cellF f (cellAt a (64 * r + c))

theorem masked_take_rowCells (w : Wave) (f : Fmt) (a : Cells) {r n : Nat} (hr : r < 16) (hn : n ≤ 64) :
    masked f ((rowCells (gathMask w) a r).take n) = rowVals w f a r n := by
  rw [rowCells, ← List.map_take, List.take_range, Nat.min_eq_left hn, masked_map, rowVals]
  refine congrArg (List.map _) (List.filter_congr fun c hc => gathMask_bit hr ?_ w)
  exact Nat.lt_of_lt_of_le (List.mem_range.1 hc) hn

theorem length_rowCells (msk a : Cells) (r : Nat) : (rowCells msk a r).length = 64 := by simp [rowCells]

theorem masked_rowCells (w : Wave) (f : Fmt) (a : Cells) {r : Nat} (hr : r < 16) :
    masked f (rowCells (gathMask w) a r) = rowVals w f a r 64 := by
  rw [← masked_take_rowCells w f a hr (Nat.le_refl 64), List.take_of_length_le (Nat.le_of_eq (length_rowCells ..))]

theorem masked_register (w : Wave) (f : Fmt) (a : Cells) :
    masked f ((List.range 16).flatMap fun r => rowCells (gathMask w) a r) = (List.range 16).flatMap fun r => rowVals w f a r 64 := by
  rw [masked_flatMap]
  exact List.flatMap_congr fun r hr => masked_rowCells w f a (List.mem_range.1 hr)

/-! ## Within a slice (R184, R185) -/

/-- The result of a slice whose cells move within it, its operands holding one value each. -/
theorem localSlice_moved {m : Member} {w : Wave} {sh : VShape} {c : Nat} {A d S : Cells} (hmoves : sh.moves = .slice)
    (hsrc : sh.src.map (srcSlice m w c) = [plain A]) (hdst : dstSlice m sh c = plain d) (hss : w.ss = plain S) (hout : w.out = []) :
    localSlice m w sh c = plain (maskCells (kSlice m sh.msk c) d (sliceFn w.ins (waveEnv w) (kSlice m sh.msk c) A (cellAt S 0))) := by
  have hlen : sh.src.length = 1 := by simpa using congrArg List.length hsrc
  have hops : dstSlice m sh c :: (sh.src.map (srcSlice m w c) ++ [resolveAll w.out w.ss]) = [d, A, S].map plain := by
    rw [hdst, hsrc, hss, hout]
    rfl
  unfold localSlice
  rw [hops, pairAll_plain, mapAlts_plain, hlen, hmoves]
  rfl

namespace PlainOperands

variable {m : Member} {w : Wave} {h : Hd} {x : VExt} {c row : Nat} {d a b y : VReg} {A B Y D S : Cells}
  {i : Instr} {v : Word32} {sr : Option SReg} {lat : Nat} (P : PlainOperands m w h c row d a b y A B Y D S)
include P

/-- What a wavefront sends to a slice within which its cells move. -/
theorem gives_moved (hsh : vShape i = some ⟨[srcA h a], sr, .v d, lat, x.msk, false, .slice⟩)
    (hv : cellAt (sliceFn i (waveEnv w) (kSlice m x.msk c) A (cellAt S 0)) row = v) : Gives m w x c row (cellAt D row) (i, v) := by
  intro sh hins hsh'
  obtain rfl := Option.some.inj (hsh.symm.trans hsh')
  obtain ⟨d', hdst, -, hkeep⟩ := P.dstSlice_v (sh := ⟨[srcA h a], sr, .v d, lat, x.msk, false, .slice⟩) rfl
  refine ⟨_, localSlice_moved rfl (congrArg (fun z => [z]) P.srcSlice_a) hdst P.s_eq P.out_eq, ?_⟩
  rw [cellAt_maskCells _ _ _ P.row_lt, hins, hv]
  cases hb : (kSlice m x.msk c).getLsbD row
  · exact hkeep hb
  · rfl

theorem gives_columnBroadcast (r0 : Fin 16) : Gives m w x c row (cellAt D row) (.vcbc h x d a r0, cellAt A r0.val) :=
  P.gives_moved rfl (cellAt_mkSlice _ P.row_lt)

theorem gives_columnRotation (rot : Rot) :
    Gives m w x c row (cellAt D row) (.vcrot h x d a rot, cellAt A ((row + 16 - rotBy rot (cellAt S 0) 16) % 16)) :=
  P.gives_moved rfl (cellAt_mkSlice _ P.row_lt)

theorem gives_columnFold (op : BitVec 3) : Gives m w x c row (cellAt D row) (.vcred h x d a op,
    BitVec.ofNat 32 (roundTo (fpOf x.f.toNat) false .rne (folded (fpOf x.f.toNat) op.toNat (modeOfWave x w)
      (((List.range 16).filter fun r => (kSlice m x.msk c).getLsbD r).map fun r => cellF (fpOf x.f.toNat) (cellAt A r))))) := by
  refine P.gives_moved rfl ((cellAt_mkSlice _ P.row_lt).trans ?_)
  rw [foldCells_eq_folded, masked_map]
  rfl

end PlainOperands

/-! ## Whole registers (R181, R182, R184, R185) -/

/-- A row instruction's result holds one value, with v in its cell of a row and column. -/
def RowGives (w : Wave) (row col : Nat) (i : Instr) (v : Word32) : Prop :=
  ∀ sh, w.ins = i → vShape i = some sh → ∃ R, rowResult w sh = plain R ∧ cellAt R (64 * row + col) = v

/-- A wavefront that has gathered two registers, each holding one value, seen at one of their cells. -/
structure GatheredOperands (w : Wave) (row col : Nat) (A B S : Cells) : Prop where
  row_lt : row < 16
  col_lt : col < 64
  a_eq : gathered w 0 = plain A
  b_eq : gathered w 1 = plain B
  s_eq : w.ss = plain S
  out_eq : w.out = []

namespace GatheredOperands

variable {w : Wave} {row col : Nat} {A B S : Cells} {h : Hd} {x : VExt} {d a b : VReg} {i : Instr} {v : Word32} {sh : VShape} {op : BitVec 3}
  (G : GatheredOperands w row col A B S)
include G

/-- What a row instruction gives, from its first source and the others. -/
theorem gives_row (L : List Cells) (hsh : vShape i = some sh) (hsrc : (List.range sh.src.length).map (gathered w) = (A :: L).map plain)
    (hv : cellAt (rowFn i (waveEnv w) (gathMask w) A (L.headD []) (cellAt S 0)) (64 * row + col) = v) : RowGives w row col i v := by
  rintro sh' rfl hsh'
  obtain rfl := Option.some.inj (hsh.symm.trans hsh')
  have hlen : sh.src.length = L.length + 1 := by simpa using congrArg List.length hsrc
  have hops : (List.range sh.src.length).map (gathered w) ++ [resolveAll w.out w.ss] = (A :: (L ++ [S])).map plain := by
    rw [hsrc, G.s_eq, G.out_eq]
    simp [resolveAll]
  have hlast : (A :: (L ++ [S])).getLastD [] = S := by simp [List.getLastD]
  refine ⟨_, ?_, hv⟩
  unfold rowResult
  rw [hops, pairAll_plain, mapAlts_plain, hlen, hlast]
  rcases L with _ | ⟨b, r⟩ <;> simp

theorem gives_row1 (hsh : vShape i = some sh) (hlen : sh.src.length = 1)
    (hv : cellAt (rowFn i (waveEnv w) (gathMask w) A [] (cellAt S 0)) (64 * row + col) = v) : RowGives w row col i v :=
  G.gives_row [] hsh (by rw [hlen, List.map_singleton, ← G.a_eq]; rfl) hv

theorem gives_row2 (hsh : vShape i = some sh) (hlen : sh.src.length = 2)
    (hv : cellAt (rowFn i (waveEnv w) (gathMask w) A B (cellAt S 0)) (64 * row + col) = v) : RowGives w row col i v :=
  G.gives_row [B] hsh (by rw [hlen, List.map_cons, List.map_singleton, ← G.a_eq, ← G.b_eq]; rfl) hv

theorem gives_rowBroadcast (c0 : Fin 64) : RowGives w row col (.vrbc h x d a c0) (cellAt A (64 * row + c0.val)) :=
  G.gives_row1 rfl rfl (cellAt_mkReg G.row_lt G.col_lt fun row _ => cellAt A (64 * row + c0.val))

theorem gives_rowRotation (rot : Rot) :
    RowGives w row col (.vrrot h x d a rot) (cellAt A (64 * row + (col + 64 - rotBy rot (cellAt S 0) 64) % 64)) :=
  G.gives_row1 rfl rfl (cellAt_mkReg G.row_lt G.col_lt fun row col => cellAt A (64 * row + (col + 64 - rotBy rot (cellAt S 0) 64) % 64))

theorem gives_permutation :
    RowGives w row col (.vperm h x d a b) (cellAt A (64 * row + (cellAt B (64 * row + col)).toNat % 64)) :=
  G.gives_row2 rfl rfl (cellAt_mkReg G.row_lt G.col_lt fun row col => cellAt A (64 * row + (cellAt B (64 * row + col)).toNat % 64))

theorem gives_transpose : RowGives w row col (.vtrn h x d a) (cellAt A (64 * (col % 16) + (16 * (col / 16) + row))) := by
  rw [← Nat.add_assoc]
  exact G.gives_row1 rfl rfl (cellAt_mkReg G.row_lt G.col_lt fun row col => cellAt A (64 * (col % 16) + 16 * (col / 16) + row))

theorem gives_rowFold : RowGives w row col (.vrred h x (.v d) a op) (BitVec.ofNat 32 (roundTo (fpOf x.f.toNat) false .rne
    (folded (fpOf x.f.toNat) op.toNat (modeOfWave x w) (rowVals w (fpOf x.f.toNat) A row 64)))) := by
  refine G.gives_row1 rfl rfl ((cellAt_ofRows G.row_lt G.col_lt _).trans ?_)
  rw [foldCells_eq_folded, masked_rowCells w _ A G.row_lt]
  exact List.getD_replicate _ G.col_lt

theorem gives_rowScan : RowGives w row col (.vrscan h x d a op) (BitVec.ofNat 32 (roundTo (fpOf x.f.toNat) false .rne
    (folded (fpOf x.f.toNat) op.toNat (modeOfWave x w) (rowVals w (fpOf x.f.toNat) A row (col + 1))))) := by
  refine G.gives_row1 rfl rfl ((cellAt_ofRows G.row_lt G.col_lt _).trans ?_)
  rw [scanCells_eq_folded _ _ _ _ (by rw [length_rowCells]; exact G.col_lt), masked_take_rowCells w _ A G.row_lt G.col_lt]
  rfl

end GatheredOperands

/-! ## Packed formats (R181, R182) -/

@[simp] theorem scale_zero (v : FVal) : v.scale 0 = v := by
  cases v <;> simp [FVal.scale]

/-- Packed elements as a number: each in the bits of its place (R55). -/
theorem packBits_range (w n : Nat) (f : Nat → Nat) :
    packBits w ((List.range n).map f) = ((List.range n).map fun i => f i % 2 ^ w * 2 ^ (w * i)).sum := by
  induction n generalizing f with
  | zero => rfl
  | succ n ih =>
    have hfirst : packBits w ((List.range (n + 1)).map f) = f 0 % 2 ^ w + 2 ^ w * packBits w ((List.range n).map fun i => f (i + 1)) := by
      rw [List.range_succ_eq_map, List.map_cons, List.map_map]
      rfl
    rw [hfirst, ih, List.range_succ_eq_map, List.map_cons, List.map_map, List.sum_cons, ← List.sum_map_mul_left]
    simp only [Nat.mul_zero, Nat.pow_zero, Nat.mul_one, Function.comp_def, Nat.succ_eq_add_one]
    congr 3
    funext i
    ring

section
variable {x : VExt} {cv : Cvt} {e : CEnv} {row col : Nat}

/-- The element of a format that is no MX format that `vpack` makes of an FP32 cell, unless stochastic. -/
def packedElem (x : VExt) (cv : Cvt) (mo : Mode) (z : Word32) : Nat :=
  roundTo (fpOf cv.tf.toNat) x.sat mo (decodeFp fp32 true z.toNat) % 2 ^ (fpOf cv.tf.toNat).width

theorem packedElem_mod (x : VExt) (cv : Cvt) (mo : Mode) (z : Word32) :
    packedElem x cv mo z % 2 ^ (fpOf cv.tf.toNat).width = packedElem x cv mo z := Nat.mod_mod ..

theorem cvtVal_packed (hk : cv.kind = 0) (hf : x.f = 0) (hr : x.rnd ≠ 4) (j : Nat) (z : Word32) :
    (cvtVal x cv e j z.toNat 0 % 2 ^ (fpOf cv.tf.toNat).width).toNat = packedElem x cv (rndMode x.rnd e) z := by
  have hz : z.toNat % 2 ^ (fpOf 0).width = z.toNat := Nat.mod_eq_of_lt z.isLt
  have hflush : decide (x.f = 0 ∨ cv.tf ≠ 0) = true := decide_eq_true (.inl hf)
  rw [cvtVal_float _ _ _ _ hk hr, scale_zero, hflush, hf]
  rw [show (0 : BitVec 4).toNat = 0 from rfl, hz]
  exact_mod_cast rfl

variable (hrow : row < 16) (hcol : col < 64) (hk : cv.kind = 0)
include hrow hcol hk

/-- A cell of `vpack`: packed elements of A, then of B, then zeros. -/
theorem cellAt_packReg {wd per : Nat} (A B : Cells) (hmx : ∀ el, formatOf cv.tf.toNat ≠ .mx el) (hf : x.f = 0) (hr : x.rnd ≠ 4)
    (hwd : (fpOf cv.tf.toNat).width = wd) (hper : 32 / wd = per) :
    cellAt (packReg x cv e A B) (64 * row + col) = if 2 * (64 / per) ≤ col then 0 else
      BitVec.ofNat 32 (((List.range per).map fun i => packedElem x cv (rndMode x.rnd e)
        (if col < 64 / per then cellAt A (64 * row + (per * col + i)) else cellAt B (64 * row + (per * (col - 64 / per) + i)))
          * 2 ^ (wd * i)).sum) := by
  subst hwd hper
  have hwidth : packWidth (cv.kind == 0) cv.tf.toNat cv.tty.toNat = (fpOf cv.tf.toNat).width := by rw [hk]; rfl
  unfold packReg
  rw [if_pos hk]
  split
  · rename_i el hel
    exact absurd hel (hmx el)
  · rw [cellAt_mkReg hrow hcol, hwidth]
    by_cases hzero : 2 * (64 / (32 / (fpOf cv.tf.toNat).width)) ≤ col
    · rw [if_pos hzero, if_pos hzero]
    · rw [if_neg hzero, if_neg hzero]
      by_cases hlow : col < 64 / (32 / (fpOf cv.tf.toNat).width)
      · simp only [if_pos hlow, cvtVal_packed hk hf hr, packBits_range, packedElem_mod]
      · simp only [if_neg hlow, cvtVal_packed hk hf hr, packBits_range, packedElem_mod]

/-- A cell of `vunpk`: one element of the packed cell that holds it. -/
theorem cellAt_unpackReg {wd per : Nat} (A : Cells) (p : Nat) (hmx : ∀ el, formatOf x.f.toNat ≠ .mx el)
    (hwd : (fpOf x.f.toNat).width = wd) (hper : 32 / wd = per) :
    cellAt (unpackReg x cv e p A) (64 * row + col) = BitVec.ofNat 32 (roundTo fp32 x.sat (rndMode x.rnd e) (decodeFp (fpOf x.f.toNat) false
      ((cellAt A (64 * row + (64 / per * p + col / per))).toNat / 2 ^ (wd * (col % per)) % 2 ^ wd))) := by
  subst hwd hper
  unfold unpackReg
  rw [if_pos hk]
  split
  · rename_i el hel
    exact absurd hel (hmx el)
  · rw [cellAt_mkReg hrow hcol]
    simp only [hk, packWidth, Nat.add_assoc]
    rfl

end

theorem vpack_shape {h : Hd} {x : VExt} {d a b : VReg} {cv : Cvt} (hk : cv.kind = 0) (hmx : ∀ el, formatOf cv.tf.toNat ≠ .mx el) :
    vShape (.vpack h x d a b cv) = some { cellShape x [srcA h a, .v b] (.v d) 4 with moves := .early } := by
  cases hformat : formatOf cv.tf.toNat with
  | mx el => exact absurd hformat (hmx el)
  | fp f => simp [vShape, hk, hformat]
  | bad => simp [vShape, hk, hformat]

/-! ## To an s register, and counts (R184, R185, R187) -/

theorem map_filter_eq_filterMap {α β : Type} (l : List α) (p : α → Bool) (f : α → β) :
    (l.filter p).map f = l.filterMap fun k => if p k then some (f k) else none := by
  rw [← List.filterMap_eq_filter, List.map_filterMap]
  refine List.filterMap_congr fun k _ => ?_
  simp only [Option.guard]
  split <;> rfl

section
variable {w : Wave} {A : Cells} (hA : gathered w 0 = plain A)
include hA

theorem toSResult_plain : toSResult w = plain (toSFn w.ins (waveEnv w) (gathMask w) A) := by
  rw [toSResult, hA, mapAlts_plain]

theorem toSResult_extract {h : Hd} {x : VExt} {s : SReg} {a : VReg} {r0 : Fin 16} {c0 : Fin 64} (hins : w.ins = .vext h x s a r0 c0) :
    toSResult w = plain ((cellAt A (64 * r0.val + c0.val)).setWidth 64) := by
  rw [toSResult_plain hA, hins]
  rfl

theorem toSResult_fold {h : Hd} {x : VExt} {s : SReg} {a : VReg} {op : BitVec 3} (hins : w.ins = .vrred h x (.s s) a op) :
    toSResult w = plain (nat64 (roundTo (fpOf x.f.toNat) false .rne (folded (fpOf x.f.toNat) op.toNat (modeOfWave x w)
      ((List.range 16).flatMap fun r => rowVals w (fpOf x.f.toNat) A r 64)) % 2 ^ 32)) := by
  have hword (k : Nat) : (BitVec.ofNat 32 k).setWidth 64 = nat64 (k % 2 ^ 32) :=
    BitVec.eq_of_toNat_eq (by simp [nat64])
  rw [toSResult_plain hA, hins, ← hword, ← masked_register]
  exact congrArg (fun z : Word32 => plain (z.setWidth 64)) (foldCells_eq_folded ..)

/-- `rtcnt` adds the masked-in values below 256, row by row. -/
theorem countVals_eq : countVals w = ((List.range 1024).filter fun k =>
    (gathBits w (k % 64)).getLsbD (k / 64) && decide ((cellAt A k).toNat < 256)).map fun k => (cellAt A k).toNat := by
  have hbit : ∀ k ∈ List.range 1024, (cellAt (gathMask w) k != 0) = (gathBits w (k % 64)).getLsbD (k / 64) := by
    intro k hk
    have hlt := List.mem_range.1 hk
    rw [← gathMask_bit (by omega) (by omega), Nat.div_add_mod]
  have hfilter : countVals w = ((List.range 1024).filter fun k =>
      cellAt (gathMask w) k != 0 && decide ((cellAt A k).toNat < 256)).map fun k => (cellAt A k).toNat := by
    unfold countVals
    rw [hA]
    generalize List.range 1024 = ks
    exact (map_filter_eq_filterMap ..).symm
  rw [hfilter]
  exact congrArg (List.map _) (List.filter_congr fun k hk => by rw [hbit k hk])

end

/-! ## Rotary positions (R188) -/

/-- A pair of cells without a NaN turned by a finite angle. -/
theorem ropePair_turns {x : VExt} {e : CEnv} {a0 a1 p f : Word32} {sn cs : FVal}
    (hturn : sinCosNum (mulNum (numInt p.toInt) (cellF fp32 f)) = some (sn, cs))
    (h0 : (cellF fp32 a0).isNan = false) (h1 : (cellF fp32 a1).isNan = false) :
    let m := rndMode x.rnd e
    ropePair x e a0 a1 p f = (outF fp32 x.sat m (addNum m (mulNum (cellF fp32 a0) cs) (mulNum (cellF fp32 a1) sn).neg),
      outF fp32 x.sat m (addNum m (mulNum (cellF fp32 a0) sn) (mulNum (cellF fp32 a1) cs))) := by
  simp [ropePair, hturn, h0, h1]

/-- The writes of a pair of columns whose operands hold one value each. -/
theorem pairWrites_plain {w : Wave} {h : Hd} {x : VExt} {d a b y : VReg} {sh : VShape} {c : Nat} {A0 A1 P F D0 D1 : Cells}
    (hins : w.ins = .vrope h x d a b y) (hsh : vShape w.ins = some sh) (hout : w.out = [])
    (hA0 : gathSlice w 0 (c - 1) = plain A0) (hA1 : gathSlice w 0 c = plain A1) (hP : gathSlice w 1 (c - 1) = plain P)
    (hF : gathSlice w 2 (c - 1) = plain F) (hD0 : gathSlice w gathD (c - 1) = plain D0) (hD1 : gathSlice w gathD c = plain D1) :
    let turned (r : Nat) : Word32 × Word32 := ropePair x (waveEnv w) (cellAt A0 r) (cellAt A1 r) (cellAt P r) (cellAt F r)
    (pairWrites w sh c).map SliceWrite.res = [plain (maskCells (gathBits w (c - 1)) D0 (mkSlice fun r => (turned r).1)),
      plain (maskCells (gathBits w c) D1 (mkSlice fun r => (turned r).2))] := by
  have hdst : waveTgt sh.dst = some (.v d) := by
    rw [hins] at hsh
    rw [← Option.some.inj hsh]
    rfl
  have hops (D : Cells) : pairAll [plain D, plain A0, plain A1, plain P, plain F] = plain [D, A0, A1, P, F] :=
    pairAll_plain [D, A0, A1, P, F]
  have hres {α : Type} (z : Alts α) : resolveAll w.out z = z := by rw [hout]; rfl
  simp only [pairWrites, hdst, hins, hres, hA0, hA1, hP, hF, hD0, hD1, hops, mapAlts_plain]
  rfl

/-- Settles O23: each move, fold, packing and turn at one cell, from the one value that each operand holds. -/
theorem vectorRows : Obligations.VectorRows := by
  unfold Obligations.VectorRows
  refine ⟨?slices, ?registers, ?turns⟩
  case slices =>
    intro m w h x d a r0 rot op c row A D S hqp hrow _ ha hd hs hout f old by_
    have P : PlainOperands m w h c row d a a a A A A D S := ⟨hqp, hrow, ha, ha, ha, hd, hs, hout⟩
    have hby : by_ = rotBy rot (cellAt S 0) 16 := by cases rot <;> rfl
    rw [hby]
    exact ⟨P.gives_columnBroadcast r0, P.gives_columnRotation rot, fun _ => P.gives_columnFold op⟩
  case registers =>
    intro w h x d a b s r0 c0 rot op cv pt row col A B S _ hrow hcol hA hB hs hout f mo at_ by_ inMask vals rowGives
    have G : GatheredOperands w row col A B S := ⟨hrow, hcol, hA, hB, hs, hout⟩
    have hby : by_ = rotBy rot (cellAt S 0) 64 := by cases rot <;> rfl
    rw [hby]
    refine ⟨G.gives_rowBroadcast c0, G.gives_rowRotation rot, G.gives_permutation, G.gives_transpose,
      fun _ => ⟨G.gives_rowFold, G.gives_rowScan, toSResult_fold hA⟩, toSResult_extract hA, fun _ => countVals_eq hA, ?packed⟩
    case packed =>
      intro wd per hwp
      have hper : 32 / wd = per := by
        simp only [List.mem_cons, Prod.mk.injEq, List.not_mem_nil, or_false] at hwp
        rcases hwp with ⟨rfl, rfl⟩ | ⟨rfl, rfl⟩ <;> rfl
      refine ⟨fun hk hwd hmx => ?_, fun hk hf hr hwd hmx => ?_⟩
      · exact G.gives_row1 rfl rfl (cellAt_unpackReg hrow hcol hk A pt.val hmx hwd hper)
      · refine G.gives_row2 (vpack_shape hk hmx) rfl ((cellAt_packReg hrow hcol hk A B hmx hf hr hwd hper).trans ?_)
        subst hwd
        rfl
  case turns =>
    intro w h x d a b y sh c row A0 A1 P F D0 D1 sn cs hins hsh hout hrow _ _ hA0 hA1 hP hF hD0 hD1 v mo out h0 h1 hturn
    have hcell (z : Cells) : cellF fp32 (cellAt z row) = v z := by
      show decodeFp fp32 true _ = decodeFp fp32 true _
      rw [Nat.mod_eq_of_lt]
      exact (cellAt z row).isLt
    have hpair := ropePair_turns (x := x) (e := waveEnv w) (a0 := cellAt A0 row) (a1 := cellAt A1 row) (by rw [hcell]; exact hturn)
      (by rw [hcell]; exact h0) (by rw [hcell]; exact h1)
    simp only [hcell] at hpair
    refine ⟨_, _, pairWrites_plain hins hsh hout hA0 hA1 hP hF hD0 hD1, ?_, ?_⟩
    · rw [cellAt_maskCells _ _ _ hrow, cellAt_mkSlice _ hrow]
      simp only [hpair]
      rfl
    · rw [cellAt_maskCells _ _ _ hrow, cellAt_mkSlice _ hrow]
      simp only [hpair]
      rfl

end Sys2Proof.Proofs
end

