-- ==== Sys2Proof/Proofs/MatrixMoves.lean ====
section
/-! SUPPORT and PROOF. `mret`, `mload`, `mzero`, `mwake` and `mmode`: what each leaves of the matrix array as it issues (R192, R193,
R200, R203, R208, R209). -/

namespace Sys2Proof.Proofs

open Sys2Proof Sys2Proof.Machine Sys2Proof.Laws Sys2Proof.Claims

variable {s : State} {l : Lane} {n : Nat} {h : Hd} {st : SReg}

/-! ## An effect on one member -/

/-- An M instruction whose effect is a change of its member leaves the array and the registers as that change makes them. -/
theorem memberEffect_ready {i : Instr} {f : Nat → Member → MNeeds} {g : State → Nat → Member → Member}
    (hi : exec i s = mLane s fun l => mIssue s l h st f fun s n => .ok (updMem s n (g s n))) (hr : MReady s l n h st (f n (mem s n)))
    (hg : ∀ m, mParts (g (setMem s n (mem s n)) n m) = mParts m) :
    ∃ t, exec i s = .next t ∧ MLeaves s t n l (f n (mem s n)).occ ∧ (mem t n).mat = (g (setMem s n (mem s n)) n (mem s n)).mat ∧
      (mem t n).regs = (g (setMem s n (mem s n)) n (mem s n)).regs := by
  have ⟨hl, hw, _⟩ := hr
  refine ⟨_, hi.trans (mLane_go hl (mIssue_ready hr rfl)), mLeaves_of_mView hw ((mView_updMem hg ..).trans (mView_setMem ..)) _, ?_, ?_⟩
  · rw [issued_mat hw, mem_updMem_same, mem_setMem_same]
  · rw [retire_regs hw, mem_updMem_same, mem_updMem_same, mem_setMem_same]
    rfl

/-! ## Uses and wakes of sub-arrays (R202) -/

theorem useSubs_mat (m : Member) (ks : List Nat) (last : Nat) : ∃ u, (useSubs m ks last).mat = { m.mat with sub := u } := by
  induction ks generalizing m with
  | nil => exact ⟨m.mat.sub, rfl⟩
  | cons k r ih => exact ih _

theorem startWake_mat (cal : Nat) (m : Member) (k : Nat) : ∃ u, (startWake cal m k).mat = { m.mat with sub := u } := by
  unfold startWake
  dsimp only
  split
  · exact ⟨_, rfl⟩
  · exact ⟨_, rfl⟩

theorem startWakes_acc (cal : Nat) (m : Member) (ks : List Nat) : (ks.foldl (startWake cal) m).mat.acc = m.mat.acc := by
  refine foldl_keeps (fun m => m.mat.acc) (fun m k => ?_) ks m
  obtain ⟨u, hu⟩ := startWake_mat cal m k
  rw [hu]

theorem subOf_congr {m m' : Member} (hm : m.mat = m'.mat) (k : Nat) : subOf m k = subOf m' k := by simp only [subOf, hm]

theorem subOf_setSub (m : Member) (j k : Nat) (x : SubArray) : subOf (setSub m j x) k = if k = j then x else subOf m k := tget_tput ..

/-- A use of sub-arrays starts and ends no wake. -/
theorem useSubs_waking (m : Member) (ks : List Nat) (last k : Nat) : (subOf (useSubs m ks last) k).waking = (subOf m k).waking := by
  refine foldl_keeps (fun m => (subOf m k).waking) (fun m j => ?_) ks m
  dsimp only
  rw [subOf_setSub]
  split
  · rename_i hk
    rw [hk]
  · rfl

theorem startWake_other {cal : Nat} {m : Member} {j k : Nat} (hk : k ≠ j) : subOf (startWake cal m j) k = subOf m k := by
  unfold startWake
  dsimp only
  split
  · exact (subOf_setSub ..).trans (if_neg hk)
  · rfl

/-- A wake under way is not started again. -/
theorem startWakes_waking {cal w : Nat} {m : Member} {k : Nat} (hw : (subOf m k).waking = some w) (ks : List Nat) :
    (subOf (ks.foldl (startWake cal) m) k).waking = some w := by
  induction ks generalizing m with
  | nil => exact hw
  | cons j r ih =>
    refine ih ?_
    by_cases hk : k = j
    · simp [← hk, startWake, hw]
    · rwa [startWake_other hk]

/-- A sleeping sub-array named by a wake is awake 64 ticks later. -/
theorem startWakes_starts {cal : Nat} {m : Member} {k : Nat} (ha : (subOf m k).asleep = true) (hw : (subOf m k).waking = none)
    {ks : List Nat} (hk : k ∈ ks) : (subOf (ks.foldl (startWake cal) m) k).waking = some (cal + 64) := by
  induction ks generalizing m with
  | nil => cases hk
  | cons j r ih =>
    by_cases hj : k = j
    · refine startWakes_waking ?_ r
      have hstart : startWake cal m j = count (setSub m j { subOf m j with waking := some (cal + 64), idle := m.ctl.gc }) 0x03e :=
        if_pos (by simp [← hj, ha, hw])
      rw [hstart, hj]
      exact congrArg SubArray.waking (subOf_setSub_same ..)
    · exact ih (by rwa [startWake_other hj]) (by rwa [startWake_other hj]) ((List.mem_cons.1 hk).resolve_left hj)

/-! ## Tiles loaded and tagged (R192, R208) -/

/-- The array once tiles have been loaded and tagged, one after the other. -/
def withTiles (F : Mat → Nat → Tab Word) (ts : List Nat) (x : Mat) : Mat := ts.foldl (fun x t => setTag (setAcc x t (F x t)) t) x

section
variable {x : Mat} {F : Mat → Nat → Tab Word} {ts : List Nat} {k t : Nat}

theorem accTile_setAcc_self (x : Mat) (t : Nat) (v : Tab Word) : accTile (setAcc x t v) t = if t % 4 < x.acc.length then v else [] := by
  by_cases ht : t % 4 < x.acc.length <;> simp [accTile, setAcc, ht]

theorem accTile_setAcc_ne (hk : t % 4 ≠ k % 4) (v : Tab Word) : accTile (setAcc x t v) k = accTile x k := by
  simp [accTile, setAcc, List.getD, List.getElem?_set_ne hk]

theorem tagOk_setTag_self (x : Mat) (t : Nat) : tagOk (setTag x t) t = true := by simp [tagOk, setTag]

theorem tagOk_setTag_ne (hk : t % 4 ≠ k % 4) : tagOk (setTag x t) k = tagOk x k := by
  simp [tagOk, setTag, tget_tput_ne _ _ _ hk.symm]

/-- A tile in no accumulator of those loaded stays as it was. -/
theorem withTiles_other (hk : ∀ t ∈ ts, t % 4 ≠ k % 4) :
    accTile (withTiles F ts x) k = accTile x k ∧ tagOk (withTiles F ts x) k = tagOk x k := by
  induction ts generalizing x with
  | nil => exact ⟨rfl, rfl⟩
  | cons t r ih =>
    obtain ⟨ht, hr⟩ := List.forall_mem_cons.1 hk
    obtain ⟨hacc, htag⟩ := ih (x := setTag (setAcc x t (F x t)) t) hr
    exact ⟨hacc.trans (accTile_setAcc_ne ht _), htag.trans (tagOk_setTag_ne ht)⟩

/-- Each tile loaded holds its data and is tagged, where no two share an accumulator. -/
theorem withTiles_mem (hF : ∀ x k v t, F (setTag (setAcc x k v) k) t = F x t) (hd : ts.Pairwise fun a b => a % 4 ≠ b % 4) (ht : t ∈ ts) :
    tagOk (withTiles F ts x) t = true ∧ accTile (withTiles F ts x) t = if t % 4 < x.acc.length then F x t else [] := by
  induction ts generalizing x with
  | nil => cases ht
  | cons u r ih =>
    obtain ⟨hu, hr⟩ := List.pairwise_cons.1 hd
    rcases List.mem_cons.1 ht with rfl | htr
    · obtain ⟨hacc, htag⟩ := withTiles_other (F := F) (x := setTag (setAcc x t (F x t)) t) (k := t) fun v hv => (hu v hv).symm
      exact ⟨htag.trans (tagOk_setTag_self ..), hacc.trans (accTile_setAcc_self ..)⟩
    · obtain ⟨htag, hacc⟩ := ih (x := setTag (setAcc x u (F x u)) u) hr htr
      refine ⟨htag, hacc.trans ?_⟩
      rw [hF]
      simp [setTag, setAcc]

end

theorem mem_tilesOf {tl : Fin 16} {nt : Fin 4} {i : Nat} (hi : i ≤ nt.val) : tl.val + i ∈ tilesOf tl nt :=
  List.mem_map.2 ⟨i, List.mem_range.2 (by omega), rfl⟩

/-- The tiles an instruction names stand in accumulators of their own: they are at most four in a row. -/
theorem tilesOf_distinct (tl : Fin 16) (nt : Fin 4) : (tilesOf tl nt).Pairwise fun a b => a % 4 ≠ b % 4 := by
  refine List.pairwise_map.2 (List.Pairwise.imp_of_mem (fun {a b} ha hb hlt => ?_) List.pairwise_lt_range)
  have := List.mem_range.1 hb
  have := nt.isLt
  omega

/-- `mload` and `mzero` leave the array with their tiles loaded, but for the use of its sub-arrays. -/
theorem loaded_tile {F : Mat → Nat → Tab Word} {tl : Fin 16} {nt : Fin 4} {x y : Mat} (hF : ∀ x k v t, F (setTag (setAcc x k v) k) t = F x t)
    (hy : ∃ u, y = { withTiles F (tilesOf tl nt) x with sub := u }) {i : Nat} (hi : i ≤ nt.val) :
    tagOk y (tl.val + i) = true ∧ accTile y (tl.val + i) = if (tl.val + i) % 4 < x.acc.length then F x (tl.val + i) else [] := by
  obtain ⟨u, rfl⟩ := hy
  exact withTiles_mem hF (tilesOf_distinct tl nt) (mem_tilesOf hi)

/-! ## The instructions -/

theorem mret_sends {tl : Fin 16} {nt : Fin 4} (hr : MReady s l n h st (mretNeeds tl nt (mem s n))) :
    ∃ t, exec (.mret h st tl nt) s = .next t ∧ MLeaves s t n l (moveOcc (mem s n).mat nt) ∧ (mem t n).mat.acc = (mem s n).mat.acc ∧
      (mem t n).mat.tags = (mem s n).mat.tags ∧ (mem t n).mat.cbw = (mem s n).mat.cbw ++
        [((mem s n).ctl.gc + moveOcc (mem s n).mat nt + 15, (tilesOf tl nt).flatMap (tileCells (mem s n).mat))] := by
  obtain ⟨t, hexec, hleaves, hmat, -⟩ := memberEffect_ready (f := fun _ m => mretNeeds tl nt m) (i := .mret h st tl nt) rfl hr
    fun m => mParts_useSubs ..
  obtain ⟨u, hu⟩ := useSubs_mat (pushCb (mem s n) ((mem s n).ctl.gc + moveOcc (mem s n).mat nt + 15)
    ((tilesOf tl nt).flatMap (tileCells (mem s n).mat))) allSubs ((mem s n).ctl.gc + moveOcc (mem s n).mat nt - 1)
  have hmat' := hmat.trans hu
  exact ⟨t, hexec, hleaves, by rw [hmat']; rfl, by rw [hmat']; rfl, by rw [hmat']; rfl⟩

theorem mload_loads {tl : Fin 16} {nt : Fin 4} (hr : MReady s l n h st (mloadNeeds tl nt (mem s n))) :
    ∃ t, exec (.mload h st tl nt) s = .next t ∧ MLeaves s t n l (moveOcc (mem s n).mat nt) ∧ ∃ u, (mem t n).mat =
      { withTiles (fun x => loadTile x (cbSeen (mem s n))) (tilesOf tl nt) (mem s n).mat with sub := u } := by
  obtain ⟨t, hexec, hleaves, hmat, -⟩ := memberEffect_ready (f := fun _ m => mloadNeeds tl nt m) (i := .mload h st tl nt) rfl hr
    fun m => mParts_useSubs ..
  obtain ⟨u, hu⟩ := useSubs_mat { mem s n with mat := withTiles (fun x => loadTile x (cbSeen (mem s n))) (tilesOf tl nt) (mem s n).mat }
    allSubs ((mem s n).ctl.gc + moveOcc (mem s n).mat nt - 1)
  exact ⟨t, hexec, hleaves, u, hmat.trans hu⟩

theorem mzero_clears {tl : Fin 16} {nt : Fin 4} (hr : MReady s l n h st (mzeroNeeds tl nt)) :
    ∃ t, exec (.mzero h st tl nt) s = .next t ∧ MLeaves s t n l 1 ∧ ∃ u, (mem t n).mat =
      { withTiles (fun _ _ => []) (tilesOf tl nt) (mem s n).mat with sub := u } := by
  obtain ⟨t, hexec, hleaves, hmat, -⟩ := memberEffect_ready (f := fun _ _ => mzeroNeeds tl nt) (i := .mzero h st tl nt) rfl hr
    fun m => mParts_useSubs ..
  obtain ⟨u, hu⟩ := useSubs_mat { mem s n with mat := withTiles (fun _ _ => []) (tilesOf tl nt) (mem s n).mat } allSubs (mem s n).ctl.gc
  exact ⟨t, hexec, hleaves, u, hmat.trans hu⟩

theorem mwake_wakes {mask : BitVec 16} (hr : MReady s l n h st (MNeeds.plain 1 true)) :
    ∃ t, exec (.mwake h st mask) s = .next t ∧ MLeaves s t n l 1 ∧ (mem t n).mat.acc = (mem s n).mat.acc ∧
      ∀ k, k < 16 → mask.getLsbD k = true → (subOf (mem s n) k).asleep = true → (subOf (mem s n) k).waking = none →
        (subOf (mem t n) k).waking = some (s.cal + 64) := by
  obtain ⟨t, hexec, hleaves, hmat, -⟩ := memberEffect_ready (f := fun _ _ => MNeeds.plain 1 true) (i := .mwake h st mask) rfl hr
    fun m => (mParts_useSubs ..).trans (mParts_startWakes ..)
  refine ⟨t, hexec, hleaves, ?_, fun k hk hbit ha hw => ?_⟩
  · rw [hmat, useSubs_acc, startWakes_acc]
  · rw [subOf_congr hmat, useSubs_waking]
    exact startWakes_starts ha hw (List.mem_filter.2 ⟨List.mem_range.2 hk, hbit⟩)

theorem mmode_sets {f64 : Bool} {rm : BitVec 3} (hrm : rm.toNat < 4) (hr : MReady s l n h st (MNeeds.plain 1 true)) :
    ∃ t, exec (.mmode h st f64 rm) s = .next t ∧ MLeaves s t n l 1 ∧ (mem t n).mat =
      if (mem s n).mat.f64 = f64 then { (mem s n).mat with rm := rm, f64 := f64 }
      else { (mem s n).mat with rm := rm, f64 := f64, acc := [[], [], [], []], tags := [] } := by
  have hneeds : MNeeds.plain 1 (decide (rm.toNat < 4)) = MNeeds.plain 1 true := by rw [decide_eq_true hrm]
  obtain ⟨t, hexec, hleaves, hmat, -⟩ := memberEffect_ready (f := fun _ _ => MNeeds.plain 1 (decide (rm.toNat < 4)))
    (i := .mmode h st f64 rm) rfl (by rwa [hneeds]) fun m => rfl
  exact ⟨t, hexec, hleaves, hmat⟩

/-- Settles O26: each instruction by what it leaves of the array. -/
theorem matrixMoves : Obligations.MatrixMoves := by
  unfold Obligations.MatrixMoves
  intro s l n h st tl nt f64 rm mask
  refine ⟨mret_sends, fun hr hacc => ?load, fun hr => ?zero, fun hr => ⟨mwake_wakes hr, fun hrm => ?mode⟩⟩
  case load =>
    obtain ⟨t, hexec, hleaves, hmat⟩ := mload_loads hr
    refine ⟨t, hexec, hleaves, fun i hi => ?_⟩
    obtain ⟨htag, htile⟩ := loaded_tile (fun _ _ _ _ => rfl) hmat hi
    exact ⟨htag, htile.trans (if_pos (by omega))⟩
  case zero =>
    obtain ⟨t, hexec, hleaves, hmat⟩ := mzero_clears hr
    refine ⟨t, hexec, hleaves, fun i hi => ?_⟩
    obtain ⟨htag, htile⟩ := loaded_tile (fun _ _ _ _ => rfl) hmat hi
    exact ⟨htag, fun k => by rw [htile, ite_self]; rfl⟩
  case mode =>
    obtain ⟨t, hexec, hleaves, hmat⟩ := mmode_sets hrm hr
    refine ⟨t, hexec, hleaves, ?_⟩
    rw [hmat]
    by_cases hf : f64 = (mem s n).mat.f64
    · simp [hf]
    · simp [hf, Ne.symm hf]

end Sys2Proof.Proofs
end

