-- ==== Sys2Proof/Proofs/MatrixTicks.lean ====
section
/-! SUPPORT and PROOF. What happens in the M column beside issue: the end of an occupancy, a write to CB, a wake that completes, a
sub-array that falls asleep (R199 to R202). -/

namespace Sys2Proof.Proofs

open Sys2Proof Sys2Proof.Machine Sys2Proof.Laws Sys2Proof.Claims

variable {s : State} {n : Nat}

/-! ## Tile slots set empty (R44, R199) -/

theorem slotFull_putSlot_same (m : Member) (b k : Nat) (f : Bool) : slotFull (putSlot m b k f) b k = f := by
  by_cases hb : b = 1 <;> simp [slotFull, putSlot, hb]

/-- A slot set empty fills no other. -/
theorem slotFull_putSlot_empty {m : Member} {b k : Nat} (c j : Nat) (hk : slotFull m b k = false) :
    slotFull (putSlot m c j false) b k = false := by
  unfold slotFull putSlot at *
  by_cases hb : b = 1 <;> by_cases hc : c = 1 <;> simp_all [tget_tput]

/-- What the turn of a tile slot leaves as it was, but for the slots of its member. -/
def slotView (n : Nat) (s : State) := ((mem s n).regs, (mem s n).mat, (mem s n).buf.wbFull, (mem s n).buf.abFull, s.dmem)

theorem slotView_dropTfPins (s : State) (n b slot : Nat) : slotView n (dropTfPins s n b slot) = slotView n s := by
  refine (foldl_keeps (f := fun s l => unpinLine (siteCtx _ n) s (l % 2 ^ 38)) (slotView n) (fun s l => rfl) _ _).trans ?_
  split
  · rfl
  · simp only [slotView, mem_setMem_same, setMem_dmem]

theorem slotView_turnSlot (s : State) (n b slot : Nat) (clk : Clock) :
    slotView n (turnSlot s n b slot false clk) = slotView n (updMem s n fun m => putSlot m b slot false) := by
  refine (slotView_dropTfPins ..).trans ?_
  simp only [slotView, release, mem, updMem, setMem, tget_tput_same]

/-- An M instruction that is over has set its slots empty, and touched neither the array nor the registers. -/
theorem turnSlots_empty (rels : List (Nat × Nat)) (clk : Clock) (s : State) :
    let u := rels.foldl (fun s p => turnSlot s n p.1 p.2 false clk) s
    (mem u n).regs = (mem s n).regs ∧ (mem u n).mat = (mem s n).mat ∧ u.dmem = s.dmem ∧
      ∀ b k, slotFull (mem s n) b k = false ∨ (b, k) ∈ rels → slotFull (mem u n) b k = false := by
  induction rels generalizing s with
  | nil => exact ⟨rfl, rfl, rfl, fun b k h => h.resolve_right List.not_mem_nil⟩
  | cons p r ih => 
    obtain ⟨hregs, hmat, hdmem, hslots⟩ := ih (turnSlot s n p.1 p.2 false clk)
    have hview := slotView_turnSlot s n p.1 p.2 clk
    simp only [slotView, mem_updMem_same, updMem_dmem, Prod.mk.injEq] at hview
    obtain ⟨hr, hm, hw, ha, hd⟩ := hview
    have hfull (b k : Nat) : slotFull (mem (turnSlot s n p.1 p.2 false clk) n) b k = slotFull (putSlot (mem s n) p.1 p.2 false) b k := by
      simp only [slotFull, hw, ha]
    refine ⟨hregs.trans hr, hmat.trans hm, hdmem.trans hd, fun b k h => hslots b k ?_⟩
    rw [hfull]
    rcases h with hk | hk
    · exact .inl (slotFull_putSlot_empty _ _ hk)
    · rcases List.mem_cons.1 hk with rfl | hk
      · exact .inl (slotFull_putSlot_same ..)
      · exact .inr hk

/-! ## The events -/

/-- The end of the one occupancy under way: what the instruction does, then its slots. -/
theorem matEnd_one {o : MatOp} (hrun : columnsRun (mem s n) = true) (hops : (mem s n).mat.ops = [o]) (hstop : o.stop ≤ (mem s n).ctl.gc) :
    matEnd n s = o.rels.foldl (fun u p => turnSlot u n p.1 p.2 false (clockOf s (agentNo n 0)))
      (setMem s n (opEnd { mem s n with mat := { (mem s n).mat with ops := [] } } o)) := by
  simp [matEnd, hrun, hops, hstop]

/-- The one write to CB in flight comes due, and no later agent of R300 has written its chunks in this tick. -/
theorem cbWrite_one {g : Nat} {cells : List Host.Cell} (hrun : columnsRun (mem s n) = true) (hcbw : (mem s n).mat.cbw = [(g, cells)])
    (hg : g ≤ (mem s n).ctl.gc) (hord : ∀ c ∈ cells, tget 0 (mem s n).buf.order (badKey 3 c.1) ≤ 2) :
    cbWrite n s = setMem s n { mem s n with
      mat := { (mem s n).mat with cbw := [] }
      buf := { (mem s n).buf with cb := overlayAll (mem s n).buf.cb cells, bad := clearBad 3 cells (mem s n).buf.bad } } := by
  have hall : cells.filter (fun c => tget 0 (mem s n).buf.order (badKey 3 c.1) ≤ 2) = cells :=
    List.filter_eq_self.2 fun c hc => decide_eq_true (hord c hc)
  simp [cbWrite, hrun, hcbw, hg, hall]

/-- A change of one sub-array keeps the member's registers, device memory and the other sub-arrays. -/
theorem updSub_keeps (s : State) (n : Nat) (k : Fin 16) (x : SubArray) :
    Keeps s (updMem s n fun m => setSub m k x) n ∧ subOf (mem (updMem s n fun m => setSub m k x) n) k = x ∧
      ∀ j : Fin 16, j ≠ k → subOf (mem (updMem s n fun m => setSub m k x) n) j = subOf (mem s n) j := by
  rw [Keeps, mem_updMem_same]
  exact ⟨⟨rfl, rfl⟩, subOf_setSub_same .., fun j hj => (subOf_setSub ..).trans (if_neg fun e => hj (Fin.ext e))⟩

theorem wakeStep_due {k : Fin 16} {w : Nat} (hw : (subOf (mem s n) k).waking = some w) (hdue : w ≤ s.cal) :
    wakeStep n k s = updMem s n fun m => setSub m k { subOf (mem s n) k with asleep := false, waking := none } := by
  simp [wakeStep, updMem, hw, hdue]

theorem sleepStep_due {k : Fin 16} (hrun : groupRuns (mem s n) = true) (hsleep : (mem s n).ctl.sleep ≠ 0)
    (hawake : (subOf (mem s n) k).asleep = false) (hidle : (subOf (mem s n) k).idle + (mem s n).ctl.sleep ≤ (mem s n).ctl.gc) :
    sleepStep n k s = updMem s n fun m => setSub m k { subOf (mem s n) k with asleep := true } := by
  simp [sleepStep, updMem, hrun, hsleep, hawake, hidle]

/-- Settles O43: each event by the state it leaves. -/
theorem matrixTicks : Obligations.MatrixTicks := by
  unfold Obligations.MatrixTicks
  intro s n g k o cells
  refine ⟨fun hrun hcbw hg hord => ?write, fun h st fa fb tl nt hrun hops hins hstop _ => ?ends, fun w hw hdue => ?wakes,
    fun hrun hsleep hawake hidle => ?sleeps⟩
  case write =>
    refine ⟨_, congrArg Host.Outcome.next (cbWrite_one hrun hcbw hg hord), ?_⟩
    dsimp only [Keeps]
    rw [mem_setMem_same]
    exact ⟨⟨rfl, rfl⟩, rfl, rfl, rfl, rfl, rfl⟩
  case ends =>
    have hend : opEnd { mem s n with mat := { (mem s n).mat with ops := [] } } o =
        { mem s n with mat := macEnd { (mem s n).mat with ops := [] } o } := by simp only [opEnd, hins]
    have hstep := matEnd_one hrun hops hstop
    rw [hend] at hstep
    obtain ⟨hregs, hmat, hdmem, hslots⟩ := turnSlots_empty (n := n) o.rels (clockOf s (agentNo n 0))
      (setMem s n { mem s n with mat := macEnd { (mem s n).mat with ops := [] } o })
    rw [mem_setMem_same] at hregs hmat
    exact ⟨_, congrArg Host.Outcome.next hstep, ⟨hregs, hdmem⟩, hmat, fun p hp => hslots _ _ (.inr hp)⟩
  case wakes =>
    obtain ⟨hkeeps, hself, hothers⟩ := updSub_keeps s n k { subOf (mem s n) k with asleep := false, waking := none }
    exact ⟨_, congrArg Host.Outcome.next (wakeStep_due hw hdue), hkeeps, by rw [hself], by rw [hself], hothers⟩
  case sleeps =>
    obtain ⟨hkeeps, hself, hothers⟩ := updSub_keeps s n k { subOf (mem s n) k with asleep := true }
    exact ⟨_, congrArg Host.Outcome.next (sleepStep_due hrun hsleep hawake hidle), hkeeps, by rw [hself], hothers⟩

end Sys2Proof.Proofs
end

