-- ==== Sys2Proof/Proofs/Streams.lean ====
section
/-! SUPPORT and PROOF. Stream registers: `sset`, `sadv` and `sget` (R195, R210, R211). -/

namespace Sys2Proof.Proofs

open Sys2Proof Sys2Proof.Machine Sys2Proof.Laws Sys2Proof.Claims

variable {s : State} {l : Lane} {n : Nat} {h : Hd} {st : SReg} {fa : AReg}

/-! ## Stream registers -/

theorem aReg_setA_same (m : Member) (a : AReg) (v : BitVec 256) : aReg (setA m a v) a = v := tget_tput_same ..

theorem aReg_setA_ne (m : Member) {a x : AReg} (hx : x ≠ a) (v : BitVec 256) : aReg (setA m a v) x = aReg m x :=
  tget_tput_ne _ _ _ fun e => hx (Fin.ext e)

theorem aReg_congr {m m' : Member} (hm : m.regs = m'.regs) (a : AReg) : aReg m a = aReg m' a := by simp only [aReg, hm]

/-! ## Fields (R195) -/

/-- A field of a number replaced: what stands below it, in it and above it. -/
theorem replaceField (v x lo w : Nat) :
    let u := v - v / 2 ^ lo % 2 ^ w * 2 ^ lo + x % 2 ^ w * 2 ^ lo
    u % 2 ^ lo = v % 2 ^ lo ∧ u / 2 ^ lo % 2 ^ w = x % 2 ^ w ∧ u / 2 ^ (lo + w) = v / 2 ^ (lo + w) := by
  intro u
  have hA : 0 < 2 ^ lo := Nat.two_pow_pos lo
  have hx : x % 2 ^ w < 2 ^ w := Nat.mod_lt _ (Nat.two_pow_pos w)
  have hv : v = v % 2 ^ lo + 2 ^ lo * (v / 2 ^ lo % 2 ^ w + 2 ^ w * (v / 2 ^ (lo + w))) := by
    rw [Nat.pow_add, ← Nat.div_div_eq_div_mul, Nat.mod_add_div, Nat.mod_add_div]
  have hu : u = v % 2 ^ lo + 2 ^ lo * (x % 2 ^ w + 2 ^ w * (v / 2 ^ (lo + w))) := by
    have hsub : v - v / 2 ^ lo % 2 ^ w * 2 ^ lo = v % 2 ^ lo + 2 ^ lo * (2 ^ w * (v / 2 ^ (lo + w))) := by
      refine Nat.sub_eq_of_eq_add (hv.trans ?_)
      ring
    simp only [u, hsub]
    ring
  have hdiv : u / 2 ^ lo = x % 2 ^ w + 2 ^ w * (v / 2 ^ (lo + w)) := by
    rw [hu, Nat.add_mul_div_left _ _ hA, Nat.div_eq_of_lt (Nat.mod_lt _ hA), Nat.zero_add]
  refine ⟨by rw [hu, Nat.add_mul_mod_self_left, Nat.mod_mod], ?_, ?_⟩
  · rw [hdiv, Nat.add_mul_mod_self_left, Nat.mod_mod]
  · rw [Nat.pow_add, ← Nat.div_div_eq_div_mul, hdiv, Nat.add_mul_div_left _ _ (Nat.two_pow_pos w), Nat.div_eq_of_lt hx, Nat.zero_add,
      Nat.pow_add]

/-- A stream register with a field replaced: what stands below it, in it and above it. -/
theorem setSField_parts (v : BitVec 256) (x : Nat) {hi lo w : Nat} (hw : hi - lo + 1 = w) (hfit : lo + w ≤ 256) :
    (setSField v hi lo x).toNat % 2 ^ lo = v.toNat % 2 ^ lo ∧ (setSField v hi lo x).toNat / 2 ^ lo % 2 ^ w = x % 2 ^ w ∧
      (setSField v hi lo x).toNat / 2 ^ (lo + w) = v.toNat / 2 ^ (lo + w) := by
  have hparts := replaceField v.toNat x lo w
  have hsmall : v.toNat - v.toNat / 2 ^ lo % 2 ^ w * 2 ^ lo + x % 2 ^ w * 2 ^ lo < 2 ^ 256 := by
    obtain ⟨-, -, hhigh⟩ := hparts
    have hpow : 2 ^ 256 = 2 ^ (256 - (lo + w)) * 2 ^ (lo + w) := by rw [← Nat.pow_add, Nat.sub_add_cancel hfit]
    rw [hpow, ← Nat.div_lt_iff_lt_mul (Nat.two_pow_pos _), hhigh, Nat.div_lt_iff_lt_mul (Nat.two_pow_pos _), ← hpow]
    exact v.isLt
  have hnat : (setSField v hi lo x).toNat = v.toNat - v.toNat / 2 ^ lo % 2 ^ w * 2 ^ lo + x % 2 ^ w * 2 ^ lo := by
    rw [setSField, sField, bits, hw, BitVec.toNat_ofNat, Nat.mod_eq_of_lt hsmall]
  rw [hnat]
  exact hparts

/-- A 16-bit stride sign-extended to 24 bits counts as itself modulo 2^24. -/
theorem signExtend_stride (d : BitVec 16) : (((d.signExtend 24).toNat : Nat) : Int) = d.toInt % 2 ^ 24 := by
  rw [BitVec.signExtend, BitVec.toNat_ofInt, Int.toNat_of_nonneg (Int.emod_nonneg _ (by decide))]
  rfl

/-- `sadv`: base and scale base have moved by their strides, and no other bit (R210). -/
theorem advance1_fields (a : BitVec 256) :
    let v := a.toNat
    let u := (advance1 a).toNat
    u % 2 ^ 32 = (v + v / 2 ^ 184) % 2 ^ 32 ∧ u / 2 ^ 32 % 2 ^ 104 = v / 2 ^ 32 % 2 ^ 104 ∧
    ((u / 2 ^ 136 % 2 ^ 24 : Nat) : Int) = ((v / 2 ^ 136 % 2 ^ 24 : Nat) + (BitVec.ofNat 16 (v / 2 ^ 216)).toInt) % 2 ^ 24 ∧
    u / 2 ^ 160 = v / 2 ^ 160 := by
  intro v u
  obtain ⟨d, hd⟩ : ∃ d, d = ((BitVec.ofNat 16 (sField a 231 216)).signExtend 24).toNat := ⟨_, rfl⟩
  obtain ⟨m, hm⟩ : ∃ m, m = setSField a 31 0 ((sField a 31 0 + sField a 215 184) % 2 ^ 32) := ⟨_, rfl⟩
  have hu : u = (setSField m 159 136 ((sField a 159 136 + d) % 2 ^ 24)).toNat := by rw [hm, hd]; rfl
  obtain ⟨-, hbase, habove⟩ := setSField_parts a ((sField a 31 0 + sField a 215 184) % 2 ^ 32) (hi := 31) (lo := 0) rfl (by decide)
  obtain ⟨hbelow, hscale, hhigh⟩ := setSField_parts m ((sField a 159 136 + d) % 2 ^ 24) (hi := 159) (lo := 136) rfl (by decide)
  have hstride : (d : Int) = (BitVec.ofNat 16 (v / 2 ^ 216)).toInt % 2 ^ 24 := by
    have he : BitVec.ofNat 16 (sField a 231 216) = BitVec.ofNat 16 (v / 2 ^ 216) := BitVec.eq_of_toNat_eq (by simp [sField, bits, v])
    rw [hd, ← he]
    exact signExtend_stride _
  rw [← hm] at hbase habove
  rw [← hu] at hbelow hscale hhigh
  have hv : a.toNat = v := rfl
  simp only [sField, bits, hv] at hbase habove hscale
  clear_value v u
  norm_num at hbase hscale hbelow hhigh habove hstride ⊢
  exact ⟨by omega, by omega, by omega, by omega⟩

/-! ## `sget` (R211) -/

/-- The fields that `sget` reads, by their code. -/
def sgetFields (v : BitVec 256) : List Word :=
  let f (hi lo : Nat) : Nat := v.toNat / 2 ^ lo % 2 ^ (hi - lo + 1)
  [nat64 (f 31 0), nat64 (f 159 136), int64 (BitVec.ofNat 32 (f 215 184)).toInt, int64 (BitVec.ofNat 16 (f 231 216)).toInt,
    nat64 (f 135 112), nat64 (f 111 88), nat64 (f 183 160), nat64 (f 63 60), nat64 (16 * f 59 58 + f 57 54), nat64 (f 87 81 + 1),
    nat64 (f 80 74 + 1), nat64 (32 * (f 73 69 + 1)), nat64 (f 239 232), nat64 (f 53 53)]

/-- REL is one bit. -/
theorem sRel_eq (v : BitVec 256) : (if sRel v then 1 else 0 : Word) = nat64 (v.toNat / 2 ^ 53 % 2 ^ 1) := by
  have hbit : sRel v = decide (v.toNat / 2 ^ 53 % 2 = 1) := by
    rw [sRel, BitVec.getLsbD, Nat.testBit_eq_decide_div_mod_eq]
  rw [hbit, Nat.pow_one]
  rcases Nat.mod_two_eq_zero_or_one (v.toNat / 2 ^ 53) with h | h <;> rw [h] <;> rfl

theorem sgetFields_eq (v : BitVec 256) : sgetFields v = (List.range 14).map (sgetVal v) := by
  have hlen : sgetVal v 11 = nat64 (32 * (sField v 73 69 + 1)) := congrArg nat64 (Nat.mul_comm ..)
  have hrel : sgetVal v 13 = nat64 (v.toNat / 2 ^ 53 % 2 ^ 1) := sRel_eq v
  simp only [List.range, List.range.loop, List.map_cons, List.map_nil, hlen, hrel]
  rfl

/-- The field of a code that names one. -/
theorem sgetVal_of_code {v : BitVec 256} {k : Nat} {w : Word} (hw : (sgetFields v)[k]? = some w) : k < 14 ∧ sgetVal v k = w := by
  simpa [sgetFields_eq, List.getElem?_eq_some_iff] using hw

variable {code : BitVec 4} {d : SReg}

theorem sget_sends {w : Word} {act : Act} (hact : Acts s l h act) (hn : needLanded s l.who [d] = .ok ())
    (hf : Fits s l d act) (hst : splitStamp s l st = .ok n) (hv : (sgetFields (aReg (mem s n) fa))[code.toNat]? = some w) :
    exec (.sget h st fa code d) s = .next (sends s l d w 2 act) := by
  obtain ⟨hcode, rfl⟩ := sgetVal_of_code hv
  have hr : Reads s l.who [d] [] [] s := ⟨by simpa [opdRegs] using hn, plain 0, rfl, rfl⟩
  refine lockstep_ok hact.1 ?_
  have hop := scalarOp_acts hact hr hf 2 fun _ => sgetVal (aReg (mem s n) fa) code.toNat
  simp [hcode, hact.2.1, hact.2.2, hst, hop]

theorem sget_never (hw : l.who = .mem n) (hcode : code.toNat < 14) (hl : curLane s = some l) (hq : qualAct s l.who h = .ok .never) :
    exec (.sget h st fa code d) s = .next (retire s l 1) := by
  refine lockstep_ok hl ?_
  simp only [hcode, hq, memOnly_of hw, decide_true, require_true, ok_bind, if_true]
  exact scalarOp_never hq (p := plain 0) rfl 2 _

theorem sget_noField (hcode : 14 ≤ code.toNat) (hl : curLane s = some l) :
    exec (.sget h st fa code d) s = .next (laneFault s l (trapOf .illegal)) :=
  lockstep_trap hl (by simp [Nat.not_lt.2 hcode])

/-! ## `sset` and `sadv` (R210) -/

theorem sset_sets {idx : BitVec 16} {v : BitVec 256} (hr : MReady s l n h st (MNeeds.plain 1 true))
    (hd : descriptor s n idx.toNat = some v) (hok : descOk v = true) :
    ∃ t, exec (.sset h st fa idx) s = .next t ∧ MLeaves s t n l 1 ∧ (mem t n).regs = (setA (mem s n) fa v).regs := by
  have hneeds : MNeeds.plain 1 (((descriptor s n idx.toNat).map descOk).getD false) = MNeeds.plain 1 true := by simp [hd, hok]
  obtain ⟨t, hexec, hleaves, -, hregs⟩ := memberEffect_ready
    (f := fun n _ => MNeeds.plain 1 (((descriptor s n idx.toNat).map descOk).getD false))
    (g := fun s n m => setA m fa ((descriptor s n idx.toNat).getD 0)) (i := .sset h st fa idx) rfl (by rwa [hneeds]) fun m => mParts_setA ..
  have hdesc : descriptor (setMem s n (mem s n)) n idx.toNat = some v := hd
  rw [hdesc] at hregs
  exact ⟨t, hexec, hleaves, hregs⟩

/-- A descriptor that the image has not, or that breaks a rule, is ILLEGAL. -/
theorem sset_illegal {idx : BitVec 16} (hr : MReady s l n h st (MNeeds.plain 1 true))
    (hd : ∀ v, descriptor s n idx.toNat = some v → descOk v = false) :
    exec (.sset h st fa idx) s = .next (laneFault s l (trapOf .illegal)) := by
  obtain ⟨hl, hw, hc, hv, hh, hst, -⟩ := hr
  have hbad : ((descriptor s n idx.toNat).map descOk).getD false = false := by
    cases hx : descriptor s n idx.toNat with
    | none => rfl
    | some v => exact hd v hx
  have hfaults : MFaults s l n h st (MNeeds.plain 1 (((descriptor s n idx.toNat).map descOk).getD false)) (trapOf .illegal) := by
    rw [hbad]
    exact ⟨hl, hw, hc, hv, hh, hst, rfl⟩
  have hissue : IssuesAs s n h st (.sset h st fa idx) _ (fun n _ => MNeeds.plain 1 (((descriptor s n idx.toNat).map descOk).getD false)) _ :=
    ⟨rfl, rfl, fun _ s' _ _ => updMem_acts (fun m => mParts_setA ..) s' n⟩
  exact hissue.faults hfaults

theorem sadv_advances (hr : MReady s l n h st (MNeeds.plain 1 true)) :
    ∃ t, exec (.sadv h st fa) s = .next t ∧ MLeaves s t n l 1 ∧ (mem t n).regs = (setA (mem s n) fa (advance1 (aReg (mem s n) fa))).regs := by
  obtain ⟨t, hexec, hleaves, -, hregs⟩ := memberEffect_ready (f := fun _ _ => MNeeds.plain 1 true) (i := .sadv h st fa)
    (g := fun _ _ m => setA m fa (advance1 (aReg m fa))) rfl hr fun m => mParts_setA ..
  exact ⟨t, hexec, hleaves, hregs⟩

/-- Settles O27: `sset` by its descriptor, `sadv` by the fields it moves, `sget` by its code. -/
theorem streams : Obligations.Streams := by
  unfold Obligations.Streams
  intro s l n h st fa
  refine ⟨fun idx v hr hd hok => ?set, fun idx => sset_illegal, fun hr => ?advance, fun code d hw => ⟨fun act hact hn hf hst w hv =>
    sget_sends hact hn hf hst hv, fun hcode hl hq _ => sget_never hw hcode hl hq, fun hcode hl => sget_noField hcode hl⟩⟩
  case set =>
    obtain ⟨t, hexec, hleaves, hregs⟩ := sset_sets (fa := fa) hr hd hok
    refine ⟨t, hexec, ?_, hleaves, fun x hx => ?_⟩ <;> rw [aReg_congr hregs]
    · exact aReg_setA_same ..
    · exact aReg_setA_ne _ hx v
  case advance =>
    obtain ⟨t, hexec, hleaves, hregs⟩ := sadv_advances (fa := fa) hr
    refine ⟨t, hexec, hleaves, ?_⟩
    rw [aReg_congr hregs, aReg_setA_same]
    exact advance1_fields _

end Sys2Proof.Proofs
end

