-- ==== Sys2Proof/Proofs/RemoteStoresAndMass.lean ====
section
/-! SUPPORT and PROOF. The last chunk of a remote store, and the update of one slot of an `amass` (R216, R236). -/

namespace Sys2Proof.Proofs

open Sys2Proof Sys2Proof.Machine Sys2Proof.Laws Sys2Proof.Claims

/-! ## A chunk of AB written (R236, R276) -/

/-- A write of AB may reach the operands of instructions under way, and no other part of the member (R281). -/
theorem reachOps_mat (b off : Nat) (x : List Byte) (m : Member) (f : Nat) : ∃ y, (reachOps b off x m f).1 = { m with mat := y } := by
  unfold reachOps
  split
  · exact ⟨m.mat, rfl⟩
  · exact ⟨_, rfl⟩

/-- A chunk of AB written, to which no other access is on record: its member has the bytes in AB, and flags and queues as they were. -/
theorem bufWrite_member {s : State} (a : Acc) {T off : Nat} (x : List Byte) (hq : tget [] s.accs (bufLoc T 2 off / 32) = []) :
    ∃ m : Member, (bufWrite s a T 2 off x).members = (setMem s T m).members ∧ m.buf.ab = setBytes (mem s T).buf.ab off x ∧
      m.buf.flags = (mem s T).buf.flags ∧ m.buf.armed = (mem s T).buf.armed ∧ m.l = (mem s T).l := by
  have hund : undefBytes (stampAcc s a).2.2 a true (stampAcc s a).1 (bufLoc T 2 off) x.length = [] := undefBytes_of_quiet hq
  obtain ⟨y, hy⟩ := reachOps_mat 2 off x (mem (stampAcc s a).2.2 T) (stampAcc s a).2.2.free
  let m : Member := setBuf { mem s T with mat := y } 2 (setBytes (mem s T).buf.ab off x)
  refine ⟨if x.length = 32 then { m with buf := { m.buf with bad := tput false m.buf.bad (badKey 2 off) false } } else m, ?_, ?_⟩
  · unfold bufWrite
    simp only [hund, freeBytes_nil, hy]
    rfl
  · split <;> exact ⟨rfl, rfl, rfl, rfl⟩

/-- The same, of the state: the bytes stand in AB, and flags, queues and device memory are as they were. -/
theorem bufWrite_quiet {s : State} (a : Acc) {T off : Nat} (x : List Byte) (hq : tget [] s.accs (bufLoc T 2 off / 32) = []) :
    (mem (bufWrite s a T 2 off x) T).buf.ab = setBytes (mem s T).buf.ab off x ∧
      (mem (bufWrite s a T 2 off x) T).buf.flags = (mem s T).buf.flags ∧
      (mem (bufWrite s a T 2 off x) T).buf.armed = (mem s T).buf.armed ∧ ∀ j, (mem (bufWrite s a T 2 off x) j).l = (mem s j).l := by
  obtain ⟨m, hmembers, hab, hflags, harmed, hl⟩ := bufWrite_member a x hq
  have hmem (j : Nat) : mem (bufWrite s a T 2 off x) j = mem (setMem s T m) j := by simp only [mem, hmembers]
  rw [hmem, mem_setMem_same]
  refine ⟨hab, hflags, harmed, fun j => ?_⟩
  rw [hmem]
  by_cases hj : j = T
  · rw [hj, mem_setMem_same, hl]
  · rw [mem_setMem_ne _ _ hj]

theorem bufWrite_dmem (s : State) (a : Acc) (T b off : Nat) (x : List Byte) : (bufWrite s a T b off x).dmem = s.dmem := by
  have h : (bufWrite s a T b off x).dmem =
    (freeBytes (stampAcc s a).2.2 (undefBytes (stampAcc s a).2.2 a true (stampAcc s a).1 (bufLoc T b off) x.length) (bufLoc T b off) x).2.dmem := rfl
  rw [h, freeBytes_dmem, stampAcc_dmem]

/-- Element i of bytes laid out element by element. -/
theorem take_drop_flatMap {α β : Type} {f : α → List β} {w : Nat} (hf : ∀ a, (f a).length = w) (l : List α) {i : Nat} (hi : i < l.length) :
    ((l.flatMap f).drop (w * i)).take w = f l[i] := by
  induction l generalizing i with
  | nil => cases hi
  | cons a r ih =>
    cases i with
    | zero => simp [← hf a]
    | succ i =>
      rw [List.flatMap_cons, Nat.mul_succ, Nat.add_comm, ← List.drop_drop, ← hf a, List.drop_left, hf a]
      exact ih (Nat.lt_of_succ_lt_succ hi)

/-- The bytes of a chunk of a remote store: eight cells from cell 8k of its register. -/
def rstChunk (v : Cells) (k : Nat) : List Byte := (List.range 8).flatMap fun i => elemOut v (8 * k + i) 4

theorem numAt_rstChunk (m : Mem) (off : Nat) (v : Cells) (k : Nat) {i : Nat} (hi : i < 8) :
    numAt (setBytes m off (rstChunk v k)) (off + 4 * i) 4 = (cellAt v (8 * k + i)).toNat := by
  have hlen : (rstChunk v k).length = 32 := by simp [rstChunk, elemOut]
  have hall : bytesAt (setBytes m off (rstChunk v k)) off 32 = rstChunk v k := hlen ▸ bytesAt_setBytes_same m off (rstChunk v k)
  have hcell : ((rstChunk v k).drop (4 * i)).take 4 = elemOut v (8 * k + i) 4 := by
    rw [rstChunk, take_drop_flatMap (f := fun i => elemOut v (8 * k + i) 4) (fun _ => length_leBytes ..) (List.range 8) (i := i) (by simpa),
      List.getElem_range]
  rw [numAt, ← take_drop_bytesAt (len := 32) _ _ (by omega), hall, hcell, elemOut, leNat_leBytes]
  exact Nat.mod_eq_of_lt (cellAt v (8 * k + i)).isLt

/-! ## A flag of a member incremented (R42) -/

/-- A member with a flag written. -/
def withFlag (fn : Nat) (v : Word32) (m : Member) : Member := { m with buf := { m.buf with flags := tput 0 m.buf.flags fn v } }

/-- The members once a flag of one of them is written: that flag, and what satisfied a wait. -/
theorem mem_setFlag_own (s : State) (T fn : Nat) (v : Word32) (a b : BitVec 16) (j : Nat) :
    ∃ x, mem (setFlag s (.own T fn) v a b) j =
      { mem (updMem s T (withFlag fn v)) j with ctl := { (mem (updMem s T (withFlag fn v)) j).ctl with met := x } } := by
  let u := updMem s T (withFlag fn v)
  rcases tget_mapSnd Member.free (fun m => { m with ctl := { m.ctl with met := metBy s.cal (.own T fn) v ⟨a, b⟩ m.ctl.frz m.ctl.met } })
    u.members j with h | ⟨ht, hs⟩
  · exact ⟨_, h⟩
  · exact ⟨(mem u j).ctl.met, ht.trans hs.symm⟩

/-- An increment within the bound. -/
theorem postFlag_own (s : State) {T fn : Nat} (a b : BitVec 16) (hfits : (flagVal s (.own T fn)).toNat + 1 < 2 ^ 32) :
    ∃ t, postFlag s (.own T fn) 1 a b = (t, true) ∧ flagVal t (.own T fn) = flagVal s (.own T fn) + 1 ∧
      (mem t T).buf.ab = (mem s T).buf.ab ∧ (∀ j, (mem t j).l = (mem s j).l) ∧ t.dmem = s.dmem := by
  have hval : BitVec.ofNat 32 ((flagVal s (.own T fn)).toNat + 1) = flagVal s (.own T fn) + 1 := by
    simp [BitVec.ofNat_add]
  refine ⟨setFlag s (.own T fn) (flagVal s (.own T fn) + 1) a b, by simp only [postFlag, hfits, if_true, hval]; rfl, ?_, ?_, fun j => ?_, rfl⟩
  · obtain ⟨x, hx⟩ := mem_setFlag_own s T fn (flagVal s (.own T fn) + 1) a b T
    rw [flagVal, hx, mem_updMem_same]
    exact tget_tput_same ..
  · obtain ⟨x, hx⟩ := mem_setFlag_own s T fn (flagVal s (.own T fn) + 1) a b T
    rw [hx, mem_updMem_same]
    rfl
  · obtain ⟨x, hx⟩ := mem_setFlag_own s T fn (flagVal s (.own T fn) + 1) a b j
    rw [hx]
    exact updMem_keeps Member.l (f := withFlag fn _) (fun _ => rfl) s T j

/-! ## The last chunk of an `rst` (R236) -/

/-- The state once the last chunk of a remote store has been written and its entry has left. -/
def rstWritten (s : State) (n T : Nat) (e : LEnt) (off : Nat) (x : List Byte) : State :=
  updMem (countBytes (updMem (bufWrite s (lAcc s n 2 e.cap) T 2 off x) T fun m => noteRank m 2 off 7) n 32) n
    fun m => count (dropEnt m e) 0x041

/-- What neither the note of the rank, nor the counters, nor the entry's leaving touches is as the write of the chunk left it. -/
theorem rstWritten_part {β : Type} (g : Member → β) {s : State} {n T off : Nat} {e : LEnt} {x : List Byte}
    (hrank : ∀ m, g (noteRank m 2 off 7) = g m) (hbytes : ∀ m, g (countN m 0x043 32) = g m)
    (hdrop : ∀ m, g (count (dropEnt m e) 0x041) = g m) (j : Nat) :
    g (mem (rstWritten s n T e off x) j) = g (mem (bufWrite s (lAcc s n 2 e.cap) T 2 off x) j) := by
  unfold rstWritten countBytes
  rw [updMem_keeps g hdrop, updMem_keeps g hbytes, updMem_keeps g hrank]

theorem rstWritten_buf {s : State} {T off : Nat} (n : Nat) (e : LEnt) (x : List Byte) (hq : tget [] s.accs (bufLoc T 2 off / 32) = []) :
    (mem (rstWritten s n T e off x) T).buf.ab = setBytes (mem s T).buf.ab off x ∧
      (mem (rstWritten s n T e off x) T).buf.flags = (mem s T).buf.flags ∧
      (mem (rstWritten s n T e off x) T).buf.armed = (mem s T).buf.armed := by
  obtain ⟨hab, hflags, harmed, -⟩ := bufWrite_quiet (lAcc s n 2 e.cap) x hq
  exact ⟨(rstWritten_part (fun m => m.buf.ab) (fun _ => rfl) (fun _ => rfl) (fun _ => rfl) T).trans hab,
    (rstWritten_part (fun m => m.buf.flags) (fun _ => rfl) (fun _ => rfl) (fun _ => rfl) T).trans hflags,
    (rstWritten_part (fun m => m.buf.armed) (fun _ => rfl) (fun _ => rfl) (fun _ => rfl) T).trans harmed⟩

theorem rstWritten_left {s : State} {T off : Nat} (n : Nat) (e : LEnt) (x : List Byte) (hq : tget [] s.accs (bufLoc T 2 off / 32) = []) :
    Left s (rstWritten s n T e off x) n e := by
  obtain ⟨-, -, -, hl⟩ := bufWrite_quiet (lAcc s n 2 e.cap) x hq
  let u := countBytes (updMem (bufWrite s (lAcc s n 2 e.cap) T 2 off x) T fun m => noteRank m 2 off 7) n 32
  have hu : (mem u n).l = (mem s n).l := by
    simp only [u, countBytes]
    rw [mem_updMem_same, countN_l, updMem_keeps Member.l (f := fun m => noteRank m 2 off 7) (fun _ => rfl), hl]
  have hmem : (mem (rstWritten s n T e off x) n).l = (dropEnt (mem u n) e).l := by rw [rstWritten, mem_updMem_same, count_l]
  rw [Left, hmem, dropEnt, hu]
  exact ⟨rfl, rfl⟩

theorem rstWritten_dmem (s : State) (n T : Nat) (e : LEnt) (off : Nat) (x : List Byte) : (rstWritten s n T e off x).dmem = s.dmem := by
  rw [rstWritten, countBytes, updMem_dmem, updMem_dmem, updMem_dmem, bufWrite_dmem]

/-- The last chunk is written, its entry leaves, and the flag of its instruction follows. -/
theorem rstStep_last {s : State} {n : Nat} {e : LEnt} {h : Hd} {r : VReg} {o : SReg} {row col : BitVec 4} {fn : BitVec 10}
    {v : List Word × List Cells} {hd : BitVec 128} {k : Nat} (hhead : headStore (mem s n) = some e)
    (hins : e.cap.ins = .rst h r o row col true fn) (hready : storeReady e.cap = .go v hd)
    (hspan : spanOk e.cap.ins none e.cap.msk v.1 v.2 = true) (hreach : reachable s n (rstSite e.cap.ins) = true)
    (hbegun : e.begun = true) (hleft : e.left = [k]) (hrank : rankOk (mem s (rstSite e.cap.ins)) 2 (w0 v.1 + 32 * k) 7 = true) :
    rstStep n s = rstFlag n (rstWritten s n (rstSite e.cap.ins) e (w0 v.1 + 32 * k) (rstChunk (v.2.headD []) k)) e.cap := by
  rw [hins] at hspan hreach hrank
  simp only [rstStep, hhead, hins, hready, hspan, hreach, hbegun, hleft, writeBuf, hrank, Bool.not_true, Bool.false_eq_true, if_false, if_true]
  rfl

/-- The armed flag of a remote store's target is incremented, and its data stands as written. -/
theorem rstFlag_posts {s : State} {n : Nat} {c : Cap} {h : Hd} {r : VReg} {o : SReg} {row col : BitVec 4} {fn : BitVec 10}
    (hins : c.ins = .rst h r o row col true fn) (harmed : tget false (mem s (rstSite c.ins)).buf.armed fn.toNat = true)
    (hfits : (flagVal s (.own (rstSite c.ins) fn.toNat)).toNat + 1 < 2 ^ 32) :
    let t := rstFlag n s c
    flagVal t (.own (rstSite c.ins) fn.toNat) = flagVal s (.own (rstSite c.ins) fn.toNat) + 1 ∧
      (mem t (rstSite c.ins)).buf.ab = (mem s (rstSite c.ins)).buf.ab ∧ (∀ j, (mem t j).l = (mem s j).l) ∧ t.dmem = s.dmem := by
  obtain ⟨t, ht, hflag, hab, hl, hd⟩ := postFlag_own (release s (flagClkKey (.own (rstSite c.ins) fn.toNat) (scopeKey 0 (rstSite c.ins)))
    (clockOf s (agentNo n 2))) (srcId 0 5 n) 0 hfits
  have hstep : rstFlag n s c = t := by
    rw [hins] at ht harmed
    simp only [rstFlag, hins, harmed, ht]
    rfl
  rw [hstep]
  exact ⟨hflag, hab, hl, hd⟩

/-! ## An atomic on an undisturbed chunk (R229, R282) -/

/-- No write of a chunk is on record that a later access could race (R279). -/
def Calm (s : State) (pa : Nat) : Prop := ∀ r ∈ tget [] s.accs (pa / 32), r.write = false ∧ r.races = []

theorem undefBytes_of_calm {s : State} {a : Acc} {w : Bool} {c : Clock} {pa n : Nat} (h : Calm s pa) : undefBytes s a w c pa n = [] := by
  have hracers : racers s a w c pa n = [] := List.filter_eq_nil_iff.2 fun r hr => by simp [(h r hr).1]
  have hraces : (tget [] s.accs (pa / 32)).flatMap AccRec.races = [] := List.flatMap_eq_nil_iff.2 fun r hr => (h r hr).2
  simp [undefBytes, hracers, openRaces, hraces]

/-- A read noted on a chunk without a write on record leaves it so. -/
theorem calm_noteRead {s : State} {c : Clock} {r : AccRec} {pa : Nat} (hw : r.write = false) (hraces : r.races = [])
    (hk : r.start / 32 = pa / 32) (h : Calm s pa) (keep : Bool) : Calm (noteAccess s c r keep) pa := by
  intro x hx
  simp only [noteAccess, hk, tget_tput_same] at hx
  have hnew : x = r ∨ ∃ y ∈ tget [] s.accs (pa / 32), x.write = y.write ∧ (y.races = [] → x.races = []) := by
    split at hx
    · rcases List.mem_cons.1 hx with hx | hx
      · exact .inl hx
      · obtain ⟨y, hy, rfl⟩ := List.mem_map.1 hx
        exact .inr ⟨y, (List.mem_filter.1 hy).1, rfl, fun h => by simp [h]⟩
    · obtain ⟨y, hy, rfl⟩ := List.mem_map.1 hx
      exact .inr ⟨y, (List.mem_filter.1 hy).1, rfl, fun h => by simp [h]⟩
  rcases hnew with rfl | ⟨y, hy, hwrite, hnone⟩
  · exact ⟨hw, hraces⟩
  · exact ⟨hwrite.trans (h y hy).1, hnone (h y hy).2⟩

/-- A read leaves the keys of device memory, and a chunk without a write on record still without one. -/
theorem devRead_keeps (s : State) (a : Acc) (key pa n : Nat) :
    (devRead s a key pa n).2.dkey = s.dkey ∧ (devRead s a key pa n).2.keys = s.keys ∧ (Calm s pa → Calm (devRead s a key pa n).2 pa) := by
  let u := reached s a pa false
  let f := freeBytes u (undefBytes u a false (stampAcc s a).1 pa n) pa (keyedBytes u (keyOf u key) pa n)
  have hread : devRead s a key pa n = if tget false u.dbad (pa / 32) then (none, u) else
      (some f.1, noteAccess f.2 (stampAcc s a).1 (accRec f.2 a (stampAcc s a).1 (stampAcc s a).2.1 pa n false) (anyDebug f.2)) := rfl
  have hf : f.2.dkey = s.dkey ∧ f.2.keys = s.keys ∧ f.2.accs = s.accs := by
    simp only [f, freeBytes]
    split <;> exact ⟨reached_dkey .., reached_keys .., reached_accs ..⟩
  obtain ⟨hdkey, hkeys, haccs⟩ := hf
  rw [hread]
  split
  · refine ⟨reached_dkey .., reached_keys .., fun h => ?_⟩
    rwa [Calm, reached_accs]
  · refine ⟨hdkey, hkeys, fun h => calm_noteRead rfl rfl rfl ?_ _⟩
    rwa [Calm, haccs]

/-- A write of a chunk without a write on record puts its bytes into the sector. -/
theorem devPut_calm {s : State} {a : Acc} {key pa : Nat} {b : List Byte} (hq : Calm s pa)
    (hk : tget none s.dkey (pa / 32) = none ∨ tget none s.dkey (pa / 32) = some (keyOf s key)) (hn : pa % 32 + b.length ≤ 32) (x : Nat) :
    byteAt (devPut s a key pa b).dmem x = byteAt (setBytes s.dmem pa b) x := by
  let s1 := (stampAcc s a).2.2
  let s2 := if zeroTag s1 pa && !a.zero then
      { s1 with dkey := [0, 1, 2, 3].foldl (fun t i => tput none t (pa / 128 * 4 + i) (some (keyOf s1 key))) s1.dkey } else s1
  let p := if a.zero then (s2, zeroHit s2 pa) else l2Touch s2 pa true
  let u := countHit p.1 a.site p.2
  let f := freeBytes u (undefBytes u a true (stampAcc s a).1 pa b.length) pa b
  have h2 : s2.dmem = s.dmem ∧ s2.accs = s.accs := by
    simp only [s2]
    split <;> exact ⟨rfl, rfl⟩
  have hp : p.1.dmem = s.dmem ∧ p.1.accs = s.accs := by
    simp only [p]
    split <;> exact h2
  obtain ⟨hdmem, haccs⟩ := hp
  have hf : f = (b, u) := by
    simp only [f]
    rw [undefBytes_of_calm (by rwa [Calm, countHit_accs, haccs]), freeBytes_nil]
  have hput : (devPut s a key pa b).dmem = setBytes f.2.dmem (pa / 32 * 32)
      ((sectorAs s (keyOf s key) pa).take (pa % 32) ++ f.1 ++ (sectorAs s (keyOf s key) pa).drop (pa % 32 + b.length)) := rfl
  rw [hput, hf, countHit_dmem, hdmem, sectorAs_of_key hk, byteAt_setBytes_patch _ _ _ _ _ hn, Nat.div_add_mod']

/-- An atomic that always has a new value, on an undisturbed chunk: the old number is read, and the new one stands there. -/
theorem atomBy_undisturbed {s : State} {a : Acc} {key pa n : Nat} (g : Nat → Nat) (h : Undisturbed s a.ctx key pa) (hn : pa % 32 + n ≤ 32) :
    ∃ t, atomBy s a key pa n (fun old => some (g old)) = (.data (bytesAt s.dmem pa n), t) ∧ CountsOnly s t ∧
      ∀ x, byteAt t.dmem x = byteAt (setBytes s.dmem pa (leBytes n (g (numAt s.dmem pa n)))) x := by
  obtain ⟨-, hm, hb, hq, hk⟩ := h
  obtain ⟨t, ht, hd, hc⟩ := devRead_quiet (a := a) hb hq hk hn
  obtain ⟨hdkey, hkeys, hcalm⟩ := devRead_keeps s a key pa n
  simp only [ht] at hdkey hkeys hcalm
  have hkey : keyOf t key = keyOf s key := by simp only [keyOf, hkeys]
  refine ⟨devPut t a key pa (leBytes n (g (numAt s.dmem pa n))), ?_, hc.trans (devPut_keeps ..).1, fun x => ?_⟩
  · simp only [atomBy, ht, debugHit_of_quiet hq, pay_unmetered _ _ hm, numAt]
  · rw [devPut_calm (hcalm fun r hr => by rw [hq] at hr; cases hr) (by rwa [hdkey, hkey]) (by rwa [length_leBytes]), hd]

/-- The number where a memory reads as another with a number written. -/
theorem numAt_of_written {m m' : Mem} {a n v : Nat} (h : ∀ x, byteAt m' x = byteAt (setBytes m a (leBytes n v)) x) :
    numAt m' a n = v % 256 ^ n := by
  have hbytes : bytesAt m' a n = bytesAt (setBytes m a (leBytes n v)) a (leBytes n v).length := by simp [bytesAt, h]
  rw [numAt, hbytes, bytesAt_setBytes_same, leNat_leBytes]

/-! ## One slot of an `amass` (R216) -/

theorem headBoth_mem {m : Member} {e : LEnt} (h : headBoth m = some e) : e ∈ m.l.lq := by
  unfold headBoth at h
  split at h
  · rename_i hlq _
    split at h
    · cases h
      simp [hlq]
    · cases h
  · cases h

/-- The one pairing and the handle of an `amass` whose operands have landed. -/
theorem amass_operands {c : Cap} {fb : HReg} {hd : BitVec 128} {p : Cells} (hss : c.ss = []) (hvs : c.vs = [.now (plain p)])
    (hhs : c.hs = [(fb, .now hd)]) (hpend : hPend hd = false) : entPairs c = some (plain ([], [p])) ∧ entHandle c = some hd := by
  have hone : srcNow [Src.now (plain p)] = some ([p].map plain) := srcNow_plain [p]
  refine ⟨?_, by simp [entHandle, hhs, hpend]⟩
  rw [entPairs, hss, hvs, hone]
  change some (pairWith Prod.mk (plain []) (pairAll ([p].map plain))) = _
  rw [pairAll_plain, pairWith_plain]

section
variable {s : State} {n : Nat} {e : LEnt} {h : Hd} {st : SReg} {fb : HReg} {tl : Fin 16} {q : KReg} {p : Cells} {j pa : Nat} {rest : List Nat}
  {hd : BitVec 128}

/-- The update of a slot at device memory: its atomic, and the next slot follows. -/
theorem amassStep_updates {t : State} {b : List Byte} (hhead : headBoth (mem s n) = some e) (hins : e.cap.ins = .amass h st fb tl q)
    (hops : entPairs e.cap = some (plain ([], [p])) ∧ entHandle e.cap = some hd) (hbig : hBig hd = false) (hreq : e.req = [])
    (hbegun : e.begun = true) (hleft : e.left = j :: rest) (haddr : hAddr hd .a (32768 + 12 * j) 4 = .ok pa) (hdev : windowOf pa = .dev)
    (hatom : atomBy (joinQueues s n e.cap).2 (lAcc (joinQueues s n e.cap).2 n 1 e.cap) (hKeyIdx hd) pa 4
      (fun old => some (massOf e.cap p j old)) = (.data b, t)) :
    amassStep n s = updMem (setClock t (agentNo n 2) (clockOf t (agentNo n 1))) n fun m => amassNext m e := by
  obtain ⟨hpairs, hhandle⟩ := hops
  have hpairs' : entPairs e.cap = some [(0, .val ([], [p]))] := hpairs
  simp [amassStep, hhead, hins, hpairs', hhandle, hreq, hbegun, hleft, hbig, haddr, hdev, hatom]

/-- What follows the update of a slot: the entry leaves after the last, and has the others left otherwise (R216). -/
theorem amassNext_leaves {m : Member} (hmem : e ∈ m.l.lq) (hleft : e.left = j :: rest) :
    (amassNext m e).regs = m.regs ∧ (rest = [] → amassNext m e = dropEnt m e) ∧
      (rest ≠ [] → ∃ f ∈ (amassNext m e).l.lq, f.cap.seq = e.cap.seq ∧ f.left = rest) := by
  cases rest with
  | nil =>
    have hnext : amassNext m e = dropEnt m e := by simp [amassNext, hleft]
    exact ⟨by rw [hnext]; rfl, fun _ => hnext, fun h => absurd rfl h⟩
  | cons k r =>
    have hnext : amassNext m e = putEnt m { e with left := k :: r, req := [] } := by simp [amassNext, hleft]
    rw [hnext]
    exact ⟨rfl, nofun, fun _ => ⟨_, List.mem_map.2 ⟨e, hmem, if_pos rfl⟩, rfl, rfl⟩⟩

end

/-- Settles O38: the remote store by its last chunk and its flag, the `amass` by its atomic and what follows. -/
theorem remoteStoresAndMass : Obligations.RemoteStoresAndMass := by
  unfold Obligations.RemoteStoresAndMass
  intro s n e h hd
  refine ⟨fun r o row col fn v k hhead hins hready hspan hreach hbegun hleft hrank harmed hfits hq => ?store,
    fun st fb tl q p j rest pa hhead hins hss hvs hhs hpend hbig hreq hbegun hleft haddr halign hund => ?mass⟩
  case store =>
    obtain ⟨hab, hflags, harmed'⟩ := rstWritten_buf n e (rstChunk (v.2.headD []) k) hq
    have hleaves := rstWritten_left n e (rstChunk (v.2.headD []) k) hq
    have hval : flagVal (rstWritten s n (rstSite e.cap.ins) e (w0 v.1 + 32 * k) (rstChunk (v.2.headD []) k)) (.own (rstSite e.cap.ins) fn.toNat) =
        flagVal s (.own (rstSite e.cap.ins) fn.toNat) := by simp only [flagVal, hflags]
    obtain ⟨hflag, hab', hl, hdmem⟩ := rstFlag_posts (s := rstWritten s n (rstSite e.cap.ins) e (w0 v.1 + 32 * k) (rstChunk (v.2.headD []) k))
      (n := n) hins (harmed'.symm ▸ harmed) (hval.symm ▸ hfits)
    refine ⟨_, congrArg Host.Outcome.next (rstStep_last hhead hins hready hspan hreach hbegun hleft hrank), ?_,
      hdmem.trans (rstWritten_dmem ..), hflag.trans (by rw [hval]), fun i hi => ?_⟩
    · rwa [Left, hl]
    · rw [hab', hab]
      exact numAt_rstChunk _ _ _ k hi
  case mass =>
    obtain ⟨t, hatom, hcounts, hbytes⟩ := atomBy_undisturbed (s := (joinQueues s n e.cap).2) (a := lAcc (joinQueues s n e.cap).2 n 1 e.cap)
      (massOf e.cap p j) (n := 4) hund (by omega)
    have hstep := amassStep_updates hhead hins (amass_operands hss hvs hhs hpend) hbig hreq hbegun hleft haddr hund.1 hatom
    have hl : (mem t n).l = (mem s n).l := hcounts.l n
    obtain ⟨hregs, hlast, hmore⟩ := amassNext_leaves (m := mem t n) (hl ▸ headBoth_mem hhead) hleft
    have hmem : mem (updMem (setClock t (agentNo n 2) (clockOf t (agentNo n 1))) n fun m => amassNext m e) n = amassNext (mem t n) e :=
      mem_updMem_same ..
    refine ⟨_, congrArg Host.Outcome.next hstep, ?_, fun a ha => ?_, ?_, fun hrest => ?_, fun hrest => ?_⟩
    · exact numAt_of_written hbytes
    · exact (hbytes a).trans (byteAt_setBytes_outside _ _ _ _ (by rwa [length_leBytes]))
    · rw [hmem, hregs]
      exact hcounts.regs n
    · rw [Left, hmem, hlast hrest, dropEnt, hl]
      exact ⟨rfl, rfl⟩
    · rw [hmem]
      exact hmore hrest

end Sys2Proof.Proofs
end

