-- ==== Sys2Proof/Proofs/Attention.lean ====
section
/-! SUPPORT and PROOF. `apos` under an open slot into a register of three alternatives: it splits each of them, and six are more than
R157 lets a register hold (R155, R157, R217). -/

namespace Sys2Proof.Proofs

open Sys2Proof Sys2Proof.Machine Sys2Proof.Laws Sys2Proof.Claims

/-! ## The breadth that a write under an open slot comes to (R155) -/

/-- It does not hang on the value written. -/
theorem length_qualWrite_plain {α : Type} (d : Alts α) (p p' : α) (q : Lit) :
    (qualWrite d (plain p) q).length = (qualWrite d (plain p') q).length := by
  have hone (g : BitVec 16) (p : α) : ((plain p).filterMap fun y =>
      if compatible (conj g (litMask q)) y.1 then some (conj (conj g (litMask q)) y.1, y.2) else none).length =
      if compatible (conj g (litMask q)) 0 then 1 else 0 := by
    simp only [plain, List.filterMap_cons, List.filterMap_nil]
    split <;> rename_i h <;> split at h <;> simp_all
  simp only [qualWrite, List.length_flatMap, List.length_append, apply_ite List.length, hone, List.length_nil]

/-! ## The instruction -/

section
variable {s : State} {l : Lane} {n : Nat} {h : Hd} {st : SReg} {fb : HReg} {d : VReg} {q : Lit}

theorem firstFault_eq_none {a b : Option Trap} : firstFault a b = none ↔ a = none ∧ b = none := by cases a <;> simp [firstFault]

/-- An `apos` that its page's checks let act, under an open slot, whose destination comes to more than four alternatives, raises
BREADTH. -/
theorem apos_breadth (hl : curLane s = some l) (hw : l.who = .mem n) (hst : splitStamp s l st = .ok n)
    (hact : memAct (mem s n) h = .lit q) (hv : needV (mem s n) [d] = .ok ()) (hp : hPend (hReg (mem s n) fb) = false)
    (hm : (mem s n).mat.f64 = false) (hf : pageFault s n (hReg (mem s n) fb) (fun _ => []) = none)
    (hwide : 4 < (qualWrite (flatV (mem s n) d) (plain []) q).length) : ∃ t, exec (.apos h st fb d) s = .next (laneFault s l t) := by
  simp only [pageFault, linesFault, firstFault_eq_none] at hf
  obtain ⟨hhandle, ⟨hheld, hpoison⟩, -⟩ := hf
  have hcnt (p : Cells) : 4 < (landAlts (flatV (mem s n) d) (plain p) (some q) []).length := by
    have hland : landAlts (flatV (mem s n) d) (plain p) (some q) [] = qualWrite (flatV (mem s n) d) (plain p) q := rfl
    rwa [hland, length_qualWrite_plain _ p []]
  let b := pageRead s (groupAcc s n) (hReg (mem s n) fb) 32768 768
  let cells := mkReg fun _ col => BitVec.ofNat 32 (leNat ((b.1.drop (12 * col + 4)).take 4))
  refine ⟨breadthTrap (mem s n) (landAlts (flatV (mem s n) d) (plain cells) (some q) []).length, lockstep_trap hl ?_⟩
  simp only [memOnly_of hw, hact, hst, hv, hp, hm, hhandle, hheld, hpoison, firstFault, illegalUnless, actLit, ok_bind, waitUnless_true,
    Bool.not_false, if_true, Option.isSome_none, Bool.false_eq_true, if_false, ite_self, gt_iff_lt, hcnt, cells, b]

/-- A faulting lane sends nothing to a slice. -/
theorem laneFault_slw (hw : l.who = .mem n) (t : Trap) : (mem (laneFault s l t) n).fly.slw = (mem s n).fly.slw := by
  unfold laneFault
  rw [hw]
  exact congrArg (fun m => m.fly.slw) (mem_updMem_same ..)

end

/-! ## The counterexample -/

/-- A handle of the page at 65,536 that permits every access (R34). -/
def somePage : BitVec 128 := 2 ^ 36 + 0x1c1

/-- Three alternatives that two open slots tell apart (R36). -/
def threeWays : Alts Cells :=
  [(litMask (2, true), .val []), (conj (litMask (2, false)) (litMask (3, true)), .val [(0, 1)]),
    (conj (litMask (2, false)) (litMask (3, false)), .val [(0, 2)])]

/-- A qualifier that names slot 1 (R153). -/
def underSlot : Hd := { idle := 0, long := true, gq := true, gn := false, qs := 1, qp := false }

/-- `apos` of the page into v4, under that slot. -/
def guardedApos : Instr := .apos underSlot 0 1 4

/-- Its lane. -/
def guardedLane : QLane :=
  { q := .m, ins := some guardedApos, bad := none, addr := 132, pres := 0, stack := [], rcd := none, inst := 0, faddr := 128, idle := 0,
    out := false }

/-- A running member with the lane at issue, slots 1 to 3 open, the page in h1 and three alternatives in column 0 of v4. -/
def guardedMember : Member :=
  let m := Member.free
  { m with
    regs := { m.regs with h := [(1, somePage)], v := [(256, { alts := threeWays })] }
    grd := { m.grd with slots := [1, 2, 3].map fun k => (k, { src := some .prog, kept := false, due := none }) }
    ctl := { m.ctl with
      life := .running, fetch := { Fetch.none with pc := 160, lanes := [guardedLane], line := some 128, stop := true, count := 1 } } }

/-- A state with that member, in which its context has pinned the six lines of the page's metadata (R213). -/
def guardedState : State :=
  let s := { State.reset with members := [(0, guardedMember)], slotTable := [(0, { Bind.reset with launch := 1, state := 2 })]
                              phase := .issue, cur := .lane 0 .m 132 }
  (List.range 6).foldl (fun s k =>
    let pa := hBase somePage + 32768 + 128 * k
    { s with l2 := tput [] s.l2 (setKey pa) [{ tag := tagOfPa pa, zero := false, valid := 0, dirty := 0, way := true,
                                               pins := [{ ctx := siteCtx s 0, launch := 1, count := 1 }] }] }) s

/-- The lane as it issues. -/
def guardedIssue : Lane := { who := .mem 0, q := .m, ln := guardedLane }

/-- Refutes O28: a register of three alternatives is within the statement's bound for `apos`, but under a slot that none of them names
the write splits each in two (R155), and six are more than R157 lets stand: the lane raises BREADTH and sends nothing. -/
theorem not_attention : ¬ Obligations.Attention := by
  unfold Obligations.Attention
  intro hall
  obtain ⟨-, -, -, hpos, -⟩ := hall guardedState guardedIssue 0 underSlot 0 0 1 0 0 0 4
  have hl : curLane guardedState = some guardedIssue := rfl
  have hst : splitStamp guardedState guardedIssue 0 = .ok 0 := rfl
  have hact : memAct (mem guardedState 0) underSlot = .lit (1, true) := rfl
  have hv : needV (mem guardedState 0) [4] = .ok () := rfl
  have hp : hPend (hReg (mem guardedState 0) 1) = false := by decide +kernel
  have hf : pageFault guardedState 0 (hReg (mem guardedState 0) 1) (fun _ => []) = none := by decide +kernel
  obtain ⟨⟨t, p, ht, -, -, hslw, -⟩, -⟩ := hpos _ hl hst hact nofun hv hp rfl hf (by decide +kernel)
  obtain ⟨x, hx⟩ := apos_breadth (s := guardedState) (d := 4) hl rfl hst hact hv hp rfl hf (by decide +kernel)
  obtain rfl : t = laneFault guardedState guardedIssue x := Host.Outcome.next.inj (ht.symm.trans hx)
  rw [laneFault_slw rfl] at hslw
  have hlen := congrArg List.length hslw
  simp [cols] at hlen

end Sys2Proof.Proofs
end

