-- ==== Sys2Proof/Proofs/Timing.lean ====
section
/-! PROOF. The instructions that only take time: `nop`, `align`, and `idle` with its column forms (R243, R244, R264). -/

namespace Sys2Proof.Proofs

open Sys2Proof Sys2Proof.Machine Sys2Proof.Laws Sys2Proof.Claims

/-! ## The tick of an `align` (R243) -/

theorem lt_alignTick (u n : Nat) : u < alignTick u n := (Nat.div_lt_iff_lt_mul (Nat.two_pow_pos n)).1 (Nat.lt_succ_self _)

theorem alignTick_mod (u n : Nat) : alignTick u n % 2 ^ n = 0 := Nat.mul_mod_left ..

/-- No multiple of 2^n lies between a tick and the tick it is aligned to. -/
theorem alignTick_le {u n T : Nat} (hlt : u < T) (hmul : T % 2 ^ n = 0) : alignTick u n ≤ T := by
  obtain ⟨k, rfl⟩ := Nat.dvd_of_mod_eq_zero hmul
  have hk : u / 2 ^ n < k := Nat.div_lt_of_lt_mul hlt
  rw [alignTick, Nat.mul_comm]
  exact Nat.mul_le_mul_left _ hk

/-! ## What they leave of their agents -/

/-- The tick until which an agent is held by an `align`. -/
def alignOf (s : State) (w : Who) : Option Nat :=
  match w with
  | .mem k => (mem s k).ctl.alignTo
  | .hnd k => (mem s k).ui.alignTo
  | .lk k => (lookupCore s k).alignTo

/-- A state whose agent is held until a tick. -/
def withAlign (s : State) (w : Who) (t : Nat) : State :=
  match w with
  | .mem k => updMem s k fun m => { m with ctl := { m.ctl with alignTo := some t } }
  | .hnd k => updMem s k fun m => { m with ui := { m.ui with alignTo := some t } }
  | .lk k => setLookup s k { lookupCore s k with alignTo := some t }

theorem alignOf_withAlign (s : State) (w : Who) (t : Nat) : alignOf (withAlign s w t) w = some t := by
  cases w <;> simp [alignOf, withAlign]

/-- The issue of a lane does not release its agent. -/
theorem alignOf_retire (s : State) (l : Lane) (occ : Nat) : alignOf (retire s l occ) l.who = alignOf s l.who := by
  rcases l with ⟨k | k | k, q, ln⟩ <;> simp [alignOf, retire, leaveQueue, count, countN]

/-- A member with the reference point of a column raised by a lane (R244). -/
def withRaised (ln : QLane) (col n : Nat) (m : Member) : Member :=
  { m with ctl := { m.ctl with
      raised := m.ctl.raised ++ [(col, m.ctl.gc + n + 1, lanePos ln)]
      fetch := { m.ctl.fetch with steps := notePhase ln (m.ctl.gc + n + 1) m.ctl.fetch.steps } } }

/-- The issue of a lane keeps what column forms have raised. -/
theorem retire_raised (s : State) (l : Lane) (occ j : Nat) : (mem (retire s l occ) j).ctl.raised = (mem s j).ctl.raised := by
  unfold retire
  split
  · apply updMem_keeps fun m => m.ctl.raised
    exact fun _ => rfl
  · apply updMem_keeps fun m => m.ctl.raised
    exact fun _ => rfl
  · rfl

section
variable {s : State} {l : Lane} {h : Hd} (hl : curLane s = some l) (hi : inert s l.who h = .ok ())
include hl hi

theorem align_issues (n : BitVec 6) :
    exec (.align h n) s = .next (retire (withAlign s l.who (alignTick s.cal n.toNat)) l 1) := by
  refine lockstep_ok hl ?_
  rcases l with ⟨k | k | k, q, ln⟩ <;> simp only [hi, ok_bind, withAlign]

theorem idleColumn_issues {k : Nat} (hw : l.who = .mem k ∨ l.who = .hnd k) (n1 : BitVec 20) (col : BitVec 2) :
    exec (.idleColumn h n1 col) s = .next (retire (updMem s k (withRaised l.ln (1 + col.toNat) n1.toNat)) l 1) := by
  refine lockstep_ok hl ?_
  rcases l with ⟨w, q, ln⟩
  rcases hw with hw | hw <;> obtain rfl : w = _ := hw
  all_goals
    simp only [hi, ok_bind]
    rfl

end

/-- Settles O10, instruction by instruction; an inert instruction takes no notice of its qualifier. -/
theorem timing : Obligations.Timing := by
  unfold Obligations.Timing
  intro s l h hl hi
  refine ⟨lockstep_ok hl (by rw [hi]; rfl), fun n1 => lockstep_ok hl (by rw [hi]; rfl), fun n => ?align, fun n1 col k hw => ?column⟩
  case align =>
    exact ⟨_, alignTick s.cal n.toNat, align_issues hl hi n, lt_alignTick .., alignTick_mod .., fun _ => alignTick_le,
      (alignOf_retire ..).trans (alignOf_withAlign ..)⟩
  case column =>
    refine ⟨_, idleColumn_issues hl hi hw n1 col, ?_, ?_⟩
    · rw [retire_raised, mem_updMem_same]
      rfl
    · rw [retire_keeps (fun m => m.regs) (fun _ _ _ => rfl), mem_updMem_same]
      rfl

end Sys2Proof.Proofs
end

