-- ==== Sys2Proof/Proofs/HandleRegisters.lean ====
section
/-! PROOF. `xlat` and `hrel` at their issue (R35, R159, R233, R234). -/

namespace Sys2Proof.Proofs

open Sys2Proof Sys2Proof.Machine Sys2Proof.Laws Sys2Proof.Claims

/-! ## Handle registers -/

theorem hReg_setH (m : Member) (r y : HReg) (x : BitVec 128) : hReg (setH m r x) y = if y = r then x else hReg m y := by
  simp only [hReg, setH, tget_tput, Fin.ext_iff]

theorem hReg_congr {m m' : Member} (hm : m'.regs = m.regs) (r : HReg) : hReg m' r = hReg m r := by simp only [hReg, hm]

/-! ## `xlat` (R233) -/

section
variable {s : State} {l : Lane} {n : Nat} {h : Hd} {hn : HReg} {o : SReg}

/-- The handle that an `xlat` brings, on its way: its tick is set where its address has landed, and else once it lands. -/
def handleLand (s : State) (l : Lane) (n : Nat) (hn : HReg) (o : SReg) : Land :=
  { tok := s.fresh, due := match sSrc (mem s n) o with | .now _ => s.cal + 95 | .tok _ => 0,
    val := .xlat hn (sSrc (mem s n) o) s.cal false 0, lit := none, out := [], q := .l, addr := l.ln.addr }

/-- A member with a handle register that waits for what is on its way. -/
def withXlat (hn : HReg) (x : Land) (m : Member) : Member :=
  { setH m hn hPending with
    regs := { (setH m hn hPending).regs with hp := tput 0 m.regs.hp hn.val (x.tok + 1) }
    fly := { m.fly with lands := m.fly.lands ++ [x] } }

theorem hReg_withXlat (hn y : HReg) (x : Land) (m : Member) : hReg (withXlat hn x m) y = if y = hn then hPending else hReg m y :=
  hReg_setH m hn y hPending

theorem handleLand_due (hp : (sCell (mem s n) o).pend = none) : (handleLand s l n hn o).due = s.cal + 95 := by
  simp [handleLand, sSrc, hp]

variable (hl : curLane s = some l) (hw : l.who = .mem n)
include hl hw

/-- An `xlat` of a free handle register sets out (R233). -/
theorem xlat_pends (hact : memAct (mem s n) h = .always) (hz : lHazard s l.who n [o] [] 0 = .ok ())
    (hfree : tget 0 (mem s n).regs.hp hn.val = 0) (hrel : (mem s n).l.hrel.contains hn = false)
    (hone : srcSplits (sSrc (mem s n) o) = false) :
    exec (.xlat h hn o) s =
      .next (retire (updMem { s with fresh := s.fresh + 1 } n (withXlat hn (handleLand s l n hn o))) l 1) := by
  refine lockstep_ok hl ?_
  have hgo : ¬(tget 0 (mem s n).regs.hp hn.val ≠ 0 ∨ (mem s n).l.hrel.contains hn = true) := 
    not_or.2 ⟨not_not.2 hfree, by rw [hrel]; nofun⟩
  simp only [memOnly_of hw, hact, if_neg hgo, hz, hone, ok_bind]
  rfl

/-- One that names a handle still pending stalls L alone. -/
theorem xlat_stalls (hact : memAct (mem s n) h = .always) (hpend : tget 0 (mem s n).regs.hp hn.val ≠ 0) :
    exec (.xlat h hn o) s = .next s := by
  refine lockstep_stall hl ?_
  simp only [memOnly_of hw, hact, ok_bind, if_pos (Or.inl hpend)]
  rfl

/-! ## `hrel` (R234) -/

/-- A handle register with no `xlat` in flight is cleared now. -/
theorem hrel_clears (hact : memAct (mem s n) h = .always) (hfree : tget 0 (mem s n).regs.hp hn.val = 0) :
    exec (.hrel h hn) s = .next (retire (updMem s n fun m => setH m hn 0) l 1) := by
  refine lockstep_ok hl ?_
  simp only [memOnly_of hw, hact, ok_bind, updMem, hfree]
  rfl

/-- Another is noted, to be cleared once its `xlat` has landed. -/
theorem hrel_notes (hact : memAct (mem s n) h = .always) (hpend : tget 0 (mem s n).regs.hp hn.val ≠ 0) :
    exec (.hrel h hn) s = .next (retire (updMem s n fun m => { m with l := { m.l with hrel := m.l.hrel ++ [hn] } }) l 1) := by
  refine lockstep_ok hl ?_
  simp only [memOnly_of hw, hact, ok_bind, updMem, if_pos hpend]

/-! ## The qualifier of both (R153, R159) -/

theorem handle_never (hact : memAct (mem s n) h = .never) :
    ∀ i ∈ [Instr.xlat h hn o, .hrel h hn], exec i s = .next (retire s l 1) :=
  List.forall_mem_cons.2 ⟨lockstep_ok hl (by simp only [memOnly_of hw, hact, ok_bind]),
    List.forall_mem_singleton.2 (lockstep_ok hl (by simp only [memOnly_of hw, hact, ok_bind]))⟩

theorem handle_waits {x : Lit} (hact : memAct (mem s n) h = .lit x) :
    ∀ i ∈ [Instr.xlat h hn o, .hrel h hn], exec i s = .next (waitOn s (.mem n) (.litOpen x.1)) := by
  rw [← hw]
  exact List.forall_mem_cons.2 ⟨lockstep_wait hl (by simp only [memOnly_of hw, hact, ok_bind]),
    List.forall_mem_singleton.2 (lockstep_wait hl (by simp only [memOnly_of hw, hact, ok_bind]))⟩

end

/-- Settles O30, clause by clause: `xlat`, `hrel`, and what a qualifier makes of both. -/
theorem handleInstructions : Obligations.HandleInstructions := by
  unfold Obligations.HandleInstructions
  intro s l n h hn o hl hw
  refine ⟨fun hact hat hfree hrel hone => ?xlat, xlat_stalls hl hw, fun hact hfree => ?clears, fun hact hpend => ?notes,
    handle_never hl hw, fun _ => handle_waits hl hw⟩
  case xlat =>
    obtain ⟨-, -, hz⟩ := hat
    refine ⟨_, handleLand s l n hn o, xlat_pends hl hw hact hz hfree hrel hone, ?_⟩
    have hregs := (retire_regs hw 1).trans (congrArg Member.regs (mem_updMem_same { s with fresh := s.fresh + 1 } n (withXlat hn (handleLand s l n hn o))))
    rw [retire_fly hw, retire_dmem hw, mem_updMem_same, hregs]
    simp only [hReg_congr hregs, hReg_withXlat, if_true]
    exact ⟨rfl, rfl, rfl, handleLand_due, fun y hy => if_neg hy, rfl, rfl⟩
  case clears =>
    have hregs := (retire_regs hw 1).trans (congrArg Member.regs (mem_updMem_same s n fun m => setH m hn 0))
    refine ⟨_, hrel_clears hl hw hact hfree, ?_⟩
    rw [retire_dmem hw, hregs]
    simp only [hReg_congr hregs, hReg_setH, if_true]
    exact ⟨trivial, fun x hx => if_neg hx, rfl, rfl⟩
  case notes =>
    refine ⟨_, hrel_notes hl hw hact hpend, ?_⟩
    rw [retire_keeps (fun m => m.l) (fun _ _ _ => rfl), retire_regs hw, retire_dmem hw, mem_updMem_same]
    exact ⟨rfl, rfl, rfl⟩

end Sys2Proof.Proofs
end

