-- ==== Sys2Proof/Proofs/Atomics.lean ====
section
/-! SUPPORT and PROOF. `atom` and `cas` perform as one step at device memory (R222, R229, R282). -/

namespace Sys2Proof.Proofs

open Sys2Proof Sys2Proof.Machine Sys2Proof.Laws Sys2Proof.Claims

/-! ## The word at its home (R282) -/

/-- A memory with a new number written at an address, where there is one. -/
def withNew (m : Mem) (pa n : Nat) (new : Option Nat) : Mem := (new.map fun v => setBytes m pa (leBytes n v)).getD m

/-- An atomic on an undisturbed chunk: the old number is read, and what its function makes of it stands there. -/
theorem atomBy_undisturbed_of {s : State} {a : Acc} {key pa n : Nat} (f : Nat → Option Nat) (h : Undisturbed s a.ctx key pa)
    (hn : pa % 32 + n ≤ 32) :
    ∃ t, atomBy s a key pa n f = (.data (bytesAt s.dmem pa n), t) ∧ CountsOnly s t ∧
      ∀ x, byteAt t.dmem x = byteAt (withNew s.dmem pa n (f (numAt s.dmem pa n))) x := by
  have ⟨_, hm, hb, hq, hk⟩ := h
  obtain ⟨t, ht, hd, hc⟩ := devRead_quiet (a := a) hb hq hk hn
  cases hf : f (numAt s.dmem pa n) with
  | none =>
    rw [numAt] at hf
    exact ⟨t, by simp only [atomBy, ht, debugHit_of_quiet hq, pay_unmetered _ _ hm, hf], hc, fun x => by rw [hd]; rfl⟩
  | some v =>
    obtain ⟨u, hu, huc, hux⟩ := atomBy_undisturbed (a := a) (fun _ => v) h hn
    refine ⟨u, hu ▸ ?_, huc, hux⟩
    rw [numAt] at hf
    simp only [atomBy, ht, debugHit_of_quiet hq, pay_unmetered _ _ hm, hf]

/-- The new number of an `atom`, or of a `cas` (operation 9): none where the word is not the one compared (R229). -/
def atomNew (op n v nv : Nat) : Nat → Option Nat := fun old =>
  if op = 9 then (if old = v then some nv else none) else some (atomOp op n old v)

theorem atomAt_undisturbed {s : State} {a : Acc} {key pa n : Nat} (op v nv : Nat) (h : Undisturbed s a.ctx key pa)
    (hn : pa % 32 + n ≤ 32) :
    ∃ t, atomAt s a key pa n op v nv = (.data (bytesAt s.dmem pa n), t) ∧ CountsOnly s t ∧
      ∀ x, byteAt t.dmem x = byteAt (withNew s.dmem pa n (atomNew op n v nv (numAt s.dmem pa n))) x := by
  obtain ⟨t, ht, hc, hx⟩ := atomBy_undisturbed_of (a := a) (atomNew op n v nv) h hn
  have ht' := ht
  unfold atomNew at ht'
  by_cases hlock : op = 9 ∧ v = 0 ∧ leNat (bytesAt s.dmem pa n) = 0 ∧ a.site.map holder = some nv
  · exact ⟨learn t a.agent (tget [] t.lockClk (pa / 4)), by simp only [atomAt, ht', if_pos hlock], hc.trans (.of_members rfl), hx⟩
  · exact ⟨_, by simp only [atomAt, ht', if_neg hlock], hc, hx⟩

/-- Bytes outside the word are as before. -/
theorem byteAt_withNew_outside (m : Mem) {pa n a : Nat} (new : Option Nat) (ha : a < pa ∨ pa + n ≤ a) :
    byteAt (withNew m pa n new) a = byteAt m a := by
  cases new with
  | none => rfl
  | some v => exact byteAt_setBytes_outside _ _ _ _ (by rwa [length_leBytes])

/-- The number of the word. -/
theorem numAt_of_withNew {m m' : Mem} {pa n : Nat} {new : Option Nat} (h : ∀ x, byteAt m' x = byteAt (withNew m pa n new) x) :
    numAt m' pa n = (new.map (· % 256 ^ n)).getD (numAt m pa n) := by
  cases new with
  | none => simp only [numAt, bytesAt, h, withNew, Option.map_none, Option.getD_none]
  | some v => exact numAt_of_written h

/-! ## The entry (R222) -/

theorem oneAccess_atom (h : Hd) (d : SReg) (r : HReg) (z : SReg) (op : BitVec 4) (x : SReg) (sz : BitVec 2) (imm : BitVec 12) (v o : Word) :
    OneAccess (.atom h d r z op x sz imm) [v, o] ((o.toNat + imm.toNat) % 2 ^ 64) (4 * 2 ^ sz.toNat) :=
  ⟨rfl, fun _ => ⟨rfl, rfl⟩, fun _ => rfl⟩

theorem oneAccess_cas (h : Hd) (d : SReg) (r : HReg) (z x y : SReg) (sz : BitVec 2) (imm : BitVec 12) (v nv o : Word) :
    OneAccess (.cas h d r z x y sz imm) [v, nv, o] ((o.toNat + imm.toNat) % 2 ^ 64) (4 * 2 ^ sz.toNat) :=
  ⟨rfl, fun _ => ⟨rfl, rfl⟩, fun _ => rfl⟩

/-- An `atom` or a `cas`. -/
def IsAtomic (i : Instr) : Prop :=
  (∃ h d r z op x sz imm, i = .atom h d r z op x sz imm) ∨ ∃ h d r z x y sz imm, i = .cas h d r z x y sz imm

/-- What a member and device memory hold once an atomic has performed: its entry is gone, the word holds the new number if there
is one, and the old one is on its way under the entry's token. -/
structure AtomDone (s t : State) (n : Nat) (e : LEnt) (tok pa len : Nat) (new : Option Nat) : Prop where
  gone : ∀ x ∈ (mem t n).l.lq ++ (mem t n).l.sq, x.cap.seq ≠ e.cap.seq
  frame : ∀ a, (a < pa ∨ pa + len ≤ a) → byteAt t.dmem a = byteAt s.dmem a
  word : numAt t.dmem pa len = (new.map (· % 256 ^ len)).getD (numAt s.dmem pa len)
  regs : (mem t n).regs = (mem s n).regs
  answer : ∃ x : Land, (mem t n).fly.lands = (mem s n).fly.lands ++ [x] ∧ x.tok = tok ∧
    x.val = .answer (plain (nat64 (numAt s.dmem pa len))) ∧ x.due ≤ s.cal

theorem finishAtom_lands {m : Member} {e : LEnt} {tok : Nat} (htok : e.cap.tok = some tok) (b : List Byte) :
    (finishAtom m e b).fly.lands = m.fly.lands ++
      [{ tok := tok, due := 0, val := .answer (plain (nat64 (leNat b))), lit := none, out := [], q := .l, addr := e.cap.addr }] := by
  simp only [finishAtom, htok]
  rfl

theorem finishAtom_keeps (m : Member) (e : LEnt) (b : List Byte) : (finishAtom m e b).l = (dropEnt m e).l ∧ (finishAtom m e b).regs = m.regs := by
  unfold finishAtom
  cases e.cap.tok <;> exact ⟨rfl, rfl⟩

theorem mem_dropEnt_ne {m : Member} {e x : LEnt} (h : x ∈ (dropEnt m e).l.lq ++ (dropEnt m e).l.sq) : x.cap.seq ≠ e.cap.seq := by
  have hne : x ∈ (m.l.lq ++ m.l.sq).filter fun y => y.cap.seq != e.cap.seq := by rwa [List.filter_append]
  simpa using (List.mem_filter.1 hne).2

section
variable {s : State} {n : Nat} {e : LEnt} {i : Instr} {ss : List Word} {r : HReg} {hd : BitVec 128} {off sz op v nv pa tok : Nat}

/-- The atomic at both heads performs at device memory, and its entry is finished with the bytes that it found. -/
theorem atomPerform_at {t : State} {b : List Byte} (hhead : headBoth (mem s n) = some e) (hent : Entry e i ss r hd) (hi : IsAtomic i)
    (ho : OneAccess i ss off sz) (hargs : atomArgs i ss = (sz, op, v, nv)) (hperm : permOf i = .a) (hal : off % sz = 0)
    (ha : hAddr hd .a off sz = .ok pa) (hdev : windowOf pa = .dev)
    (hat : atomAt (joinQueues s n e.cap).2 (lAcc (joinQueues s n e.cap).2 n 1 e.cap) (hKeyIdx hd) pa sz op v nv = (.data b, t)) :
    atomPerform n s = updMem (countBytes (setClock t (agentNo n 2) (clockOf t (agentNo n 1))) n sz) n fun m => finishAtom m e b := by
  have hps := entPairs_of_entry hent
  have hh := entHandle_of_entry hent
  obtain ⟨-, hreq, rfl, -⟩ := hent
  have hready : storeReady e.cap = .go (ss, []) hd := by simp [storeReady, onePair, hps, plain, hh]
  have hwant : wantedFault { e.cap with lit := none } hd (numbered [(0, .val (ss, []))]) = none :=
    wantedFault_one (c := { e.cap with lit := none }) ho hal (hperm ▸ ha)
  have hoff : ((piecesOf e.cap.ins e.cap.msk ss []).head?.map Piece.off).getD 0 = off := by simp [(ho.2.1 e.cap.msk).1]
  rcases hi with ⟨_, _, _, _, _, _, _, _, hi⟩ | ⟨_, _, _, _, _, _, _, _, hi⟩
  all_goals
    simp only [hi] at hwant hoff hargs
    simp only [atomPerform, hhead, hi, hreq, hready, hwant, hoff, hargs, ha, hdev, hat]
    simp

/-- On an undisturbed word it does so, with the number that its operation makes of what the word held. -/
theorem atomPerform_done (hhead : headBoth (mem s n) = some e) (htok : e.cap.tok = some tok) (hent : Entry e i ss r hd) (hi : IsAtomic i)
    (ho : OneAccess i ss off sz) (hargs : atomArgs i ss = (sz, op, v, nv)) (hperm : permOf i = .a) (hal : off % sz = 0)
    (ha : hAddr hd .a off sz = .ok pa) (hu : Undisturbed s (siteCtx s n) (hKeyIdx hd) pa) (hn : pa % 32 + sz ≤ 32) :
    ∃ t, exec (.atomicPerform n) s = .next t ∧ AtomDone s t n e tok pa sz (atomNew op sz v nv (numAt s.dmem pa sz)) := by
  obtain ⟨u, hat, hc, hx⟩ := atomAt_undisturbed (s := (joinQueues s n e.cap).2) (a := lAcc (joinQueues s n e.cap).2 n 1 e.cap) op v nv hu hn
  have hcs : CountsOnly s (countBytes (setClock u (agentNo n 2) (clockOf u (agentNo n 1))) n sz) :=
    (CountsOnly.of_members (t := (joinQueues s n e.cap).2) rfl).trans
      ((hc.trans (.of_members rfl)).trans (countsOnly_updMem_countN _ n 0x043 sz))
  refine ⟨_, congrArg Host.Outcome.next (atomPerform_at hhead hent hi ho hargs hperm hal ha hu.1 hat), ?_⟩
  obtain ⟨hl, hregs⟩ := finishAtom_keeps (mem (countBytes (setClock u (agentNo n 2) (clockOf u (agentNo n 1))) n sz) n) e
    (bytesAt (joinQueues s n e.cap).2.dmem pa sz)
  constructor
  case gone =>
    rw [mem_updMem_same, hl]
    exact fun _ => mem_dropEnt_ne
  case frame => exact fun a ha => (hx a).trans (byteAt_withNew_outside _ _ ha)
  case word => exact numAt_of_withNew hx
  case regs => rw [mem_updMem_same, hregs, hcs.regs]
  case answer =>
    rw [mem_updMem_same, finishAtom_lands htok, hcs.fly]
    exact ⟨_, rfl, rfl, rfl, Nat.zero_le _⟩

end

/-- Settles O34: the entry's one access finds its word undisturbed, and the operation's new number stands there. -/
theorem atomicPerforms : Obligations.AtomicPerforms := by
  unfold Obligations.AtomicPerforms
  intro s n e h d x y z sz imm v nv o r hd pa tok hhead htok hsz len off hal ha hu old after
  have hlen : len = 2 ^ (2 + sz.toNat) := (Nat.pow_add 2 2 sz.toNat).symm
  have hpow : (256 : Nat) ^ len = 2 ^ (8 * len) := (Nat.pow_mul 2 8 len).symm
  have hn : pa % 32 + len ≤ 32 := by
    rw [hlen] at hal ⊢
    exact within_sector (by omega) (hAddr_aligned (by omega) hal (hlen ▸ ha))
  refine ⟨fun op hop hent => ?atom, fun hent => ?cas⟩
  case atom =>
    obtain ⟨t, ht, hdone⟩ := atomPerform_done hhead htok hent (.inl ⟨_, _, _, _, _, _, _, _, rfl⟩) (oneAccess_atom ..) rfl rfl hal ha hu hn
    obtain ⟨hgone, hframe, hword, hregs, hanswer⟩ := hdone
    have hne : op.toNat ≠ 9 := by omega
    rw [atomNew, if_neg hne, hpow] at hword
    exact ⟨t, ht, hgone, hframe, hword, hregs, hanswer⟩
  case cas =>
    obtain ⟨t, ht, hdone⟩ := atomPerform_done hhead htok hent (.inr ⟨_, _, _, _, _, _, _, _, rfl⟩) (oneAccess_cas ..) rfl rfl hal ha hu hn
    obtain ⟨hgone, hframe, hword, hregs, hanswer⟩ := hdone
    refine ⟨t, ht, hgone, hframe, hword.trans ?_, hregs, hanswer⟩
    rw [atomNew, if_pos rfl, hpow, apply_ite (Option.map _), Option.map_some, Option.map_none, Nat.mod_mod]
    rfl

end Sys2Proof.Proofs
end

