-- ==== Sys2Proof/Proofs/Pins.lean ====
section
/-! PROOF. A granted `pin` of a line that its set does not keep: pinned lines of the set that wait for a data way take the way of the
line brought in, before its pin is added (R232, R308). -/

namespace Sys2Proof.Proofs

open Sys2Proof Sys2Proof.Machine Sys2Proof.Laws Sys2Proof.Claims

/-- Sixteen lines of another context that are pinned, not resident (R308): they are no zero lines and have no data way. -/
def waitingTags : List Tag :=
  (List.range 16).map fun k =>
    { tag := BitVec.ofNat 15 (k + 1), zero := false, valid := 0, dirty := 0, way := false, pins := [{ ctx := 1, launch := 2, count := 1 }] }

/-- An address in h1's page, offset by s3 (R123). -/
def inPage : LMem := { msk := 0, as := 0, hn := 1, o := 3, imm := 0 }

/-- A qualifier that names no slot (R153). -/
def unqualified : Hd := { idle := 0, long := false, gq := false, gn := false, qs := 0, qp := false }

/-- A `pin` of one line, the first of the page at 65,536, captured. -/
def onePin : Cap :=
  { ins := .pin unqualified inPage 2, q := .l, addr := 132, seq := 4, ss := [.now (plain 1), .now (plain 0)], vs := [], msk := 0,
    hs := [(1, .now somePage)], lit := none, out := [], tok := none, tag := { loop := 0, iter := 0, stagep := 0 }, tick := 0,
    slipped := false, known := false, taken := 0, since := none, clk := [] }

/-- Its entry, which has paid for the fetch of the line (R310). -/
def paidPin : LEnt := { cap := onePin, begun := false, pairs := [], left := [0], buf := [], req := [], bad := [] }

/-- A running member with that `pin` at the head of its store queue. -/
def pinningMember : Member :=
  let m := Member.free
  { m with l := { m.l with sq := [paidPin], ordC := [4] }, ctl := { m.ctl with life := .running } }

/-- A state with that member, in which the line is absent and no zero line; the tags of its set are those lines, and the set's 16 data
ways are free. -/
def waitingState : State :=
  { State.reset with members := [(0, pinningMember)], slotTable := [(0, { Bind.reset with launch := 1, state := 2 })]
                     l2 := [(setKey 65536, waitingTags)], dmem := [(65536, 1)] }

theorem waitingState_linesOk : LinesOk waitingState := by
  refine ⟨by decide +kernel, fun k => ?_⟩
  have htags : tget [] waitingState.l2 k = waitingTags ∨ tget [] waitingState.l2 k = [] := ite_eq_or_eq ..
  rcases htags with h | h <;> rw [h]
  · exact ⟨by decide +kernel, by decide +kernel⟩
  · exact ⟨.nil, nofun⟩

/-- The `pin` pins nothing: the sixteen lines are filled into ways, and the last of them displaces the line brought in, the only one
without a pin. -/
theorem waitingState_pinsNothing : pinsOn (pinStep 0 waitingState) (siteCtx waitingState 0) 65536 = 0 := by decide +kernel

/-- Refutes O37: `LinesOk` lets pinned lines wait for data ways while ways are free, which R308 does not let happen. An absent line that
a granted `pin` names is brought into such a set, loses its way again as they are filled, and takes no pin. -/
theorem not_pins : ¬ Obligations.Pins := by
  unfold Obligations.Pins
  intro hall
  have hspan : spanOk paidPin.cap.ins (some somePage) paidPin.cap.msk [1, 0] [] = true := by decide +kernel
  have hgranted : judgePins waitingState (siteCtx waitingState 0) (pinLines somePage (lmOff inPage 0) 1) = .granted := by decide +kernel
  have hpaid : nextFetch waitingState (pinLines somePage (lmOff inPage 0) 1) paidPin.left = none := by decide +kernel
  have hlines : pinLines somePage (lmOff inPage 0) 1 = [65536] := by decide +kernel
  have habsent : lineTag waitingState 65536 = none := by decide +kernel
  obtain ⟨hpin, -⟩ := hall waitingState 0 paidPin unqualified inPage 2 ([1, 0], []) somePage rfl rfl hspan (by decide +kernel) (by decide +kernel)
  obtain ⟨hgrant, -⟩ := hpin rfl rfl rfl (by decide) (.pinPerform 0) (.head _)
  obtain ⟨t, ht, -, -, -, -, hone⟩ := hgrant hgranted hpaid
  obtain rfl : pinStep 0 waitingState = t := Host.Outcome.next.inj ht
  have hpinned := hone 65536 waitingState_linesOk hlines habsent
  rw [waitingState_pinsNothing] at hpinned
  exact Nat.zero_ne_one hpinned

end Sys2Proof.Proofs
end

