-- ==== Sys2Proof/Proofs/SystemInstructions.lean ====
section
/-! PROOF. The system instructions of the held class, `svc` among them, with nothing open or held before them, and `uiret` and `pcread`
(R264 to R272). -/

namespace Sys2Proof.Proofs

open Sys2Proof Sys2Proof.Machine Sys2Proof.Laws Sys2Proof.Claims

section
variable {s u : State} {l : Lane} {n : Nat} {h : Hd} {i : Instr} {regs : List SReg} {vals : List Word}
  {eff : State → Cap → List Word → Except Stop State} (hh : HeldNow s l h [] regs vals)
include hh

/-! ## What the held class does with nothing open (R159, R161) -/

/-- The instruction makes its effect now, in every agent. -/
theorem heldC_immediate : heldC s l h i none regs eff = (eff s (capNow s l i vals) vals >>= fun u => .ok (u, 1)) := by
  obtain ⟨-, hq, hn, hr, hheld⟩ := hh
  have hvals : (vals.map plain).map valOf = vals := by simp [Function.comp_def]
  have hcap : ({ capAt s l i with ss := (vals.map plain).map .now, lit := none } : Cap) = capNow s l i vals := by
    rw [List.map_map]
    rfl
  have hn' : needLanded s l.who regs = .ok () := hn
  rcases l with ⟨n | n | k, q, ln⟩
  all_goals
    dsimp only at hheld
    simp only [heldC, hq, Option.toList_none, List.nil_append, hn', hr, ok_bind, actLit, hcap, hvals, splits_map_plain]
    simp [hheld]

theorem heldC_acts (he : eff s (capNow s l i vals) vals = .ok u) : heldC s l h i none regs eff = .ok (u, 1) := by
  rw [heldC_immediate hh, he, ok_bind]

theorem heldC_faults {x : Stop} (he : eff s (capNow s l i vals) vals = .error x) : heldC s l h i none regs eff = .error x := by
  rw [heldC_immediate hh, he, error_bind]

end

/-! ## The instructions of a member, a handler or a lookup core (R264, R265, R271) -/

section
variable {s : State} {l : Lane} {n : Nat} {h : Hd} {code : BitVec 16}

/-- The record and the request of an `svc` (R265). -/
theorem postSvc_posts (s : State) (w : Who) (code : BitVec 16) (args : List Word) (c : Cap) : ∃ r x,
    (postSvc s w code args c).recs = s.recs ++ [r] ∧ r.replay = true ∧ r.cause = 0x18 ∧ r.status = code.setWidth 32 ∧
    r.launch = (bindOf s (whoSite s w)).launch ∧
    (postSvc s w code args c).svcs = s.svcs ++ [x] ∧ x.code = code ∧ x.args = args ∧ x.site = whoSite s w ∧
    (postSvc s w code args c).recsTerm = s.recsTerm ∧ (postSvc s w code args c).dmem = s.dmem :=
  ⟨_, _, rfl, rfl, rfl, BitVec.ofNat_toNat .., rfl, rfl, rfl, rfl, rfl, rfl, rfl⟩

theorem svc_posts {args : List Word} (hh : HeldNow s l h [] [1, 2, 3, 4] args) :
    exec (.svc h code) s = .next (retire (postSvc s l.who code args (capNow s l (.svc h code) args)) l 1) :=
  lockstep_ok hh.1 (heldC_acts hh rfl)

theorem trap_faults (hh : HeldNow s l h [] [] []) :
    exec (.trap h code) s = .next (laneFault s l { trapOf .trap with status := code.toNat }) :=
  lockstep_trap hh.1 (heldC_faults hh rfl)

theorem effTrmark_regs (w : Who) (c : Cap) (n : Nat) : ∃ u, effTrmark w code s c [] = .ok u ∧ (mem u n).regs = (mem s n).regs := by
  unfold effTrmark
  dsimp only
  split
  · cases w <;> exact ⟨_, rfl, by simp only [mem, traceRec_members]⟩
  · exact ⟨s, rfl, rfl⟩

theorem trmark_marks (hh : HeldNow s l h [] [] []) (n : Nat) : ∃ t, exec (.trmark h code) s = .next t ∧ (mem t n).regs = (mem s n).regs := by
  obtain ⟨u, hu, hregs⟩ := effTrmark_regs (s := s) (code := code) l.who (capNow s l (.trmark h code) []) n
  refine ⟨_, lockstep_ok hh.1 (heldC_acts hh hu), ?_⟩
  rw [retire_keeps (fun m => m.regs) fun _ _ _ => rfl]
  exact hregs

/-! ## The instructions of a member and its handler (R264, R268) -/

/-- A member with a write of a special register on its way, to land at the end of the cycle. -/
def withSprWrite (sn : BitVec 8) (v : Word) (m : Member) : Member := { m with fly := { m.fly with spr := m.fly.spr ++ [(sn.toNat, v)] } }

/-- A member that has selected an event for its performance counter. -/
def withPerfSel (code : BitVec 16) (m : Member) : Member := { m with spr := { m.spr with perfSel := code.setWidth 9 } }

section
variable (hw : l.who = .mem n ∨ l.who = .hnd n)
include hw

theorem wrsr_writes {a : SReg} {sn : BitVec 8} {v : Word} (hsn : sprWritable sn.toNat = true) (hh : HeldNow s l h [] [a] [v]) :
    exec (.wrsr h a sn) s = .next (retire (updMem s n (withSprWrite sn v)) l 1) := by
  refine lockstep_ok hh.1 ?_
  have hheld := heldC_acts (i := .wrsr h a sn) (eff := effWrsr n sn) hh rfl
  rcases l with ⟨w, q, ln⟩
  rcases hw with hw | hw <;> obtain rfl : w = _ := hw
  all_goals
    dsimp only
    rw [hsn, require_true, ok_bind, hheld]
    rfl

theorem pcsel_selects (hh : HeldNow s l h [] [] []) :
    exec (.pcsel h code) s = .next (retire (updMem s n (withPerfSel code)) l 1) := by
  refine lockstep_ok hh.1 ?_
  have hheld := heldC_acts (i := .pcsel h code) (eff := effPcsel n code) hh rfl
  rcases l with ⟨w, q, ln⟩
  rcases hw with hw | hw <;> obtain rfl : w = _ := hw <;> exact hheld

end

/-! ## The instructions of a member (R266, R267, R269) -/

/-- A member that issues no lockstep instruction after this group cycle, its chains closed. -/
def withHalting (m : Member) : Member :=
  { m with ctl := { m.ctl with halting := true }, eng := tmap Stream.t0 (fun x => { x with open_ := false }) m.eng }

/-- A member whose running iteration offers the boundary that ends it. -/
def withYieldAsked (m : Member) : Member :=
  { m with ctl := { m.ctl with fetch := { m.ctl.fetch with
      steps := match m.ctl.fetch.steps with | r :: t => { r with yieldAsked := true } :: t | [] => [] } } }

/-- A member asked to stop at a breakpoint of a code. -/
def withStopAsked (code : BitVec 16) (m : Member) : Member := { m with ctl := { m.ctl with dbg := .asked 0 code } }

section
variable (hw : l.who = .mem n) (hh : HeldNow s l h [] [] [])
include hw hh

theorem halt_halts : exec (.halt h) s = .next (retire (updMem s n withHalting) l 1) := by
  refine lockstep_ok hh.1 ?_
  have hheld : heldC s l h (.halt h) none [] (effHalt n) = .ok (updMem s n withHalting, 1) := heldC_acts hh rfl
  have hhalting : (mem (updMem s n withHalting) n).ctl.halting = true := by rw [mem_updMem_same]; rfl
  rcases l with ⟨w, q, ln⟩
  obtain rfl : w = _ := hw
  dsimp only
  rw [hheld, ok_bind]
  simp only [hhalting, if_true]

theorem brk_asks :
    exec (.brk h code) s = .next (retire (if breakOn s n then updMem s n (withStopAsked code) else s) l 1) := by
  refine lockstep_ok hh.1 ?_
  have hheld := heldC_acts (i := .brk h code) (eff := effBrk n code) hh rfl
  rcases l with ⟨w, q, ln⟩
  obtain rfl : w = _ := hw
  exact hheld

theorem yield_offers {r : RecRun} (hr : l.ln.rcd = some r) (hker : r.phase = .ker) (hint : r.yieldint ≠ 0) :
    exec (.yield h) s = .next (retire (updMem s n withYieldAsked) l 1) := by
  refine lockstep_ok hh.1 ?_
  have hheld : heldC s l h (.yield h) none [] (effYield n) = .ok (updMem s n withYieldAsked, 1) := heldC_acts hh rfl
  rcases l with ⟨w, q, ln⟩
  obtain rfl : w = _ := hw
  obtain hr : ln.rcd = some r := hr
  simp only [hr, hker, ne_eq, hint, not_false_eq_true, and_self, if_true, hheld]

end

/-! ## What the issue of a lane leaves of its member's record, halting and debugger -/

/-- What an issue notes about a phase is its end alone. -/
theorem notePhase_head (ln : QLane) (e : Nat) {steps : List RecRun} {x : RecRun} (hx : steps.head? = some x) :
    ∃ y, (notePhase ln e steps).head? = some y ∧ y.yieldAsked = x.yieldAsked ∧ y.phase = x.phase ∧ y.j = x.j := by
  obtain ⟨rest, rfl⟩ := List.head?_eq_some_iff.1 hx
  unfold notePhase
  split
  · rename_i heq
    cases heq
    exact ⟨_, rfl, rfl, rfl, rfl⟩
  · rw [List.map_cons, List.head?_cons]
    split <;> exact ⟨_, rfl, rfl, rfl, rfl⟩
  · rename_i heq
    cases heq

theorem runRcd_retire (hw : l.who = .mem n) (occ : Nat) {x : RecRun} (hx : runRcd (mem s n) = some x) :
    ∃ y, runRcd (mem (retire s l occ) n) = some y ∧ y.yieldAsked = x.yieldAsked ∧ y.phase = x.phase ∧ y.j = x.j := by
  rw [mem_retire hw]
  change ∃ y, (noteEnd _ l.ln _).steps.head? = some y ∧ _
  unfold noteEnd
  split
  · exact ⟨x, hx, rfl, rfl, rfl⟩
  · exact notePhase_head _ _ hx

theorem retire_halting (hw : l.who = .mem n) (occ : Nat) : (mem (retire s l occ) n).ctl.halting = (mem s n).ctl.halting := by
  rw [mem_retire hw]; rfl

theorem retire_dbg (hw : l.who = .mem n) (occ : Nat) : (mem (retire s l occ) n).ctl.dbg = (mem s n).ctl.dbg := by
  rw [mem_retire hw]; rfl

theorem yield_record (hw : l.who = .mem n) {x : RecRun} (hx : runRcd (mem s n) = some x) :
    ∃ y, runRcd (mem (retire (updMem s n withYieldAsked) l 1) n) = some y ∧ y.yieldAsked = true ∧ y.phase = x.phase ∧ y.j = x.j := by
  have hasked : runRcd (mem (updMem s n withYieldAsked) n) = some { x with yieldAsked := true } := by
    obtain ⟨rest, hsteps⟩ := List.head?_eq_some_iff.1 hx
    rw [mem_updMem_same]
    simp only [runRcd, withYieldAsked, hsteps, List.head?_cons]
  exact runRcd_retire hw 1 hasked

/-- The issue of a lane posts nothing. -/
theorem retire_posted (s : State) (l : Lane) (occ : Nat) :
    (retire s l occ).recs = s.recs ∧ (retire s l occ).svcs = s.svcs ∧ (retire s l occ).recsTerm = s.recsTerm := by
  unfold retire
  split <;> exact ⟨rfl, rfl, rfl⟩

/-! ## `halt` of a lookup core (R266) -/

theorem halt_lookup {k : Nat} (hl : curLane s = some l) (hw : l.who = .lk k) (hgq : h.gq = false) (hqp : h.qp = false) :
    ∃ t, exec (.halt h) s = .next t ∧ (lookupCore t k).run = false ∧ (lookupCore t k).ended = some 0 := by
  refine ⟨_, lockstep_ok (s' := setLookup s k { lookupCore s k with run := false, ended := some 0, hold := none }) (occ := 1) hl ?_, ?_⟩
  · rcases l with ⟨w, q, ln⟩
    obtain rfl : w = _ := hw
    simp [inert, hgq, hqp]
  · simp [retire, hw]

/-! ## `uiret` (R272) -/

/-- A member that leaves its handler at the end of the cycle. -/
def withLeaving (m : Member) : Member := { m with ui := { m.ui with leaving := true } }

theorem uiret_leaves (hl : curLane s = some l) (hw : l.who = .hnd n) (hgq : h.gq = false) :
    exec (.uiret h) s = .next (retire (updMem s n withLeaving) l 1) := by
  refine lockstep_ok hl ?_
  rcases l with ⟨w, q, ln⟩
  obtain rfl : w = _ := hw
  simp only [hgq, Bool.not_false, require_true, ok_bind]
  rfl

theorem uiret_outside (hl : curLane s = some l) (hw : ∀ k, l.who ≠ .hnd k) :
    exec (.uiret h) s = .next (laneFault s l (trapOf .illegal)) := by
  refine lockstep_trap hl ?_
  rcases l with ⟨n | n | k, q, ln⟩
  · rfl
  · exact absurd rfl (hw n)
  · rfl

/-! ## `pcread` (R270) -/

theorem pcread_schedules {d a : SReg} {act : Act} (hw : l.who = .mem n ∨ l.who = .hnd n) (hact : Acts s l h act)
    (hn : needLanded s l.who [d] = .ok ()) (hf : LateFits s l d act) :
    exec (.pcread h d a 0) s = .next (retire
      (schedule s l d (s.cal + 127) (.pcread (mem s n).spr.perfSel 0 (plain [n]) (s.cal + 16)) (actLit act)) l 1) := by
  obtain ⟨hl, hq, hne⟩ := hact
  refine lockstep_ok hl ?_
  have hd := plainDest_of_lateFits hf
  have hfits := Nat.not_lt.2 (lateCount_le hf)
  rcases l with ⟨w, q, ln⟩
  rcases hw with hw | hw <;> obtain rfl : w = _ := hw
  all_goals
    dsimp only at hq hn hd hfits
    simp only [hq, hne, hn, hd, if_true, if_false, ok_bind, mapAlts_plain]
    exact (require_bind rfl).trans (if_neg hfits)

end

/-- Settles O16, instruction by instruction. -/
theorem systemHeld : Obligations.SystemHeld := by
  unfold Obligations.SystemHeld
  intro s l n h code hl
  refine ⟨fun a sn v hw hsn hh => ?wrsr, fun hw hh => ⟨?halt, ?brk, fun r hr hker hint => ?yield⟩, fun hw hh => ⟨?pcsel, trap_faults hh⟩,
    fun hh => trmark_marks hh n, fun k hw hgq hqp => halt_lookup hl hw hgq hqp⟩
  case wrsr =>
    refine ⟨_, wrsr_writes hw hsn hh, ?_, ?_, ?_, retire_dmem_any ..⟩
    · rw [retire_keeps (fun m => m.fly.spr) fun _ _ _ => rfl, mem_updMem_same]; rfl
    · rw [retire_keeps (fun m => m.regs) fun _ _ _ => rfl, mem_updMem_same]; rfl
    · rw [retire_keeps (fun m => m.spr) fun _ _ _ => rfl, mem_updMem_same]; rfl
  case halt =>
    refine ⟨_, halt_halts hw hh, ?_, ?_, retire_dmem_any ..⟩
    · rw [retire_halting hw, mem_updMem_same]; rfl
    · rw [retire_regs hw, mem_updMem_same]; rfl
  case brk =>
    refine ⟨_, brk_asks hw hh, (retire_dmem_any ..).trans ?_, (retire_dbg hw 1).trans ?_⟩
    · split <;> rfl
    · split
      · rw [mem_updMem_same]; rfl
      · rfl
  case yield => exact ⟨_, yield_offers hw hh hr hker hint, retire_dmem_any .., fun x hx => yield_record hw hx⟩
  case pcsel =>
    refine ⟨_, pcsel_selects hw hh, ?_, retire_dmem_any ..⟩
    rw [retire_keeps (fun m => m.spr) fun _ _ _ => rfl, mem_updMem_same]; rfl

/-- Settles O17, instruction by instruction. -/
theorem callsHandlersAndCounters : Obligations.CallsHandlersAndCounters := by
  unfold Obligations.CallsHandlersAndCounters
  refine ⟨fun s l h code a b c d hh => ?svc, fun s l n h hl => ⟨fun hw hgq => ?uiret, uiret_outside hl,
    fun d a act hw hact hn hf => pcread_schedules hw hact hn hf⟩⟩
  case svc =>
    obtain ⟨r, x, hrecs, hreplay, hcause, hstatus, hlaunch, hsvcs, hcode, hargs, hsite, hterm, hdmem⟩ :=
      postSvc_posts s l.who code [a, b, c, d] (capNow s l (.svc h code) [a, b, c, d])
    exact ⟨_, r, x, svc_posts hh, (retire_posted ..).1.trans hrecs, hreplay, hcause, hstatus, hlaunch, (retire_posted ..).2.1.trans hsvcs,
      hcode, hargs, hsite, (retire_posted ..).2.2.trans hterm, (retire_dmem_any ..).trans hdmem⟩
  case uiret =>
    refine ⟨_, uiret_leaves hl hw hgq, ?_, ?_, retire_dmem_any ..⟩
    · simp only [retire, hw, mem_updMem_same]; rfl
    · rw [retire_keeps (fun m => m.regs) fun _ _ _ => rfl, mem_updMem_same]; rfl

end Sys2Proof.Proofs
end

