-- ==== Sys2Proof/Proofs/EngineStreams.lean ====
section
/-! SUPPORT. The streams of a member and what stands beside them: a command in flight stored back, and flags that the engines
take and post (R246 to R249). -/

namespace Sys2Proof.Proofs

open Sys2Proof Sys2Proof.Machine Sys2Proof.Laws Sys2Proof.Claims

/-! ## A command in flight stored back -/

section
variable {s : State} {n : Nat} {e : Fin 4} {f g : Fly}

theorem mem_putFly_same (s : State) (n : Nat) (e : Fin 4) (g : Fly) : mem (putFly s n e g) n = setStream (mem s n) e
    { streamOf (mem s n) e with fly := (streamOf (mem s n) e).fly.map fun y => if y.idx = g.idx then g else y } :=
  mem_updStream_same ..

/-- A command that stands in flight is replaced by one of its index. -/
theorem mem_fly_putFly (hf : f ∈ (streamOf (mem s n) e).fly) (hg : g.idx = f.idx) :
    g ∈ (streamOf (mem (putFly s n e g) n) e).fly := by
  rw [mem_putFly_same, streamOf_setStream_same]
  exact List.mem_map.2 ⟨f, hf, if_pos hg.symm⟩

theorem putFly_regs (s : State) (n : Nat) (e : Fin 4) (g : Fly) (j : Nat) : (mem (putFly s n e g) j).regs = (mem s j).regs := by
  apply updMem_keeps Member.regs
  exact fun _ => rfl

theorem putFly_buf (s : State) (n : Nat) (e : Fin 4) (g : Fly) (j : Nat) : (mem (putFly s n e g) j).buf = (mem s j).buf := by
  apply updMem_keeps Member.buf
  exact fun _ => rfl

@[simp] theorem putFly_dmem (s : State) (n : Nat) (e : Fin 4) (g : Fly) : (putFly s n e g).dmem = s.dmem := rfl

theorem putFly_keeps (s : State) (n : Nat) (e : Fin 4) (g : Fly) : Keeps s (putFly s n e g) n := ⟨putFly_regs .., rfl⟩

theorem findFly_idx {idx : BitVec 32} (hf : findFly s n e idx = some f) : f ∈ (streamOf (mem s n) e).fly ∧ f.idx = idx :=
  ⟨List.mem_of_find?_eq_some hf, by simpa using List.find?_some hf⟩

/-- The command stored back is the one found under its index. -/
theorem findFly_putFly (hf : findFly s n e f.idx = some f) (hg : g.idx = f.idx) : findFly (putFly s n e g) n e f.idx = some g := by
  have hmap (l : List Fly) (hl : (l.find? fun y => y.idx == f.idx) = some f) :
      ((l.map fun y => if y.idx = g.idx then g else y).find? fun y => y.idx == f.idx) = some g := by
    induction l with
    | nil => cases hl
    | cons y r ih =>
      by_cases hy : y.idx = f.idx
      · simp [hg, hy]
      · rw [List.find?_cons_of_neg (by simpa using hy)] at hl
        simpa [hg, hy] using ih hl
  rw [findFly, mem_putFly_same, streamOf_setStream_same]
  exact hmap _ hf

end

@[simp] theorem streamOf_updStream_same (s : State) (n : Nat) (e : Fin 4) (f : Stream → Stream) :
    streamOf (mem (updStream s n e f) n) e = f (streamOf (mem s n) e) := by
  rw [mem_updStream_same, streamOf_setStream_same]

theorem CountsOnly.eng {s t : State} (h : CountsOnly s t) (j : Nat) : (mem t j).eng = (mem s j).eng := by
  obtain ⟨p, hp⟩ := h j; rw [hp]

theorem streamOf_congr {m m' : Member} (h : m'.eng = m.eng) (e : Fin 4) : streamOf m' e = streamOf m e := by
  simp only [streamOf, h]

/-! ## What a step beside the streams leaves -/

/-- Registers and streams of the members, and device memory, are as before. -/
structure Beside (s t : State) : Prop where
  regs : ∀ j, (mem t j).regs = (mem s j).regs
  eng : ∀ j, (mem t j).eng = (mem s j).eng
  dmem : t.dmem = s.dmem

section
variable {s t u : State}

theorem Beside.of_members (hm : t.members = s.members) (hd : t.dmem = s.dmem) : Beside s t :=
  ⟨fun j => by simp only [mem, hm], fun j => by simp only [mem, hm], hd⟩

theorem Beside.refl (s : State) : Beside s s := .of_members rfl rfl

theorem Beside.trans (h : Beside s t) (k : Beside t u) : Beside s u :=
  ⟨fun j => (k.regs j).trans (h.regs j), fun j => (k.eng j).trans (h.eng j), k.dmem.trans h.dmem⟩

theorem Beside.streamOf (h : Beside s t) (j : Nat) (e : Fin 4) : streamOf (mem t j) e = streamOf (mem s j) e :=
  streamOf_congr (h.eng j) e

theorem Beside.keeps (h : Beside s t) (n : Nat) : Keeps s t n := ⟨h.regs n, h.dmem⟩

end

theorem beside_updMem (s : State) (n : Nat) {f : Member → Member} (hr : ∀ m, (f m).regs = m.regs) (he : ∀ m, (f m).eng = m.eng) :
    Beside s (updMem s n f) :=
  ⟨updMem_keeps Member.regs hr s n, updMem_keeps Member.eng he s n, rfl⟩

/-! ## Flags written at their homes (R42) -/

theorem beside_setFlag (s : State) (k : FlagKey) (v : Word32) (a b : BitVec 16) : Beside s (setFlag s k v a b) := by
  cases k with
  | own T fn =>
    have hmem (j : Nat) : ∃ x, mem (setFlag s (.own T fn) v a b) j =
        { mem (updMem s T (withFlag fn v)) j with ctl := { (mem (updMem s T (withFlag fn v)) j).ctl with met := x } } :=
      mem_setFlag_own s T fn v a b j
    refine ⟨fun j => ?_, fun j => ?_, rfl⟩ <;> obtain ⟨x, hx⟩ := hmem j <;> rw [hx]
    · exact updMem_keeps Member.regs (f := withFlag fn v) (fun _ => rfl) s T j
    · exact updMem_keeps Member.eng (f := withFlag fn v) (fun _ => rfl) s T j
  | dev fn =>
    have h := noted_setFlag s fn v a b
    refine ⟨h.regs, fun j => ?_, rfl⟩
    obtain ⟨x, hx⟩ := h.members j
    rw [hx]

/-- A flag written holds what was written (R41). -/
theorem setFlag_flagVal (s : State) (k : FlagKey) (v : Word32) (a b : BitVec 16) : flagVal (setFlag s k v a b) k = v := by
  cases k with
  | own T fn =>
    obtain ⟨x, hx⟩ := mem_setFlag_own s T fn v a b T
    rw [flagVal, hx, mem_updMem_same]
    exact tget_tput_same ..
  | dev fn => exact tget_tput_same ..

/-- A post of one within the bound (R42, R48). -/
theorem postFlag_one {s : State} {k : FlagKey} (a b : BitVec 16) (hfits : (flagVal s k).toNat + 1 < 2 ^ 32) :
    postFlag s k 1 a b = (setFlag s k (flagVal s k + 1) a b, true) := by
  have hval : BitVec.ofNat 32 ((flagVal s k).toNat + 1) = flagVal s k + 1 := by simp [BitVec.ofNat_add]
  simp only [postFlag, hfits, if_true, hval, Nat.one_ne_zero, if_false]

/-- A consume takes one from a flag (R48). -/
theorem consume_flagVal (s : State) (k : FlagKey) : flagVal (consume s k) k = flagVal s k - 1 := by
  cases k with
  | own T fn =>
    simp only [flagVal, consume, mem_updMem_same]
    exact tget_tput_same ..
  | dev fn => exact tget_tput_same ..

theorem beside_consume (s : State) (k : FlagKey) : Beside s (consume s k) := by
  cases k with
  | own T fn => exact beside_updMem s T (f := withFlag fn (flagVal s (.own T fn) - 1)) (fun _ => rfl) (fun _ => rfl)
  | dev fn => exact .of_members rfl rfl

/-! ## What a step of a stream leaves -/

/-- Registers and flags, and device memory, are as before. -/
structure StreamsOnly (s t : State) : Prop where
  regs : ∀ j, (mem t j).regs = (mem s j).regs
  flags : ∀ k, flagVal t k = flagVal s k
  dmem : t.dmem = s.dmem

section
variable {s t u : State}

theorem StreamsOnly.of_members (hm : t.members = s.members) (hf : t.dflags = s.dflags) (hd : t.dmem = s.dmem) : StreamsOnly s t :=
  ⟨fun j => by simp only [mem, hm], fun k => by cases k <;> simp only [flagVal, mem, hm, hf], hd⟩

theorem StreamsOnly.trans (h : StreamsOnly s t) (k : StreamsOnly t u) : StreamsOnly s u :=
  ⟨fun j => (k.regs j).trans (h.regs j), fun x => (k.flags x).trans (h.flags x), k.dmem.trans h.dmem⟩

theorem StreamsOnly.keeps (h : StreamsOnly s t) (n : Nat) : Keeps s t n := ⟨h.regs n, h.dmem⟩

end

theorem streamsOnly_updMem (s : State) (n : Nat) {f : Member → Member} (hr : ∀ m, (f m).regs = m.regs)
    (hb : ∀ m, (f m).buf.flags = m.buf.flags) : StreamsOnly s (updMem s n f) := by
  refine ⟨updMem_keeps Member.regs hr s n, fun k => ?_, rfl⟩
  cases k with
  | own T fn => exact congrArg (tget 0 · fn) (updMem_keeps (fun m => m.buf.flags) hb s n T)
  | dev fn => rfl

theorem streamsOnly_updStream (s : State) (n : Nat) (e : Fin 4) (f : Stream → Stream) : StreamsOnly s (updStream s n e f) :=
  streamsOnly_updMem s n (f := fun m => setStream m e (f (streamOf m e))) (fun _ => rfl) (fun _ => rfl)

end Sys2Proof.Proofs
end

