-- ==== Sys2Proof/Proofs/EngineCommands.lean ====
section
/-! PROOF. What the engines do with their commands: start, completion, failure, restart, the chunks of a collective, LOCK and the
drain of readers (R247 to R250, R258, R371, R373). -/

namespace Sys2Proof.Proofs

open Sys2Proof Sys2Proof.Machine Sys2Proof.Laws Sys2Proof.Claims

/-! ## Start (R247, R248) -/

theorem streamOf_count (m : Member) (k : Nat) (e : Fin 4) : streamOf (count m k) e = streamOf m e := rfl

/-- A command that has started stands in flight with its stream's next index, and has left the queue. -/
structure Started (x y : Stream) (c : Cap) (g : Fly) : Prop where
  fly : y.fly = x.fly ++ [g]
  cap : g.cap = c
  idx : g.idx = x.idx
  unchained : g.fromChain = false
  next : y.idx = x.idx + 1
  queue : y.queue = x.queue.tail

section
variable {s u : State} {n : Nat} {e : Fin 4} {c d : Cap}

theorem beginCmd_begins (hx : (streamOf (mem s n) e).chain = none) :
    StreamsOnly s (beginCmd s n e c false) ∧
      ∃ g, Started (streamOf (mem s n) e) (streamOf (mem (beginCmd s n e c false) n) e) c g := by
  have hpop : (popNext (streamOf (mem s n) e)).queue = (streamOf (mem s n) e).queue.tail := by simp [popNext, hx]
  unfold beginCmd
  dsimp only
  constructor
  · exact .trans (.of_members (t := setClock (takeFresh s).2 (2 ^ 40 + (takeFresh s).1) c.clk) rfl rfl rfl)
      (by apply streamsOnly_updMem <;> exact fun _ => rfl)
  · rw [mem_updMem_same, streamOf_count, streamOf_setStream_same]
    simp only [hx, Option.map_none, Option.getD_none, or_true, if_true, Bool.false_eq_true, if_false]
    split <;> exact ⟨_, rfl, rfl, rfl, rfl, rfl, hpop⟩

/-- A command that no chain brings is the stream's own. -/
theorem chain_of_readyCmd {m : Member} (hr : readyCmd m e = some (c, false)) : (streamOf m e).chain = none := by
  cases hx : (streamOf m e).chain with
  | none => rfl
  | some ch =>
    have hn : nextCmd (streamOf m e) = ch.cur.map fun p => (p, true) := by simp [nextCmd, hx]
    cases hc : ch.cur <;> simp [readyCmd, hn, hc] at hr

/-- Nothing holds the next command of a stream (R247, R248). -/
structure Ready (s : State) (n : Nat) (e : Fin 4) (c : Cap) : Prop where
  due : stampDue s n e = none
  phase : s.phase ≠ .start
  ready : readyCmd (mem s n) e = some (c, false)
  stamp : ∀ t, stampOf c = some t → t ≤ s.cal

/-- A command that takes all its tokens starts. -/
theorem startCmd_of_tokens (hc : Ready s n e c) (ht : takeTokens n e (streamOf (mem s n) e).idx.toNat ((cmdTokens c.ins).drop c.taken) s c =
    (u, d, true)) : startCmd n e s = beginCmd (updStream u n e fun x => putNext x d) n e d false := by
  obtain ⟨hdue, hphase, hready, hstamp⟩ := hc
  cases hs : stampOf c with
  | none => simp [startCmd, hdue, hready, ht, hphase, hs]
  | some t => simp [startCmd, hdue, hready, ht, hphase, hs, Nat.not_lt.2 (hstamp t hs)]

theorem putNext_unchained {x : Stream} (hx : x.chain = none) (d : Cap) : putNext x d = { x with queue := d :: x.queue.tail } := by
  simp [putNext, hx]

theorem startCmd_starts (hc : Ready s n e c) (hb : Beside s u)
    (ht : takeTokens n e (streamOf (mem s n) e).idx.toNat ((cmdTokens c.ins).drop c.taken) s c = (u, d, true)) :
    Keeps s (startCmd n e s) n ∧ (∀ k, flagVal (startCmd n e s) k = flagVal u k) ∧
      ∃ g, Started (streamOf (mem s n) e) (streamOf (mem (startCmd n e s) n) e) d g := by
  let v := updStream u n e fun x => putNext x d
  have hchain := chain_of_readyCmd hc.ready
  have hv : streamOf (mem v n) e = { streamOf (mem s n) e with queue := d :: (streamOf (mem s n) e).queue.tail } := by
    rw [streamOf_updStream_same, hb.streamOf, putNext_unchained hchain]
  have hnone : (streamOf (mem v n) e).chain = none := by rw [hv]; exact hchain
  obtain ⟨honly, g, hg⟩ := beginCmd_begins (c := d) hnone
  have hall : StreamsOnly u (beginCmd v n e d false) := (streamsOnly_updStream ..).trans honly
  rw [startCmd_of_tokens hc ht]
  refine ⟨⟨(hall.regs n).trans (hb.regs n), hall.dmem.trans hb.dmem⟩, hall.flags, g, ?_⟩
  rw [hv] at hg
  obtain ⟨hfly, hcap, hidx, hun, hnext, hqueue⟩ := hg
  exact ⟨hfly, hcap, hidx, hun, hnext, hqueue⟩

/-- A token whose flag is not zero is taken (R247). -/
theorem takeTokens_one {k : FlagTok} (idx : Nat) (hsince : c.since = none) (hk : flagVal s (tokKey n k) ≠ 0) :
    ∃ d, takeTokens n e idx [k] s c = (consume s (tokKey n k), d, true) := by
  simp only [takeTokens, hk, if_false, hsince]
  exact ⟨_, rfl⟩

end

/-! ## Completion (R249) -/

section
variable {s : State} {n : Nat} {e : Fin 4} {f : Fly}

/-- What is left of a completed command: its stream without it. -/
def flyDropped (x : Stream) (f : Fly) : Stream := { x with fly := x.fly.filter fun y => y.idx != f.idx }

theorem dropFly_drops (s : State) (n : Nat) (e : Fin 4) (f : Fly) :
    StreamsOnly s (dropFly s n e f) ∧ streamOf (mem (dropFly s n e f) n) e = flyDropped (streamOf (mem s n) e) f := by
  refine ⟨(streamsOnly_updStream s n e fun x => flyDropped x f).trans (.of_members rfl rfl rfl), ?_⟩
  exact streamOf_updStream_same s n e fun x => flyDropped x f

/-- The completion of a command that is no collective, its token posted: it is counted and dropped. -/
theorem completeCmd_drops {u : State} {d : ECmd} (hf : findFly s n e f.idx = some f) (hm : mayComplete (streamOf (mem s n) e) f = true)
    (hseen : unseen s (.eng n e) (clockOf s f.agent) = []) (hd : cmdOf f.cap.ins = some d) (hui : d.ui = false)
    (hcoll : collOf f.cap.ins = none) (hp : produce s n e f = (u, true)) :
    completeCmd n e f.idx s = dropFly (updMem (learn u (agentNo n 7) (clockOf u f.agent)) n fun m => count m (0x051 + 3 * e.val)) n e f := by
  have hvis : sysVisible s (.eng n e) (clockOf s f.agent) = (true, s) := by simp [sysVisible, awaitVisible, hseen]
  simp only [completeCmd, hf, hm, hvis, hp, hd, Option.map_some, hui]
  simp only [Bool.not_true, Bool.false_eq_true, if_false]
  split
  case h_6 => rfl
  all_goals
    rename_i h
    rw [h] at hcoll
    cases hcoll

/-- A completed command has left its stream, and of flags only its produce token is posted. -/
theorem completeCmd_leaves {u : State} {d : ECmd} (hf : findFly s n e f.idx = some f) (hm : mayComplete (streamOf (mem s n) e) f = true)
    (hseen : unseen s (.eng n e) (clockOf s f.agent) = []) (hd : cmdOf f.cap.ins = some d) (hui : d.ui = false)
    (hcoll : collOf f.cap.ins = none) (hp : produce s n e f = (u, true)) (hb : Beside s u) :
    Keeps s (completeCmd n e f.idx s) n ∧ (∀ k, flagVal (completeCmd n e f.idx s) k = flagVal u k) ∧
      (streamOf (mem (completeCmd n e f.idx s) n) e).fly = (streamOf (mem s n) e).fly.filter fun y => y.idx != f.idx := by
  let v := updMem (learn u (agentNo n 7) (clockOf u f.agent)) n fun m => count m (0x051 + 3 * e.val)
  have hv : StreamsOnly u v := .trans (.of_members (t := learn u (agentNo n 7) (clockOf u f.agent)) rfl rfl rfl)
    (by apply streamsOnly_updMem <;> exact fun _ => rfl)
  have hstream : streamOf (mem v n) e = streamOf (mem s n) e := by rw [mem_updMem_same, streamOf_count, ← hb.streamOf n e]; rfl
  obtain ⟨honly, hdrop⟩ := dropFly_drops v n e f
  rw [completeCmd_drops hf hm hseen hd hui hcoll hp]
  refine ⟨⟨((hv.trans honly).regs n).trans (hb.regs n), hb.dmem⟩, (hv.trans honly).flags, ?_⟩
  rw [hdrop, hstream]
  rfl

theorem produce_none {d : ECmd} (hd : cmdOf f.cap.ins = some d) (hn : d.produce = none) : produce s n e f = (s, true) := by
  simp [produce, hd, hn]

/-- A produce token within the bound is posted (R249). -/
theorem produce_posts {d : ECmd} {k : FlagTok} (hd : cmdOf f.cap.ins = some d) (hk : d.produce = some k)
    (hfits : (flagVal s (tokKey n k)).toNat + 1 < 2 ^ 32) :
    ∃ u, produce s n e f = (u, true) ∧ Beside s u ∧ flagVal u (tokKey n k) = flagVal s (tokKey n k) + 1 := by
  let r := release s (flagClkKey (tokKey n k) (scopeKey 2 n)) (clockOf s f.agent)
  have hr : flagVal r (tokKey n k) = flagVal s (tokKey n k) := by cases tokKey n k <;> rfl
  have hpost := postFlag_one (s := r) (k := tokKey n k) (srcId 2 e.val n) 0 (by rwa [hr])
  refine ⟨_, by simp only [produce, hd, Option.bind_some, hk]; rw [hpost]; rfl, ?_, ?_⟩
  · exact .trans (t := r) (.of_members rfl rfl) (beside_setFlag ..)
  · rw [setFlag_flagVal, hr]

end

/-! ## Failure (R250, R400) -/

section
variable {s : State} {n : Nat} {e : Fin 4} {f : Fly}

/-- Records, replays, registers and streams: what the destination of a failed collective is no part of. -/
def stopView (s : State) : List FaultRec × List Replay × (Nat → Regs × Tab Stream) :=
  (s.recs, s.replays, fun j => ((mem s j).regs, (mem s j).eng))

theorem stopView_updMem {g : Member → Member} (hr : ∀ m, (g m).regs = m.regs) (he : ∀ m, (g m).eng = m.eng) :
    stopView (updMem s n g) = stopView s := by
  have h := beside_updMem s n hr he
  simp only [stopView, h.regs, h.eng, updMem_recs, updMem_replays]

theorem spoilColl_stopView (s : State) (n : Nat) (f : Fly) : stopView (spoilColl s n f) = stopView s := by
  unfold spoilColl
  split
  · split
    · rfl
    · refine foldl_keeps stopView (fun s c => ?_) _ _
      dsimp only
      generalize ((List.range 2048).map fun i => (Config.freeWord (s.free + i)).setWidth 8) = b
      split
      · split <;> rfl
      · exact stopView_updMem (fun _ => rfl) fun _ => rfl
  · rfl

theorem spoilColl_plain (hcoll : collOf f.cap.ins = none) : spoilColl s n f = s := by
  simp [spoilColl, hcoll]

/-- The stream stops at a command whose failure is replayable, and its record is posted (R250). -/
structure Stopped (s t : State) (n : Nat) (e : Fin 4) (f : Fly) (k : Kind) : Prop where
  regs : (mem t n).regs = (mem s n).regs
  dmem : t.dmem = s.dmem
  stopped : (streamOf (mem t n) e).stopped = some f
  fly : (streamOf (mem t n) e).fly = (streamOf (mem s n) e).fly.filter fun y => y.idx != f.idx
  recs : ∃ r, t.recs = s.recs ++ [r] ∧ r.replay = true ∧ r.cause.toNat = kindCode k
  replays : t.replays.length = s.replays.length + 1

/-- A stream that has stopped at a command. -/
def stoppedAt (x : Stream) (f : Fly) : Stream := { x with fly := x.fly.filter fun y => y.idx != f.idx, stopped := some f }

/-- The note of a walk changes nothing of these, nor device memory (R319). -/
theorem noteWalk_stopView (s : State) (ctx va : Nat) (c : Prop) [Decidable c] :
    stopView (if c then noteWalk s ctx va else s) = stopView s ∧ (if c then noteWalk s ctx va else s).dmem = s.dmem := by
  split
  · unfold noteWalk
    split <;> exact ⟨rfl, rfl⟩
  · exact ⟨rfl, rfl⟩

theorem failStep_stops {detail va : Nat} {k : Kind} (hf : findFly s n e f.idx = some f) (hfail : f.fail = some (k, detail, va))
    (hx : (streamOf (mem s n) e).stopped = none) (hk : k = .page ∨ k = .staleHandle) : Stopped s (failStep n e f.idx s) n e f k := by
  let r := failRec s n e f k detail va
  have hreplay : r.replay = true := by rcases hk with rfl | rfl <;> rfl
  have hcause : r.cause.toNat = kindCode k := by rcases hk with rfl | rfl <;> rfl
  have hpost (u : State) : postRec u r = { u with recs := u.recs ++ [r] } := if_pos hreplay
  obtain ⟨u, hview, hdmem, hstep⟩ : ∃ u, stopView u = stopView s ∧ u.dmem = s.dmem ∧ failStep n e f.idx s =
      let v := updMem { u with recs := u.recs ++ [r] } n fun m => count (setStream m e (stoppedAt (streamOf m e) f)) (0x050 + 3 * e.val + 2)
      { v with replays := u.replays ++ [{ site := n, src := .stream e, seq := f.idx.toNat, va := BitVec.ofNat 64 va }] } := by
    exact ⟨_, (noteWalk_stopView ..).1, (noteWalk_stopView ..).2, by simp only [failStep, hf, hfail, hx, hk, if_true]; rw [hpost]; rfl⟩
  simp only [stopView, Prod.mk.injEq, funext_iff] at hview
  obtain ⟨hrecs, hreplays, hmem⟩ := hview
  obtain ⟨hregs, heng⟩ := hmem n
  let v := updMem { u with recs := u.recs ++ [r] } n fun m => count (setStream m e (stoppedAt (streamOf m e) f)) (0x050 + 3 * e.val + 2)
  have hv : mem v n = count (setStream (mem u n) e (stoppedAt (streamOf (mem u n) e) f)) (0x050 + 3 * e.val + 2) := mem_updMem_same ..
  have hstream : streamOf (mem v n) e = stoppedAt (streamOf (mem s n) e) f := by
    rw [hv, streamOf_count, streamOf_setStream_same, streamOf_congr heng]
  rw [hstep]
  exact {
    regs := (congrArg Member.regs hv).trans hregs
    dmem := hdmem
    stopped := congrArg Stream.stopped hstream
    fly := congrArg Stream.fly hstream
    recs := ⟨r, congrArg (· ++ [r]) hrecs, hreplay, hcause⟩
    replays := by simp [hreplays] }

/-- The command of a stopped stream is in flight no more. -/
theorem Stopped.gone {s t : State} {n : Nat} {e : Fin 4} {f : Fly} {k : Kind} (h : Stopped s t n e f k) : findFly t n e f.idx = none := by
  rw [findFly, h.fly, List.find?_eq_none]
  intro y hy
  simpa using (List.mem_filter.1 hy).2

/-- ENGINE_COMMAND_FAIL of a replayable failure: it leaves any bits in the destination of a collective, and stops its stream. -/
theorem engineCommandFail_stops {i detail va : Nat} {k : Kind} (hi : f.idx = BitVec.ofNat 32 i) (hf : findFly s n e f.idx = some f)
    (hlock : lockOwed f = false) (hfail : f.fail = some (k, detail, va)) (hx : (streamOf (mem s n) e).stopped = none)
    (hk : k = .page ∨ k = .staleHandle) :
    ∃ t, exec (.engineCommandFail n e i) s = .next t ∧ Stopped (spoilColl s n f) t n e f k := by
  have hspoil := spoilColl_stopView s n f
  simp only [stopView, Prod.mk.injEq, funext_iff] at hspoil
  obtain ⟨-, -, hmem⟩ := hspoil
  have hstream : streamOf (mem (spoilColl s n f) n) e = streamOf (mem s n) e := streamOf_congr (hmem n).2 e
  have hfound : findFly (spoilColl s n f) n e f.idx = some f := by rw [findFly, hstream]; exact hf
  refine ⟨_, ?_, failStep_stops hfound hfail (hstream ▸ hx) hk⟩
  change execEngineCommandFail n e i s = _
  simp only [execEngineCommandFail, ← hi, hf, hlock, (failStep_stops hf hfail hx hk).gone]
  rfl

end

/-! ## Restart (R250) -/

/-- A command back among those in flight. -/
theorem mem_insertFly (f : Fly) (l : List Fly) : f ∈ insertFly f l := by
  induction l with
  | nil => exact List.mem_singleton_self f
  | cons g r ih =>
    rw [insertFly]
    split
    · exact List.mem_cons_self ..
    · exact List.mem_cons_of_mem _ ih

/-- A command as it runs again: with its operands, and nothing begun. -/
def rerun (f : Fly) : Fly :=
  { f with fail := none, ops := [], got := [], req := [], wr := [],
           aux := if f.aux.length = 5 then ((collOf f.cap.ins).map fun _ => collAux 0 0 0 (nthOf f)).getD [] else [],
           pages := [], ph := 1 }

/-- A stream that runs again from a command. -/
def restarted (x : Stream) (f : Fly) : Stream := { x with stopped := none, fly := insertFly (rerun f) x.fly }

theorem restartStream_restarts {s : State} {n : Nat} {e : Fin 4} {f : Fly} (hx : (streamOf (mem s n) e).stopped = some f)
    (hchain : f.fromChain = false) (hlink : ∀ next, f.cap.ins ≠ .linkWord next)
    (hdone : (s.replays.any fun r => r.site == n && r.src == .stream e) = false) :
    restartStream n e s = updStream s n e fun x => restarted x f := by
  simp only [restartStream, restarted, rerun, hx, hchain, hdone]
  simp only [Bool.false_eq_true, false_and, if_false, true_or, if_true]
  cases collOf f.cap.ins <;> rfl

/-! ## Chunks of a collective (R258) -/

section
variable {s u : State} {n : Nat}

theorem deliverPieces_dmem (a : Acc) (n off : Nat) (l : List (List Byte)) : ∀ {s u : State} {i : Nat},
    deliverPieces a n off s i l = some u → u.dmem = s.dmem := by
  induction l with
  | nil => intro s u i h; cases h; rfl
  | cons b r ih =>
    intro s u i h
    simp only [deliverPieces, writeBuf] at h
    split at h
    · rename_i v hv
      split at hv
      · cases hv
      · cases hv
        exact (ih h).trans (bufWrite_dmem ..)
    · cases h

/-- A slot set full is full, and AB and device memory stand (R44). -/
theorem turnSlot_full (s : State) (n b slot : Nat) (clk : Clock) : slotFull (mem (turnSlot s n b slot true clk) n) b slot = true ∧
    (mem (turnSlot s n b slot true clk) n).buf.ab = (mem s n).buf.ab ∧ (turnSlot s n b slot true clk).dmem = s.dmem := by
  let full : Member → Member := fun m =>
    { putSlot m b slot true with buf := { (putSlot m b slot true).buf with turned := slotKey b slot :: (putSlot m b slot true).buf.turned } }
  have hmem : mem (turnSlot s n b slot true clk) n = full (mem s n) := mem_updMem_same s n full
  rw [hmem]
  refine ⟨slotFull_putSlot_same (mem s n) b slot true, ?_, rfl⟩
  simp only [full, putSlot]
  split <;> rfl

/-- What a chunk of a collective finds when it arrives (R258). -/
structure Arrives (s : State) (n chunk kind : Nat) (k : Coll) (f : Fly) (g : Grp) (l : List (List Byte)) : Prop where
  found : findFly s n 2 f.idx = some f
  coll : collOf f.cap.ins = some (kind, k)
  group : grpOf s n f = some g
  phase : f.ph = 4
  sound : f.fail = none
  ops : f.ops = []
  idle : f.aux.getD 2 0 = 0
  fresh : (f.wr.any fun p => p.1 == chunk) = false
  fits : 2048 * chunk < grpDest g
  pieces : destChunk s (bindOf s n).launch g (nthOf f) chunk = some l
  toBuf : k.dg = false

theorem chunkStep_lands {chunk kind : Nat} {k : Coll} {f : Fly} {g : Grp} {l : List (List Byte)} (h : Arrives s n chunk kind k f g l)
    (hslot : slotReady (mem s n) 2 ((regN f 3 + 2048 * chunk) / 2048) false = true)
    (hu : deliverPieces { engAcc s n 2 f with clk := joinClock (engAcc s n 2 f).clk (slotClock s n 2 ((regN f 3 + 2048 * chunk) / 2048)) } n
      (regN f 3 + 2048 * chunk) s 0 l = some u) :
    chunkStep n f.idx chunk s = turnSlot (putFly u n 2 { f with wr := f.wr ++ [(chunk, [])] }) n 2 ((regN f 3 + 2048 * chunk) / 2048) true
      (clockOf u f.agent) := by
  obtain ⟨hf, hcoll, hgrp, hph, hfail, hops, haux, hwr, hfits, hl, hdg⟩ := h
  simp only [chunkStep, hf, hcoll, hgrp, hl, hdg, hslot, hu]
  have hidle : f.aux[2]?.getD 0 = 0 := by simpa using haux
  simp [hph, hfail, hops, hidle, hwr, Nat.not_le.2 hfits]

end

/-! ## LOCK (R371, R373) -/

section
variable {s : State} {n : Nat} {f g : Fly}

/-- An atomic that finds no new value changes no memory (R282). -/
theorem atomBy_finds {a : Acc} {key pa k : Nat} {new : Nat → Option Nat} (h : Undisturbed s a.ctx key pa) (hk : pa % 32 + k ≤ 32)
    (hnone : new (numAt s.dmem pa k) = none) :
    ∃ t, atomBy s a key pa k new = (.data (bytesAt s.dmem pa k), t) ∧ t.dmem = s.dmem ∧ CountsOnly s t := by
  obtain ⟨-, hm, hb, hq, hkey⟩ := h
  obtain ⟨t, ht, hd, hc⟩ := devRead_quiet (a := a) hb hq hkey hk
  rw [numAt] at hnone
  exact ⟨t, by simp only [atomBy, ht, debugHit_of_quiet hq, pay_unmetered _ _ hm, hnone], hd, hc⟩

/-- A compare-and-swap whose word is not the one compared changes no memory (R229). -/
theorem atomAt_finds {a : Acc} {key pa k v : Nat} (nv : Nat) (h : Undisturbed s a.ctx key pa) (hk : pa % 32 + k ≤ 32)
    (hv : numAt s.dmem pa k ≠ v) :
    ∃ t, atomAt s a key pa k 9 v nv = (.data (bytesAt s.dmem pa k), t) ∧ t.dmem = s.dmem ∧ CountsOnly s t := by
  obtain ⟨t, ht, hd, hc⟩ := atomBy_finds (new := atomNew 9 k v nv) h hk (by simp [atomNew, hv])
  have hlock : ¬(9 = 9 ∧ v = 0 ∧ leNat (bytesAt s.dmem pa k) = 0 ∧ a.site.map holder = some nv) := by
    rintro ⟨-, rfl, hz, -⟩
    exact hv hz
  refine ⟨t, ?_, hd, hc⟩
  unfold atomNew at ht
  unfold atomAt
  rw [ht]
  exact if_neg hlock

/-- A Harvest command that tries to take LOCK, on an undisturbed table (R371). -/
structure Locking (s : State) (n : Nat) (f : Fly) : Prop where
  found : (streamOf (mem s n) 3).fly.find? (fun g => isHarvest g.cap.ins && g.ph == 10) = some f
  sound : f.fail = none
  req : f.req = []
  aux : f.aux = []

theorem lockStep_tries (h : Locking s n f) (hdev : windowOf (hBase (aptOf f) + 4) = .dev) : lockStep n s =
    afterAtom s n f (atomAt s (engAcc s n 3 f) (hKeyIdx (aptOf f)) (hBase (aptOf f) + 4) 4 9 0 (holder n))
      fun old => if old = 0 then some 11 else none := by
  obtain ⟨hf, hfail, hreq, haux⟩ := h
  simp [lockStep, hf, hfail, hreq, triedNow, haux, aptAtom, hdev]

/-- A command stored back after an access that changed no stream. -/
theorem fly_after {t : State} (e : Fin 4) (hc : CountsOnly s t) (hf : f ∈ (streamOf (mem s n) e).fly) (hg : g.idx = f.idx) :
    g ∈ (streamOf (mem (putFly t n e g) n) e).fly :=
  mem_fly_putFly (s := t) (by rwa [streamOf_congr (hc.eng n)]) hg

theorem holder_lt (hn : n < 256) : holder n < 2 ^ 32 := by
  unfold holder siteRow siteCol
  omega

/-! ## The drain of readers (R373) -/

/-- The phase a Harvest command that waits for the readers of the old map goes on to, from what it last read. -/
def drained (s : State) (f : Fly) : Fly :=
  if f.aux = [1] then
    if aptNum f (8 + 4 * mapNow f) 4 = 0 then { f with ph := 18, aux := [] } else { f with aux := [2, s.cal] }
  else { f with ops := aptReads f (8 + 4 * mapNow f) 4, aux := [1] }

theorem drainStep_goes (hf : (streamOf (mem s n) 3).fly.find? (fun g => isHarvest g.cap.ins && g.ph == 17) = some f) (hops : f.ops = [])
    (hfail : f.fail = none) (ht : triedNow s f = false) :
    Keeps s (drainStep n s) n ∧ drained s f ∈ (streamOf (mem (drainStep n s) n) 3).fly ∧ (drained s f).idx = f.idx := by
  have hstep : drainStep n s = putFly s n 3 (drained s f) := by
    simp only [drainStep, hf, hops, hfail, ht, drained]
    simp only [ne_eq, not_true_eq_false, Option.isSome_none, Bool.false_eq_true, or_self, if_false, apply_ite (putFly s n 3)]
  have hidx : (drained s f).idx = f.idx := by
    unfold drained
    split <;> [split; skip] <;> rfl
  rw [hstep]
  exact ⟨putFly_keeps .., mem_fly_putFly (List.mem_of_find?_eq_some hf) hidx, hidx⟩

end

/-- Settles O45, event by event. -/
theorem engineCommands : Obligations.EngineCommands := by
  unfold Obligations.EngineCommands
  intro s n e c f idx x
  refine ⟨fun hdue hphase hready hstamp => ?start, ?complete, ?fail, fun hx hchain hlink hdone => ?restart, ?chunk,
    ?lock, ?drain⟩
  case start =>
    have hc : Ready s n e c := ⟨hdue, hphase, hready, hstamp⟩
    refine ⟨fun htok => ?_, fun k htok htaken hsince hk => ?_⟩
    · obtain ⟨hkeeps, -, g, hg⟩ := startCmd_starts hc (.refl s) (d := c) (by simp [htok, takeTokens])
      exact ⟨_, rfl, hkeeps, g, hg.fly, hg.cap, hg.idx, hg.unchained, hg.next, hg.queue⟩
    · obtain ⟨d, hd⟩ := takeTokens_one (e := e) (streamOf (mem s n) e).idx.toNat hsince hk
      obtain ⟨hkeeps, hflags, g, hg⟩ := startCmd_starts hc (beside_consume s (tokKey n k)) (d := d) (by simpa [htok, htaken] using hd)
      exact ⟨_, rfl, (hflags _).trans (consume_flagVal ..), hkeeps, by simp [hg.fly, x]⟩
  case complete =>
    intro i d hi hf hm hseen hd hui hcoll
    obtain ⟨-, rfl⟩ := findFly_idx hf
    refine ⟨fun hnone => ?_, fun k hk hfits => ?_⟩
    · obtain ⟨hkeeps, -, hfly⟩ := completeCmd_leaves hf hm hseen hd hui hcoll (produce_none hd hnone) (.refl s)
      exact ⟨_, congrArg (fun y => Host.Outcome.next (completeCmd n e y s)) hi.symm, hkeeps, hfly⟩
    · obtain ⟨u, hu, hb, hval⟩ := produce_posts (s := s) (n := n) (e := e) hd hk hfits
      obtain ⟨hkeeps, hflags, hfly⟩ := completeCmd_leaves hf hm hseen hd hui hcoll hu hb
      exact ⟨_, congrArg (fun y => Host.Outcome.next (completeCmd n e y s)) hi.symm, hkeeps, (hflags _).trans hval, hfly⟩
  case fail =>
    intro i detail va k hi hf hlock hfail hx hk
    obtain ⟨-, rfl⟩ := findFly_idx hf
    obtain ⟨t, ht, hstop⟩ := engineCommandFail_stops hi hf hlock hfail hx hk
    have hview := spoilColl_stopView s n f
    simp only [stopView, Prod.mk.injEq, funext_iff] at hview
    obtain ⟨hrecs, hreplays, hmem⟩ := hview
    refine ⟨t, ht, hstop.regs.trans (hmem n).1, fun hcoll => hstop.dmem.trans (by rw [spoilColl_plain hcoll]), hstop.stopped, ?_, ?_, ?_⟩
    · rw [hstop.fly, streamOf_congr (hmem n).2]
    · exact hrecs ▸ hstop.recs
    · exact hreplays ▸ hstop.replays
  case restart =>
    refine ⟨_, congrArg Host.Outcome.next (restartStream_restarts hx hchain hlink hdone), (streamsOnly_updStream ..).keeps n, ?_⟩
    rw [streamOf_updStream_same]
    exact ⟨rfl, rerun f, mem_insertFly _ _, rfl, rfl, rfl, rfl, rfl, rfl⟩
  case chunk =>
    intro i chunk kind k g l u hi hf hcoll hgrp hph hfail hops haux hwr hfits hl hdg off hslot hu
    obtain ⟨-, rfl⟩ := findFly_idx hf
    have hstep := chunkStep_lands ⟨hf, hcoll, hgrp, hph, hfail, hops, haux, hwr, hfits, hl, hdg⟩ hslot hu
    obtain ⟨hfull, hab, hdmem⟩ := turnSlot_full (putFly u n 2 { f with wr := f.wr ++ [(chunk, [])] }) n 2 (off / 2048) (clockOf u f.agent)
    refine ⟨_, congrArg Host.Outcome.next ((congrArg (chunkStep n · chunk s) hi.symm).trans hstep), hfull, ?_, ?_⟩
    · rw [hab, putFly_buf]
    · exact hdmem.trans (show u.dmem = s.dmem from deliverPieces_dmem _ _ _ _ hu)
  case lock =>
    intro hf hfail hreq haux _ hn pa hpa hund
    have hstep := lockStep_tries ⟨hf, hfail, hreq, haux⟩ hund.1
    have hfly := List.mem_of_find?_eq_some hf
    refine ⟨fun hzero => ?_, fun hheld => ?_⟩
    · obtain ⟨t, ht, hc, hbytes⟩ := atomAt_undisturbed (a := engAcc s n 3 f) 9 0 (holder n) hund (n := 4) (by omega)
      have hnew : atomNew 9 4 0 (holder n) (numAt s.dmem pa 4) = some (holder n) := by simp [atomNew, hzero]
      have hdone : lockStep n s = putFly t n 3 { f with ph := 11, wr := [], aux := [] } := by
        rw [numAt] at hzero
        simp only [hstep, pa, ht, afterAtom, hzero, if_true]
      rw [hnew] at hbytes
      refine ⟨_, congrArg Host.Outcome.next hdone, ?_, ⟨_, fly_after 3 hc hfly rfl, rfl, rfl⟩, fun a ha => ?_⟩
      · exact (numAt_of_withNew hbytes).trans (Nat.mod_eq_of_lt (holder_lt hn))
      · exact (hbytes a).trans (byteAt_withNew_outside _ _ ha)
    · obtain ⟨t, ht, hdmem, hc⟩ := atomAt_finds (a := engAcc s n 3 f) (holder n) hund (k := 4) (by omega) hheld
      have hdone : lockStep n s = putFly t n 3 { f with aux := [2, s.cal] } := by
        rw [numAt] at hheld
        simp only [hstep, pa, ht, afterAtom, hheld, if_false]
      have hph : f.ph = 10 := by
        have h := List.find?_some hf
        simp only [Bool.and_eq_true, beq_iff_eq] at h
        exact h.2
      refine ⟨_, congrArg Host.Outcome.next hdone, ⟨(putFly_regs ..).trans (hc.regs n), hdmem⟩, _, fly_after 3 hc hfly rfl, rfl, hph, rfl⟩
  case drain =>
    intro hf hops hfail ht off goes
    obtain ⟨hkeeps, hin, hidx⟩ := drainStep_goes hf hops hfail ht
    have hph : f.ph = 17 := by
      have h := List.find?_some hf
      simp only [Bool.and_eq_true, beq_iff_eq] at h
      exact h.2
    have hgoes {P : Fly → Prop} (hP : P (drained s f)) : goes P := ⟨_, rfl, hkeeps, _, hin, hidx, hP⟩
    refine ⟨fun haux => hgoes ?_, fun haux hz => hgoes ?_, fun haux hz => hgoes ?_⟩
    · rw [drained, if_neg haux]
      exact ⟨hph, rfl, rfl⟩
    · rw [drained, if_pos haux, if_pos hz]
      exact ⟨rfl, hops⟩
    · rw [drained, if_pos haux, if_neg hz]
      exact ⟨hph, hops, rfl⟩

end Sys2Proof.Proofs
end

