-- ==== Sys2Proof/Proofs/Services.lean ====
section
/-! PROOF. The services of `svc`: how each ends, what it did before, and the code that is none (R265, R317 to R324, R348). -/

namespace Sys2Proof.Proofs

open Sys2Proof Sys2Proof.Machine Sys2Proof.Laws Sys2Proof.Claims

/-! ## How a service ends (R265) -/

section
variable {s u : State} {r : SvcReq}

/-- The requests without one. -/
def withoutSvc (s : State) (r : SvcReq) : State := { s with svcs := s.svcs.filter fun x => x.id != r.id }

/-- The state once own flag 1023 of the member is posted. -/
def svcPosted (s : State) (r : SvcReq) : State :=
  setFlag s (.own r.site 1023) (flagVal s (.own r.site 1023) + 1) (srcId 5 0 0) 0

/-- The state once a service's request is gone and its block, if one is asked for, is written. -/
def svcBlock (s : State) (r : SvcReq) (status : Nat) (res : List Byte) : State :=
  if svcArg r 3 = 0 ∨ !blockOk (withoutSvc s r) r then withoutSvc s r
  else
    let d := drawBytes (24 - res.length) (withoutSvc s r)
    (ctxWrite r.ctx.toNat (svcArg r 3) (leBytes 4 status ++ leBytes 4 0 ++ res ++ d.1) d.2).2

theorem svcEnd_eq (s : State) (r : SvcReq) (status : Nat) (res : List Byte) : svcEnd s r status res =
    let p := postFlag (svcBlock s r status res) (.own r.site 1023) 1 (srcId 5 0 0) 0
    if p.2 then p.1 else updMem p.1 r.site fun m => { m with spr := { m.spr with oflow := true } } := rfl

/-- A service ends with its block and its post, within the flag's bound. -/
theorem svcEnd_posts {status : Nat} {res : List Byte} (hu : svcBlock s r status res = u)
    (hfits : (flagVal u (.own r.site 1023)).toNat + 1 < 2 ^ 32) : svcEnd s r status res = svcPosted u r := by
  rw [svcEnd_eq, hu, postFlag_one _ _ hfits]
  rfl

/-- A service with no block asked for ends with its post alone. -/
theorem svcEnd_noBlock (hb : svcArg r 3 = 0) (hfits : (flagVal s (.own r.site 1023)).toNat + 1 < 2 ^ 32) (status : Nat) (res : List Byte) :
    svcEnd s r status res = svcPosted (withoutSvc s r) r :=
  svcEnd_posts (if_pos (.inl hb)) hfits

/-- A post after which the request is gone and the flag stands one higher than at first. -/
theorem svcPosted_served (hsvcs : u.svcs = (withoutSvc s r).svcs) (hflag : flagVal u (.own r.site 1023) = flagVal s (.own r.site 1023)) :
    Served s (svcPosted u r) r := by
  refine ⟨fun x hx => ?_, by rw [svcPosted, setFlag_flagVal, hflag]⟩
  have hx : x ∈ u.svcs := hx
  rw [hsvcs] at hx
  simpa using (List.mem_filter.1 hx).2

theorem svcPosted_dmem (s : State) (r : SvcReq) : (svcPosted s r).dmem = s.dmem := (beside_setFlag ..).dmem

/-- A service that needs no block runs on its request. -/
theorem svcRun_noBlock {req code : Nat} {f : State → SvcReq → State} (hreq : svcAt s req (fun c => c.toNat == code) = some r)
    (hb : svcArg r 3 = 0) : svcRun s req code f = f s r := by
  have hok : blockOk s r = true := by simp [blockOk, hb]
  simp [svcRun, hreq, hok]

theorem svcRun_block {req code : Nat} {f : State → SvcReq → State} (hreq : svcAt s req (fun c => c.toNat == code) = some r)
    (hok : blockOk s r = true) : svcRun s req code f = f s r := by
  simp [svcRun, hreq, hok]

/-! ## TIME: the block (R265) -/

/-- The one sector of an aligned block. -/
theorem sectors_block {va : Nat} (h : va % 32 = 0) : sectors va 32 = [(va, 32)] := by
  have hcount : (va % 32 + 32 + 31) / 32 = 1 := by omega
  simp only [sectors, hcount, List.range_one, List.map_cons, List.map_nil]
  rw [if_neg (by decide)]
  congr 2 <;> omega

/-- A piece of a context in device memory is written to its sector. The function is unfolded as a whole, since the kernel would
evaluate the walk of the tables to compare its applications. -/
theorem ctxPutPiece_dev {ctx va pa : Nat} {b : List Byte} (hpa : ctxPa s ctx va b.length .w = .ok pa) (hdev : windowOf pa = .dev)
    (htouch : fwTouch ctx pa b.length va true s = (true, s)) :
    ctxPutPiece ctx va b false s = (true, sectorPut (keyOf s (ctxOf s ctx).key.toNat) pa b false s) := by
  obtain ⟨f, hf⟩ : ∃ f, f = @ctxPutPiece := ⟨_, rfl⟩
  have hbody := hf
  conv_rhs at hbody => whnf
  rw [← hf, hbody]
  simp only [hpa, hdev, htouch]

/-- The write of one piece is that piece's. Its function is named, for the same reason. -/
theorem ctxPuts_one (s : State) (ctx base va n : Nat) (b : List Byte) {f : Nat → Nat → List Byte → Bool → State → Bool × State}
    (hf : @ctxPutPiece = f) {l : List (Nat × Nat)} (hl : l = [(va, n)]) :
    (ctxPuts ctx base b l s).2 = (f ctx va ((b.drop (va - base)).take n) false s).2 := by
  delta ctxPuts
  delta ctxPuts._f
  rw [hf]
  subst hl
  rfl

/-- A block of a context in device memory, with no launch in mixed-size debug mode, is written to its sector. -/
theorem ctxWrite_block {ctx va pa : Nat} {b : List Byte} (hva : va % 32 = 0) (hb : b.length = 32) (hpa : ctxPa s ctx va 32 .w = .ok pa)
    (hdev : windowOf pa = .dev) (hd : anyDebug s = false) :
    (ctxWrite ctx va b s).2 = sectorPut (keyOf s (ctxOf s ctx).key.toNat) pa b false s := by
  have htake : (b.drop (va - va)).take 32 = b := by rw [Nat.sub_self, List.drop_zero, ← hb, List.take_length]
  have htouch : fwTouch ctx pa b.length va true s = (true, s) := by simp [fwTouch, hd]
  have hput := ctxPutPiece_dev (b := b) (by rwa [hb]) hdev htouch
  rw [ctxWrite, hb, ctxPuts_one s ctx va va 32 b rfl (sectors_block hva), htake, hput]

/-- What an aligned block finds written. -/
theorem bytesAt_sectorPut {pa : Nat} {b : List Byte} (key : BitVec 512) (bad : Bool) (hpa : pa % 32 = 0) {k n : Nat} (h : k + n ≤ b.length) :
    bytesAt (sectorPut key pa b bad s).dmem (pa + k) n = (b.drop k).take n := by
  have hbase : pa / 32 * 32 = pa := by omega
  have hdmem : (sectorPut key pa b bad s).dmem = setBytes s.dmem pa (b ++ (sectorAs s key pa).drop b.length) := by
    simp only [sectorPut, hpa, hbase, List.take_zero, List.nil_append, Nat.zero_add]
    rfl
  let c := b ++ (sectorAs s key pa).drop b.length
  have hlen : b.length ≤ c.length := by simp [c]
  rw [hdmem, ← take_drop_bytesAt (len := c.length) _ _ (by omega), bytesAt_setBytes_same, List.drop_append_of_le_length (by omega),
    List.take_append_of_le_length (by simp; omega)]

/-- The block of TIME: status, the Calendar, the reference time at it, and what is free. -/
def timeBlock (cal : Nat) (rest : List Byte) : List Byte :=
  leBytes 4 0 ++ leBytes 4 0 ++ (leBytes 8 cal ++ leBytes 8 (Config.refTime cal)) ++ rest

theorem timeBlock_fields (cal : Nat) (rest : List Byte) : ((timeBlock cal rest).drop 0).take 4 = leBytes 4 0 ∧
    ((timeBlock cal rest).drop 8).take 8 = leBytes 8 cal ∧ ((timeBlock cal rest).drop 16).take 8 = leBytes 8 (Config.refTime cal) := by
  simp [timeBlock, List.drop_append, List.drop_eq_nil_of_le]

/-- A block in a page that may be written. -/
theorem blockOk_of {pa : Nat} (hva : svcArg r 3 % 32 = 0) (hpa : ctxPa s r.ctx.toNat (svcArg r 3) 32 .w = .ok pa) : blockOk s r = true := by
  simp [blockOk, hva, hpa]

/-- TIME ends with its block written and its post (R265). -/
theorem svcEnd_time {pa : Nat} (h0 : svcArg r 3 ≠ 0) (hva : svcArg r 3 % 32 = 0) (hpa : ctxPa s r.ctx.toNat (svcArg r 3) 32 .w = .ok pa)
    (hdev : windowOf pa = .dev) (hd : anyDebug s = false) (hfits : (flagVal s (.own r.site 1023)).toNat + 1 < 2 ^ 32) :
    ∃ rest key, svcEnd s r 0 (leBytes 8 s.cal ++ leBytes 8 (Config.refTime s.cal)) =
      svcPosted (sectorPut key pa (timeBlock s.cal rest) false (drawBytes 8 (withoutSvc s r)).2) r := by
  let v := (drawBytes 8 (withoutSvc s r)).2
  let rest := (drawBytes 8 (withoutSvc s r)).1
  have hlen : (timeBlock s.cal rest).length = 32 := by simp [timeBlock, rest, drawBytes]
  have hres : 24 - (leBytes 8 s.cal ++ leBytes 8 (Config.refTime s.cal)).length = 8 := by simp
  have hwrite := ctxWrite_block (s := v) (ctx := r.ctx.toNat) hva hlen hpa hdev hd
  have hblock : ¬(svcArg r 3 = 0 ∨ (!blockOk (withoutSvc s r) r) = true) := by
    simp [h0, blockOk_of (s := withoutSvc s r) hva hpa]
  refine ⟨rest, keyOf v (ctxOf v r.ctx.toNat).key.toNat, svcEnd_posts ((if_neg hblock).trans ?_) hfits⟩
  dsimp only
  rw [hres]
  exact hwrite

/-! ## MAP, UNMAP and PROTECT: the leaves (R317 to R324) -/

theorem tableFor_members {entry b : Nat} {pool rest : List Nat} (h : tableFor s entry pool = some (b, rest, u)) :
    u.members = s.members ∧ u.svcs = s.svcs := by
  unfold tableFor at h
  split at h
  · split at h
    · cases h
    · cases h
      exact ⟨rfl, rfl⟩
  · split at h
    · cases h
    · cases h
      exact ⟨rfl, rfl⟩
  · cases h

/-- Pages mapped change tables alone. -/
theorem mapPages_members (root perms : Nat) (pages : List (Nat × Nat)) : ∀ {pool : List Nat} {s u : State},
    mapPages root perms pages pool s = some u → u.members = s.members ∧ u.svcs = s.svcs := by
  induction pages with
  | nil =>
    intro pool s u h
    cases h
    exact ⟨rfl, rfl⟩
  | cons p r ih =>
    intro pool s u h
    rw [mapPages] at h
    split at h
    · cases h
    · rename_i b pool' s' hb
      split at h
      · cases h
      · rename_i a pool'' s'' ha
        obtain ⟨hm, hs⟩ := ih h
        obtain ⟨hm1, hs1⟩ := tableFor_members hb
        obtain ⟨hm2, hs2⟩ := tableFor_members ha
        exact ⟨hm.trans (hm2.trans hm1), hs.trans (hs2.trans hs1)⟩

/-- A change of leaves whose invalidation is done ends its service. -/
theorem changeMap_ends {ok : Bool} {f : Nat → Nat} (hbegun : r.begun = true) (hidle : s.inval = none) :
    changeMap s r ok f = svcEnd s r 0 (genRes s r) := by
  simp [changeMap, hbegun, hidle]

/-- The request once its leaves have changed. -/
def withBegun (s : State) (r : SvcReq) : State :=
  { s with svcs := s.svcs.map fun x => if x.id = r.id then { x with begun := true } else x }

/-- A request that UNMAP or PROTECT may begin, of one page that has a leaf. -/
structure OnePage (s : State) (r : SvcReq) (pa e : Nat) : Prop where
  waits : r.begun = false
  idle : s.inval = none
  range : svcRangeOk r = true
  small : noBig s r = true
  one : svcArg r 1 = 1
  leaf : leafAt s r.ctx.toNat (svcArg r 0) = some (pa, e)

theorem OnePage.pages {pa e : Nat} (h : OnePage s r pa e) : svcPages r = [svcArg r 0] := by simp [svcPages, h.one]

/-- The leaf changes, and the invalidation of its page begins. -/
theorem changeMap_begins {pa e : Nat} (h : OnePage s r pa e) (f : Nat → Nat) :
    changeMap s r true f = withBegun (startInval (writeInval (devWrite s pa (leBytes 8 (f e))) r.ctx.toNat
      (BitVec.ofNat 38 (svcArg r 0 / 65536)) (BitVec.ofNat 24 (svcArg r 1))) r.ctx.toNat
      (BitVec.ofNat 38 (svcArg r 0 / 65536)) (BitVec.ofNat 24 (svcArg r 1))) r := by
  have hleaves : changeLeaves s r f = devWrite s pa (leBytes 8 (f e)) := by simp [changeLeaves, h.pages, h.leaf]
  have hidle : (devWrite s pa (leBytes 8 (f e))).inval = none := h.idle
  simp only [changeMap, h.waits, h.range, h.small, h.idle, hleaves, goInval]
  simp [writeInval, hidle, withBegun]

/-- The request stands among the requests, begun, and its invalidation is under way (R322). -/
theorem withBegun_begins (hr : r ∈ s.svcs) (ctx : Nat) (va : BitVec 38) (count : BitVec 24) (pa v : Nat) :
    let t := withBegun (startInval (writeInval (devWrite s pa (leBytes 8 v)) ctx va count) ctx va count) r
    numAt t.dmem pa 8 = v % 256 ^ 8 ∧ t.inval.isSome = true ∧ ∃ x ∈ t.svcs, x.id = r.id ∧ x.begun = true :=
  ⟨numAt_of_written fun _ => rfl, rfl, _, List.mem_map.2 ⟨r, hr, if_pos rfl⟩, rfl, rfl⟩

theorem svcAt_mem {req : Nat} {ok : BitVec 16 → Bool} (h : svcAt s req ok = some r) : r ∈ s.svcs := List.mem_of_find?_eq_some h

end

/-- A little-endian number is below the power of its length (R9). -/
theorem leNat_lt {b : List Byte} {n : Nat} (h : b.length ≤ n) : leNat b < 256 ^ n := by
  induction b generalizing n with
  | nil => simp [leNat]
  | cons x r ih =>
    obtain ⟨k, rfl⟩ : ∃ k, n = k + 1 := ⟨n - 1, by simp at h; omega⟩
    have hr := ih (n := k) (by simpa using h)
    have hx := x.isLt
    rw [leNat, Nat.pow_succ]
    omega

/-- A valid table entry has no bit above 45 (R318). -/
theorem tableEntry_lt {s : State} {pa e : Nat} (h : tableEntry s pa = some e) : e < 2 ^ 46 := by
  have hlt : leNat (rawBytes s pa 8) < 256 ^ 8 := leNat_lt (by simp only [rawBytes, List.length_take]; omega)
  unfold tableEntry at h
  dsimp only at h
  split at h
  · cases h
  · split at h
    · cases h
    · rename_i hbits
      cases h
      simp only [bits, not_or, ne_eq, not_not] at hbits
      obtain ⟨-, hhigh, -⟩ := hbits
      norm_num at hhigh hlt ⊢
      omega

theorem leafAt_lt {s : State} {ctx va pa e : Nat} (h : leafAt s ctx va = some (pa, e)) : e < 2 ^ 46 := by
  unfold leafAt at h
  dsimp only at h
  split at h
  · cases h
  · split at h
    · cases h
    · split at h
      · cases h
      · split at h
        · rename_i he _
          cases h
          exact tableEntry_lt he
        · split at h
          · cases h
          · split at h
            · rename_i he _
              cases h
              exact tableEntry_lt he
            · cases h

/-! ## A code outside the table (R265, R348) -/

section
variable {s : State}

theorem setFlag_svcs (s : State) (k : FlagKey) (v : Word32) (a b : BitVec 16) : (setFlag s k v a b).svcs = s.svcs := by
  cases k <;> rfl

theorem breakBarriers_svcs (s : State) (sites : List Nat) : (breakBarriers s sites).svcs = s.svcs := by
  unfold breakBarriers
  refine foldl_keeps State.svcs (fun s p => ?_) _ _
  split
  · rfl
  · split
    · have h := setFlag_svcs s (.dev (p.1 + 1)) (breakWord (flagVal s (.dev (p.1 + 1))) 1) (srcId 5 0 0) 0
      generalize setFlag s (.dev (p.1 + 1)) (breakWord (flagVal s (.dev (p.1 + 1))) 1) (srcId 5 0 0) 0 = u at h ⊢
      exact h
    · rfl

theorem spoilSaves_svcs (s : State) (sites : List Nat) : (spoilSaves s sites).svcs = s.svcs := by
  unfold spoilSaves
  refine foldl_keeps State.svcs (fun s n => ?_) _ _
  dsimp only
  split <;> rfl

theorem waitRec_svcs (s : State) (n : Nat) (t : WaitTimer) (u : LastSet) (g : LoopTag) : (waitRec s n t u g).svcs = s.svcs := by
  unfold waitRec; split <;> rfl

theorem unmanned_svcs (s : State) (id : Word32) (sites : List Nat) : (unmanned s id sites).svcs = s.svcs := by
  unfold unmanned
  rw [foldl_keeps State.svcs (f := fun s n => updMem s n endMember) (fun _ _ => rfl), cutWaits_keeps State.svcs waitRec_svcs,
    spoilSaves_svcs]
  rfl

theorem preemptDone_svcs (s : State) (id : Word32) : (preemptDone s id).svcs = s.svcs := by unfold preemptDone; split <;> rfl

/-- Of the requests, the end of a launch leaves those of others. -/
theorem endLaunch_svcs (s : State) (id : Word32) (sites : List Nat) (status cause : Nat) :
    (endLaunch s id sites status cause).svcs = s.svcs.filter fun r => r.launch != id := by
  have hrest : (if status = 0 then releasePins (endLookups (unmanned s id sites) id) id
      else breakBarriers (releasePins (endLookups (unmanned s id sites) id) id) sites).svcs = s.svcs := by
    split
    · exact unmanned_svcs ..
    · exact (breakBarriers_svcs ..).trans (unmanned_svcs ..)
  rw [← hrest]
  exact preemptDone_svcs ..

theorem postRec_svcs (s : State) (r : FaultRec) : (postRec s r).svcs = s.svcs := by unfold postRec; split <;> rfl

/-- A fault of a launch of one member, Vigil apart, adds no request. -/
theorem takeRaised_svcs {n : Nat} (hu : Unwatched s) (hs : launchSites s (bindOf s n).launch = [n]) (x : Raised) :
    ∀ y ∈ (takeRaised s n x).svcs, y ∈ s.svcs := by
  obtain ⟨r, hr⟩ := takeRaised_single hu hs x
  intro y hy
  rw [hr, endLaunch_svcs, postRec_svcs] at hy
  exact (List.mem_filter.1 hy).1

/-- A code that is none faults TRAP with its request gone. -/
theorem svcUnknownCode_faults {req : Nat} {r : SvcReq} (hreq : svcAt s req (fun c => decide (5 < c.toNat)) = some r) (hl : r.lookup = none)
    (ht : (mem s r.site).ctl.trap = none) (hu : Unwatched s) (hs : launchSites s (bindOf s r.site).launch = [r.site]) :
    ∃ t, exec (.svcUnknownCode req) s = .next t ∧ Faulted (withoutSvc s r) t r.site .trap ∧ ∀ x ∈ t.svcs, x.id ≠ r.id := by
  let x : Raised := { src := srcId 1 1 r.site, q := Queue.c.code, addr := r.addr, index := r.lt.iter.toNat, tag := r.lt,
                      trap := { trapOf .trap with status := r.code.toNat }, tick := s.cal }
  have hfault : takeFault (withoutSvc s r) r.site 1 1 Queue.c.code r.addr r.lt.iter.toNat r.lt { trapOf .trap with status := r.code.toNat } =
      takeRaised (withoutSvc s r) r.site x := by
    have ht' : (mem (withoutSvc s r) r.site).ctl.trap = none := ht
    rw [takeFault, ht', Option.getD_none]
    rfl
  have hu' : Unwatched (withoutSvc s r) := hu
  have hs' : launchSites (withoutSvc s r) (bindOf (withoutSvc s r) r.site).launch = [r.site] :=
    (launchSites_congr (s := s) rfl rfl _).trans hs
  refine ⟨takeRaised (withoutSvc s r) r.site x, ?_, takeRaised_faulted hu' hs' (x := x) rfl, fun y hy => ?_⟩
  · change execSvcUnknownCode req s = _
    rw [← hfault]
    simp only [execSvcUnknownCode, hreq, hl]
    rfl
  · have hy : y ∈ (withoutSvc s r).svcs := takeRaised_svcs hu' hs' x y hy
    simpa using (List.mem_filter.1 hy).2

end

/-! ## The services -/

section
variable {s : State} {req : Nat} {r : SvcReq}

/-- A service that ends at once, with no block asked for, where its body has left the flag and the requests. -/
theorem service_ends {u : State} {i : Instr} {code status : Nat} {res : List Byte} {f : State → SvcReq → State}
    (hi : exec i s = .next (svcRun s req code f)) (hreq : svcAt s req (fun c => c.toNat == code) = some r) (hb : svcArg r 3 = 0)
    (hf : f s r = svcEnd u r status res) (hu : u.members = s.members ∧ u.svcs = s.svcs)
    (hfits : (flagVal s (.own r.site 1023)).toNat + 1 < 2 ^ 32) :
    exec i s = .next (svcPosted (withoutSvc u r) r) ∧ Served s (svcPosted (withoutSvc u r) r) r := by
  have hflag : flagVal u (.own r.site 1023) = flagVal s (.own r.site 1023) := by simp only [flagVal, mem, hu.1]
  constructor
  · rw [hi, svcRun_noBlock hreq hb, hf, svcEnd_noBlock hb (by rwa [hflag])]
  · exact svcPosted_served (by simp only [withoutSvc, hu.2]) hflag

end

/-- Settles O50, service by service. -/
theorem services : Obligations.Services := by
  unfold Obligations.Services
  intro s req r asks
  refine ⟨fun hfits => ⟨fun hb => ⟨fun h => ?nop, fun b h h1 h256 hpage hread => ?log, fun frames tables u h hrange hperm hlen hframes hmap =>
    ?map, fun h hbegun hidle => ?unmap, fun h hbegun hidle => ?protect⟩, fun pa h h0 hva halign hpa hdev hd => ?time⟩,
    fun pa e hwaits hidle hrange hsmall hone hb hleaf => ?begins, fun hreq hl ht hu hs => ?unknown⟩
  case nop =>
    obtain ⟨hex, hserved⟩ := service_ends (i := .svcNop req) rfl h hb rfl ⟨rfl, rfl⟩ hfits
    exact ⟨_, hex, hserved, svcPosted_dmem ..⟩
  case log =>
    let u : State := { s with funcLog := s.funcLog ++ [(funcOf s r.ctx.toNat, r.launch, b)] }
    obtain ⟨hex, hserved⟩ := service_ends (u := u) (status := 0) (res := []) (i := .svcLog req) rfl h hb
      (by simp only [Nat.ne_of_gt h1, Nat.not_lt.2 h256, Nat.not_lt.2 hpage, hread, or_self, if_false]; rfl) ⟨rfl, rfl⟩ hfits
    exact ⟨_, hex, hserved, rfl, svcPosted_dmem ..⟩
  case map =>
    obtain ⟨hex, hserved⟩ := service_ends (u := u) (status := 0) (res := genRes u r) (i := .svcMap req frames tables) rfl h hb
      (by simp only [hrange, hperm, hmap, Nat.not_lt.2 hlen, hframes, Bool.and_self, Bool.not_true, Bool.false_eq_true, or_self, if_false]) (mapPages_members _ _ _ hmap) hfits
    exact ⟨_, hex, hserved, svcPosted_dmem ..⟩
  case unmap =>
    obtain ⟨hex, hserved⟩ := service_ends (i := .svcUnmap req) rfl h hb (changeMap_ends hbegun hidle) ⟨rfl, rfl⟩ hfits
    exact ⟨_, hex, hserved, svcPosted_dmem ..⟩
  case protect =>
    obtain ⟨hex, hserved⟩ := service_ends (i := .svcProtect req) rfl h hb
      (by simp only [hbegun, Bool.not_true, Bool.false_and, Bool.false_eq_true, if_false]; exact changeMap_ends hbegun hidle) ⟨rfl, rfl⟩ hfits
    exact ⟨_, hex, hserved, svcPosted_dmem ..⟩
  case time =>
    obtain ⟨rest, key, hend⟩ := svcEnd_time h0 hva hpa hdev hd hfits
    have hex : exec (.svcTime req) s =
        .next (svcPosted (sectorPut key pa (timeBlock s.cal rest) false (drawBytes 8 (withoutSvc s r)).2) r) :=
      congrArg Host.Outcome.next ((svcRun_block h (blockOk_of hva hpa)).trans hend)
    obtain ⟨hstatus, hcal, href⟩ := timeBlock_fields s.cal rest
    have hfield {k n v : Nat} (hk : k + n ≤ 24) (hv : ((timeBlock s.cal rest).drop k).take n = leBytes n v) :
        numAt (svcPosted (sectorPut key pa (timeBlock s.cal rest) false (drawBytes 8 (withoutSvc s r)).2) r).dmem (pa + k) n = v % 256 ^ n := by
      rw [svcPosted_dmem, numAt, bytesAt_sectorPut _ _ halign (by simp [timeBlock]; omega), hv, leNat_leBytes]
    exact ⟨_, hex, svcPosted_served rfl rfl, hfield (k := 0) (by decide) hstatus, hfield (by decide) hcal, hfield (by decide) href⟩
  case begins =>
    have hpage : OnePage s r pa e := ⟨hwaits, hidle, hrange, hsmall, hone, hleaf⟩
    refine ⟨fun h => ?_, fun h hperm => ?_⟩
    · exact ⟨_, congrArg Host.Outcome.next ((svcRun_noBlock h hb).trans (changeMap_begins hpage _)), withBegun_begins (svcAt_mem h) ..⟩
    · have hlt := leafAt_lt hleaf
      have hp : svcArg r 2 ≤ 7 := by
        simp only [permsOk, decide_eq_true_eq] at hperm
        exact hperm.2
      have hmod : (e - bits e 5 3 * 8 + svcArg r 2 * 8) % 256 ^ 8 = e - e / 8 % 8 * 8 + svcArg r 2 * 8 := by
        simp only [bits]
        norm_num
        omega
      have hgoes : svcRun s req 3 (fun s r =>
          if !r.begun && svcRangeOk r && (svcPages r).any (fun va => (leafAt s r.ctx.toNat va).isNone) then svcEnd s r 3 []
          else changeMap s r (permsOk r) fun e => e - bits e 5 3 * 8 + svcArg r 2 * 8) =
          changeMap s r true fun e => e - bits e 5 3 * 8 + svcArg r 2 * 8 := by
        rw [svcRun_noBlock h hb]
        simp [hpage.pages, hleaf, hperm]
      obtain ⟨hleaf', hinval, hbegun⟩ := withBegun_begins (s := s) (svcAt_mem h) r.ctx.toNat (BitVec.ofNat 38 (svcArg r 0 / 65536))
        (BitVec.ofNat 24 (svcArg r 1)) pa (e - bits e 5 3 * 8 + svcArg r 2 * 8)
      exact ⟨_, congrArg Host.Outcome.next (hgoes.trans (changeMap_begins hpage _)), hleaf'.trans hmod, hinval, hbegun⟩
  case unknown =>
    obtain ⟨t, hex, hfault, hgone⟩ := svcUnknownCode_faults hreq hl ht hu hs
    exact ⟨t, hex, hfault.cause, hfault.life, hgone⟩

end Sys2Proof.Proofs
end

