-- ==== Sys2Proof/Proofs/ValueOrder.lean ====
section
/-! SUPPORT. The order of exact values (R178, R374): less than is that of a linear order, and a list sorted by such an order is so. -/

namespace Sys2Proof.Proofs

open Sys2Proof Sys2Proof.Machine Sys2Proof.Laws Sys2Proof.Claims

/-! ## Finite values as rationals -/

/-- The rational that a finite value is. -/
def ratOf (n : Bool) (m : Nat) (e : Int) : ℚ := (if n then -1 else 1) * (m * 2 ^ e)

theorem ratOf_zero (n : Bool) (e : Int) : ratOf n 0 e = 0 := by simp [ratOf]

theorem magnitude_pos {m : Nat} (hm : m ≠ 0) (e : Int) : (0 : ℚ) < m * 2 ^ e :=
  mul_pos (by exact_mod_cast Nat.pos_of_ne_zero hm) (by positivity)

/-- The sign of a nonzero value is its sign bit. -/
theorem ratOf_neg_iff {m : Nat} (hm : m ≠ 0) (n : Bool) (e : Int) : ratOf n m e < 0 ↔ n = true := by
  have h := magnitude_pos hm e
  cases n <;> simp [ratOf] <;> linarith

theorem ratOf_pos_iff {m : Nat} (hm : m ≠ 0) (n : Bool) (e : Int) : 0 < ratOf n m e ↔ n = false := by
  have h := magnitude_pos hm e
  cases n <;> simp [ratOf] <;> linarith

/-- A magnitude lies in the binade of its leading exponent. -/
theorem magnitude_binade {m : Nat} (hm : m ≠ 0) (e : Int) :
    (2 : ℚ) ^ (e + Nat.log2 m) ≤ m * 2 ^ e ∧ (m : ℚ) * 2 ^ e < 2 ^ (e + Nat.log2 m + 1) := by
  have hlow : (2 : ℚ) ^ (Nat.log2 m : Int) ≤ m := by
    rw [zpow_natCast]
    exact_mod_cast Nat.log2_self_le hm
  have hhigh : (m : ℚ) < 2 ^ ((Nat.log2 m : Int) + 1) := by
    have h : m < 2 ^ (Nat.log2 m + 1) := Nat.lt_log2_self
    have hc : (2 : ℚ) ^ ((Nat.log2 m : Int) + 1) = ((2 ^ (Nat.log2 m + 1) : Nat) : ℚ) := by
      push_cast
      exact zpow_natCast 2 (Nat.log2 m + 1)
    rw [hc]
    exact_mod_cast h
  have hpos : (0 : ℚ) < 2 ^ e := by positivity
  constructor
  · rw [add_comm, zpow_add₀ two_ne_zero]
    exact mul_le_mul_of_nonneg_right hlow hpos.le
  · rw [add_assoc, add_comm, zpow_add₀ two_ne_zero]
    exact mul_lt_mul_of_pos_right hhigh hpos

/-- Of two magnitudes, that of the lower leading exponent is the lower. -/
theorem magnitude_lt {m k : Nat} (hm : m ≠ 0) (hk : k ≠ 0) {e g : Int} (h : e + Nat.log2 m < g + Nat.log2 k) :
    (m : ℚ) * 2 ^ e < k * 2 ^ g :=
  calc (m : ℚ) * 2 ^ e < 2 ^ (e + Nat.log2 m + 1) := (magnitude_binade hm e).2
    _ ≤ 2 ^ (g + Nat.log2 k) := zpow_le_zpow_right₀ one_le_two h
    _ ≤ k * 2 ^ g := (magnitude_binade hk g).1

/-- Leading exponents that differ order the magnitudes. -/
theorem exponent_lt_iff {m k : Nat} (hm : m ≠ 0) (hk : k ≠ 0) {e g : Int} (hne : e + Nat.log2 m ≠ g + Nat.log2 k) :
    e + Nat.log2 m < g + Nat.log2 k ↔ (m : ℚ) * 2 ^ e < k * 2 ^ g := by
  refine ⟨magnitude_lt hm hk, fun h => lt_of_le_of_ne (not_lt.1 fun hgt => ?_) hne⟩
  exact absurd (magnitude_lt hk hm hgt) (not_lt.2 h.le)

/-- A value as a multiple of a lower power of two. -/
theorem signedAt_ratOf {e0 e : Int} (h : e0 ≤ e) (n : Bool) (m : Nat) : ratOf n m e = signedAt e0 n m e * 2 ^ e0 := by
  have hpow : (2 : ℚ) ^ e = 2 ^ (e - e0).toNat * 2 ^ e0 := by
    rw [← zpow_natCast, Int.toNat_of_nonneg (by omega), ← zpow_add₀ two_ne_zero]
    congr 1
    omega
  cases n <;> simp [ratOf, signedAt, hpow] <;> ring

/-- Less than of finite values is that of the rationals. -/
theorem ltFin_iff (a : Bool) (m : Nat) (e : Int) (b : Bool) (k : Nat) (g : Int) :
    ltFin a m e b k g = true ↔ ratOf a m e < ratOf b k g := by
  unfold ltFin
  split
  · rename_i hm
    subst hm
    rw [ratOf_zero]
    by_cases hk : k = 0
    · simp [hk, ratOf_zero]
    · simp [hk, ratOf_pos_iff hk]
  · rename_i hm
    split
    · rename_i hk
      subst hk
      rw [ratOf_zero, ratOf_neg_iff hm]
    · rename_i hk
      split
      · rename_i hab
        have hab : a ≠ b := by simpa using hab
        cases a
        · obtain rfl : b = true := by simpa using hab
          have h1 := (ratOf_pos_iff hm false e).2 rfl
          have h2 := (ratOf_neg_iff hk true g).2 rfl
          simp only [Bool.false_eq_true, false_iff, not_lt]
          linarith
        · obtain rfl : b = false := by simpa using hab
          have h1 := (ratOf_neg_iff hm true e).2 rfl
          have h2 := (ratOf_pos_iff hk false g).2 rfl
          simp only [true_iff]
          linarith
      · rename_i hab
        obtain rfl : a = b := by simpa using hab
        dsimp only
        split
        · rename_i hxy
          cases a
          · simpa [ratOf] using exponent_lt_iff hm hk hxy
          · simpa [ratOf] using exponent_lt_iff hk hm (Ne.symm hxy)
        · rw [decide_eq_true_eq, signedAt_ratOf (min_le_left e g), signedAt_ratOf (min_le_right e g),
            mul_lt_mul_iff_left₀ (by positivity), Int.cast_lt]

/-! ## Values in a linear order -/

/-- The place of a value that is a number: the infinities at the ends. -/
def valueKey : FVal → ℤ ×ₗ ℚ
  | .nan => toLex (2, 0)
  | .inf n => toLex (if n then -1 else 1, 0)
  | .fin n m e => toLex (0, ratOf n m e)

theorem ltNum_iff {x y : FVal} (hx : x.isNan = false) (hy : y.isNan = false) : ltNum x y = true ↔ valueKey x < valueKey y := by
  cases x with
  | nan => cases hx
  | inf a =>
    cases y with
    | nan => cases hy
    | inf b => cases a <;> cases b <;> simp [ltNum, valueKey, Prod.Lex.toLex_lt_toLex]
    | fin b k g => cases a <;> simp [ltNum, valueKey, Prod.Lex.toLex_lt_toLex]
  | fin a m e =>
    cases y with
    | nan => cases hy
    | inf b => cases b <;> simp [ltNum, valueKey, Prod.Lex.toLex_lt_toLex]
    | fin b k g => simp [ltNum, valueKey, Prod.Lex.toLex_lt_toLex, ltFin_iff]

/-- A NaN stands above every number. -/
theorem valueKey_lt_nan {x : FVal} (hx : x.isNan = false) : valueKey x < valueKey .nan := by
  cases x with
  | nan => cases hx
  | inf n => cases n <;> simp [valueKey, Prod.Lex.toLex_lt_toLex]
  | fin n m e => simp [valueKey, Prod.Lex.toLex_lt_toLex]

theorem eq_nan_of_isNan {x : FVal} (hx : x.isNan = true) : x = .nan := by
  cases x with
  | nan => rfl
  | inf n => cases hx
  | fin n m e => cases hx

/-- Equal numbers have one place. -/
theorem eqNum_iff {x y : FVal} (hx : x.isNan = false) (hy : y.isNan = false) : eqNum x y = true ↔ valueKey x = valueKey y := by
  have h1 := ltNum_iff hx hy
  have h2 := ltNum_iff hy hx
  simp only [eqNum, hx, hy, Bool.not_false, Bool.true_and, Bool.and_eq_true, Bool.not_eq_true', ← Bool.not_eq_true, h1, h2, not_lt]
  exact ⟨fun ⟨h, k⟩ => le_antisymm k h, fun h => ⟨h.ge, h.le⟩⟩

/-! ## Lists sorted by an order -/

section
variable {α β : Type} [LinearOrder β] {key : α → β} {lt : α → α → Bool} (hlt : ∀ x y, lt x y = true ↔ key x < key y)
include hlt

theorem insertBy_pairwise (x : α) {l : List α} (hl : l.Pairwise fun a b => key a ≤ key b) :
    (insertBy lt x l).Pairwise fun a b => key a ≤ key b := by
  induction l with
  | nil => exact List.pairwise_singleton ..
  | cons y r ih =>
    obtain ⟨hy, hr⟩ := List.pairwise_cons.1 hl
    rw [insertBy]
    split
    · rename_i h
      have hxy := ((hlt x y).1 h).le
      refine List.pairwise_cons.2 ⟨fun z hz => ?_, hl⟩
      rcases List.mem_cons.1 hz with rfl | hz
      · exact hxy
      · exact hxy.trans (hy z hz)
    · rename_i h
      have hyx : key y ≤ key x := not_lt.1 fun hn => h ((hlt x y).2 hn)
      refine List.pairwise_cons.2 ⟨fun z hz => ?_, ih hr⟩
      rcases List.mem_cons.1 ((insertBy_perm lt x r).mem_iff.1 hz) with rfl | hz
      · exact hyx
      · exact hy z hz

theorem sortBy_pairwise (l : List α) : (sortBy lt l).Pairwise fun a b => key a ≤ key b := by
  have h (acc : List α) (hacc : acc.Pairwise fun a b => key a ≤ key b) :
      (l.foldl (fun a x => insertBy lt x a) acc).Pairwise fun a b => key a ≤ key b := by
    induction l generalizing acc with
    | nil => exact hacc
    | cons x r ih => exact ih _ (insertBy_pairwise hlt x hacc)
  exact h [] List.Pairwise.nil

end

end Sys2Proof.Proofs
end

