-- ==== Sys2Proof/Proofs/HarvestSlots.lean ====
section
/-! SUPPORT. The slots `hvst`, `hcomp` and `htrunc` keep and remove, and what Build writes (R373 to R376). -/

namespace Sys2Proof.Proofs

open Sys2Proof Sys2Proof.Machine Sys2Proof.Laws Sys2Proof.Claims

/-! ## The order of candidates -/

/-- The mass of a slot as an exact value. -/
abbrev massVal (x : KvSlot) : FVal := decodeFp fp32 false x.mass

/-- The place of a slot among candidates: by mass, then by position. -/
def candKey (x : KvSlot) : (ℤ ×ₗ ℚ) ×ₗ ℤ := toLex (valueKey (massVal x), x.pos)

theorem candLt_iff (x y : KvSlot) : candLt x y = true ↔ candKey x < candKey y := by
  rw [candKey, candKey, Prod.Lex.toLex_lt_toLex]
  unfold candLt
  dsimp only
  change (if (massVal x).isNan || (massVal y).isNan then _ else _ : Bool) = true ↔ _
  cases hx : (massVal x).isNan <;> cases hy : (massVal y).isNan
  · simp [ltNum_iff hx hy, eqNum_iff hx hy]
  · simp [eq_nan_of_isNan hy, valueKey_lt_nan hx]
  · simp [eq_nan_of_isNan hx, (valueKey_lt_nan hy).not_gt, (valueKey_lt_nan hy).ne']
  · simp [eq_nan_of_isNan hx, eq_nan_of_isNan hy]

/-- The order of R374 is the one the model sorts candidates by. -/
theorem massBefore_iff (x y : KvSlot) : massBefore x y ↔ candLt x y = true := by
  unfold massBefore candLt
  dsimp only
  cases (decodeFp fp32 false x.mass).isNan <;> cases (decodeFp fp32 false y.mass).isNan <;> simp

/-! ## What is removed and what survives -/

/-- The slots that `hvst` may remove, in their order. -/
def candidates (f : Fly) : List KvSlot := sortBy candLt ((validNow f).filter fun x => !kept f x)

theorem candidates_perm (f : Fly) : (candidates f).Perm ((validNow f).filter fun x => !kept f x) := sortBy_perm ..

theorem candidates_ordered (f : Fly) : (candidates f).Pairwise fun x y => ¬ massBefore y x :=
  (sortBy_pairwise candLt_iff _).imp fun {x y} h hm => not_lt.2 h ((candLt_iff y x).1 ((massBefore_iff y x).1 hm))

section
variable {f : Fly} {ec : ECmd} {p : HReg} {a w d : SReg} {dk : Bool}

theorem removedNow_hvstKeep (hi : f.cap.ins = .hvstKeep ec p a dk w d) :
    removedNow f = (candidates f).take ((validNow f).length - regN f 0 % 2 ^ 32) := by
  unfold removedNow
  rw [hi]
  rfl

theorem mem_removedNow_hvstMass (hi : f.cap.ins = .hvstMass ec p a dk w d) (x : KvSlot) :
    x ∈ removedNow f ↔ x ∈ (validNow f).filter (fun x => !kept f x) ∧
      ltNum (decodeFp fp32 false x.mass) (decodeFp fp32 false (regN f 0 % 2 ^ 32)) = true := by
  have h : removedNow f = (candidates f).filter fun x =>
      ltNum (decodeFp fp32 false x.mass) (decodeFp fp32 false (regN f 0 % 2 ^ 32)) := by
    unfold removedNow
    rw [hi]
    rfl
  rw [h, List.mem_filter, (candidates_perm f).mem_iff]

theorem removedNow_hcomp (hi : f.cap.ins = .hcomp ec p) : removedNow f = [] := by
  unfold removedNow
  rw [hi]

end

theorem survivors_perm (f : Fly) : (survivors f).Perm ((validNow f).filter fun x => !(removedNow f).contains x) := sortBy_perm ..

theorem survivors_ordered (f : Fly) : (survivors f).Pairwise fun x y => x.pos ≤ y.pos :=
  sortBy_pairwise (key := KvSlot.pos) (fun _ _ => decide_eq_true_iff) _

/-! ## The map and the metadata that follow -/

/-- Every Harvest command but `htrunc` takes its new pages from the top of the pool (R375). -/
theorem mapNext_packed {f : Fly} (h : ∀ ec p a, f.cap.ins ≠ .htrunc ec p a) :
    mapNext f = (List.range (((survivors f).length + 63) / 64)).map fun b => aptNum f (32832 + 8 * (poolNow f - 1 - b)) 8 := by
  have ht : takenNow f = ((survivors f).length + 63) / 64 := by
    unfold takenNow
    split
    · rename_i hi
      exact absurd hi (h _ _ _)
    · rfl
  unfold mapNext
  split
  · rename_i hi
    exact absurd hi (h _ _ _)
  · rw [ht]
    rfl

/-- Metadata of a slot with a mass and an age. -/
def metaOf (x : KvSlot) (mass age : Nat) : List Byte :=
  leBytes 4 mass ++ leBytes 4 (BitVec.ofInt 32 x.pos).toNat ++ leBytes 4 (65536 * age + x.flags.toNat / 2 % 4 * 2 + 1)

theorem bits_age (x : BitVec 32) : bits x.toNat 31 16 = x.toNat / 2 ^ 16 := by
  have := x.isLt
  unfold bits
  omega

theorem newMeta_hcomp {f : Fly} {ec : ECmd} {p : HReg} (hi : f.cap.ins = .hcomp ec p) (x : KvSlot) :
    newMeta f x = metaOf x x.mass (x.flags.toNat / 2 ^ 16) := by
  unfold newMeta
  rw [hi, ← bits_age]
  rfl

/-- The mass after an `hvst`: rounded times the decay factor where there is one (R375). -/
def decayed (f : Fly) (dk : Bool) (x : KvSlot) : Nat :=
  if dk then roundTo fp32 false .rne (mulNum (decodeFp fp32 false x.mass) (decodeFp fp32 false (regN f 2 % 2 ^ 32))) else x.mass

theorem newMeta_hvst {f : Fly} {ec : ECmd} {p : HReg} {a w d : SReg} {dk : Bool}
    (hi : f.cap.ins = .hvstKeep ec p a dk w d ∨ f.cap.ins = .hvstMass ec p a dk w d) (x : KvSlot) :
    newMeta f x = metaOf x (decayed f dk x) (min 65535 (x.flags.toNat / 2 ^ 16 + 1)) := by
  unfold newMeta
  rcases hi with hi | hi <;> rw [hi, ← bits_age] <;> rfl

/-! ## What Build writes -/

theorem exceptBind_eq_ok {ε α β : Type} {x : Except ε α} {g : α → Except ε β} {b : β} (h : x >>= g = .ok b) :
    ∃ a, x = .ok a ∧ g a = .ok b := by
  cases x with
  | error e => cases h
  | ok a => exact ⟨a, rfl, h⟩

theorem ok_of_mapError {ε ε' α : Type} {x : Except ε α} {g : ε → ε'} {a : α} (h : x.mapError g = .ok a) : x = .ok a := by
  cases x with
  | error e => cases h
  | ok b =>
    cases h
    rfl

/-- What a map that succeeded made of an element stands in its result. -/
theorem exists_mem_of_mapM {ε α β : Type} {g : α → Except ε β} {l : List α} {r : List β} (h : l.mapM g = .ok r) {x : α} (hx : x ∈ l) :
    ∃ y ∈ r, g x = .ok y := by
  induction l generalizing r with
  | nil => cases hx
  | cons a l ih =>
    rw [List.mapM_cons] at h
    obtain ⟨y, hy, h⟩ := exceptBind_eq_ok h
    obtain ⟨ys, hys, h⟩ := exceptBind_eq_ok h
    obtain rfl : y :: ys = r := Except.ok.inj h
    rcases List.mem_cons.1 hx with rfl | hx
    · exact ⟨y, List.mem_cons_self, hy⟩
    · obtain ⟨z, hz, hg⟩ := ih hys hx
      exact ⟨z, List.mem_cons_of_mem _ hz, hg⟩

/-- Chunk c of the rows of a slot: the K row below, the V row 16,384 bytes above (R369). -/
def rowAt (c : Nat) : Nat := (if c < 8 then 0 else 16384) + 32 * (c % 8)

/-- A page that Build writes gets every chunk of the rows of its slots, each at the slot's new place. -/
theorem mem_pageOps {s : State} {n : Nat} {f : Fly} {va : Nat} {l : List KvSlot} {ops : List MicroOp} (h : pageOps s n f va l = .ok ops)
    {x : KvSlot} {j c : Nat} (hx : l[j]? = some x) (hc : c < 16) :
    ∃ src dst, vaPiece s n (x.page + 256 * x.j + rowAt c) 32 .r = .ok src ∧ vaPiece s n (va + 256 * j + rowAt c) 32 .w = .ok dst ∧
      MicroOp.move src dst (va + 256 * j + rowAt c) ∈ ops := by
  unfold pageOps at h
  obtain ⟨rows, hrows, h⟩ := exceptBind_eq_ok h
  obtain ⟨ws, -, h⟩ := exceptBind_eq_ok h
  obtain rfl : rows.flatten ++ ws = ops := Except.ok.inj h
  obtain ⟨row, hrow, hslot⟩ := exists_mem_of_mapM hrows (x := (x, j)) (List.mem_zipIdx_iff_getElem?.2 hx)
  obtain ⟨op, hop, hchunk⟩ := exists_mem_of_mapM hslot (List.mem_range.2 hc)
  obtain ⟨src, hsrc, hchunk⟩ := exceptBind_eq_ok hchunk
  obtain ⟨dst, hdst, hchunk⟩ := exceptBind_eq_ok hchunk
  obtain rfl := Except.ok.inj hchunk
  exact ⟨src, dst, ok_of_mapError hsrc, ok_of_mapError hdst,
    List.mem_append_left _ (List.mem_flatten.2 ⟨row, hrow, hop⟩)⟩

/-- Build of `hvst` and `hcomp` copies the rows of survivor i to slot i mod 64 of page i / 64 of the new map. -/
theorem buildOps_moves {s : State} {n : Nat} {f : Fly} {ops : List MicroOp} (h : buildOps s n f = .ok ops)
    (hi : ∀ ec p a, f.cap.ins ≠ .htrunc ec p a) {i : Nat} {x : KvSlot} {va c : Nat} (hx : (survivors f)[i]? = some x)
    (hva : (mapNext f)[i / 64]? = some va) (hc : c < 16) :
    ∃ src dst, vaPiece s n (x.page + 256 * x.j + rowAt c) 32 .r = .ok src ∧
      vaPiece s n (va + 256 * (i % 64) + rowAt c) 32 .w = .ok dst ∧ MicroOp.move src dst (va + 256 * (i % 64) + rowAt c) ∈ ops := by
  unfold buildOps at h
  dsimp only at h
  split at h
  · rename_i hins
    exact absurd hins (hi _ _ _)
  · obtain ⟨pages, hpages, h⟩ := exceptBind_eq_ok h
    obtain rfl := Except.ok.inj h
    obtain ⟨page, hmem, hpage⟩ := exists_mem_of_mapM hpages (x := (va, i / 64)) (List.mem_zipIdx_iff_getElem?.2 hva)
    have hslot : (((survivors f).drop (64 * (i / 64))).take 64)[i % 64]? = some x := by
      rw [List.getElem?_take_of_lt (Nat.mod_lt _ (by decide)), List.getElem?_drop, Nat.div_add_mod, hx]
    obtain ⟨src, dst, hsrc, hdst, hop⟩ := mem_pageOps hpage hslot hc
    exact ⟨src, dst, hsrc, hdst, List.mem_append_left _ (List.mem_append_left _ (List.mem_flatten.2 ⟨page, hmem, hop⟩))⟩

/-- Build of `htrunc` clears the valid bit of every slot it cuts. -/
theorem buildOps_clears {s : State} {n : Nat} {f : Fly} {ops : List MicroOp} (h : buildOps s n f = .ok ops)
    {ec : ECmd} {p : HReg} {a : SReg} (hi : f.cap.ins = .htrunc ec p a) {x : KvSlot} (hx : x ∈ cutNow f) :
    ∃ pa, vaPiece s n (x.page + 32768 + 12 * x.j + 8) 4 .w = .ok pa ∧
      MicroOp.write pa (x.page + 32768 + 12 * x.j + 8) (leBytes 4 (x.flags &&& 0xffff0006).toNat) ∈ ops := by
  unfold buildOps at h
  rw [hi] at h
  obtain ⟨pages, hpages, h⟩ := exceptBind_eq_ok h
  obtain rfl := Except.ok.inj h
  obtain ⟨w, hw, hslot⟩ := exists_mem_of_mapM hpages hx
  obtain ⟨pa, hpa, hslot⟩ := exceptBind_eq_ok hslot
  obtain rfl := Except.ok.inj hslot
  exact ⟨pa, ok_of_mapError hpa,
    List.mem_append_left _ (List.mem_append_left _ (List.mem_flatten.2 ⟨_, hw, List.mem_singleton_self _⟩))⟩

end Sys2Proof.Proofs
end

