-- ==== Sys2Proof/Proofs/BufferChunks.lean ====
section
/-! SUPPORT. A chunk of a typed buffer read and written by an agent that may take it now (R276, R300), and the steps of a
command at work (R247). -/

namespace Sys2Proof.Proofs

open Sys2Proof Sys2Proof.Machine Sys2Proof.Laws Sys2Proof.Claims

/-! ## A chunk that nothing else takes -/

/-- A read of a quiet chunk finds the bytes that stand there; only its agent's clock has moved. -/
theorem readBuf_quiet {s : State} {n b off : Nat} (a : Acc) (k : Nat) (h : BufQuiet s n b off 0) :
    readBuf s a n b off k = (.data (bytesAt (bufMem (mem s n) b) off k), (stampAcc s a).2.2) := by
  obtain ⟨hrank, hbad, hq⟩ := h
  have hbad : tget false (mem (stampAcc s a).2.2 n).buf.bad (badKey b off) = false := hbad
  have hund : undefBytes (stampAcc s a).2.2 a false (stampAcc s a).1 (bufLoc n b off) k = [] := undefBytes_of_quiet hq
  simp only [readBuf, hrank, bufRead, hbad, hund, freeBytes_nil, Bool.not_true, Bool.false_eq_true, if_false]
  rfl

/-- What a member keeps where a chunk of its buffers is written: its streams; the buffer gets the bytes. -/
structure Buffered (b off : Nat) (x : List Byte) (m m' : Member) : Prop where
  eng : m'.eng = m.eng
  bytes : bufMem m' b = setBytes (bufMem m b) off x

theorem bufMem_setBuf (m : Member) {b : Nat} (hb : b = 1 ∨ b = 2 ∨ b = 3) (x : Mem) : bufMem (setBuf m b x) b = x := by
  rcases hb with rfl | rfl | rfl <;> rfl

theorem bufMem_congr {m m' : Member} (hw : m'.buf.wb = m.buf.wb) (ha : m'.buf.ab = m.buf.ab) (hc : m'.buf.cb = m.buf.cb) (b : Nat) :
    bufMem m' b = bufMem m b := by
  simp only [bufMem, hw, ha, hc]

/-- A member with what it was to keep kept, and a chunk of a buffer written. -/
def chunkMember (b off : Nat) (x : List Byte) (k : Nat) (m : Member) : Member :=
  let m := if b = 3 then keepCb m off k else m
  let m := setBuf m b (setBytes (bufMem m b) off x)
  if k = 32 then { m with buf := { m.buf with bad := tput false m.buf.bad (badKey b off) false } } else m

theorem chunkMember_buffered {b : Nat} (hb : b = 1 ∨ b = 2 ∨ b = 3) (off : Nat) (x : List Byte) (k : Nat) (m : Member) :
    Buffered b off x m (chunkMember b off x k m) := by
  have hkeep : bufMem (if b = 3 then keepCb m off k else m) b = bufMem m b := by
    split
    · exact bufMem_congr (m' := keepCb m off k) rfl rfl rfl b
    · rfl
  have heng : (if b = 3 then keepCb m off k else m).eng = m.eng := by split <;> rfl
  unfold chunkMember
  generalize (if b = 3 then keepCb m off k else m) = m1 at hkeep heng
  have hput : bufMem (setBuf m1 b (setBytes (bufMem m1 b) off x)) b = setBytes (bufMem m b) off x := by rw [bufMem_setBuf _ hb, hkeep]
  dsimp only
  split
  · exact ⟨heng, (bufMem_congr rfl rfl rfl b).trans hput⟩
  · exact ⟨heng, hput⟩

/-- A write of a quiet chunk puts its bytes; the member's streams and device memory are as before. -/
theorem writeBuf_quiet {s : State} {n b off rank : Nat} (a : Acc) (x : List Byte) (hb : b = 1 ∨ b = 2 ∨ b = 3) (h : BufQuiet s n b off rank) :
    ∃ t, writeBuf s a n b off x rank = (.done, t) ∧ t.dmem = s.dmem ∧ Buffered b off x (mem s n) (mem t n) := by
  obtain ⟨hrank, -, hq⟩ := h
  have hund : undefBytes (stampAcc s a).2.2 a true (stampAcc s a).1 (bufLoc n b off) x.length = [] := undefBytes_of_quiet hq
  obtain ⟨y, hy⟩ := reachOps_mat b off x (mem (stampAcc s a).2.2 n) (stampAcc s a).2.2.free
  let m : Member := chunkMember b off x x.length { mem s n with mat := y }
  have hm : Buffered b off x (mem s n) m := by
    obtain ⟨heng, hbytes⟩ := chunkMember_buffered hb off x x.length { mem s n with mat := y }
    exact ⟨heng, hbytes⟩
  have hmem : mem (bufWrite s a n b off x) n = m := by
    have hmembers : (bufWrite s a n b off x).members = (setMem s n m).members := by
      unfold bufWrite
      simp only [hund, freeBytes_nil, hy]
      rfl
    rw [show mem (bufWrite s a n b off x) n = mem (setMem s n m) n by simp only [mem, hmembers], mem_setMem_same]
  refine ⟨updMem (bufWrite s a n b off x) n fun m => noteRank m b off rank, ?_, bufWrite_dmem .., ?_⟩
  · simp [writeBuf, hrank]
  · rw [mem_updMem_same, hmem]
    exact ⟨hm.eng, (bufMem_congr (m := m) rfl rfl rfl b).trans hm.bytes⟩

/-! ## A command at work (R247) -/

section
variable {s : State} {n : Nat} {e : Fin 4} {f : Fly}

theorem lostHandle_none (h : f.ph < 2 ∨ ∀ p ∈ f.hs, hValid p.2 = true) : lostHandle f = none := by
  unfold lostHandle
  split
  · rfl
  · rfl
  · split
    · rfl
    · rename_i hph
      rcases h with h | h
      · exact absurd (Or.inl h) hph
      · have hnone : (f.hs.find? fun p => !hValid p.2) = none := List.find?_eq_none.2 fun p hp => by simp [h p hp]
        rw [hnone]
        rfl

theorem lockOwed_of_sound (h : f.fail = none) : lockOwed f = false := by simp [lockOwed, h]

/-- A command whose small accesses are done goes on by its kind. -/
theorem flyStep_at_work {ph : Nat} (h : AtWork f ph) (hph : 2 ≤ ph) : flyStep s n e f = flyGo s n e f := by
  obtain ⟨rfl, hfail, hops, -, hvalid⟩ := h
  have h0 : f.ph ≠ 0 := by omega
  have h1 : f.ph ≠ 1 := by omega
  simp [flyStep, lostHandle_none (.inr hvalid), hops, lockOwed_of_sound hfail, hfail, h0, h1]

theorem flyStep_begins (h : AtWork f 1) : flyStep s n e f = flyBegin s n e f := by
  obtain ⟨hph, hfail, hops, -, -⟩ := h
  have hlost : lostHandle f = none := lostHandle_none (.inl (by omega))
  simp [flyStep, hlost, hops, lockOwed_of_sound hfail, hfail, hph]

/-- A command with a small access next performs it. -/
theorem flyStep_runs (h : f.ph = 1 ∨ ∀ p ∈ f.hs, hValid p.2 = true) (hops : f.ops ≠ []) : flyStep s n e f = runOp s n e f := by
  have hlost : lostHandle f = none := lostHandle_none (h.imp_left fun h => by omega)
  simp [flyStep, hlost, hops]

end

end Sys2Proof.Proofs
end

