-- ==== Sys2Proof/Proofs/Reductions.lean ====
section
/-! SUPPORT. The pieces of a collective's destination (R398) and the loop of R399 that reduces them. -/

namespace Sys2Proof.Proofs

open Sys2Proof Sys2Proof.Machine Sys2Proof.Laws Sys2Proof.Claims

/-! ## Rounded values fit their format -/

theorem roundTo_lt {f : Fmt} {B : Nat} (hsign : ∀ n, signCode f n ≤ B) (hmax : maxCode f < B) (hnan : nanCode f < 2 * B)
    (hinf : ∀ n, infCode f n < 2 * B) (x : FVal) : roundTo f false .rne x < 2 * B := by
  cases x with
  | nan => exact hnan
  | inf n => exact hinf n
  | fin n m e =>
    have hs := hsign n
    cases m with
    | zero =>
      show signCode f n < 2 * B
      omega
    | succ m =>
      rw [roundTo]
      · dsimp only
        split
        · omega
        · split
          · exact hinf n
          · omega
      · omega

theorem roundTo_collFmt_lt (c : Nat) (x : FVal) : roundTo (collFmt c) false .rne x < 256 ^ ((collFmt c).width / 8) := by
  unfold collFmt
  split
  · exact roundTo_lt (f := fp32) (B := 2 ^ 31) (by decide) (by decide) (by decide) (by decide) x
  · exact roundTo_lt (f := bf16) (B := 2 ^ 15) (by decide) (by decide) (by decide) (by decide) x
  · exact roundTo_lt (f := fp16) (B := 2 ^ 15) (by decide) (by decide) (by decide) (by decide) x

theorem redStep_lt (g : Grp) (acc x : Nat) : redStep g acc x < 256 ^ ((collFmt g.fmt).width / 8) := by
  unfold redStep
  dsimp only
  split
  · exact roundTo_collFmt_lt ..
  · exact roundTo_collFmt_lt ..

/-! ## The loop of R399, element by element -/

section
variable (g : Grp)

/-- Bytes of an element of a group's format. -/
abbrev elemWidth : Nat := (collFmt g.fmt).width / 8

/-- Element j of a piece. -/
def elemOf (x : List Byte) (j : Nat) : Nat := leNat ((x.drop (elemWidth g * j)).take (elemWidth g))

/-- The value rank 0 brings to the loop: its element, rounded. -/
def firstElem (x : List Byte) (j : Nat) : Nat := roundTo (collFmt g.fmt) false .rne (decodeFp (collFmt g.fmt) true (elemOf g x j))

theorem elemWidth_dvd : 0 < elemWidth g ∧ 32 / elemWidth g * elemWidth g = 32 := by
  unfold elemWidth collFmt
  split <;> decide

/-- Folding lists elementwise folds each element. -/
theorem foldl_zip_pieces (l : List (List Byte)) (j0 : Nat → Nat) {k : Nat} (hk : k = 32 / elemWidth g) :
    l.foldl (fun acc b => (acc.zip (pieceElems (collFmt g.fmt) b)).map fun p => redStep g p.1 p.2) ((List.range k).map j0) =
      (List.range k).map fun j => l.foldl (fun acc b => redStep g acc (elemOf g b j)) (j0 j) := by
  induction l generalizing j0 with
  | nil => rfl
  | cons b r ih =>
    have hstep : ((((List.range k).map j0).zip (pieceElems (collFmt g.fmt) b)).map fun p => redStep g p.1 p.2) =
        (List.range k).map fun j => redStep g (j0 j) (elemOf g b j) := by
      subst hk
      rw [pieceElems, List.zip_map', List.map_map]
      rfl
    rw [List.foldl_cons, hstep, ih]
    rfl

/-- The reduced piece as the list of its elements. -/
theorem redPieces_eq (x : List Byte) (l : List (List Byte)) :
    redPieces g none (x :: l) = ((List.range (32 / elemWidth g)).map fun j =>
      l.foldl (fun acc b => redStep g acc (elemOf g b j)) (firstElem g x j)).flatMap (leBytes (elemWidth g)) := by
  have hfirst : (pieceElems (collFmt g.fmt) x).map (fun e => roundTo (collFmt g.fmt) false .rne (decodeFp (collFmt g.fmt) true e)) =
      (List.range (32 / elemWidth g)).map (firstElem g x) := List.map_map
  rw [← foldl_zip_pieces g l (firstElem g x) rfl, ← hfirst]
  rfl

theorem length_redPieces (x : List Byte) (l : List (List Byte)) : (redPieces g none (x :: l)).length = 32 := by
  rw [redPieces_eq, List.length_flatMap]
  simp [Function.comp_def, (elemWidth_dvd g).2]

/-- Element j of the reduced piece is the loop over element j of the pieces. -/
theorem elemOf_redPieces (x : List Byte) (l : List (List Byte)) {j : Nat} (hj : j < 32 / elemWidth g) :
    elemOf g (redPieces g none (x :: l)) j = l.foldl (fun acc b => redStep g acc (elemOf g b j)) (firstElem g x j) := by
  have hfit : l.foldl (fun acc b => redStep g acc (elemOf g b j)) (firstElem g x j) < 256 ^ elemWidth g := by
    rcases List.eq_nil_or_concat l with rfl | ⟨r, b, rfl⟩
    · exact roundTo_collFmt_lt ..
    · rw [List.concat_eq_append, List.foldl_append]
      exact redStep_lt ..
  rw [elemOf, redPieces_eq, take_drop_flatMap (fun _ => length_leBytes ..) _ (by simpa using hj), leNat_leBytes]
  simpa using Nat.mod_eq_of_lt hfit

end

/-! ## The pieces of the destination -/

theorem mapM_eq_some {α β : Type} {h : α → Option β} {k : α → β} {l : List α} (hl : ∀ x ∈ l, h x = some (k x)) :
    l.mapM h = some (l.map k) := by
  induction l with
  | nil => rfl
  | cons a r ih => simp [List.mapM_cons, hl a List.mem_cons_self, ih fun x hx => hl x (List.mem_cons_of_mem _ hx)]

section
variable {s : State} {id : Word32} {g : Grp} {nth : Nat} {P : Nat → Nat → List Byte}
  (hmod : g.nmod = 1) (hself : g.self = 0) (hsw : g.switch = false) (hp : g.p = g.sites.length) (hpos : 1 ≤ g.p)
  (hfin : ∀ piece, finalAt s id g nth piece = none)
  (hin : ∀ rank piece, rank < g.p → piece < g.ln / 32 → pieceAt s id g nth rank piece false = some (P rank piece))
include hmod hself hsw hp hpos hfin hin

/-- On one module a reduced piece is the loop of R399 over the ranks. -/
theorem reducedAt_eq {piece : Nat} (h : piece < g.ln / 32) :
    reducedAt s id g nth piece = some (redPieces g none (P 0 piece :: ((List.range (g.p - 1)).map (· + 1)).map fun r => P r piece)) := by
  have hl : (List.range g.sites.length).mapM (fun i => pieceAt s id g nth (g.self * g.sites.length + i) piece false) =
      some ((List.range g.p).map fun r => P r piece) := by
    rw [hself, hp]
    refine mapM_eq_some fun i hi => ?_
    rw [Nat.zero_mul, Nat.zero_add, hin i piece (hp ▸ List.mem_range.1 hi) h]
  have hranks : (List.range g.p).map (fun r => P r piece) =
      P 0 piece :: ((List.range (g.p - 1)).map (· + 1)).map fun r => P r piece := by
    obtain ⟨m, hm⟩ := Nat.exists_eq_add_of_le' hpos
    rw [hm, List.range_succ_eq_map]
    rfl
  rw [reducedAt, hfin]
  simp only [hsw, hself, hmod, Bool.not_false, Nat.zero_add, beq_self_eq_true, Bool.and_self, if_true]
  rw [partialAt, hl, hranks]
  simp [hself]

/-- A piece of the destination of a reduction has the elements of the loop of R399. -/
theorem exists_reduced {piece q : Nat} (h : piece < g.ln / 32) (hd : destPiece s id g nth q = reducedAt s id g nth piece) :
    ∃ x, destPiece s id g nth q = some x ∧ x.length = 32 ∧ ∀ j, j < 32 / elemWidth g → elemOf g x j =
      ((List.range (g.p - 1)).map (· + 1)).foldl (fun acc r => redStep g acc (elemOf g (P r piece) j)) (firstElem g (P 0 piece) j) := by
  refine ⟨_, hd.trans (reducedAt_eq hmod hself hsw hp hpos hfin hin h), length_redPieces .., fun j hj => ?_⟩
  rw [elemOf_redPieces g _ _ hj, List.foldl_map]

end

/-- The pieces of a rank's block of the source lie within it (R398). -/
theorem block_piece_lt {g : Grp} (hk : g.kind = 1 ∨ g.kind = 3) {rank q : Nat} (hr : rank < g.p) (hq : q < grpBlock g / 32) :
    rank * (grpBlock g / 32) + q < g.ln / 32 := by
  have hb : grpBlock g = g.ln / g.p := if_pos hk
  rw [hb] at hq ⊢
  calc rank * (g.ln / g.p / 32) + q < (rank + 1) * (g.ln / g.p / 32) := by rw [Nat.succ_mul]; omega
    _ ≤ g.p * (g.ln / 32 / g.p) := by rw [Nat.div_div_eq_div_mul, Nat.div_div_eq_div_mul, Nat.mul_comm g.p 32]; exact Nat.mul_le_mul_right _ hr
    _ ≤ g.ln / 32 := Nat.mul_div_le ..

theorem grpBlock_whole {g : Grp} (hk : ¬ (g.kind = 1 ∨ g.kind = 3)) : grpBlock g = g.ln := if_neg hk

section
variable {s : State} {id : Word32} {g : Grp} {nth q : Nat}

theorem destPiece_allReduce (h : g.kind = 0) : destPiece s id g nth q = reducedAt s id g nth q := by simp [destPiece, h]

theorem destPiece_reduceScatter (h : g.kind = 1) :
    destPiece s id g nth q = reducedAt s id g nth (g.rank * (grpBlock g / 32) + q) := by simp [destPiece, h]

theorem destPiece_allGather (h : g.kind = 2) :
    destPiece s id g nth q = pieceAt s id g nth (q / (grpBlock g / 32)) (q % (grpBlock g / 32)) false := by simp [destPiece, h]

theorem destPiece_allToAll (h : g.kind = 3) : destPiece s id g nth q =
    pieceAt s id g nth (q / (grpBlock g / 32)) (g.rank * (grpBlock g / 32) + q % (grpBlock g / 32)) false := by simp [destPiece, h]

theorem destPiece_broadcast (h : g.kind = 4) : destPiece s id g nth q = pieceAt s id g nth g.root q false := by simp [destPiece, h]

end

/-! ## A piece of the source joins those at the module (R258) -/

/-- The step of the loop by kind: sum, maximum, minimum (R258, R399). -/
theorem redStep_eq (g : Grp) (acc x : Nat) : redStep g acc x = roundTo (collFmt g.fmt) false .rne (match g.red with
    | 0 => addNum .rne (decodeFp (collFmt g.fmt) true acc) (decodeFp (collFmt g.fmt) true x)
    | 1 => minMax true (decodeFp (collFmt g.fmt) true acc) (decodeFp (collFmt g.fmt) true x)
    | _ => minMax false (decodeFp (collFmt g.fmt) true acc) (decodeFp (collFmt g.fmt) true x)) := by
  unfold redStep
  generalize g.red = r
  match r with
  | 0 => rfl
  | 1 => rfl
  | r + 2 => rfl

section
variable {s : State} {n kind r sent nth : Nat} {f : Fly} {k : Coll} {g : Grp}

theorem flyGo_coll (e : Fin 4) (h : collOf f.cap.ins = some (kind, k)) : flyGo s n e f = collStep s n f k := by
  unfold collOf at h
  split at h <;> cases h <;> (rename_i hi; simp [flyGo, hi])

/-- The piece r of a participant's source, as it joins those at the module. -/
def givenPiece (s : State) (n : Nat) (f : Fly) (g : Grp) (r : Nat) : CollIn :=
  { launch := (bindOf s n).launch, tag := g.tag, nth := nthOf f, rank := g.rank, piece := r, final := false,
    data := bytesAt (mem s n).buf.ab (regN f 1 + 32 * r) 32, form := grpForm g }

/-- A participant that still has pieces to give gives the next (R258, R398). -/
theorem collStep_gives (hph : f.ph = 4) (haux : f.aux = [r, sent, 0, 0, nth]) (hg : grpOf s n f = some g)
    (hsame : grpDiffers s n f g = false) (hfits : grpFits f k g = true) (hr : r < grpPieces g)
    (hquiet : BufQuiet s n 2 (regN f 1 + 32 * r) 0) :
    ∃ u, collStep s n f k = putFly u n 2 { f with aux := [r + 1, sent, 0, 0, nth] } ∧ u.collIn = s.collIn ++ [givenPiece s n f g r] := by
  refine ⟨{ (stampAcc s (engAcc s n 2 f)).2.2 with collIn := s.collIn ++ [givenPiece s n f g r] }, ?_, rfl⟩
  have hread := readBuf_quiet (engAcc s n 2 f) 32 hquiet
  have hstep : collStep s n f k = collRead s n f g := by
    simp [collStep, hph, hg, hsame, hfits, haux, hr]
  rw [hstep, collRead]
  simp only [haux, List.getD_cons_zero, hread]
  simp only [nthOf, haux, collAux, givenPiece]
  rfl

end

end Sys2Proof.Proofs
end

