-- ==== Sys2Proof/Proofs/EngineCopies.lean ====
section
/-! SUPPORT. The copies of the engines (R254 to R257) and the small accesses of a command (R275, R281). -/

namespace Sys2Proof.Proofs

open Sys2Proof Sys2Proof.Machine Sys2Proof.Laws Sys2Proof.Claims

/-! ## The copy a command makes -/

theorem routeOf_listed (p : BitVec 3) : ([(0, 1), (0, 2), (2, 0), (3, 0), (0, 0)] : List (Nat × Nat))[p.toNat]? = none ∨
    ([(0, 1), (0, 2), (2, 0), (3, 0), (0, 0)] : List (Nat × Nat))[p.toNat]? = some (routeOf p) := by
  revert p
  decide

theorem fillOf_listed (p : BitVec 3) : ([1, 2, 3, 0] : List Nat)[p.toNat]? = none ∨ ([1, 2, 3, 0] : List Nat)[p.toNat]? = some (fillOf p) := by
  revert p
  decide

/-- The copy of a command is the one of its captured registers. -/
structure CopyGeo (f : Fly) (k : Copy) (src dst rn : Nat) (so to_ : Nat → Nat → Nat) : Prop where
  src : (geoOf f).src = src
  dst : (geoOf f).dst = dst
  sh : (geoOf f).sh = flyH f k.sh
  dh : (geoOf f).dh = flyH f k.dh
  fe : (geoOf f).fe = k.fe
  total : geoTotal (geoOf f) = if regN f 2 = 0 then 0 else rn * (regN f 2 / 32)
  reads : ∀ c, geoSrc (geoOf f) c = so (c / (regN f 2 / 32)) (c % (regN f 2 / 32))
  writes : ∀ c, geoDst (geoOf f) c = to_ (c / (regN f 2 / 32)) (c % (regN f 2 / 32))

section
variable {f : Fly} {k : Copy} {src dst rn : Nat} {so to_ : Nat → Nat → Nat}

/-- A listed space, where there is one, is the model's. -/
theorem map_listed {α β : Type} {o : Option α} {x : α} {g : α → β} {y : β} (h : o = none ∨ o = some x) (hy : o.map g = some y) : g x = y := by
  rcases h with rfl | rfl
  · cases hy
  · exact Option.some.inj hy

/-- The instructions that copy. -/
inductive Copies : Instr → Copy → Prop
  | cpy (e : ECmd) (k : Copy) : Copies (.cpy e k) k
  | cfill (e : ECmd) (k : Copy) : Copies (.cfill e k) k
  | cpyc (e : ECmd) (k : Copy) (a b c : SReg) : Copies (.cpyc e k a b c) k
  | tfetch (e : ECmd) (k : Copy) (a b : SReg) : Copies (.tfetch e k a b) k

theorem copies_of_copyOf {i : Instr} (h : copyOf i = some k) : Copies i k := by
  unfold copyOf at h
  split at h <;> cases h <;> constructor

theorem copyGeo_of_spec (hk : Copies f.cap.ins k) (hs : copySpec f.cap.ins (regN f) = some (src, dst, rn, so, to_)) :
    CopyGeo f k src dst rn so to_ := by
  generalize hi : f.cap.ins = i at hk hs
  cases hk with
  | cfill e =>
    cases map_listed (fillOf_listed _) hs
    constructor <;> simp [geoOf, hi, geoTotal, geoSrc, geoDst]
  | cpy e =>
    cases map_listed (routeOf_listed _) hs
    constructor <;> simp [geoOf, hi, geoTotal, geoSrc, geoDst]
  | cpyc e _ a b c =>
    cases map_listed (routeOf_listed _) hs
    constructor <;> simp [geoOf, hi, geoTotal, geoSrc, geoDst]
  | tfetch e _ a b =>
    cases map_listed (routeOf_listed _) hs
    constructor <;> simp [geoOf, hi, geoTotal, geoSrc, geoDst]

theorem routeOf_le (p : BitVec 3) : (routeOf p).2 ≤ 3 := by
  revert p
  decide

theorem fillOf_le (p : BitVec 3) : fillOf p ≤ 3 := by
  revert p
  decide

theorem geoOf_dst_le (hk : Copies f.cap.ins k) : (geoOf f).dst ≤ 3 := by
  generalize hi : f.cap.ins = i at hk
  cases hk with
  | cfill e => simpa [geoOf, hi] using fillOf_le k.pair
  | cpy e => simpa [geoOf, hi] using routeOf_le k.pair
  | cpyc e _ a b c => simpa [geoOf, hi] using routeOf_le k.pair
  | tfetch e _ a b => simpa [geoOf, hi] using routeOf_le k.pair

end

section
variable {s : State} {n : Nat} {e : Fin 4} {f : Fly} {k : Copy}

theorem flyBegin_copy (hk : Copies f.cap.ins k) : flyBegin s n e f = copyBegin s n e f := by
  generalize hi : f.cap.ins = i at hk
  cases hk <;> simp [flyBegin, hi]

theorem flyGo_copy (hk : Copies f.cap.ins k) : flyGo s n e f = if copyDone f then putFly s n e { f with ph := donePh }
    else if copyWrite s n e f = s then copyRead s n e f else copyWrite s n e f := by
  generalize hi : f.cap.ins = i at hk
  cases hk <;> simp [flyGo, hi]

end

/-! ## Begin (R247, R251, R257) -/

/-- The command with its working values set to begin. -/
def begunCopy (f : Fly) : Fly := { f with ph := 2, aux := [0, 0, geoTotal (geoOf f)] }

section
variable {s : State} {n : Nat} {e : Fin 4} {f : Fly} {k : Copy}

theorem findFly_congr {t : State} (h : (mem t n).eng = (mem s n).eng) (e : Fin 4) (i : BitVec 32) : findFly t n e i = findFly s n e i := by
  rw [findFly, findFly, streamOf_congr h]

theorem pinLine_beside (ctx : Nat) (id : Word32) (s : State) (pa : Nat) : Beside s (pinLine ctx id s pa) := by
  unfold pinLine
  dsimp only
  split <;> exact .of_members rfl rfl

theorem pinLines_beside (ctx : Nat) (id : Word32) (s : State) (l : List Nat) : Beside s (l.foldl (pinLine ctx id) s) := by
  induction l generalizing s with
  | nil => exact .refl s
  | cons pa r ih => exact (pinLine_beside ctx id s pa).trans (ih _)

theorem tfPin_granted {g : Geo} {run : Fly} (hpins : judgePins s (siteCtx s n) (tfLines g) = .granted)
    (hpaid : nextFetch s (tfLines g) f.aux.tail = none) :
    tfPin s n e f g run =
      let p := takeFresh ((tfLines g).foldl (pinLine (siteCtx s n) (bindOf s n).launch) s)
      updMem (putFly p.2 n e run) n fun m =>
        countN { m with buf := { m.buf with tfPins := m.buf.tfPins ++ tfSlots g p.1 } } 0x063 (tfLines g).length := by
  simp [tfPin, hpins, hpaid]

theorem copyBegin_begins (hk : Copies f.cap.ins k) (hh : geoHandle (geoOf f) = none) (hok : geoOk f (geoOf f) = true)
    (hpins : ∀ e k a b, f.cap.ins = .tfetch e k a b → judgePins s (siteCtx s n) (tfLines (geoOf f)) = .granted ∧
      nextFetch s (tfLines (geoOf f)) f.aux.tail = none) :
    (findFly s n e f.idx = some f → findFly (copyBegin s n e f) n e f.idx = some (begunCopy f)) ∧
      (copyBegin s n e f).dmem = s.dmem := by
  have hplain (h : copyBegin s n e f = putFly s n e (begunCopy f)) :
      (findFly s n e f.idx = some f → findFly (copyBegin s n e f) n e f.idx = some (begunCopy f)) ∧ (copyBegin s n e f).dmem = s.dmem := by
    rw [h]
    exact ⟨fun hf => findFly_putFly hf rfl, rfl⟩
  generalize hi : f.cap.ins = i at hk
  cases hk with
  | cpy e' => exact hplain (by simp [copyBegin, hh, hok, hi, begunCopy])
  | cfill e' => exact hplain (by simp [copyBegin, hh, hok, hi, begunCopy])
  | cpyc e' _ a b c => exact hplain (by simp [copyBegin, hh, hok, hi, begunCopy])
  | tfetch e' _ a b =>
    obtain ⟨hgrant, hpaid⟩ := hpins _ _ _ _ hi
    have hbegin : copyBegin s n e f = tfPin s n e f (geoOf f) (begunCopy f) := by simp [copyBegin, hh, hok, hi, begunCopy]
    have hpinned := pinLines_beside (siteCtx s n) (bindOf s n).launch s (tfLines (geoOf f))
    have htag : Beside _ (takeFresh ((tfLines (geoOf f)).foldl (pinLine (siteCtx s n) (bindOf s n).launch) s)).2 :=
      hpinned.trans (.of_members rfl rfl)
    have hnoted (t : State) (tag : Nat) : Beside t (updMem t n fun m =>
        countN { m with buf := { m.buf with tfPins := m.buf.tfPins ++ tfSlots (geoOf f) tag } } 0x063 (tfLines (geoOf f)).length) :=
      beside_updMem t n (fun _ => rfl) (fun _ => rfl)
    rw [hbegin, tfPin_granted hgrant hpaid]
    dsimp only
    refine ⟨fun hf => ?_, (hnoted _ _).dmem.trans htag.dmem⟩
    rw [findFly_congr ((hnoted _ _).eng n)]
    exact findFly_putFly ((findFly_congr (htag.eng n) ..).trans hf) rfl

end

/-! ## Chunks read and written (R255, R281) -/

section
variable {s : State} {n : Nat} {e : Fin 4} {f : Fly} {k : Copy} {src dst rn : Nat} {so to_ : Nat → Nat → Nat} {i total : Nat}

/-- Chunk i of a copy in its rows: the row, and the chunk of the row. -/
abbrev inRow (f : Fly) (to_ : Nat → Nat → Nat) (i : Nat) : Nat := to_ (i / (regN f 2 / 32)) (i % (regN f 2 / 32))

/-- A copy whose chunks have been written is done. -/
theorem copy_ends (hk : Copies f.cap.ins k) (hw : AtWork f 2) (haux : f.aux = [total, total, total]) :
    flyStep s n e f = putFly s n e { f with ph := donePh } := by
  rw [flyStep_at_work hw le_rfl, flyGo_copy hk, if_pos (by simp [copyDone, copyAt, hw.1, haux])]

/-- A copy with nothing to write reads. -/
theorem flyStep_copyRead (hk : Copies f.cap.ins k) (hw : AtWork f 2) (haux : f.aux = [i, i, total]) (hi : i < total) (hwr : f.wr = []) :
    flyStep s n e f = copyRead s n e f := by
  have hdone : ¬ copyDone f = true := by simp [copyDone, copyAt, haux, hi.ne]
  have hnone : copyWrite s n e f = s := by simp [copyWrite, hwr]
  rw [flyStep_at_work hw le_rfl, flyGo_copy hk, if_neg hdone, if_pos hnone]

/-- The command once chunk i has been read. -/
def readChunk (f : Fly) (i total : Nat) (b : List Byte) : Fly := { f with aux := [i + 1, i, total], wr := [(i, b)] }

/-- The pattern of a fill, eight times (R255). -/
theorem fillChunk_eq (f : Fly) : fillChunk f = (List.replicate 8 (leBytes 4 (regN f 1 % 2 ^ 32))).flatten := rfl

/-- A read that leaves device memory and the member's buffers. -/
def CopyReads (s : State) (n : Nat) (e : Fin 4) (f : Fly) (i total : Nat) (b : List Byte) : Prop :=
  Works s n e f (readChunk f i total b) fun u => u.dmem = s.dmem ∧ (mem u n).buf = (mem s n).buf

section
variable (hk : Copies f.cap.ins k) (hg : CopyGeo f k src dst rn so to_) (hw : AtWork f 2) (haux : f.aux = [i, i, total]) (hi : i < total)
  (hwr : f.wr = [])
include hk hg hw haux hi hwr

theorem copy_makes (hsrc : src = 4) : CopyReads s n e f i total (List.replicate 8 (leBytes 4 (regN f 1 % 2 ^ 32))).flatten := by
  refine ⟨s, ?_, rfl, rfl⟩
  rw [flyStep_copyRead hk hw haux hi hwr]
  rw [← fillChunk_eq]
  simp [copyRead, copyAt, haux, hw.1, hw.2.1, hi, hg.src, hsrc, hwr, readChunk]

theorem copy_reads_device (hsrc : src = 0) (hq : Undisturbed s (siteCtx s n) (hKeyIdx (flyH f k.sh)) (hBase (flyH f k.sh) + inRow f so i))
    (hal : (hBase (flyH f k.sh) + inRow f so i) % 32 = 0) :
    CopyReads s n e f i total (bytesAt s.dmem (hBase (flyH f k.sh) + inRow f so i) 32) := by
  obtain ⟨t, ht, hd, hc⟩ := readPa_undisturbed (a := engAcc s n e f)
    { reqOf (.eng n e) f.idx.toNat i (hBase (flyH f k.sh) + inRow f so i) 32 false [] with va := hVa (flyH f k.sh) + inRow f so i } hq
    (n := 32) (by omega)
  refine ⟨t, ?_, hd, hc.buf n⟩
  rw [flyStep_copyRead hk hw haux hi hwr]
  simp [copyRead, copyAt, haux, hw.1, hw.2.1, hi, hg.src, hg.sh, hg.reads, hsrc, hwr, ht, readChunk]

theorem copy_reads_buffer (hsrc : src = 2 ∨ src = 3) (hfe : k.fe = false) (hq : BufQuiet s n src (inRow f so i) 0) :
    CopyReads s n e f i total (bytesAt (bufMem (mem s n) src) (inRow f so i) 32) := by
  have hread := readBuf_quiet (engAcc s n e f) 32 hq
  have h4 : src ≠ 4 := by omega
  have h0 : src ≠ 0 := by omega
  refine ⟨(stampAcc s (engAcc s n e f)).2.2, ?_, rfl, rfl⟩
  rw [flyStep_copyRead hk hw haux hi hwr]
  simp [copyRead, copyAt, haux, hw.1, hw.2.1, hi, hg.src, hg.fe, hg.reads, hfe, h4, h0, hwr, hread, readChunk]

end

/-- The command once chunk i has been written. -/
def wroteChunk (f : Fly) (i total : Nat) : Fly := { f with aux := [i + 1, i + 1, total], wr := [] }

section
variable {b : List Byte} (hk : Copies f.cap.ins k) (hg : CopyGeo f k src dst rn so to_) (hw : AtWork f 2)
  (haux : f.aux = [i + 1, i, total]) (hi : i < total) (hwr : f.wr = [(i, b)]) (hf : findFly s n e f.idx = some f)
  (hover : copyOverlaps f (geoOf f) (i + 1) total (inRow f to_ i) = false)

include hk hw haux hi hwr hf in
/-- A write that succeeds is the step of the copy. -/
theorem flyStep_copyWrite {t : State} (heng : (mem t n).eng = (mem s n).eng)
    (hwrite : copyWrite s n e f = putFly t n e (wroteChunk f i total)) : flyStep s n e f = putFly t n e (wroteChunk f i total) := by
  have hdone : ¬ copyDone f = true := by simp [copyDone, copyAt, haux, hi.ne]
  have hmoved : copyWrite s n e f ≠ s := by
    intro h
    have hfind : findFly s n e f.idx = some (wroteChunk f i total) := by
      conv_lhs => rw [← h, hwrite]
      exact findFly_putFly ((findFly_congr heng ..).trans hf) rfl
    have hsame : f = wroteChunk f i total := Option.some.inj (hf.symm.trans hfind)
    have haux' := congrArg Fly.wr hsame
    rw [hwr] at haux'
    cases haux'
  rw [flyStep_at_work hw le_rfl, flyGo_copy hk, if_neg hdone, if_neg hmoved, hwrite]

include hk hg hw haux hi hwr hf hover

theorem copy_writes_device (hlen : b.length = 32) (hdst : dst = 0)
    (hq : Undisturbed s (siteCtx s n) (hKeyIdx (flyH f k.dh)) (hBase (flyH f k.dh) + inRow f to_ i))
    (hal : (hBase (flyH f k.dh) + inRow f to_ i) % 32 = 0) :
    Works s n e f (wroteChunk f i total) fun u =>
      ∀ x, byteAt u.dmem x = byteAt (setBytes s.dmem (hBase (flyH f k.dh) + inRow f to_ i) b) x := by
  obtain ⟨t, ht, hc, hd⟩ := writePa_undisturbed (a := engAcc s n e f) (b := b)
    { reqOf (.eng n e) f.idx.toNat i (hBase (flyH f k.dh) + inRow f to_ i) 32 true b with va := hVa (flyH f k.dh) + inRow f to_ i } false hq
    (by omega)
  refine ⟨t, flyStep_copyWrite hk hw haux hi hwr hf (hc.eng n) ?_, hd⟩
  simp [copyWrite, copyAt, haux, hw.1, hw.2.1, hg.dst, hg.dh, hg.writes, hdst, hwr, hover, ht, wroteChunk]

theorem copy_writes_buffer (hdst : dst = 1 ∨ dst = 2 ∨ dst = 3) (hfe : k.fe = false)
    (hdue : dst = 3 → cbDue (mem s n) (inRow f to_ i) = false)
    (hq : BufQuiet s n dst (inRow f to_ i) (if e = 0 then 3 else 4)) :
    Works s n e f (wroteChunk f i total) fun u => u.dmem = s.dmem ∧
      bufMem (mem u n) dst = setBytes (bufMem (mem s n) dst) (inRow f to_ i) b := by
  obtain ⟨t, ht, hd, hm⟩ := writeBuf_quiet (engAcc s n e f) b hdst hq
  have h0 : dst ≠ 0 := by omega
  refine ⟨t, flyStep_copyWrite hk hw haux hi hwr hf hm.eng ?_, hd, hm.bytes⟩
  simp [copyWrite, copyAt, haux, hw.1, hw.2.1, hg.dst, hg.fe, hg.writes, h0, hfe, hwr, hover, ht, wroteChunk]
  exact fun h hheld => absurd ((hdue h).symm.trans hheld) nofun

end

end

/-! ## Small accesses to the context's space (R275, R281) -/

section
variable {s : State} {n : Nat} {e : Fin 4} {f : Fly} {rest : List MicroOp} {pa va key : Nat}

section
variable (hph : f.ph = 1 ∨ ∀ p ∈ f.hs, hValid p.2 = true) (hreq : f.req = []) (hkey : opKey s n f va = some key)
  (hq : Undisturbed s (siteCtx s n) key pa)
include hph hreq hkey hq

theorem op_reads {k : Nat} (hops : f.ops = .read pa va k :: rest) (hn : pa % 32 + k ≤ 32) :
    Works s n e f { f with ops := rest, got := setBytes f.got va (bytesAt s.dmem pa k) } fun u => u.dmem = s.dmem := by
  obtain ⟨t, ht, hd, -⟩ := readPa_undisturbed (a := engAcc s n e f)
    { reqOf (.eng n e) f.idx.toNat opPiece pa k false [] with va := va } hq hn
  refine ⟨t, ?_, hd⟩
  rw [flyStep_runs hph (by simp [hops])]
  simp [runOp, hops, hreq, opVa, hkey, ht, afterOp]

theorem op_moves {dst : Nat} (hops : f.ops = .move pa dst va :: rest) (hal : pa % 32 = 0) :
    Works s n e f { f with ops := .write dst va (bytesAt s.dmem pa 32) :: rest } fun u => u.dmem = s.dmem := by
  obtain ⟨t, ht, hd, -⟩ := readPa_undisturbed (a := engAcc s n e f) (n := 32)
    { reqOf (.eng n e) f.idx.toNat opPiece pa 32 false [] with va := va } hq (by omega)
  refine ⟨t, ?_, hd⟩
  rw [flyStep_runs hph (by simp [hops])]
  simp [runOp, hops, hreq, opVa, hkey, ht, afterOp]

theorem op_writes {b : List Byte} (hops : f.ops = .write pa va b :: rest) (hn : pa % 32 + b.length ≤ 32) :
    Works s n e f { f with ops := rest } fun u => ∀ x, byteAt u.dmem x = byteAt (setBytes s.dmem pa b) x := by
  obtain ⟨t, ht, -, hd⟩ := writePa_undisturbed (a := engAcc s n e f) (b := b)
    { reqOf (.eng n e) f.idx.toNat opPiece pa b.length true b with va := va } false hq hn
  refine ⟨t, ?_, hd⟩
  rw [flyStep_runs hph (by simp [hops])]
  simp [runOp, hops, hreq, opVa, hkey, ht, afterOp]

end

end

/-- A byte after a run is written, by its place in the run. -/
theorem byteAt_setBytes_getD (m : Mem) (a : Nat) (b : List Byte) (x : Nat) :
    byteAt (setBytes m a b) x = if a ≤ x ∧ x < a + b.length then b.getD (x - a) 0 else byteAt m x := by
  rw [byteAt_setBytes]
  split
  · rename_i h
    rw [List.getD_eq_getElem]
  · rfl

end Sys2Proof.Proofs
end

