-- ==== Sys2Proof/Proofs/EngineData.lean ====
section
/-! PROOF. What a step of an engine's command moves or computes (R254 to R260, R374 to R376, R398, R399). -/

namespace Sys2Proof.Proofs

open Sys2Proof Sys2Proof.Machine Sys2Proof.Laws Sys2Proof.Claims

/-! ## An element of `rmerge` (R259) -/

section
variable {s : State} {n : Nat} {e : Fin 4} {f : Fly} {ec : ECmd} {dh : HReg} {d ct nc : SReg} {ty : Bool} {ln : Fin 32}
  {ans el c guess : Nat} {vas : List Nat}

/-- The sum of an element and its copies, in the order of their owners. -/
def mergeSum (f : Fly) (ty : Bool) (el : Nat) (vas : List Nat) (old : Nat) : Nat :=
  vas.foldl (fun acc v =>
    let x := numAt f.got (v + 4 * el) 4
    if ty then (acc + x) % 2 ^ 32 else roundTo fp32 false .rne (addNum .rne (decodeFp fp32 false acc) (decodeFp fp32 false x))) old

theorem mergeElem_eq (f : Fly) (ty : Bool) (el : Nat) (vas : List Nat) (old : Nat) :
    mergeElem (!ty) (vas.map fun v => gotNum f (v + 4 * el) 4) old = mergeSum f ty el vas old := by
  rw [mergeElem, List.foldl_map, mergeSum]
  cases ty <;> rfl

/-- The command with element el merged. -/
def mergedElem (f : Fly) (el c : Nat) (vas : List Nat) : Fly :=
  { f with aux := 0 :: (el + 1) :: (if el % 8 = 7 then 0 else c) :: 0 :: vas, wr := [], got := if el % 8 = 7 then [] else f.got }

theorem rmerge_merges (hi : f.cap.ins = .rmerge ec dh d ty ct nc ln) (hw : AtWork f 3) (haux : f.aux = ans :: el :: c :: guess :: vas)
    (hlt : 4 * el < regN f 3) (hread : el % 8 ≠ 0 ∨ vas.length ≤ c) (hal : (hBase (flyH f dh) + regN f 0 + 4 * el) % 4 = 0)
    (hq : Undisturbed s (siteCtx s n) (hKeyIdx (flyH f dh)) (hBase (flyH f dh) + regN f 0 + 4 * el)) :
    ∃ u, flyStep s n e f = putFly u n e (mergedElem f el c vas) ∧
      ∀ x, byteAt u.dmem x = byteAt (setBytes s.dmem (hBase (flyH f dh) + regN f 0 + 4 * el)
        (leBytes 4 (mergeSum f ty el vas (numAt s.dmem (hBase (flyH f dh) + regN f 0 + 4 * el) 4)))) x := by
  obtain ⟨t, ht, -, hd⟩ := atomBy_undisturbed (a := engAcc s n e f) (n := 4)
    (mergeElem (!ty) (vas.map fun v => gotNum f (v + 4 * el) 4)) hq (by omega)
  have hnoread : ¬ (el % 8 = 0 ∧ c < vas.length) := by omega
  refine ⟨t, ?_, fun x => by rw [hd, mergeElem_eq]⟩
  have hdest : destOf f = (flyH f dh, regN f 0) := by simp [destOf, hi]
  have hgo : flyGo s n e f = mergeStep s n e f := by simp [flyGo, hi]
  rw [flyStep_at_work hw (by decide), hgo]
  simp only [mergeStep, hw.1, haux, Nat.not_le.2 hlt, hnoread, hdest, hi, hq.1, ht, if_false, mergedElem]

end

/-! ## The counters of a die (R260) -/

theorem tget_tclear {α : Type} (d : α) (t : Tab α) (lo n k : Nat) :
    tget d (tclear t lo n) k = if lo ≤ k ∧ k < lo + n then d else tget d t k := by
  induction t with
  | nil => simp [tclear, tget]
  | cons p r ih =>
    obtain ⟨j, a⟩ := p
    have hcons : tget d ((j, a) :: r) k = if j = k then a else tget d r k := rfl
    unfold tclear at ih ⊢
    rw [List.filter_cons, hcons]
    split
    · rename_i hj
      by_cases hk : j = k
      · subst hk
        rw [if_neg (by simp at hj; omega)]
        simp [tget]
      · simp [tget, hk, ih]
    · rename_i hj
      by_cases hk : j = k
      · subst hk
        have hin : lo ≤ j ∧ j < lo + n := by simp at hj; omega
        rw [ih, if_pos hin, if_pos hin]
      · simp [hk, ih]

/-- A flat list cut into rows. -/
theorem flatMap_range_mul {α : Type} (g : Nat → List α) (m k : Nat) :
    (List.range (m * k)).flatMap g = (List.range k).flatMap fun i => (List.range m).flatMap fun j => g (m * i + j) := by
  induction k with
  | zero => rfl
  | succ k ih => rw [Nat.mul_succ, List.range_add, List.range_succ, List.flatMap_append, List.flatMap_append, ih, List.flatMap_map]; simp

/-- The write of eight counters of a die. -/
def snapWrite (s : State) (n pa va i : Nat) : MicroOp :=
  .write (pa + 32 * i) (va + 32 * i) ((List.range 8).flatMap fun j => leBytes 4 (tget 0 s.rtbank (256 * dieOf n + 8 * i + j)).toNat)

/-- The writes of the counters of a die, eight at a time. -/
def snapWrites (s : State) (n pa va : Nat) : List MicroOp := (List.range 32).map (snapWrite s n pa va)

section
variable {s : State} {n : Nat} {e : Fin 4} {f : Fly} {ec : ECmd} {dh : HReg} {d : SReg} {t0 : Nat}

theorem rtsnap_takes (hi : f.cap.ins = .rtsnap ec dh d) (hw : AtWork f 1) (haux : f.aux = [t0]) (ht : t0 < s.cal)
    (hh : handleBad (flyH f dh) [.w] = none) (hoff : regN f 0 % 32 = 0) (hfit : regN f 0 + 1024 ≤ hBytes (flyH f dh))
    (hwin : windowOf (hBase (flyH f dh) + regN f 0) = .dev) :
    flyStep s n e f = putFly { s with rtbank := tclear s.rtbank (256 * dieOf n) 256 } n e
      { f with ph := 2, aux := [], ops := snapWrites s n (hBase (flyH f dh) + regN f 0) (hVa (flyH f dh) + regN f 0) } := by
  have hdest : destOf f = (flyH f dh, regN f 0) := by simp [destOf, hi]
  have hbegin : flyBegin s n e f = snapBegin s n e f := by simp [flyBegin, hi]
  have hops : ((List.range 32).map fun i => MicroOp.write (hBase (flyH f dh) + regN f 0 + 32 * i) (hVa (flyH f dh) + regN f 0 + 32 * i)
        ((((List.range 256).flatMap fun i => leBytes 4 (tget 0 s.rtbank (256 * dieOf n + i)).toNat).drop (32 * i)).take 32)) =
      snapWrites s n (hBase (flyH f dh) + regN f 0) (hVa (flyH f dh) + regN f 0) := by
    refine List.map_congr_left fun i hi => ?_
    rw [flatMap_range_mul _ 8 32, take_drop_flatMap (fun a => by simp) _ (by simpa using hi)]
    simp [snapWrite, Nat.add_assoc]
  rw [flyStep_begins hw, hbegin, ← hops]
  simp [snapBegin, hdest, hh, hoff, Nat.not_lt.2 hfit, hwin, haux, Nat.not_le.2 ht]

end

/-! ## The statement -/

/-- Settles O40: the step of each kind of command by its own lemma, the slots of the Harvest commands by the order of their
candidates, and a reduced piece by the loop over each of its elements. -/
theorem engineData : Obligations.EngineData := by
  unfold Obligations.EngineData
  refine ⟨?_, ?_, ?_, ?_, ?_, ?_, ?_, ?_⟩
  · intro s n e f k src dst rn so to_ i hk hs per total sh dh so' do_
    have hk := copies_of_copyOf hk
    have hg := copyGeo_of_spec hk hs
    have htotal : geoTotal (geoOf f) = total := hg.total
    refine ⟨fun hw hh hok hpins => ?_, fun hw haux hi hwr => ⟨fun hsrc => ?_, fun hsrc hq hal => ?_, fun hsrc hfe hq => ?_⟩,
      fun b hw haux hi hwr hlen hf hover => ⟨fun hdst hq hal => ?_, fun hdst hfe hdue hq hal => ?_⟩, fun hw haux => copy_ends hk hw haux⟩
    · obtain ⟨hfind, hd⟩ := copyBegin_begins hk hh hok hpins
      refine ⟨_, _, (flyStep_begins hw).trans (flyBegin_copy hk), hfind, ?_, hd⟩
      rw [begunCopy, htotal]
    · exact copy_makes hk hg hw haux hi hwr hsrc
    · exact copy_reads_device hk hg hw haux hi hwr hsrc hq hal
    · exact copy_reads_buffer hk hg hw haux hi hwr hsrc hfe hq
    · obtain ⟨u, hu, hd⟩ := copy_writes_device hk hg hw haux hi hwr hf hover hlen hdst hq hal
      refine ⟨u, hu, fun x => ?_⟩
      rw [hd, byteAt_setBytes_getD, hlen]
    · have hle : dst ≤ 3 := hg.dst ▸ geoOf_dst_le hk
      obtain ⟨u, hu, hd, hbuf⟩ := copy_writes_buffer hk hg hw haux hi hwr hf hover (by omega) hfe hdue hq
      refine ⟨u, hu, hd, fun x => ?_⟩
      rw [hbuf, byteAt_setBytes_getD, hlen]
  · intro s n e f rest pa va key hph hfail hreq hkey hq
    refine ⟨fun k hops hn => op_reads hph hreq hkey hq hops hn, fun dst hops hal => op_moves hph hreq hkey hq hops hal, fun b hops hn => ?_⟩
    obtain ⟨u, hu, hd⟩ := op_writes hph hreq hkey hq hops hn
    exact ⟨u, hu, fun x => by rw [hd, byteAt_setBytes_getD]⟩
  · intro s n e f ec dh d ct nc ty ln ans el c guess vas hi hw haux hlt hread pa hal hq sum
    obtain ⟨u, hu, hd⟩ := rmerge_merges hi hw haux hlt hread hal hq
    refine ⟨u, _, hu, hw.1, rfl, hw.2.1, rfl, rfl, numAt_of_written hd, fun x hx => ?_⟩
    rw [hd]
    exact byteAt_setBytes_outside _ _ _ _ (by simpa using hx)
  · intro s n e f ec dh d t0 hi hw haux ht h off hh hoff hfit hwin
    refine ⟨_, _, rtsnap_takes hi hw haux ht hh hoff hfit hwin, by simp [snapWrites], rfl, fun j => ?_, fun i hi => ?_⟩
    · rw [tget_tclear]
      have hdie : (256 * dieOf n ≤ j ∧ j < 256 * dieOf n + 256) ↔ j / 256 = dieOf n := by omega
      simp only [hdie]
    · rw [snapWrites, List.getElem?_map, List.getElem?_range hi]
      rfl
  · intro f ec p a w d dk cands sv
    refine ⟨rfl, fun hi => ⟨_, candidates_perm f, candidates_ordered f, removedNow_hvstKeep hi⟩, fun hi x => mem_removedNow_hvstMass hi x,
      fun hi => removedNow_hcomp hi, survivors_perm f, survivors_ordered f, fun hi => mapNext_packed ?_,
      fun x hx => ⟨fun hi => newMeta_hcomp hi x, fun hi => newMeta_hvst hi x⟩, fun hi => ⟨rfl, ?_⟩⟩
    · rintro ec' p' a' ht
      rcases hi with ⟨dk', hi | hi⟩ | hi <;> rw [hi] at ht <;> cases ht
    · rw [mapNext, hi]
      rfl
  · intro s n f ops h
    refine ⟨fun hi i x b va c hx hb hva hc => ?_, fun ec p a hi x hx => buildOps_clears h hi hx⟩
    subst hb
    exact buildOps_moves h hi hx hva hc
  · intro s n f kind r sent nth k g hcoll hw haux hg hsame hfits hr hq
    obtain ⟨u, hu, hin⟩ := collStep_gives (k := k) hw.1 haux hg hsame hfits hr hq
    refine ⟨u, _, ?_, hin, rfl, rfl, rfl, ?_, rfl, rfl⟩
    · rw [flyStep_at_work hw (by decide), flyGo_coll 2 hcoll, hu]
    · simp [givenPiece, nthOf, haux]
  · intro s id g nth q P hmod hself hsw hp hpos hfin hin hroot hrank b hb f w el val joined reduced
    have hjoined (acc x : Nat) : joined acc x = redStep g acc x := (redStep_eq g acc x).symm
    have hreduced {piece : Nat} (h : piece < g.ln / 32) (hd : destPiece s id g nth q = reducedAt s id g nth piece) : reduced piece := by
      simp only [reduced, hjoined]
      exact exists_reduced hmod hself hsw hp hpos hfin hin h hd
    refine ⟨fun hk hq => hreduced ?_ (destPiece_allReduce hk),
      fun hk hq => hreduced (block_piece_lt (.inl hk) hrank hq) (destPiece_reduceScatter hk),
      fun hk hq => ?_, fun hk hq => ?_, fun hk hq => ?_⟩
    · rwa [← grpBlock_whole (g := g) (by omega)]
    · rw [destPiece_allGather hk, hin _ _ hq]
      rw [← grpBlock_whole (g := g) (by omega)]
      exact Nat.mod_lt _ hb
    · rw [destPiece_allToAll hk, hin _ _ hq]
      exact block_piece_lt (.inr hk) hrank (Nat.mod_lt _ hb)
    · rw [destPiece_broadcast hk, hin _ _ hroot]
      rwa [← grpBlock_whole (g := g) (by omega)]

end Sys2Proof.Proofs
end
